-- ==== Sys2Proof/Word.lean ====
section
/-! DEFINITION. The word types of the SG240: bytes of the line, trunk addresses, day numbers, uptime,
row indexes and buffer numbers. -/

namespace Sys2Proof

/-- One byte of a trunk line. -/
abbrev Byte := BitVec 8

/-- A trunk address (00_scope.md, Terms): 0x0000..0xFFFE name stations, 0xFFFF is broadcast. -/
abbrev Addr := BitVec 16

/-- A day number, 0..65535 (04 section 4.1). -/
abbrev DayNum := BitVec 16

/-- Uptime in ticks, 40 bits, wrapping (R57). -/
abbrev Uptime := BitVec 40

/-- A row index, 0..255 (00_scope.md, Terms). -/
abbrev Index := Fin 256

/-- A buffer number, 0..63 (R12). -/
abbrev BufId := Fin 64

/-- A set of window numbers 0..31, bit n for window n (section 12.2, stream entry bytes 14-17). -/
abbrev WindowSet := BitVec 32

end Sys2Proof
end

