-- ==== Sys2Proof/Syntax.lean ====
section
/-! DEFINITION. The commands of the SG240: one constructor of `Instr` for each row of
spec/opcode_table.json. The table gives the rows no operands; the operands here are what each event
carries from outside (log 7, 8, 10, 15, 21). -/

namespace Sys2Proof

/-- The two trunk ports (00_scope.md, Contacts of the part). -/
inductive Port
  | n
  | f
  deriving DecidableEq, Repr, Inhabited

/-- The two banks of policy (00_scope.md, Terms). -/
inductive Bank
  | b0
  | b1
  deriving DecidableEq, Repr, Inhabited

/-- The header fields a station chooses for a command telegram (section 1.2): the port it arrives on,
its source address, its privilege tag and its sequence tag. -/
structure CmdHead where
  port : Port
  source : Addr
  priv : BitVec 2
  seq : Byte
  deriving DecidableEq, Repr

/-- One stored bit that a disturbance changes (R118): bits 0..31 of a word are its data, bits from 32 up
its check code. DESIGN CHOICE, log 10: the TICK carries the disturbances, since the table has no row. -/
structure Upset where
  bank : Bank
  index : Index
  word : Fin 6
  bit : Nat
  deriving DecidableEq, Repr

/-- What the Calendar can meet while RST_N is held low (R70): a tick of the present source, a rising edge
of REFIN with the interval it ends in nanoseconds, a loss (with whether the fallback tick was already
due), a stretch of the loss measure with no edge. -/
inductive CalEvent
  | tick
  | edge (interval : Nat)
  | loss (tickDue : Bool)
  | stretch
  deriving DecidableEq, Repr

/-- Which block takes a minute boundary (R58, R81: "Either may be taken first"): the Window Monitor and then the
Commit Controller at one event, the other way round, or one of the two alone. What one has not taken it takes at a
later MINUTE_BOUNDARY or, at the latest, at the next tick, and other events, a scan's evaluations among them, may fall
between (log 15). -/
inductive BoundaryOrder
  | evaluationFirst
  | commitFirst
  | evaluationAlone
  | commitAlone
  deriving DecidableEq, Repr

/-- Which of two tellings of one moment is taken first (R174, R178): the flag of the condition, or the
exception records that go with it. Where these are several the flag comes before all of them or after all,
never between two, which R170 and R174 leave open (log 15). -/
inductive RiseOrder
  | flagFirst
  | recordsFirst
  deriving DecidableEq, Repr

/-- The rows of spec/opcode_table.json. -/
inductive Instr
  -- line events (chapter 1)
  | receptionStart (p : Port)
  | silenceSettled (p : Port)
  | truncation (p : Port)
  /-- The last byte by the framed length, or (none) the silence of more than 4 byte times. -/
  | voidReceptionEnd (p : Port) (last : Option Byte)
  | receptionEnd (p : Port) (b : Byte)
  | transmissionComplete (p : Port)
  | spacingEnd (p : Port)
  -- resets and the sweep
  | powerOnReset (straps : BitVec 8)
  | pinReset (straps : BitVec 8) (meanwhile : List CalEvent)
  | sweepWrite
  -- clock events (chapter 4)
  | tick (upsets : List Upset)
  | secondBoundary (order : RiseOrder)
  | minuteBoundary (order : BoundaryOrder)
  | referenceLoss (tickDue : Bool)
  | referenceQualified
  -- deadlines, scans and accesses
  | holdExpiry
  | bindDeadline (p : Port)
  | refillPulse
  | refill
  | scrubIntervalExpiry
  | scrubStep
  | supervisionLapse (order : RiseOrder)
  | lookupConclusion (p : Port) (order : RiseOrder)
  | scanEvaluation
  | managementAccess
  -- management commands (chapter 10)
  /-- A command telegram with any payload (R155: a code that names no command, or an empty payload). -/
  | unknownCommand (h : CmdHead) (payload : List Byte)
  | readStatus (h : CmdHead)
  | readEntry (h : CmdHead) (role : Byte) (index : Byte)
  | readWindow (h : CmdHead) (role : Byte) (window : Byte)
  | readStreamStatus (h : CmdHead) (indexes : List Byte)
  | probe (h : CmdHead) (port : Byte) (source dest : Addr) (cls priv options : Byte)
      (holdLimit : BitVec 16)
  | keepalive (h : CmdHead)
  | writeEntry (h : CmdHead) (index : Byte) (entry : BitVec 176)
  | invalidateEntry (h : CmdHead) (index : Byte)
  | writeWindow (h : CmdHead) (window : Byte) (record : BitVec 80)
  | copyActiveToShadow (h : CmdHead)
  | clearShadow (h : CmdHead)
  | commitNow (h : CmdHead)
  | scheduleCommit (h : CmdHead) (day : DayNum) (minute : BitVec 16)
  | cancelCommit (h : CmdHead)
  | setTime (h : CmdHead) (day : DayNum) (weekday hour minute second : Byte)
  -- SET_CONFIG, one row for each setting (section 10.5): presence byte and value
  | defaultVerdict (h : CmdHead) (presence : Byte) (value : BitVec 16)
  | floorN (h : CmdHead) (presence : Byte) (value : BitVec 16)
  | floorF (h : CmdHead) (presence : Byte) (value : BitVec 16)
  | readFloor (h : CmdHead) (presence : Byte) (value : BitVec 16)
  | writeFloor (h : CmdHead) (presence : Byte) (value : BitVec 16)
  | nearManagement (h : CmdHead) (presence : Byte) (value : BitVec 16)
  | bindLimit (h : CmdHead) (presence : Byte) (value : BitVec 16)
  | scrubInterval (h : CmdHead) (presence : Byte) (value : BitVec 16)
  | urgentLevel (h : CmdHead) (presence : Byte) (value : BitVec 16)
  | refillPreset (h : CmdHead) (presence : Byte) (value : BitVec 16)
  | refillSource (h : CmdHead) (presence : Byte) (value : BitVec 16)
  | supervisionPeriod (h : CmdHead) (presence : Byte) (value : BitVec 16)
  | holdHighMark (h : CmdHead) (presence : Byte) (value : BitVec 16)
  | reportAddress (h : CmdHead) (presence : Byte) (value : BitVec 16)
  | alertPinEnables (h : CmdHead) (presence : Byte) (value : BitVec 16)
  | reportEnables (h : CmdHead) (presence : Byte) (value : BitVec 16)
  -- REFILL_CONTROL, one row for each action
  | start (h : CmdHead)
  | pause (h : CmdHead)
  | stop (h : CmdHead)
  | restart (h : CmdHead)
  | clearStreamCounters (h : CmdHead) (low high : Byte)
  | drainExceptions (h : CmdHead) (maximum : Byte)
  | clearAlerts (h : CmdHead) (flags : Byte)
  | flushHold (h : CmdHead) (scope : Byte) (index : Byte)
  | reset (h : CmdHead) (straps : BitVec 8)
  -- the rest of the line and of REFIN
  | byteArrival (p : Port) (b : Byte)
  | refinRisingEdge (interval : Nat)
  | noEdgeStretch
  deriving DecidableEq, Repr

end Sys2Proof
end

