-- ==== Sys2Proof/Machine/Types.lean ====
section
/-! DEFINITION. The data types of the blocks of the SG240: the records, lists and states that each chapter
of spec/ gives its block (00_scope.md, How the gate is built). -/

namespace Sys2Proof.Machine

/-! ### One of each port, one of each bank -/

/-- One value for each port. -/
structure PerPort (α : Type) where
  n : α
  f : α
  deriving DecidableEq, Repr

/-- One value for each bank. -/
structure PerBank (α : Type) where
  b0 : α
  b1 : α
  deriving DecidableEq, Repr

/-! ### Chapters 4 and 12: time -/

/-- Time quality (R64). -/
inductive Quality
  | unset
  | degraded
  | nominal
  deriving DecidableEq, Repr, Inhabited

/-- Clock source (R59). -/
inductive ClockSource
  | reference
  | fallback
  deriving DecidableEq, Repr

/-- Reference Monitor state (section 4.4). -/
inductive MonitorState
  | present
  | absent
  deriving DecidableEq, Repr

/-- A captured time of week: day number, second of day, sub-second (R11, R68). -/
structure TimeStamp where
  day : DayNum
  second : Fin 86400
  sub : Fin 1024
  deriving DecidableEq, Repr, Inhabited

/-- A calendar minute: day number and minute of day (R144). -/
structure Instant where
  day : DayNum
  minute : Fin 1440
  deriving DecidableEq, Repr

/-- What a minute boundary carries (R58). -/
structure MinuteMark where
  day : DayNum
  weekday : Fin 7
  minute : Fin 1440
  deriving DecidableEq, Repr

/-- The Calendar's state (section 4.1), and the events of its last tick that their blocks have still to
take (R57, R58; log 8). -/
structure Calendar where
  day : DayNum
  weekday : Fin 7
  hour : Fin 24
  minute : Fin 60
  second : Fin 60
  sub : Fin 1024
  quality : Quality
  source : ClockSource
  monitor : MonitorState
  goodEdges : Fin 1025
  switchPending : Bool
  divider : Fin 32
  /-- An edge has been seen since the loss or the last stretch without one, so the next edge ends an
  interval that can be measured (R62). -/
  edgeSeen : Bool
  uptime : Uptime
  refillTick : Bool
  scrubTick : Bool
  secondDue : Bool
  /-- The minute boundary the Window Monitor has still to take. -/
  windowMinute : Option MinuteMark
  /-- The minute boundary the Commit Controller has still to take. -/
  commitMinute : Option MinuteMark
  deriving DecidableEq, Repr

/-! ### Chapter 1: buffers, receive units, transmit units -/

/-- A buffer descriptor (section 1.5). -/
structure Descriptor where
  port : Port
  length : Nat
  time : TimeStamp
  quality : Quality
  uptime : Uptime
  deriving DecidableEq, Repr, Inhabited

/-- A buffer: the bytes written so far (at most 256) and the descriptor. -/
structure Buffer where
  bytes : List Byte
  desc : Descriptor
  deriving DecidableEq, Repr, Inhabited

/-- The Buffer Pool (R12). -/
structure Pool where
  buffers : Vector Buffer 64
  free : List BufId
  deriving DecidableEq, Repr

/-- A Receive Unit's place among the header, the options and the payload (R3, section 1.4). -/
structure Framing where
  received : Nat
  expected : Nat
  optionsLeft : Nat
  /-- The position of the next option's length byte. -/
  nextLength : Nat
  deriving DecidableEq, Repr

/-- Receive Unit states (R5); FILLING names the claimed buffer. -/
inductive RxPhase
  | settling
  | ready
  | filling (b : BufId)
  | void
  deriving DecidableEq, Repr

/-- A Receive Unit (section 1.4) with its five counters (R15). -/
structure RxUnit where
  phase : RxPhase
  /-- The header store, used when no buffer could be claimed. -/
  header : List Byte
  sum : BitVec 16
  /-- The last two bytes received, which at the end are the check word. -/
  tail : BitVec 16
  framing : Framing
  good : BitVec 32
  corrupt : BitVec 32
  truncated : BitVec 32
  malformed : BitVec 32
  noBuffer : BitVec 32
  deriving DecidableEq, Repr

/-- The two transmit lists of a unit (R13). -/
inductive ListKind
  | normal
  | urgent
  deriving DecidableEq, Repr

/-- Transmit Unit states (R14); SENDING holds the buffer and the bytes placed on the line. -/
inductive TxPhase
  | idle
  | sending (b : BufId) (line : List Byte)
  | spacing
  deriving DecidableEq, Repr

/-- A Transmit Unit (section 1.7). -/
structure TxUnit where
  urgent : List BufId
  normal : List BufId
  phase : TxPhase
  transmitted : BitVec 32
  deriving DecidableEq, Repr

/-! ### Chapter 2: stream entries and judgement -/

/-- The closed action and the over-rate action of an entry. -/
inductive Action
  | refuse
  | hold
  deriving DecidableEq, Repr, Inhabited

/-- Unsupervised policy. -/
inductive UnsupPolicy
  | continue_
  | block
  deriving DecidableEq, Repr, Inhabited

/-- Stamp policy. -/
inductive StampPolicy
  | ignore
  | fill
  deriving DecidableEq, Repr, Inhabited

/-- A stream entry (section 2.1). -/
structure StreamEntry where
  valid : Bool
  srcLow : Addr
  srcHigh : Addr
  portN : Bool
  portF : Bool
  classes : BitVec 16
  privLimit : BitVec 2
  dstLow : Addr
  dstHigh : Addr
  broadcast : Bool
  remap : Option Addr
  windows : WindowSet
  closed : Action
  ceiling : BitVec 8
  refill : BitVec 8
  overRate : Action
  holdLimit : BitVec 16
  urgent : Bool
  stamp : StampPolicy
  unsup : UnsupPolicy
  deriving DecidableEq, Repr, Inhabited

/-- The held context: the policy fields that decide a release (R35). -/
structure HeldContext where
  windows : WindowSet
  closed : Action
  overRate : Action
  unsup : UnsupPolicy
  ceiling : BitVec 8
  deriving DecidableEq, Repr

/-- Why a telegram is held (section 7.1). -/
inductive HoldReason
  | window
  | rate
  deriving DecidableEq, Repr

/-- The reasons of exception records (section 11.1), in the order of their codes (section 12.2). -/
inductive Reason
  | corrupt
  | truncated
  | malformed
  | noBuffer
  | noEntry
  | tableFault
  | privilege
  | range
  | unsupervised
  | windowClosed
  | rate
  | holdFull
  | txFull
  | mgmtRefused
  | mgmtOverrun
  | holdExpired
  | flushed
  | boundBroken
  deriving DecidableEq, Repr

/-- The fields of a telegram that a lookup's match test reads (R25). -/
structure LookupKey where
  port : Port
  source : Addr
  cls : BitVec 4
  deriving DecidableEq, Repr

/-! ### Chapter 3: bound pairs -/

/-- The first's particulars (section 3.1). -/
structure Particulars where
  dest : Addr
  cls : BitVec 4
  index : Option Index
  deriving DecidableEq, Repr

/-- The outcome of the first (section 3.1). A held record is named by its reference number (log 17). -/
inductive BindOutcome
  | pending
  | passed (list : ListKind)
  | held (ref : Nat)
  | refused
  deriving DecidableEq, Repr

/-- An OPEN bind context (section 3.1); the particulars are written at the first's conclusion. -/
structure BindContext where
  source : Addr
  outcome : BindOutcome
  particulars : Option Particulars
  deadline : Uptime
  reached : Bool
  deriving DecidableEq, Repr

/-- How a telegram is judged: on its own, as the first of the binding it opened, as the second of a first
that passed (with the list used) or is held (with its record). The second's judgement keeps the first's
outcome, list, held record and particulars (R46); no later rule reads the particulars there. A second of a
refused first is not judged (R51). -/
inductive JudgedAs
  | plain
  | first
  | secondPassed (list : ListKind) (first : Option Particulars)
  | secondHeld (ref : Nat) (first : Option Particulars)
  deriving DecidableEq, Repr

/-- The item in judgement (section 2.2). -/
inductive Item
  | telegram (b : BufId) (role : JudgedAs) (key : LookupKey)
  | rejudge (ref : Nat) (key : LookupKey)
  deriving DecidableEq, Repr

/-- Judge states (section 2.2); LOOKUP holds the bank the lookup bound to at its grant (R24). -/
inductive JudgePhase
  | idle
  | waiting (it : Item)
  | lookup (it : Item) (bank : Bank)
  deriving DecidableEq, Repr

/-- A Judge (section 2.2). -/
structure Judge where
  arrivals : List BufId
  slot : Option Nat
  bind : Option BindContext
  phase : JudgePhase
  deriving DecidableEq, Repr

/-! ### Chapter 5: windows -/

/-- A window record (section 5.1). -/
structure WindowRecord where
  used : Bool
  days : BitVec 7
  start : Fin 1440
  stop : Fin 1440
  dates : Option (DayNum × DayNum)
  strict : Bool
  deriving DecidableEq, Repr

/-- The Window Monitor: the records and Open Sets of both banks (R71, R76). -/
structure WindowMonitor where
  records : PerBank (Vector WindowRecord 32)
  openSets : PerBank WindowSet
  deriving DecidableEq, Repr

/-! ### Chapter 6: the Policer -/

/-- A Stream Status record (R85). -/
structure StreamStatus where
  credit : BitVec 8
  passed : BitVec 32
  refused : BitVec 32
  held : BitVec 32
  deriving DecidableEq, Repr

/-- A parameter record (R86). -/
structure ParamRecord where
  ceiling : BitVec 8
  refill : BitVec 8
  usable : Bool
  deriving DecidableEq, Repr, Inhabited

/-- Refill Timer states (section 6.4). -/
inductive TimerState
  | stopped
  | running
  | paused
  deriving DecidableEq, Repr

/-- Refill sources (R89). -/
inductive RefillSource
  | tick
  | sixtyFourth
  | second
  deriving DecidableEq, Repr

/-- The Policer (chapter 6). The Timer's preset and source are settings of the Agent. -/
structure Policer where
  streams : Vector StreamStatus 256
  params : PerBank (Vector ParamRecord 256)
  timer : TimerState
  count : BitVec 16
  deriving DecidableEq, Repr

/-! ### Chapter 7: the Hold Queue -/

/-- The part of a held record that a first record alone has (section 7.1). -/
structure FirstPart where
  reason : HoldReason
  context : HeldContext
  start : Uptime
  deadline : Uptime
  partner : Option Nat
  awaiting : Bool
  cleared : Bool
  deriving DecidableEq, Repr

/-- A held record is a first record or the partner of one. -/
inductive HeldRole
  | first (part : FirstPart)
  | partner (of_ : Nat)
  deriving DecidableEq, Repr

/-- A held record (section 7.1). -/
structure HeldRecord where
  ref : Nat
  buffer : BufId
  port : Port
  dest : Addr
  bank : Bank
  index : Option Index
  outDest : Addr
  list : ListKind
  stamp : StampPolicy
  pending : Bool
  role : HeldRole
  deriving DecidableEq, Repr

/-- A window scan of a bank for windows (R106), or a refill scan (R107). -/
inductive ScanKind
  | window (bank : Bank) (windows : WindowSet)
  | refill
  deriving DecidableEq, Repr

/-- A scan in progress: the records it has still to reach, oldest first. -/
structure Scan where
  kind : ScanKind
  todo : List Nat
  deriving DecidableEq, Repr

/-- The outstanding rejudge request of a port (section 7.1). -/
structure Request where
  ref : Nat
  stale : Bool
  deriving DecidableEq, Repr

/-- The Hold Queue (section 7.1). -/
structure HoldQueue where
  records : List HeldRecord
  scan : Option Scan
  waiting : List ScanKind
  outstanding : PerPort (Option Request)
  /-- The model's own: the reference number of the next record admitted (log 17). -/
  nextRef : Nat
  deriving DecidableEq, Repr

/-- The facts a judgement hands to the Hold Queue from an entry (R35), or of an unconditional pass. -/
structure Facts where
  bank : Bank
  index : Option Index
  context : HeldContext
  outDest : Addr
  list : ListKind
  stamp : StampPolicy
  deriving DecidableEq, Repr

/-- The verdict of a rejudge (R41). -/
inductive RejudgeVerdict
  | pass (facts : Facts)
  | hold (facts : Facts) (reason : HoldReason) (limit : Nat)
  | refuse (reason : Reason) (index : Option Index)
  deriving DecidableEq, Repr

/-! ### Chapter 8: the Table Store -/

/-- A stored row: the entry last written, and the stored bits (word, bit) that differ from what that
write left (R118; log 10, 11). -/
structure StoredRow where
  entry : StreamEntry
  changed : List (Fin 6 × Nat)
  deriving DecidableEq, Repr, Inhabited

/-- What a read of a row finds (R119). -/
inductive RowRead
  | clean (e : StreamEntry)
  | correctable (e : StreamEntry)
  | uncorrectable
  deriving DecidableEq, Repr, Inhabited

/-- How a lookup stops (R24 to R27). -/
inductive LookupStop
  | found (i : Index) (e : StreamEntry)
  | poisoned (i : Index)
  | fault (i : Index)
  | noMatch
  deriving DecidableEq, Repr

/-- What a lookup's walk over the rows leaves: where it stopped, how many rows it corrected, and the
free-value counter. -/
structure Walk where
  stop : LookupStop
  corrected : Nat
  draws : Nat
  deriving DecidableEq, Repr

/-- Store state (R133); INITIALIZING holds the place of the sweep's next write (R134). -/
inductive StorePhase
  | initializing (next : Fin 512)
  | ready
  deriving DecidableEq, Repr

/-- Who holds the table port (section 8.4). The Agent's access keeps the bank active at its grant (R123).
`closing` is the conclusion event itself: the access has ended, and the grant made at that event is still
to come (R124). -/
inductive PortUse
  | free
  | closing
  | judge (p : Port)
  | agent (active : Bank)
  | scrub
  | sweep
  deriving DecidableEq, Repr

/-- The Table Store (chapter 8). The Poison Set is a mark per (bank, index). The scrub interval and the
urgent level are settings of the Agent. -/
structure TableStore where
  rows : PerBank (Vector StoredRow 256)
  poison : PerBank (Vector Bool 256)
  active : Bank
  phase : StorePhase
  port : PortUse
  agentRequest : Bool
  waitCount : Fin 5
  lastJudge : Port
  pointer : Fin 512
  scrubRequest : Bool
  debt : Fin 16
  corrected : BitVec 16
  scrubCorrected : BitVec 16
  uncorrectable : BitVec 16
  deriving DecidableEq, Repr

/-! ### Chapter 9: the Commit Controller -/

/-- Commit state with the scheduled instant (section 9.2). -/
inductive CommitPhase
  | idle
  | scheduled (i : Instant)
  | due (i : Instant)
  deriving DecidableEq, Repr

/-- The Commit Controller. -/
structure CommitCtl where
  phase : CommitPhase
  count : BitVec 16
  deriving DecidableEq, Repr

/-! ### Chapter 10: the Management Agent -/

/-- The configuration set (section 10.5). -/
structure Settings where
  defaultPass : Bool
  floorN : BitVec 2
  floorF : BitVec 2
  readFloor : BitVec 2
  writeFloor : BitVec 2
  nearAllowed : Bool
  bindLimit : BitVec 10
  scrubInterval : BitVec 8
  urgentLevel : BitVec 4
  refillPreset : BitVec 16
  refillSource : RefillSource
  supervisionPeriod : BitVec 16
  holdHighMark : BitVec 6
  reportAddress : Option Addr
  pinEnables : BitVec 8
  reportEnables : BitVec 8
  deriving DecidableEq, Repr

/-- Supervision Timer states (R166). -/
inductive SupState
  | disabled
  | counting
  | lapsed
  deriving DecidableEq, Repr

/-- The Supervision Timer (R166). -/
structure Supervision where
  state : SupState
  remaining : Fin 65537
  deriving DecidableEq, Repr

/-- The kinds of reset (R165). -/
inductive ResetCause
  | power
  | pin
  | command
  deriving DecidableEq, Repr

/-- The telegram a PROBE describes (R43). -/
structure Described where
  port : Port
  source : Addr
  dest : Addr
  cls : BitVec 4
  priv : BitVec 2
  urgent : Bool
  unfilledStamp : Bool
  holdLimit : Option (BitVec 16)
  deriving DecidableEq, Repr

/-- A command that makes table accesses, with what it has still to do (R155). A role is kept as
"ACTIVE" (true) or "SHADOW" (false). READ_STREAM_STATUS keeps the results so far, COPY and CLEAR the
next row, COPY the number of rows written blank. -/
inductive Job
  | readEntry (active : Bool) (i : Index)
  | readStream (i : Index) (rest : List Index) (results : List Byte)
  | probe (d : Described)
  | writeEntry (i : Index) (e : StreamEntry)
  | invalidate (i : Index)
  | copy (row : Index) (blanks : Nat)
  | clear (row : Index)
  deriving DecidableEq, Repr

/-- The command in execution: its buffer and what it has to do (R151). -/
structure Execution where
  buffer : BufId
  job : Job
  deriving DecidableEq, Repr

/-- The Management Agent (R151); it is EXECUTING while `exec` holds a command. -/
structure Agent where
  inbox : List BufId
  exec : Option Execution
  settings : Settings
  supervision : Supervision
  lastReset : ResetCause
  deriving DecidableEq, Repr

/-- The actions of REFILL_CONTROL (R90 to R92). -/
inductive RefillAction
  | start
  | pause
  | stop
  | restart
  deriving DecidableEq, Repr

/-- A decoded command (section 10.4). -/
inductive Cmd
  | readStatus
  | readEntry (active : Bool) (i : Index)
  | readWindow (active : Bool) (w : Fin 32)
  | readStream (i : Index) (rest : List Index)
  | probe (d : Described)
  | keepalive
  | writeEntry (i : Index) (e : StreamEntry)
  | invalidate (i : Index)
  | writeWindow (w : Fin 32) (r : WindowRecord)
  | copy
  | clear
  | commitNow
  | schedule (i : Instant)
  | cancel
  | setTime (day : DayNum) (weekday : Fin 7) (hour : Fin 24) (minute second : Fin 60)
  | setConfig (code : Nat) (present : Bool) (value : BitVec 16)
  | refillControl (a : RefillAction)
  | clearCounters (low high : Index)
  | drain (maximum : Nat)
  | clearAlerts (flags : BitVec 8)
  | flush (scope : Option Index)
  | reset
  deriving DecidableEq, Repr

/-- What the Agent's decoding of a payload finds (R155). -/
inductive Decoded
  | unknown
  | bad
  | command (c : Cmd)
  deriving DecidableEq, Repr

/-- Response statuses (R156). -/
inductive Status
  | done
  | denied
  | badArgument
  | unknownCommand
  | poisoned
  | conflict
  deriving DecidableEq, Repr

/-! ### Chapter 11: the Exception Unit -/

/-- The alert flags (section 11.3), in the order of their bits (section 12.2). -/
inductive Flag
  | exception
  | excLost
  | tableFault
  | scrubUrgent
  | referenceLost
  | commitDone
  | supervisionLapsed
  | holdHigh
  deriving DecidableEq, Repr

/-- A record as a block hands it over (R170). -/
structure Handed where
  reason : Reason
  port : Port
  source : Option Addr
  dest : Option Addr
  cls : Option (BitVec 4)
  index : Option Index
  deriving DecidableEq, Repr

/-- An exception record (section 11.1). -/
structure ExcRecord where
  what : Handed
  time : TimeStamp
  quality : Quality
  repeats : BitVec 8
  deriving DecidableEq, Repr

/-- The Exception Unit (chapter 11), with the state of its pin ALERT_N (R176). -/
structure ExceptionUnit where
  queue : List ExcRecord
  lost : BitVec 8
  flags : BitVec 8
  reportNumber : BitVec 8
  alertLow : Bool
  deriving DecidableEq, Repr

/-! ### Small functions on these types -/

/-- The opposite port (00_scope.md, Terms). -/
def otherPort : Port → Port
  | .n => .f
  | .f => .n

/-- The other bank. -/
def otherBank : Bank → Bank
  | .b0 => .b1
  | .b1 => .b0

/-- The value of a port. -/
def PerPort.get {α : Type} (x : PerPort α) : Port → α
  | .n => x.n
  | .f => x.f

/-- The same values but for one port. -/
def PerPort.set {α : Type} (x : PerPort α) (p : Port) (v : α) : PerPort α :=
  match p with
  | .n => { x with n := v }
  | .f => { x with f := v }

/-- The value of a bank. -/
def PerBank.get {α : Type} (x : PerBank α) : Bank → α
  | .b0 => x.b0
  | .b1 => x.b1

/-- The same values but for one bank. -/
def PerBank.set {α : Type} (x : PerBank α) (b : Bank) (v : α) : PerBank α :=
  match b with
  | .b0 => { x with b0 := v }
  | .b1 => { x with b1 := v }

/-- The number of a bank, as results carry it (section 12.2). -/
def bankCode : Bank → Byte
  | .b0 => 0
  | .b1 => 1

/-- The bit of an alert flag (section 12.2). -/
def Flag.bit : Flag → Nat
  | .exception => 0
  | .excLost => 1
  | .tableFault => 2
  | .scrubUrgent => 3
  | .referenceLost => 4
  | .commitDone => 5
  | .supervisionLapsed => 6
  | .holdHigh => 7

/-- A flag alone in a set of flags. -/
def Flag.mask (f : Flag) : BitVec 8 := BitVec.twoPow 8 f.bit

/-- The code of a reason (section 12.2). -/
def Reason.code : Reason → Byte
  | .corrupt => 1
  | .truncated => 2
  | .malformed => 3
  | .noBuffer => 4
  | .noEntry => 5
  | .tableFault => 6
  | .privilege => 7
  | .range => 8
  | .unsupervised => 9
  | .windowClosed => 10
  | .rate => 11
  | .holdFull => 12
  | .txFull => 13
  | .mgmtRefused => 14
  | .mgmtOverrun => 15
  | .holdExpired => 16
  | .flushed => 17
  | .boundBroken => 18

/-- The code of a quality (section 12.1). -/
def Quality.code : Quality → Byte
  | .unset => 0
  | .degraded => 1
  | .nominal => 2

/-- The code of a status (section 12.2). -/
def Status.code : Status → Byte
  | .done => 0
  | .denied => 1
  | .badArgument => 2
  | .unknownCommand => 3
  | .poisoned => 4
  | .conflict => 5

/-- The refusal reason of a HOLD that is not held for want of a limit (R34). -/
def HoldReason.refusal : HoldReason → Reason
  | .window => .windowClosed
  | .rate => .rate

/-- The code of a hold reason in PROBE results (section 12.2). -/
def HoldReason.code : HoldReason → Byte
  | .window => 19
  | .rate => 11

/-- Whether a job belongs to a shadow-modifying command (R137). -/
def Job.modifiesShadow : Job → Bool
  | .readEntry _ _ => false
  | .readStream _ _ _ => false
  | .probe _ => false
  | .writeEntry _ _ => true
  | .invalidate _ => true
  | .copy _ _ => true
  | .clear _ => true

/-- The blank entry of the initialization sweep (R134). -/
def blankEntry : StreamEntry where
  valid := false
  srcLow := 0
  srcHigh := 0
  portN := true
  portF := true
  classes := 0
  privLimit := 0
  dstLow := 0
  dstHigh := 0
  broadcast := false
  remap := none
  windows := 0
  closed := .refuse
  ceiling := 0
  refill := 0
  overRate := .refuse
  holdLimit := 0
  urgent := false
  stamp := .ignore
  unsup := .continue_

/-- A row as a write leaves it: fresh check codes, no changed bit (R118). -/
def freshRow (e : StreamEntry) : StoredRow := ⟨e, []⟩

/-- The window record of a power-on reset and of CLEAR_SHADOW (R71, R142). -/
def blankWindow : WindowRecord where
  used := false
  days := 0
  start := 0
  stop := 0
  dates := none
  strict := false

/-- The default settings (section 10.5, R163). -/
def defaultSettings : Settings where
  defaultPass := false
  floorN := 2
  floorF := 0
  readFloor := 1
  writeFloor := 0
  nearAllowed := false
  bindLimit := 102
  scrubInterval := 16
  urgentLevel := 8
  refillPreset := 1024
  refillSource := .tick
  supervisionPeriod := 0
  holdHighMark := 24
  reportAddress := none
  pinEnables := 0xFF
  reportEnables := 0

/-- The floor of a port (section 10.5). -/
def Settings.floor (c : Settings) : Port → BitVec 2
  | .n => c.floorN
  | .f => c.floorF

/-- The policy fields of an entry that decide a release (R35). -/
def StreamEntry.context (e : StreamEntry) : HeldContext :=
  ⟨e.windows, e.closed, e.overRate, e.unsup, e.ceiling⟩

/-- The held context of an unconditional pass (R116). -/
def unconditional : HeldContext := ⟨0, .refuse, .refuse, .continue_, 0⟩

/-- The fields a lookup matches on. -/
def Item.key : Item → LookupKey
  | .telegram _ _ k => k
  | .rejudge _ k => k

end Sys2Proof.Machine
end

