-- ==== Sys2Proof/Config.lean ====
section
/-! DEFINITION. What the SG240 fixes once, and the free values: constants with no body for what the
spec leaves open while the machine goes on. Each is applied to the counter `draws` of State, so every
use has a value of its own. -/

namespace Sys2Proof.Config

open Sys2Proof.Machine

/-- The most rounds of consequences one event can have (log 14): far above the arrivals, commands and
requests that 64 buffers can bring about in one event. -/
def settleBound : Nat := 1024

/-- Free value (R118: "After a power-on reset its contents are undefined until the initialization sweep
has written every row"): the stored rows after a POWER_ON_RESET. Log 2. -/
opaque powerOnRow : Nat → Bank → Index → StoredRow

/-- Free value (R134 gives the parameter records only as the sweep writes them): the parameter records
after a POWER_ON_RESET. Log 2. -/
opaque powerOnParam : Nat → Bank → Index → ParamRecord

/-- Free value (R118 states the check code for one and for two changed bits of a word): what the read of
a row finds when a word has three or more changed bits, as far as no other word decides it: beside a word of
one changed bit the row is not clean, beside one of two it is uncorrectable (R119). Log 11. -/
opaque manyBitRead : Nat → StoredRow → RowRead

/-- Free value (R118: "either made whole or not made", R128): whether the read, or the write, of the row access in
progress when a reset takes effect was made. Log 13. -/
opaque accessMade : Nat → Bool

end Sys2Proof.Config
end

