-- ==== Sys2Proof/Machine/State.lean ====
section
/-! DEFINITION. The state of the SG240, the reasons a step can stop, and the state after a power-on
reset. INVENTORY.md lists every field with the rule that names it. -/

namespace Sys2Proof.Machine

/-- The machine never stops with a fault: the spec names no event at which the gate stops, and every
refusal of a telegram or a command is an effect on the state. Nothing raises a fault. -/
inductive Fault
  deriving DecidableEq, Repr

/-- Why a command has no meaning. -/
inductive Refusal
  /-- Raised by an arm of `exec` whose command has no meaning yet (no arm has it now). Safe: the model
  stops. -/
  | notModelled (mnemonic : String)
  deriving DecidableEq, Repr

/-- The state of the SG240, block by block (00_scope.md, How the gate is built). -/
structure State where
  /-- The Buffer Pool (R12). -/
  pool : Pool
  /-- The Receive Units (section 1.4). -/
  rx : PerPort RxUnit
  /-- The Transmit Units (section 1.7). -/
  tx : PerPort TxUnit
  /-- The Judges (section 2.2). -/
  judges : PerPort Judge
  /-- The Table Store (chapter 8). -/
  store : TableStore
  /-- The Window Monitor (chapter 5). -/
  windows : WindowMonitor
  /-- The Policer (chapter 6). -/
  policer : Policer
  /-- The Calendar (chapter 4). -/
  cal : Calendar
  /-- The Hold Queue (chapter 7). -/
  hold : HoldQueue
  /-- The Commit Controller (chapter 9). -/
  commit : CommitCtl
  /-- The Management Agent (chapter 10). -/
  agent : Agent
  /-- The Exception Unit (chapter 11). -/
  exc : ExceptionUnit
  /-- The own address sampled at the last reset (R16). -/
  ownAddr : Addr
  /-- The present levels of the straps ADDR0..ADDR7 (R16). -/
  straps : BitVec 8
  /-- The model's own: how many free values have been drawn (log 26). -/
  draws : Nat
  /-- The commands that are waiting, first in, first out (log 4). -/
  pending : List Instr
  deriving DecidableEq, Repr

/-! ### One block replaced -/

/-- The same state but for the Buffer Pool (R12). -/
def State.setPool (s : State) (x : Pool) : State := { s with pool := x }

/-- The same state but for the Receive Units (section 1.4). -/
def State.setRx (s : State) (x : PerPort RxUnit) : State := { s with rx := x }

/-- The same state but for the Transmit Units (section 1.7). -/
def State.setTx (s : State) (x : PerPort TxUnit) : State := { s with tx := x }

/-- The same state but for the Judges (section 2.2). -/
def State.setJudges (s : State) (x : PerPort Judge) : State := { s with judges := x }

/-- The same state but for the Table Store (chapter 8). -/
def State.setStore (s : State) (x : TableStore) : State := { s with store := x }

/-- The same state but for the Window Monitor (chapter 5). -/
def State.setWindows (s : State) (x : WindowMonitor) : State := { s with windows := x }

/-- The same state but for the Policer (chapter 6). -/
def State.setPolicer (s : State) (x : Policer) : State := { s with policer := x }

/-- The same state but for the Calendar (chapter 4). -/
def State.setCal (s : State) (x : Calendar) : State := { s with cal := x }

/-- The same state but for the Hold Queue (chapter 7). -/
def State.setHold (s : State) (x : HoldQueue) : State := { s with hold := x }

/-- The same state but for the Commit Controller (chapter 9). -/
def State.setCommit (s : State) (x : CommitCtl) : State := { s with commit := x }

/-- The same state but for the Management Agent (chapter 10). -/
def State.setAgent (s : State) (x : Agent) : State := { s with agent := x }

/-- The same state but for the Exception Unit (chapter 11). -/
def State.setExc (s : State) (x : ExceptionUnit) : State := { s with exc := x }

/-- The same state but for the own address sampled at the last reset (R16). -/
def State.setOwnAddr (s : State) (x : Addr) : State := { s with ownAddr := x }

/-- The same state but for the present levels of the straps ADDR0..ADDR7 (R16). -/
def State.setStraps (s : State) (x : BitVec 8) : State := { s with straps := x }

/-- The same state but for the model's own: how many free values have been drawn (log 26). -/
def State.setDraws (s : State) (x : Nat) : State := { s with draws := x }

/-- The same state but for the commands that are waiting, first in, first out (log 4). -/
def State.setPending (s : State) (x : List Instr) : State := { s with pending := x }

/-! ### The state after a power-on reset -/

/-- A Receive Unit after any reset (R5, R15): SETTLING, counters 0. The header store, the sum, the last
two bytes and the framing counters have no stated value: empty and 0 (log 3). -/
def rxReset : RxUnit := ⟨.settling, [], 0, 0, ⟨0, 0, 0, 0⟩, 0, 0, 0, 0, 0⟩

/-- A Transmit Unit after any reset (R14). -/
def txReset : TxUnit := ⟨[], [], .idle, 0⟩

/-- A Judge after any reset (R19). -/
def judgeReset : Judge := ⟨[], none, none, .idle⟩

/-- The Hold Queue after any reset (R99), the reference counter as given. -/
def holdReset (nextRef : Nat) : HoldQueue := ⟨[], none, [], ⟨none, none⟩, nextRef⟩

/-- The Exception Unit after any reset (R170, R174, R176, R177). -/
def excReset : ExceptionUnit := ⟨[], 0, 0, 0, false⟩

/-- The Management Agent after any reset (R151, R163, R165, R166). -/
def agentReset (cause : ResetCause) : Agent := ⟨[], none, defaultSettings, ⟨.disabled, 0⟩, cause⟩

/-- The free list after any reset (R12): buffers 0..63 in ascending order. -/
def freeReset : List BufId := List.finRange 64

/-- The Calendar after a power-on reset (R69). -/
def calendarPowerOn : Calendar where
  day := 0
  weekday := 0
  hour := 0
  minute := 0
  second := 0
  sub := 0
  quality := .unset
  source := .reference
  monitor := .present
  goodEdges := 0
  switchPending := false
  divider := 0
  edgeSeen := false
  uptime := 0
  refillTick := false
  scrubTick := false
  secondDue := false
  windowMinute := none
  commitMinute := none

/-- The Window Monitor after a power-on reset (R71). -/
def windowsPowerOn : WindowMonitor where
  records := ⟨Vector.replicate 32 blankWindow, Vector.replicate 32 blankWindow⟩
  openSets := ⟨0, 0⟩

/-- The Table Store after a power-on reset (R133, R134, R136): the sweep stands at its first row, with the
table port its own. The rows are given, since the spec leaves them undefined until the sweep has
written them (log 2). -/
def storePowerOn (rows : PerBank (Vector StoredRow 256)) : TableStore where
  rows := rows
  poison := ⟨Vector.replicate 256 false, Vector.replicate 256 false⟩
  active := .b0
  phase := .initializing 0
  port := .sweep
  agentRequest := false
  waitCount := 0
  lastJudge := .f
  pointer := 0
  scrubRequest := false
  debt := 0
  corrected := 0
  scrubCorrected := 0
  uncorrectable := 0

/-- The Policer after a power-on reset (R85, section 6.4); the parameter records are given, since the
sweep writes them (log 2). -/
def policerPowerOn (params : PerBank (Vector ParamRecord 256)) : Policer where
  streams := Vector.replicate 256 ⟨0, 0, 0, 0⟩
  params := params
  timer := .stopped
  count := 0

/-- A buffer that nothing has written (log 3). -/
def blankBuffer : Buffer := ⟨[], ⟨.n, 0, ⟨0, 0, 0⟩, .unset, 0⟩⟩

/-- The machine right after a power-on reset. DESIGN CHOICE: all straps low (log 1), blank rows and
parameter records (log 2), empty buffers (log 3). -/
def State.reset : State where
  pool := ⟨Vector.replicate 64 blankBuffer, freeReset⟩
  rx := ⟨rxReset, rxReset⟩
  tx := ⟨txReset, txReset⟩
  judges := ⟨judgeReset, judgeReset⟩
  store := storePowerOn ⟨Vector.replicate 256 (freshRow blankEntry),
    Vector.replicate 256 (freshRow blankEntry)⟩
  windows := windowsPowerOn
  policer := policerPowerOn ⟨Vector.replicate 256 ⟨0, 0, false⟩, Vector.replicate 256 ⟨0, 0, false⟩⟩
  cal := calendarPowerOn
  hold := holdReset 0
  commit := ⟨.idle, 0⟩
  agent := agentReset .power
  exc := excReset
  ownAddr := 0xF000
  straps := 0
  draws := 0
  pending := []

end Sys2Proof.Machine
end

