-- ==== Sys2Proof/Machine/Ops.lean ====
section
/-! DEFINITION. The shared operations over bytes, the check word, the Buffer Pool and the Transmit Units
(01_trunk_telegrams_and_ports.md). -/

namespace Sys2Proof.Machine

/-! ### Bytes: every value wider than one byte is carried high byte first (chapter 12) -/

/-- The byte at a place of a list, 0 beyond its end. -/
def byteAt (l : List Byte) (i : Nat) : Byte := l.getD i 0

/-- The 16-bit value at a place. -/
def halfAt (l : List Byte) (i : Nat) : BitVec 16 := byteAt l i ++ byteAt l (i + 1)

/-- The 24-bit value at a place. -/
def tripleAt (l : List Byte) (i : Nat) : BitVec 24 := byteAt l i ++ halfAt l (i + 1)

/-- The 32-bit value at a place. -/
def wordAt (l : List Byte) (i : Nat) : BitVec 32 := halfAt l i ++ halfAt l (i + 2)

/-- The two bytes of a 16-bit value. -/
def be16 (x : BitVec 16) : List Byte := [x.extractLsb' 8 8, x.extractLsb' 0 8]

/-- The three bytes of a 24-bit value. -/
def be24 (x : BitVec 24) : List Byte := x.extractLsb' 16 8 :: be16 (x.extractLsb' 0 16)

/-- The four bytes of a 32-bit value. -/
def be32 (x : BitVec 32) : List Byte := be16 (x.extractLsb' 16 16) ++ be16 (x.extractLsb' 0 16)

/-- The five bytes of a 40-bit value. -/
def be40 (x : BitVec 40) : List Byte := x.extractLsb' 32 8 :: be32 (x.extractLsb' 0 32)

/-- A list with the bytes from one place on replaced. -/
def putBytes (l : List Byte) (i : Nat) (new : List Byte) : List Byte :=
  l.take i ++ new ++ l.drop (i + new.length)

/-- A count that saturates at the largest value of its width. -/
def satAdd {w : Nat} (x : BitVec w) : BitVec w := if x = BitVec.allOnes w then x else x + 1

/-! ### The check word (R4) -/

/-- One bit enters the computing register of x^16 + x^12 + x^5 + 1. -/
def crcBit (r : BitVec 16) (bit : Bool) : BitVec 16 :=
  if r.msb != bit then (r <<< 1) ^^^ 0x1021#16 else r <<< 1

/-- One byte enters, most significant bit first. -/
def crcByte (r : BitVec 16) (b : Byte) : BitVec 16 :=
  [7, 6, 5, 4, 3, 2, 1, 0].foldl (fun r i => crcBit r (b.getLsbD i)) r

/-- The check sum of a run of bytes; the register starts at all ones. -/
def crc (l : List Byte) : BitVec 16 := l.foldl crcByte 0xFFFF#16

/-! ### Uptime (R57) -/

/-- A deadline is at or before an uptime when that uptime lies 0 to 549 755 813 887 ticks after it,
counting round the wrap. -/
def atOrBefore (deadline now : Uptime) : Bool := decide ((now - deadline).toNat < 2 ^ 39)

/-! ### The Buffer Pool (R12) -/

/-- The contents of a buffer. -/
def State.buffer (s : State) (b : BufId) : Buffer := s.pool.buffers[b]

/-- A buffer written. -/
def State.setBuffer (s : State) (b : BufId) (x : Buffer) : State :=
  s.setPool { s.pool with buffers := s.pool.buffers.set b.val x }

/-- A claim takes the buffer at the head of the free list; it fails when the list is empty. -/
def claim (s : State) : Option (BufId × State) :=
  match s.pool.free with
  | [] => none
  | b :: rest => some (b, s.setPool { s.pool with free := rest })

/-- A return adds the buffer at the tail of the free list. -/
def release (b : BufId) (s : State) : State :=
  s.setPool { s.pool with free := s.pool.free ++ [b] }

/-! ### One unit, one Judge replaced -/

/-- The Receive Unit of a port changed. -/
def State.mapRx (s : State) (p : Port) (f : RxUnit → RxUnit) : State :=
  s.setRx (s.rx.set p (f (s.rx.get p)))

/-- The Transmit Unit of a port changed. -/
def State.mapTx (s : State) (p : Port) (f : TxUnit → TxUnit) : State :=
  s.setTx (s.tx.set p (f (s.tx.get p)))

/-- The Judge of a port changed. -/
def State.mapJudge (s : State) (p : Port) (f : Judge → Judge) : State :=
  s.setJudges (s.judges.set p (f (s.judges.get p)))

/-! ### Transmission (R13, R14) -/

/-- The bytes placed on the line for a buffer: its bytes from the start marker through the last payload
byte, and a check word computed afresh over them. -/
def txLine (x : Buffer) : List Byte :=
  x.bytes.take (x.desc.length - 2) ++ be16 (crc (x.bytes.take (x.desc.length - 2)))

/-- An IDLE unit with a telegram on a list starts its transmission: the oldest urgent one, or else the
oldest normal one. -/
def startTx (buffers : BufId → Buffer) (u : TxUnit) : TxUnit :=
  match u.phase, u.urgent, u.normal with
  | .idle, b :: rest, _ => { u with urgent := rest, phase := .sending b (txLine (buffers b)) }
  | .idle, [], b :: rest => { u with normal := rest, phase := .sending b (txLine (buffers b)) }
  | _, _, _ => u

/-- Whether a list has room: 8 on the urgent list, 16 on the normal list. -/
def listRoom (u : TxUnit) : ListKind → Bool
  | .urgent => decide (u.urgent.length < 8)
  | .normal => decide (u.normal.length < 16)

/-- A buffer added at a list's tail. -/
def listAdd (u : TxUnit) (k : ListKind) (b : BufId) : TxUnit :=
  match k with
  | .urgent => { u with urgent := u.urgent ++ [b] }
  | .normal => { u with normal := u.normal ++ [b] }

/-- An append to a transmit list (R13): none when the list is full. -/
def txAppend (p : Port) (k : ListKind) (b : BufId) (s : State) : Option State :=
  if listRoom (s.tx.get p) k then
    some (s.mapTx p fun u => startTx s.buffer (listAdd u k b))
  else none

/-- The second check byte has left the line (R14). -/
def txComplete (p : Port) (s : State) : State :=
  match (s.tx.get p).phase with
  | .sending b _ =>
    release b (s.mapTx p fun u => { u with phase := .spacing, transmitted := u.transmitted + 1 })
  | .idle => s
  | .spacing => s

/-- The end of SPACING (R14). -/
def txSpacingEnd (p : Port) (s : State) : State :=
  match (s.tx.get p).phase with
  | .spacing => s.mapTx p fun u => startTx s.buffer { u with phase := .idle }
  | .idle => s
  | .sending _ _ => s

end Sys2Proof.Machine
end

