-- ==== Sys2Proof/Machine/Operands.lean ====
section
/-! DEFINITION. The layouts of chapter 12: the fields and options of a telegram, the form errors, the stream
entry, window and exception records, and the arguments of the management commands. -/

namespace Sys2Proof.Machine

/-! ### The telegram (section 12.1) -/

/-- Destination address, bytes 1 and 2. -/
def destOf (t : List Byte) : Addr := halfAt t 1

/-- Source address, bytes 3 and 4. -/
def sourceOf (t : List Byte) : Addr := halfAt t 3

/-- Class, byte 5 bits 7..4. -/
def classOf (t : List Byte) : BitVec 4 := (byteAt t 5).extractLsb' 4 4

/-- Privilege tag, byte 5 bits 3..2. -/
def privOf (t : List Byte) : BitVec 2 := (byteAt t 5).extractLsb' 2 2

/-- BOUND flag, byte 5 bit 1. -/
def boundOf (t : List Byte) : Bool := (byteAt t 5).getLsbD 1

/-- Option count, byte 6 bits 2..0. -/
def optionCountOf (t : List Byte) : Nat := ((byteAt t 6).extractLsb' 0 3).toNat

/-- Sequence tag, byte 7. -/
def seqOf (t : List Byte) : Byte := byteAt t 7

/-- Payload length, byte 8. -/
def payloadLengthOf (t : List Byte) : Nat := (byteAt t 8).toNat

/-- An option as it stands in a telegram: its kind byte, its length byte, where its value begins. -/
structure OptionField where
  kind : Byte
  length : Byte
  value : Nat
  deriving DecidableEq, Repr

/-- So many options from a place on (R2). -/
def optionsFrom (t : List Byte) : Nat → Nat → List OptionField
  | 0, _ => []
  | n + 1, i =>
    ⟨byteAt t i, byteAt t (i + 1), i + 2⟩ :: optionsFrom t n (i + 2 + (byteAt t (i + 1)).toNat)

/-- The options of a telegram, in the order of its option count. -/
def optionsOf (t : List Byte) : List OptionField := optionsFrom t (optionCountOf t) 9

/-- Where the payload begins. -/
def payloadPlace (t : List Byte) : Nat :=
  (optionsOf t).foldl (fun i o => i + 2 + o.length.toNat) 9

/-- The payload. -/
def payloadOf (t : List Byte) : List Byte := (t.drop (payloadPlace t)).take (payloadLengthOf t)

/-- The first option of a kind. -/
def optionOf (t : List Byte) (kind : Byte) : Option OptionField :=
  (optionsOf t).find? fun o => o.kind == kind

/-- The place of a STAMP slot whose filled marker is clear. -/
def unfilledStamp (t : List Byte) : Option Nat :=
  match optionOf t 0x01 with
  | some o => if (byteAt t (o.value + 7)).getLsbD 7 then none else some o.value
  | none => none

/-- The value of a HOLD_LIMIT option. -/
def holdLimitOf (t : List Byte) : Option (BitVec 16) := (optionOf t 0x02).map fun o => halfAt t o.value

/-- Whether an URGENT option is carried. -/
def urgentOf (t : List Byte) : Bool := (optionOf t 0x03).isSome

/-! ### Form errors (R9, R179) -/

/-- A filled STAMP slot out of its ranges, or with a non-zero bit in bits 6..2 of its last byte. With the
marker clear the slot is not examined. -/
def stampFault (t : List Byte) (i : Nat) : Bool :=
  (byteAt t (i + 7)).getLsbD 7 &&
    (decide (86399 < (tripleAt t (i + 2)).toNat) || decide (1023 < (halfAt t (i + 5)).toNat)
      || (byteAt t (i + 7)).extractLsb' 0 2 == 3#2 || (byteAt t (i + 7)).extractLsb' 2 5 != 0#5)

/-- An option of an unknown kind, of another length than its kind's, or with a value fault (R2). -/
def optionFault (t : List Byte) (o : OptionField) : Bool :=
  if o.kind = 0x01 then o.length != 8 || stampFault t o.value
  else if o.kind = 0x02 then o.length != 2 || decide (4095 < (halfAt t o.value).toNat)
  else if o.kind = 0x03 then o.length != 0
  else true

/-- A kind that stands twice. -/
def repeatsKind (l : List OptionField) : Bool := !decide (l.map (·.kind)).Nodup

/-- The form errors of a telegram of the given framed length. -/
def formError (t : List Byte) (framed : Nat) : Bool :=
  decide (227 < framed) || sourceOf t == 0xFFFF || decide (3 < optionCountOf t)
    || decide (200 < payloadLengthOf t) || (byteAt t 5).getLsbD 0
    || (byteAt t 6).extractLsb' 3 5 != 0#5 || (optionsOf t).any (optionFault t)
    || repeatsKind (optionsOf t)

/-! ### The rewrites of a forwarded telegram (R30, R36, R179) -/

/-- The STAMP value of an arrival: day number, second of day, sub-second, quality, filled marker. -/
def stampValue (time : TimeStamp) (q : Quality) : List Byte :=
  be16 time.day ++ be24 (BitVec.ofNat 24 time.second.val) ++ be16 (BitVec.ofNat 16 time.sub.val)
    ++ [0x80#8 ||| q.code]

/-- The destination written (bytes 1 and 2 alone). -/
def writeDest (t : List Byte) (d : Addr) : List Byte := putBytes t 1 (be16 d)

/-- An unfilled STAMP slot filled; every other telegram as it stands. -/
def fillStamp (t : List Byte) (time : TimeStamp) (q : Quality) : List Byte :=
  match unfilledStamp t with
  | some i => putBytes t i (stampValue time q)
  | none => t

/-- What judgement reads of a received telegram. -/
def describe (p : Port) (t : List Byte) : Described where
  port := p
  source := sourceOf t
  dest := destOf t
  cls := classOf t
  priv := privOf t
  urgent := urgentOf t
  unfilledStamp := (unfilledStamp t).isSome
  holdLimit := holdLimitOf t

/-! ### Telegrams the gate composes (R156, R177, R179) -/

/-- A class 15 telegram of privilege tag 0, with no BOUND flag and no options, up to its payload. -/
def composed (dest source : Addr) (seq : Byte) (payload : List Byte) : List Byte :=
  0xD3#8 :: be16 dest ++ be16 source ++ [0xF0#8, 0, seq, BitVec.ofNat 8 payload.length] ++ payload

/-! ### Small encodings (R180) -/

/-- A yes or no: 1 or 0. -/
def yesNo (b : Bool) : Byte := if b then 1 else 0

/-- One bit in its place. -/
def bitIn (b : Bool) (i : Nat) : Byte := if b then BitVec.twoPow 8 i else 0

/-- A number in one byte. -/
def byteOf (n : Nat) : Byte := BitVec.ofNat 8 n

/-- A number in two bytes. -/
def halfOf (n : Nat) : List Byte := be16 (BitVec.ofNat 16 n)

/-- A list: NORMAL 0, URGENT 1. -/
def ListKind.code : ListKind → Byte
  | .normal => 0
  | .urgent => 1

/-- A port: N 0, F 1 (section 12.2). -/
def portCode : Port → Byte
  | .n => 0
  | .f => 1

/-- The state of the Refill Timer. -/
def TimerState.code : TimerState → Byte
  | .stopped => 0
  | .running => 1
  | .paused => 2

/-- The source of the Refill Timer. -/
def RefillSource.code : RefillSource → Byte
  | .tick => 0
  | .sixtyFourth => 1
  | .second => 2

/-- The state of the Supervision Timer. -/
def SupState.code : SupState → Byte
  | .disabled => 0
  | .counting => 1
  | .lapsed => 2

/-- The last reset cause. -/
def ResetCause.code : ResetCause → Byte
  | .power => 0
  | .pin => 1
  | .command => 2

/-! ### The stream entry record (22 bytes) -/

/-- A stream entry as a record. -/
def encodeEntry (e : StreamEntry) : List Byte :=
  [bitIn e.valid 7 ||| bitIn e.portN 6 ||| bitIn e.portF 5 ||| bitIn e.broadcast 4
      ||| bitIn e.remap.isSome 3 ||| bitIn e.urgent 2 ||| bitIn (e.stamp == .fill) 1
      ||| bitIn (e.unsup == .block) 0,
    bitIn (e.closed == .hold) 7 ||| bitIn (e.overRate == .hold) 6 ||| e.privLimit.setWidth 8]
  ++ be16 e.srcLow ++ be16 e.srcHigh ++ be16 e.classes ++ be16 e.dstLow ++ be16 e.dstHigh
  ++ be16 (e.remap.getD 0) ++ be32 e.windows ++ [e.ceiling, e.refill] ++ be16 e.holdLimit

/-- The entry a record carries. A remap base whose present bit is clear is not used (R180). -/
def decodeEntry (l : List Byte) : StreamEntry where
  valid := (byteAt l 0).getLsbD 7
  srcLow := halfAt l 2
  srcHigh := halfAt l 4
  portN := (byteAt l 0).getLsbD 6
  portF := (byteAt l 0).getLsbD 5
  classes := halfAt l 6
  privLimit := (byteAt l 1).extractLsb' 0 2
  dstLow := halfAt l 8
  dstHigh := halfAt l 10
  broadcast := (byteAt l 0).getLsbD 4
  remap := if (byteAt l 0).getLsbD 3 then some (halfAt l 12) else none
  windows := wordAt l 14
  closed := if (byteAt l 1).getLsbD 7 then .hold else .refuse
  ceiling := byteAt l 18
  refill := byteAt l 19
  overRate := if (byteAt l 1).getLsbD 6 then .hold else .refuse
  holdLimit := halfAt l 20
  urgent := (byteAt l 0).getLsbD 2
  stamp := if (byteAt l 0).getLsbD 1 then .fill else .ignore
  unsup := if (byteAt l 0).getLsbD 0 then .block else .continue_

/-- Consistency of an entry (R18). -/
def StreamEntry.consistent (e : StreamEntry) : Bool :=
  decide (e.srcLow.toNat ≤ e.srcHigh.toNat) && decide (e.dstLow.toNat ≤ e.dstHigh.toNat)
    && decide (e.srcHigh.toNat ≤ 0xFFFE) && decide (e.dstHigh.toNat ≤ 0xFFFE)
    && (e.portN || e.portF) && decide (e.holdLimit.toNat ≤ 4095)
    && (match e.remap with
        | none => true
        | some r => decide (r.toNat + (e.dstHigh.toNat - e.dstLow.toNat) ≤ 0xFFFE))

/-- An entry record WRITE_ENTRY takes: its zero bits are zero and the entry is consistent (R18, R180). -/
def entryAllowed (l : List Byte) : Bool :=
  (byteAt l 1).extractLsb' 2 4 == 0#4 && (decodeEntry l).consistent

/-! ### The window record (10 bytes) -/

/-- A window record as bytes. A date range that is absent reads as 0 (R180). -/
def encodeWindow (w : WindowRecord) : List Byte :=
  [bitIn w.used 7 ||| bitIn w.strict 6 ||| bitIn w.dates.isSome 5, w.days.setWidth 8]
  ++ halfOf w.start.val ++ halfOf w.stop.val
  ++ be16 ((w.dates.map Prod.fst).getD 0) ++ be16 ((w.dates.map Prod.snd).getD 0)

/-- A minute of day, none above 1439. -/
def minuteOf (x : BitVec 16) : Option (Fin 1440) :=
  if h : x.toNat < 1440 then some ⟨x.toNat, h⟩ else none

/-- The record WRITE_WINDOW carries, none where R72 or R180 answers BAD_ARGUMENT. -/
def decodeWindow (l : List Byte) : Option WindowRecord :=
  match minuteOf (halfAt l 2), minuteOf (halfAt l 4) with
  | some start, some stop =>
    if (byteAt l 0).extractLsb' 0 5 != 0#5 || (byteAt l 1).getLsbD 7
        || ((byteAt l 0).getLsbD 5 && decide ((halfAt l 8).toNat < (halfAt l 6).toNat)) then none
    else some ⟨(byteAt l 0).getLsbD 7, (byteAt l 1).extractLsb' 0 7, start, stop,
      if (byteAt l 0).getLsbD 5 then some (halfAt l 6, halfAt l 8) else none, (byteAt l 0).getLsbD 6⟩
  | _, _ => none

/-! ### The exception record (16 bytes) -/

/-- An exception record as DRAIN_EXCEPTIONS returns it. Bit 2 of byte 1, to which section 12.2 gives no meaning, is 0
(DESIGN CHOICE, log 34). -/
def encodeRecord (r : ExcRecord) : List Byte :=
  [r.what.reason.code,
    bitIn (r.what.port == .f) 7 ||| bitIn r.what.source.isSome 6 ||| bitIn r.what.dest.isSome 5
      ||| bitIn r.what.cls.isSome 4 ||| bitIn r.what.index.isSome 3 ||| r.quality.code]
  ++ be16 r.time.day ++ be24 (BitVec.ofNat 24 r.time.second.val) ++ halfOf r.time.sub.val
  ++ be16 (r.what.source.getD 0) ++ be16 (r.what.dest.getD 0)
  ++ [(r.what.cls.getD 0).setWidth 8, byteOf (((r.what.index.map Fin.val)).getD 0), r.repeats]

/-! ### The arguments of the commands (section 12.2, R155, R180) -/

/-- A byte as a row index; a byte-wide index is always in range (R180). -/
def indexOf (b : Byte) : Index := ⟨b.toNat, b.isLt⟩

/-- A role byte: ACTIVE 0 (true), SHADOW 1 (false). -/
def roleOf (b : Byte) : Option Bool := if b = 0 then some true else if b = 1 then some false else none

/-- A window number 0..31. -/
def windowOf (b : Byte) : Option (Fin 32) := if h : b.toNat < 32 then some ⟨b.toNat, h⟩ else none

/-- A port byte. -/
def portOf (b : Byte) : Option Port := if b = 0 then some .n else if b = 1 then some .f else none

/-- An action byte of REFILL_CONTROL. -/
def actionOf (b : Byte) : Option RefillAction :=
  if b = 0 then some .start else if b = 1 then some .pause else if b = 2 then some .stop
  else if b = 3 then some .restart else none

/-- Arguments found in range, or BAD_ARGUMENT. -/
def decodedOf (c : Option Cmd) : Decoded :=
  match c with
  | some c => .command c
  | none => .bad

/-- PROBE (R43): a described telegram; the hold limit is not used when bit 2 of the option byte is clear. -/
def decodeProbe (a : List Byte) : Option Cmd :=
  match portOf (byteAt a 0) with
  | none => none
  | some p =>
    if halfAt a 1 = 0xFFFF ∨ 15 < (byteAt a 5).toNat ∨ 3 < (byteAt a 6).toNat
        ∨ (byteAt a 7).extractLsb' 3 5 ≠ 0#5
        ∨ ((byteAt a 7).getLsbD 2 = true ∧ 4095 < (halfAt a 8).toNat) then none
    else some (.probe ⟨p, halfAt a 1, halfAt a 3, (byteAt a 5).setWidth 4, (byteAt a 6).setWidth 2,
      (byteAt a 7).getLsbD 0, (byteAt a 7).getLsbD 1,
      if (byteAt a 7).getLsbD 2 then some (halfAt a 8) else none⟩)

/-- SET_TIME (R66). -/
def decodeSetTime (a : List Byte) : Option Cmd :=
  if h : (byteAt a 2).toNat < 7 ∧ (byteAt a 3).toNat < 24 ∧ (byteAt a 4).toNat < 60
      ∧ (byteAt a 5).toNat < 60 then
    some (.setTime (halfAt a 0) ⟨_, h.1⟩ ⟨_, h.2.1⟩ ⟨_, h.2.2.1⟩ ⟨_, h.2.2.2⟩)
  else none

/-- SET_CONFIG: a setting code 1..16, a presence byte 0 or 1, and none allowed for the report address alone
(section 12.2, R180). -/
def decodeSetConfig (a : List Byte) : Option Cmd :=
  if 1 ≤ (byteAt a 0).toNat ∧ (byteAt a 0).toNat ≤ 16
      ∧ (byteAt a 1 = 1 ∨ (byteAt a 1 = 0 ∧ byteAt a 0 = 14)) then
    some (.setConfig (byteAt a 0).toNat (byteAt a 1 == 1) (halfAt a 2))
  else none

/-- FLUSH_HOLD (R112): scope 0 ALL, 1 one index; the index is not examined for ALL. -/
def decodeFlush (a : List Byte) : Option Cmd :=
  if byteAt a 0 = 0 then some (.flush none)
  else if byteAt a 0 = 1 then some (.flush (some (indexOf (byteAt a 1))))
  else none

/-- A payload as a command. The number of argument bytes is tested first; a command whose arguments are out
of range is answered BAD_ARGUMENT. -/
def decodeCommand (payload : List Byte) : Decoded :=
  match payload with
  | [] => .unknown
  | code :: a =>
    let sized (n : Nat) (c : Option Cmd) : Decoded := if a.length = n then decodedOf c else .bad
    match code.toNat with
    | 0x01 => sized 0 (some .readStatus)
    | 0x02 => sized 2 ((roleOf (byteAt a 0)).map fun r => .readEntry r (indexOf (byteAt a 1)))
    | 0x03 => sized 2 ((roleOf (byteAt a 0)).bind fun r =>
        (windowOf (byteAt a 1)).map fun w => .readWindow r w)
    | 0x04 =>
      match a with
      | [] => .bad
      | i :: rest =>
        if rest.length < 8 then .command (.readStream (indexOf i) (rest.map indexOf)) else .bad
    | 0x05 => sized 10 (decodeProbe a)
    | 0x06 => sized 0 (some .keepalive)
    | 0x07 => sized 23 (if entryAllowed (a.drop 1) then
        some (.writeEntry (indexOf (byteAt a 0)) (decodeEntry (a.drop 1))) else none)
    | 0x08 => sized 1 (some (.invalidate (indexOf (byteAt a 0))))
    | 0x09 => sized 11 ((windowOf (byteAt a 0)).bind fun w =>
        (decodeWindow (a.drop 1)).map fun r => .writeWindow w r)
    | 0x0A => sized 0 (some .copy)
    | 0x0B => sized 0 (some .clear)
    | 0x0C => sized 0 (some .commitNow)
    | 0x0D => sized 4 ((minuteOf (halfAt a 2)).map fun m => .schedule ⟨halfAt a 0, m⟩)
    | 0x0E => sized 0 (some .cancel)
    | 0x0F => sized 6 (decodeSetTime a)
    | 0x10 => sized 4 (decodeSetConfig a)
    | 0x11 => sized 1 ((actionOf (byteAt a 0)).map .refillControl)
    | 0x12 => sized 2 (if (byteAt a 0).toNat ≤ (byteAt a 1).toNat then
        some (.clearCounters (indexOf (byteAt a 0)) (indexOf (byteAt a 1))) else none)
    | 0x13 => sized 1 (if 1 ≤ (byteAt a 0).toNat ∧ (byteAt a 0).toNat ≤ 8 then
        some (.drain (byteAt a 0).toNat) else none)
    | 0x14 => sized 1 (some (.clearAlerts (byteAt a 0)))
    | 0x15 => sized 2 (decodeFlush a)
    | 0x16 => sized 0 (some .reset)
    | _ => .unknown

/-- Whether a payload's code is of class WRITE (R153); every other code, and an empty payload, is classed
with READ. -/
def isWrite (payload : List Byte) : Bool :=
  match payload with
  | [] => false
  | code :: _ => decide (0x07 ≤ code.toNat) && decide (code.toNat ≤ 0x16)

/-- The code a response carries: the command's, or 0x00 for an empty payload (R156). -/
def responseCode (payload : List Byte) : Byte := byteAt payload 0

end Sys2Proof.Machine
end

