-- ==== Sys2Proof/Machine/Flags.lean ====
section
/-! DEFINITION. The Exception Unit (11_exceptions_and_alerts.md): the placing of exception records, the
alert flags, ALERT_N and the Reports. -/

namespace Sys2Proof.Machine

/-- Minute of day (section 4.1). -/
def Calendar.minuteOfDay (c : Calendar) : Fin 1440 := ⟨c.hour.val * 60 + c.minute.val, by omega⟩

/-- Second of day (section 4.1). -/
def Calendar.secondOfDay (c : Calendar) : Fin 86400 :=
  ⟨c.hour.val * 3600 + c.minute.val * 60 + c.second.val, by omega⟩

/-- One reading of the time of week (R68). -/
def Calendar.stamp (c : Calendar) : TimeStamp := ⟨c.day, c.secondOfDay, c.sub⟩

/-! ### Reports and ALERT_N (R176, R177) -/

/-- The 13 bytes of a Report's payload (section 12.2). -/
def reportPayload (f : Flag) (s : State) : List Byte :=
  [0x40#8, s.exc.flags, byteOf f.bit] ++ be16 s.cal.day
    ++ be24 (BitVec.ofNat 24 s.cal.secondOfDay.val) ++ halfOf s.cal.sub.val
    ++ [s.cal.quality.code, byteOf s.exc.queue.length, byteOf s.hold.records.length]

/-- Whether a rise of a flag calls for a Report: its report enable is set and the report address is not
none. -/
def reportWanted (f : Flag) (s : State) : Option Addr :=
  if s.agent.settings.reportEnables.getLsbD f.bit then s.agent.settings.reportAddress else none

/-- The Report of a rise (R177): the number, the claim, the writing, the append to Port F's normal list. -/
def sendReport (f : Flag) (s : State) : State :=
  match reportWanted f s with
  | none => s
  | some dest =>
    let s1 := s.setExc { s.exc with reportNumber := s.exc.reportNumber + 1 }
    match claim s1 with
    | none => s1
    | some (b, s2) =>
      let bytes := composed dest s2.ownAddr s2.exc.reportNumber (reportPayload f s2)
      let s3 := s2.setBuffer b ⟨bytes, { (s2.buffer b).desc with length := bytes.length + 2 }⟩
      match txAppend .f .normal b s3 with
      | some s4 => s4
      | none => release b s3

/-- ALERT_N is low exactly while some alert flag and its pin enable are both set (R176). -/
def driveAlert (s : State) : State :=
  s.setExc { s.exc with alertLow := (s.exc.flags &&& s.agent.settings.pinEnables) != 0#8 }

/-- A telling to set a flag (R174). A flag that is set stays set, with no effect; a clear one rises. -/
def tell (f : Flag) (s : State) : State :=
  if s.exc.flags.getLsbD f.bit then s
  else sendReport f (driveAlert (s.setExc { s.exc with flags := s.exc.flags ||| f.mask }))

/-- CLEAR_ALERTS (R175, R176). -/
def clearFlags (named : BitVec 8) (s : State) : State :=
  driveAlert (s.setExc { s.exc with flags := s.exc.flags &&& ~~~named })

/-! ### The Exception Queue (R170 to R173) -/

/-- The same key: reason, arrival port, source and row index; absent equals absent alone. -/
def sameKey (a b : Handed) : Bool :=
  a.reason == b.reason && a.port == b.port && a.source == b.source && a.index == b.index

/-- A record that is lost (R172). -/
def loseRecord (s : State) : State :=
  tell .excLost (s.setExc { s.exc with lost := satAdd s.exc.lost })

/-- A record appended at the tail; EXCEPTION is told when the queue was empty (R171, R174). -/
def appendRecord (r : ExcRecord) (s : State) : State :=
  let s1 := s.setExc { s.exc with queue := s.exc.queue ++ [r] }
  if s.exc.queue.isEmpty then tell .exception s1 else s1

/-- The hand-over of a record (R170, R171). -/
def handOver (h : Handed) (s : State) : State :=
  let fresh : ExcRecord := ⟨h, s.cal.stamp, s.cal.quality, 1⟩
  match s.exc.queue.getLast? with
  | none => appendRecord fresh s
  | some newest =>
    if sameKey newest.what h then
      if newest.repeats = 255 then loseRecord s
      else s.setExc { s.exc with
        queue := s.exc.queue.dropLast ++ [{ newest with repeats := newest.repeats + 1 }] }
    else if 16 ≤ s.exc.queue.length then loseRecord s
    else appendRecord fresh s

/-- DRAIN_EXCEPTIONS (R173): the oldest records go, the lost count becomes 0. -/
def drainRecords (maximum : Nat) (s : State) : State :=
  s.setExc { s.exc with queue := s.exc.queue.drop maximum, lost := 0 }

/-- The record of a received telegram with its source, destination and class as received. -/
def recordOf (reason : Reason) (p : Port) (t : List Byte) (index : Option Index) : Handed :=
  ⟨reason, p, some (sourceOf t), some (destOf t), some (classOf t), index⟩

end Sys2Proof.Machine
end

