-- ==== Sys2Proof/Machine/Calendar.lean ====
section
/-! DEFINITION. The Calendar and its Reference Monitor (04_calendar_and_time_base.md), apart from what the
other blocks do with its events. -/

namespace Sys2Proof.Machine

/-! ### Counting (R56 to R58) -/

/-- A number counted round its range. -/
def wrapNext {n : Nat} (x : Fin (n + 1)) : Fin (n + 1) := if h : x.val < n then ⟨x.val + 1, by omega⟩ else 0

/-- A new day: the day number and the weekday advance together and independently. -/
def Calendar.nextDay (c : Calendar) : Calendar := { c with day := c.day + 1, weekday := wrapNext c.weekday }

/-- A new hour. -/
def Calendar.nextHour (c : Calendar) : Calendar :=
  let c1 := { c with hour := wrapNext c.hour }
  if c.hour = 23 then c1.nextDay else c1

/-- A new minute. -/
def Calendar.nextMinute (c : Calendar) : Calendar :=
  let c1 := { c with minute := wrapNext c.minute }
  if c.minute = 59 then c1.nextHour else c1

/-- A new second. -/
def Calendar.nextSecond (c : Calendar) : Calendar :=
  let c1 := { c with second := wrapNext c.second }
  if c.second = 59 then c1.nextMinute else c1

/-- The time of week one sub-second on (R56). -/
def Calendar.nextSub (c : Calendar) : Calendar :=
  let c1 := { c with sub := wrapNext c.sub }
  if c.sub = 1023 then c1.nextSecond else c1

/-- The source returns to REFERENCE at a fallback tick with the switch pending (R63). -/
def Calendar.takeSwitch (c : Calendar) : Calendar :=
  if c.switchPending && c.source == .fallback then
    { c with source := .reference, switchPending := false, goodEdges := 0 }
  else c

/-- A tick of the present source: the time of week and the uptime advance, the edge divider becomes 0
(R56, R57, R59, R63). -/
def Calendar.tick (c : Calendar) : Calendar :=
  let c1 := c.nextSub.takeSwitch
  { c1 with uptime := c.uptime + 1, divider := 0 }

/-- The minute boundary a tick raises, with the time it carries (R58). -/
def Calendar.boundary (before after : Calendar) : Option MinuteMark :=
  if before.sub = 1023 ∧ before.second = 59 then some ⟨after.day, after.weekday, after.minuteOfDay⟩ else none

/-- What a tick hands to the blocks (R57, R58): the tick itself, and the boundaries it raised. -/
def Calendar.deliver (before after : Calendar) : Calendar :=
  { after with
    refillTick := true
    scrubTick := true
    secondDue := before.sub == 1023
    windowMinute := before.boundary after
    commitMinute := before.boundary after }

/-! ### The Reference Monitor (R59 to R63) -/

/-- An interval of 27 to 34 microseconds, in nanoseconds (R62). -/
def correctInterval (ns : Nat) : Bool := decide (27000 ≤ ns) && decide (ns ≤ 34000)

/-- One more good edge in ABSENT; the 1024th makes the Monitor PRESENT with the switch pending (R62). -/
def Calendar.goodEdge (c : Calendar) : Calendar :=
  if h : c.goodEdges.val < 1023 then { c with goodEdges := ⟨c.goodEdges.val + 1, by omega⟩ }
  else { c with goodEdges := 1024, monitor := .present, switchPending := true }

/-- A rising edge of REFIN in ABSENT (R62). The first edge after a loss or a stretch ends no interval. -/
def Calendar.qualify (c : Calendar) (ns : Nat) : Calendar :=
  if c.edgeSeen then
    if correctInterval ns then c.goodEdge else { c with goodEdges := 0 }
  else { c with edgeSeen := true }

/-- Whether an edge is the 32nd of a reference tick (R59). -/
def Calendar.endsReferenceTick (c : Calendar) : Bool :=
  c.monitor == .present && c.source == .reference && c.divider == 31

/-- A rising edge of REFIN that ends no reference tick. -/
def Calendar.edge (c : Calendar) (ns : Nat) : Calendar :=
  match c.monitor with
  | .absent => c.qualify ns
  | .present => if c.source = .reference then { c with divider := wrapNext c.divider } else c

/-- A stretch of the loss measure with no edge, in ABSENT (R62). -/
def Calendar.stretch (c : Calendar) : Calendar :=
  match c.monitor with
  | .absent => { c with goodEdges := 0, edgeSeen := false }
  | .present => c

/-- The Calendar's part of a loss declared in PRESENT (R61). -/
def Calendar.lose (c : Calendar) : Calendar :=
  { c with
    monitor := .absent
    goodEdges := 0
    switchPending := false
    source := .fallback
    edgeSeen := false
    divider := 0
    quality := if c.quality = .nominal then .degraded else c.quality }

/-- Whether the fallback tick is delivered at the loss itself: it had fallen due while the source was
REFERENCE (R59). -/
def Calendar.tickAtLoss (c : Calendar) (tickDue : Bool) : Bool := tickDue && c.source == .reference

/-- An event the Calendar meets while RST_N is held low (R70): its own state alone changes. -/
def Calendar.meet (c : Calendar) (e : CalEvent) : Calendar :=
  match e with
  | .tick => c.tick
  | .edge ns => if c.endsReferenceTick then c.tick else c.edge ns
  | .loss due =>
    match c.monitor with
    | .present => if c.tickAtLoss due then c.lose.tick else c.lose
    | .absent => c
  | .stretch => c.stretch

/-- SET_TIME at the Calendar (R66). -/
def Calendar.set (c : Calendar) (day : DayNum) (weekday : Fin 7) (hour : Fin 24)
    (minute second : Fin 60) : Calendar :=
  { c with
    day := day
    weekday := weekday
    hour := hour
    minute := minute
    second := second
    sub := 0
    quality := match c.source with
      | .reference => .nominal
      | .fallback => .degraded }

/-- The Calendar at the end of a pin or command reset (R70): uptime 0, and no event of before is handed on. -/
def Calendar.afterReset (c : Calendar) : Calendar :=
  { c with
    uptime := 0
    refillTick := false
    scrubTick := false
    secondDue := false
    windowMinute := none
    commitMinute := none }

end Sys2Proof.Machine
end

