-- ==== Sys2Proof/Machine/Policer.lean ====
section
/-! DEFINITION. The Policer (06_rate_credit.md): credits and counts, the Rate Parameter Table and the Refill
Timer. -/

namespace Sys2Proof.Machine

/-! ### Credits and counts -/

/-- The Stream Status record of an index. -/
def State.stream (s : State) (i : Index) : StreamStatus := s.policer.streams[i]

/-- The Stream Status record of an index changed. -/
def State.mapStream (s : State) (i : Index) (f : StreamStatus → StreamStatus) : State :=
  s.setPolicer { s.policer with streams := s.policer.streams.set i.val (f (s.stream i)) }

/-- A request for one credit (R87): granted from credit above 0, refused at 0. -/
def requestCredit (i : Index) (s : State) : Bool × State :=
  if (s.stream i).credit = 0 then (false, s)
  else (true, s.mapStream i fun r => { r with credit := r.credit - 1 })

/-- The passed count of an index, if there is one, incremented (R88). -/
def countPassed (i : Option Index) (s : State) : State :=
  match i with
  | some i => s.mapStream i fun r => { r with passed := r.passed + 1 }
  | none => s

/-- The refused count of an index, if there is one, incremented (R88). -/
def countRefused (i : Option Index) (s : State) : State :=
  match i with
  | some i => s.mapStream i fun r => { r with refused := r.refused + 1 }
  | none => s

/-- The held count of an index, if there is one, incremented (R88). -/
def countHeld (i : Option Index) (s : State) : State :=
  match i with
  | some i => s.mapStream i fun r => { r with held := r.held + 1 }
  | none => s

/-- The counts of a range of indexes set to 0 (R98). -/
def clearCounts (low high : Index) (s : State) : State :=
  s.setPolicer { s.policer with
    streams := Vector.ofFn fun i : Fin 256 =>
      if low ≤ i ∧ i ≤ high then { s.policer.streams[i] with passed := 0, refused := 0, held := 0 }
      else s.policer.streams[i] }

/-! ### The Rate Parameter Table (R86) -/

/-- The parameter record of a (bank, index). -/
def State.param (s : State) (b : Bank) (i : Index) : ParamRecord := (s.policer.params.get b)[i]

/-- The parameter record of a (bank, index) written. -/
def setParam (b : Bank) (i : Index) (r : ParamRecord) (s : State) : State :=
  s.setPolicer { s.policer with
    params := s.policer.params.set b ((s.policer.params.get b).set i.val r) }

/-- The usable mark of a (bank, index) cleared, ceiling and amount kept. -/
def clearUsable (b : Bank) (i : Index) (s : State) : State :=
  setParam b i { s.param b i with usable := false } s

/-- The ceiling a usable record gives, 0 otherwise. -/
def ParamRecord.fill (r : ParamRecord) : BitVec 8 := if r.usable then r.ceiling else 0

/-- The commit event at the Policer, after the flip (R96): credits filled, counts cleared. The resets do the
same (R85). -/
def fillCredits (s : State) : State :=
  s.setPolicer { s.policer with
    streams := Vector.ofFn fun i : Fin 256 => ⟨(s.param s.store.active i).fill, 0, 0, 0⟩ }

/-- A poisoned pair reported to the Policer (R97). -/
def reportPoison (b : Bank) (i : Index) (s : State) : State :=
  let s1 := clearUsable b i s
  if b = s.store.active then s1.mapStream i fun r => { r with credit := 0 } else s1

/-- The credit after a refill (R94). -/
def refilled (r : ParamRecord) (credit : BitVec 8) : BitVec 8 :=
  if r.usable then BitVec.ofNat 8 (min (credit.toNat + r.refill.toNat) r.ceiling.toNat) else 0

/-- A refill of all 256 credits from the active bank (R94). -/
def refillCredits (s : State) : State :=
  s.setPolicer { s.policer with
    streams := Vector.ofFn fun i : Fin 256 =>
      { s.policer.streams[i] with
        credit := refilled (s.param s.store.active i) s.policer.streams[i].credit } }

/-! ### The Refill Timer (R89 to R93) -/

/-- The state and the count of the Timer set. -/
def setTimer (t : TimerState) (count : BitVec 16) (s : State) : State :=
  s.setPolicer { s.policer with timer := t, count := count }

/-- Ticks per pulse (R89). -/
def RefillSource.period : RefillSource → Nat
  | .tick => 1
  | .sixtyFourth => 16
  | .second => 1024

/-- Whether the present tick is a pulse of the Timer's source (R89). -/
def pulseFalls (s : State) : Bool :=
  s.cal.uptime.toNat % s.agent.settings.refillSource.period == 0

/-- START (R90). -/
def timerStart (s : State) : State :=
  match s.policer.timer with
  | .stopped => setTimer .running 0 s
  | .paused => setTimer .running s.policer.count s
  | .running => s

/-- PAUSE (R91). -/
def timerPause (s : State) : State :=
  match s.policer.timer with
  | .running => setTimer .paused s.policer.count s
  | .stopped => s
  | .paused => s

/-- STOP (R91). -/
def timerStop (s : State) : State := setTimer .stopped 0 s

/-- RESTART (R92). -/
def timerRestart (s : State) : State := setTimer s.policer.timer s.agent.settings.refillPreset s

/-- REFILL_CONTROL at the Timer. -/
def timerAct (a : RefillAction) (s : State) : State :=
  match a with
  | .start => timerStart s
  | .pause => timerPause s
  | .stop => timerStop s
  | .restart => timerRestart s

end Sys2Proof.Machine
end

