-- ==== Sys2Proof/Machine/Checks.lean ====
section
/-! DEFINITION. The checks of judgement as functions of what they read (02_judgement.md, sections 2.4 to
2.6); the Judges, the Hold Queue and PROBE share them. -/

namespace Sys2Proof.Machine

/-! ### The match test (R25) -/

/-- Whether a row's entry matches. -/
def matchesKey (e : StreamEntry) (k : LookupKey) : Bool :=
  e.valid && (match k.port with
              | .n => e.portN
              | .f => e.portF)
    && decide (e.srcLow.toNat ≤ k.source.toNat) && decide (k.source.toNat ≤ e.srcHigh.toNat)
    && e.classes.getLsbD k.cls.toNat

/-- The fields a described telegram matches on. -/
def Described.key (d : Described) : LookupKey := ⟨d.port, d.source, d.cls⟩

/-! ### Checks 4 and 5 (R29, R30) -/

/-- The numerically greater of two privileges. -/
def maxPriv (a b : BitVec 2) : BitVec 2 := if a.toNat ≤ b.toNat then b else a

/-- The effective privilege: the greater of the tag and the floor of the arrival port. -/
def effectivePriv (c : Settings) (p : Port) (tag : BitVec 2) : BitVec 2 := maxPriv tag (c.floor p)

/-- Whether a destination is admitted. -/
def destAdmitted (e : StreamEntry) (dest : Addr) : Bool :=
  if dest = 0xFFFF then e.broadcast
  else decide (e.dstLow.toNat ≤ dest.toNat) && decide (dest.toNat ≤ e.dstHigh.toNat)

/-- The outgoing destination of an admitted telegram. -/
def outgoing (e : StreamEntry) (dest : Addr) : Addr :=
  match e.remap with
  | some base => if dest = 0xFFFF then dest else base + (dest - e.dstLow)
  | none => dest

/-- The list an entry chooses (R37). -/
def chosenList (e : StreamEntry) (d : Described) : ListKind :=
  if d.urgent && e.urgent then .urgent else .normal

/-- The facts of R35 from an entry. -/
def factsOf (bank : Bank) (i : Index) (e : StreamEntry) (d : Described) : Facts :=
  ⟨bank, some i, e.context, outgoing e d.dest, chosenList e d, e.stamp⟩

/-- The facts of a default PASS (R27, R116): no index, no remap, no fill, the normal list. -/
def defaultFacts (bank : Bank) (d : Described) : Facts :=
  ⟨bank, none, unconditional, d.dest, .normal, .ignore⟩

/-- Checks 4 and 5 against an entry: the reason they refuse for, if any. -/
def admission (c : Settings) (e : StreamEntry) (d : Described) : Option Reason :=
  if e.privLimit.toNat < (effectivePriv c d.port d.priv).toNat then some .privilege
  else if destAdmitted e d.dest then none else some .range

/-! ### Checks 6 to 8 (R31 to R33, R103) -/

/-- What checks 6 to 8 find. -/
inductive PolicyVerdict
  | pass
  | hold (reason : HoldReason)
  | refuse (reason : Reason)
  deriving DecidableEq, Repr

/-- What an action field makes of a hold reason. -/
def actOn (a : Action) (r : HoldReason) : PolicyVerdict :=
  match a with
  | .refuse => .refuse r.refusal
  | .hold => .hold r

/-- Whether a window set is open: empty, or meeting the Open Set. -/
def windowsOpen (set openSet : WindowSet) : Bool := set == 0 || (set &&& openSet) != 0

/-- Checks 6, 7 and 8 from a context, with the supervision state, the Open Set and the credit as they
stand. -/
def policyChecks (c : HeldContext) (lapsed : Bool) (openSet : WindowSet) (credit : BitVec 8) :
    PolicyVerdict :=
  if lapsed && c.unsup == .block then .refuse .unsupervised
  else if !windowsOpen c.windows openSet then actOn c.closed .window
  else if c.ceiling != 0 && credit == 0 then actOn c.overRate .rate
  else .pass

/-- Whether supervision has lapsed (R166). -/
def State.lapsed (s : State) : Bool := s.agent.supervision.state == .lapsed

/-- The credit of an index as check 8 sees it. -/
def State.creditOf (s : State) (i : Option Index) : BitVec 8 :=
  match i with
  | some i => (s.stream i).credit
  | none => 0

/-- Checks 6 to 8 as they stand in a state. -/
def policyNow (s : State) (bank : Bank) (i : Option Index) (c : HeldContext) : PolicyVerdict :=
  policyChecks c s.lapsed (s.windows.openSets.get bank) (s.creditOf i)

/-- The consumption of a passed check 8: one credit of the index where the ceiling is not 0 (R33, R87). -/
def consume (i : Option Index) (c : HeldContext) (s : State) : State :=
  match i with
  | some i => if c.ceiling = 0 then s else (requestCredit i s).2
  | none => s

/-- The effective hold limit in seconds (R34). -/
def effectiveLimit (e : StreamEntry) (d : Described) : Nat :=
  match d.holdLimit with
  | some l => min e.holdLimit.toNat l.toNat
  | none => e.holdLimit.toNat

/-! ### The verdict of a judgement up to check 8 (R41) -/

/-- A HOLD with an effective limit of 0 is a refusal with the check's reason (R34). -/
def holdOrRefuse (f : Facts) (r : HoldReason) (limit : Nat) : RejudgeVerdict :=
  if limit = 0 then .refuse r.refusal f.index else .hold f r limit

/-- Checks 4 to 8 against an entry. -/
def judgeByEntry (s : State) (bank : Bank) (i : Index) (e : StreamEntry) (d : Described) :
    RejudgeVerdict :=
  match admission s.agent.settings e d with
  | some r => .refuse r (some i)
  | none =>
    match policyNow s bank (some i) e.context with
    | .pass => .pass (factsOf bank i e d)
    | .hold r => holdOrRefuse (factsOf bank i e d) r (effectiveLimit e d)
    | .refuse r => .refuse r (some i)

/-- The default verdict (R27). -/
def defaultVerdict (c : Settings) (bank : Bank) (d : Described) : RejudgeVerdict :=
  if c.defaultPass then .pass (defaultFacts bank d) else .refuse .noEntry none

/-- The verdict after the lookup stopped: checks 4 to 8, the default verdict or TABLE_FAULT. -/
def verdictOf (s : State) (bank : Bank) (stop : LookupStop) (d : Described) : RejudgeVerdict :=
  match stop with
  | .found i e => judgeByEntry s bank i e d
  | .noMatch => defaultVerdict s.agent.settings bank d
  | .poisoned _ => .refuse .tableFault none
  | .fault _ => .refuse .tableFault none

/-- The verdict for the second of a first that passed or is held: checks 6 to 8 are skipped (R48, R49). -/
def secondVerdict (s : State) (bank : Bank) (stop : LookupStop) (d : Described) : RejudgeVerdict :=
  match stop with
  | .found i e =>
    match admission s.agent.settings e d with
    | some r => .refuse r (some i)
    | none => .pass (factsOf bank i e d)
  | .noMatch => defaultVerdict s.agent.settings bank d
  | .poisoned _ => .refuse .tableFault none
  | .fault _ => .refuse .tableFault none

/-! ### The preparation of a buffer that passes (R36) -/

/-- A telegram's bytes as they pass: destination rewritten when it differs, unfilled STAMP slot filled
under FILL. -/
def prepared (x : Buffer) (outDest : Addr) (stamp : StampPolicy) : List Byte :=
  let t := if outDest = destOf x.bytes then x.bytes else writeDest x.bytes outDest
  match stamp with
  | .fill => fillStamp t x.desc.time x.desc.quality
  | .ignore => t

/-- The preparation written into the buffer. -/
def prepareBuffer (b : BufId) (outDest : Addr) (stamp : StampPolicy) (s : State) : State :=
  s.setBuffer b { s.buffer b with bytes := prepared (s.buffer b) outDest stamp }

end Sys2Proof.Machine
end

