-- ==== Sys2Proof/Machine/HoldQueue.lean ====
section
/-! DEFINITION. The Hold Queue (07_hold_queue.md): admission, release, removal, the scans and the rejudge
pass. -/

namespace Sys2Proof.Machine

/-! ### Records -/

/-- The held records replaced. -/
def State.setRecords (s : State) (l : List HeldRecord) : State := s.setHold { s.hold with records := l }

/-- The record a reference names, if it is present. -/
def State.heldRecord (s : State) (ref : Nat) : Option HeldRecord :=
  s.hold.records.find? fun r => r.ref == ref

/-- The record of a reference changed in its place. -/
def mapRecord (ref : Nat) (f : HeldRecord → HeldRecord) (s : State) : State :=
  s.setRecords (s.hold.records.map fun r => if r.ref = ref then f r else r)

/-- The record of a reference taken out; the others keep their order (R99). -/
def dropRecord (ref : Nat) (s : State) : State :=
  s.setRecords (s.hold.records.filter fun r => r.ref != ref)

/-- The first part of a record, if it is a first record. -/
def HeldRecord.firstPart (r : HeldRecord) : Option FirstPart :=
  match r.role with
  | .first f => some f
  | .partner _ => none

/-- The same record with its first part changed. -/
def HeldRecord.mapFirst (r : HeldRecord) (f : FirstPart → FirstPart) : HeldRecord :=
  match r.role with
  | .first p => { r with role := .first (f p) }
  | .partner _ => r

/-- Whether a record is a first record. -/
def HeldRecord.isFirst (r : HeldRecord) : Bool := r.firstPart.isSome

/-- The partner of a record, if it has one. -/
def HeldRecord.partnerRef (r : HeldRecord) : Option Nat :=
  match r.firstPart with
  | some f => f.partner
  | none => none

/-- Whether a first waits for its partner. -/
def HeldRecord.awaiting (r : HeldRecord) : Bool :=
  match r.firstPart with
  | some f => f.awaiting
  | none => false

/-! ### Removal (R105) -/

/-- The exception record of a held telegram: source and class from the buffer, the received destination. -/
def heldExc (r : HeldRecord) (reason : Reason) (index : Option Index) (s : State) : Handed :=
  ⟨reason, r.port, some (sourceOf (s.buffer r.buffer).bytes), some r.dest,
    some (classOf (s.buffer r.buffer).bytes), index⟩

/-- One record out: its buffer returns and its exception record is handed over, in that order (R12 lets the claim of
a Report be first at an empty free list: log 15). -/
def takeOut (r : HeldRecord) (reason : Reason) (index : Option Index) (s : State) : State :=
  handOver (heldExc r reason index s) (release r.buffer (dropRecord r.ref s))

/-- The partner of a removed first goes BOUND_BROKEN with its own particulars and index. -/
def takeOutPartner (r : HeldRecord) (s : State) : State :=
  match r.partnerRef with
  | none => s
  | some ref =>
    match s.heldRecord ref with
    | none => s
    | some partner => takeOut partner .boundBroken partner.index s

/-- Whether a bind context references a held record. -/
def references (c : Option BindContext) (ref : Nat) : Bool :=
  match c with
  | some c => c.outcome == .held ref
  | none => false

/-- The fate of an awaiting first reported to the Judge of its arrival port (R53, R105). -/
def reportFate (r : HeldRecord) (s : State) : State :=
  if r.awaiting && references (s.judges.get r.port).bind r.ref then
    s.mapJudge r.port fun j => { j with bind := none }
  else s

/-- A request naming the record is withdrawn while it still waits in the slot (R105). -/
def withdraw (r : HeldRecord) (s : State) : State :=
  if (s.judges.get r.port).slot = some r.ref then
    let s1 := s.mapJudge r.port fun j => { j with slot := none }
    s1.setHold { s1.hold with outstanding := s1.hold.outstanding.set r.port none }
  else s

/-- A removal of a first record (R105). -/
def removeFirst (r : HeldRecord) (reason : Reason) (index : Option Index) (s : State) : State :=
  withdraw r (reportFate r (takeOutPartner r (takeOut r reason index s)))

/-- A removal that counts against the record's index (the rows of R105 with "refused"). -/
def removeCounted (r : HeldRecord) (reason : Reason) (index : Option Index) (s : State) : State :=
  countRefused index (removeFirst r reason index s)

/-- The first record of a reference removed, if it is still present. -/
def removeRef (reason : Reason) (s : State) (ref : Nat) : State :=
  match s.heldRecord ref with
  | some r => removeFirst r reason r.index s
  | none => s

/-- A Judge's request to drop a record BOUND_BROKEN (R105). -/
def dropBroken (ref : Nat) (s : State) : State := removeRef .boundBroken s ref

/-- Every first record a test picks is removed, in hold order, one after another: a Report raised by the record of
one counts those still to be removed in its hold count (R177 leaves that open: log 15). -/
def removeAll (reason : Reason) (pick : HeldRecord → FirstPart → Bool) (s : State) : State :=
  ((s.hold.records.filter fun r =>
      match r.firstPart with
      | some f => pick r f
      | none => false).map (·.ref)).foldl (removeRef reason) s

/-- The tick event at the Hold Queue (R109). -/
def expire (s : State) : State :=
  removeAll .holdExpired (fun _ f => atOrBefore f.deadline s.cal.uptime) s

/-- The lapse at the Hold Queue (R111). -/
def removeBlocked (s : State) : State :=
  removeAll .unsupervised (fun _ f => f.context.unsup == .block) s

/-- FLUSH_HOLD at the Hold Queue (R112). -/
def flushHeld (scope : Option Index) (s : State) : State :=
  match scope with
  | none => removeAll .flushed (fun _ _ => true) s
  | some i => removeAll .flushed (fun r _ => r.index == some i) s

/-! ### Release (R103, R104, R55) -/

/-- The partner's release directly after its first, on the list of its first (R55, log 28). No other party's append
falls between the two, though R55 lets one (log 15). -/
def releasePartner (r : HeldRecord) (s : State) : State :=
  match r.partnerRef with
  | none => s
  | some ref =>
    match s.heldRecord ref with
    | none => s
    | some q =>
      let s1 := prepareBuffer q.buffer q.outDest q.stamp s
      match txAppend (otherPort q.port) r.list q.buffer s1 with
      | some s2 => countPassed q.index (dropRecord q.ref s2)
      | none => countRefused q.index (takeOut q .txFull q.index s1)

/-- A release of a first record (R104). A pair's two appends are made in the one step, so a list with two places left
takes both (R55 lets another party's append fall between them: log 15). -/
def releaseFirst (r : HeldRecord) (s : State) : State :=
  let s1 := prepareBuffer r.buffer r.outDest r.stamp s
  match txAppend (otherPort r.port) r.list r.buffer s1 with
  | some s2 => releasePartner r (countPassed r.index (dropRecord r.ref s2))
  | none => removeCounted r .txFull r.index s1

/-- A record that stays takes the reason found. -/
def stay (r : HeldRecord) (reason : HoldReason) (s : State) : State :=
  mapRecord r.ref (fun q => q.mapFirst fun f => { f with reason := reason }) s

/-- A release evaluation of a first record (R103). -/
def evaluate (r : HeldRecord) (f : FirstPart) (s : State) : State :=
  match policyNow s r.bank r.index f.context with
  | .refuse reason => removeCounted r reason r.index s
  | .hold reason => stay r reason s
  | .pass => releaseFirst r (consume r.index f.context s)

/-! ### Admission (R100 to R102) -/

/-- The HOLD_HIGH test of an admission (R102). -/
def holdHighTest (s : State) : State :=
  if s.agent.settings.holdHighMark.toNat ≤ s.hold.records.length then tell .holdHigh s else s

/-- A record admitted at the end of the hold order. -/
def admitRecord (r : HeldRecord) (s : State) : State :=
  s.setHold { s.hold with records := s.hold.records ++ [r], nextRef := s.hold.nextRef + 1 }

/-- The supervision part of the catch-up test (R101). -/
def lapsedBlock (f : FirstPart) (s : State) : Bool := s.lapsed && f.context.unsup == .block

/-- The window and rate parts of the catch-up test (R101): whether a release evaluation is made at once. -/
def catchesUp (r : HeldRecord) (f : FirstPart) (s : State) : Bool :=
  match f.reason with
  | .window => (f.context.windows &&& s.windows.openSets.get r.bank) != 0
  | .rate => s.creditOf r.index != 0

/-- The catch-up test of a first record (R101). -/
def catchUp (r : HeldRecord) (f : FirstPart) (s : State) : State :=
  if lapsedBlock f s then removeCounted r .unsupervised r.index s
  else if catchesUp r f s then evaluate r f s
  else s

/-- The tests at the admission of a first record: the supervision part whatever its marks, the rest with the
marks clear (R101). -/
def admissionTest (r : HeldRecord) (f : FirstPart) (s : State) : State :=
  if f.awaiting || r.pending then
    if lapsedBlock f s then removeCounted r .unsupervised r.index s else s
  else catchUp r f s

/-- The deadline of a hold: start plus limit × 1024 ticks (R100). -/
def deadlineOf (start : Uptime) (limit : Nat) : Uptime := start + BitVec.ofNat 40 (limit * 1024)

/-- The record an offer of a first builds (R35, R100). Stale: the bank of the lookup is no longer active. -/
def firstRecord (b : BufId) (x : Facts) (reason : HoldReason) (limit : Nat) (boundFirst : Bool)
    (s : State) : HeldRecord where
  ref := s.hold.nextRef
  buffer := b
  port := (s.buffer b).desc.port
  dest := destOf (s.buffer b).bytes
  bank := x.bank
  index := x.index
  outDest := x.outDest
  list := x.list
  stamp := x.stamp
  pending := x.bank != s.store.active
  role := .first ⟨reason, x.context, s.cal.uptime, deadlineOf s.cal.uptime limit, none, boundFirst, false⟩

/-- Whether the queue holds 32 records (R100). -/
def holdFull (s : State) : Bool := decide (32 ≤ s.hold.records.length)

/-- The record an offer of a partner builds (R49, R100). -/
def partnerRecord (b : BufId) (x : Facts) (firstRef : Nat) (first : HeldRecord) (s : State) :
    HeldRecord where
  ref := s.hold.nextRef
  buffer := b
  port := (s.buffer b).desc.port
  dest := destOf (s.buffer b).bytes
  bank := x.bank
  index := x.index
  outDest := x.outDest
  list := first.list
  stamp := x.stamp
  pending := first.pending
  role := .partner firstRef

/-- What the Hold Queue does with a first whose partner has just been admitted (R53). -/
def afterPartner (ref : Nat) (s : State) : State :=
  match s.heldRecord ref with
  | none => s
  | some r =>
    match r.firstPart with
    | none => s
    | some f =>
      if r.pending then s
      else if f.cleared then releaseFirst r s
      else evaluate r f s

/-- A partner admitted: the link, the awaiting mark cleared, the HOLD_HIGH test, then R53. The test comes before the
first's release or evaluation, whose records may raise EXCEPTION (R53, R102 and R178 leave the order open: log 15). -/
def admitPartner (b : BufId) (x : Facts) (firstRef : Nat) (first : HeldRecord) (s : State) : State :=
  let partner := partnerRecord b x firstRef first s
  let s1 := mapRecord firstRef
    (fun r => r.mapFirst fun f => { f with partner := some partner.ref, awaiting := false }) s
  afterPartner firstRef (holdHighTest (admitRecord partner s1))

/-! ### Scans (R106 to R108) -/

/-- Whether a scan chooses, or still evaluates, a record. -/
def scanTakes (k : ScanKind) (r : HeldRecord) : Bool :=
  match r.firstPart with
  | none => false
  | some f =>
    !r.pending && !f.awaiting &&
      match k with
      | .window bank ws => f.reason == .window && r.bank == bank && (f.context.windows &&& ws) != 0
      | .refill => f.reason == .rate

/-- Whether a record reached is evaluated: still of that bank, that reason and free of both marks. The
windows are tested at the choice alone (R106). -/
def scanEvaluates (k : ScanKind) (r : HeldRecord) : Bool :=
  match r.firstPart with
  | none => false
  | some f =>
    !r.pending && !f.awaiting &&
      match k with
      | .window bank _ => f.reason == .window && r.bank == bank
      | .refill => f.reason == .rate

/-- The records a scan chooses, oldest first. -/
def chosenBy (k : ScanKind) (h : HoldQueue) : List Nat := (h.records.filter (scanTakes k)).map (·.ref)

/-- The oldest waiting scan begins; one that chooses no record ends at once (log 30). -/
def beginScans (h : HoldQueue) : List ScanKind → HoldQueue
  | [] => { h with scan := none, waiting := [] }
  | k :: rest =>
    if (chosenBy k h).isEmpty then beginScans h rest
    else { h with scan := some ⟨k, chosenBy k h⟩, waiting := rest }

/-- A trigger merged into the waiting scans, or added at their end (R108). -/
def addScan (k : ScanKind) : List ScanKind → List ScanKind
  | [] => [k]
  | w :: rest =>
    match k, w with
    | .window b ws, .window b' ws' =>
      if b = b' then .window b' (ws' ||| ws) :: rest else w :: addScan k rest
    | .refill, .refill => w :: rest
    | _, _ => w :: addScan k rest

/-- A windows-opened or refill done event at the Hold Queue (R108). -/
def trigger (k : ScanKind) (s : State) : State :=
  match s.hold.scan with
  | none => s.setHold (beginScans s.hold (addScan k s.hold.waiting))
  | some _ => s.setHold { s.hold with waiting := addScan k s.hold.waiting }

/-- The record a scan reaches is evaluated, or passed over. -/
def scanRecord (k : ScanKind) (ref : Nat) (s : State) : State :=
  match s.heldRecord ref with
  | none => s
  | some r =>
    match r.firstPart with
    | none => s
    | some f => if scanEvaluates k r then evaluate r f s else s

/-- The end of a scan that has reached its last record: the oldest waiting scan begins. -/
def endScan (s : State) : State :=
  match s.hold.scan with
  | some ⟨_, []⟩ => s.setHold (beginScans s.hold s.hold.waiting)
  | _ => s

/-- The scan in progress reaches its next record (R106). -/
def scanStep (s : State) : State :=
  match s.hold.scan with
  | none => s
  | some ⟨_, []⟩ => endScan s
  | some ⟨k, ref :: rest⟩ =>
    endScan (scanRecord k ref (s.setHold { s.hold with scan := some ⟨k, rest⟩ }))

/-! ### The rejudge pass (R113 to R117) -/

/-- What the commit event does to the outstanding request of a port: stale, and withdrawn when it still
waits in the slot. -/
def staleRequest (p : Port) (s : State) : State :=
  match s.hold.outstanding.get p with
  | none => s
  | some q =>
    if (s.judges.get p).slot = some q.ref then
      let s1 := s.mapJudge p fun j => { j with slot := none }
      s1.setHold { s1.hold with outstanding := s1.hold.outstanding.set p none }
    else s.setHold { s.hold with outstanding := s.hold.outstanding.set p (some { q with stale := true }) }

/-- The commit event at the Hold Queue (R113). -/
def markPending (s : State) : State :=
  let s1 := s.setRecords (s.hold.records.map fun r => { r with pending := true })
  staleRequest .f (staleRequest .n s1)

/-- The oldest pending first record of a port (R115). -/
def nextPending (p : Port) (h : HoldQueue) : Option HeldRecord :=
  h.records.find? fun r => r.isFirst && r.pending && r.port == p

/-- A rejudge request placed with a Judge (R115), if one is to be placed. -/
def placeRequest (p : Port) (s : State) : Option State :=
  match s.hold.outstanding.get p, nextPending p s.hold with
  | none, some r =>
    let s1 := s.mapJudge p fun j => { j with slot := some r.ref }
    some (s1.setHold { s1.hold with outstanding := s1.hold.outstanding.set p (some ⟨r.ref, false⟩) })
  | _, _ => none

/-- A record takes the new facts of a rejudge; its mark is cleared. -/
def HeldRecord.takeFacts (r : HeldRecord) (x : Facts) : HeldRecord :=
  { r with bank := x.bank, index := x.index, outDest := x.outDest, list := x.list, stamp := x.stamp,
           pending := false }

/-- The marks of a first and of its partner cleared (R116). -/
def clearPending (r : HeldRecord) (s : State) : State :=
  let s1 := mapRecord r.ref (fun q => { q with pending := false }) s
  match r.partnerRef with
  | some ref => mapRecord ref (fun q => { q with pending := false }) s1
  | none => s1

/-- The lesser of the old deadline and the hold start plus the new limit, both counted from the hold start
(R116, log 23). -/
def shorterDeadline (f : FirstPart) (limit : Nat) : Uptime :=
  if (f.deadline - f.start).toNat ≤ limit * 1024 then f.deadline else deadlineOf f.start limit

/-- A PASS: a first that awaits its partner is cleared, any other is released (R53, R116). -/
def verdictPass (r : HeldRecord) (f : FirstPart) (x : Facts) (s : State) : State :=
  let f' : FirstPart := { f with context := x.context, cleared := f.cleared || f.awaiting }
  let r' : HeldRecord := { r.takeFacts x with role := .first f' }
  let s1 := mapRecord r.ref (fun _ => r') s
  if f.awaiting then s1 else releaseFirst r' s1

/-- A HOLD: the record stays with the new facts, or expires at once (R116). -/
def verdictHold (r : HeldRecord) (f : FirstPart) (x : Facts) (reason : HoldReason) (limit : Nat)
    (s : State) : State :=
  let deadline := shorterDeadline f limit
  let past := atOrBefore deadline s.cal.uptime
  let f' : FirstPart :=
    { f with context := x.context, reason := reason, deadline := deadline,
             cleared := past && f.cleared }
  let r' : HeldRecord := { r.takeFacts x with role := .first f' }
  let s1 := mapRecord r.ref (fun _ => r') s
  if past then removeFirst r' .holdExpired r'.index s1
  else if f.awaiting then s1 else catchUp r' f' s1

/-- A rejudge's verdict carried out on its record (R116). -/
def carryVerdict (r : HeldRecord) (f : FirstPart) (v : RejudgeVerdict) (s : State) : State :=
  let s1 := clearPending r s
  match v with
  | .pass x => verdictPass r f x s1
  | .hold x reason limit => verdictHold r f x reason limit s1
  | .refuse reason index => removeCounted r reason index s1

end Sys2Proof.Machine
end

