-- ==== Sys2Proof/Machine/TableStore.lean ====
section
/-! DEFINITION. The Table Store (08_table_store_and_scrubbing.md): the row memory and its check codes, the
Poison Set, the arbiter, the Scrubber and the initialization sweep. -/

namespace Sys2Proof.Machine

/-! ### Row memory (R118, R119) -/

/-- The stored row of a (bank, index). -/
def TableStore.row (t : TableStore) (b : Bank) (i : Index) : StoredRow := (t.rows.get b)[i]

/-- A stored row replaced. -/
def TableStore.setRow (t : TableStore) (b : Bank) (i : Index) (r : StoredRow) : TableStore :=
  { t with rows := t.rows.set b ((t.rows.get b).set i.val r) }

/-- Whether a pair is in the Poison Set (R121). -/
def TableStore.poisoned (t : TableStore) (b : Bank) (i : Index) : Bool := (t.poison.get b)[i]

/-- A pair's membership of the Poison Set set. -/
def TableStore.setPoison (t : TableStore) (b : Bank) (i : Index) (v : Bool) : TableStore :=
  { t with poison := t.poison.set b ((t.poison.get b).set i.val v) }

/-- How many stored bits of a word differ from what the last write left. -/
def wordErrors (r : StoredRow) (w : Fin 6) : Nat := (r.changed.filter fun c => c.1 == w).length

/-- A disturbance of one stored bit; a bit changed twice is as it was. -/
def disturb (r : StoredRow) (w : Fin 6) (bit : Nat) : StoredRow :=
  if (w, bit) ∈ r.changed then { r with changed := r.changed.filter fun c => c != (w, bit) }
  else { r with changed := (w, bit) :: r.changed }

/-- The numbers of changed bits of the six words. -/
def rowErrors (r : StoredRow) : List Nat := (List.finRange 6).map (wordErrors r)

/-- What a read finds of a row one of whose words shows a single-bit error, where the rest of it read as given: a
row that shows an error is never clean, and the corrected contents are used (R119). -/
def RowRead.corrected : RowRead → RowRead
  | .clean e => .correctable e
  | .correctable e => .correctable e
  | .uncorrectable => .uncorrectable

/-- A read of a row (R118, R119), and the free-value counter after it. A word of three or more changed bits reads as
the free value says (log 11): beside a word of one changed bit the row is correctable or uncorrectable by it, beside
one of two it is uncorrectable. -/
def readRow (r : StoredRow) (draws : Nat) : RowRead × Nat :=
  if (rowErrors r).any (· == 2) then (.uncorrectable, draws)
  else if (rowErrors r).any (3 ≤ ·) then
    (if (rowErrors r).any (· == 1) then (Config.manyBitRead draws r).corrected
      else Config.manyBitRead draws r, draws + 1)
  else if (rowErrors r).any (· == 1) then (.correctable r.entry, draws)
  else (.clean r.entry, draws)

/-- A management write of a row: fresh check codes, and the pair leaves the Poison Set (R118, R122). -/
def writeRow (b : Bank) (i : Index) (e : StreamEntry) (s : State) : State :=
  s.setStore ((s.store.setRow b i (freshRow e)).setPoison b i false)

/-- The row write of WRITE_ENTRY, with its parameter record (R138). -/
def writeEntryAccess (active : Bank) (i : Index) (e : StreamEntry) (s : State) : State :=
  setParam (otherBank active) i ⟨e.ceiling, e.refill, e.valid⟩ (writeRow (otherBank active) i e s)

/-- What is done at the grant of an access to the Agent: WRITE_ENTRY writes its row (R138); every other access does
what it does at its conclusion (log 12). -/
def grantedWrite (active : Bank) (s : State) : State :=
  match s.agent.exec with
  | some ⟨_, .writeEntry i e⟩ => writeEntryAccess active i e s
  | _ => s

/-- A pair joins the Poison Set (R121), up to the telling of TABLE_FAULT. -/
def joinPoison (b : Bank) (i : Index) (s : State) : State :=
  reportPoison b i
    (s.setStore { s.store.setPoison b i true with uncorrectable := satAdd s.store.uncorrectable })

/-- A 16-bit count that saturates, raised by a number. -/
def satPlus (x : BitVec 16) (n : Nat) : BitVec 16 := BitVec.ofNat 16 (min (x.toNat + n) 65535)

/-- Rows found correctable by reads other than scrub steps (R120). -/
def countCorrected (n : Nat) (s : State) : State :=
  s.setStore { s.store with corrected := satPlus s.store.corrected n }

/-! ### The lookup (R24 to R26) -/

/-- The rows of a bank read in the order given, to the first stop. -/
def walkRows (t : TableStore) (b : Bank) (k : LookupKey) : List Index → Nat → Nat → Walk
  | [], corrected, draws => ⟨.noMatch, corrected, draws⟩
  | i :: rest, corrected, draws =>
    if t.poisoned b i then ⟨.poisoned i, corrected, draws⟩
    else
      match readRow (t.row b i) draws with
      | (.uncorrectable, d) => ⟨.fault i, corrected, d⟩
      | (.correctable e, d) =>
        if matchesKey e k then ⟨.found i e, corrected + 1, d⟩ else walkRows t b k rest (corrected + 1) d
      | (.clean e, d) =>
        if matchesKey e k then ⟨.found i e, corrected, d⟩ else walkRows t b k rest corrected d

/-- A lookup of a bank: rows in ascending index order from row 0. -/
def lookup (b : Bank) (k : LookupKey) (s : State) : Walk :=
  walkRows s.store b k (List.finRange 256) 0 s.draws

/-- What the reads of a lookup leave in the Table Store and the Policer. -/
def applyWalk (b : Bank) (w : Walk) (s : State) : State :=
  let s1 := countCorrected w.corrected (s.setDraws w.draws)
  match w.stop with
  | .fault i => joinPoison b i s1
  | .found _ _ => s1
  | .poisoned _ => s1
  | .noMatch => s1

/-- Whether a lookup's reads found a row that joins the Poison Set. -/
def Walk.joins (w : Walk) : Bool :=
  match w.stop with
  | .fault _ => true
  | .found _ _ => false
  | .poisoned _ => false
  | .noMatch => false

/-! ### The arbiter (R124 to R127) -/

/-- Whether a Judge has a request pending. -/
def State.judgeWaiting (s : State) (p : Port) : Bool :=
  match (s.judges.get p).phase with
  | .waiting _ => true
  | .idle => false
  | .lookup _ _ => false

/-- The Judge of rank 3 (R125, R127). -/
def waitingJudge (s : State) : Option Port :=
  if s.judgeWaiting .n && s.judgeWaiting .f then some (otherPort s.store.lastJudge)
  else if s.judgeWaiting .n then some .n
  else if s.judgeWaiting .f then some .f
  else none

/-- The party the arbiter grants a free port of a READY store to (R125). -/
def arbiterChoice (s : State) : Option PortUse :=
  if s.store.scrubRequest && decide (s.agent.settings.urgentLevel.toNat ≤ s.store.debt.val) then
    some .scrub
  else if s.store.agentRequest && s.store.waitCount == 4 then some (.agent s.store.active)
  else
    match waitingJudge s with
    | some p => some (.judge p)
    | none =>
      if s.store.agentRequest then some (.agent s.store.active)
      else if s.store.scrubRequest then some .scrub
      else none

/-- The wait count after a grant to another party (R126). -/
def nextWait (t : TableStore) : Fin 5 :=
  if t.agentRequest then (if h : t.waitCount.val < 4 then ⟨t.waitCount.val + 1, by omega⟩ else 4)
  else t.waitCount

/-- A Judge goes from WAITING to LOOKUP on the bank active at the grant (R24). -/
def beginLookup (bank : Bank) (j : Judge) : Judge :=
  match j.phase with
  | .waiting it => { j with phase := .lookup it bank }
  | .idle => j
  | .lookup _ _ => j

/-- A grant (R24, R126, R127, R138). The Scrubber's request is left as it is: it counts as pending until its step
concludes (DESIGN CHOICE, log 35). -/
def grantTo (u : PortUse) (s : State) : State :=
  match u with
  | .judge p =>
    (s.mapJudge p (beginLookup s.store.active)).setStore
      { s.store with port := .judge p, lastJudge := p, waitCount := nextWait s.store }
  | .agent active =>
    grantedWrite active (s.setStore { s.store with port := u, agentRequest := false, waitCount := 0 })
  | .scrub => s.setStore { s.store with port := .scrub, waitCount := nextWait s.store }
  | .free => s
  | .closing => s
  | .sweep => s

/-- The grant made when the port of a READY store is free, if a request is pending (R124, R135). -/
def grant (s : State) : Option State :=
  match s.store.phase, s.store.port with
  | .ready, .free => (arbiterChoice s).map fun u => grantTo u s
  | _, _ => none

/-- The conclusion of an access: the port is released; the grant made at this event is still to come
(log 14). -/
def concludeAccess (s : State) : State := s.setStore { s.store with port := .closing }

/-! ### The Scrubber (R129 to R132) -/

/-- The place of the walk order as a (bank, index) pair. -/
def placePair (n : Fin 512) : Bank × Index :=
  if h : n.val < 256 then (.b0, ⟨n.val, h⟩) else (.b1, ⟨n.val - 256, by omega⟩)

/-- The first place from the pointer on that is not in the Poison Set (R132). -/
def scrubPlace (t : TableStore) : Option (Fin 512) :=
  ((List.finRange 512).map fun k => t.pointer + k).find? fun n =>
    !t.poisoned (placePair n).1 (placePair n).2

/-- The read of a scrub step, with its write-back (R132). -/
def scrubRead (n : Fin 512) (s : State) : State :=
  match readRow (s.store.row (placePair n).1 (placePair n).2) s.draws with
  | (.clean _, d) => s.setDraws d
  | (.correctable e, d) =>
    (s.setDraws d).setStore
      { s.store.setRow (placePair n).1 (placePair n).2 (freshRow e) with
        scrubCorrected := satAdd s.store.scrubCorrected }
  | (.uncorrectable, d) => tell .tableFault (joinPoison (placePair n).1 (placePair n).2 (s.setDraws d))

/-- The request and the debt at the end of a step (R132); the request has been pending up to here (log 35). -/
def scrubSettleDebt (s : State) : State :=
  if h : 0 < s.store.debt.val then
    s.setStore { s.store with debt := ⟨s.store.debt.val - 1, by omega⟩ }
  else s.setStore { s.store with scrubRequest := false }

/-- A scrub step (R132), up to the release of the port. -/
def scrubStepEffect (s : State) : State :=
  match scrubPlace s.store with
  | none => scrubSettleDebt s
  | some n =>
    let s1 := scrubRead n s
    scrubSettleDebt (s1.setStore { s1.store with pointer := n + 1 })

/-- The request and the debt after an interval expiry (R130). During a scrub step the request still counts as pending,
so the debt rises (DESIGN CHOICE, log 35). -/
def TableStore.atExpiry (t : TableStore) : TableStore :=
  if t.scrubRequest then
    if h : t.debt.val < 15 then { t with debt := ⟨t.debt.val + 1, by omega⟩ } else t
  else { t with scrubRequest := true }

/-- The SCRUB_URGENT test after an interval expiry (R131). -/
def urgentTest (s : State) : State :=
  if s.agent.settings.urgentLevel.toNat ≤ s.store.debt.val then tell .scrubUrgent s else s

/-- Whether the present tick is an interval expiry of a READY store (R129). -/
def expiryFalls (s : State) : Bool :=
  s.store.phase == .ready && s.cal.uptime != 0
    && s.cal.uptime.toNat % (s.agent.settings.scrubInterval.toNat * 16) == 0

/-- An interval expiry (R130, R131). -/
def scrubExpiry (s : State) : State := urgentTest (s.setStore s.store.atExpiry)

/-! ### The initialization sweep (R133 to R135) -/

/-- One sweep write of a place: the blank entry, and its parameter record. -/
def sweepRow (n : Fin 512) (s : State) : State :=
  setParam (placePair n).1 (placePair n).2 ⟨0, 0, false⟩
    (s.setStore (s.store.setRow (placePair n).1 (placePair n).2 (freshRow blankEntry)))

/-- The next write of the sweep; the 512th makes the store READY and the port free. -/
def sweepNext (n : Fin 512) (s : State) : State :=
  if h : n.val < 511 then s.setStore { s.store with phase := .initializing ⟨n.val + 1, by omega⟩ }
  else s.setStore { s.store with phase := .ready, port := .free }

end Sys2Proof.Machine
end

