-- ==== Sys2Proof/Machine/Windows.lean ====
section
/-! DEFINITION. The Window Monitor (05_windows.md). -/

namespace Sys2Proof.Machine

/-! ### When a window is open (R73 to R75) -/

/-- The previous weekday; for 0 it is 6. -/
def previousDay (d : Fin 7) : Fin 7 := if d.val = 0 then 6 else ⟨d.val - 1, by omega⟩

/-- Whether a weekday is in a day set. -/
def inDays (days : BitVec 7) (d : Fin 7) : Bool := days.getLsbD d.val

/-- The span test (R73). -/
def spanTest (w : WindowRecord) (m : Fin 1440) (d : Fin 7) : Bool :=
  if w.start.val < w.stop.val then
    inDays w.days d && decide (w.start.val ≤ m.val) && decide (m.val < w.stop.val)
  else if w.stop.val < w.start.val then
    (inDays w.days d && decide (w.start.val ≤ m.val))
      || (inDays w.days (previousDay d) && decide (m.val < w.stop.val))
  else false

/-- Whether the part of a span after midnight holds: the span began on the previous weekday (R73). -/
def afterMidnight (w : WindowRecord) (m : Fin 1440) : Bool :=
  decide (w.stop.val < w.start.val) && decide (m.val < w.stop.val)

/-- Whether a day number lies in a date range, bounds included. -/
def inDates (low high day : DayNum) : Bool := decide (low.toNat ≤ day.toNat) && decide (day.toNat ≤ high.toNat)

/-- The date range test against the day number at the evaluation; in the part after midnight the day before, on
which the span began, lies in the range too, so that part is closed on the range's low day (R74, log 31). -/
def dateTest (w : WindowRecord) (m : Fin 1440) (day : DayNum) : Bool :=
  match w.dates with
  | none => true
  | some (low, high) => inDates low high day && (!afterMidnight w m || inDates low high (day - 1))

/-- Whether a window is open at a reading of the Calendar (R75). -/
def windowOpen (w : WindowRecord) (m : MinuteMark) (q : Quality) : Bool :=
  w.used && spanTest w m.minute m.weekday && dateTest w m.minute m.day && (!w.strict || q == .nominal)

/-- The present day number, weekday and minute of day. -/
def Calendar.mark (c : Calendar) : MinuteMark := ⟨c.day, c.weekday, c.minuteOfDay⟩

/-- The Open Set of 32 records at a reading. -/
def openSetOf (l : Vector WindowRecord 32) (m : MinuteMark) (q : Quality) : WindowSet :=
  BitVec.ofFnLE fun i => windowOpen l[i] m q

/-! ### Full evaluation (R76, R77, R80) -/

/-- Both Open Sets at a reading. -/
def allOpenSets (w : WindowMonitor) (m : MinuteMark) (q : Quality) : PerBank WindowSet :=
  ⟨openSetOf w.records.b0 m q, openSetOf w.records.b1 m q⟩

/-- Both Open Sets replaced, with nothing announced (at the end of a reset, R76). -/
def reevaluate (m : MinuteMark) (s : State) : State :=
  s.setWindows { s.windows with openSets := allOpenSets s.windows m s.cal.quality }

/-- A full evaluation against a reading (R77); openings of the active bank are announced (R80). -/
def fullEvaluation (m : MinuteMark) (s : State) : State :=
  let s1 := reevaluate m s
  let opened := s1.windows.openSets.get s.store.active &&& ~~~(s.windows.openSets.get s.store.active)
  if opened = 0 then s1 else trigger (.window s.store.active opened) s1

/-- A full evaluation against the Calendar as it stands. -/
def evaluateNow (s : State) : State := fullEvaluation s.cal.mark s

/-! ### Writes to the shadow (R79) -/

/-- One member added to or removed from an Open Set. -/
def setMember (set : WindowSet) (i : Fin 32) (member : Bool) : WindowSet :=
  if member then set ||| BitVec.twoPow 32 i.val else set &&& ~~~(BitVec.twoPow 32 i.val)

/-- WRITE_WINDOW at the Window Monitor (R72, R79). -/
def writeShadowWindow (i : Fin 32) (r : WindowRecord) (s : State) : State :=
  let bank := otherBank s.store.active
  s.setWindows
    ⟨s.windows.records.set bank ((s.windows.records.get bank).set i.val r),
      s.windows.openSets.set bank
        (setMember (s.windows.openSets.get bank) i (windowOpen r s.cal.mark s.cal.quality))⟩

/-- All 32 windows of the shadow written at one event, each re-evaluated (R140, R142). -/
def writeShadowWindows (l : Vector WindowRecord 32) (s : State) : State :=
  let bank := otherBank s.store.active
  s.setWindows
    ⟨s.windows.records.set bank l,
      s.windows.openSets.set bank (openSetOf l s.cal.mark s.cal.quality)⟩

/-- The window event at the beginning of COPY_ACTIVE_TO_SHADOW (R140). -/
def copyWindows (s : State) : State := writeShadowWindows (s.windows.records.get s.store.active) s

/-- The window event at the beginning of CLEAR_SHADOW (R142). -/
def clearWindows (s : State) : State := writeShadowWindows (Vector.replicate 32 blankWindow) s

end Sys2Proof.Machine
end

