-- ==== Sys2Proof/Machine/Commit.lean ====
section
/-! DEFINITION. The Commit Controller (09_banks_and_commit.md). -/

namespace Sys2Proof.Machine

/-- The flip of the active-bank selector (R123). -/
def flipActive (s : State) : State := s.setStore { s.store with active := otherBank s.store.active }

/-- The swap (R149): the flip, the count, IDLE, and the commit event at the Policer, the Hold Queue and the
Exception Unit. -/
def swapBanks (s : State) : State :=
  let s1 := (flipActive s).setCommit ⟨.idle, s.commit.count + 1⟩
  tell .commitDone (markPending (fillCredits s1))

/-- Whether a shadow-modifying command is in execution (R147). -/
def State.shadowBusy (s : State) : Bool :=
  match s.agent.exec with
  | some x => x.job.modifiesShadow
  | none => false

/-- The minute boundary at the Commit Controller (R147). -/
def commitBoundary (m : MinuteMark) (s : State) : State :=
  match s.commit.phase with
  | .scheduled i =>
    if i.day = m.day ∧ i.minute = m.minute then
      if s.shadowBusy then s.setCommit { s.commit with phase := .due i } else swapBanks s
    else s
  | .idle => s
  | .due _ => s

/-- The completion of the command in execution at the Commit Controller (R148). -/
def swapIfDue (s : State) : State :=
  match s.commit.phase with
  | .due _ => swapBanks s
  | .idle => s
  | .scheduled _ => s

/-- The instant held, if any. -/
def CommitPhase.instant : CommitPhase → Option Instant
  | .idle => none
  | .scheduled i => some i
  | .due i => some i

/-- Whether an instant is after the current minute (R144). -/
def afterNow (i : Instant) (c : Calendar) : Bool :=
  decide (c.day.toNat < i.day.toNat) || (c.day == i.day && decide (c.minuteOfDay.val < i.minute.val))

end Sys2Proof.Machine
end

