-- ==== Sys2Proof/Machine/Judge.lean ====
section
/-! DEFINITION. The Judges (02_judgement.md) and their bind contexts (03_bound_pairs.md). -/

namespace Sys2Proof.Machine

/-! ### The work of a Judge -/

/-- The phase of a Judge set. -/
def setPhase (p : Port) (x : JudgePhase) (s : State) : State := s.mapJudge p fun j => { j with phase := x }

/-- The bind context of a Judge set. -/
def setBind (p : Port) (x : Option BindContext) (s : State) : State :=
  s.mapJudge p fun j => { j with bind := x }

/-- A telegram leaves the gate refused or dropped (R38): its buffer returns, its record is handed over with
the source, destination and class as received, and the refused count of its index, if there is one,
rises (R39). The return comes before the claim of a Report the record may raise (R12 lets either be first at an
empty free list: log 15). -/
def refuseTelegram (p : Port) (b : BufId) (t : List Byte) (reason : Reason) (index : Option Index)
    (s : State) : State :=
  countRefused index (handOver (recordOf reason p t index) (release b s))

/-! ### The end of a binding (R47, R52) -/

/-- The record made when a binding breaks after its first has passed (R52). -/
def brokenPassed (p : Port) (c : BindContext) : Handed :=
  match c.particulars with
  | some x => ⟨.boundBroken, p, some c.source, some x.dest, some x.cls, x.index⟩
  | none => ⟨.boundBroken, p, some c.source, none, none, none⟩

/-- A binding ends without a second (R52). -/
def endBinding (p : Port) (c : BindContext) (s : State) : State :=
  let s1 := setBind p none s
  match c.outcome with
  | .held ref => dropBroken ref s1
  | .passed _ => handOver (brokenPassed p c) s1
  | .refused => s1
  | .pending => s1

/-- Whether a buffer arrived at or before a deadline. -/
def arrivedBy (s : State) (deadline : Uptime) (b : BufId) : Bool :=
  atOrBefore (s.buffer b).desc.uptime deadline

/-- The telegram in judgement, if it is one. -/
def judgedBuffer (j : JudgePhase) : Option BufId :=
  match j with
  | .waiting (.telegram b _ _) => some b
  | .lookup (.telegram b _ _) _ => some b
  | .waiting (.rejudge _ _) => none
  | .lookup (.rejudge _ _) _ => none
  | .idle => none

/-- Whether a telegram that may still be the second waits (R47). -/
def someWaiting (p : Port) (deadline : Uptime) (s : State) : Bool :=
  (s.judges.get p).arrivals.any (arrivedBy s deadline)
    || match judgedBuffer (s.judges.get p).phase with
       | some b => arrivedBy s deadline b
       | none => false

/-- The deadline of an open context at the tick event (R47). -/
def bindDeadlineAt (p : Port) (s : State) : State :=
  match (s.judges.get p).bind with
  | none => s
  | some c =>
    if !c.reached && atOrBefore c.deadline s.cal.uptime then
      if someWaiting p c.deadline s then setBind p (some { c with reached := true }) s
      else endBinding p c s
    else s

/-- A binding whose deadline has been reached ends once nothing waits any more (R47). -/
def endReached (p : Port) (s : State) : Option State :=
  match (s.judges.get p).bind with
  | none => none
  | some c => if c.reached && !someWaiting p c.deadline s then some (endBinding p c s) else none

/-! ### Check 1 (R21, R22) -/

/-- Whether check 1 lets a telegram addressed to the own address through to the inbox. -/
def commandAdmitted (c : Settings) (p : Port) (cls : BitVec 4) : Bool :=
  cls == 15 && (p == .f || c.nearAllowed)

/-- The disposal of a telegram addressed to the own address (R21, R22). -/
def disposeOwn (p : Port) (b : BufId) (s : State) : State :=
  let t := (s.buffer b).bytes
  if commandAdmitted s.agent.settings p (classOf t) then
    if s.agent.inbox.length < 4 then s.setAgent { s.agent with inbox := s.agent.inbox ++ [b] }
    else refuseTelegram p b t .mgmtOverrun none s
  else refuseTelegram p b t .mgmtRefused none s

/-! ### Check 2: the bind test (R45, R46, R51) -/

/-- The context a BOUND telegram opens (R45); a deadline already reached is taken at the opening. -/
def openContext (b : BufId) (s : State) : BindContext :=
  let deadline := (s.buffer b).desc.uptime + s.agent.settings.bindLimit.setWidth 40
  ⟨sourceOf (s.buffer b).bytes, .pending, none, deadline, atOrBefore deadline s.cal.uptime⟩

/-- The fields the lookup of a received telegram matches on. -/
def keyOf (p : Port) (t : List Byte) : LookupKey := ⟨p, sourceOf t, classOf t⟩

/-- A telegram goes to WAITING with its request placed (R23). -/
def awaitPort (p : Port) (b : BufId) (role : JudgedAs) (s : State) : State :=
  setPhase p (.waiting (.telegram b role (keyOf p (s.buffer b).bytes))) s

/-- A telegram that is no second: it opens a context if it carries BOUND (R46). -/
def bindFirst (p : Port) (b : BufId) (s : State) : State :=
  if boundOf (s.buffer b).bytes then awaitPort p b .first (setBind p (some (openContext b s)) s)
  else awaitPort p b .plain s

/-- A second: the context closes and its first's outcome decides; the outcome, the list or the held record and
the particulars stay with the second's judgement (R46, R48, R49, R51). -/
def bindSecond (p : Port) (b : BufId) (c : BindContext) (s : State) : State :=
  let s1 := setBind p none s
  match c.outcome with
  | .passed list => awaitPort p b (.secondPassed list c.particulars) s1
  | .held ref => awaitPort p b (.secondHeld ref c.particulars) s1
  | .refused => refuseTelegram p b (s.buffer b).bytes .boundBroken none s1
  | .pending => awaitPort p b .plain s1

/-- The bind test (R46). -/
def bindTest (p : Port) (b : BufId) (s : State) : State :=
  match (s.judges.get p).bind with
  | none => bindFirst p b s
  | some c =>
    if sourceOf (s.buffer b).bytes = c.source ∧ arrivedBy s c.deadline b = true then
      bindSecond p b c s
    else bindFirst p b (endBinding p c s)

/-! ### Taking an item (R20) -/

/-- The request of a port ends. -/
def endRequest (p : Port) (s : State) : State :=
  s.setHold { s.hold with outstanding := s.hold.outstanding.set p none }

/-- An IDLE Judge takes the rejudge request in its slot. -/
def takeSlot (p : Port) (s : State) : Option State :=
  match (s.judges.get p).phase, (s.judges.get p).slot with
  | .idle, some ref =>
    let s1 := s.mapJudge p fun j => { j with slot := none }
    match s.heldRecord ref with
    | some r =>
      some (setPhase p (.waiting (.rejudge ref (keyOf p (s.buffer r.buffer).bytes))) s1)
    | none => some (endRequest p s1)
  | _, _ => none

/-- An IDLE Judge takes the oldest telegram of its arrival list. -/
def takeArrival (p : Port) (s : State) : Option State :=
  match (s.judges.get p).phase, (s.judges.get p).arrivals with
  | .idle, b :: rest =>
    let s1 := s.mapJudge p fun j => { j with arrivals := rest }
    if destOf (s.buffer b).bytes = s.ownAddr then some (disposeOwn p b s1)
    else some (bindTest p b s1)
  | _, _ => none

/-! ### The conclusion of a judgement (R28, R34 to R40) -/

/-- The outcome of a first written into its bind context (R40, R45). -/
def writeOutcome (p : Port) (role : JudgedAs) (o : BindOutcome) (x : Particulars) (s : State) : State :=
  match role, (s.judges.get p).bind with
  | .first, some c => setBind p (some { c with outcome := o, particulars := some x }) s
  | _, _ => s

/-- The particulars of a telegram. -/
def particularsOf (d : Described) (index : Option Index) : Particulars := ⟨d.dest, d.cls, index⟩

/-- A refusal of the telegram in judgement. -/
def concludeRefuse (p : Port) (b : BufId) (role : JudgedAs) (d : Described) (reason : Reason)
    (index : Option Index) (s : State) : State :=
  writeOutcome p role .refused (particularsOf d index)
    (refuseTelegram p b (s.buffer b).bytes reason index s)

/-- Check 9: the preparation and the append (R36, R37). -/
def concludePass (p : Port) (b : BufId) (role : JudgedAs) (d : Described) (x : Facts) (list : ListKind)
    (s : State) : State :=
  let t := (s.buffer b).bytes
  let s1 := prepareBuffer b x.outDest x.stamp s
  match txAppend (otherPort p) list b s1 with
  | some s2 =>
    writeOutcome p role (.passed list) (particularsOf d x.index) (countPassed x.index s2)
  | none =>
    writeOutcome p role .refused (particularsOf d x.index) (refuseTelegram p b t .txFull x.index s1)

/-- Whether a role opened a binding. -/
def JudgedAs.isFirst : JudgedAs → Bool
  | .first => true
  | .plain => false
  | .secondPassed _ _ => false
  | .secondHeld _ _ => false

/-- A HOLD: the offer to the Hold Queue (R34, R35, R100 to R102). The HOLD_HIGH test comes before the catch-up test,
whose removal may raise EXCEPTION (R101, R102 and R178 leave the order open: log 15). -/
def concludeHold (p : Port) (b : BufId) (role : JudgedAs) (d : Described) (x : Facts)
    (reason : HoldReason) (limit : Nat) (s : State) : State :=
  if holdFull s then concludeRefuse p b role d .holdFull x.index s
  else
    let r := firstRecord b x reason limit role.isFirst s
    let s1 := writeOutcome p role (.held r.ref) (particularsOf d x.index) (admitRecord r s)
    let s2 := holdHighTest (countHeld x.index s1)
    match r.firstPart with
    | some f => admissionTest r f s2
    | none => s2

/-- The judgement of a telegram that is no second, by its verdict. -/
def concludeOwn (p : Port) (b : BufId) (role : JudgedAs) (d : Described) (v : RejudgeVerdict)
    (s : State) : State :=
  match v with
  | .pass x => concludePass p b role d x x.list (consume x.index x.context s)
  | .hold x reason limit => concludeHold p b role d x reason limit s
  | .refuse reason index => concludeRefuse p b role d reason index s

/-- The second of a first that passed (R48). -/
def concludeAfterPassed (p : Port) (b : BufId) (list : ListKind) (first : Option Particulars)
    (d : Described) (v : RejudgeVerdict) (s : State) : State :=
  match v with
  | .pass x => concludePass p b (.secondPassed list first) d x list s
  | .hold _ _ _ => s
  | .refuse reason index => concludeRefuse p b (.secondPassed list first) d reason index s

/-- The partner offer of a second whose first is held (R49, R50, R100): `own` is the verdict of an ordinary
telegram, taken when the first has gone. With no room, the buffer of the second returns and its HOLD_FULL record is
handed over before those of the first, dropped BOUND_BROKEN (R50 and R170 leave the order open: log 15). -/
def offerPartner (p : Port) (b : BufId) (ref : Nat) (first : Option Particulars) (d : Described) (x : Facts)
    (own : RejudgeVerdict) (s : State) : State :=
  if holdFull s then
    dropBroken ref (concludeRefuse p b (.secondHeld ref first) d .holdFull x.index s)
  else
    match s.heldRecord ref with
    | none => concludeOwn p b .plain d own s
    | some r => admitPartner b x ref r (countHeld x.index s)

/-- The second of a held first (R49, R50). At a refusal the buffer of the second returns and its record is handed over
before those of the first, dropped BOUND_BROKEN (R50 and R170 leave the order open: log 15). -/
def concludeAfterHeld (p : Port) (b : BufId) (ref : Nat) (first : Option Particulars) (d : Described)
    (v own : RejudgeVerdict) (s : State) : State :=
  match v with
  | .pass x => offerPartner p b ref first d x own s
  | .hold _ _ _ => s
  | .refuse reason index =>
    dropBroken ref (concludeRefuse p b (.secondHeld ref first) d reason index s)

/-- Checks 4 to 9 of a received telegram, or the verdict the lookup alone decides (R28). -/
def concludeTelegram (p : Port) (b : BufId) (role : JudgedAs) (bank : Bank) (stop : LookupStop)
    (s : State) : State :=
  let d := describe p (s.buffer b).bytes
  let own := verdictOf s bank stop d
  match role with
  | .plain => concludeOwn p b role d own s
  | .first => concludeOwn p b role d own s
  | .secondPassed list first => concludeAfterPassed p b list first d (secondVerdict s bank stop d) s
  | .secondHeld ref first => concludeAfterHeld p b ref first d (secondVerdict s bank stop d) own s

/-! ### The conclusion of a rejudge (R41, R42, R116, R117) -/

/-- The credit a rejudge's check 8 takes. -/
def rejudgeConsume (v : RejudgeVerdict) (s : State) : State :=
  match v with
  | .pass x => consume x.index x.context s
  | .hold _ _ _ => s
  | .refuse _ _ => s

/-- Whether the outstanding request of a port has been marked stale (R113). -/
def requestStale (p : Port) (s : State) : Bool :=
  match s.hold.outstanding.get p with
  | some q => q.stale
  | none => false

/-- A rejudge's conclusion: nothing when the record has gone, discarded when the request is stale, carried
out otherwise. -/
def concludeRejudge (p : Port) (ref : Nat) (bank : Bank) (stop : LookupStop) (s : State) : State :=
  match s.heldRecord ref with
  | none => endRequest p s
  | some r =>
    match r.firstPart with
    | none => endRequest p s
    | some f =>
      let v := verdictOf s bank stop (describe p (s.buffer r.buffer).bytes)
      let s1 := rejudgeConsume v s
      if requestStale p s1 then endRequest p s1 else carryVerdict r f v (endRequest p s1)

/-! ### The lookup's conclusion (R24) -/

/-- The end of a judgement by its item. -/
def concludeItem (p : Port) (it : Item) (bank : Bank) (stop : LookupStop) (s : State) : State :=
  match it with
  | .telegram b role _ => concludeTelegram p b role bank stop s
  | .rejudge ref _ => concludeRejudge p ref bank stop s

/-- The TABLE_FAULT of a row found uncorrectable is told before or after the rest: where the rest hands over two
records (a pair refused at its rejudge, a second and its held first), never between them (R170, R174, R178: log 15). -/
def tellFault (found : Bool) (s : State) : State := if found then tell .tableFault s else s

/-- A lookup's conclusion: the reads, the port released, the Judge IDLE for its next item, the verdict. -/
def concludeLookup (p : Port) (it : Item) (bank : Bank) (order : RiseOrder) (s : State) : State :=
  let w := lookup bank it.key s
  let s1 := setPhase p .idle (concludeAccess (applyWalk bank w s))
  match order with
  | .flagFirst => concludeItem p it bank w.stop (tellFault w.joins s1)
  | .recordsFirst => tellFault w.joins (concludeItem p it bank w.stop s1)

end Sys2Proof.Machine
end

