-- ==== Sys2Proof/Machine/Access.lean ====
section
/-! DEFINITION. The row accesses of the Management Agent (R119, R138 to R142, R158, R159), as what they do to
the rows, the Poison Set, the parameter records and the error counts. `active` is the bank active at the
grant (R123). -/

namespace Sys2Proof.Machine

/-- A row read by READ_ENTRY, READ_STREAM_STATUS or COPY_ACTIVE_TO_SHADOW: its contents, or none when the
pair is in the Poison Set or joins it (R119, R121, R122). -/
def readRowOf (b : Bank) (i : Index) (s : State) : Option StreamEntry × State :=
  if s.store.poisoned b i then (none, s)
  else
    match readRow (s.store.row b i) s.draws with
    | (.clean e, d) => (some e, s.setDraws d)
    | (.correctable e, d) => (some e, countCorrected 1 (s.setDraws d))
    | (.uncorrectable, d) => (none, tell .tableFault (joinPoison b i (s.setDraws d)))

/-- The bank a role names. -/
def roleBank (active : Bank) (role : Bool) : Bank := if role then active else otherBank active

/-- The shadow row written blank or INVALID, its parameter record's usable mark cleared, ceiling and amount kept
(R86; for CLEAR_SHADOW log 32). -/
def writeUnusable (active : Bank) (i : Index) (e : StreamEntry) (s : State) : State :=
  clearUsable (otherBank active) i (writeRow (otherBank active) i e s)

/-- The access of INVALIDATE_ENTRY (R139), and whether the blank entry was written. -/
def invalidateAccess (active : Bank) (i : Index) (s : State) : Bool × State :=
  if s.store.poisoned (otherBank active) i then (true, writeUnusable active i blankEntry s)
  else
    match readRow (s.store.row (otherBank active) i) s.draws with
    | (.clean e, d) => (false, writeUnusable active i { e with valid := false } (s.setDraws d))
    | (.correctable e, d) =>
      (false, writeUnusable active i { e with valid := false } (countCorrected 1 (s.setDraws d)))
    | (.uncorrectable, d) => (true, writeUnusable active i blankEntry (s.setDraws d))

/-- The access of one row of COPY_ACTIVE_TO_SHADOW (R141), and whether the row was written blank. The parameter record
is copied from the active one in either case, and its usable mark is cleared with the blank entry (R86, log 32). -/
def copyAccess (active : Bank) (i : Index) (s : State) : Bool × State :=
  match readRowOf active i s with
  | (some e, s1) =>
    (false, setParam (otherBank active) i (s1.param active i) (writeRow (otherBank active) i e s1))
  | (none, s1) =>
    (true, setParam (otherBank active) i { s1.param active i with usable := false }
      (writeRow (otherBank active) i blankEntry s1))

/-- The access of one row of CLEAR_SHADOW (R142; ceiling and amount kept: log 32). -/
def clearAccess (active : Bank) (i : Index) (s : State) : State := writeUnusable active i blankEntry s

/-- What a single-row access that a reset abandons has done: `read` says whether its read was made, and so a join
found by it stands; `wrote` whether its write was made, with the read before it (R128, log 13). WRITE_ENTRY has
written at its grant; a PROBE's reads end at its conclusion. -/
def abandonedEffect (read wrote : Bool) (job : Job) (active : Bank) (s : State) : State :=
  match job with
  | .readEntry role i => if read then (readRowOf (roleBank active role) i s).2 else s
  | .readStream i _ _ => if read then (readRowOf active i s).2 else s
  | .probe _ => s
  | .writeEntry _ _ => s
  | .invalidate i => if wrote then (invalidateAccess active i s).2 else s
  | .copy i _ =>
    if wrote then (copyAccess active i s).2 else if read then (readRowOf active i s).2 else s
  | .clear i => if wrote then clearAccess active i s else s

end Sys2Proof.Machine
end

