-- ==== Sys2Proof/Machine/Reset.lean ====
section
/-! DEFINITION. The three resets (R12, R16, R17, R19, R69, R70, R76, R85, R99, R128, R133 to R136, R143,
R163 to R165, R170). -/

namespace Sys2Proof.Machine

/-! ### The access in progress (R118, R128, log 13) -/

/-- The single-row access in progress when a reset takes effect: free values say whether its read and its write were
made (R118, R128, log 13). A lookup in progress leaves no trace; a sweep write is made again by the sweep. -/
def abandonAccess (s : State) : State :=
  let s1 := s.setDraws (s.draws + 2)
  match s.store.port with
  | .agent active =>
    match s.agent.exec with
    | some x =>
      abandonedEffect (Config.accessMade s.draws) (Config.accessMade (s.draws + 1)) x.job active s1
    | none => s
  | .scrub =>
    match scrubPlace s.store with
    | some n => if Config.accessMade s.draws then scrubRead n s1 else s1
    | none => s
  | .free => s
  | .closing => s
  | .judge _ => s
  | .sweep => s

/-! ### What each block takes at a reset -/

/-- The Table Store at the end of a pin or command reset (R133, R136): rows, Poison Set and selector kept; a
sweep in progress starts again. -/
def TableStore.afterReset (t : TableStore) : TableStore :=
  { t with
    phase := match t.phase with
      | .ready => .ready
      | .initializing _ => .initializing 0
    port := match t.phase with
      | .ready => .free
      | .initializing _ => .sweep
    agentRequest := false
    waitCount := 0
    lastJudge := .f
    pointer := 0
    scrubRequest := false
    debt := 0
    corrected := 0
    scrubCorrected := 0
    uncorrectable := 0 }

/-- The credits and counts at the end of a pin or command reset (R85): full ceilings, or 0 while the store is
INITIALIZING. -/
def resetCredits (s : State) : State :=
  match s.store.phase with
  | .ready => fillCredits s
  | .initializing _ =>
    s.setPolicer { s.policer with streams := Vector.replicate 256 ⟨0, 0, 0, 0⟩ }

/-- The own address from the straps (R16). -/
def addressOf (straps : BitVec 8) : Addr := 0xF000#16 + straps.setWidth 16

/-- What all three resets do alike: the straps sampled (R16), buffers, units and Judges (R12, R17, R19), the
Hold Queue (R99), the Refill Timer (section 6.4), the Agent (R151, R163, R165), the Exception Unit (R170, R174,
R176, R177). -/
def resetCommon (cause : ResetCause) (s : State) : State :=
  let s1 := (s.setPool { s.pool with free := freeReset }).setRx ⟨rxReset, rxReset⟩
  let s2 := ((s1.setTx ⟨txReset, txReset⟩).setJudges ⟨judgeReset, judgeReset⟩).setHold
    (holdReset s.hold.nextRef)
  let s3 := ((s2.setAgent (agentReset cause)).setExc excReset).setOwnAddr (addressOf s.straps)
  setTimer .stopped 0 s3

/-- A pin or command reset from its taking effect to its end. -/
def warmReset (cause : ResetCause) (s : State) : State :=
  let s1 := resetCommon cause (abandonAccess s)
  let s2 := (s1.setStore s1.store.afterReset).setCommit { s1.commit with phase := .idle }
  let s3 := resetCredits (s2.setCal s2.cal.afterReset)
  reevaluate s3.cal.mark s3

/-- A pin reset (R17, R70): what the Calendar meets while RST_N is low changes its own state alone. -/
def pinResetTo (straps : BitVec 8) (meanwhile : List CalEvent) (s : State) : State :=
  let s1 := s.setStraps straps
  let s2 := s1.setCal (meanwhile.foldl Calendar.meet s1.cal)
  warmReset .pin s2

/-- The stored rows after a power-on (log 2). -/
def powerOnRows (draw : Nat) : PerBank (Vector StoredRow 256) :=
  ⟨Vector.ofFn (Config.powerOnRow draw .b0), Vector.ofFn (Config.powerOnRow draw .b1)⟩

/-- The parameter records after a power-on (log 2). -/
def powerOnParams (draw : Nat) : PerBank (Vector ParamRecord 256) :=
  ⟨Vector.ofFn (Config.powerOnParam draw .b0), Vector.ofFn (Config.powerOnParam draw .b1)⟩

/-- A power-on reset (R69, R71, R85, R133, R134, R136, R143). -/
def powerOnTo (straps : BitVec 8) (s : State) : State :=
  let s1 := resetCommon .power (s.setStraps straps)
  let s2 := ((s1.setStore (storePowerOn (powerOnRows s.draws))).setPolicer
    (policerPowerOn (powerOnParams s.draws))).setWindows windowsPowerOn
  ((s2.setCal calendarPowerOn).setCommit ⟨.idle, 0⟩).setDraws (s.draws + 1)

end Sys2Proof.Machine
end

