-- ==== Sys2Proof/Machine/Settings.lean ====
section
/-! DEFINITION. The configuration set and the Supervision Timer of the Management Agent
(10_management_telegrams.md, sections 10.5 and 10.7). -/

namespace Sys2Proof.Machine

/-! ### Settings (R161, R162) -/

/-- A value of two bits, none above 3. -/
def twoBits (v : BitVec 16) : Option (BitVec 2) := if v.toNat ≤ 3 then some (v.setWidth 2) else none

/-- A set of the eight flags as a value of two bytes: the low byte carries it, and a high byte that is not 0 is out of
range (section 12.2 does not say which byte carries it: DESIGN CHOICE, log 36). -/
def flagSet (v : BitVec 16) : Option (BitVec 8) := if v.toNat ≤ 255 then some (v.setWidth 8) else none

/-- A choice between two values, 0 and 1. -/
def choice (v : BitVec 16) : Option Bool := if v = 0 then some false else if v = 1 then some true else none

/-- A value within bounds. -/
def within (low high : Nat) (v : BitVec 16) : Option (BitVec 16) :=
  if low ≤ v.toNat ∧ v.toNat ≤ high then some v else none

/-- A refill source. -/
def sourceSetting (v : BitVec 16) : Option RefillSource :=
  if v = 0 then some .tick else if v = 1 then some .sixtyFourth else if v = 2 then some .second else none

/-- A report address: none, or 0x0000..0xFFFE. -/
def reportSetting (present : Bool) (v : BitVec 16) : Option (Option Addr) :=
  if present then (if v = 0xFFFF then none else some (some v)) else some none

/-- The configuration set with one setting replaced, none when the value is outside the setting's range
(section 10.5). -/
def withSetting (code : Nat) (present : Bool) (v : BitVec 16) (c : Settings) : Option Settings :=
  match code with
  | 1 => (choice v).map fun x => { c with defaultPass := x }
  | 2 => (twoBits v).map fun x => { c with floorN := x }
  | 3 => (twoBits v).map fun x => { c with floorF := x }
  | 4 => (twoBits v).map fun x => { c with readFloor := x }
  | 5 => (twoBits v).map fun x => { c with writeFloor := x }
  | 6 => (choice v).map fun x => { c with nearAllowed := !x }
  | 7 => (within 1 1023 v).map fun x => { c with bindLimit := x.setWidth 10 }
  | 8 => (within 1 255 v).map fun x => { c with scrubInterval := x.setWidth 8 }
  | 9 => (within 1 15 v).map fun x => { c with urgentLevel := x.setWidth 4 }
  | 10 => (within 1 65535 v).map fun x => { c with refillPreset := x }
  | 11 => (sourceSetting v).map fun x => { c with refillSource := x }
  | 12 => some { c with supervisionPeriod := v }
  | 13 => (within 1 32 v).map fun x => { c with holdHighMark := x.setWidth 6 }
  | 14 => (reportSetting present v).map fun x => { c with reportAddress := x }
  | 15 => (flagSet v).map fun x => { c with pinEnables := x }
  | 16 => (flagSet v).map fun x => { c with reportEnables := x }
  | _ => none

/-- The value of a setting as results carry it (R180, log 18). -/
def settingBytes (code : Nat) (c : Settings) : List Byte :=
  match code with
  | 1 => [yesNo c.defaultPass]
  | 2 => [c.floorN.setWidth 8]
  | 3 => [c.floorF.setWidth 8]
  | 4 => [c.readFloor.setWidth 8]
  | 5 => [c.writeFloor.setWidth 8]
  | 6 => [yesNo (!c.nearAllowed)]
  | 7 => be16 (c.bindLimit.setWidth 16)
  | 8 => [c.scrubInterval]
  | 9 => [c.urgentLevel.setWidth 8]
  | 10 => be16 c.refillPreset
  | 11 => [c.refillSource.code]
  | 12 => be16 c.supervisionPeriod
  | 13 => [c.holdHighMark.setWidth 8]
  | 14 => yesNo c.reportAddress.isSome :: be16 (c.reportAddress.getD 0)
  | 15 => [c.pinEnables]
  | 16 => [c.reportEnables]
  | _ => []

/-- Whether a setting is one of the guarded ones for a command from a port (R162). -/
def guarded (code : Nat) (p : Port) : Bool :=
  code == 5 || code == 6 || match p with
    | .n => code == 2
    | .f => code == 3

/-- Whether the same command sent again would be refused at check 1 or answered DENIED (R162). -/
def shutsOut (c : Settings) (p : Port) (priv : BitVec 2) : Bool :=
  !commandAdmitted c p 15 || decide (c.writeFloor.toNat < (effectivePriv c p priv).toNat)

/-- Whether a valid value conflicts (R95, R162). -/
def settingConflicts (code : Nat) (new : Settings) (timer : TimerState) (p : Port) (priv : BitVec 2) :
    Bool :=
  ((code == 10 || code == 11) && timer != .stopped) || (guarded code p && shutsOut new p priv)

/-! ### The Supervision Timer (R166 to R168) -/

/-- A reload with a period: COUNTING with the period plus 1, or DISABLED for 0. -/
def reloaded (period : BitVec 16) : Supervision :=
  if period = 0 then ⟨.disabled, 0⟩ else ⟨.counting, ⟨period.toNat + 1, by omega⟩⟩

/-- The Supervision Timer replaced. -/
def setSupervision (x : Supervision) (s : State) : State :=
  s.setAgent { s.agent with supervision := x }

/-- The reload at the beginning of an executed command (R166). -/
def reload (s : State) : State := setSupervision (reloaded s.agent.settings.supervisionPeriod) s

/-- A second boundary at the Timer while it counts above 1 (R167). -/
def countDown (s : State) : State :=
  setSupervision ⟨.counting, s.agent.supervision.remaining - 1⟩ s

/-- The lapse (R167, R111): the flag and the Hold Queue's removals in the order given. Where several records are handed
over, the flag is told before all of them or after all, never between two (R170 and R174 leave that open: log 15). -/
def lapse (order : RiseOrder) (s : State) : State :=
  let s1 := setSupervision ⟨.lapsed, 0⟩ s
  match order with
  | .flagFirst => removeBlocked (tell .supervisionLapsed s1)
  | .recordsFirst => tell .supervisionLapsed (removeBlocked s1)

/-- A second boundary at the Supervision Timer (R167). -/
def supervise (order : RiseOrder) (s : State) : State :=
  match s.agent.supervision.state with
  | .counting => if s.agent.supervision.remaining = 1 then lapse order s else countDown s
  | .disabled => s
  | .lapsed => s

/-- An accepted setting takes effect (R161, R168, R176). -/
def acceptSetting (code : Nat) (new : Settings) (s : State) : State :=
  let s1 := s.setAgent { s.agent with settings := new }
  if code = 12 then reload s1
  else if code = 15 then driveAlert s1
  else s1

end Sys2Proof.Machine
end

