-- ==== Sys2Proof/Machine/Agent.lean ====
section
/-! DEFINITION. The Management Agent (10_management_telegrams.md): taking a command, carrying it out, and
the response. -/

namespace Sys2Proof.Machine

/-! ### Responses (R156, R157) -/

/-- The bytes of a response, up to its check word. -/
def responseBytes (command : List Byte) (own : Addr) (status : Status) (results : List Byte) : List Byte :=
  composed (sourceOf command) own (seqOf command)
    (responseCode (payloadOf command) :: status.code :: results)

/-- The record of a response that could not be queued (R157). -/
def lostResponse (p : Port) (own dest : Addr) : Handed := ⟨.txFull, p, some own, some dest, some 15, none⟩

/-- The response written over the command in its buffer, its length in the descriptor. -/
def writeResponse (b : BufId) (status : Status) (results : List Byte) (s : State) : State :=
  let bytes := responseBytes (s.buffer b).bytes s.ownAddr status results
  s.setBuffer b ⟨bytes, { (s.buffer b).desc with length := bytes.length + 2 }⟩

/-- The response offered to the normal list of the arrival port. -/
def offerResponse (b : BufId) (dest : Addr) (s : State) : State :=
  match txAppend (s.buffer b).desc.port .normal b s with
  | some s1 => s1
  | none => handOver (lostResponse (s.buffer b).desc.port s.ownAddr dest) (release b s)

/-- The response of a command: written and offered. -/
def respond (b : BufId) (status : Status) (results : List Byte) (s : State) : State :=
  offerResponse b (sourceOf (s.buffer b).bytes) (writeResponse b status results s)

/-- No command is in execution. -/
def endExecution (s : State) : State := s.setAgent { s.agent with exec := none }

/-- The completion of a command: its response, then a DUE swap (R148, R152, R156). At an access's conclusion the swap
comes before the grant made at it (log 14). -/
def complete (b : BufId) (status : Status) (results : List Byte) (s : State) : State :=
  swapIfDue (respond b status results (endExecution s))

/-! ### Results (R180, log 18) -/

/-- An instant that may be absent: a presence byte, day number and minute of day. -/
def instantResult (i : Option Instant) : List Byte :=
  match i with
  | some i => yesNo true :: be16 i.day ++ halfOf i.minute.val
  | none => [0, 0, 0, 0, 0]

/-- The size of the Poison Set (R121). -/
def poisonSize (t : TableStore) : Nat := t.poison.b0.toList.count true + t.poison.b1.toList.count true

/-- The six counters of a port (R15). -/
def portCounters (p : Port) (s : State) : List Byte :=
  be32 (s.rx.get p).good ++ be32 (s.rx.get p).corrupt ++ be32 (s.rx.get p).truncated
    ++ be32 (s.rx.get p).malformed ++ be32 (s.rx.get p).noBuffer ++ be32 (s.tx.get p).transmitted

/-- The time of week, the quality with source and store state, and the uptime: bytes 0 to 13. Bits 7..4 of byte 8,
to which section 12.2 gives no meaning, are 0 (DESIGN CHOICE, log 34). -/
def statusClock (s : State) : List Byte :=
  be16 s.cal.day ++ [byteOf s.cal.weekday.val, byteOf s.cal.hour.val, byteOf s.cal.minute.val,
    byteOf s.cal.second.val] ++ halfOf s.cal.sub.val
  ++ [s.cal.quality.code ||| bitIn (s.cal.source == .fallback) 2 ||| bitIn (s.store.phase == .ready) 3]
  ++ be40 s.cal.uptime

/-- The commit state code. -/
def CommitPhase.code : CommitPhase → Byte
  | .idle => 0
  | .scheduled _ => 1
  | .due _ => 2

/-- An instant, carried as 0 when absent. -/
def instantOrZero (i : Option Instant) : List Byte :=
  match i with
  | some i => be16 i.day ++ halfOf i.minute.val
  | none => [0, 0, 0, 0]

/-- Bytes 14 to 37: banks, supervision, the Table Store's counts, the pool and the Hold Queue. Bits 7..3 of byte 14,
to which section 12.2 gives no meaning, are 0 (DESIGN CHOICE, log 34). -/
def statusBanks (s : State) : List Byte :=
  [bankCode s.store.active ||| (s.commit.phase.code <<< 1)] ++ instantOrZero s.commit.phase.instant
  ++ be16 s.commit.count
  ++ [s.agent.supervision.state.code] ++ be16 s.agent.settings.supervisionPeriod
  ++ be24 (BitVec.ofNat 24 s.agent.supervision.remaining.val)
  ++ halfOf (poisonSize s.store) ++ [byteOf s.store.debt.val] ++ be16 s.store.corrected
  ++ be16 s.store.scrubCorrected ++ be16 s.store.uncorrectable
  ++ [byteOf s.pool.free.length, byteOf s.hold.records.length]

/-- Bytes 38 to 95: the Refill Timer, the Exception Unit, the port counters, the last reset cause. -/
def statusCounters (s : State) : List Byte :=
  [s.policer.timer.code] ++ be16 s.agent.settings.refillPreset ++ [s.agent.settings.refillSource.code]
  ++ be16 s.policer.count
  ++ [byteOf s.exc.queue.length, s.exc.lost, s.exc.flags]
  ++ portCounters .n s ++ portCounters .f s ++ [s.agent.lastReset.code]

/-- The status reading (R158). -/
def statusResult (s : State) : List Byte := statusClock s ++ statusBanks s ++ statusCounters s

/-- READ_WINDOW's results: record, membership, bank number (R82). -/
def windowResult (bank : Bank) (w : Fin 32) (s : State) : List Byte :=
  encodeWindow (s.windows.records.get bank)[w]
    ++ [yesNo ((s.windows.openSets.get bank).getLsbD w.val), bankCode bank]

/-- KEEPALIVE's results (R160). -/
def keepaliveResult (lapsedBefore : Bool) (s : State) : List Byte :=
  [yesNo lapsedBefore] ++ be16 s.agent.settings.supervisionPeriod ++ [s.agent.supervision.state.code]
    ++ be24 (BitVec.ofNat 24 s.agent.supervision.remaining.val) ++ be40 s.cal.uptime

/-- The Refill Timer's state and count (R90). -/
def timerResult (s : State) : List Byte := s.policer.timer.code :: be16 s.policer.count

/-- DRAIN_EXCEPTIONS' results, from the state before the drain (R160, R173). -/
def drainResult (maximum : Nat) (s : State) : List Byte :=
  [byteOf (s.exc.queue.take maximum).length] ++ (s.exc.queue.take maximum).flatMap encodeRecord
    ++ [byteOf (s.exc.queue.drop maximum).length, s.exc.lost]

/-- The condition of a row: VALID 0, INVALID 1, POISONED 2. -/
def rowCondition (e : Option StreamEntry) : Byte :=
  match e with
  | some e => if e.valid then 0 else 1
  | none => 2

/-- One result of READ_STREAM_STATUS (R159). -/
def streamResult (bank : Bank) (i : Index) (e : Option StreamEntry) (r : StreamStatus) : List Byte :=
  [byteOf i.val, bankCode bank, rowCondition e, ((e.map (·.ceiling)).getD 0), r.credit]
    ++ be32 r.passed ++ be32 r.refused ++ be32 r.held

/-! ### PROBE (R43, R44) -/

/-- The verdict a PROBE reports: HOLD_FULL for a hold with the queue full, TX_FULL for a pass with the list
full. -/
def probeVerdict (d : Described) (v : RejudgeVerdict) (s : State) : RejudgeVerdict :=
  match v with
  | .pass x => if listRoom (s.tx.get (otherPort d.port)) x.list then v else .refuse .txFull x.index
  | .hold x _ _ => if holdFull s then .refuse .holdFull x.index else v
  | .refuse _ _ => v

/-- The index a lookup matched, if it matched. -/
def LookupStop.index : LookupStop → Option Index
  | .found i _ => some i
  | .poisoned _ => none
  | .fault _ => none
  | .noMatch => none

/-- Whether a pass would fill the described STAMP slot (log 18). -/
def wouldFill (d : Described) (stop : LookupStop) : Bool :=
  match stop with
  | .found _ e => d.unfilledStamp && e.stamp == .fill
  | .poisoned _ => false
  | .fault _ => false
  | .noMatch => false

/-- The ten bytes of PROBE's results (R44). The default-applied bit is set whenever no row matched, also where a
default PASS is reported REFUSE TX_FULL: the lookup came to the default verdict (log 33). -/
def probeBytes (bank : Bank) (d : Described) (stop : LookupStop) (v : RejudgeVerdict) : List Byte :=
  let common := bitIn stop.index.isSome 1 ||| bitIn (stop == .noMatch) 5 ||| bitIn (wouldFill d stop) 6
  let index := byteOf ((stop.index.map Fin.val).getD 0)
  match v with
  | .pass x => [bankCode bank, 0, common ||| 0b00001100, 0, index, x.list.code] ++ be16 x.outDest ++ [0, 0]
  | .hold x r limit =>
    [bankCode bank, 1, common ||| 0b00011101, r.code, index, x.list.code] ++ be16 x.outDest ++ halfOf limit
  | .refuse r _ => [bankCode bank, 2, common ||| 0b00000001, r.code, index, 0, 0, 0, 0, 0]

/-! ### Carrying out a command (R155) -/

/-- A command that makes table accesses begins: its first request is placed (R124). -/
def beginJob (b : BufId) (job : Job) (s : State) : State :=
  (s.setAgent { s.agent with exec := some ⟨b, job⟩ }).setStore { s.store with agentRequest := true }

/-- SET_CONFIG (R95, R161, R162, R168). -/
def carrySetConfig (b : BufId) (code : Nat) (present : Bool) (v : BitVec 16) (s : State) : State :=
  let t := (s.buffer b).bytes
  let p := (s.buffer b).desc.port
  match withSetting code present v s.agent.settings with
  | none => complete b .badArgument [] s
  | some new =>
    if settingConflicts code new s.policer.timer p (privOf t) then complete b .conflict [] s
    else
      complete b .done ([byteOf code] ++ settingBytes code s.agent.settings ++ settingBytes code new)
        (acceptSetting code new s)

/-- COMMIT_NOW (R146). The swap, with the rise of COMMIT_DONE and its Report, comes before the response is offered to
its list and before the record of a lost response (R13 and R178 leave the order open: log 15). -/
def carryCommitNow (b : BufId) (s : State) : State :=
  let s1 := swapBanks s
  complete b .done ([bankCode s1.store.active] ++ be16 s1.commit.count
    ++ instantResult s.commit.phase.instant) s1

/-- SCHEDULE_COMMIT (R144). -/
def carrySchedule (b : BufId) (i : Instant) (s : State) : State :=
  if afterNow i s.cal then
    complete b .done (be16 i.day ++ halfOf i.minute.val ++ instantResult s.commit.phase.instant)
      (s.setCommit { s.commit with phase := .scheduled i })
  else complete b .badArgument [] s

/-- CANCEL_COMMIT (R145). -/
def carryCancel (b : BufId) (s : State) : State :=
  complete b .done (instantResult s.commit.phase.instant) (s.setCommit { s.commit with phase := .idle })

/-- SET_TIME (R66): the time, the quality, and the evaluation of the SET_TIME event; a quality change finds
nothing new after it (R78). -/
def carrySetTime (b : BufId) (day : DayNum) (weekday : Fin 7) (hour : Fin 24) (minute second : Fin 60)
    (s : State) : State :=
  let s1 := evaluateNow (s.setCal (s.cal.set day weekday hour minute second))
  complete b .done (s1.cal.quality.code :: be40 s1.cal.uptime) s1

/-- DRAIN_EXCEPTIONS (R160, R173). -/
def carryDrain (b : BufId) (maximum : Nat) (s : State) : State :=
  complete b .done (drainResult maximum s) (drainRecords maximum s)

/-- CLEAR_ALERTS (R160, R175). -/
def carryClearAlerts (b : BufId) (flags : BitVec 8) (s : State) : State :=
  let s1 := clearFlags flags s
  complete b .done [s1.exc.flags] s1

/-- FLUSH_HOLD (R112). The removals, with their records and the Reports these raise, come before the response is
offered to its list (R13 leaves the order open: log 15). -/
def carryFlush (b : BufId) (scope : Option Index) (s : State) : State :=
  let s1 := flushHeld scope s
  complete b .done [byteOf (s.hold.records.length - s1.hold.records.length)] s1

/-- REFILL_CONTROL (R90 to R92). -/
def carryRefillControl (b : BufId) (a : RefillAction) (s : State) : State :=
  let s1 := timerAct a s
  complete b .done (timerResult s1) s1

/-- A command whose arguments pass is carried out. -/
def carryOut (b : BufId) (lapsedBefore : Bool) (c : Cmd) (s : State) : State :=
  match c with
  | .readStatus => complete b .done (statusResult s) s
  | .readEntry role i => beginJob b (.readEntry role i) s
  | .readWindow role w => complete b .done (windowResult (roleBank s.store.active role) w s) s
  | .readStream i rest => beginJob b (.readStream i rest []) s
  | .probe d => beginJob b (.probe d) s
  | .keepalive => complete b .done (keepaliveResult lapsedBefore s) s
  | .writeEntry i e => beginJob b (.writeEntry i e) s
  | .invalidate i => beginJob b (.invalidate i) s
  | .writeWindow w r => complete b .done [] (writeShadowWindow w r s)
  | .copy => beginJob b (.copy 0 0) (copyWindows s)
  | .clear => beginJob b (.clear 0) (clearWindows s)
  | .commitNow => carryCommitNow b s
  | .schedule i => carrySchedule b i s
  | .cancel => carryCancel b s
  | .setTime day weekday hour minute second => carrySetTime b day weekday hour minute second s
  | .setConfig code present v => carrySetConfig b code present v s
  | .refillControl a => carryRefillControl b a s
  | .clearCounters low high =>
    complete b .done (halfOf (high.val - low.val + 1)) (clearCounts low high s)
  | .drain maximum => carryDrain b maximum s
  | .clearAlerts flags => carryClearAlerts b flags s
  | .flush scope => carryFlush b scope s
  | .reset => warmReset .command s

/-! ### Taking a command (R152 to R155) -/

/-- Whether a command passes the privilege test (R153). -/
def privileged (p : Port) (t : List Byte) (c : Settings) : Bool :=
  let floor := if isWrite (payloadOf t) then c.writeFloor else c.readFloor
  decide ((effectivePriv c p (privOf t)).toNat ≤ floor.toNat)

/-- A command that fails the privilege test (R154): answered DENIED, then its record (log 25). -/
def deny (b : BufId) (s : State) : State :=
  handOver (recordOf .mgmtRefused (s.buffer b).desc.port (s.buffer b).bytes none)
    (complete b .denied [] s)

/-- A command that passes it is executed: the reload, then the test of its form and arguments. -/
def executeCommand (b : BufId) (s : State) : State :=
  let s1 := reload s
  match decodeCommand (payloadOf (s.buffer b).bytes) with
  | .unknown => complete b .unknownCommand [] s1
  | .bad => complete b .badArgument [] s1
  | .command c => carryOut b s.lapsed c s1

/-- The beginning of a command (R152, R153). -/
def startCommand (b : BufId) (s : State) : State :=
  if privileged (s.buffer b).desc.port (s.buffer b).bytes s.agent.settings then executeCommand b s
  else deny b s

/-- The Agent begins its oldest command when it is IDLE, the inbox is not empty and the store is READY
(R152). -/
def beginCommand (s : State) : Option State :=
  match s.agent.exec, s.agent.inbox, s.store.phase with
  | none, b :: rest, .ready => some (startCommand b (s.setAgent { s.agent with inbox := rest }))
  | _, _, _ => none

/-! ### The conclusion of a management access (R124, R138 to R142, R158, R159) -/

/-- The next access of the command: its request is placed at the conclusion of the access before. -/
def nextAccess (b : BufId) (job : Job) (s : State) : State := beginJob b job s

/-- The next row, after the last none. -/
def nextRow (i : Index) : Option Index := if h : i.val < 255 then some ⟨i.val + 1, by omega⟩ else none

/-- READ_ENTRY's access (R158). -/
def concludeReadEntry (b : BufId) (bank : Bank) (i : Index) (s : State) : State :=
  match readRowOf bank i s with
  | (some e, s1) => complete b .done (bankCode bank :: encodeEntry e) s1
  | (none, s1) => complete b .poisoned [bankCode bank] s1

/-- One access of READ_STREAM_STATUS (R159). -/
def concludeReadStream (b : BufId) (bank : Bank) (i : Index) (rest : List Index) (results : List Byte)
    (s : State) : State :=
  let (e, s1) := readRowOf bank i s
  let all := results ++ streamResult bank i e (s1.stream i)
  match rest with
  | [] => complete b .done all s1
  | j :: more => nextAccess b (.readStream j more all) s1

/-- PROBE's access (R43, R44). -/
def concludeProbe (b : BufId) (bank : Bank) (d : Described) (s : State) : State :=
  let w := lookup bank d.key s
  let s1 := tellFault w.joins (applyWalk bank w s)
  complete b .done (probeBytes bank d w.stop (probeVerdict d (verdictOf s1 bank w.stop d) s1)) s1

/-- INVALIDATE_ENTRY's access (R139). -/
def concludeInvalidate (b : BufId) (active : Bank) (i : Index) (s : State) : State :=
  let (blank, s1) := invalidateAccess active i s
  complete b .done [byteOf i.val, bankCode (otherBank active), yesNo blank] s1

/-- One row of COPY_ACTIVE_TO_SHADOW (R140, R141). -/
def concludeCopy (b : BufId) (active : Bank) (i : Index) (blanks : Nat) (s : State) : State :=
  let (blank, s1) := copyAccess active i s
  let n := if blank then blanks + 1 else blanks
  match nextRow i with
  | some j => nextAccess b (.copy j n) s1
  | none => complete b .done (halfOf n ++ [bankCode (otherBank active)]) s1

/-- One row of CLEAR_SHADOW (R142). -/
def concludeClear (b : BufId) (active : Bank) (i : Index) (s : State) : State :=
  let s1 := clearAccess active i s
  match nextRow i with
  | some j => nextAccess b (.clear j) s1
  | none => complete b .done [bankCode (otherBank active)] s1

/-- The conclusion of an access of the command in execution; WRITE_ENTRY has written at its grant (R138). -/
def concludeJob (b : BufId) (job : Job) (active : Bank) (s : State) : State :=
  match job with
  | .readEntry role i => concludeReadEntry b (roleBank active role) i s
  | .readStream i rest results => concludeReadStream b active i rest results s
  | .probe d => concludeProbe b active d s
  | .writeEntry i _ => complete b .done [byteOf i.val, bankCode (otherBank active)] s
  | .invalidate i => concludeInvalidate b active i s
  | .copy i blanks => concludeCopy b active i blanks s
  | .clear i => concludeClear b active i s

end Sys2Proof.Machine
end

