-- ==== Sys2Proof/Machine/Settle.lean ====
section
/-! DEFINITION. What follows an event at once, in the same step (log 14): grants of the table port, endings of
reached bindings, rejudge requests, the Judges' next items, the Agent's next command. -/

namespace Sys2Proof.Machine

/-- The release of a port whose access has concluded, once the requests of the same event are in place
(R124). -/
def openPort (s : State) : Option State :=
  match s.store.port with
  | .closing => some (s.setStore { s.store with port := .free })
  | .free => none
  | .judge _ => none
  | .agent _ => none
  | .scrub => none
  | .sweep => none

/-- The next consequence, in the fixed order of log 14; none when nothing follows. The release of the port comes last,
so a swap made at a completion in DUE comes before the grant made at the same conclusion (log 14). -/
def consequence (s : State) : Option State :=
  grant s <|> endReached .n s <|> endReached .f s <|> placeRequest .n s <|> placeRequest .f s
    <|> takeSlot .n s <|> takeSlot .f s <|> beginCommand s <|> takeArrival .n s <|> takeArrival .f s
    <|> openPort s

/-- All consequences, one after another, up to a bound. -/
def settleFor : Nat → State → State
  | 0, s => s
  | n + 1, s =>
    match consequence s with
    | some s1 => settleFor n s1
    | none => s

/-- All that follows an event at once. -/
def settle (s : State) : State := settleFor Config.settleBound s

end Sys2Proof.Machine
end

