-- ==== Sys2Proof/Machine/Line.lean ====
section
/-! DEFINITION. The Receive Units (01_trunk_telegrams_and_ports.md, sections 1.3 to 1.5): what a byte and a
silence of a line do in each state (R5). -/

namespace Sys2Proof.Machine

/-! ### Framing (R3, R6) -/

/-- The place of a unit right after the start marker. -/
def framingStart : Framing := ⟨1, 0, 0, 0⟩

/-- One more byte of a telegram: byte 6 gives the option count, byte 8 the payload length, the length byte of
each option its length. -/
def Framing.next (f : Framing) (b : Byte) : Framing :=
  let f1 := { f with received := f.received + 1 }
  if f.received = 6 then { f1 with optionsLeft := (b.extractLsb' 0 3).toNat }
  else if f.received = 8 then { f1 with expected := 11 + b.toNat, nextLength := 10 }
  else if 8 < f.received ∧ 0 < f.optionsLeft ∧ f.received = f.nextLength then
    { f1 with
      expected := f.expected + 2 + b.toNat
      optionsLeft := f.optionsLeft - 1
      nextLength := f.received + b.toNat + 2 }
  else f1

/-- Whether the framed length is complete: the last option's length byte has arrived. -/
def Framing.complete (f : Framing) : Bool := decide (9 ≤ f.received) && f.optionsLeft == 0

/-- Whether the last byte by the framed length has arrived. -/
def Framing.ended (f : Framing) : Bool := f.complete && f.received == f.expected

/-- Whether the byte just received is one of the two of the check word. -/
def Framing.inCheckWord (f : Framing) : Bool := f.complete && decide (f.expected < f.received + 2)

/-! ### The start marker (R6) -/

/-- A reception starts: a buffer is claimed, or the reception is void. -/
def startReception (p : Port) (s : State) : State :=
  match claim s with
  | some (b, s1) =>
    (s1.setBuffer b { s1.buffer b with bytes := [0xD3#8] }).mapRx p fun u =>
      { u with phase := .filling b, sum := crcByte 0xFFFF#16 0xD3#8, tail := 0,
               framing := framingStart }
  | none =>
    s.mapRx p fun u => { u with phase := .void, header := [0xD3#8], framing := framingStart }

/-! ### The end of a reception (R7, R8, R10, R11) -/

/-- The buffer of an ended reception returns; the unit is in the state given. The record is handed over after it, so
a Report it raises finds the buffer on an empty free list (R12 lets either be first: log 15). -/
def dropReception (p : Port) (b : BufId) (x : RxPhase) (count : RxUnit → RxUnit) (s : State) : State :=
  release b (s.mapRx p fun u => { count u with phase := x })

/-- A truncation (R7); the buffer returns before the record is handed over (log 15). -/
def truncate (p : Port) (b : BufId) (s : State) : State :=
  handOver ⟨.truncated, p, none, none, none, none⟩
    (dropReception p b .ready (fun u => { u with truncated := u.truncated + 1 }) s)

/-- A CORRUPT end (R8). -/
def endCorrupt (p : Port) (b : BufId) (s : State) : State :=
  handOver ⟨.corrupt, p, none, none, none, none⟩
    (dropReception p b .settling (fun u => { u with corrupt := u.corrupt + 1 }) s)

/-- A MALFORMED end (R8). -/
def endMalformed (p : Port) (b : BufId) (s : State) : State :=
  handOver (recordOf .malformed p (s.buffer b).bytes none)
    (dropReception p b .settling (fun u => { u with malformed := u.malformed + 1 }) s)

/-- The descriptor of a good reception (R11). -/
def arrivalDescriptor (p : Port) (length : Nat) (s : State) : Descriptor :=
  ⟨p, length, s.cal.stamp, s.cal.quality, s.cal.uptime⟩

/-- A good reception completes (R11): the descriptor, the append to the arrival list, the count. -/
def arrive (p : Port) (b : BufId) (length : Nat) (s : State) : State :=
  let s1 := s.setBuffer b { s.buffer b with desc := arrivalDescriptor p length s }
  let s2 := s1.mapRx p fun u => { u with phase := .settling, good := u.good + 1 }
  s2.mapJudge p fun j => { j with arrivals := j.arrivals ++ [b] }

/-- The end of a reception by its framed length (R8). -/
def endReception (p : Port) (b : BufId) (s : State) : State :=
  let u := s.rx.get p
  if u.sum ≠ u.tail then endCorrupt p b s
  else if formError (s.buffer b).bytes u.framing.expected then endMalformed p b s
  else settle (arrive p b u.framing.expected s)

/-- The record of a void reception: each field only if its bytes had arrived (R10). -/
def voidRecord (p : Port) (h : List Byte) : Handed where
  reason := .noBuffer
  port := p
  source := if 5 ≤ h.length then some (sourceOf h) else none
  dest := if 3 ≤ h.length then some (destOf h) else none
  cls := if 6 ≤ h.length then some (classOf h) else none
  index := none

/-- The end of a void reception (R10). -/
def endVoid (p : Port) (x : RxPhase) (s : State) : State :=
  handOver (voidRecord p (s.rx.get p).header)
    (s.mapRx p fun u => { u with phase := x, noBuffer := u.noBuffer + 1 })

/-! ### The three events of a line (R5) -/

/-- A byte taken into the unit: its framing, its sum (but for the check word), the last two bytes. -/
def RxUnit.take (u : RxUnit) (b : Byte) : RxUnit :=
  let f := u.framing.next b
  { u with
    framing := f
    sum := if f.inCheckWord then u.sum else crcByte u.sum b
    tail := (u.tail <<< 8) ||| b.setWidth 16 }

/-- A byte stored in the buffer, up to the 256th. -/
def storeByte (x : Buffer) (b : Byte) : Buffer :=
  if x.bytes.length < 256 then { x with bytes := x.bytes ++ [b] } else x

/-- A byte in FILLING (R5, R6, R8). -/
def fillByte (p : Port) (buf : BufId) (b : Byte) (s : State) : State :=
  let s1 := (s.setBuffer buf (storeByte (s.buffer buf) b)).mapRx p fun u => u.take b
  if (s1.rx.get p).framing.ended then endReception p buf s1 else s1

/-- A byte kept in the header store, if it is one of the first 9. -/
def RxUnit.keep (u : RxUnit) (b : Byte) : RxUnit :=
  { u with
    framing := u.framing.next b
    header := if u.header.length < 9 then u.header ++ [b] else u.header }

/-- A byte in VOID (R5, R10). -/
def voidByte (p : Port) (b : Byte) (s : State) : State :=
  let s1 := s.mapRx p fun u => u.keep b
  if (s1.rx.get p).framing.ended then endVoid p .settling s1 else s1

/-- A byte arrives on a line (R5). -/
def lineByte (p : Port) (b : Byte) (s : State) : State :=
  match (s.rx.get p).phase with
  | .settling => s
  | .ready =>
    if b = 0xD3 then startReception p s else s.mapRx p fun u => { u with phase := .settling }
  | .filling buf => fillByte p buf b s
  | .void => voidByte p b s

/-- The silence of a line reaches 3 byte times (R5). -/
def lineSettled (p : Port) (s : State) : State :=
  match (s.rx.get p).phase with
  | .settling => s.mapRx p fun u => { u with phase := .ready }
  | .ready => s
  | .filling _ => s
  | .void => s

/-- The silence of a line exceeds 4 byte times (R5, R7, R10). -/
def lineSilent (p : Port) (s : State) : State :=
  match (s.rx.get p).phase with
  | .settling => s
  | .ready => s
  | .filling b => truncate p b s
  | .void => endVoid p .ready s

/-! ### A command telegram on the line (log 7) -/

/-- The bytes of a run, one after another with no long silence between them. -/
def lineBytes (p : Port) (l : List Byte) (s : State) : State := l.foldl (fun s b => lineByte p b s) s

/-- The telegram of a command (section 1.2): class 15, addressed to the own address, no BOUND flag and no
options, its check word after the payload. -/
def commandTelegram (h : CmdHead) (own : Addr) (payload : List Byte) : List Byte :=
  let body := 0xD3#8 :: be16 own ++ be16 h.source
    ++ [0xF0#8 ||| (h.priv.setWidth 8 <<< 2), 0, h.seq, BitVec.ofNat 8 payload.length] ++ payload
  body ++ be16 (crc body)

/-- A record of a given number of bytes, high byte first. -/
def bytesOf {w : Nat} (n : Nat) (x : BitVec w) : List Byte :=
  (List.range n).map fun i => x.extractLsb' (8 * (n - 1 - i)) 8

/-- The payload of PROBE. -/
def probePayload (port : Byte) (source dest : Addr) (cls priv options : Byte) (holdLimit : BitVec 16) :
    List Byte :=
  [0x05, port] ++ be16 source ++ be16 dest ++ [cls, priv, options] ++ be16 holdLimit

/-- The payload of SET_CONFIG for a setting code. -/
def settingPayload (code presence : Byte) (value : BitVec 16) : List Byte :=
  [0x10, code, presence] ++ be16 value

/-- A station sends a command telegram to the gate, after a silence of 3 byte times. -/
def sendCommand (h : CmdHead) (payload : List Byte) (s : State) : State :=
  lineBytes h.port (commandTelegram h s.ownAddr payload) (lineSettled h.port s)

end Sys2Proof.Machine
end

