-- ==== Sys2Proof/Machine/Events.lean ====
section
/-! DEFINITION. The clock events at the blocks that take them (R57, R58), and what REFIN does (R59 to R63). -/

namespace Sys2Proof.Machine

/-! ### What a block takes from a tick -/

/-- The tick event at the Hold Queue (R109). -/
def takeHoldTick (s : State) : State := settle (expire s)

/-- The tick event at a Judge (R47). -/
def takeBindTick (p : Port) (s : State) : State := settle (bindDeadlineAt p s)

/-- The refill of a pulse at count 1 (R93, R94). -/
def refillNow (s : State) : State :=
  trigger .refill (refillCredits (setTimer .running s.agent.settings.refillPreset s))

/-- A pulse in RUNNING (R93). -/
def runningPulse (s : State) : State :=
  if s.policer.count = 0 then setTimer .running s.agent.settings.refillPreset s
  else if s.policer.count = 1 then refillNow s
  else setTimer .running (s.policer.count - 1) s

/-- The tick event at the Refill Timer (R89, R93), once for each tick. -/
def takeRefillTick (s : State) : State :=
  if s.cal.refillTick then
    let s1 := s.setCal { s.cal with refillTick := false }
    if pulseFalls s && s.policer.timer == .running then runningPulse s1 else s1
  else s

/-- Whether the tick still to be taken by the Refill Timer makes a refill (R93). -/
def refillDue (s : State) : Bool :=
  s.cal.refillTick && pulseFalls s && s.policer.timer == .running && s.policer.count == 1

/-- The tick event at the Scrubber (R129), once for each tick. -/
def takeScrubTick (s : State) : State :=
  if s.cal.scrubTick then
    let s1 := s.setCal { s.cal with scrubTick := false }
    if expiryFalls s then settle (scrubExpiry s1) else s1
  else s

/-- The second boundary at the Supervision Timer (R167), once for each boundary. -/
def takeSecond (order : RiseOrder) (s : State) : State :=
  if s.cal.secondDue then settle (supervise order (s.setCal { s.cal with secondDue := false })) else s

/-- Whether the second boundary still to be taken lapses supervision (R167). -/
def lapseDue (s : State) : Bool :=
  s.cal.secondDue && s.agent.supervision.state == .counting && s.agent.supervision.remaining == 1

/-- The minute boundary at the Window Monitor (R58, R77), once for each boundary. -/
def takeWindowMinute (s : State) : State :=
  match s.cal.windowMinute with
  | some m => settle (fullEvaluation m (s.setCal { s.cal with windowMinute := none }))
  | none => s

/-- The minute boundary at the Commit Controller (R58, R147), once for each boundary. -/
def takeCommitMinute (s : State) : State :=
  match s.cal.commitMinute with
  | some m => settle (commitBoundary m (s.setCal { s.cal with commitMinute := none }))
  | none => s

/-- The minute boundary at both blocks in either order, or at one of them alone (R81, log 15). -/
def takeMinute (order : BoundaryOrder) (s : State) : State :=
  match order with
  | .evaluationFirst => takeCommitMinute (takeWindowMinute s)
  | .commitFirst => takeWindowMinute (takeCommitMinute s)
  | .evaluationAlone => takeWindowMinute s
  | .commitAlone => takeCommitMinute s

/-! ### A tick (log 8) -/

/-- What the last tick handed to the blocks and they have not taken, taken in a fixed order before the next
tick: of a minute boundary the evaluation before the commit, a lapse with the records before the flag (log 8). -/
def takeOutstanding (s : State) : State :=
  let s1 := takeBindTick .f (takeBindTick .n (takeHoldTick s))
  let s2 := takeScrubTick (takeRefillTick s1)
  takeMinute .evaluationFirst (takeSecond .recordsFirst s2)

/-- The Calendar advances by one tick and hands it on (R56 to R58). -/
def advance (s : State) : State := s.setCal (s.cal.deliver s.cal.tick)

/-- A tick. -/
def tickNow (s : State) : State := advance (takeOutstanding s)

/-- The disturbances a tick carries (log 10). -/
def applyUpsets (l : List Upset) (s : State) : State :=
  s.setStore (l.foldl (fun t u => t.setRow u.bank u.index (disturb (t.row u.bank u.index) u.word u.bit))
    s.store)

/-! ### REFIN (R59 to R62) -/

/-- A rising edge of REFIN; the 32nd of a reference tick produces the tick. -/
def refinEdge (ns : Nat) (s : State) : State :=
  if s.cal.endsReferenceTick then tickNow s else s.setCal (s.cal.edge ns)

/-- The loss at the blocks (R61): the Calendar, the quality change at the Window Monitor (R65, R77), the
flag. -/
def loseReference (s : State) : State :=
  let s1 := s.setCal s.cal.lose
  let s2 := if s.cal.quality = .nominal then evaluateNow s1 else s1
  tell .referenceLost s2

/-- A loss of the reference, declared in PRESENT alone; a fallback tick already due is delivered at it. -/
def referenceLostAt (tickDue : Bool) (s : State) : State :=
  match s.cal.monitor with
  | .present =>
    if s.cal.tickAtLoss tickDue then tickNow (loseReference s) else loseReference s
  | .absent => s

/-! ### Accesses of the table port -/

/-- A sweep write (R134, R135). -/
def sweepWrite (s : State) : State :=
  match s.store.phase with
  | .initializing n => settle (sweepNext n (sweepRow n s))
  | .ready => s

/-- A scrub step (R132). -/
def scrubStepNow (s : State) : State :=
  match s.store.port with
  | .scrub => settle (concludeAccess (scrubStepEffect s))
  | .free => s
  | .closing => s
  | .judge _ => s
  | .agent _ => s
  | .sweep => s

/-- The conclusion of a management access, at which its reads and its row writes are made; WRITE_ENTRY has written at
its grant (log 12). -/
def managementAccessNow (s : State) : State :=
  match s.store.port, s.agent.exec with
  | .agent active, some x => settle (concludeJob x.buffer x.job active (concludeAccess s))
  | _, _ => s

/-- The conclusion of a Judge's lookup (R24). -/
def lookupConclusionNow (p : Port) (order : RiseOrder) (s : State) : State :=
  match (s.judges.get p).phase with
  | .lookup it bank => settle (concludeLookup p it bank order s)
  | .idle => s
  | .waiting _ => s

/-- A scan reaches its next record (R106). -/
def scanEvaluationNow (s : State) : State := settle (scanStep s)

end Sys2Proof.Machine
end

