-- ==== Sys2Proof/Machine/ClockEvents.lean ====
section
/-! DEFINITION. The commands that are events of the Calendar and of REFIN (04_calendar_and_time_base.md), and the
boundaries at their blocks. -/

namespace Sys2Proof.Machine

/-- TICK (R57): A tick from the present clock source advances the time of week and uptime and is delivered
to the blocks that keep deadlines. (Log 8, 9, 10.) -/
def execTick (upsets : List Upset) (s : State) : Host.Outcome State Fault Refusal :=
  .next (tickNow (applyUpsets upsets s))

/-- SECOND_BOUNDARY (R58): The sub-second wraps from 1023 to 0, and the second boundary reaches the
Supervision Timer. (Log 8.) -/
def execSecondBoundary (order : RiseOrder) (s : State) : Host.Outcome State Fault Refusal :=
  .next (takeSecond order s)

/-- MINUTE_BOUNDARY (R58): The second wraps from 59 to 0, and the minute boundary reaches the Window Monitor
and the Commit Controller, either first, with other events between them or none. (Log 8, 15, 16.) -/
def execMinuteBoundary (order : BoundaryOrder) (s : State) : Host.Outcome State Fault Refusal :=
  .next (takeMinute order s)

/-- REFERENCE_LOSS (R61): The absence timer reaches 1 ms with no REFIN edge, and the Monitor goes ABSENT,
the source becomes FALLBACK, the quality may degrade and REFERENCE_LOST is set. -/
def execReferenceLoss (tickDue : Bool) (s : State) : Host.Outcome State Fault Refusal :=
  .next (referenceLostAt tickDue s)

/-- REFERENCE_QUALIFIED (R62): The good-edge count reaches 1024 in ABSENT, and the Monitor goes to PRESENT
with switch pending set. An edge that ends a correct interval of 30.52 microseconds; it qualifies the
reference when it is the 1024th (log 6). -/
def execReferenceQualified (s : State) : Host.Outcome State Fault Refusal :=
  .next (refinEdge 30520 s)

/-- REFIN_RISING_EDGE (R62): A rising edge on REFIN restarts the absence timer and counts in the edge
divider while PRESENT, and in ABSENT ends an interval that increments the good-edge count or resets it to 0.
-/
def execRefinRisingEdge (interval : Nat) (s : State) : Host.Outcome State Fault Refusal :=
  .next (refinEdge interval s)

/-- NO_EDGE_STRETCH (R62): In ABSENT a stretch of the 1 ms loss measure passes with no REFIN edge, and the
good-edge count is set to 0 with no second loss declared. -/
def execNoEdgeStretch (s : State) : Host.Outcome State Fault Refusal :=
  .next (s.setCal s.cal.stretch)

end Sys2Proof.Machine
end

