-- ==== Sys2Proof/Machine/DeadlineEvents.lean ====
section
/-! DEFINITION. The commands that are deadlines, pulses and scans falling due in a block (log 5, 8). -/

namespace Sys2Proof.Machine

/-- HOLD_EXPIRY (R109): A held first record's deadline is reached, and it is removed HOLD_EXPIRED with its
partner BOUND_BROKEN. -/
def execHoldExpiry (s : State) : Host.Outcome State Fault Refusal :=
  .next (takeHoldTick s)

/-- BIND_DEADLINE (R47): Uptime reaches an open bind context's deadline, and the binding ends or the
deadline-reached mark is set if telegrams still wait. -/
def execBindDeadline (p : Port) (s : State) : Host.Outcome State Fault Refusal :=
  .next (takeBindTick p s)

/-- REFILL_PULSE (R93): A source pulse on the uptime grid reaches a RUNNING Refill Timer, which loads the
preset or decrements its count. -/
def execRefillPulse (s : State) : Host.Outcome State Fault Refusal :=
  .next (takeRefillTick s)

/-- REFILL (R94): The Refill Timer count runs down to 0, and every credit is raised by its refill amount up
to its ceiling. -/
def execRefill (s : State) : Host.Outcome State Fault Refusal :=
  if refillDue s then .next (takeRefillTick s) else .next s

/-- SUPERVISION_LAPSE (R167): The supervision remaining count reaches 0 at a second boundary, and
supervision lapses, BLOCK held records are removed and SUPERVISION_LAPSED is set. -/
def execSupervisionLapse (order : RiseOrder) (s : State) : Host.Outcome State Fault Refusal :=
  if lapseDue s then .next (takeSecond order s) else .next s

/-- SCAN_EVALUATION (R106): A window or refill scan reaches its next chosen record and makes a release
evaluation, or begins the next waiting scan when it ends. -/
def execScanEvaluation (s : State) : Host.Outcome State Fault Refusal :=
  .next (scanEvaluationNow s)

end Sys2Proof.Machine
end

