-- ==== Sys2Proof/Machine/LineEvents.lean ====
section
/-! DEFINITION. The commands that are events of the trunk lines (01_trunk_telegrams_and_ports.md). A byte or a silence
acts by the state of its unit (R5; log 6). -/

namespace Sys2Proof.Machine

/-- RECEPTION_START (R6): A start marker 0xD3 arrives on a READY receive line, and the Receive Unit claims a
buffer and goes to FILLING, or goes to VOID when the free list is empty. -/
def execReceptionStart (p : Port) (s : State) : Host.Outcome State Fault Refusal :=
  .next (lineByte p 0xD3 s)

/-- SILENCE_SETTLED (R5): The silence on a receive line reaches 3 byte times, and a SETTLING Receive Unit
becomes READY. -/
def execSilenceSettled (p : Port) (s : State) : Host.Outcome State Fault Refusal :=
  .next (lineSettled p s)

/-- TRUNCATION (R7): A silence of more than 4 byte times in FILLING truncates the telegram: the buffer is
freed, the truncated counter rises and a TRUNCATED record is handed over. -/
def execTruncation (p : Port) (s : State) : Host.Outcome State Fault Refusal :=
  .next (lineSilent p s)

/-- VOID_RECEPTION_END (R10): A void reception ends by its framed length or by silence, and the no-buffer
counter rises and a NO_BUFFER record is handed over. -/
def execVoidReceptionEnd (p : Port) (last : Option Byte) (s : State) : Host.Outcome State Fault Refusal :=
  match last with
  | some b => .next (lineByte p b s)
  | none => .next (lineSilent p s)

/-- RECEPTION_END (R8): The last byte by the framed length arrives in FILLING, and the telegram is found
CORRUPT, MALFORMED or good. -/
def execReceptionEnd (p : Port) (b : Byte) (s : State) : Host.Outcome State Fault Refusal :=
  .next (lineByte p b s)

/-- BYTE_ARRIVAL (R5): A byte other than a start marker or a last byte arrives on a receive line: it is
ignored in SETTLING, sends READY to SETTLING when not 0xD3, and is taken into the telegram or header store
in FILLING or VOID, restarting the silence measurement. -/
def execByteArrival (p : Port) (b : Byte) (s : State) : Host.Outcome State Fault Refusal :=
  .next (lineByte p b s)

/-- TRANSMISSION_COMPLETE (R14): The second check byte leaves the line, the buffer is freed, the transmitted
counter rises and the unit goes to SPACING. -/
def execTransmissionComplete (p : Port) (s : State) : Host.Outcome State Fault Refusal :=
  .next (txComplete p s)

/-- SPACING_END (R14): After 3 byte times of silence a Transmit Unit returns to IDLE and starts the next
transmission if a list is non-empty. -/
def execSpacingEnd (p : Port) (s : State) : Host.Outcome State Fault Refusal :=
  .next (txSpacingEnd p s)

end Sys2Proof.Machine
end

