-- ==== Sys2Proof/Machine/ManagementReads.lean ====
section
/-! DEFINITION. The commands of class READ (R153), sent as telegrams to the own address (log 7). -/

namespace Sys2Proof.Machine

/-- UNKNOWN_COMMAND (R155): A command code naming no command is answered UNKNOWN_COMMAND after the read-
floor test. -/
def execUnknownCommand (h : CmdHead) (payload : List Byte) (s : State) : Host.Outcome State Fault Refusal :=
  .next (sendCommand h payload s)

/-- READ_STATUS (R158): Takes one reading of the gate's state and returns it. -/
def execReadStatus (h : CmdHead) (s : State) : Host.Outcome State Fault Refusal :=
  .next (sendCommand h [0x01] s)

/-- READ_ENTRY (R158): Reads one row of a named bank role and returns the entry, or POISONED. -/
def execReadEntry (h : CmdHead) (role index : Byte) (s : State) : Host.Outcome State Fault Refusal :=
  .next (sendCommand h [0x02, role, index] s)

/-- READ_WINDOW (R82): Returns a window record of a named role with its Open Set membership and bank number.
-/
def execReadWindow (h : CmdHead) (role window : Byte) (s : State) : Host.Outcome State Fault Refusal :=
  .next (sendCommand h [0x03, role, window] s)

/-- READ_STREAM_STATUS (R159): For 1..8 indexes, reads the row condition and the Stream Status record of
each. -/
def execReadStreamStatus (h : CmdHead) (indexes : List Byte) (s : State) :
    Host.Outcome State Fault Refusal :=
  .next (sendCommand h (0x04 :: indexes) s)

/-- PROBE (R43): Runs checks 3 to 9 on a described telegram against the active bank without effects, and
reports the verdict. -/
def execProbe (h : CmdHead) (port : Byte) (source dest : Addr) (cls priv options : Byte)
    (holdLimit : BitVec 16) (s : State) :
    Host.Outcome State Fault Refusal :=
  .next (sendCommand h (probePayload port source dest cls priv options holdLimit) s)

/-- KEEPALIVE (R160): Reloads the Supervision Timer and reports the supervision particulars. -/
def execKeepalive (h : CmdHead) (s : State) : Host.Outcome State Fault Refusal :=
  .next (sendCommand h [0x06] s)

end Sys2Proof.Machine
end

