-- ==== Sys2Proof/Machine/ManagementWrites.lean ====
section
/-! DEFINITION. The commands of class WRITE (R153) but for SET_CONFIG and REFILL_CONTROL, sent as telegrams to the own
address (log 7). -/

namespace Sys2Proof.Machine

/-- WRITE_ENTRY (R138): Writes a consistent stream entry into a shadow row with fresh check codes and
updates poison and parameters. -/
def execWriteEntry (h : CmdHead) (index : Byte) (entry : BitVec 176) (s : State) :
    Host.Outcome State Fault Refusal :=
  .next (sendCommand h (0x07 :: index :: bytesOf 22 entry) s)

/-- INVALIDATE_ENTRY (R139): Rewrites a shadow row as INVALID, or as the blank entry when it was poisoned.
-/
def execInvalidateEntry (h : CmdHead) (index : Byte) (s : State) : Host.Outcome State Fault Refusal :=
  .next (sendCommand h [0x08, index] s)

/-- WRITE_WINDOW (R72): Writes a complete window record into the shadow bank. -/
def execWriteWindow (h : CmdHead) (window : Byte) (record : BitVec 80) (s : State) :
    Host.Outcome State Fault Refusal :=
  .next (sendCommand h (0x09 :: window :: bytesOf 10 record) s)

/-- COPY_ACTIVE_TO_SHADOW (R140): Copies the active windows at once and then the active rows one access each
into the shadow. -/
def execCopyActiveToShadow (h : CmdHead) (s : State) : Host.Outcome State Fault Refusal :=
  .next (sendCommand h [0x0A] s)

/-- CLEAR_SHADOW (R142): Clears the shadow windows and writes every shadow row with the blank entry. -/
def execClearShadow (h : CmdHead) (s : State) : Host.Outcome State Fault Refusal :=
  .next (sendCommand h [0x0B] s)

/-- COMMIT_NOW (R146): Swaps the banks at once and discards any scheduled instant. -/
def execCommitNow (h : CmdHead) (s : State) : Host.Outcome State Fault Refusal :=
  .next (sendCommand h [0x0C] s)

/-- SCHEDULE_COMMIT (R144): Sets a future day and minute at which the banks swap. -/
def execScheduleCommit (h : CmdHead) (day : DayNum) (minute : BitVec 16) (s : State) :
    Host.Outcome State Fault Refusal :=
  .next (sendCommand h (0x0D :: be16 day ++ be16 minute) s)

/-- CANCEL_COMMIT (R145): Discards a scheduled instant and returns the Commit Controller to IDLE. -/
def execCancelCommit (h : CmdHead) (s : State) : Host.Outcome State Fault Refusal :=
  .next (sendCommand h [0x0E] s)

/-- SET_TIME (R66): Sets the time of week, updates the quality and raises the SET_TIME event. -/
def execSetTime (h : CmdHead) (day : DayNum) (weekday hour minute second : Byte) (s : State) :
    Host.Outcome State Fault Refusal :=
  .next (sendCommand h (0x0F :: be16 day ++ [weekday, hour, minute, second]) s)

/-- CLEAR_STREAM_COUNTERS (R98): Sets the passed, refused and held counts of a range of indexes to 0. -/
def execClearStreamCounters (h : CmdHead) (low high : Byte) (s : State) :
    Host.Outcome State Fault Refusal :=
  .next (sendCommand h [0x12, low, high] s)

/-- DRAIN_EXCEPTIONS (R173): Removes and returns up to the maximum oldest exception records and resets the
lost count. -/
def execDrainExceptions (h : CmdHead) (maximum : Byte) (s : State) : Host.Outcome State Fault Refusal :=
  .next (sendCommand h [0x13, maximum] s)

/-- CLEAR_ALERTS (R175): Clears the named alert flags and updates ALERT_N. -/
def execClearAlerts (h : CmdHead) (flags : Byte) (s : State) : Host.Outcome State Fault Refusal :=
  .next (sendCommand h [0x14, flags] s)

/-- FLUSH_HOLD (R112): Removes all held first records, or those of one index, FLUSHED with their partners.
-/
def execFlushHold (h : CmdHead) (scope index : Byte) (s : State) : Host.Outcome State Fault Refusal :=
  .next (sendCommand h [0x15, scope, index] s)

/-- RESET (R164): Makes a command reset of the whole gate at its beginning, with no response. The straps
stand at the levels given (log 21). -/
def execReset (h : CmdHead) (straps : BitVec 8) (s : State) : Host.Outcome State Fault Refusal :=
  .next (sendCommand h [0x16] (s.setStraps straps))

end Sys2Proof.Machine
end

