-- ==== Sys2Proof/Machine/RefillCommands.lean ====
section
/-! DEFINITION. REFILL_CONTROL, one command for each action (R90 to R92), sent as telegrams to the own address (log 7). -/

namespace Sys2Proof.Machine

/-- START (R90): REFILL_CONTROL START puts the Refill Timer in RUNNING. -/
def execStart (h : CmdHead) (s : State) : Host.Outcome State Fault Refusal :=
  .next (sendCommand h [0x11, 0] s)

/-- PAUSE (R91): REFILL_CONTROL PAUSE puts a RUNNING Refill Timer in PAUSED with its count kept. -/
def execPause (h : CmdHead) (s : State) : Host.Outcome State Fault Refusal :=
  .next (sendCommand h [0x11, 1] s)

/-- STOP (R91): REFILL_CONTROL STOP puts the Refill Timer in STOPPED with count 0. -/
def execStop (h : CmdHead) (s : State) : Host.Outcome State Fault Refusal :=
  .next (sendCommand h [0x11, 2] s)

/-- RESTART (R92): REFILL_CONTROL RESTART loads the preset into the count at once, leaving the state. -/
def execRestart (h : CmdHead) (s : State) : Host.Outcome State Fault Refusal :=
  .next (sendCommand h [0x11, 3] s)

end Sys2Proof.Machine
end

