-- ==== Sys2Proof/Machine/ResetEvents.lean ====
section
/-! DEFINITION. The commands that are resets from outside, and the sweep that follows a power-on. -/

namespace Sys2Proof.Machine

/-- POWER_ON_RESET (R69): Supply is applied, and every block takes its power-on state; the Calendar, Poison
Set, selector and windows are reinitialised. -/
def execPowerOnReset (straps : BitVec 8) (s : State) : Host.Outcome State Fault Refusal :=
  .next (powerOnTo straps s)

/-- PIN_RESET (R17): RST_N is held low, and every block takes its pin-reset state while rows, time and
selector are kept. (Log 21.) -/
def execPinReset (straps : BitVec 8) (meanwhile : List CalEvent) (s : State) :
    Host.Outcome State Fault Refusal :=
  .next (pinResetTo straps meanwhile s)

/-- SWEEP_WRITE (R134): One sweep access writes the blank entry into the next row in walk order and clears
its parameter record. -/
def execSweepWrite (s : State) : Host.Outcome State Fault Refusal :=
  .next (sweepWrite s)

end Sys2Proof.Machine
end

