-- ==== Sys2Proof/Machine/SettingCommands.lean ====
section
/-! DEFINITION. SET_CONFIG, one command for each setting (R161), sent as telegrams to the own address (log 7). -/

namespace Sys2Proof.Machine

/-- DEFAULT_VERDICT (R27): SET_CONFIG of the default verdict, REFUSE or PASS. -/
def execDefaultVerdict (h : CmdHead) (presence : Byte) (value : BitVec 16) (s : State) :
    Host.Outcome State Fault Refusal :=
  .next (sendCommand h (settingPayload 1 presence value) s)

/-- FLOOR_N (R162): SET_CONFIG of the privilege floor of Port N, guarded against self-lockout. -/
def execFloorN (h : CmdHead) (presence : Byte) (value : BitVec 16) (s : State) :
    Host.Outcome State Fault Refusal :=
  .next (sendCommand h (settingPayload 2 presence value) s)

/-- FLOOR_F (R162): SET_CONFIG of the privilege floor of Port F, guarded against self-lockout. -/
def execFloorF (h : CmdHead) (presence : Byte) (value : BitVec 16) (s : State) :
    Host.Outcome State Fault Refusal :=
  .next (sendCommand h (settingPayload 3 presence value) s)

/-- READ_FLOOR (R161): SET_CONFIG of the read floor for the command privilege test. -/
def execReadFloor (h : CmdHead) (presence : Byte) (value : BitVec 16) (s : State) :
    Host.Outcome State Fault Refusal :=
  .next (sendCommand h (settingPayload 4 presence value) s)

/-- WRITE_FLOOR (R162): SET_CONFIG of the write floor, refused CONFLICT when it would lock out the command's
own sender. -/
def execWriteFloor (h : CmdHead) (presence : Byte) (value : BitVec 16) (s : State) :
    Host.Outcome State Fault Refusal :=
  .next (sendCommand h (settingPayload 5 presence value) s)

/-- NEAR_MANAGEMENT (R162): SET_CONFIG of whether commands on Port N are handed to the inbox. -/
def execNearManagement (h : CmdHead) (presence : Byte) (value : BitVec 16) (s : State) :
    Host.Outcome State Fault Refusal :=
  .next (sendCommand h (settingPayload 6 presence value) s)

/-- BIND_LIMIT (R161): SET_CONFIG of the bind limit in ticks for newly opened bind contexts. -/
def execBindLimit (h : CmdHead) (presence : Byte) (value : BitVec 16) (s : State) :
    Host.Outcome State Fault Refusal :=
  .next (sendCommand h (settingPayload 7 presence value) s)

/-- SCRUB_INTERVAL (R129): SET_CONFIG of the scrub interval, which moves the expiry grid at acceptance. -/
def execScrubInterval (h : CmdHead) (presence : Byte) (value : BitVec 16) (s : State) :
    Host.Outcome State Fault Refusal :=
  .next (sendCommand h (settingPayload 8 presence value) s)

/-- URGENT_LEVEL (R131): SET_CONFIG of the scrub debt level at which the Scrubber becomes urgent. -/
def execUrgentLevel (h : CmdHead) (presence : Byte) (value : BitVec 16) (s : State) :
    Host.Outcome State Fault Refusal :=
  .next (sendCommand h (settingPayload 9 presence value) s)

/-- REFILL_PRESET (R95): SET_CONFIG of the Refill Timer preset, accepted only while the Timer is STOPPED. -/
def execRefillPreset (h : CmdHead) (presence : Byte) (value : BitVec 16) (s : State) :
    Host.Outcome State Fault Refusal :=
  .next (sendCommand h (settingPayload 10 presence value) s)

/-- REFILL_SOURCE (R95): SET_CONFIG of the Refill Timer source, accepted only while the Timer is STOPPED. -/
def execRefillSource (h : CmdHead) (presence : Byte) (value : BitVec 16) (s : State) :
    Host.Outcome State Fault Refusal :=
  .next (sendCommand h (settingPayload 11 presence value) s)

/-- SUPERVISION_PERIOD (R168): SET_CONFIG of the supervision period, which disables or reloads the
Supervision Timer at acceptance. -/
def execSupervisionPeriod (h : CmdHead) (presence : Byte) (value : BitVec 16) (s : State) :
    Host.Outcome State Fault Refusal :=
  .next (sendCommand h (settingPayload 12 presence value) s)

/-- HOLD_HIGH_MARK (R102): SET_CONFIG of the hold count at which admissions set HOLD_HIGH. -/
def execHoldHighMark (h : CmdHead) (presence : Byte) (value : BitVec 16) (s : State) :
    Host.Outcome State Fault Refusal :=
  .next (sendCommand h (settingPayload 13 presence value) s)

/-- REPORT_ADDRESS (R161): SET_CONFIG of the destination address of Reports, or none. -/
def execReportAddress (h : CmdHead) (presence : Byte) (value : BitVec 16) (s : State) :
    Host.Outcome State Fault Refusal :=
  .next (sendCommand h (settingPayload 14 presence value) s)

/-- ALERT_PIN_ENABLES (R176): SET_CONFIG of the alert pin enables, which drives or releases ALERT_N at
acceptance. -/
def execAlertPinEnables (h : CmdHead) (presence : Byte) (value : BitVec 16) (s : State) :
    Host.Outcome State Fault Refusal :=
  .next (sendCommand h (settingPayload 15 presence value) s)

/-- REPORT_ENABLES (R177): SET_CONFIG of which alert flags send a Report on their rise. -/
def execReportEnables (h : CmdHead) (presence : Byte) (value : BitVec 16) (s : State) :
    Host.Outcome State Fault Refusal :=
  .next (sendCommand h (settingPayload 16 presence value) s)

end Sys2Proof.Machine
end

