-- ==== Sys2Proof/Machine/TableEvents.lean ====
section
/-! DEFINITION. The commands that are events of the table port (08_table_store_and_scrubbing.md). -/

namespace Sys2Proof.Machine

/-- SCRUB_INTERVAL_EXPIRY (R130): A scrub interval expires on the uptime grid, and the Scrubber raises its
request or increments its debt, possibly setting SCRUB_URGENT. -/
def execScrubIntervalExpiry (s : State) : Host.Outcome State Fault Refusal :=
  .next (takeScrubTick s)

/-- SCRUB_STEP (R132): A granted scrub access reads the next unpoisoned row in walk order, writes back a
correctable row, advances the pointer and lowers the debt. -/
def execScrubStep (s : State) : Host.Outcome State Fault Refusal :=
  .next (scrubStepNow s)

/-- LOOKUP_CONCLUSION (R24): A Judge's lookup ends at its match, a fault or row 255, and checks 4 to 9 or
the default verdict decide the telegram or rejudge. -/
def execLookupConclusion (p : Port) (order : RiseOrder) (s : State) : Host.Outcome State Fault Refusal :=
  .next (lookupConclusionNow p order s)

/-- MANAGEMENT_ACCESS (R124): A management table access concludes, and the Agent places the request for its
next row or completes the command. -/
def execManagementAccess (s : State) : Host.Outcome State Fault Refusal :=
  .next (managementAccessNow s)

end Sys2Proof.Machine
end

