-- ==== Sys2Proof/Machine/Dispatch.lean ====
section
/-! DEFINITION. The meaning of each command: one arm for each row of spec/opcode_table.json. -/

namespace Sys2Proof.Machine

def exec (i : Instr) (s : State) : Host.Outcome State Fault Refusal :=
  match i with
  | .receptionStart p => Sys2Proof.Machine.execReceptionStart p s
  | .silenceSettled p => Sys2Proof.Machine.execSilenceSettled p s
  | .truncation p => Sys2Proof.Machine.execTruncation p s
  | .voidReceptionEnd p last => Sys2Proof.Machine.execVoidReceptionEnd p last s
  | .receptionEnd p b => Sys2Proof.Machine.execReceptionEnd p b s
  | .transmissionComplete p => Sys2Proof.Machine.execTransmissionComplete p s
  | .spacingEnd p => Sys2Proof.Machine.execSpacingEnd p s
  | .powerOnReset straps => Sys2Proof.Machine.execPowerOnReset straps s
  | .pinReset straps meanwhile => Sys2Proof.Machine.execPinReset straps meanwhile s
  | .sweepWrite => Sys2Proof.Machine.execSweepWrite s
  | .tick upsets => Sys2Proof.Machine.execTick upsets s
  | .secondBoundary order => Sys2Proof.Machine.execSecondBoundary order s
  | .minuteBoundary order => Sys2Proof.Machine.execMinuteBoundary order s
  | .referenceLoss tickDue => Sys2Proof.Machine.execReferenceLoss tickDue s
  | .referenceQualified => Sys2Proof.Machine.execReferenceQualified s
  | .holdExpiry => Sys2Proof.Machine.execHoldExpiry s
  | .bindDeadline p => Sys2Proof.Machine.execBindDeadline p s
  | .refillPulse => Sys2Proof.Machine.execRefillPulse s
  | .refill => Sys2Proof.Machine.execRefill s
  | .scrubIntervalExpiry => Sys2Proof.Machine.execScrubIntervalExpiry s
  | .scrubStep => Sys2Proof.Machine.execScrubStep s
  | .supervisionLapse order => Sys2Proof.Machine.execSupervisionLapse order s
  | .lookupConclusion p order => Sys2Proof.Machine.execLookupConclusion p order s
  | .scanEvaluation => Sys2Proof.Machine.execScanEvaluation s
  | .managementAccess => Sys2Proof.Machine.execManagementAccess s
  | .unknownCommand h payload => Sys2Proof.Machine.execUnknownCommand h payload s
  | .readStatus h => Sys2Proof.Machine.execReadStatus h s
  | .readEntry h role index => Sys2Proof.Machine.execReadEntry h role index s
  | .readWindow h role window => Sys2Proof.Machine.execReadWindow h role window s
  | .readStreamStatus h indexes => Sys2Proof.Machine.execReadStreamStatus h indexes s
  | .probe h port source dest cls priv options holdLimit => Sys2Proof.Machine.execProbe h port source dest cls priv options holdLimit s
  | .keepalive h => Sys2Proof.Machine.execKeepalive h s
  | .writeEntry h index entry => Sys2Proof.Machine.execWriteEntry h index entry s
  | .invalidateEntry h index => Sys2Proof.Machine.execInvalidateEntry h index s
  | .writeWindow h window record => Sys2Proof.Machine.execWriteWindow h window record s
  | .copyActiveToShadow h => Sys2Proof.Machine.execCopyActiveToShadow h s
  | .clearShadow h => Sys2Proof.Machine.execClearShadow h s
  | .commitNow h => Sys2Proof.Machine.execCommitNow h s
  | .scheduleCommit h day minute => Sys2Proof.Machine.execScheduleCommit h day minute s
  | .cancelCommit h => Sys2Proof.Machine.execCancelCommit h s
  | .setTime h day weekday hour minute second => Sys2Proof.Machine.execSetTime h day weekday hour minute second s
  | .defaultVerdict h presence value => Sys2Proof.Machine.execDefaultVerdict h presence value s
  | .floorN h presence value => Sys2Proof.Machine.execFloorN h presence value s
  | .floorF h presence value => Sys2Proof.Machine.execFloorF h presence value s
  | .readFloor h presence value => Sys2Proof.Machine.execReadFloor h presence value s
  | .writeFloor h presence value => Sys2Proof.Machine.execWriteFloor h presence value s
  | .nearManagement h presence value => Sys2Proof.Machine.execNearManagement h presence value s
  | .bindLimit h presence value => Sys2Proof.Machine.execBindLimit h presence value s
  | .scrubInterval h presence value => Sys2Proof.Machine.execScrubInterval h presence value s
  | .urgentLevel h presence value => Sys2Proof.Machine.execUrgentLevel h presence value s
  | .refillPreset h presence value => Sys2Proof.Machine.execRefillPreset h presence value s
  | .refillSource h presence value => Sys2Proof.Machine.execRefillSource h presence value s
  | .supervisionPeriod h presence value => Sys2Proof.Machine.execSupervisionPeriod h presence value s
  | .holdHighMark h presence value => Sys2Proof.Machine.execHoldHighMark h presence value s
  | .reportAddress h presence value => Sys2Proof.Machine.execReportAddress h presence value s
  | .alertPinEnables h presence value => Sys2Proof.Machine.execAlertPinEnables h presence value s
  | .reportEnables h presence value => Sys2Proof.Machine.execReportEnables h presence value s
  | .start h => Sys2Proof.Machine.execStart h s
  | .pause h => Sys2Proof.Machine.execPause h s
  | .stop h => Sys2Proof.Machine.execStop h s
  | .restart h => Sys2Proof.Machine.execRestart h s
  | .clearStreamCounters h low high => Sys2Proof.Machine.execClearStreamCounters h low high s
  | .drainExceptions h maximum => Sys2Proof.Machine.execDrainExceptions h maximum s
  | .clearAlerts h flags => Sys2Proof.Machine.execClearAlerts h flags s
  | .flushHold h scope index => Sys2Proof.Machine.execFlushHold h scope index s
  | .reset h straps => Sys2Proof.Machine.execReset h straps s
  | .byteArrival p b => Sys2Proof.Machine.execByteArrival p b s
  | .refinRisingEdge interval => Sys2Proof.Machine.execRefinRisingEdge interval s
  | .noEdgeStretch => Sys2Proof.Machine.execNoEdgeStretch s

end Sys2Proof.Machine
end

