-- ==== Sys2Proof/Safety.lean ====
section
/-! DEFINITION. What the rules say of every state of the SG240: the bounds of its lists, ALERT_N, the credits,
the one place of each buffer, the one holder of the table port; and when a command telegram finds the gate
ready for it. -/

namespace Sys2Proof.Machine

/-- Nothing follows at once: every state a step ends in that is not cut off by the bound (log 14). -/
def Settled (s : State) : Prop := (consequence s).isNone = true

/-! ### Bounds (R13, R99, R151, R171) -/

/-- The lists hold at most what their rules allow: 32 held records, 4 commands in the inbox, 16 exception
records, 8 urgent and 16 normal telegrams on each port. -/
def Bounded (s : State) : Prop :=
  s.hold.records.length ≤ 32 ∧ s.agent.inbox.length ≤ 4 ∧ s.exc.queue.length ≤ 16 ∧
    (∀ p, (s.tx.get p).urgent.length ≤ 8) ∧ ∀ p, (s.tx.get p).normal.length ≤ 16

/-! ### ALERT_N (R176) -/

/-- ALERT_N is low exactly while some alert flag and its pin enable are both set. -/
def AlertFollows (s : State) : Prop :=
  (s.exc.alertLow = true ↔ s.exc.flags &&& s.agent.settings.pinEnables ≠ 0#8)

/-! ### The Exception Queue (R171) -/

/-- No two consecutive records have the same key. -/
def NoEqualNeighbours (s : State) : Prop :=
  s.exc.queue.IsChain fun a b => sameKey a.what b.what = false

/-! ### The holder of the table port (R24, R124, R135) -/

/-- A Judge in LOOKUP holds the port; while the store is INITIALIZING the sweep holds it. -/
def PortHeldByOne (s : State) : Prop :=
  (∀ p it bank, (s.judges.get p).phase = .lookup it bank → s.store.port = .judge p) ∧
    ∀ n, s.store.phase = .initializing n → s.store.port = .sweep

/-! ### Credits (R85) -/

/-- The credit of every index is at most the ceiling of the usable active record there, and 0 elsewhere. -/
def CreditsWithin (s : State) : Prop :=
  ∀ i, (s.stream i).credit.toNat ≤
    if (s.param s.store.active i).usable then (s.param s.store.active i).ceiling.toNat else 0

/-- While the store is INITIALIZING every credit is 0, the Refill Timer is STOPPED, no commit is scheduled and
no command is in execution (R135): what keeps the credits within their ceilings during the sweep. -/
def QuietWhileInitializing (s : State) : Prop :=
  ∀ n, s.store.phase = .initializing n →
    (∀ i, (s.stream i).credit = 0) ∧ s.policer.timer = .stopped ∧ s.commit.phase = .idle ∧
      s.agent.exec = none

/-! ### The place of each buffer (R12) -/

/-- The buffer a Receive Unit fills. -/
def rxPlaces (u : RxUnit) : List BufId :=
  match u.phase with
  | .filling b => [b]
  | .settling => []
  | .ready => []
  | .void => []

/-- The buffers of a Judge: its arrival list and the telegram in judgement. -/
def judgePlaces (j : Judge) : List BufId := j.arrivals ++ (judgedBuffer j.phase).toList

/-- The buffers of a Transmit Unit: its lists and the telegram in transmission. -/
def txPlaces (u : TxUnit) : List BufId :=
  u.urgent ++ u.normal ++
    match u.phase with
    | .sending b _ => [b]
    | .idle => []
    | .spacing => []

/-- The buffers of the Management Agent: the inbox and the command in execution. -/
def agentPlaces (a : Agent) : List BufId := a.inbox ++ (a.exec.map (·.buffer)).toList

/-- Every place a buffer can be in. -/
def places (s : State) : List BufId :=
  s.pool.free ++ rxPlaces s.rx.n ++ rxPlaces s.rx.f ++ judgePlaces s.judges.n ++ judgePlaces s.judges.f
    ++ agentPlaces s.agent ++ s.hold.records.map (·.buffer) ++ txPlaces s.tx.n ++ txPlaces s.tx.f

/-- Each of the 64 buffers is in exactly one place. -/
def EachBufferInOnePlace (s : State) : Prop := (places s).Perm (List.finRange 64)

/-! ### Held records and their partners (R53, R100, R105) -/

/-- The reference numbers of the held records are distinct and already given out (log 17). -/
def RefsDistinct (s : State) : Prop :=
  (s.hold.records.map (·.ref)).Nodup ∧ ∀ r ∈ s.hold.records, r.ref < s.hold.nextRef

/-- The partner a first record names is held and names it, and so the other way round. -/
def PartnersLinked (s : State) : Prop :=
  (∀ r ∈ s.hold.records, ∀ n, r.partnerRef = some n →
      ∃ q ∈ s.hold.records, q.ref = n ∧ q.role = .partner r.ref) ∧
    ∀ q ∈ s.hold.records, ∀ n, q.role = .partner n →
      ∃ r ∈ s.hold.records, r.ref = n ∧ r.partnerRef = some q.ref

/-- Whether a removal of the first records a test picks takes a record out: a first it picks, or the partner of
one. -/
def goesWith (pick : HeldRecord → FirstPart → Bool) (l : List HeldRecord) (r : HeldRecord) : Bool :=
  match r.role with
  | .first f => pick r f
  | .partner n => l.any fun q =>
      q.ref == n && match q.firstPart with
        | some f => pick q f
        | none => false

/-! ### The rejudge requests (R20, R105, R113, R115) -/

/-- The same state with the request withdrawn that still waits in the slot of a port and names a held record (R105). -/
def Withdrawn (p : Port) (ref : Nat) (s : State) : State :=
  if (s.judges.get p).slot = some ref then
    { s with
      judges := s.judges.set p { s.judges.get p with slot := none }
      hold := { s.hold with outstanding := s.hold.outstanding.set p none } }
  else s

/-- The rejudge request of a port that has none: it names the oldest pending first of the port, and stands in the slot
of its Judge (R115). -/
def Requested (p : Port) (s : State) : State :=
  match s.hold.outstanding.get p, s.hold.records.find? fun r => r.isFirst && r.pending && r.port == p with
  | none, some r => { s with
      judges := s.judges.set p { s.judges.get p with slot := some r.ref }
      hold := { s.hold with outstanding := s.hold.outstanding.set p (some ⟨r.ref, false⟩) } }
  | _, _ => s

/-- What a commit makes of the request of a port (R113): one that still waits in the slot of the Judge is withdrawn, and
one that the Judge has taken turns stale. -/
def RequestStaled (p : Port) (s : State) : State :=
  match s.hold.outstanding.get p with
  | none => s
  | some q =>
    if (s.judges.get p).slot = some q.ref then Withdrawn p q.ref s
    else { s with hold := { s.hold with outstanding := s.hold.outstanding.set p (some { q with stale := true }) } }

/-- The commit event at the Hold Queue (R113): every record is pending, and no request of before the commit is good. -/
def CommitMarked (s : State) : State :=
  RequestStaled .f (RequestStaled .n
    { s with hold := { s.hold with records := s.hold.records.map fun r => { r with pending := true } } })

/-- The Judge of a port once it has taken the request in its slot: an IDLE one waits for the table port with the record
named (R20, R23, R41). -/
def SlotTaken (p : Port) (s : State) : Judge :=
  match (s.judges.get p).phase, (s.judges.get p).slot with
  | .idle, some n =>
    match s.hold.records.find? fun r => r.ref == n with
    | some r => { s.judges.get p with
        slot := none
        phase := .waiting
          (.rejudge n ⟨p, sourceOf (s.buffer r.buffer).bytes, classOf (s.buffer r.buffer).bytes⟩) }
    | none => s.judges.get p
  | _, _ => s.judges.get p

/-- What an event leaves of the request of a port and of its Judge: the request that the port had, or the one that R115
places where it had none, in the slot of a busy Judge or taken by an IDLE one; and a Judge that waits may have been
granted the table port at the same event (R20, R24, R115). Nothing is said where an IDLE Judge has a request that names
no held record; no run comes there, since such a request is withdrawn (R105). -/
def RequestLeft (p : Port) (x t : State) : Prop :=
  ((x.judges.get p).phase = .idle → ∀ n, (x.judges.get p).slot = some n → ∃ r ∈ x.hold.records, r.ref = n) →
    t.hold.outstanding.get p = (Requested p x).hold.outstanding.get p ∧
      ∀ j, j = SlotTaken p (Requested p x) → t.judges.get p = j ∨
        ∃ it, j.phase = .waiting it ∧ t.judges.get p = { j with phase := .lookup it x.store.active }

/-! ### What follows an event at once (log 14) -/

/-- The entry written into a row with its parameter record, and the pair out of the Poison Set (R86, R118, R122,
R138). -/
def EntryWritten (b : Bank) (i : Index) (e : StreamEntry) (s : State) : State :=
  { s with
    store := { s.store with
      rows := s.store.rows.set b ((s.store.rows.get b).set i.val ⟨e, []⟩)
      poison := s.store.poison.set b ((s.store.poison.get b).set i.val false) }
    policer := { s.policer with
      params := s.policer.params.set b ((s.policer.params.get b).set i.val ⟨e.ceiling, e.refill, e.valid⟩) } }

/-- What a grant to the Agent writes: the shadow row of a WRITE_ENTRY in execution (R138), nothing for any other
command. -/
def WrittenAtGrant (s : State) : State :=
  match s.agent.exec with
  | some ⟨_, .writeEntry i e⟩ => EntryWritten (otherBank s.store.active) i e s
  | _ => s

/-- `t` is `x` but for the port, the requests, the grant counts and the Judges' phases and slots. -/
def WithRequests (x t : State) : Prop :=
  t = { x with
    store := { x.store with
      port := t.store.port
      agentRequest := t.store.agentRequest
      waitCount := t.store.waitCount
      lastJudge := t.store.lastJudge }
    judges :=
      ⟨{ x.judges.n with phase := t.judges.n.phase, slot := t.judges.n.slot },
        { x.judges.f with phase := t.judges.f.phase, slot := t.judges.f.slot }⟩
    hold := { x.hold with outstanding := t.hold.outstanding } }

/-- `t` is `x` but for what the arbiter, the Judges' phases and slots and the rejudge requests do at the same
event. The Agent's request, once granted, is gone, and a WRITE_ENTRY has then written its row (R138). -/
def ButForRequests (x t : State) : Prop :=
  (t.store.agentRequest = true → x.store.agentRequest = true) ∧
    WithRequests (if x.store.agentRequest = true ∧ t.store.agentRequest = false then WrittenAtGrant x else x) t

/-- `t` is what follows of `x` where only the arbiter, the rejudge requests and the Judges that take them have something
to do at the same event: it is `x` but for these, each port has the request that `RequestLeft` says, and nothing more
follows, so that a free table port has been granted where a request for it is pending (log 14). -/
def FollowsOnly (x t : State) : Prop := ButForRequests x t ∧ (∀ p, RequestLeft p x t) ∧ Settled t

/-- No tick, boundary or deadline is still to be taken: what the Calendar handed on has been taken and no
hold or bind deadline is reached. -/
def NothingOutstanding (s : State) : Prop :=
  s.cal.refillTick = false ∧ s.cal.scrubTick = false ∧ s.cal.secondDue = false ∧ s.cal.windowMinute = none ∧
    s.cal.commitMinute = none ∧
    (∀ r ∈ s.hold.records, ∀ f, r.firstPart = some f → atOrBefore f.deadline s.cal.uptime = false) ∧
    (∀ p c, (s.judges.get p).bind = some c → c.reached = false →
      atOrBefore c.deadline s.cal.uptime = false) ∧ Settled s

/-- The sub-seconds of a day that have passed (section 4.1). -/
def Calendar.subOfDay (c : Calendar) : Nat := c.secondOfDay.val * 1024 + c.sub.val

/-- The Calendar a tick later: the time of day, the day and the weekday advance together, the uptime advances round
its wrap, the edge divider starts anew, and a pending switch brings the source back to REFERENCE; the quality, the
Monitor's state and what it has seen of the edges stay (R56 to R59, R63). -/
def Ticked (c d : Calendar) : Prop :=
  d.subOfDay = (c.subOfDay + 1) % 88473600 ∧
    (c.subOfDay + 1 < 88473600 → d.day = c.day ∧ d.weekday = c.weekday) ∧
    (c.subOfDay + 1 = 88473600 → d.day = c.day + 1 ∧ d.weekday.val = (c.weekday.val + 1) % 7) ∧
    d.uptime = c.uptime + 1 ∧ d.divider = 0 ∧ d.quality = c.quality ∧ d.monitor = c.monitor ∧
    d.edgeSeen = c.edgeSeen ∧
    (c.switchPending = true → c.source = .fallback →
      d.source = .reference ∧ d.switchPending = false ∧ d.goodEdges = 0) ∧
    (¬(c.switchPending = true ∧ c.source = .fallback) →
      d.source = c.source ∧ d.switchPending = c.switchPending ∧ d.goodEdges = c.goodEdges)

/-- The Calendar after a loss of the reference declared in PRESENT (R61). -/
def Lost (c : Calendar) : Calendar :=
  { c with
    monitor := .absent
    goodEdges := 0
    switchPending := false
    source := .fallback
    divider := 0
    edgeSeen := false
    quality := if c.quality = .nominal then .degraded else c.quality }

/-- No event of before a reset is handed on, and the uptime counts from 0 (R70). -/
def Restarted (c : Calendar) : Calendar :=
  { c with
    uptime := 0
    refillTick := false
    scrubTick := false
    secondDue := false
    windowMinute := none
    commitMinute := none }

/-- A telegram in judgement that is no second, in a settled gate (log 14): a plain one with the context closed, or
the first of the open context. -/
def OwnInHand (p : Port) (b : BufId) (role : JudgedAs) (arrivals : List BufId) (slot : Option Nat)
    (bind : Option BindContext) (key : LookupKey) (bank : Bank) (s : State) : Prop :=
  s.judges.get p = ⟨arrivals, slot, bind, .lookup (.telegram b role key) bank⟩ ∧ s.store.port = .judge p ∧
    Settled s ∧ (role = .plain ∧ bind = none ∨ role = .first ∧ bind ≠ none)

/-- The same state with what a telegram's conclusion does to the context it opened: its outcome and particulars are
written; where the deadline has been reached and no arrival came in time, the binding then ends by that outcome, as
`broken` says (R40, R45, R47, R52). Nothing where no context is open. -/
def FirstConcluded (p : Port) (l : List Byte) (o : BindOutcome) (index : Option Index) (broken : State → State)
    (s : State) : State :=
  match (s.judges.get p).bind with
  | none => s
  | some c =>
    if c.reached = true ∧ ∀ a ∈ (s.judges.get p).arrivals, atOrBefore (s.buffer a).desc.uptime c.deadline = false
    then broken { s with judges := s.judges.set p { s.judges.get p with bind := none } }
    else { s with judges := s.judges.set p { s.judges.get p with
      bind := some { c with outcome := o, particulars := some ⟨destOf l, classOf l, index⟩ } } }

/-- The Judge of a port has taken the rejudge request of a record: its slot is empty, and the request waits for the
table port or has been granted it (R20, R41). -/
def RequestTaken (p : Port) (r : HeldRecord) (t : State) : Prop :=
  (t.judges.get p).slot = none ∧ ∀ it : Item,
    it = .rejudge r.ref ⟨p, sourceOf (t.buffer r.buffer).bytes, classOf (t.buffer r.buffer).bytes⟩ →
    (t.judges.get p).phase = .waiting it ∨ (t.judges.get p).phase = .lookup it t.store.active

/-- A record that a rejudge request of a port may name: a pending first of that port (R115). -/
def Requestable (p : Port) (r : HeldRecord) : Prop := r.isFirst = true ∧ r.pending = true ∧ r.port = p

/-- A rejudge request stands ahead of a Judge's arrivals at the end of a judgement: the one in its slot, which names a
held record, or one that the Hold Queue places at the same event, since the port has none (R20, R115). -/
def RequestAhead (p : Port) (s : State) : Prop :=
  (∃ r ∈ s.hold.records, (s.judges.get p).slot = some r.ref) ∨
    s.hold.outstanding.get p = none ∧ ∃ r ∈ s.hold.records, Requestable p r

/-- No port without an outstanding request has a record that one may name (R115). -/
def NoRequestDue (s : State) : Prop :=
  ∀ q, s.hold.outstanding.get q = none → ∀ r ∈ s.hold.records, ¬Requestable q r

/-- A Judge that has ended its judgement and takes the oldest telegram of its arrival list, with the others left:
checks 1 and 2, which are the disposal of one to the own address, or the bind test (R20 to R23, R46). -/
def OldestTaken (p : Port) (b : BufId) (rest : List BufId) (s : State) : State :=
  let idle : State := { s with judges := s.judges.set p { s.judges.get p with arrivals := rest, phase := .idle } }
  if destOf (s.buffer b).bytes = s.ownAddr then disposeOwn p b idle else bindTest p b idle

/-- The end of a judgement: `z` is what its verdict makes, with the port and the Judge still as they were. With nothing
in the arrival list, or a request ahead of it, the Judge is IDLE or takes that request, and nothing but requests
follows; else the Judge takes the oldest arrival, and what follows of that follows at the same event (R20, log 14). -/
def Concludes (p : Port) (z t : State) : Prop :=
  ((z.judges.get p).arrivals = [] ∨ RequestAhead p z →
    FollowsOnly { z with judges := z.judges.set p { z.judges.get p with phase := .idle } } t) ∧
    ∀ b rest, (z.judges.get p).arrivals = b :: rest → (z.judges.get p).slot = none → NoRequestDue z →
      ∃ n ≤ 2, t = settleFor (Config.settleBound - n)
        (OldestTaken p b rest { z with store := { z.store with port := .closing } })

/-- The request of a port has ended (R115). -/
def RequestEnded (p : Port) (s : State) : State :=
  { s with hold := { s.hold with outstanding := s.hold.outstanding.set p none } }

/-- At the end of a request the oldest record that a request of the port may name is requested and the Judge has
taken it; where there is none, the port has no request, and its Judge goes on to its arrivals or is IDLE (R20, R115). -/
def NextRequested (p : Port) (arrivals : List BufId) (t : State) : Prop :=
  ((∀ r ∈ t.hold.records, ¬Requestable p r) →
    t.hold.outstanding.get p = none ∧ (t.judges.get p).slot = none ∧
      (arrivals = [] → (t.judges.get p).phase = .idle)) ∧
    ∀ older r younger, t.hold.records = older ++ r :: younger → Requestable p r → (∀ q ∈ older, ¬Requestable p q) →
      t.hold.outstanding.get p = some ⟨r.ref, false⟩ ∧ RequestTaken p r t

/-- A telegram in judgement as the second of a binding; telegrams may wait behind it, and a rejudge request in the slot
(R46, R115; log 14). -/
def SecondInHand (p : Port) (b : BufId) (role : JudgedAs) (arrivals : List BufId) (slot : Option Nat)
    (key : LookupKey) (bank : Bank) (s : State) : Prop :=
  s.judges.get p = ⟨arrivals, slot, none, .lookup (.telegram b role key) bank⟩ ∧ s.store.port = .judge p ∧ Settled s

/-- A rejudge in judgement, with the telegrams that wait behind it, in a settled gate (log 14). -/
def RejudgeInHand (p : Port) (n : Nat) (arrivals : List BufId) (bind : Option BindContext) (key : LookupKey)
    (bank : Bank) (s : State) : Prop :=
  s.judges.get p = ⟨arrivals, none, bind, .lookup (.rejudge n key) bank⟩ ∧ s.store.port = .judge p ∧ Settled s ∧
    RefsDistinct s

/-- The state after the reads of a lookup: the corrected-on-read count, and the free values drawn. -/
def afterReads (w : Walk) (s : State) : State :=
  { s with store := { s.store with corrected := satPlus s.store.corrected w.corrected }, draws := w.draws }

/-! ### The resets (R17, R70, R85, R99, R136, R143, R151) -/

/-- A row that reads clean: it is not poisoned and no stored bit of it is changed (R118, R121). -/
abbrev RowClean (b : Bank) (i : Index) (s : State) : Prop :=
  s.store.poisoned b i = false ∧ (s.store.row b i).changed = []

/-- A row that a read finds correctable: some word has one changed bit, and none has more (R119). -/
abbrev RowCorrectable (b : Bank) (i : Index) (s : State) : Prop :=
  s.store.poisoned b i = false ∧ (∀ w, wordErrors (s.store.row b i) w ≤ 1) ∧
    ∃ w, wordErrors (s.store.row b i) w = 1

/-- A row that a read finds uncorrectable: some word has two changed bits (R119). -/
abbrev RowUncorrectable (b : Bank) (i : Index) (s : State) : Prop :=
  s.store.poisoned b i = false ∧ ∃ w, wordErrors (s.store.row b i) w = 2

/-- A poisoned pair's marks at the Table Store and the Policer (R86, R97, R120, R121). -/
def Poisoned (b : Bank) (i : Index) (s : State) : State :=
  { s with
    store := { s.store with
      poison := s.store.poison.set b ((s.store.poison.get b).set i.val true)
      uncorrectable := if s.store.uncorrectable = 65535 then 65535 else s.store.uncorrectable + 1 }
    policer := { s.policer with
      params := s.policer.params.set b
        ((s.policer.params.get b).set i.val ⟨(s.param b i).ceiling, (s.param b i).refill, false⟩)
      streams := if b = s.store.active
        then s.policer.streams.set i.val
          ⟨0, (s.stream i).passed, (s.stream i).refused, (s.stream i).held⟩
        else s.policer.streams } }

/-- The Scrubber's step in progress is at this place: the first from the walk pointer on that is not poisoned (R132). -/
def ScrubsRow (b : Bank) (i : Index) (s : State) : Prop :=
  s.store.port = .scrub ∧ s.store.poisoned b i = false ∧
    ∃ k : Fin 512, placePair (s.store.pointer + k) = (b, i) ∧
      ∀ j < k, s.store.poisoned (placePair (s.store.pointer + j)).1 (placePair (s.store.pointer + j)).2 = true

/-- The management access in progress reads this row, and a pair found uncorrectable there joins the Poison Set (R141,
R158, R159). -/
def AgentReadsRow (b : Bank) (i : Index) (s : State) : Prop :=
  ∃ a x, s.store.port = .agent a ∧ s.agent.exec = some x ∧
    ((∃ role, x.job = .readEntry role i ∧ b = if role then a else otherBank a) ∨
      (∃ more results, x.job = .readStream i more results ∧ b = a) ∨ ∃ n, x.job = .copy i n ∧ b = a)

/-- What a read of a row may find: the entry of a clean or correctable row; none where the pair is poisoned or the row
is uncorrectable. What it finds of a row with a word of three or more changed bits is free (R118, R119, R121, R122;
log 11). -/
def ReadsAs (b : Bank) (i : Index) (s : State) (e : Option StreamEntry) : Prop :=
  (RowClean b i s ∨ RowCorrectable b i s → e = some (s.store.row b i).entry) ∧
    (s.store.poisoned b i = true ∨ RowUncorrectable b i s → e = none)

/-- A row written whole with a parameter record, the pair out of the Poison Set (R86, R118, R122). -/
def RowWritten (b : Bank) (i : Index) (e : StreamEntry) (r : ParamRecord) (s : State) : State :=
  { s with
    store := { s.store with
      rows := s.store.rows.set b ((s.store.rows.get b).set i.val ⟨e, []⟩)
      poison := s.store.poison.set b ((s.store.poison.get b).set i.val false) }
    policer := { s.policer with params := s.policer.params.set b ((s.policer.params.get b).set i.val r) } }

/-- A pair joins the Poison Set where it is no member yet (R121). -/
def JoinedAt (b : Bank) (i : Index) (s : State) : State := if s.store.poisoned b i then s else Poisoned b i s

/-- What an access abandoned at a reset may have done: nothing; the write-back of a scrub step; the join that its read
found; or the row write of the command in execution, which is the row of the shadow blank (CLEAR_SHADOW), INVALID as
read or blank (INVALIDATE_ENTRY), or as the active row reads or blank, with the join found there (COPY_ACTIVE_TO_SHADOW).
WRITE_ENTRY has written at its grant (R86, R118, R121, R128, R132, R138 to R142; which of them is a free value, log 13).
-/
def AbandonedAs (s u : State) : Prop :=
  u = s ∨
    (∃ b i e, ScrubsRow b i s ∧ ReadsAs b i s (some e) ∧
      u = { s with store := { s.store with
        rows := s.store.rows.set b ((s.store.rows.get b).set i.val ⟨e, []⟩) } }) ∨
    (∃ b i, (ScrubsRow b i s ∨ AgentReadsRow b i s) ∧ ReadsAs b i s none ∧ u = JoinedAt b i s) ∨
    ∃ a x i, s.store.port = .agent a ∧ s.agent.exec = some x ∧ ∀ kept, kept = s.param (otherBank a) i →
      (x.job = .clear i ∧ u = RowWritten (otherBank a) i blankEntry { kept with usable := false } s) ∨
      (∃ e, x.job = .invalidate i ∧ ReadsAs (otherBank a) i s e ∧
        u = RowWritten (otherBank a) i (match e with
          | some e => { e with valid := false }
          | none => blankEntry) { kept with usable := false } s) ∨
      ∃ n e, x.job = .copy i n ∧ ReadsAs a i s e ∧ u = match e with
        | some e => RowWritten (otherBank a) i e (s.param a i) s
        | none => RowWritten (otherBank a) i blankEntry { s.param a i with usable := false } (JoinedAt a i s)

/-- A reset leaves the rows, the Poison Set and the parameter records of both banks as they were, but for what the
access that it abandons has done. -/
def TableLeft (s t : State) : Prop :=
  ∃ u, AbandonedAs s u ∧ t.store.rows = u.store.rows ∧ t.store.poison = u.store.poison ∧
    t.policer.params = u.policer.params

/-- What a pin or command reset leaves, apart from the Calendar; of the row that a management or scrub access was at,
what TableLeft says (log 13). -/
def WarmResetLeaves (cause : ResetCause) (s t : State) : Prop :=
  t.pool.free = List.finRange 64 ∧ t.rx = State.reset.rx ∧ t.tx = State.reset.tx ∧
    t.judges = State.reset.judges ∧ t.hold = { State.reset.hold with nextRef := s.hold.nextRef } ∧
    t.exc = State.reset.exc ∧ t.agent = { State.reset.agent with lastReset := cause } ∧
    t.commit = ⟨.idle, s.commit.count⟩ ∧
    t.ownAddr = 0xF000#16 + t.straps.setWidth 16 ∧
    t.policer.timer = .stopped ∧ t.policer.count = 0 ∧ t.windows.records = s.windows.records ∧
    t.windows.openSets = allOpenSets s.windows t.cal.mark t.cal.quality ∧
    t.store = { State.reset.store with
      rows := t.store.rows
      poison := t.store.poison
      active := s.store.active
      phase := match s.store.phase with
        | .ready => .ready
        | .initializing _ => .initializing 0
      port := match s.store.phase with
        | .ready => .free
        | .initializing _ => .sweep } ∧
    (s.store.phase = .ready → ∀ i, t.stream i = ⟨if (t.param s.store.active i).usable
      then (t.param s.store.active i).ceiling else 0, 0, 0, 0⟩) ∧
    (s.store.phase ≠ .ready → ∀ i, t.stream i = ⟨0, 0, 0, 0⟩) ∧
    (s.store.port ≠ .scrub → (∀ a, s.store.port ≠ .agent a) →
      t.store.rows = s.store.rows ∧ t.store.poison = s.store.poison ∧
        t.policer.params = s.policer.params) ∧
    TableLeft s t ∧ t.pending = s.pending

/-! ### A gate ready for a command telegram -/

/-- A telegram on this port finds its Receive Unit at rest, a buffer at the head of the free list, its Judge
and the Agent IDLE, the store READY, and nothing outstanding; check 1 lets its class 15 through. -/
def CommandReady (h : CmdHead) (b : BufId) (rest : List BufId) (s : State) : Prop :=
  ((s.rx.get h.port).phase = .settling ∨ (s.rx.get h.port).phase = .ready) ∧
    s.pool.free = b :: rest ∧ h.source ≠ 0xFFFF ∧ (s.judges.get h.port).phase = .idle ∧
    commandAdmitted s.agent.settings h.port 15 = true ∧ s.store.phase = .ready ∧
    s.agent.exec = none ∧ s.agent.inbox = [] ∧ (∀ i, s.commit.phase ≠ .due i) ∧
    EachBufferInOnePlace s ∧ Settled s

/-- The command passes the privilege test against a floor (R153). -/
def Privileged (h : CmdHead) (floor : BitVec 2) (s : State) : Prop :=
  (effectivePriv s.agent.settings h.port h.priv).toNat ≤ floor.toNat

/-- The normal list of the port has room for the response (R13). -/
def RoomToAnswer (h : CmdHead) (s : State) : Prop := (s.tx.get h.port).normal.length < 16

/-- A READ class command is executed and its response is taken. -/
def CanRead (h : CmdHead) (b : BufId) (rest : List BufId) (s : State) : Prop :=
  CommandReady h b rest s ∧ Privileged h s.agent.settings.readFloor s ∧ RoomToAnswer h s

/-- A WRITE class command is executed and its response is taken. -/
def CanWrite (h : CmdHead) (b : BufId) (rest : List BufId) (s : State) : Prop :=
  CommandReady h b rest s ∧ Privileged h s.agent.settings.writeFloor s ∧ RoomToAnswer h s

/-- The Receive Units after a command telegram: the unit of its port is SETTLING with one more good reception;
its check sum and its framing are what the telegram left (R5, R11, R15). -/
def Received (h : CmdHead) (s t : State) : Prop :=
  t.rx = s.rx.set h.port { s.rx.get h.port with
    phase := .settling
    good := (s.rx.get h.port).good + 1
    sum := (t.rx.get h.port).sum
    tail := (t.rx.get h.port).tail
    framing := (t.rx.get h.port).framing }

/-- The response of a command stands in its buffer and is on the normal list of its port, or on the line if
the Transmit Unit was free (R13, R14, R156). -/
def Answered (h : CmdHead) (b : BufId) (code : Byte) (status : Status) (results : List Byte)
    (s t : State) : Prop :=
  (t.buffer b).bytes = composed h.source s.ownAddr h.seq (code :: status.code :: results) ∧
    txLine (t.buffer b) = (t.buffer b).bytes ++ be16 (crc (t.buffer b).bytes) ∧
    (∀ c, c ≠ b → t.buffer c = s.buffer c) ∧
    t.tx = s.tx.set h.port (startTx t.buffer (listAdd (s.tx.get h.port) .normal b))

/-- A command telegram is executed and answered in the one step, its buffer going to the Transmit Unit; every
block but the pool, the Receive and Transmit Units is as in `x`. -/
def CompletesAs (c : Instr) (h : CmdHead) (b : BufId) (rest : List BufId) (code : Byte) (status : Status)
    (results : List Byte) (s x : State) : Prop :=
  ∃ t, exec c s = .next t ∧ Received h s t ∧ Answered h b code status results s t ∧
    t.pool.free = rest ∧ t = { x with pool := t.pool, rx := t.rx, tx := t.tx }

/-- The same state after the reload that every executed command makes at its beginning (R166). -/
def Reloaded (s : State) : State :=
  { s with agent := { s.agent with
      supervision :=
        if s.agent.settings.supervisionPeriod = 0 then ⟨.disabled, 0⟩
        else ⟨.counting, ⟨s.agent.settings.supervisionPeriod.toNat + 1, by omega⟩⟩ } }

/-- So many conclusions of management accesses, one after another (R124). -/
def ByAccesses : Nat → State → State → Prop
  | 0, s, t => s = t
  | n + 1, s, t => ∃ u, exec .managementAccess s = .next u ∧ ByAccesses n u t

/-- A command that makes `n` table accesses is begun, its accesses are granted and concluded, and it is answered
at the last of them; every block but the pool, the Receive and Transmit Units is as in `x` (R124, R155). -/
def CompletesAfter (n : Nat) (c : Instr) (h : CmdHead) (b : BufId) (rest : List BufId) (code : Byte)
    (status : Status) (results : List Byte) (s x : State) : Prop :=
  ∃ t u, exec c s = .next t ∧ ByAccesses n t u ∧ Received h s u ∧
    Answered h b code status results s u ∧ u.pool.free = rest ∧
    u = { x with pool := u.pool, rx := u.rx, tx := u.tx }

/-- A SET_CONFIG is accepted (R161): the configuration set is the one given, and the response carries the
setting, its value before and its value after. -/
def Accepts (c : Instr) (h : CmdHead) (b : BufId) (rest : List BufId) (code : Byte) (before after : List Byte)
    (new : Settings) (s : State) : Prop :=
  CompletesAs c h b rest 0x10 .done (code :: before ++ after) s
    { Reloaded s with agent := { (Reloaded s).agent with settings := new } }

/-- A command is answered with a status that says it had no effect: the reload is made and nothing more (R155,
R161, R166). -/
def AnswersOnly (c : Instr) (h : CmdHead) (b : BufId) (rest : List BufId) (code : Byte) (status : Status)
    (s : State) : Prop :=
  CompletesAs c h b rest code status [] s (Reloaded s)

/-- How many argument bytes each command takes (section 12.2), but for READ_STREAM_STATUS, which takes 1 to 8. -/
def argumentLengths : List (Byte × Nat) :=
  [(0x01, 0), (0x02, 2), (0x03, 2), (0x05, 10), (0x06, 0), (0x07, 23), (0x08, 1), (0x09, 11), (0x0A, 0), (0x0B, 0),
    (0x0C, 0), (0x0D, 4), (0x0E, 0), (0x0F, 6), (0x10, 4), (0x11, 1), (0x12, 2), (0x13, 1), (0x14, 1), (0x15, 2),
    (0x16, 0)]

/-- A row's entry matches a lookup's fields (R25). -/
def RowMatches (b : Bank) (k : LookupKey) (s : State) (i : Index) : Prop :=
  (s.store.row b i).entry.valid = true ∧
    (match k.port with
      | .n => (s.store.row b i).entry.portN
      | .f => (s.store.row b i).entry.portF) = true ∧
    (s.store.row b i).entry.srcLow.toNat ≤ k.source.toNat ∧
    k.source.toNat ≤ (s.store.row b i).entry.srcHigh.toNat ∧
    (s.store.row b i).entry.classes.getLsbD k.cls.toNat = true

/-- The framed length of a telegram (R3): 9, plus 2 plus the length byte of each option, plus the payload length,
plus 2. -/
def framedLength (t : List Byte) : Nat :=
  9 + ((optionsOf t).map fun o => 2 + o.length.toNat).sum + payloadLengthOf t + 2

/-- A telling of the flag sends no Report: it is set, or its report enable or the report address is not (R174, R177). -/
def SendsNoReport (f : Flag) (s : State) : Prop :=
  s.exc.flags.getLsbD f.bit = true ∨ s.agent.settings.reportEnables.getLsbD f.bit = false ∨
    s.agent.settings.reportAddress = none

/-- The scans of `t` are what the windows of a bank that have opened since `s` make of those of `u` (R80, R106): the
windows-opened event carries them; where none has opened there is no event. -/
def ScansAfterOpenings (bank : Bank) (s u t : State) : Prop :=
  ∀ opened, opened = t.windows.openSets.get bank &&& ~~~(s.windows.openSets.get bank) →
    ∀ h : HoldQueue, h = (if opened = 0 then u.hold else (trigger (.window bank opened) u).hold) →
      t.hold.scan = h.scan ∧ t.hold.waiting = h.waiting

/-- The records a scan would choose, oldest first (R106, R107). -/
def chosenOf (k : ScanKind) (l : List HeldRecord) : List Nat := (l.filter (scanTakes k)).map (·.ref)

/-- The bytes of a telegram from its start marker through its last payload byte, by the places of section 12.1; an
option is a kind byte, a length byte and its value. -/
def telegramBytes (dest source : Addr) (five six seq size : Byte) (options : List (Byte × List Byte))
    (payload : List Byte) : List Byte :=
  0xD3#8 :: be16 dest ++ be16 source ++ [five, six, seq, size] ++
    (options.flatMap fun o => o.1 :: BitVec.ofNat 8 o.2.length :: o.2) ++ payload

/-- The options of a telegram that has no form error there: as many as header byte 6 says, no kind twice, each of its
kind's length (R2, R8, R179). -/
def OptionsInForm (six : Byte) (options : List (Byte × List Byte)) : Prop :=
  options.length = (six.extractLsb' 0 3).toNat ∧ (options.map Prod.fst).Nodup ∧
    ∀ o ∈ options, (o.1 = 0x01 ∧ o.2.length = 8) ∨ (o.1 = 0x02 ∧ o.2.length = 2) ∨ (o.1 = 0x03 ∧ o.2.length = 0)

/-- The bytes of a buffer in FILLING with one more byte: the first 256 are stored (R3, R6). -/
def storedBytes (x : Buffer) (b : Byte) : List Byte :=
  if x.bytes.length < 256 then x.bytes ++ [b] else x.bytes

/-- The header store of a void reception with one more byte: the first 9 are kept (R5). -/
def keptHeader (u : RxUnit) (b : Byte) : List Byte :=
  if u.header.length < 9 then u.header ++ [b] else u.header

/-- The last two bytes of a reception with one more byte: at its end, the received check word. -/
def lastTwo (u : RxUnit) (b : Byte) : BitVec 16 := (u.tail <<< 8) ||| b.setWidth 16

/-- A buffer's contents replaced in the pool. -/
def poolWith (s : State) (b : BufId) (x : Buffer) (free : List BufId) : Pool :=
  ⟨s.pool.buffers.set b.val x, free⟩

/-- A telegram's buffer freed, its record handed over with what it was received with, and the refused count of its
index, if it has one (R38, R39). -/
def Dropped (p : Port) (b : BufId) (l : List Byte) (reason : Reason) (index : Option Index) (s : State) :
    State :=
  countRefused index (handOver
    ⟨reason, p, some (sourceOf l), some (destOf l), some (classOf l), index⟩
    { s with pool := ⟨s.pool.buffers, s.pool.free ++ [b]⟩ })

/-- A held record out for a reason: it leaves its place, its buffer returns, and its record is handed over with what
it was received with and an index (R50, R55, R105). -/
def TakenOut (reason : Reason) (index : Option Index) (r : HeldRecord) (s : State) : State :=
  handOver ⟨reason, r.port, some (sourceOf (s.buffer r.buffer).bytes), some r.dest,
      some (classOf (s.buffer r.buffer).bytes), index⟩
    { s with
      hold := { s.hold with records := s.hold.records.filter fun q => q.ref != r.ref }
      pool := ⟨s.pool.buffers, s.pool.free ++ [r.buffer]⟩ }

/-- The same state with the binding of the Judge of a port closed where it refers to a held record (R53). -/
def Unbound (p : Port) (ref : Nat) (s : State) : State :=
  { s with judges := s.judges.set p { s.judges.get p with
      bind := match (s.judges.get p).bind with
        | some c => if c.outcome = .held ref then none else some c
        | none => none } }

/-- A removal of a first record, in the order of R105: it is taken out for the reason, its partner BOUND_BROKEN, the
binding of one that awaits its partner closes, and a request that names it is withdrawn. -/
def Removed (reason : Reason) (r : HeldRecord) (s : State) : State :=
  let first := TakenOut reason r.index r s
  let pair := match first.hold.records.find? fun q => r.partnerRef == some q.ref with
    | some q => TakenOut .boundBroken q.index q first
    | none => first
  Withdrawn r.port r.ref (if r.awaiting then Unbound r.port r.ref pair else pair)

/-- The removal of every first record a test picks, one after another in hold order (R105, R109, R111, R112). -/
def AllRemoved (reason : Reason) (pick : HeldRecord → FirstPart → Bool) (s : State) : State :=
  (s.hold.records.filter fun r => match r.role with
    | .first f => pick r f
    | .partner _ => false).foldl (fun u r => Removed reason r u) s

/-- The requests that follow at the event of a removal in a settled gate: those in place of the withdrawn ones (R115;
log 14). -/
def RequestsPlaced (s : State) : State := Requested .f (Requested .n s)

/-! ### The bindings of held firsts (R48 to R53) -/

/-- The held records that the Judge of a port refers to: by its bind context, or by the second in judgement. -/
def heldByJudge (j : Judge) : List Nat :=
  (match j.bind with
    | some c => match c.outcome with
      | .held n => [n]
      | .pending => []
      | .passed _ => []
      | .refused => []
    | none => []) ++
    match j.phase with
    | .waiting (.telegram _ (.secondHeld n _) _) => [n]
    | .lookup (.telegram _ (.secondHeld n _) _) _ => [n]
    | _ => []

/-- No two references of the Judges are to one record, none is to a number not given out, and each record
referred to, if it is still held, is a first without a partner that awaits one; so is every first that awaits
one. -/
def BindingsSound (s : State) : Prop :=
  (heldByJudge s.judges.n ++ heldByJudge s.judges.f).Nodup ∧
    (∀ n ∈ heldByJudge s.judges.n ++ heldByJudge s.judges.f, n < s.hold.nextRef ∧
      ∀ r ∈ s.hold.records, r.ref = n → r.awaiting = true) ∧
    ∀ r ∈ s.hold.records, r.awaiting = true → r.partnerRef = none

/-- A management access belongs to a command in execution, whose request is placed no more, and one that modifies the
shadow was granted under the present selector (R123, R124, R147). -/
def AgentAccessSound (s : State) : Prop :=
  (∀ a, s.store.port = .agent a → s.store.agentRequest = false ∧ ∃ x, s.agent.exec = some x ∧
      (x.job.modifiesShadow = true → a = s.store.active)) ∧
    (s.store.agentRequest = true → s.agent.exec ≠ none)

end Sys2Proof.Machine
end

