-- ==== Sys2Proof/WellFormed.lean ====
section
/-! DEFINITION. The commands the outside can send: field ranges of a telegram (section 1.2) and of the
events of REFIN. Arguments out of their ranges are well formed: the gate answers them BAD_ARGUMENT (R155). -/

namespace Sys2Proof

/-- A source address names a station: 0x0000..0xFFFE (section 1.2). -/
def CmdHead.wf (h : CmdHead) : Bool := h.source != 0xFFFF

/-- A payload has at most 200 bytes (section 1.2). -/
def payloadFits (l : List Byte) : Bool := decide (l.length ≤ 200)

/-- A payload whose code names no command, or an empty one (R153, section 12.2). -/
def namesNoCommand (l : List Byte) : Bool :=
  match l with
  | [] => true
  | code :: _ => code == 0 || decide (0x16 < code.toNat)

/-- Two edges of REFIN are apart. -/
def intervalWf (ns : Nat) : Bool := decide (0 < ns)

/-- An event met while RST_N is low. -/
def CalEvent.wf (e : CalEvent) : Bool :=
  match e with
  | .edge ns => intervalWf ns
  | .tick => true
  | .loss _ => true
  | .stretch => true

/-- Whether a command is one the outside can send. -/
def Instr.wf (i : Instr) : Bool :=
  match i with
  | .receptionStart _ => true
  | .silenceSettled _ => true
  | .truncation _ => true
  | .voidReceptionEnd _ _ => true
  | .receptionEnd _ _ => true
  | .transmissionComplete _ => true
  | .spacingEnd _ => true
  | .powerOnReset _ => true
  | .pinReset _ meanwhile => meanwhile.all CalEvent.wf
  | .sweepWrite => true
  | .tick _ => true
  | .secondBoundary _ => true
  | .minuteBoundary _ => true
  | .referenceLoss _ => true
  | .referenceQualified => true
  | .holdExpiry => true
  | .bindDeadline _ => true
  | .refillPulse => true
  | .refill => true
  | .scrubIntervalExpiry => true
  | .scrubStep => true
  | .supervisionLapse _ => true
  | .lookupConclusion _ _ => true
  | .scanEvaluation => true
  | .managementAccess => true
  | .unknownCommand h payload => h.wf && payloadFits payload && namesNoCommand payload
  | .readStatus h => h.wf
  | .readEntry h _ _ => h.wf
  | .readWindow h _ _ => h.wf
  | .readStreamStatus h indexes => h.wf && payloadFits (0x04 :: indexes)
  | .probe h _ _ _ _ _ _ _ => h.wf
  | .keepalive h => h.wf
  | .writeEntry h _ _ => h.wf
  | .invalidateEntry h _ => h.wf
  | .writeWindow h _ _ => h.wf
  | .copyActiveToShadow h => h.wf
  | .clearShadow h => h.wf
  | .commitNow h => h.wf
  | .scheduleCommit h _ _ => h.wf
  | .cancelCommit h => h.wf
  | .setTime h _ _ _ _ _ => h.wf
  | .defaultVerdict h _ _ => h.wf
  | .floorN h _ _ => h.wf
  | .floorF h _ _ => h.wf
  | .readFloor h _ _ => h.wf
  | .writeFloor h _ _ => h.wf
  | .nearManagement h _ _ => h.wf
  | .bindLimit h _ _ => h.wf
  | .scrubInterval h _ _ => h.wf
  | .urgentLevel h _ _ => h.wf
  | .refillPreset h _ _ => h.wf
  | .refillSource h _ _ => h.wf
  | .supervisionPeriod h _ _ => h.wf
  | .holdHighMark h _ _ => h.wf
  | .reportAddress h _ _ => h.wf
  | .alertPinEnables h _ _ => h.wf
  | .reportEnables h _ _ => h.wf
  | .start h => h.wf
  | .pause h => h.wf
  | .stop h => h.wf
  | .restart h => h.wf
  | .clearStreamCounters h _ _ => h.wf
  | .drainExceptions h _ => h.wf
  | .clearAlerts h _ => h.wf
  | .flushHold h _ _ => h.wf
  | .reset h _ => h.wf
  | .byteArrival _ _ => true
  | .refinRisingEdge interval => intervalWf interval
  | .noEdgeStretch => true

end Sys2Proof
end

