-- ==== Sys2Proof/Certificates/Slice0/Obligations.lean ====
section
/-! DEFINITION. The statements for the provers: what the rules of spec/ say the commands of the SG240 do. -/

open Sys2Proof Sys2Proof.Machine

/-! ### The machine as a whole -/

/-- A step takes the command at the front of the queue and gives it the queue's rest; every command answers a
next state; an empty queue idles (log 4: the queue is the model's own). -/
def Obligations.StepRunsTheFrontCommand : Prop :=
  (∀ c rest s, s.pending = c :: rest →
      step s = exec c { s with pending := rest } ∧
        ∃ t, exec c { s with pending := rest } = .next t) ∧
    ∀ s : State, s.pending = [] → step s = .next s

/-! ### Chapter 1: the ports -/

/-- The check word of "123456789" is 0x29B1; the sum over a telegram and its own check word is 0; a transmission
sends the bytes but for the last two, and then the check word, high byte first (R4, R14). -/
def Obligations.CheckWordClosesTheSum : Prop :=
  crc [0x31, 0x32, 0x33, 0x34, 0x35, 0x36, 0x37, 0x38, 0x39] = 0x29B1 ∧
    (∀ l : List Byte, crc (l ++ be16 (crc l)) = 0) ∧
    ∀ x : Buffer, txLine x = x.bytes.take (x.desc.length - 2) ++
      [(crc (x.bytes.take (x.desc.length - 2))).extractLsb' 8 8,
        (crc (x.bytes.take (x.desc.length - 2))).extractLsb' 0 8]

/-- A Receive Unit finds the end of a telegram at its framed length and nowhere before, whatever its length bytes
are (R3, R6). -/
def Obligations.FramedLengthEndsTheTelegram : Prop :=
  ∀ t : List Byte, t.length = framedLength t → ∀ n, 1 ≤ n → n ≤ t.length →
    (((t.take n).drop 1).foldl Framing.next framingStart).ended = decide (n = t.length)

/-- The responses of a Receive Unit that end nothing: a silence of 3 byte times and a byte in each state; a start
marker in READY claims the buffer at the head of the free list, and with none free the reception is void (R5, R6,
R12; a byte or a silence acts by the state it meets, and a silence that is not due changes nothing: logs 5, 6). -/
def Obligations.BytesAndSilencesFollowTheUnit : Prop :=
  ∀ p s,
    ((s.rx.get p).phase = .settling →
      exec (.silenceSettled p) s =
        .next { s with rx := s.rx.set p { s.rx.get p with phase := .ready } }) ∧
    ((s.rx.get p).phase ≠ .settling → exec (.silenceSettled p) s = .next s) ∧
    ((s.rx.get p).phase = .settling → ∀ b, exec (.byteArrival p b) s = .next s) ∧
    ((s.rx.get p).phase = .ready → ∀ b, b ≠ 0xD3 →
      exec (.byteArrival p b) s =
        .next { s with rx := s.rx.set p { s.rx.get p with phase := .settling } }) ∧
    ((s.rx.get p).phase = .ready → exec (.byteArrival p 0xD3) s = exec (.receptionStart p) s) ∧
    (∀ buf, (s.rx.get p).phase = .filling buf → ∀ b, ((s.rx.get p).framing.next b).ended = false →
      exec (.byteArrival p b) s = .next { s with
        pool := poolWith s buf ⟨storedBytes (s.buffer buf) b, (s.buffer buf).desc⟩ s.pool.free
        rx := s.rx.set p { s.rx.get p with
          framing := (s.rx.get p).framing.next b
          sum :=
            if ((s.rx.get p).framing.next b).inCheckWord then (s.rx.get p).sum
            else crcByte (s.rx.get p).sum b
          tail := lastTwo (s.rx.get p) b } }) ∧
    ((s.rx.get p).phase = .void → ∀ b, ((s.rx.get p).framing.next b).ended = false →
      exec (.byteArrival p b) s = .next { s with
        rx := s.rx.set p { s.rx.get p with
          framing := (s.rx.get p).framing.next b
          header := keptHeader (s.rx.get p) b } }) ∧
    (∀ b rest, (s.rx.get p).phase = .ready → s.pool.free = b :: rest →
      ∃ t, exec (.receptionStart p) s = .next t ∧ (t.rx.get p).sum = crc [0xD3] ∧
        t = { s with
          pool := poolWith s b ⟨[0xD3], (s.buffer b).desc⟩ rest
          rx := s.rx.set p { s.rx.get p with
            phase := .filling b
            sum := (t.rx.get p).sum
            tail := (t.rx.get p).tail
            framing := framingStart } }) ∧
    ((s.rx.get p).phase = .ready → s.pool.free = [] →
      exec (.receptionStart p) s = .next { s with rx := s.rx.set p { s.rx.get p with
        phase := .void, header := [0xD3], framing := framingStart } })

/-- A silence of more than 4 byte times in FILLING truncates the telegram, wherever in it the silence falls
(R7; that the buffer is back on the free list before a Report which the record raises claims one is the model's order:
log 15). -/
def Obligations.SilenceTruncatesAReception : Prop :=
  ∀ p b s, (s.rx.get p).phase = .filling b →
    exec (.truncation p) s =
      .next (handOver ⟨.truncated, p, none, none, none, none⟩
        { s with
          pool := { s.pool with free := s.pool.free ++ [b] }
          rx := s.rx.set p { s.rx.get p with
            phase := .ready, truncated := (s.rx.get p).truncated + 1 } })

/-- A void reception ends by a silence or by its framed length: the no-buffer counter rises, a NO_BUFFER record
carries the fields whose bytes had all arrived, and no buffer enters the gate (R10). -/
def Obligations.VoidReceptionEndsUncarried : Prop :=
  ∀ p s, (s.rx.get p).phase = .void →
    exec (.voidReceptionEnd p none) s =
      .next (handOver
        ⟨.noBuffer, p,
          if 5 ≤ (s.rx.get p).header.length then some (sourceOf (s.rx.get p).header) else none,
          if 3 ≤ (s.rx.get p).header.length then some (destOf (s.rx.get p).header) else none,
          if 6 ≤ (s.rx.get p).header.length then some (classOf (s.rx.get p).header) else none, none⟩
        { s with rx := s.rx.set p { s.rx.get p with
            phase := .ready, noBuffer := (s.rx.get p).noBuffer + 1 } }) ∧
    ∀ b, ((s.rx.get p).framing.next b).ended = true →
      ∀ l, l = keptHeader (s.rx.get p) b →
      exec (.voidReceptionEnd p (some b)) s =
        .next (handOver
          ⟨.noBuffer, p, if 5 ≤ l.length then some (sourceOf l) else none,
            if 3 ≤ l.length then some (destOf l) else none,
            if 6 ≤ l.length then some (classOf l) else none, none⟩
          { s with rx := s.rx.set p { s.rx.get p with
              phase := .settling
              noBuffer := (s.rx.get p).noBuffer + 1
              framing := (s.rx.get p).framing.next b
              header := l } })

/-- A reception whose check word disagrees is CORRUPT, one with a form error MALFORMED: the buffer returns, the
counter rises, the record is handed over; and which telegrams have a form error (R2, R3, R8, R9, R179;
the return comes before a Report's claim: log 15). -/
def Obligations.BadReceptionIsCountedAndDropped : Prop :=
  (∀ (t : List Byte) (n : Nat), (227 < n → formError t n = true) ∧ (n ≤ 227 → (formError t n = true ↔
    sourceOf t = 0xFFFF ∨ 3 < optionCountOf t ∨ 200 < payloadLengthOf t ∨ (byteAt t 5).getLsbD 0 = true ∨
    7 < (byteAt t 6).toNat ∨ ¬((optionsOf t).map (·.kind)).Nodup ∨
    ∃ o ∈ optionsOf t, ∀ last : Byte, last = byteAt t (o.value + 7) →
      (o.kind ≠ 0x01 ∧ o.kind ≠ 0x02 ∧ o.kind ≠ 0x03) ∨ (o.kind = 0x01 ∧ o.length ≠ 8) ∨
      (o.kind = 0x01 ∧ last.getLsbD 7 = true ∧ (86399 < (tripleAt t (o.value + 2)).toNat ∨
        1023 < (halfAt t (o.value + 5)).toNat ∨ last.extractLsb' 0 2 = 3 ∨ last.extractLsb' 2 5 ≠ 0)) ∨
      (o.kind = 0x02 ∧ (o.length ≠ 2 ∨ 4095 < (halfAt t o.value).toNat)) ∨
      (o.kind = 0x03 ∧ o.length ≠ 0)))) ∧
  ∀ p buf b s, (s.rx.get p).phase = .filling buf → ((s.rx.get p).framing.next b).ended = true →
    ∀ l, l = storedBytes (s.buffer buf) b →
    ((s.rx.get p).sum ≠ lastTwo (s.rx.get p) b →
      exec (.receptionEnd p b) s =
        .next (handOver ⟨.corrupt, p, none, none, none, none⟩ { s with
          pool := poolWith s buf ⟨l, (s.buffer buf).desc⟩ (s.pool.free ++ [buf])
          rx := s.rx.set p { s.rx.get p with
            phase := .settling
            corrupt := (s.rx.get p).corrupt + 1
            framing := (s.rx.get p).framing.next b
            tail := lastTwo (s.rx.get p) b } })) ∧
    ((s.rx.get p).sum = lastTwo (s.rx.get p) b →
      formError l ((s.rx.get p).framing.next b).expected = true →
      exec (.receptionEnd p b) s =
        .next (handOver
          ⟨.malformed, p, some (sourceOf l), some (destOf l), some (classOf l), none⟩ { s with
          pool := poolWith s buf ⟨l, (s.buffer buf).desc⟩ (s.pool.free ++ [buf])
          rx := s.rx.set p { s.rx.get p with
            phase := .settling
            malformed := (s.rx.get p).malformed + 1
            framing := (s.rx.get p).framing.next b
            tail := lastTwo (s.rx.get p) b } }))

/-- The last byte of a well-formed telegram on a port whose Judge is busy: its descriptor takes the arrival time,
quality and uptime, and it waits at the tail of the arrival list (R8, R11). -/
def Obligations.GoodReceptionJoinsTheArrivals : Prop :=
  ∀ p buf b s, (s.rx.get p).phase = .filling buf → ((s.rx.get p).framing.next b).ended = true →
    ∀ l, l = storedBytes (s.buffer buf) b →
    (s.rx.get p).sum = lastTwo (s.rx.get p) b →
    formError l ((s.rx.get p).framing.next b).expected = false →
    (s.judges.get p).phase ≠ .idle → EachBufferInOnePlace s → Settled s →
    exec (.receptionEnd p b) s = .next { s with
      pool := poolWith s buf ⟨l, p, ((s.rx.get p).framing.next b).expected,
        ⟨s.cal.day, s.cal.secondOfDay, s.cal.sub⟩, s.cal.quality, s.cal.uptime⟩ s.pool.free
      rx := s.rx.set p { s.rx.get p with
        phase := .settling
        good := (s.rx.get p).good + 1
        framing := (s.rx.get p).framing.next b
        tail := lastTwo (s.rx.get p) b }
      judges := s.judges.set p { s.judges.get p with
        arrivals := (s.judges.get p).arrivals ++ [buf] } }

/-- The last byte of a well-formed telegram on a port whose Judge is IDLE. To the own address, with the bind context
open or closed: no command is refused MGMT_REFUSED; a command joins the inbox behind the one in execution, or is
refused MGMT_OVERRUN at a full inbox. To any other address: with the context closed it is judged, and one that carries
BOUND opens a context; with it open, the second of a PASSED or HELD first is judged as such and of a REFUSED one is
refused BOUND_BROKEN, the context closed; a telegram of another source, or after the deadline, ends the binding by its
first's outcome and is judged as with the context closed. A telegram that is judged waits for the table port, and is
granted it at the same event where the port is free and the store READY: its Judge is then in LOOKUP on the active
bank. Checks 1 and 2 and the bind test are the same for a telegram that the Judge takes from its arrival list, where a
context opened when its deadline is already reached carries the mark (R8, R11, R20 to R24, R45 to R47, R51, R52, R124,
R125, R135; a return before a Report's claim: log 15). -/
def Obligations.IdleJudgeTakesTheArrival : Prop :=
  (∀ l, boundOf l = (byteAt l 5).getLsbD 1) ∧
  (∀ p b s, ∀ l, l = (s.buffer b).bytes →
    ∀ refused : Reason → State, refused = (fun reason =>
      handOver ⟨reason, p, some (sourceOf l), some (destOf l), some (classOf l), none⟩
        { s with pool := ⟨s.pool.buffers, s.pool.free ++ [b]⟩ }) →
    (classOf l ≠ 15 ∨ (p = .n ∧ s.agent.settings.nearAllowed = false) → disposeOwn p b s = refused .mgmtRefused) ∧
    (classOf l = 15 → p = .f ∨ s.agent.settings.nearAllowed = true →
      (s.agent.inbox.length < 4 → disposeOwn p b s =
        { s with agent := { s.agent with inbox := s.agent.inbox ++ [b] } }) ∧
      (4 ≤ s.agent.inbox.length → disposeOwn p b s = refused .mgmtOverrun)) ∧
    ∀ judge : Option BindContext → JudgedAs → State, judge = (fun bind role =>
      { s with judges := s.judges.set p { s.judges.get p with
        bind := bind, phase := .waiting (.telegram b role ⟨p, sourceOf l, classOf l⟩) } }) →
    ((s.judges.get p).bind = none → boundOf l = false → bindTest p b s = judge none .plain) ∧
    ((s.judges.get p).bind = none → boundOf l = true →
      ∀ deadline : Uptime, deadline = (s.buffer b).desc.uptime + s.agent.settings.bindLimit.setWidth 40 →
      bindTest p b s = judge
        (some ⟨sourceOf l, .pending, none, deadline, atOrBefore deadline s.cal.uptime⟩) .first) ∧
    ∀ c, (s.judges.get p).bind = some c → sourceOf l = c.source →
      atOrBefore (s.buffer b).desc.uptime c.deadline = true →
      (∀ list, c.outcome = .passed list → bindTest p b s = judge none (.secondPassed list c.particulars)) ∧
      ∀ ref, c.outcome = .held ref → bindTest p b s = judge none (.secondHeld ref c.particulars)) ∧
  ∀ p buf b s, (s.rx.get p).phase = .filling buf → ((s.rx.get p).framing.next b).ended = true →
    ∀ l, l = storedBytes (s.buffer buf) b →
    (s.rx.get p).sum = lastTwo (s.rx.get p) b →
    formError l ((s.rx.get p).framing.next b).expected = false →
    (s.judges.get p).phase = .idle → EachBufferInOnePlace s →
    Settled s → 0 < s.agent.settings.bindLimit.toNat →
    ∃ t, exec (.receptionEnd p b) s = .next t ∧
      ∀ y : State, y = { s with
        pool := poolWith s buf ⟨l, p, ((s.rx.get p).framing.next b).expected,
          ⟨s.cal.day, s.cal.secondOfDay, s.cal.sub⟩, s.cal.quality, s.cal.uptime⟩ s.pool.free
        rx := s.rx.set p { s.rx.get p with
          phase := .settling
          good := (s.rx.get p).good + 1
          framing := (s.rx.get p).framing.next b
          tail := lastTwo (s.rx.get p) b } } →
      ∀ refused : Reason → State → State, refused = (fun reason u =>
        handOver ⟨reason, p, some (sourceOf l), some (destOf l), some (classOf l), none⟩
          { u with pool := ⟨y.pool.buffers, s.pool.free ++ [buf]⟩ }) →
      (destOf l = s.ownAddr → (classOf l ≠ 15 ∨ (p = .n ∧ s.agent.settings.nearAllowed = false)) →
        t = refused .mgmtRefused y) ∧
      (destOf l = s.ownAddr → classOf l = 15 → p = .f ∨ s.agent.settings.nearAllowed = true →
        (s.agent.inbox.length < 4 → s.agent.exec ≠ none ∨ s.store.phase ≠ .ready →
          t = { y with agent := { s.agent with inbox := s.agent.inbox ++ [buf] } }) ∧
        (4 ≤ s.agent.inbox.length → t = refused .mgmtOverrun y)) ∧
      (destOf l ≠ s.ownAddr → ∀ key : LookupKey, key = ⟨p, sourceOf l, classOf l⟩ →
        ∀ judge : Option BindContext → JudgedAs → State, judge = (fun bind role =>
          if s.store.port = .free ∧ s.store.phase = .ready then { y with
            judges := s.judges.set p ⟨[], none, bind, .lookup (.telegram buf role key) s.store.active⟩
            store := { s.store with port := .judge p, lastJudge := p } }
          else { y with judges := s.judges.set p ⟨[], none, bind, .waiting (.telegram buf role key)⟩ }) →
        ∀ fresh : State, fresh = (if boundOf l then
            judge (some ⟨sourceOf l, .pending, none, s.cal.uptime + s.agent.settings.bindLimit.setWidth 40, false⟩)
              .first
          else judge none .plain) →
        ((s.judges.get p).bind = none → t = fresh) ∧
        ∀ c, (s.judges.get p).bind = some c →
          (sourceOf l = c.source → atOrBefore s.cal.uptime c.deadline = true →
            (∀ list, c.outcome = .passed list → t = judge none (.secondPassed list c.particulars)) ∧
            (∀ ref, c.outcome = .held ref → t = judge none (.secondHeld ref c.particulars)) ∧
            (c.outcome = .refused →
              t = refused .boundBroken { y with judges := s.judges.set p ⟨[], none, none, .idle⟩ })) ∧
          (sourceOf l ≠ c.source ∨ atOrBefore s.cal.uptime c.deadline = false →
            (c.outcome = .refused → t = fresh) ∧
            (∀ list q, c.outcome = .passed list → c.particulars = some q →
              t = handOver ⟨.boundBroken, p, some c.source, some q.dest, some q.cls, q.index⟩ fresh) ∧
            ∀ ref, c.outcome = .held ref →
              ((∀ r ∈ s.hold.records, r.ref ≠ ref) → t = fresh) ∧
              ∀ r f, RefsDistinct s → r ∈ s.hold.records → r.ref = ref → r.port = p → r.role = .first f →
                f.partner = none → t = TakenOut .boundBroken r.index r fresh))

/-- A second whose first was refused is refused BOUND_BROKEN at the bind test, without a table access, a credit
or a count, and opens no context (R51; the return before a Report's claim is the model's order: log 15). -/
def Obligations.SecondOfARefusedFirstIsRefused : Prop :=
  ∀ p b c s, (s.judges.get p).bind = some c → sourceOf (s.buffer b).bytes = c.source →
    atOrBefore (s.buffer b).desc.uptime c.deadline = true → c.outcome = .refused →
    bindTest p b s =
      handOver
        ⟨.boundBroken, p, some (sourceOf (s.buffer b).bytes), some (destOf (s.buffer b).bytes),
          some (classOf (s.buffer b).bytes), none⟩
        { s with
          pool := { s.pool with free := s.pool.free ++ [b] }
          judges := s.judges.set p { s.judges.get p with bind := none } }

/-- A transmission that completes frees its buffer and is counted; after SPACING the oldest urgent telegram, or else
the oldest normal one, goes on the line, or the unit is IDLE. And what an append does: the urgent list has room for 8
telegrams and the normal list for 16, a telegram joins its list at the tail, and an IDLE unit then starts the oldest
urgent telegram, or else the oldest normal one, while in SENDING or SPACING it waits on its list (R13, R14). -/
def Obligations.TransmissionEndsAndTheNextStarts : Prop :=
  (∀ (u : TxUnit) (b : BufId),
    (listRoom u .urgent = true ↔ u.urgent.length < 8) ∧ (listRoom u .normal = true ↔ u.normal.length < 16) ∧
      listAdd u .urgent b = { u with urgent := u.urgent ++ [b] } ∧
      listAdd u .normal b = { u with normal := u.normal ++ [b] }) ∧
  (∀ (buffers : BufId → Buffer) (u : TxUnit),
    (u.phase ≠ .idle → startTx buffers u = u) ∧
    (u.phase = .idle →
      (∀ b rest, u.urgent = b :: rest →
        startTx buffers u = { u with urgent := rest, phase := .sending b (txLine (buffers b)) }) ∧
      (∀ b rest, u.urgent = [] → u.normal = b :: rest →
        startTx buffers u = { u with normal := rest, phase := .sending b (txLine (buffers b)) }) ∧
      (u.urgent = [] → u.normal = [] → startTx buffers u = u))) ∧
  ∀ p s,
    (∀ b l, (s.tx.get p).phase = .sending b l →
      exec (.transmissionComplete p) s = .next { s with
        pool := { s.pool with free := s.pool.free ++ [b] }
        tx := s.tx.set p { s.tx.get p with
          phase := .spacing, transmitted := (s.tx.get p).transmitted + 1 } }) ∧
    ((s.tx.get p).phase = .spacing →
      (∀ b rest, (s.tx.get p).urgent = b :: rest →
        exec (.spacingEnd p) s = .next { s with tx := s.tx.set p { s.tx.get p with
          urgent := rest, phase := .sending b (txLine (s.buffer b)) } }) ∧
      (∀ b rest, (s.tx.get p).urgent = [] → (s.tx.get p).normal = b :: rest →
        exec (.spacingEnd p) s = .next { s with tx := s.tx.set p { s.tx.get p with
          normal := rest, phase := .sending b (txLine (s.buffer b)) } }) ∧
      ((s.tx.get p).urgent = [] → (s.tx.get p).normal = [] →
        exec (.spacingEnd p) s =
          .next { s with tx := s.tx.set p { s.tx.get p with phase := .idle } }))

/-! ### Resets and the sweep -/

/-- The state after a power-on reset holds the values that the rules give, and a power-on reset from any state takes
every block to it, the rows and parameter records undefined (R5, R12, R14 to R17, R19, R69, R71, R85, R99, R118,
R133, R134, R136, R143, R151, R163, R165, R166, R170, R174, R176, R177). The model's choice in it are the header store,
the sum, the last bytes and the framing of a Receive Unit and the buffers left as they stand (log 3), the marks and the
edge memory of the Calendar (logs 8, 20), and the numbering of held records, which goes on (log 17). -/
def Obligations.PowerOnResetTakesEveryBlock : Prop :=
  (State.reset.pool.free = List.finRange 64 ∧
     (∀ p, (State.reset.rx.get p).phase = .settling ∧ (State.reset.rx.get p).good = 0 ∧
       (State.reset.rx.get p).corrupt = 0 ∧ (State.reset.rx.get p).truncated = 0 ∧
       (State.reset.rx.get p).malformed = 0 ∧ (State.reset.rx.get p).noBuffer = 0) ∧
     (∀ p, State.reset.tx.get p = ⟨[], [], .idle, 0⟩) ∧
     (∀ p, State.reset.judges.get p = ⟨[], none, none, .idle⟩) ∧
     State.reset.store.phase = .initializing 0 ∧ State.reset.store.active = .b0 ∧
     (∀ b i, State.reset.store.poisoned b i = false) ∧ State.reset.store.agentRequest = false ∧
     State.reset.store.waitCount = 0 ∧ State.reset.store.lastJudge = .f ∧ State.reset.store.pointer = 0 ∧
     State.reset.store.scrubRequest = false ∧ State.reset.store.debt = 0 ∧
     State.reset.store.corrected = 0 ∧ State.reset.store.scrubCorrected = 0 ∧
     State.reset.store.uncorrectable = 0 ∧
     (∀ (b : Bank) (w : Fin 32), (State.reset.windows.records.get b)[w] = ⟨false, 0, 0, 0, none, false⟩) ∧
     State.reset.windows.openSets = ⟨0, 0⟩ ∧ (∀ i, State.reset.stream i = ⟨0, 0, 0, 0⟩) ∧
     State.reset.policer.timer = .stopped ∧ State.reset.policer.count = 0 ∧
     State.reset.cal.day = 0 ∧ State.reset.cal.weekday = 0 ∧ State.reset.cal.subOfDay = 0 ∧
     State.reset.cal.quality = .unset ∧ State.reset.cal.source = .reference ∧
     State.reset.cal.monitor = .present ∧ State.reset.cal.goodEdges = 0 ∧
     State.reset.cal.switchPending = false ∧ State.reset.cal.uptime = 0 ∧
     State.reset.hold.records = [] ∧ State.reset.hold.scan = none ∧ State.reset.hold.waiting = [] ∧
     State.reset.hold.outstanding = ⟨none, none⟩ ∧ State.reset.commit = ⟨.idle, 0⟩ ∧
     State.reset.agent.inbox = [] ∧ State.reset.agent.exec = none ∧
     State.reset.agent.settings =
       ⟨false, 2, 0, 1, 0, false, 102, 16, 8, 1024, .tick, 0, 24, none, 0xFF, 0⟩ ∧
     State.reset.agent.supervision = ⟨.disabled, 0⟩ ∧ State.reset.agent.lastReset = .power ∧
     State.reset.exc = ⟨[], 0, 0, 0, false⟩) ∧
  ∀ straps s, ∃ t, exec (.powerOnReset straps) s = .next t ∧
    t.ownAddr = 0xF000#16 + straps.setWidth 16 ∧ t.agent.lastReset = .power ∧
    t = { State.reset with
      pool := ⟨t.pool.buffers, List.finRange 64⟩
      store := { State.reset.store with rows := t.store.rows }
      policer := { State.reset.policer with params := t.policer.params }
      hold := { State.reset.hold with nextRef := s.hold.nextRef }
      ownAddr := t.ownAddr
      straps := straps
      draws := t.draws
      pending := s.pending }

/-- A pin reset and RESET: policy, selector, rows, Poison Set and time are kept, uptime is 0, everything else is at its
reset state. Of an access in progress, its row write is made whole or not made, and the pair it reads may have joined
the Poison Set; the row written is the one the access writes, with its parameter record, and every other row, mark and
parameter record of both banks is as it was. The Calendar keeps what it met while RST_N was low: ticks, edges of REFIN,
a loss of the reference and stretches with no edge, each with its effect on the time and the Reference Monitor and on
no other block, no boundary handed on. RESET takes effect at its beginning and sends no response (R12, R16, R17, R19,
R59 to R63, R70, R76, R85, R99, R118, R128, R136, R143, R151, R163 to R165, R170). The model's choice in it are the
header store, the sum, the last bytes and the framing of a Receive Unit (log 3), the marks of the Calendar (log 8), how
far an access had come (log 13), the numbering of held records, which goes on (log 17), the edge that ends no interval
(log 20), and PIN_RESET as one step (log 21). -/
def Obligations.WarmResetsKeepPolicyAndTime : Prop :=
  (∀ straps meanwhile s, ∃ t, exec (.pinReset straps meanwhile) s = .next t ∧ t.straps = straps ∧
    WarmResetLeaves .pin s t ∧ t.cal = Restarted (meanwhile.foldl Calendar.meet s.cal)) ∧
  (∀ h straps b rest s, CommandReady h b rest s → Privileged h s.agent.settings.writeFloor s →
    ∃ t, exec (.reset h straps) s = .next t ∧ t.straps = straps ∧ WarmResetLeaves .command s t ∧
      t.cal = Restarted s.cal) ∧
  ∀ c : Calendar,
    (Ticked c (c.meet .tick) ∧ c.meet .tick = { c.meet .tick with
      refillTick := c.refillTick, scrubTick := c.scrubTick, secondDue := c.secondDue
      windowMinute := c.windowMinute, commitMinute := c.commitMinute }) ∧
    (c.monitor = .present →
      (c.source = .fallback → ∀ ns, c.meet (.edge ns) = c) ∧
      (c.source = .reference → ∀ ns,
        (∀ n : Fin 31, c.divider.val = n.val → c.meet (.edge ns) = { c with divider := ⟨n.val + 1, by omega⟩ }) ∧
        (c.divider = 31 → c.meet (.edge ns) = c.meet .tick)) ∧
      (∀ due, due = true → c.source = .reference → c.meet (.loss due) = (Lost c).meet .tick) ∧
      (∀ due, ¬(due = true ∧ c.source = .reference) → c.meet (.loss due) = Lost c) ∧
      c.meet .stretch = c) ∧
    (c.monitor = .absent →
      (c.edgeSeen = false → ∀ ns, c.meet (.edge ns) = { c with edgeSeen := true }) ∧
      (c.edgeSeen = true →
        (∀ ns, ns < 27000 ∨ 34000 < ns → c.meet (.edge ns) = { c with goodEdges := 0 }) ∧
        ∀ ns, 27000 ≤ ns → ns ≤ 34000 →
          (∀ n : Fin 1023, c.goodEdges.val = n.val →
            c.meet (.edge ns) = { c with goodEdges := ⟨n.val + 1, by omega⟩ }) ∧
          (c.goodEdges = 1023 → c.meet (.edge ns) = { c with
            goodEdges := 1024, monitor := .present, switchPending := true })) ∧
      (∀ due, c.meet (.loss due) = c) ∧
      c.meet .stretch = { c with goodEdges := 0, edgeSeen := false })

/-- A sweep write leaves the blank entry and its parameter record at the next place; the 512th makes the store
READY and the table port free, the arbiter makes its grant among the requests then pending, and the Agent begins the
oldest command of its inbox; the sweep makes no count and no alert. And the fields of the blank entry, and the walk
order: bank 0 rows 0 to 255, then bank 1 rows 0 to 255 (R125, R132 to R135, R152; the grant first: log 14). -/
def Obligations.SweepWritesTheNextRow : Prop :=
  blankEntry = {
    valid := false, srcLow := 0x0000, srcHigh := 0x0000, portN := true, portF := true, classes := 0, privLimit := 0
    dstLow := 0x0000, dstHigh := 0x0000, broadcast := false, remap := none, windows := 0, closed := .refuse
    ceiling := 0, refill := 0, overRate := .refuse, holdLimit := 0, urgent := false, stamp := .ignore
    unsup := .continue_ } ∧
  (∀ i : Index, placePair ⟨i.val, by omega⟩ = (.b0, i) ∧ placePair ⟨256 + i.val, by omega⟩ = (.b1, i)) ∧
  ∀ (n : Fin 512) s, s.store.phase = .initializing n → Settled s →
    ∀ b i, placePair n = (b, i) →
    ∀ x : State, x = { s with
      store := { s.store with
        rows := s.store.rows.set b ((s.store.rows.get b).set i.val ⟨blankEntry, []⟩) }
      policer := { s.policer with
        params := s.policer.params.set b ((s.policer.params.get b).set i.val ⟨0, 0, false⟩) } } →
    (∀ h : n.val < 511, exec .sweepWrite s =
      .next { x with store := { x.store with phase := .initializing ⟨n.val + 1, by omega⟩ } }) ∧
    (n = 511 → ∀ y : State, y = { x with store := { x.store with phase := .ready, port := .free } } →
      (s.agent.inbox = [] → s.store.scrubRequest = false → s.store.agentRequest = false →
        (∀ p it, (s.judges.get p).phase ≠ .waiting it) → exec .sweepWrite s = .next y) ∧
      (s.agent.inbox = [] → exec .sweepWrite s = .next ((grant y).getD y)) ∧
      ∀ b l, s.agent.inbox = b :: l → s.agent.exec = none → ∀ z, z = (grant y).getD y →
        exec .sweepWrite s = .next (settleFor (Config.settleBound - if (grant y).isSome then 2 else 1)
          (startCommand b { z with agent := { z.agent with inbox := l } })))

/-! ### Chapter 4: time -/

/-- A tick: the sub-second, second, minute, hour, day and weekday advance together, uptime advances round its wrap, a
pending switch brings the source back to REFERENCE, and the boundaries crossed are handed on; what the Monitor has seen
of the edges stays, and nothing else changes but the stored bits the tick's disturbances name. One disturbance changes
the one bit it names in the row of its bank and index, or brings it back, and no entry and no other row; several are
made one after another; and the errors of a word are its changed bits. And a deadline is at or before an uptime that
lies 0 to 549 755 813 887 ticks after it, counted round the wrap (R56 to R59, R63, R118; logs 8, 9, 10, 20). -/
def Obligations.TickAdvancesTheTime : Prop :=
  (∀ deadline now : Uptime, atOrBefore deadline now = true ↔ (now - deadline).toNat ≤ 549755813887) ∧
  (∀ s, applyUpsets [] s = s) ∧ (∀ x l s, applyUpsets (x :: l) s = applyUpsets l (applyUpsets [x] s)) ∧
  (∀ (x : Upset) s r, r = s.store.row x.bank x.index → ∀ bits, bits = (if (x.word, x.bit) ∈ r.changed
      then r.changed.filter (· ≠ (x.word, x.bit)) else (x.word, x.bit) :: r.changed) →
    applyUpsets [x] s = { s with store := { s.store with
      rows := s.store.rows.set x.bank ((s.store.rows.get x.bank).set x.index.val ⟨r.entry, bits⟩) } }) ∧
  (∀ (r : StoredRow) w, wordErrors r w = (r.changed.filter fun c => c.1 = w).length) ∧
  ∀ u s, NothingOutstanding s → ∃ t, exec (.tick u) s = .next t ∧
    Ticked s.cal t.cal ∧ t.cal.refillTick = true ∧ t.cal.scrubTick = true ∧
    t.cal.secondDue = decide ((s.cal.subOfDay + 1) % 1024 = 0) ∧
    (∀ m, m = (if (s.cal.subOfDay + 1) % 61440 = 0 then
        some (⟨t.cal.day, t.cal.weekday, t.cal.minuteOfDay⟩ : MinuteMark) else none) →
      t.cal.windowMinute = m ∧ t.cal.commitMinute = m) ∧
    t = { s with cal := t.cal, store := { s.store with rows := (applyUpsets u s).store.rows } } ∧
    (u = [] → t.store.rows = s.store.rows)

/-- A second boundary counts the Supervision Timer down and leaves a DISABLED or LAPSED one; at remaining count 1
supervision lapses: every held first whose context is BLOCK is removed, one after another in hold order, and
SUPERVISION_LAPSED is set, in either order. Of each removed first the buffer returns to the free list and the record is
UNSUPERVISED, its partner's BOUND_BROKEN after it; the binding of one that awaits its partner closes, and a request
that names it is withdrawn, the next of its port taking its place (R105, R111, R115, R166, R167). That the event
changes nothing where no boundary is due, the mark that says one is, that the flag comes before or after all the
records, that each first has left before the next one's records are handed over, and that a buffer's return comes
before a Report's claim, are the model's choice (logs 5, 8, 15). -/
def Obligations.SecondBoundaryCountsDownAndLapses : Prop :=
  ∀ o s, Settled s →
    (s.cal.secondDue = false → exec (.secondBoundary o) s = .next s) ∧
    (s.cal.secondDue = true → s.agent.supervision.state ≠ .counting →
      exec (.secondBoundary o) s = .next { s with cal := { s.cal with secondDue := false } }) ∧
    (s.cal.secondDue = true → ∀ n : Fin 65536, 0 < n.val →
      s.agent.supervision = ⟨.counting, ⟨n.val + 1, by omega⟩⟩ →
      exec (.secondBoundary o) s = .next { s with
        cal := { s.cal with secondDue := false }
        agent := { s.agent with supervision := ⟨.counting, ⟨n.val, by omega⟩⟩ } }) ∧
    (s.cal.secondDue = true → s.agent.supervision = ⟨.counting, 1⟩ → RefsDistinct s → PartnersLinked s →
      exec (.secondBoundary o) s = exec (.supervisionLapse o) s ∧
      ∀ pick : HeldRecord → FirstPart → Bool, pick = (fun _ f => f.context.unsup == .block) →
      ∀ x : State, x = { s with
          cal := { s.cal with secondDue := false }
          agent := { s.agent with supervision := ⟨.lapsed, 0⟩ } } →
      ∃ t, exec (.supervisionLapse o) s = .next t ∧
        t.hold.records = s.hold.records.filter (fun r => !goesWith pick s.hold.records r) ∧
        t.exc.flags.getLsbD 6 = true ∧
        t = RequestsPlaced (match o with
          | .flagFirst => AllRemoved .unsupervised pick (tell .supervisionLapsed x)
          | .recordsFirst => tell .supervisionLapsed (AllRemoved .unsupervised pick x)))

/-- A window is open exactly when it is USED, its span holds at the weekday and minute, its date range holds at the
day number, and it is TOLERANT or the quality is NOMINAL; the part of a span after midnight is closed where the day
before, on which it began, lies outside the range (R73 to R75; day 65535 counts as the day before day 0: log 31). -/
def Obligations.WindowsAreOpenAsStated : Prop :=
  ∀ (w : WindowRecord) (m : MinuteMark) (q : Quality), windowOpen w m q = true ↔
    w.used = true ∧
    ((w.start.val < w.stop.val ∧ w.days.getLsbD m.weekday.val = true ∧ w.start.val ≤ m.minute.val ∧
        m.minute.val < w.stop.val) ∨
      (w.stop.val < w.start.val ∧
        ((w.days.getLsbD m.weekday.val = true ∧ w.start.val ≤ m.minute.val) ∨
          (w.days.getLsbD ((m.weekday.val + 6) % 7) = true ∧ m.minute.val < w.stop.val)))) ∧
    (∀ low high, w.dates = some (low, high) →
      low.toNat ≤ m.day.toNat ∧ m.day.toNat ≤ high.toNat ∧
        (w.stop.val < w.start.val → m.minute.val < w.stop.val →
          low.toNat ≤ (m.day - 1).toNat ∧ (m.day - 1).toNat ≤ high.toNat)) ∧
    (w.strict = true → q = .nominal)

/-- A minute boundary at the Window Monitor replaces both Open Sets by what the records give at the minute carried, and
announces the windows that open in the active bank to the Hold Queue; at the Commit Controller it fires the schedule of
that minute: the swap at once, or DUE while WRITE_ENTRY, INVALIDATE_ENTRY, COPY_ACTIVE_TO_SHADOW or CLEAR_SHADOW is in
execution (WRITE_WINDOW ends as it begins). The swap marks every held record pending and the request of each port that
its Judge has taken stale, withdraws one that still waits in its slot, and where a port then has none the request of
its oldest pending first follows. Either block takes the boundary first, at one event with the other or at one of its
own, so a scan's evaluations may fall between the two (R58, R76, R77, R80, R81, R96, R113, R115, R143, R147, R149). The
minute is the one the tick's marks carry (log 8), and a block that has none to take changes nothing (log 5). -/
def Obligations.MinuteBoundaryEvaluatesAndCommits : Prop :=
  (∀ s,
    (∀ u, exec (.minuteBoundary .evaluationAlone) s = .next u →
      exec (.minuteBoundary .evaluationFirst) s = exec (.minuteBoundary .commitAlone) u) ∧
    (∀ u, exec (.minuteBoundary .commitAlone) s = .next u →
      exec (.minuteBoundary .commitFirst) s = exec (.minuteBoundary .evaluationAlone) u) ∧
    (s.cal.windowMinute = none → exec (.minuteBoundary .evaluationAlone) s = .next s) ∧
    (s.cal.commitMinute = none → exec (.minuteBoundary .commitAlone) s = .next s)) ∧
  (∀ s : State, s.shadowBusy = true ↔ ∃ x, s.agent.exec = some x ∧ ((∃ i e, x.job = .writeEntry i e) ∨
    (∃ i, x.job = .invalidate i) ∨ (∃ i n, x.job = .copy i n) ∨ ∃ i, x.job = .clear i)) ∧
  (∀ m s, s.cal.windowMinute = some m → Settled s →
    ∃ t, exec (.minuteBoundary .evaluationAlone) s = .next t ∧ Settled t ∧
      (∀ b (i : Fin 32), (t.windows.openSets.get b).getLsbD i.val =
        windowOpen (s.windows.records.get b)[i] m s.cal.quality) ∧
      ScansAfterOpenings s.store.active s s t ∧
      t = { s with
        cal := { s.cal with windowMinute := none }
        windows := ⟨s.windows.records, t.windows.openSets⟩
        hold := { s.hold with scan := t.hold.scan, waiting := t.hold.waiting } }) ∧
  ∀ m s, s.cal.commitMinute = some m → Settled s →
    ∀ here : Prop, (here ↔ s.commit.phase = .scheduled ⟨m.day, m.minute⟩) →
    ∀ swapped : State → State, swapped = (fun x => tell .commitDone (CommitMarked { x with
      store := { s.store with active := otherBank s.store.active }
      commit := ⟨.idle, s.commit.count + 1⟩
      policer := { s.policer with streams := Vector.ofFn fun i : Fin 256 =>
        ⟨if (s.param (otherBank s.store.active) i).usable
          then (s.param (otherBank s.store.active) i).ceiling else 0, 0, 0, 0⟩ } })) →
    (∀ x : State, x = { s with cal := { s.cal with commitMinute := none } } →
      ∃ t, exec (.minuteBoundary .commitAlone) s = .next t ∧
        (¬here → t = x) ∧
        (here → s.shadowBusy = true → t = { x with commit := ⟨.due ⟨m.day, m.minute⟩, s.commit.count⟩ }) ∧
        (here → s.shadowBusy = false → FollowsOnly (swapped x) t ∧ t.exc.flags.getLsbD 5 = true)) ∧
    (s.cal.windowMinute = some m → ∀ o, o = .evaluationFirst ∨ o = .commitFirst →
      ∃ t, exec (.minuteBoundary o) s = .next t ∧
        t.cal = { s.cal with windowMinute := none, commitMinute := none } ∧
        t.windows.records = s.windows.records ∧
        (∀ b (i : Fin 32), (t.windows.openSets.get b).getLsbD i.val =
          windowOpen (s.windows.records.get b)[i] m s.cal.quality) ∧
        (∀ x : State, x = { s with
            cal := t.cal, windows := t.windows
            hold := { s.hold with scan := t.hold.scan, waiting := t.hold.waiting } } →
          (¬here → t = x) ∧
          (here → s.shadowBusy = true → t = { x with commit := ⟨.due ⟨m.day, m.minute⟩, s.commit.count⟩ }) ∧
          (here → s.shadowBusy = false → FollowsOnly (swapped x) t ∧ t.exc.flags.getLsbD 5 = true)) ∧
        (¬(here ∧ s.shadowBusy = false) ∨ o = .evaluationFirst → ScansAfterOpenings s.store.active s s t) ∧
        (here → s.shadowBusy = false → o = .commitFirst → ScansAfterOpenings (otherBank s.store.active) s
          { s with hold := { s.hold with records := s.hold.records.map fun r => { r with pending := true } } } t))

/-- A loss of the reference: the Monitor ABSENT, the source FALLBACK, a NOMINAL quality DEGRADED with both Open Sets
evaluated anew and openings announced, and REFERENCE_LOST told, with nothing else changed; a fallback tick already due
is delivered at the loss, as a tick with no disturbance on the state the loss leaves; a loss in ABSENT is none (R59,
R61, R62, R65, R77, R80, R174; that a loss in ABSENT changes nothing: log 5; that the flag comes after the quality
change and before the tick: log 15). -/
def Obligations.ReferenceLossFallsBack : Prop :=
  ∀ due s,
    (s.cal.monitor = .absent → exec (.referenceLoss due) s = .next s) ∧
    (s.cal.monitor = .present → ¬(due = true ∧ s.cal.source = .reference) →
      ∃ t, exec (.referenceLoss due) s = .next t ∧ t.exc.flags.getLsbD 4 = true ∧
        t.cal = Lost s.cal ∧
        (s.cal.quality ≠ .nominal → t.windows = s.windows ∧ t.hold = s.hold) ∧
        (s.cal.quality = .nominal → ∀ b (i : Fin 32), (t.windows.openSets.get b).getLsbD i.val =
          windowOpen (s.windows.records.get b)[i] s.cal.mark .degraded) ∧
        ScansAfterOpenings s.store.active s s t ∧
        t = tell .referenceLost { s with
          cal := t.cal
          windows := ⟨s.windows.records, t.windows.openSets⟩
          hold := { s.hold with scan := t.hold.scan, waiting := t.hold.waiting } }) ∧
    (s.cal.monitor = .present → due = true → s.cal.source = .reference →
      ∀ u, exec (.referenceLoss false) s = .next u → exec (.referenceLoss due) s = exec (.tick []) u ∧
        (NothingOutstanding s → NothingOutstanding u)) ∧
    (s.cal.monitor = .present → due = true → s.cal.source = .reference → NothingOutstanding s →
      ∃ t, exec (.referenceLoss due) s = .next t ∧ t.exc.flags.getLsbD 4 = true ∧
        (∀ u, exec (.referenceLoss false) s = .next u → t = { u with cal := t.cal }) ∧
        t.cal.monitor = .absent ∧ t.cal.source = .fallback ∧ t.cal.uptime = s.cal.uptime + 1 ∧
        t.cal.subOfDay = (s.cal.subOfDay + 1) % 88473600)

/-- The edges of REFIN: in ABSENT an edge counts a correct interval, a wrong one or a stretch with no edge sets the
count to 0, the first edge after that measures nothing, and the 1024th makes the Monitor PRESENT with the switch
pending; in PRESENT the divider counts, and the 32nd edge is a tick (R59, R60, R62; logs 6, 20). That a stretch with no
edge changes nothing in PRESENT, where REFERENCE_LOSS is the row of the loss, is the model's choice (log 5). -/
def Obligations.ReferenceEdgesAreCounted : Prop :=
  ∀ s,
    (s.cal.monitor = .absent →
      exec .noEdgeStretch s =
        .next { s with cal := { s.cal with goodEdges := 0, edgeSeen := false } } ∧
      (s.cal.edgeSeen = false → ∀ ns, exec (.refinRisingEdge ns) s =
        .next { s with cal := { s.cal with edgeSeen := true } }) ∧
      (s.cal.edgeSeen = true →
        (∀ ns, ns < 27000 ∨ 34000 < ns →
          exec (.refinRisingEdge ns) s = .next { s with cal := { s.cal with goodEdges := 0 } }) ∧
        (∀ ns (n : Fin 1023), 27000 ≤ ns → ns ≤ 34000 → s.cal.goodEdges.val = n.val →
          exec (.refinRisingEdge ns) s =
            .next { s with cal := { s.cal with goodEdges := ⟨n.val + 1, by omega⟩ } }) ∧
        (s.cal.goodEdges = 1023 →
          (∀ ns, 27000 ≤ ns → ns ≤ 34000 →
            exec (.refinRisingEdge ns) s = exec .referenceQualified s) ∧
          exec .referenceQualified s = .next { s with cal := { s.cal with
            goodEdges := 1024, monitor := .present, switchPending := true } }))) ∧
    (s.cal.monitor = .present →
      exec .noEdgeStretch s = .next s ∧
      (s.cal.source = .fallback → ∀ ns, exec (.refinRisingEdge ns) s = .next s) ∧
      (s.cal.source = .reference → ∀ ns,
        (∀ n : Fin 31, s.cal.divider.val = n.val → exec (.refinRisingEdge ns) s =
          .next { s with cal := { s.cal with divider := ⟨n.val + 1, by omega⟩ } }) ∧
        (s.cal.divider = 31 → exec (.refinRisingEdge ns) s = exec (.tick []) s)))

/-! ### Deadlines, pulses and scans -/

/-- The tick at the Hold Queue: every first whose deadline is reached is removed, one after another in hold order, and
no count changes. Its buffer returns to the free list and its record is HOLD_EXPIRED, its partner's BOUND_BROKEN after
it; the binding of one that awaits its partner closes; and a request that names it is withdrawn, the next of its port
taking its place (R53, R105, R109, R115; that each first has left before the next one's records are handed over, and
each record after its buffer's return: log 15). -/
def Obligations.HoldExpiryRemovesTheExpired : Prop :=
  ∀ s, Settled s → RefsDistinct s → PartnersLinked s →
    ∀ pick : HeldRecord → FirstPart → Bool, pick = (fun _ f => atOrBefore f.deadline s.cal.uptime) →
    ∃ t, exec .holdExpiry s = .next t ∧
      t.hold.records = s.hold.records.filter (fun r => !goesWith pick s.hold.records r) ∧
      t.policer = s.policer ∧ t = RequestsPlaced (AllRemoved .holdExpired pick s)

/-- The tick at a Judge's bind context: a deadline not reached, or reached before, does nothing; with a telegram waiting
that arrived in time the mark is set; else the binding ends by its first's outcome, with a BOUND_BROKEN record of a
first that passed, or the removal of a held first and its partner, buffers returned, each with its BOUND_BROKEN record,
a request that names the first withdrawn and the next of its port in its place (R47, R52, R105, R115; a return before a
Report's claim: log 15; no change where no deadline is due: log 5). -/
def Obligations.BindDeadlineEndsTheBinding : Prop :=
  ∀ p s, Settled s →
    ((s.judges.get p).bind = none → exec (.bindDeadline p) s = .next s) ∧
    ∀ c, (s.judges.get p).bind = some c →
      (c.reached = true ∨ atOrBefore c.deadline s.cal.uptime = false →
        exec (.bindDeadline p) s = .next s) ∧
      (c.reached = false → atOrBefore c.deadline s.cal.uptime = true →
        ((∃ b ∈ judgePlaces (s.judges.get p), atOrBefore (s.buffer b).desc.uptime c.deadline = true) →
          exec (.bindDeadline p) s = .next { s with judges := (s.judges.set p
            { s.judges.get p with bind := some { c with reached := true } }) }) ∧
        ((∀ b ∈ judgePlaces (s.judges.get p), atOrBefore (s.buffer b).desc.uptime c.deadline = false) →
          (c.outcome = .refused → exec (.bindDeadline p) s =
            .next { s with judges := s.judges.set p { s.judges.get p with bind := none } }) ∧
          (∀ l x, c.outcome = .passed l → c.particulars = some x → exec (.bindDeadline p) s =
            .next (handOver ⟨.boundBroken, p, some c.source, some x.dest, some x.cls, x.index⟩
              { s with judges := s.judges.set p { s.judges.get p with bind := none } })) ∧
          (∀ n, c.outcome = .held n → RefsDistinct s → PartnersLinked s →
            (∀ r ∈ s.hold.records, r.ref = n → r.isFirst = true) →
            ∃ t, exec (.bindDeadline p) s = .next t ∧
              t.hold.records = s.hold.records.filter (fun r => r.ref != n && r.role != .partner n) ∧
              ∀ x : State, x = { s with judges := s.judges.set p { s.judges.get p with bind := none } } →
                ((∀ r ∈ s.hold.records, r.ref ≠ n) → t = x) ∧
                ∀ r ∈ s.hold.records, r.ref = n → t = RequestsPlaced (Removed .boundBroken r x))))

/-- The tick at the Refill Timer: off its grid, or not RUNNING, nothing; on it the count loads, counts down, or at 1
loads again, refills every credit up to its ceiling and raises refill done (R89, R93, R94, R107). REFILL is the pulse
at count 1. The grid is the multiples of 1, 16 or 1024 ticks, by the source. That either changes nothing where no pulse
or refill is due, and the mark of a tick not yet taken, are the model's choice (logs 5, 8); that uptime 0, met again at
the wrap, is on the grid is the model's reading (log 22). -/
def Obligations.RefillPulsesAndRefills : Prop :=
  [RefillSource.tick, .sixtyFourth, .second].map RefillSource.period = [1, 16, 1024] ∧
  ∀ s,
    (s.cal.refillTick = false → exec .refillPulse s = .next s) ∧
    (s.cal.refillTick = true →
      ∀ x : State, x = { s with cal := { s.cal with refillTick := false } } →
      (s.policer.timer ≠ .running ∨
          s.cal.uptime.toNat % s.agent.settings.refillSource.period ≠ 0 →
        exec .refillPulse s = .next x ∧ exec .refill s = .next s) ∧
      (s.policer.timer = .running → s.cal.uptime.toNat % s.agent.settings.refillSource.period = 0 →
        (s.policer.count = 0 → exec .refillPulse s =
          .next { x with policer := { s.policer with count := s.agent.settings.refillPreset } }) ∧
        (2 ≤ s.policer.count.toNat → exec .refillPulse s =
          .next { x with policer := { s.policer with count := s.policer.count - 1 } }) ∧
        (s.policer.count = 1 → exec .refillPulse s = exec .refill s ∧
          ∃ t, exec .refill s = .next t ∧
            (∀ i, (t.stream i).credit.toNat =
              if (s.param s.store.active i).usable then
                min ((s.stream i).credit.toNat + (s.param s.store.active i).refill.toNat)
                  (s.param s.store.active i).ceiling.toNat
              else 0) ∧
            (∀ i, t.stream i = { s.stream i with credit := (t.stream i).credit }) ∧
            t = { x with
              policer := { s.policer with
                count := s.agent.settings.refillPreset, streams := t.policer.streams }
              hold := (trigger .refill s).hold })))

/-- The tick at the Scrubber: off its grid, or INITIALIZING, nothing; on it the request is raised, or the debt rises up
to 15; SCRUB_URGENT is told when the debt is at or above the urgent level, and a free port is granted at the same event
(R125, R129 to R131). That it changes nothing where no tick is left to take, the mark of one, and that an expiry during
a scrub step finds the request pending and adds to the debt, are the model's choice (logs 5, 8, 35). -/
def Obligations.ScrubIntervalRaisesTheRequest : Prop :=
  ∀ s, Settled s →
    (s.cal.scrubTick = false → exec .scrubIntervalExpiry s = .next s) ∧
    (s.cal.scrubTick = true →
      ∀ x : State, x = { s with cal := { s.cal with scrubTick := false } } →
      (s.store.phase ≠ .ready ∨ s.cal.uptime = 0 ∨
          s.cal.uptime.toNat % (s.agent.settings.scrubInterval.toNat * 16) ≠ 0 →
        exec .scrubIntervalExpiry s = .next x) ∧
      (s.store.phase = .ready → s.cal.uptime ≠ 0 →
        s.cal.uptime.toNat % (s.agent.settings.scrubInterval.toNat * 16) = 0 →
        ∀ y : State, y = { x with store := { s.store with
          scrubRequest := true
          debt := if h : s.store.scrubRequest = true ∧ s.store.debt.val < 15
            then ⟨s.store.debt.val + 1, by omega⟩ else s.store.debt } } →
        ∀ z : State, z = (if s.agent.settings.urgentLevel.toNat ≤ y.store.debt.val
          then tell .scrubUrgent y else y) →
        exec .scrubIntervalExpiry s = .next (if s.store.port = .free
          then { z with store := { z.store with port := .scrub } } else z)))

/-- A scrub step reads the first place from the walk pointer on that is not poisoned: a clean row stays, a correctable
one is written back, an uncorrectable one joins the Poison Set; the pointer goes one on; the debt falls by 1, or the
request ends. With all 512 pairs poisoned it reads no row and leaves the pointer. And no read finds a row clean that
has a word of one or two changed bits, whatever its other words are (R119 to R121, R132; the contents beside a word of
three or more: log 11). -/
def Obligations.ScrubStepChecksOneRow : Prop :=
  (∀ r draws e, (readRow r draws).1 = .clean e → ∀ w, wordErrors r w ≠ 1 ∧ wordErrors r w ≠ 2) ∧
  (∀ s, s.store.port = .scrub → Settled s → (∀ b i, s.store.poisoned b i = true) →
    ∃ t, exec .scrubStep s = .next t ∧ FollowsOnly { s with store := { s.store with
      scrubRequest := s.store.scrubRequest && decide (0 < s.store.debt.val)
      debt := ⟨s.store.debt.val - 1, by omega⟩ } } t) ∧
  ∀ s, s.store.port = .scrub → Settled s →
    ∀ k : Fin 512, (∀ j < k, s.store.poisoned (placePair (s.store.pointer + j)).1
        (placePair (s.store.pointer + j)).2 = true) →
    ∀ b i, placePair (s.store.pointer + k) = (b, i) →
    ∃ t, exec .scrubStep s = .next t ∧
      ∀ x : State, x = { s with store := { s.store with
        pointer := s.store.pointer + k + 1
        scrubRequest := s.store.scrubRequest && decide (0 < s.store.debt.val)
        debt := ⟨s.store.debt.val - 1, by omega⟩ } } →
      (RowClean b i s → FollowsOnly x t) ∧
      (RowCorrectable b i s → FollowsOnly { x with store := { x.store with
        rows := s.store.rows.set b ((s.store.rows.get b).set i.val ⟨(s.store.row b i).entry, []⟩)
        scrubCorrected :=
          if s.store.scrubCorrected = 65535 then 65535 else s.store.scrubCorrected + 1 } } t) ∧
      (RowUncorrectable b i s → FollowsOnly (tell .tableFault (Poisoned b i x)) t)

/-- A scan reaches its next record: one that has gone, or that is no longer of its reason, its bank (a window scan) or
free of both marks, is passed over, a partner or no; else checks 6 to 8 of its context release it, keep it with the
reason found, or remove it, and a partner goes the way of its first (SecondsFollowTheirFirsts); a request that names a
removed record is withdrawn, and the next of its port takes its place. After its last record the oldest waiting scan
that chooses a record begins. And what a trigger makes: a scan that begins at once and chooses its records, or one that
waits, merged with a waiting one of its bank or kind (R80, R103 to R108, R115; the return before a Report's claim, and
a scan that chooses none ends at once: logs 15, 30). -/
def Obligations.ScanEvaluatesTheNextRecord : Prop :=
  (∀ k r, scanTakes k r = true ↔ ∃ f, r.role = .first f ∧ r.pending = false ∧ f.awaiting = false ∧
    match k with
    | .window bank set => f.reason = .window ∧ r.bank = bank ∧ f.context.windows &&& set ≠ 0
    | .refill => f.reason = .rate) ∧
  (∀ k r, scanEvaluates k r = true ↔ ∃ f, r.role = .first f ∧ r.pending = false ∧ f.awaiting = false ∧
    match k with
    | .window bank _ => f.reason = .window ∧ r.bank = bank
    | .refill => f.reason = .rate) ∧
  (∀ k s, s.hold.scan = none → s.hold.waiting = [] →
    trigger k s = { s with hold := { s.hold with
      scan := if chosenOf k s.hold.records = [] then none else some ⟨k, chosenOf k s.hold.records⟩ } }) ∧
  (∀ s, s.hold.scan ≠ none → ∀ w : List ScanKind, w = s.hold.waiting →
    ∀ waits : ScanKind → List ScanKind → Prop,
      waits = (fun k l => trigger k s = { s with hold := { s.hold with waiting := l } }) →
    (∀ bank set, (∀ v, .window bank v ∉ w) → waits (.window bank set) (w ++ [.window bank set])) ∧
    (∀ bank set l v l', w = l ++ .window bank v :: l' → (∀ u, .window bank u ∉ l) →
      waits (.window bank set) (l ++ .window bank (v ||| set) :: l')) ∧
    (.refill ∉ w → waits .refill (w ++ [.refill])) ∧ (.refill ∈ w → waits .refill w)) ∧
  ∀ k ref rest s, s.hold.scan = some ⟨k, ref :: rest⟩ → Settled s → RefsDistinct s →
    ∃ t, exec .scanEvaluation s = .next t ∧
      (rest ≠ [] → t.hold.scan = some ⟨k, rest⟩ ∧ t.hold.waiting = s.hold.waiting) ∧
      (rest = [] → s.hold.waiting = [] → t.hold.scan = none ∧ t.hold.waiting = []) ∧
      (rest = [] → (∀ j ∈ s.hold.waiting, chosenOf j t.hold.records = []) →
        t.hold.scan = none ∧ t.hold.waiting = []) ∧
      (rest = [] → ∀ l j l', s.hold.waiting = l ++ j :: l' → (∀ i ∈ l, chosenOf i t.hold.records = []) →
        chosenOf j t.hold.records ≠ [] → t.hold.scan = some ⟨j, chosenOf j t.hold.records⟩ ∧ t.hold.waiting = l') ∧
      (∀ r f, r ∈ s.hold.records → r.ref = ref → r.role = .first f → scanEvaluates k r = true →
        FollowsOnly (evaluate r f { s with hold := { s.hold with
          scan := t.hold.scan, waiting := t.hold.waiting } }) t) ∧
      ((∀ r ∈ s.hold.records, r.ref ≠ ref) →
        t = { s with hold := { s.hold with scan := t.hold.scan, waiting := t.hold.waiting } }) ∧
      (∀ r ∈ s.hold.records, r.ref = ref → scanEvaluates k r = false →
        t = { s with hold := { s.hold with scan := t.hold.scan, waiting := t.hold.waiting } }) ∧
      ∀ r f, r ∈ s.hold.records → r.ref = ref → r.role = .first f → f.partner = none →
        (scanEvaluates k r = true →
          (∀ reason, policyNow s r.bank r.index f.context = .hold reason →
            t = { s with hold := { s.hold with
              scan := t.hold.scan
              waiting := t.hold.waiting
              records := s.hold.records.map fun q =>
                if q.ref = ref then q.mapFirst fun g => { g with reason := reason } else q } }) ∧
          (∀ x : State, x = { s with hold := { s.hold with
              scan := t.hold.scan
              waiting := t.hold.waiting
              records := s.hold.records.filter fun q => q.ref != ref } } →
            (∀ reason, policyNow s r.bank r.index f.context = .refuse reason →
              FollowsOnly (countRefused r.index (Withdrawn r.port ref (handOver
                ⟨reason, r.port, some (sourceOf (s.buffer r.buffer).bytes), some r.dest,
                  some (classOf (s.buffer r.buffer).bytes), r.index⟩
                { x with pool := ⟨s.pool.buffers, s.pool.free ++ [r.buffer]⟩ }))) t) ∧
            (∀ y : State, policyNow s r.bank r.index f.context = .pass →
              y = prepareBuffer r.buffer r.outDest r.stamp (consume r.index f.context x) →
              (listRoom (s.tx.get (otherPort r.port)) r.list = true →
                FollowsOnly (countPassed r.index { y with tx := (s.tx.set (otherPort r.port)
                  (startTx y.buffer (listAdd (s.tx.get (otherPort r.port)) r.list r.buffer))) }) t) ∧
              (listRoom (s.tx.get (otherPort r.port)) r.list = false →
                FollowsOnly (countRefused r.index (Withdrawn r.port ref (handOver
                  ⟨.txFull, r.port, some (sourceOf (s.buffer r.buffer).bytes), some r.dest,
                    some (classOf (s.buffer r.buffer).bytes), r.index⟩
                  { y with pool := ⟨y.pool.buffers, s.pool.free ++ [r.buffer]⟩ }))) t))))

/-! ### Chapters 2 and 8: the lookup and the verdict -/

/-- A lookup reads the rows from 0 up and stops at the first that matches by state, port, source and class; that row's
entry governs the telegram, one it does not admit is refused by it at check 4 or 5, and no destination, privilege or
higher row takes part. A poisoned or uncorrectable row before a match stops it; each correctable row read is counted,
in a count that saturates at 65535; over rows that do not match it finds none (R24 to R26, R120). -/
def Obligations.LookupStopsAtTheLowestMatch : Prop :=
  (∀ p t, keyOf p t = ⟨p, sourceOf t, classOf t⟩) ∧
  (∀ (x : BitVec 16) n, (satPlus x n).toNat = min (x.toNat + n) 65535) ∧
  ∀ b k s,
    ∀ passes : Index → Prop,
      (∀ j, passes j ↔ (RowClean b j s ∨ RowCorrectable b j s) ∧ ¬RowMatches b k s j) →
    (∀ i, (∀ j < i, passes j) →
      ∀ n, n = ((List.finRange 256).filter fun j => decide (j < i ∧ RowCorrectable b j s)).length →
      (RowMatches b k s i → RowClean b i s ∨ RowCorrectable b i s →
        lookup b k s = ⟨.found i (s.store.row b i).entry, if RowCorrectable b i s then n + 1 else n, s.draws⟩ ∧
        ∀ d, ((s.store.row b i).entry.privLimit.toNat < max d.priv.toNat (s.agent.settings.floor d.port).toNat →
            verdictOf s b (lookup b k s).stop d = .refuse .privilege (some i)) ∧
          (max d.priv.toNat (s.agent.settings.floor d.port).toNat ≤ (s.store.row b i).entry.privLimit.toNat →
            (d.dest = 0xFFFF → (s.store.row b i).entry.broadcast = false) →
            (d.dest ≠ 0xFFFF → d.dest.toNat < (s.store.row b i).entry.dstLow.toNat ∨
              (s.store.row b i).entry.dstHigh.toNat < d.dest.toNat) →
            verdictOf s b (lookup b k s).stop d = .refuse .range (some i))) ∧
      (s.store.poisoned b i = true → lookup b k s = ⟨.poisoned i, n, s.draws⟩) ∧
      (RowUncorrectable b i s → lookup b k s = ⟨.fault i, n, s.draws⟩)) ∧
    ((∀ i, passes i) → lookup b k s = ⟨.noMatch,
      ((List.finRange 256).filter fun j => decide (RowCorrectable b j s)).length, s.draws⟩)

/-- The verdict of checks 4 to 8 against a matched entry, in the order of the checks, and the verdict where no row
matched; and checks 6 to 8 from a held context, as a release evaluation makes them. And what judgement reads of a
telegram's bytes: source, destination, class and privilege tag at their places of the header, whether it has an URGENT
option and a STAMP slot whose filled marker is clear, and the value of its HOLD_LIMIT option (R2, R27, R29 to R35, R37,
R103). -/
def Obligations.ChecksDecideTheVerdict : Prop :=
  (∀ p dest source five six seq size options payload, OptionsInForm six options →
    ∀ d, d = describe p (telegramBytes dest source five six seq size options payload) →
    d.port = p ∧ d.source = source ∧ d.dest = dest ∧ d.cls = five.extractLsb' 4 4 ∧
      d.priv = five.extractLsb' 2 2 ∧
      (d.urgent = true ↔ ∃ v, (0x03, v) ∈ options) ∧
      (d.unfilledStamp = true ↔ ∃ v, (0x01, v) ∈ options ∧ (byteAt v 7).getLsbD 7 = false) ∧
      (∀ v, (0x02, v) ∈ options → d.holdLimit = some (halfAt v 0)) ∧
      ((∀ v, (0x02, v) ∉ options) → d.holdLimit = none)) ∧
  ∀ s bank d,
    (∀ i e, verdictOf s bank (.found i e) d =
      if e.privLimit.toNat < max d.priv.toNat (s.agent.settings.floor d.port).toNat then
        .refuse .privilege (some i)
      else if ¬((d.dest = 0xFFFF ∧ e.broadcast = true) ∨
          (d.dest ≠ 0xFFFF ∧ e.dstLow.toNat ≤ d.dest.toNat ∧ d.dest.toNat ≤ e.dstHigh.toNat)) then
        .refuse .range (some i)
      else if s.agent.supervision.state = .lapsed ∧ e.unsup = .block then
        .refuse .unsupervised (some i)
      else if e.windows ≠ 0 ∧ e.windows &&& s.windows.openSets.get bank = 0 then
        if e.closed = .hold ∧ effectiveLimit e d ≠ 0 then
          .hold (factsOf bank i e d) .window (effectiveLimit e d)
        else .refuse .windowClosed (some i)
      else if e.ceiling ≠ 0 ∧ (s.stream i).credit = 0 then
        if e.overRate = .hold ∧ effectiveLimit e d ≠ 0 then
          .hold (factsOf bank i e d) .rate (effectiveLimit e d)
        else .refuse .rate (some i)
      else .pass (factsOf bank i e d)) ∧
    verdictOf s bank .noMatch d =
      (if s.agent.settings.defaultPass then
        .pass ⟨bank, none, ⟨0, .refuse, .refuse, .continue_, 0⟩, d.dest, .normal, .ignore⟩
      else .refuse .noEntry none) ∧
    (∀ i, verdictOf s bank (.poisoned i) d = .refuse .tableFault none ∧
      verdictOf s bank (.fault i) d = .refuse .tableFault none) ∧
    (∀ i (c : HeldContext), ∀ credit : BitVec 8, credit = (match i with
        | some j => (s.stream j).credit
        | none => 0) →
      policyNow s bank i c =
        if s.agent.supervision.state = .lapsed ∧ c.unsup = .block then .refuse .unsupervised
        else if c.windows ≠ 0 ∧ c.windows &&& s.windows.openSets.get bank = 0 then
          (if c.closed = .hold then .hold .window else .refuse .windowClosed)
        else if c.ceiling ≠ 0 ∧ credit = 0 then (if c.overRate = .hold then .hold .rate else .refuse .rate)
        else .pass) ∧
    (∀ i e, factsOf bank i e d = ⟨bank, some i, ⟨e.windows, e.closed, e.overRate, e.unsup, e.ceiling⟩,
      if d.dest = 0xFFFF then d.dest else match e.remap with
        | some base => base + (d.dest - e.dstLow)
        | none => d.dest,
      if d.urgent = true ∧ e.urgent = true then .urgent else .normal, e.stamp⟩) ∧
    ∀ e, effectiveLimit e d = match d.holdLimit with
      | some n => min e.holdLimit.toNat n.toNat
      | none => e.holdLimit.toNat

/-- The conclusion of the lookup of a telegram that is no second: PASS prepares it, appends it to the opposite port and
counts it, or drops it TX_FULL; HOLD admits a record and counts it, or refuses HOLD_FULL; REFUSE frees its buffer and
hands over the record. The first of a binding writes its outcome, the list or the held record, and its particulars into
the context, and is held awaiting its partner; a binding whose deadline is reached, with no arrival in time, then ends
by that outcome. The Judge goes on to the request in its slot, ahead of the arrivals; where there is none, to the
oldest telegram of its arrival list, which it disposes of or puts to the bind test, the others left; and it is IDLE
where there is neither. And the preparation writes the outgoing destination and, under FILL, all eight bytes of an
unfilled STAMP slot from the arrival descriptor, and leaves every other byte. A count of an index rises by 1, round the
wrap of its 32 bits; check 8 takes one credit of the index where the ceiling is not 0 and the credit is above 0;
nothing else of that index changes, no other index does, and without an index nothing (R20 to R23, R27, R33 to R40, R45
to R47, R52, R87, R88, R100, R102, R104, R179; the effects of a verdict in that order: log 15). -/
def Obligations.LookupConclusionCarriesTheVerdict : Prop :=
  (∀ i s, ∀ put : StreamStatus → State,
      put = (fun r => { s with policer := { s.policer with streams := s.policer.streams.set i.val r } }) →
    countPassed (some i) s = put { s.stream i with passed := (s.stream i).passed + 1 } ∧
    countRefused (some i) s = put { s.stream i with refused := (s.stream i).refused + 1 } ∧
    countHeld (some i) s = put { s.stream i with held := (s.stream i).held + 1 } ∧
    ∀ c : HeldContext,
      (c.ceiling ≠ 0 → (s.stream i).credit ≠ 0 →
        consume (some i) c s = put { s.stream i with credit := (s.stream i).credit - 1 }) ∧
      (c.ceiling = 0 ∨ (s.stream i).credit = 0 → consume (some i) c s = s)) ∧
  (∀ s, countPassed none s = s ∧ countRefused none s = s ∧ countHeld none s = s ∧ ∀ c, consume none c s = s) ∧
  (∀ b outDest stamp s dest source five six seq size options payload, OptionsInForm six options →
    (s.buffer b).bytes = telegramBytes dest source five six seq size options payload →
    ∀ x, x = (s.buffer b).desc → ∀ fill : List Byte,
      fill = be16 x.time.day ++ be24 (BitVec.ofNat 24 x.time.second.val) ++
        be16 (BitVec.ofNat 16 x.time.sub.val) ++ [match x.quality with
          | .unset => 0x80#8
          | .degraded => 0x81#8
          | .nominal => 0x82#8] →
    ∀ after, after = (options.map fun o =>
      if stamp = .fill ∧ o.1 = 0x01 ∧ (byteAt o.2 7).getLsbD 7 = false then (0x01, fill) else o) →
    prepareBuffer b outDest stamp s = { s with pool := (poolWith s b
      ⟨telegramBytes outDest source five six seq size after payload, x⟩ s.pool.free) }) ∧
  ∀ p b role arrivals slot bind key bank o s, OwnInHand p b role arrivals slot bind key bank s →
    ∀ w, w = lookup bank key s → w.joins = false →
    ∀ l, l = (s.buffer b).bytes → ∀ x, x = afterReads w s →
    ∃ t, exec (.lookupConclusion p o) s = .next t ∧
    (∀ reason index, verdictOf s bank w.stop (describe p l) = .refuse reason index →
      Concludes p (FirstConcluded p l .refused index id (Dropped p b l reason index x)) t) ∧
    (∀ f y, verdictOf s bank w.stop (describe p l) = .pass f →
      y = prepareBuffer b f.outDest f.stamp (consume f.index f.context x) →
      (listRoom (s.tx.get (otherPort p)) f.list = true →
        ∀ broken : State → State, broken = (fun u => match bind with
          | some c => handOver ⟨.boundBroken, p, some c.source, some (destOf l), some (classOf l), f.index⟩ u
          | none => u) →
        Concludes p (FirstConcluded p l (.passed f.list) f.index broken
          (countPassed f.index { y with tx := (s.tx.set (otherPort p)
            (startTx y.buffer (listAdd (s.tx.get (otherPort p)) f.list b))) })) t) ∧
      (listRoom (s.tx.get (otherPort p)) f.list = false →
        Concludes p (FirstConcluded p l .refused f.index id (Dropped p b l .txFull f.index y)) t)) ∧
    (∀ f reason limit, verdictOf s bank w.stop (describe p l) = .hold f reason limit →
      (32 ≤ s.hold.records.length →
        Concludes p (FirstConcluded p l .refused f.index id (Dropped p b l .holdFull f.index x)) t) ∧
      (s.hold.records.length < 32 → (bind ≠ none → RefsDistinct s) → ∀ r : HeldRecord,
        r = ⟨s.hold.nextRef, b, (s.buffer b).desc.port, destOf l, f.bank, f.index, f.outDest, f.list,
          f.stamp, f.bank != s.store.active, .first ⟨reason, f.context, s.cal.uptime,
            s.cal.uptime + BitVec.ofNat 40 (limit * 1024), none, bind.isSome, false⟩⟩ →
        ∀ y : State, y = countHeld f.index { x with hold := { x.hold with
          records := s.hold.records ++ [r]
          nextRef := s.hold.nextRef + 1 } } →
        Concludes p (FirstConcluded p l (.held r.ref) f.index (Removed .boundBroken r)
          (if s.agent.settings.holdHighMark.toNat ≤ s.hold.records.length + 1
            then tell .holdHigh y else y)) t)) ∧
    (arrivals = [] → slot = none → t.hold.outstanding.get p = s.hold.outstanding.get p →
      (t.judges.get p).phase = .idle ∧ (t.judges.get p).slot = none) ∧
    ∀ r st, r ∈ s.hold.records → slot = some r.ref → RefsDistinct s →
      s.hold.outstanding.get p = some ⟨r.ref, st⟩ → (t.judges.get p).arrivals = arrivals ∧ RequestTaken p r t

/-- A lookup that meets an uncorrectable row: the pair joins the Poison Set, its parameter record is unusable and an
active index's credit is 0, TABLE_FAULT is told, and what was judged is refused TABLE_FAULT, in either order. The first
of a binding has outcome REFUSED. A second is refused, behind a first that passed or has gone, and takes a held first
out BOUND_BROKEN. A rejudge's record is removed, as RejudgeVerdictIsCarriedOut and SecondsFollowTheirFirsts say of the
same operation, unless it has gone or its request is stale. The Judge then takes its next item, the oldest arrival
where no request is ahead (R20 to R23, R26, R40 to R42, R46, R48, R50, R97, R116, R117, R121, R178; the return before a
Report's claim, and the flag before or after all the records: log 15). -/
def Obligations.LookupFaultPoisonsTheRow : Prop :=
  ∀ p key bank o s i n d, EachBufferInOnePlace s → lookup bank key s = ⟨.fault i, n, d⟩ →
    ∀ concludes : (State → State) → State → Prop,
      concludes = (fun refusal t => ∀ x, x = Poisoned bank i (afterReads ⟨.fault i, n, d⟩ s) →
        (o = .flagFirst → Concludes p (refusal (tell .tableFault x)) t) ∧
        (o = .recordsFirst → Concludes p (tell .tableFault (refusal x)) t)) →
    (∀ b role arrivals slot bind, OwnInHand p b role arrivals slot bind key bank s → ∀ l, l = (s.buffer b).bytes →
      ∃ t, exec (.lookupConclusion p o) s = .next t ∧
        concludes (fun u => FirstConcluded p l .refused none id (Dropped p b l .tableFault none u)) t) ∧
    (∀ b role arrivals slot, SecondInHand p b role arrivals slot key bank s → ∀ l, l = (s.buffer b).bytes →
      ∃ t, exec (.lookupConclusion p o) s = .next t ∧
        (∀ list passed, role = .secondPassed list passed → concludes (Dropped p b l .tableFault none) t) ∧
        ∀ ref held, role = .secondHeld ref held → RefsDistinct s →
          ((∀ r ∈ s.hold.records, r.ref ≠ ref) → concludes (Dropped p b l .tableFault none) t) ∧
          ∀ r g, r ∈ s.hold.records → r.ref = ref → r.port = p → r.role = .first g → g.partner = none →
            concludes (fun u => Removed .boundBroken r (Dropped p b l .tableFault none u)) t) ∧
    ∀ ref arrivals bind, RejudgeInHand p ref arrivals bind key bank s →
      ∃ t, exec (.lookupConclusion p o) s = .next t ∧ NextRequested p arrivals t ∧
        ((∀ r ∈ s.hold.records, r.ref ≠ ref) → concludes (RequestEnded p) t) ∧
        (s.hold.outstanding.get p = some ⟨ref, true⟩ → concludes (RequestEnded p) t) ∧
        ∀ r f, r ∈ s.hold.records → r.ref = ref → r.port = p → r.role = .first f →
          s.hold.outstanding.get p = some ⟨ref, false⟩ →
          concludes (fun u => RequestEnded p (carryVerdict r f (.refuse .tableFault none) u)) t ∧
          (f.partner = none → f.awaiting = false →
            concludes (fun u => RequestEnded p (TakenOut .tableFault none r u)) t)

/-- The verdict of a rejudge is carried out on its first record. On one without a partner that awaits none: REFUSE
removes the record; PASS releases it with its new facts, or drops it TX_FULL; HOLD leaves it at its place with its new
facts, or expires it. On a first with a partner or one that awaits it, as SecondsFollowTheirFirsts says of the same
operation. In each case the record is pending no more and the port has no request that names it. Of a record that has
gone, and of a request made stale by a commit, nothing is carried out: the record keeps its mark, and a credit that
check 8 took of a stale one is not returned. Where its lookup meets an uncorrectable row, LookupFaultPoisonsTheRow says
the same. The oldest pending first of the port is requested next, and its Judge takes it; where there is none, it takes
the oldest telegram of its arrival list (R20 to R23, R41, R42, R46, R53, R104, R105, R109, R115 to R117; logs 14, 15,
23). -/
def Obligations.RejudgeVerdictIsCarriedOut : Prop :=
  (∀ p o key bank s n arrivals bind, RejudgeInHand p n arrivals bind key bank s →
    ∀ w, w = lookup bank key s → w.joins = false → (∀ r ∈ s.hold.records, r.ref ≠ n) →
    ∃ t, exec (.lookupConclusion p o) s = .next t ∧ Concludes p (RequestEnded p (afterReads w s)) t ∧
      NextRequested p arrivals t) ∧
  ∀ p o key bank s r f arrivals bind, RejudgeInHand p r.ref arrivals bind key bank s →
    r ∈ s.hold.records → r.port = p → r.role = .first f →
    ∀ w, w = lookup bank key s → w.joins = false →
    ∀ l, l = (s.buffer r.buffer).bytes → ∀ x, x = afterReads w s →
    ∀ v, v = verdictOf s bank w.stop (describe p l) →
    ∀ taken : State, taken = (match v with
      | .pass g => consume g.index g.context x
      | .hold _ _ _ => x
      | .refuse _ _ => x) →
    ∀ left : HoldQueue, left = { s.hold with
      records := s.hold.records.filter fun q => q.ref != r.ref } →
    ∀ record : Reason → Option Index → Handed, record = (fun reason index =>
      ⟨reason, p, some (sourceOf l), some r.dest, some (classOf l), index⟩) →
    ∃ t, exec (.lookupConclusion p o) s = .next t ∧ NextRequested p arrivals t ∧
    ∀ concludes : State → Prop, concludes = (fun z => Concludes p (RequestEnded p z) t) →
    (s.hold.outstanding.get p = some ⟨r.ref, true⟩ → concludes taken) ∧
    (s.hold.outstanding.get p = some ⟨r.ref, false⟩ →
    (∀ q, t.hold.outstanding.get p = some q → q.ref ≠ r.ref) ∧
    concludes (carryVerdict r f v taken) ∧
    (f.partner = none → f.awaiting = false →
    (∀ reason index, v = .refuse reason index →
      concludes (countRefused index (handOver (record reason index)
        { x with hold := left, pool := ⟨s.pool.buffers, s.pool.free ++ [r.buffer]⟩ }))) ∧
    (∀ g y, v = .pass g →
      y = prepareBuffer r.buffer g.outDest g.stamp (consume g.index g.context { x with hold := left }) →
      (listRoom (s.tx.get (otherPort p)) g.list = true →
        concludes (countPassed g.index { y with tx := (s.tx.set (otherPort p)
          (startTx y.buffer (listAdd (s.tx.get (otherPort p)) g.list r.buffer))) })) ∧
      (listRoom (s.tx.get (otherPort p)) g.list = false →
        concludes (countRefused g.index (handOver (record .txFull g.index)
          { y with pool := ⟨y.pool.buffers, s.pool.free ++ [r.buffer]⟩ })))) ∧
    ∀ g reason n, v = .hold g reason n →
      ∀ deadline : Uptime, deadline = (if (f.deadline - f.start).toNat ≤ n * 1024 then f.deadline
        else f.start + BitVec.ofNat 40 (n * 1024)) →
      (atOrBefore deadline s.cal.uptime = true →
        concludes (handOver (record .holdExpired g.index)
          { x with hold := left, pool := ⟨s.pool.buffers, s.pool.free ++ [r.buffer]⟩ })) ∧
      (atOrBefore deadline s.cal.uptime = false →
        concludes { x with hold := { s.hold with records := s.hold.records.map fun q =>
          if q.ref = r.ref then ⟨r.ref, r.buffer, r.port, r.dest, g.bank, g.index, g.outDest, g.list,
            g.stamp, false, .first ⟨reason, g.context, f.start, deadline, none, false, false⟩⟩
          else q } })))

/-- A second follows its first. Its verdict is that of checks 3 to 5. Where the first passed, it is appended to the
list of the first and takes no credit. Where the first is held, its own refusal or a full queue takes the first out
BOUND_BROKEN; else it is held as the partner, and the first is released, evaluated or left to its rejudge; where the
first has gone it is judged as any telegram. A pair is released in order and on one list, and a rejudge carries both:
by HOLD it meets the catch-up test, removed UNSUPERVISED after a lapse that its policy blocks, evaluated at once where
its window has opened or its index has credit, and else left; a first that awaits its partner is cleared by PASS, stays
by HOLD, and leaves its binding closed by REFUSE or by its deadline; a request that names a removed first is withdrawn.
The Judge of the second then takes its next item, the oldest arrival where no request is ahead (R20 to R23, R48 to R50,
R53, R55, R101, R103, R105, R109, R116). The refused count of a partner whose append is refused (log 27), the list of a
pair after a rejudge (log 28) and the deadline counted from the hold start (log 23) are the model's reading; and so
are, in that order, a buffer's return and a Report's claim, the records of a refused second and of its first, HOLD_HIGH
and the first's evaluation, and the two appends of a pair with none between (log 15). Where the lookup of a second
meets an uncorrectable row, LookupFaultPoisonsTheRow says what follows. -/
def Obligations.SecondsFollowTheirFirsts : Prop :=
  (∀ s bank d,
    (∀ i e, secondVerdict s bank (.found i e) d =
      if e.privLimit.toNat < max d.priv.toNat (s.agent.settings.floor d.port).toNat then
        .refuse .privilege (some i)
      else if ¬((d.dest = 0xFFFF ∧ e.broadcast = true) ∨
          (d.dest ≠ 0xFFFF ∧ e.dstLow.toNat ≤ d.dest.toNat ∧ d.dest.toNat ≤ e.dstHigh.toNat)) then
        .refuse .range (some i)
      else .pass (factsOf bank i e d)) ∧
    secondVerdict s bank .noMatch d = verdictOf s bank .noMatch d ∧
    ∀ i, secondVerdict s bank (.poisoned i) d = .refuse .tableFault none ∧
      secondVerdict s bank (.fault i) d = .refuse .tableFault none) ∧
  (∀ p b role arrivals slot key bank o s, SecondInHand p b role arrivals slot key bank s →
    ∀ w, w = lookup bank key s → w.joins = false →
    ∀ l, l = (s.buffer b).bytes → ∀ x, x = afterReads w s →
    ∀ v, v = secondVerdict s bank w.stop (describe p l) →
    ∃ t, exec (.lookupConclusion p o) s = .next t ∧
    (∀ list passed, role = .secondPassed list passed →
      (∀ reason index, v = .refuse reason index → Concludes p (Dropped p b l reason index x) t) ∧
      ∀ f y, v = .pass f → y = prepareBuffer b f.outDest f.stamp x →
        (listRoom (s.tx.get (otherPort p)) list = true →
          Concludes p (countPassed f.index { y with tx := (s.tx.set (otherPort p)
            (startTx y.buffer (listAdd (s.tx.get (otherPort p)) list b))) }) t) ∧
        (listRoom (s.tx.get (otherPort p)) list = false →
          Concludes p (Dropped p b l .txFull f.index y) t)) ∧
    ∀ ref held, role = .secondHeld ref held → RefsDistinct s →
      ((∀ r ∈ s.hold.records, r.ref ≠ ref) →
        (∀ reason index, v = .refuse reason index → Concludes p (Dropped p b l reason index x) t) ∧
        (∀ f, v = .pass f → 32 ≤ s.hold.records.length →
          Concludes p (Dropped p b l .holdFull f.index x) t) ∧
        (∀ f, v = .pass f → s.hold.records.length < 32 →
          exec (.lookupConclusion p o) { s with judges := (s.judges.set p
            ⟨arrivals, slot, none, .lookup (.telegram b .plain key) bank⟩) } = .next t)) ∧
      ∀ r g, r ∈ s.hold.records → r.ref = ref → r.port = p → r.role = .first g → g.partner = none →
        (∀ reason index, v = .refuse reason index →
          Concludes p (Removed .boundBroken r (Dropped p b l reason index x)) t) ∧
        (∀ f, v = .pass f → 32 ≤ s.hold.records.length →
          Concludes p (Removed .boundBroken r (Dropped p b l .holdFull f.index x)) t) ∧
        (∀ f, v = .pass f → s.hold.records.length < 32 →
          ∀ first : HeldRecord,
            first = { r with role := .first { g with partner := some s.hold.nextRef, awaiting := false } } →
          ∀ partner : HeldRecord, partner = ⟨s.hold.nextRef, b, (s.buffer b).desc.port, destOf l, f.bank,
            f.index, f.outDest, r.list, f.stamp, r.pending, .partner ref⟩ →
          ∀ y : State, y = countHeld f.index { x with hold := { x.hold with
            records := (s.hold.records.map fun q => if q.ref = ref then first else q) ++ [partner]
            nextRef := s.hold.nextRef + 1 } } →
          ∀ z : State, z = (if s.agent.settings.holdHighMark.toNat ≤ s.hold.records.length + 1
            then tell .holdHigh y else y) →
          (r.pending = true → Concludes p z t) ∧
          (r.pending = false → g.cleared = true → Concludes p (releaseFirst first z) t) ∧
          (r.pending = false → g.cleared = false → Concludes p
            (evaluate first { g with partner := some s.hold.nextRef, awaiting := false } z) t))) ∧
  (∀ s r f q, RefsDistinct s → r ∈ s.hold.records → q ∈ s.hold.records → r.role = .first f →
    f.awaiting = false → f.partner = some q.ref → q.role = .partner r.ref →
    (∀ reason index, removeCounted r reason index s = countRefused index
      (Withdrawn r.port r.ref (TakenOut .boundBroken q.index q (TakenOut reason index r s)))) ∧
    (∀ reason, policyNow s r.bank r.index f.context = .refuse reason →
      evaluate r f s = removeCounted r reason r.index s) ∧
    (∀ reason, policyNow s r.bank r.index f.context = .hold reason →
      evaluate r f s = { s with hold := { s.hold with records := (s.hold.records.map fun h =>
        if h.ref = r.ref then h.mapFirst (fun g => { g with reason := reason }) else h) } }) ∧
    (policyNow s r.bank r.index f.context = .pass →
      evaluate r f s = releaseFirst r (consume r.index f.context s)) ∧
    (∀ lapsed : Prop, (lapsed ↔ s.agent.supervision.state = .lapsed ∧ f.context.unsup = .block) →
      ∀ due : Prop, (due ↔ f.reason = .window ∧ f.context.windows &&& s.windows.openSets.get r.bank ≠ 0 ∨
        f.reason = .rate ∧ ∃ i, r.index = some i ∧ (s.stream i).credit ≠ 0) →
      (lapsed → catchUp r f s = countRefused r.index
        (Withdrawn r.port r.ref (TakenOut .boundBroken q.index q (TakenOut .unsupervised r.index r s)))) ∧
      (¬lapsed → due → catchUp r f s = evaluate r f s) ∧ (¬lapsed → ¬due → catchUp r f s = s)) ∧
    (∀ y, y = prepareBuffer r.buffer r.outDest r.stamp s →
      (listRoom (s.tx.get (otherPort r.port)) r.list = false →
        releaseFirst r s = removeCounted r .txFull r.index y) ∧
      (listRoom (s.tx.get (otherPort r.port)) r.list = true →
        ∀ u : State, u = countPassed r.index { y with
          hold := { s.hold with records := s.hold.records.filter fun h => h.ref != r.ref }
          tx := (s.tx.set (otherPort r.port)
            (startTx y.buffer (listAdd (s.tx.get (otherPort r.port)) r.list r.buffer))) } →
        ∀ z : State, z = prepareBuffer q.buffer q.outDest q.stamp u →
        (listRoom (u.tx.get (otherPort q.port)) r.list = true →
          releaseFirst r s = countPassed q.index { z with
            hold := { u.hold with records := u.hold.records.filter fun h => h.ref != q.ref }
            tx := (u.tx.set (otherPort q.port)
              (startTx z.buffer (listAdd (u.tx.get (otherPort q.port)) r.list q.buffer))) }) ∧
        (listRoom (u.tx.get (otherPort q.port)) r.list = false →
          releaseFirst r s = countRefused q.index (TakenOut .txFull q.index q z))))) ∧
  ∀ s r f, RefsDistinct s → r ∈ s.hold.records → r.role = .first f →
    ∀ fresh : Facts → FirstPart → HeldRecord, fresh = (fun g h => ⟨r.ref, r.buffer, r.port, r.dest, g.bank,
      g.index, g.outDest, g.list, g.stamp, false, .first h⟩) →
    ∀ placed : HeldRecord → State, placed = (fun n => { s with hold := { s.hold with
      records := (s.hold.records.map fun h => if h.ref = r.ref then n
        else if f.partner = some h.ref then { h with pending := false } else h) } }) →
    ∀ deadline : Nat → Uptime, deadline = (fun n =>
      if (f.deadline - f.start).toNat ≤ n * 1024 then f.deadline else f.start + BitVec.ofNat 40 (n * 1024)) →
    (∀ q, f.awaiting = false → q ∈ s.hold.records → f.partner = some q.ref → q.role = .partner r.ref →
      (∀ reason index, carryVerdict r f (.refuse reason index) s = countRefused index
        (Withdrawn r.port r.ref (TakenOut .boundBroken q.index q (TakenOut reason index r s)))) ∧
      (∀ g n, n = fresh g { f with context := g.context } →
        carryVerdict r f (.pass g) s = releaseFirst n (placed n)) ∧
      ∀ g reason k, (atOrBefore (deadline k) s.cal.uptime = true → carryVerdict r f (.hold g reason k) s =
          Withdrawn r.port r.ref (TakenOut .boundBroken q.index q (TakenOut .holdExpired g.index r s))) ∧
        (atOrBefore (deadline k) s.cal.uptime = false →
          ∀ h : FirstPart, h = { f with
            reason := reason, context := g.context, deadline := deadline k, cleared := false } →
          ∀ n, n = fresh g h → carryVerdict r f (.hold g reason k) s = catchUp n h (placed n))) ∧
    (f.awaiting = true → f.partner = none →
      (∀ reason index, carryVerdict r f (.refuse reason index) s = countRefused index
        (Withdrawn r.port r.ref (Unbound r.port r.ref (TakenOut reason index r s)))) ∧
      (∀ g, carryVerdict r f (.pass g) s =
        placed (fresh g { f with context := g.context, cleared := true })) ∧
      ∀ g reason k, (atOrBefore (deadline k) s.cal.uptime = true → carryVerdict r f (.hold g reason k) s =
          Withdrawn r.port r.ref (Unbound r.port r.ref (TakenOut .holdExpired g.index r s))) ∧
        (atOrBefore (deadline k) s.cal.uptime = false →
          carryVerdict r f (.hold g reason k) s = placed (fresh g { f with
            reason := reason, context := g.context, deadline := deadline k, cleared := false })))

/-- The arbiter of a free port of a READY store, by rank: an urgent scrub request; the Agent's at wait count 4; a
Judge's, N and F in turn when both wait; the Agent's; the Scrubber's. The wait count rises at each grant the Agent's
request is passed over at, and is 0 at its own, at which a WRITE_ENTRY writes its row. While the store is INITIALIZING
there is no grant (R24, R124 to R127, R135, R138). That a grant comes before all else that follows an event is the
model's fixed order (log 14), and that it leaves the Scrubber's request pending to the end of the step its choice (log
35). -/
def Obligations.ArbiterGrantsByRank : Prop :=
  ∀ s,
    (∀ n, s.store.phase = .initializing n → grant s = none) ∧
    (s.store.port ≠ .free → grant s = none) ∧
    (∀ t, grant s = some t → ∀ n, settleFor (n + 1) s = settleFor n t) ∧
    (s.store.phase = .ready → s.store.port = .free →
      ∀ urgent : Prop, (urgent ↔ s.store.scrubRequest = true ∧
        s.agent.settings.urgentLevel.toNat ≤ s.store.debt.val) →
      ∀ wait : Fin 5, wait.val = (if s.store.agentRequest then min (s.store.waitCount.val + 1) 4
        else s.store.waitCount.val) →
      ∀ scrub agent : State, scrub = { s with store := { s.store with port := .scrub, waitCount := wait } } →
      (∀ x, x = WrittenAtGrant s → agent = { x with store := { x.store with
        port := .agent s.store.active, agentRequest := false, waitCount := 0 } }) →
      (urgent → grant s = some scrub) ∧
      (¬urgent → s.store.agentRequest = true → s.store.waitCount = 4 → grant s = some agent) ∧
      (¬urgent → ¬(s.store.agentRequest = true ∧ s.store.waitCount = 4) →
        ∀ p it, (s.judges.get p).phase = .waiting it →
        (∀ it', (s.judges.get (otherPort p)).phase ≠ .waiting it') ∨ s.store.lastJudge = otherPort p →
        grant s = some { s with
          judges := s.judges.set p { s.judges.get p with phase := .lookup it s.store.active }
          store := { s.store with port := .judge p, lastJudge := p, waitCount := wait } }) ∧
      (¬urgent → (∀ p it, (s.judges.get p).phase ≠ .waiting it) →
        (s.store.agentRequest = true → grant s = some agent) ∧
        (s.store.agentRequest = false → s.store.scrubRequest = true → grant s = some scrub) ∧
        (s.store.agentRequest = false → s.store.scrubRequest = false → grant s = none)))

/-! ### Chapter 11: exception records and alerts -/

/-- Where a record handed over goes: it coalesces into the newest of its key, is lost at repeat count 255 or in a
full queue, and is appended otherwise; an append to an empty queue tells EXCEPTION, a lost record EXC_LOST (R170 to
R172). -/
def Obligations.ExceptionRecordsArePlaced : Prop :=
  ∀ h s,
    (s.exc.queue = [] → handOver h s = tell .exception { s with exc := { s.exc with
      queue := [⟨h, ⟨s.cal.day, s.cal.secondOfDay, s.cal.sub⟩, s.cal.quality, 1⟩] } }) ∧
    ∀ l n, s.exc.queue = l ++ [n] →
      ∀ same : Prop, (same ↔ n.what.reason = h.reason ∧ n.what.port = h.port ∧
        n.what.source = h.source ∧ n.what.index = h.index) →
      (same → n.repeats.toNat < 255 → handOver h s = { s with exc := { s.exc with
        queue := l ++ [{ n with repeats := n.repeats + 1 }] } }) ∧
      ((same ∧ n.repeats.toNat = 255) ∨ (¬same ∧ 16 ≤ s.exc.queue.length) →
        handOver h s = tell .excLost { s with exc := { s.exc with
          lost := if s.exc.lost.toNat = 255 then 255 else s.exc.lost + 1 } }) ∧
      (¬same → s.exc.queue.length < 16 → handOver h s = { s with exc := { s.exc with
        queue := l ++ [n, ⟨h, ⟨s.cal.day, s.cal.secondOfDay, s.cal.sub⟩, s.cal.quality, 1⟩] } })

/-- A telling leaves a set flag as it is; a clear flag rises, ALERT_N follows, and the Report goes to Port F's normal
list where its enable and the address allow, a buffer is free and the list has room. And the bytes of a telegram the
gate composes, a Report or a response: its addresses, class 15, zeros for the flags, the privilege tag and the option
count, its sequence tag, its payload length and its payload; and the bits of the flags (R156, R174, R176, R177, R179).
-/
def Obligations.AFlagRisesOnceAndReports : Prop :=
  (∀ (dest source : Addr) (seq : Byte) (payload : List Byte), payload.length ≤ 200 →
    ∀ l, l = composed dest source seq payload → l.length = 9 + payload.length ∧
      byteAt l 0 = 0xD3 ∧ halfAt l 1 = dest ∧ halfAt l 3 = source ∧ byteAt l 5 = 0xF0 ∧ byteAt l 6 = 0 ∧
      byteAt l 7 = seq ∧ (byteAt l 8).toNat = payload.length ∧ l.drop 9 = payload) ∧
  [Flag.exception, .excLost, .tableFault, .scrubUrgent, .referenceLost, .commitDone, .supervisionLapsed,
    .holdHigh].map Flag.bit = [0, 1, 2, 3, 4, 5, 6, 7] ∧
  ∀ f s,
    (s.exc.flags.getLsbD f.bit = true → tell f s = s) ∧
    (s.exc.flags.getLsbD f.bit = false →
      ∀ flags : BitVec 8, flags = s.exc.flags ||| BitVec.twoPow 8 f.bit →
      ∀ x : State, x = { s with exc := { s.exc with
        flags := flags, alertLow := (flags &&& s.agent.settings.pinEnables) != 0 } } →
      (s.agent.settings.reportEnables.getLsbD f.bit = false ∨ s.agent.settings.reportAddress = none →
        tell f s = x) ∧
      (s.agent.settings.reportEnables.getLsbD f.bit = true →
        ∀ a, s.agent.settings.reportAddress = some a →
        ∀ y : State, y = { x with exc := { x.exc with reportNumber := s.exc.reportNumber + 1 } } →
        (s.pool.free = [] → tell f s = y) ∧
        ∀ b rest, s.pool.free = b :: rest →
          ∃ t, tell f s = t ∧ t = { y with pool := t.pool, tx := t.tx } ∧
            (∀ c, c ≠ b → t.buffer c = s.buffer c) ∧
            (t.buffer b).bytes = composed a s.ownAddr (s.exc.reportNumber + 1)
              ([0x40, flags, BitVec.ofNat 8 f.bit] ++ be16 s.cal.day
                ++ be24 (BitVec.ofNat 24 s.cal.secondOfDay.val)
                ++ be16 (BitVec.ofNat 16 s.cal.sub.val)
                ++ [s.cal.quality.code, BitVec.ofNat 8 s.exc.queue.length,
                  BitVec.ofNat 8 s.hold.records.length]) ∧
            txLine (t.buffer b) = (t.buffer b).bytes ++ be16 (crc (t.buffer b).bytes) ∧
            (s.tx.f.normal.length < 16 → t.pool.free = rest ∧
              t.tx = s.tx.set .f (startTx t.buffer (listAdd s.tx.f .normal b))) ∧
            (16 ≤ s.tx.f.normal.length → t.pool.free = rest ++ [b] ∧ t.tx = s.tx)))

/-! ### Chapter 10: commands and responses -/

/-- A command above its floor is answered DENIED and recorded MGMT_REFUSED; it has no effect on any block and does not
reload the Supervision Timer (R153, R154). The response before the record is the model's order (log 25). Said of every
row whose meaning is to send its payload on the line (log 7), where the Agent is IDLE and there is room for the answer;
RESET is covered where the straps stay. -/
def Obligations.UnprivilegedCommandIsDenied : Prop :=
  ∀ c h payload b rest s, exec c s = .next (sendCommand h payload s) → payload.length ≤ 200 →
    CommandReady h b rest s → RoomToAnswer h s →
    ¬Privileged h (if isWrite payload then s.agent.settings.writeFloor
      else s.agent.settings.readFloor) s →
    ∃ y, exec c s = .next (handOver
        ⟨.mgmtRefused, h.port, some h.source, some s.ownAddr, some 15, none⟩ y) ∧
      Received h s y ∧ Answered h b (byteAt payload 0) .denied [] s y ∧ y.pool.free = rest ∧
      y = { s with pool := y.pool, rx := y.rx, tx := y.tx }

/-- A completion: a response offered to a list with room is on it; one offered to a full list is lost, its buffer
returns and a TX_FULL record is handed over with the own address as source (in that order: log 15). In DUE the swap of
the banks follows at the completion, with every held record pending, a request that a Judge has taken stale and one
that waits in a slot withdrawn; and the Agent, then IDLE, begins the oldest command of its inbox when the store is
READY (R96, R113, R148, R149, R152, R156, R157). At the conclusion of an access the swap and the next command come
before the release of the port (log 14). -/
def Obligations.FullListLosesTheResponse : Prop :=
  ∀ b status results s p l, p = (s.buffer b).desc.port →
    l = composed (sourceOf (s.buffer b).bytes) s.ownAddr (seqOf (s.buffer b).bytes)
      (byteAt (payloadOf (s.buffer b).bytes) 0 :: status.code :: results) →
    ∀ x : State, x = { s with pool := (poolWith s b
      ⟨l, { (s.buffer b).desc with length := l.length + 2 }⟩ s.pool.free) } →
    ((s.tx.get p).normal.length < 16 → respond b status results s = { x with
      tx := (s.tx.set p (startTx x.buffer (listAdd (s.tx.get p) .normal b))) }) ∧
    (16 ≤ (s.tx.get p).normal.length → respond b status results s =
      handOver ⟨.txFull, p, some s.ownAddr, some (sourceOf (s.buffer b).bytes), some 15, none⟩
        { x with pool := ⟨x.pool.buffers, s.pool.free ++ [b]⟩ }) ∧
    (∀ y, y = respond b status results { s with agent := { s.agent with exec := none } } →
      ((∀ i, s.commit.phase ≠ .due i) → complete b status results s = y) ∧
      ∀ i, s.commit.phase = .due i → ∀ bank, bank = otherBank s.store.active →
        complete b status results s = tell .commitDone (CommitMarked { y with
          store := { s.store with active := bank }
          commit := ⟨.idle, s.commit.count + 1⟩
          policer := { s.policer with streams := Vector.ofFn fun i : Fin 256 =>
            ⟨if (s.param bank i).usable then (s.param bank i).ceiling else 0, 0, 0, 0⟩ } })) ∧
    (s.agent.exec ≠ none ∨ s.agent.inbox = [] ∨ s.store.phase ≠ .ready → beginCommand s = none) ∧
    (∀ c l, s.agent.exec = none → s.agent.inbox = c :: l → s.store.phase = .ready →
      beginCommand s = some (startCommand c { s with agent := { s.agent with inbox := l } })) ∧
    ∀ a i e c l, s.store.port = .agent a → s.agent.exec = some ⟨b, .writeEntry i e⟩ → s.agent.inbox = c :: l →
      s.store.phase = .ready → s.judges = ⟨⟨[], none, none, .idle⟩, ⟨[], none, none, .idle⟩⟩ → s.hold.records = [] →
      ∀ y, y = complete b .done [BitVec.ofNat 8 i.val, bankCode (otherBank a)]
        { s with store := { s.store with port := .closing } } →
      exec .managementAccess s = .next (settleFor (Config.settleBound - 1)
        (startCommand c { y with agent := { y.agent with inbox := l } }))

/-- A code that names no command, or an empty payload, is answered UNKNOWN_COMMAND; arguments out of their ranges are
answered BAD_ARGUMENT, and so is a setting code that is none of the sixteen, a presence byte that a setting does not
allow, a REFILL_CONTROL action that is none of the four, and a payload of another length than its command's; each
reloads the Supervision Timer and does nothing more. And which entry and window records are in their ranges, and the
status codes (R18, R43, R66, R72, R82, R98, R112, R144, R155, R158 to R160, R166, R180). -/
def Obligations.BadCommandsAreAnswered : Prop :=
  (∀ l : List Byte, entryAllowed l = true ↔ (byteAt l 1).extractLsb' 2 4 = 0 ∧
    (halfAt l 2).toNat ≤ (halfAt l 4).toNat ∧ halfAt l 4 ≠ 0xFFFF ∧
    (halfAt l 8).toNat ≤ (halfAt l 10).toNat ∧ halfAt l 10 ≠ 0xFFFF ∧
    ((byteAt l 0).getLsbD 6 = true ∨ (byteAt l 0).getLsbD 5 = true) ∧ (halfAt l 20).toNat ≤ 4095 ∧
    ((byteAt l 0).getLsbD 3 = true →
      (halfAt l 12).toNat + ((halfAt l 10).toNat - (halfAt l 8).toNat) ≤ 0xFFFE)) ∧
  (∀ l : List Byte, (decodeWindow l = none ↔ (byteAt l 0).extractLsb' 0 5 ≠ 0 ∨ (byteAt l 1).getLsbD 7 = true ∨
      1439 < (halfAt l 2).toNat ∨ 1439 < (halfAt l 4).toNat ∨
      ((byteAt l 0).getLsbD 5 = true ∧ (halfAt l 8).toNat < (halfAt l 6).toNat)) ∧
    ∀ r, decodeWindow l = some r → r.used = (byteAt l 0).getLsbD 7 ∧ r.strict = (byteAt l 0).getLsbD 6 ∧
      r.days = (byteAt l 1).setWidth 7 ∧ r.start.val = (halfAt l 2).toNat ∧ r.stop.val = (halfAt l 4).toNat ∧
      r.dates = if (byteAt l 0).getLsbD 5 then some (halfAt l 6, halfAt l 8) else none) ∧
  (∀ (code : Byte) args b s, payloadOf (s.buffer b).bytes = code :: args →
    (∃ n, (code, n) ∈ argumentLengths ∧ args.length ≠ n) ∨ (code = 0x04 ∧ (args = [] ∨ 8 < args.length)) ∨
      (code = 0x10 ∧ ∃ set rest, args = set :: rest ∧ (set = 0 ∨ 16 < set.toNat)) ∨
      (code = 0x11 ∧ ∃ action, args = [action] ∧ 3 < action.toNat) →
    max (privOf (s.buffer b).bytes).toNat (s.agent.settings.floor (s.buffer b).desc.port).toNat ≤
      (if 0x07 ≤ code.toNat then s.agent.settings.writeFloor else s.agent.settings.readFloor).toNat →
    startCommand b s = complete b .badArgument [] (Reloaded s)) ∧
  [Status.done, .denied, .badArgument, .unknownCommand, .poisoned, .conflict].map Status.code = [0, 1, 2, 3, 4, 5] ∧
  ∀ h b rest s,
    (CanRead h b rest s →
      (∀ payload, payload.length ≤ 200 → namesNoCommand payload = true →
        AnswersOnly (.unknownCommand h payload) h b rest (byteAt payload 0) .unknownCommand s) ∧
      (∀ role i, 1 < role.toNat → AnswersOnly (.readEntry h role i) h b rest 0x02 .badArgument s) ∧
      (∀ role w, 1 < role.toNat ∨ 31 < w.toNat →
        AnswersOnly (.readWindow h role w) h b rest 0x03 .badArgument s) ∧
      (∀ l, l.length ≤ 199 → l = [] ∨ 8 < l.length →
        AnswersOnly (.readStreamStatus h l) h b rest 0x04 .badArgument s) ∧
      (∀ port src dst cls priv opts limit, 1 < port.toNat ∨ src = 0xFFFF ∨ 15 < cls.toNat ∨
          3 < priv.toNat ∨ 7 < opts.toNat ∨ (opts.getLsbD 2 = true ∧ 4095 < limit.toNat) →
        AnswersOnly (.probe h port src dst cls priv opts limit) h b rest 0x05 .badArgument s)) ∧
    (CanWrite h b rest s →
      (∀ i e, entryAllowed (bytesOf 22 e) = false →
        AnswersOnly (.writeEntry h i e) h b rest 0x07 .badArgument s) ∧
      (∀ w r, 31 < w.toNat ∨ decodeWindow (bytesOf 10 r) = none →
        AnswersOnly (.writeWindow h w r) h b rest 0x09 .badArgument s) ∧
      (∀ day minute, 1439 < minute.toNat ∨ day.toNat < s.cal.day.toNat ∨
          (day = s.cal.day ∧ minute.toNat ≤ s.cal.minuteOfDay.val) →
        AnswersOnly (.scheduleCommit h day minute) h b rest 0x0D .badArgument s) ∧
      (∀ day wd hr mn sec, 6 < wd.toNat ∨ 23 < hr.toNat ∨ 59 < mn.toNat ∨ 59 < sec.toNat →
        AnswersOnly (.setTime h day wd hr mn sec) h b rest 0x0F .badArgument s) ∧
      (∀ low high, high.toNat < low.toNat →
        AnswersOnly (.clearStreamCounters h low high) h b rest 0x12 .badArgument s) ∧
      (∀ m, m = 0 ∨ 8 < m.toNat → AnswersOnly (.drainExceptions h m) h b rest 0x13 .badArgument s) ∧
      (∀ scope i, 1 < scope.toNat → AnswersOnly (.flushHold h scope i) h b rest 0x15 .badArgument s) ∧
      (∀ (present : Byte) v, present ≠ 1 → ∀ c ∈ [Instr.defaultVerdict h present v, .floorN h present v,
          .floorF h present v, .readFloor h present v, .writeFloor h present v, .nearManagement h present v,
          .bindLimit h present v, .scrubInterval h present v, .urgentLevel h present v, .refillPreset h present v,
          .refillSource h present v, .supervisionPeriod h present v, .holdHighMark h present v,
          .alertPinEnables h present v, .reportEnables h present v],
        AnswersOnly c h b rest 0x10 .badArgument s) ∧
      (∀ (present : Byte) v, 1 < present.toNat →
        AnswersOnly (.reportAddress h present v) h b rest 0x10 .badArgument s))

/-- The results of READ_STATUS at the places of section 12.2: 96 bytes, each field the value it names at the one
reading, with the Supervision Timer after the reload and the good counter of the command's own port after its arrival;
and the codes of the states in it (R158, R166). That bits 7..4 of byte 8 and bits 7..3 of byte 14 are 0 is the model's
choice (log 34). -/
def Obligations.StatusIsReadAtOnce : Prop :=
  [Quality.unset, .degraded, .nominal].map Quality.code = [0, 1, 2] ∧ [Bank.b0, .b1].map bankCode = [0, 1] ∧
  [SupState.disabled, .counting, .lapsed].map SupState.code = [0, 1, 2] ∧
  [TimerState.stopped, .running, .paused].map TimerState.code = [0, 1, 2] ∧
  [RefillSource.tick, .sixtyFourth, .second].map RefillSource.code = [0, 1, 2] ∧
  [ResetCause.power, .pin, .command].map ResetCause.code = [0, 1, 2] ∧
  ∀ h b rest s, CanRead h b rest s →
    ∃ t r, exec (.readStatus h) s = .next t ∧ CompletesAs (.readStatus h) h b rest 0x01 .done r s (Reloaded s) ∧
      r.length = 96 ∧ halfAt r 0 = s.cal.day ∧ (byteAt r 2).toNat = s.cal.weekday.val ∧
      (byteAt r 3).toNat = s.cal.hour.val ∧ (byteAt r 4).toNat = s.cal.minute.val ∧
      (byteAt r 5).toNat = s.cal.second.val ∧ (halfAt r 6).toNat = s.cal.sub.val ∧
      byteAt r 8 = s.cal.quality.code ||| (if s.cal.source = .fallback then 4 else 0) ||| 8 ∧
      byteAt r 9 ++ wordAt r 10 = s.cal.uptime ∧
      byteAt r 14 = (bankCode s.store.active ||| (match s.commit.phase with
        | .idle => 0
        | .scheduled _ => 2
        | .due _ => 4)) ∧
      (∀ i, s.commit.phase = .scheduled i →
        halfAt r 15 = i.day ∧ (halfAt r 17).toNat = i.minute.val) ∧
      (s.commit.phase = .idle → halfAt r 15 = 0 ∧ halfAt r 17 = 0) ∧
      halfAt r 19 = s.commit.count ∧
      byteAt r 21 = (Reloaded s).agent.supervision.state.code ∧
      halfAt r 22 = s.agent.settings.supervisionPeriod ∧
      (tripleAt r 24).toNat = (Reloaded s).agent.supervision.remaining.val ∧
      (halfAt r 27).toNat =
        s.store.poison.b0.toList.count true + s.store.poison.b1.toList.count true ∧
      (byteAt r 29).toNat = s.store.debt.val ∧ halfAt r 30 = s.store.corrected ∧
      halfAt r 32 = s.store.scrubCorrected ∧ halfAt r 34 = s.store.uncorrectable ∧
      (byteAt r 36).toNat = rest.length ∧ byteAt r 37 = BitVec.ofNat 8 s.hold.records.length ∧
      byteAt r 38 = s.policer.timer.code ∧ halfAt r 39 = s.agent.settings.refillPreset ∧
      byteAt r 41 = s.agent.settings.refillSource.code ∧ halfAt r 42 = s.policer.count ∧
      byteAt r 44 = BitVec.ofNat 8 s.exc.queue.length ∧ byteAt r 45 = s.exc.lost ∧
      byteAt r 46 = s.exc.flags ∧
      (∀ p i, i = (if p = .n then 47 else 71) →
        wordAt r i = (t.rx.get p).good ∧ wordAt r (i + 4) = (s.rx.get p).corrupt ∧
        wordAt r (i + 8) = (s.rx.get p).truncated ∧ wordAt r (i + 12) = (s.rx.get p).malformed ∧
        wordAt r (i + 16) = (s.rx.get p).noBuffer ∧ wordAt r (i + 20) = (s.tx.get p).transmitted) ∧
      byteAt r 95 = s.agent.lastReset.code

/-- READ_WINDOW returns a record, its membership and the bank; KEEPALIVE returns whether supervision had lapsed and
the timer after the reload; beside their response both change only the Supervision Timer. And the ten bytes of a window
record by their places (R82, R160, R166, R168, R180). -/
def Obligations.WindowAndSupervisionAreRead : Prop :=
  (∀ (w : WindowRecord) (l : List Byte), l = encodeWindow w → l.length = 10 ∧
    (∀ k < 8, (byteAt l 0).getLsbD k = ((k == 7 && w.used) || (k == 6 && w.strict) || (k == 5 && w.dates.isSome))) ∧
    byteAt l 1 = w.days.setWidth 8 ∧ (halfAt l 2).toNat = w.start.val ∧ (halfAt l 4).toNat = w.stop.val ∧
    (∀ low high, w.dates = some (low, high) → halfAt l 6 = low ∧ halfAt l 8 = high) ∧
    (w.dates = none → halfAt l 6 = 0 ∧ halfAt l 8 = 0)) ∧
  ∀ h b rest s, CanRead h b rest s →
    (∀ (role : Bool) (w : Fin 32) bank, bank = (if role then s.store.active else otherBank s.store.active) →
      CompletesAs (.readWindow h (if role then 0 else 1) (BitVec.ofNat 8 w.val)) h b rest 0x03 .done
        (encodeWindow (s.windows.records.get bank)[w] ++
          [if (s.windows.openSets.get bank).getLsbD w.val then 1 else 0, bankCode bank])
        s (Reloaded s)) ∧
    CompletesAs (.keepalive h) h b rest 0x06 .done
      ((if s.agent.supervision.state = .lapsed then 1 else 0) ::
        be16 s.agent.settings.supervisionPeriod ++ [(Reloaded s).agent.supervision.state.code] ++
        be24 (BitVec.ofNat 24 (Reloaded s).agent.supervision.remaining.val) ++ be40 s.cal.uptime)
      s (Reloaded s)

/-- READ_ENTRY by its one access: a clean or correctable row is returned, the latter counted; a poisoned one is
answered POISONED, and so is an uncorrectable one, which joins the Poison Set. READ_STREAM_STATUS by one access for each
index named (R97, R119 to R121, R124, R158, R159). With an uncorrectable row: where TABLE_FAULT sends no Report, and one
index named. And the 22 bytes of an entry record by their places (R180). -/
def Obligations.RowsAreReadThroughAccesses : Prop :=
  (∀ (e : StreamEntry) (l : List Byte), l = encodeEntry e → l.length = 22 ∧
    (∀ k < 8, (byteAt l 0).getLsbD k = ((k == 7 && e.valid) || (k == 6 && e.portN) || (k == 5 && e.portF) ||
      (k == 4 && e.broadcast) || (k == 3 && e.remap.isSome) || (k == 2 && e.urgent) || (k == 1 && e.stamp == .fill) ||
      (k == 0 && e.unsup == .block))) ∧
    (∀ k, 2 ≤ k → k < 8 →
      (byteAt l 1).getLsbD k = ((k == 7 && e.closed == .hold) || (k == 6 && e.overRate == .hold))) ∧
    (byteAt l 1).extractLsb' 0 2 = e.privLimit ∧ halfAt l 2 = e.srcLow ∧ halfAt l 4 = e.srcHigh ∧
    halfAt l 6 = e.classes ∧ halfAt l 8 = e.dstLow ∧ halfAt l 10 = e.dstHigh ∧
    (∀ base, e.remap = some base → halfAt l 12 = base) ∧ (e.remap = none → halfAt l 12 = 0) ∧
    wordAt l 14 = e.windows ∧ byteAt l 18 = e.ceiling ∧ byteAt l 19 = e.refill ∧ halfAt l 20 = e.holdLimit) ∧
  ∀ h b rest s, CanRead h b rest s → s.store.port = .free →
    ∀ x : State, x = { Reloaded s with store := { s.store with waitCount := 0 } } →
    (∀ (role : Bool) (i : Index) bank,
      bank = (if role then s.store.active else otherBank s.store.active) →
      (RowClean bank i s → CompletesAfter 1 (.readEntry h (if role then 0 else 1) (BitVec.ofNat 8 i.val))
        h b rest 0x02 .done (bankCode bank :: encodeEntry (s.store.row bank i).entry) s x) ∧
      (RowCorrectable bank i s →
        CompletesAfter 1 (.readEntry h (if role then 0 else 1) (BitVec.ofNat 8 i.val))
          h b rest 0x02 .done (bankCode bank :: encodeEntry (s.store.row bank i).entry) s
          { x with store := { x.store with corrected :=
            (if s.store.corrected = 65535 then 65535 else s.store.corrected + 1) } }) ∧
      (s.store.poisoned bank i = true →
        CompletesAfter 1 (.readEntry h (if role then 0 else 1) (BitVec.ofNat 8 i.val))
          h b rest 0x02 .poisoned [bankCode bank] s x) ∧
      (RowUncorrectable bank i s → SendsNoReport .tableFault s →
        CompletesAfter 1 (.readEntry h (if role then 0 else 1) (BitVec.ofNat 8 i.val))
          h b rest 0x02 .poisoned [bankCode bank] s (tell .tableFault (Poisoned bank i x)))) ∧
    (∀ i : Index, RowUncorrectable s.store.active i s → SendsNoReport .tableFault s →
      CompletesAfter 1 (.readStreamStatus h [BitVec.ofNat 8 i.val]) h b rest 0x04 .done
        ([BitVec.ofNat 8 i.val, bankCode s.store.active, 2, 0, 0] ++ be32 (s.stream i).passed ++
          be32 (s.stream i).refused ++ be32 (s.stream i).held) s
        (tell .tableFault (Poisoned s.store.active i x))) ∧
    ∀ l : List Index, l ≠ [] → l.length ≤ 8 →
      (∀ i ∈ l, s.store.poisoned s.store.active i = true ∨ RowClean s.store.active i s ∨
        RowCorrectable s.store.active i s) →
      ∀ n, n = (l.filter fun i => decide (RowCorrectable s.store.active i s)).length →
      CompletesAfter l.length (.readStreamStatus h (l.map fun i => BitVec.ofNat 8 i.val))
        h b rest 0x04 .done
        (l.flatMap fun i =>
          [BitVec.ofNat 8 i.val, bankCode s.store.active] ++
            (if s.store.poisoned s.store.active i then [2, 0]
            else [if (s.store.row s.store.active i).entry.valid then 0 else 1,
              (s.store.row s.store.active i).entry.ceiling]) ++
            (s.stream i).credit :: be32 (s.stream i).passed ++ be32 (s.stream i).refused ++
            be32 (s.stream i).held) s
        { x with store := { x.store with corrected := satPlus s.store.corrected n } }

/-- PROBE by its one access reports the verdict that checks 3 to 9 give the telegram described, and changes no credit,
count, record, list or bind context; a correctable row it reads is counted, and an uncorrectable one joins the Poison
Set, here where TABLE_FAULT sends no Report (R43, R44, R119 to R121, R180; logs 18, 33 for the stamp-fill bit and for
default applied beside TX_FULL). -/
def Obligations.ProbeReportsTheVerdict : Prop :=
  ∀ h b rest s, CanRead h b rest s → s.store.port = .free →
    ∀ (port : Port) src dst (cls : BitVec 4) (priv : BitVec 2) (opts : Byte) (limit : BitVec 16),
    src ≠ 0xFFFF → opts.toNat < 8 → (opts.getLsbD 2 = true → limit.toNat ≤ 4095) →
    ∀ d : Described, d = ⟨port, src, dst, cls, priv, opts.getLsbD 0, opts.getLsbD 1,
      if opts.getLsbD 2 then some limit else none⟩ →
    ∀ stop n d', lookup s.store.active ⟨port, src, cls⟩ s = ⟨stop, n, d'⟩ →
    ∀ x : State, x = { Reloaded s with
        store := { s.store with waitCount := 0, corrected := satPlus s.store.corrected n }, draws := d' } →
    ∀ y, ((∀ i, stop ≠ .fault i) ∧ y = x) ∨ (SendsNoReport .tableFault s ∧ ∃ i, stop = .fault i ∧
        y = tell .tableFault (Poisoned s.store.active i x)) →
    ∀ bits : Byte, bits = (match stop with
        | .found _ e => if opts.getLsbD 1 = true ∧ e.stamp = .fill then 66 else 2
        | .noMatch => 32
        | .poisoned _ => 0
        | .fault _ => 0) →
    ∀ index : Byte, index = (match stop with
        | .found i _ => BitVec.ofNat 8 i.val
        | .noMatch => 0
        | .poisoned _ => 0
        | .fault _ => 0) →
    ∀ refusal : Byte → List Byte, refusal = (fun code =>
        [bankCode s.store.active, 2, bits ||| 1, code, index, 0, 0, 0, 0, 0]) →
    ∀ v, v = verdictOf (Reloaded s) s.store.active stop d →
      CompletesAfter 1
        (.probe h (portCode port) src dst (cls.setWidth 8) (priv.setWidth 8) opts limit)
        h b rest 0x05 .done
        (match v with
          | .pass f =>
            if listRoom (s.tx.get (otherPort port)) f.list then
              [bankCode s.store.active, 0, bits ||| 12, 0, index, f.list.code] ++ be16 f.outDest ++ [0, 0]
            else refusal 13
          | .hold f reason n =>
            if 32 ≤ s.hold.records.length then refusal 12
            else
              [bankCode s.store.active, 1, bits ||| 29, if reason = .window then 19 else 11, index,
                f.list.code] ++ be16 f.outDest ++ be16 (BitVec.ofNat 16 n)
          | .refuse reason _ => refusal reason.code)
        s y

/-- WRITE_ENTRY by its one access writes the shadow row whole with its parameter record and takes the pair out of the
Poison Set, all at the grant; INVALIDATE_ENTRY writes the row INVALID, or the blank entry for a row it cannot read. And
the entry that the 22 bytes of a record stand for (R86, R118, R122, R138, R139, R180). -/
def Obligations.ShadowRowsAreWrittenThroughAccesses : Prop :=
  (∀ (l : List Byte) (e : StreamEntry), e = decodeEntry l →
    e.valid = (byteAt l 0).getLsbD 7 ∧ e.portN = (byteAt l 0).getLsbD 6 ∧ e.portF = (byteAt l 0).getLsbD 5 ∧
    e.broadcast = (byteAt l 0).getLsbD 4 ∧ e.urgent = (byteAt l 0).getLsbD 2 ∧
    (e.stamp = .fill ↔ (byteAt l 0).getLsbD 1 = true) ∧ (e.unsup = .block ↔ (byteAt l 0).getLsbD 0 = true) ∧
    (e.closed = .hold ↔ (byteAt l 1).getLsbD 7 = true) ∧ (e.overRate = .hold ↔ (byteAt l 1).getLsbD 6 = true) ∧
    e.privLimit = (byteAt l 1).extractLsb' 0 2 ∧ e.srcLow = halfAt l 2 ∧ e.srcHigh = halfAt l 4 ∧
    e.classes = halfAt l 6 ∧ e.dstLow = halfAt l 8 ∧ e.dstHigh = halfAt l 10 ∧
    ((byteAt l 0).getLsbD 3 = true → e.remap = some (halfAt l 12)) ∧
    ((byteAt l 0).getLsbD 3 = false → e.remap = none) ∧
    e.windows = wordAt l 14 ∧ e.ceiling = byteAt l 18 ∧ e.refill = byteAt l 19 ∧ e.holdLimit = halfAt l 20) ∧
  ∀ h b rest s, CanWrite h b rest s → s.store.port = .free →
    ∀ (i : Index) bank, bank = otherBank s.store.active →
    ∀ written : StreamEntry → ParamRecord → State,
      written = (fun e r => { Reloaded s with
        store := { s.store with
          waitCount := 0
          rows := s.store.rows.set bank ((s.store.rows.get bank).set i.val ⟨e, []⟩)
          poison := s.store.poison.set bank ((s.store.poison.get bank).set i.val false) }
        policer := { s.policer with
          params := s.policer.params.set bank ((s.policer.params.get bank).set i.val r) } }) →
    (∀ raw e, entryAllowed (bytesOf 22 raw) = true → e = decodeEntry (bytesOf 22 raw) →
      CompletesAfter 1 (.writeEntry h (BitVec.ofNat 8 i.val) raw) h b rest 0x07 .done
        [BitVec.ofNat 8 i.val, bankCode bank] s (written e ⟨e.ceiling, e.refill, e.valid⟩) ∧
      ∃ t, exec (.writeEntry h (BitVec.ofNat 8 i.val) raw) s = .next t ∧ t.store.port = .agent s.store.active ∧
        t = { written e ⟨e.ceiling, e.refill, e.valid⟩ with
          store := { (written e ⟨e.ceiling, e.refill, e.valid⟩).store with
            port := t.store.port, agentRequest := false }
          agent := { (Reloaded s).agent with exec := some ⟨b, .writeEntry i e⟩ }
          pool := t.pool
          rx := t.rx }) ∧
    (RowClean bank i s → CompletesAfter 1 (.invalidateEntry h (BitVec.ofNat 8 i.val)) h b rest 0x08 .done
      [BitVec.ofNat 8 i.val, bankCode bank, 0] s
      (written { (s.store.row bank i).entry with valid := false }
        ⟨(s.param bank i).ceiling, (s.param bank i).refill, false⟩)) ∧
    (RowCorrectable bank i s →
      ∀ x, x = written { (s.store.row bank i).entry with valid := false }
        ⟨(s.param bank i).ceiling, (s.param bank i).refill, false⟩ →
      CompletesAfter 1 (.invalidateEntry h (BitVec.ofNat 8 i.val)) h b rest 0x08 .done
        [BitVec.ofNat 8 i.val, bankCode bank, 0] s
        { x with store := { x.store with corrected :=
          (if s.store.corrected = 65535 then 65535 else s.store.corrected + 1) } }) ∧
    (s.store.poisoned bank i = true ∨ RowUncorrectable bank i s →
      CompletesAfter 1 (.invalidateEntry h (BitVec.ofNat 8 i.val)) h b rest 0x08 .done
        [BitVec.ofNat 8 i.val, bankCode bank, 1] s
        (written blankEntry ⟨(s.param bank i).ceiling, (s.param bank i).refill, false⟩))

/-- CLEAR_SHADOW clears the shadow's windows and, in 256 accesses, its rows; COPY_ACTIVE_TO_SHADOW copies the active
windows and, in 256 accesses, the active rows and parameter records, writing the blank entry for each poisoned row and
each found uncorrectable, and counting it; the latter join the Poison Set, here where TABLE_FAULT sends no Report (R86,
R97, R119 to R122, R140 to R142). Ceiling and refill amount with a blank entry are the model's reading (log 32). -/
def Obligations.ShadowIsCopiedAndCleared : Prop :=
  ∀ h b rest s, CanWrite h b rest s → s.store.port = .free →
    ∀ bank, bank = otherBank s.store.active →
    CompletesAfter 256 (.clearShadow h) h b rest 0x0B .done [bankCode bank] s
      { Reloaded s with
        windows := ⟨s.windows.records.set bank
            (Vector.replicate 32 ⟨false, 0, 0, 0, none, false⟩), s.windows.openSets.set bank 0⟩
        store := { s.store with
          waitCount := 0
          rows := s.store.rows.set bank (Vector.replicate 256 ⟨blankEntry, []⟩)
          poison := s.store.poison.set bank (Vector.replicate 256 false) }
        policer := { s.policer with
          params := s.policer.params.set bank (Vector.ofFn fun i : Fin 256 =>
            ⟨(s.param bank i).ceiling, (s.param bank i).refill, false⟩) } } ∧
    ((∀ i, s.store.poisoned s.store.active i = true ∨ RowClean s.store.active i s ∨
        RowCorrectable s.store.active i s ∨ RowUncorrectable s.store.active i s) →
      ∀ lost bad : Index → Bool, lost = (fun i => decide (RowUncorrectable s.store.active i s)) →
        bad = (fun i => s.store.poisoned s.store.active i || lost i) →
      ∀ corrected found blank : Nat,
        corrected = ((List.finRange 256).filter fun i => decide (RowCorrectable s.store.active i s)).length →
        found = ((List.finRange 256).filter lost).length → blank = ((List.finRange 256).filter bad).length →
      (found = 0 ∨ SendsNoReport .tableFault s) →
      ∀ x : State, x = { Reloaded s with
          windows := ⟨s.windows.records.set bank (s.windows.records.get s.store.active),
            s.windows.openSets.set bank
              (openSetOf (s.windows.records.get s.store.active) s.cal.mark s.cal.quality)⟩
          store := { s.store with
            waitCount := 0
            corrected := satPlus s.store.corrected corrected
            uncorrectable := satPlus s.store.uncorrectable found
            rows := s.store.rows.set bank (Vector.ofFn fun i : Fin 256 =>
              ⟨if bad i then blankEntry else (s.store.row s.store.active i).entry, []⟩)
            poison := (s.store.poison.set bank (Vector.replicate 256 false)).set s.store.active (Vector.ofFn bad) }
          policer := { s.policer with
            streams := Vector.ofFn fun i : Fin 256 =>
              if lost i then { s.stream i with credit := 0 } else s.stream i
            params := (s.policer.params.set bank (Vector.ofFn fun i : Fin 256 =>
              if bad i then { s.param s.store.active i with usable := false }
              else s.param s.store.active i)).set s.store.active (Vector.ofFn fun i : Fin 256 =>
                if lost i then { s.param s.store.active i with usable := false }
                else s.param s.store.active i) } } →
      CompletesAfter 256 (.copyActiveToShadow h) h b rest 0x0A .done
        (be16 (BitVec.ofNat 16 blank) ++ [bankCode bank]) s
        (if found = 0 then x else tell .tableFault x))

/-- WRITE_WINDOW writes one record of the shadow and takes its window into the shadow's Open Set or out of it; the
other windows and the active bank are left, and nothing is announced (R72, R79). -/
def Obligations.WindowIsWrittenToTheShadow : Prop :=
  ∀ h b rest s, CanWrite h b rest s →
    ∀ (w : Fin 32) raw r, decodeWindow (bytesOf 10 raw) = some r →
    ∃ set : WindowSet,
      set.getLsbD w.val = windowOpen r s.cal.mark s.cal.quality ∧
      (∀ v : Fin 32, v ≠ w → set.getLsbD v.val =
        (s.windows.openSets.get (otherBank s.store.active)).getLsbD v.val) ∧
      CompletesAs (.writeWindow h (BitVec.ofNat 8 w.val) raw) h b rest 0x09 .done [] s
        { Reloaded s with windows :=
          ⟨s.windows.records.set (otherBank s.store.active)
              ((s.windows.records.get (otherBank s.store.active)).set w.val r),
            s.windows.openSets.set (otherBank s.store.active) set⟩ }

/-- COMMIT_NOW swaps the banks at once: the selector flips, the count rises, a schedule goes, every credit is filled
from the new active bank and every count cleared, every held record is pending, COMMIT_DONE is set; rows, windows and
Open Sets stay. The request of each port that its Judge has taken turns stale, one that still waits in its slot is
withdrawn, and where a port then has none its oldest pending first is requested, which an IDLE Judge takes. Where
COMMIT_DONE sends no Report (R96, R113, R115, R146, R149; the swap before the response is offered and the layout of the
discarded instant: logs 15, 18). -/
def Obligations.CommitNowSwapsTheBanks : Prop :=
  ∀ h b rest s, CanWrite h b rest s →
    (s.exc.flags.getLsbD 5 = true ∨ s.agent.settings.reportEnables.getLsbD 5 = false ∨
      s.agent.settings.reportAddress = none) →
    ∀ bank, bank = otherBank s.store.active →
    ∃ t, exec (.commitNow h) s = .next t ∧ Received h s t ∧
      Answered h b 0x0C .done ([bankCode bank] ++ be16 (s.commit.count + 1) ++
        (match s.commit.phase with
          | .scheduled i => 1 :: be16 i.day ++ be16 (BitVec.ofNat 16 i.minute.val)
          | _ => [0, 0, 0, 0, 0])) s t ∧
      t.pool.free = rest ∧
      FollowsOnly (CommitMarked { Reloaded s with
        pool := t.pool
        rx := t.rx
        tx := t.tx
        store := { s.store with active := bank }
        commit := ⟨.idle, s.commit.count + 1⟩
        policer := { s.policer with streams := Vector.ofFn fun i : Fin 256 =>
          ⟨if (s.param bank i).usable then (s.param bank i).ceiling else 0, 0, 0, 0⟩ }
        exc := { s.exc with
          flags := s.exc.flags ||| 0x20
          alertLow := if s.exc.flags.getLsbD 5 then s.exc.alertLow
            else ((s.exc.flags ||| 0x20) &&& s.agent.settings.pinEnables) != 0 } }) t

/-- CANCEL_COMMIT discards a scheduled instant and returns it, and in IDLE changes nothing and returns none;
SCHEDULE_COMMIT of an instant after the current minute holds it and returns it, with the instant it replaced (R144,
R145; the layout of an instant that may be absent: log 18). -/
def Obligations.CommitInstantIsScheduledAndCancelled : Prop :=
  ∀ h b rest s, CanWrite h b rest s →
    (∀ i, s.commit.phase = .scheduled i →
      CompletesAs (.cancelCommit h) h b rest 0x0E .done
        (1 :: be16 i.day ++ be16 (BitVec.ofNat 16 i.minute.val)) s
        { Reloaded s with commit := ⟨.idle, s.commit.count⟩ }) ∧
    (s.commit.phase = .idle →
      CompletesAs (.cancelCommit h) h b rest 0x0E .done [0, 0, 0, 0, 0] s (Reloaded s)) ∧
    ∀ (day : DayNum) (m : Fin 1440), s.cal.day.toNat < day.toNat ∨
        (day = s.cal.day ∧ s.cal.minuteOfDay.val < m.val) →
      CompletesAs (.scheduleCommit h day (BitVec.ofNat 16 m.val)) h b rest 0x0D .done
        (be16 day ++ be16 (BitVec.ofNat 16 m.val) ++ match s.commit.phase with
          | .scheduled i => 1 :: be16 i.day ++ be16 (BitVec.ofNat 16 i.minute.val)
          | _ => [0, 0, 0, 0, 0]) s
        { Reloaded s with commit := ⟨.scheduled ⟨day, m⟩, s.commit.count⟩ }

/-- SET_TIME sets the time of week with sub-second 0 and the quality by the clock source, and both Open Sets are
evaluated at the new time, openings announced; uptime, source, monitor, schedule and deadlines stay (R66, R77, R80). -/
def Obligations.SetTimeSetsTheTimeAndTheWindows : Prop :=
  ∀ h b rest s, CanWrite h b rest s →
    ∀ day (wd : Fin 7) (hr : Fin 24) (mn sec : Fin 60) q,
      q = (if s.cal.source = .reference then Quality.nominal else .degraded) →
    ∃ t, exec (.setTime h day (BitVec.ofNat 8 wd.val) (BitVec.ofNat 8 hr.val) (BitVec.ofNat 8 mn.val)
        (BitVec.ofNat 8 sec.val)) s = .next t ∧ Received h s t ∧
      Answered h b 0x0F .done (q.code :: be40 s.cal.uptime) s t ∧ t.pool.free = rest ∧
      (∀ bank (i : Fin 32), (t.windows.openSets.get bank).getLsbD i.val =
        windowOpen (s.windows.records.get bank)[i] ⟨day, wd, t.cal.minuteOfDay⟩ q) ∧
      ScansAfterOpenings s.store.active s s t ∧
      t = { Reloaded s with
        pool := t.pool
        rx := t.rx
        tx := t.tx
        cal := { s.cal with
          day := day, weekday := wd, hour := hr, minute := mn, second := sec, sub := 0, quality := q }
        windows := ⟨s.windows.records, t.windows.openSets⟩
        hold := { s.hold with scan := t.hold.scan, waiting := t.hold.waiting } }

/-- The settings with no conflict: a value in its range replaces the old one and is answered with both, a value outside
it is answered BAD_ARGUMENT (R161, R180, section 10.5; the layout of the results: log 18; that a report address with
presence 0 is taken whatever its value bytes are, and that a flag set is the low byte of its value and the high byte is
0, are the model's choice: logs 19, 36). -/
def Obligations.PlainSettingsAreReplaced : Prop :=
  ∀ h b rest s v, CanWrite h b rest s → ∀ c, c = s.agent.settings →
    (∀ p : Bool, v = (if p then 1 else 0) → Accepts (.defaultVerdict h 1 v) h b rest 1
      [if c.defaultPass then 1 else 0] [if p then 1 else 0] { c with defaultPass := p } s) ∧
    (1 < v.toNat → AnswersOnly (.defaultVerdict h 1 v) h b rest 0x10 .badArgument s) ∧
    (v.toNat ≤ 3 → Accepts (.readFloor h 1 v) h b rest 4 [c.readFloor.setWidth 8] [v.setWidth 8]
      { c with readFloor := v.setWidth 2 } s) ∧
    (3 < v.toNat → AnswersOnly (.readFloor h 1 v) h b rest 0x10 .badArgument s) ∧
    (1 ≤ v.toNat → v.toNat ≤ 1023 → Accepts (.bindLimit h 1 v) h b rest 7
      (be16 (c.bindLimit.setWidth 16)) (be16 v) { c with bindLimit := v.setWidth 10 } s) ∧
    (v = 0 ∨ 1023 < v.toNat → AnswersOnly (.bindLimit h 1 v) h b rest 0x10 .badArgument s) ∧
    (1 ≤ v.toNat → v.toNat ≤ 255 → Accepts (.scrubInterval h 1 v) h b rest 8 [c.scrubInterval]
      [v.setWidth 8] { c with scrubInterval := v.setWidth 8 } s) ∧
    (v = 0 ∨ 255 < v.toNat → AnswersOnly (.scrubInterval h 1 v) h b rest 0x10 .badArgument s) ∧
    (1 ≤ v.toNat → v.toNat ≤ 15 → Accepts (.urgentLevel h 1 v) h b rest 9 [c.urgentLevel.setWidth 8]
      [v.setWidth 8] { c with urgentLevel := v.setWidth 4 } s) ∧
    (v = 0 ∨ 15 < v.toNat → AnswersOnly (.urgentLevel h 1 v) h b rest 0x10 .badArgument s) ∧
    (1 ≤ v.toNat → v.toNat ≤ 32 → Accepts (.holdHighMark h 1 v) h b rest 13
      [c.holdHighMark.setWidth 8] [v.setWidth 8] { c with holdHighMark := v.setWidth 6 } s) ∧
    (v = 0 ∨ 32 < v.toNat → AnswersOnly (.holdHighMark h 1 v) h b rest 0x10 .badArgument s) ∧
    (∀ old : List Byte, old = (match c.reportAddress with
        | some a => 1 :: be16 a
        | none => [0, 0, 0]) →
      (v ≠ 0xFFFF → Accepts (.reportAddress h 1 v) h b rest 14 old (1 :: be16 v)
        { c with reportAddress := some v } s) ∧
      Accepts (.reportAddress h 0 v) h b rest 14 old [0, 0, 0] { c with reportAddress := none } s) ∧
    AnswersOnly (.reportAddress h 1 0xFFFF) h b rest 0x10 .badArgument s ∧
    (v.toNat ≤ 255 → Accepts (.reportEnables h 1 v) h b rest 16 [c.reportEnables] [v.setWidth 8]
      { c with reportEnables := v.setWidth 8 } s) ∧
    (255 < v.toNat → AnswersOnly (.reportEnables h 1 v) h b rest 0x10 .badArgument s)

/-- The guarded settings: the write floor, the floor of the command's own port and near management are answered
CONFLICT when the same command sent again would be shut out, and are replaced otherwise (R161, R162; the layout of the
results: log 18). -/
def Obligations.GuardedSettingsKeepTheStationIn : Prop :=
  ∀ h b rest s v, CanWrite h b rest s → ∀ c, c = s.agent.settings →
    (v.toNat ≤ 3 → max h.priv.toNat (c.floor h.port).toNat ≤ v.toNat →
      Accepts (.writeFloor h 1 v) h b rest 5 [c.writeFloor.setWidth 8] [v.setWidth 8]
        { c with writeFloor := v.setWidth 2 } s) ∧
    (v.toNat < max h.priv.toNat (c.floor h.port).toNat →
      AnswersOnly (.writeFloor h 1 v) h b rest 0x10 .conflict s) ∧
    (v.toNat ≤ 3 → h.port = .f ∨ v.toNat ≤ c.writeFloor.toNat →
      Accepts (.floorN h 1 v) h b rest 2 [c.floorN.setWidth 8] [v.setWidth 8]
        { c with floorN := v.setWidth 2 } s) ∧
    (v.toNat ≤ 3 → h.port = .n → c.writeFloor.toNat < v.toNat →
      AnswersOnly (.floorN h 1 v) h b rest 0x10 .conflict s) ∧
    (v.toNat ≤ 3 → h.port = .n ∨ v.toNat ≤ c.writeFloor.toNat →
      Accepts (.floorF h 1 v) h b rest 3 [c.floorF.setWidth 8] [v.setWidth 8]
        { c with floorF := v.setWidth 2 } s) ∧
    (v.toNat ≤ 3 → h.port = .f → c.writeFloor.toNat < v.toNat →
      AnswersOnly (.floorF h 1 v) h b rest 0x10 .conflict s) ∧
    (3 < v.toNat → AnswersOnly (.writeFloor h 1 v) h b rest 0x10 .badArgument s ∧
      AnswersOnly (.floorN h 1 v) h b rest 0x10 .badArgument s ∧
      AnswersOnly (.floorF h 1 v) h b rest 0x10 .badArgument s) ∧
    (∀ old, old = [if c.nearAllowed then (0 : Byte) else 1] →
      Accepts (.nearManagement h 1 0) h b rest 6 old [0] { c with nearAllowed := true } s ∧
      (h.port = .f → Accepts (.nearManagement h 1 1) h b rest 6 old [1]
        { c with nearAllowed := false } s) ∧
      (h.port = .n → AnswersOnly (.nearManagement h 1 1) h b rest 0x10 .conflict s) ∧
      (1 < v.toNat → AnswersOnly (.nearManagement h 1 v) h b rest 0x10 .badArgument s))

/-- The settings that a timer or a pin takes up: the refill preset and source only while the Refill Timer is STOPPED;
the supervision period reloads or disables the Supervision Timer; the pin enables drive ALERT_N (R95, R161, R168, R176;
the layout of the results: log 18; that the flag set is the low byte of the value and the high byte is 0 is the model's
choice: log 36). -/
def Obligations.TimerAndPinSettingsActAtOnce : Prop :=
  ∀ h b rest s v, CanWrite h b rest s → ∀ c, c = s.agent.settings →
    (v ≠ 0 → s.policer.timer = .stopped → Accepts (.refillPreset h 1 v) h b rest 10
      (be16 c.refillPreset) (be16 v) { c with refillPreset := v } s) ∧
    (v ≠ 0 → s.policer.timer ≠ .stopped →
      AnswersOnly (.refillPreset h 1 v) h b rest 0x10 .conflict s) ∧
    AnswersOnly (.refillPreset h 1 0) h b rest 0x10 .badArgument s ∧
    (∀ src : RefillSource, s.policer.timer = .stopped →
      Accepts (.refillSource h 1 (src.code.setWidth 16)) h b rest 11 [c.refillSource.code] [src.code]
        { c with refillSource := src } s) ∧
    (v.toNat ≤ 2 → s.policer.timer ≠ .stopped →
      AnswersOnly (.refillSource h 1 v) h b rest 0x10 .conflict s) ∧
    (2 < v.toNat → AnswersOnly (.refillSource h 1 v) h b rest 0x10 .badArgument s) ∧
    CompletesAs (.supervisionPeriod h 1 v) h b rest 0x10 .done
      (12 :: be16 c.supervisionPeriod ++ be16 v) s
      { s with agent := { s.agent with
        settings := { c with supervisionPeriod := v }
        supervision := if v = 0 then ⟨.disabled, 0⟩ else ⟨.counting, ⟨v.toNat + 1, by omega⟩⟩ } } ∧
    (v.toNat ≤ 255 → CompletesAs (.alertPinEnables h 1 v) h b rest 0x10 .done
      [15, c.pinEnables, v.setWidth 8] s
      { Reloaded s with
        agent := { (Reloaded s).agent with settings := { c with pinEnables := v.setWidth 8 } }
        exc := { s.exc with alertLow := (s.exc.flags &&& v.setWidth 8) != 0 } }) ∧
    (255 < v.toNat → AnswersOnly (.alertPinEnables h 1 v) h b rest 0x10 .badArgument s)

/-- REFILL_CONTROL: START, PAUSE, STOP and RESTART act on the Refill Timer by its state and return its state and
count; credits and settings stay (R90 to R92; the layout of the results: log 18). -/
def Obligations.RefillControlActsOnTheTimer : Prop :=
  ∀ h b rest s, CanWrite h b rest s →
    ∀ done : Instr → TimerState → BitVec 16 → Prop,
      done = (fun c timer count => CompletesAs c h b rest 0x11 .done (timer.code :: be16 count) s
        { Reloaded s with policer := { s.policer with timer := timer, count := count } }) →
    (s.policer.timer = .stopped → done (.start h) .running 0 ∧
      done (.pause h) .stopped s.policer.count) ∧
    (s.policer.timer = .paused → done (.start h) .running s.policer.count ∧
      done (.pause h) .paused s.policer.count) ∧
    (s.policer.timer = .running → done (.start h) .running s.policer.count ∧
      done (.pause h) .paused s.policer.count) ∧
    done (.stop h) .stopped 0 ∧ done (.restart h) s.policer.timer s.agent.settings.refillPreset

/-- CLEAR_STREAM_COUNTERS clears the counts of a range, leaves the credits and returns how many indexes it cleared;
DRAIN_EXCEPTIONS takes the oldest records, clears the lost count and returns the records, how many remain and the lost
count before; CLEAR_ALERTS clears the flags it names, ALERT_N follows, and it returns the flags after. And the 16 bytes
of an exception record by their places, and the reason codes (R98, R160, R173, R175, R176, R180; the place of the counts
in the drain's results: log 18; bit 2 of byte 1 of a record, 0, is the model's choice: log 34). -/
def Obligations.CountsRecordsAndFlagsAreCleared : Prop :=
  (∀ (r : ExcRecord) (l : List Byte), l = encodeRecord r → l.length = 16 ∧ byteAt l 0 = r.what.reason.code ∧
    (∀ k, 2 ≤ k → k < 8 → (byteAt l 1).getLsbD k = ((k == 7 && r.what.port == .f) ||
      (k == 6 && r.what.source.isSome) || (k == 5 && r.what.dest.isSome) || (k == 4 && r.what.cls.isSome) ||
      (k == 3 && r.what.index.isSome))) ∧
    (byteAt l 1).extractLsb' 0 2 = (match r.quality with
      | .unset => 0
      | .degraded => 1
      | .nominal => 2) ∧
    halfAt l 2 = r.time.day ∧ (tripleAt l 4).toNat = r.time.second.val ∧ (halfAt l 7).toNat = r.time.sub.val ∧
    halfAt l 9 = r.what.source.getD 0 ∧ halfAt l 11 = r.what.dest.getD 0 ∧
    (byteAt l 13).toNat = (r.what.cls.getD 0).toNat ∧ (byteAt l 14).toNat = (r.what.index.getD 0).val ∧
    byteAt l 15 = r.repeats) ∧
  [Reason.corrupt, .truncated, .malformed, .noBuffer, .noEntry, .tableFault, .privilege, .range, .unsupervised,
    .windowClosed, .rate, .holdFull, .txFull, .mgmtRefused, .mgmtOverrun, .holdExpired, .flushed,
    .boundBroken].map Reason.code = [1, 2, 3, 4, 5, 6, 7, 8, 9, 10, 11, 12, 13, 14, 15, 16, 17, 18] ∧
  ∀ h b rest s, CanWrite h b rest s →
    (∀ low high : Byte, low.toNat ≤ high.toNat →
      CompletesAs (.clearStreamCounters h low high) h b rest 0x12 .done
        (be16 (BitVec.ofNat 16 (high.toNat - low.toNat + 1))) s
        { Reloaded s with policer := { s.policer with streams := (Vector.ofFn fun i : Fin 256 =>
          if low.toNat ≤ i.val ∧ i.val ≤ high.toNat then ⟨(s.stream i).credit, 0, 0, 0⟩
          else s.stream i) } }) ∧
    (∀ m : Byte, 1 ≤ m.toNat → m.toNat ≤ 8 →
      CompletesAs (.drainExceptions h m) h b rest 0x13 .done
        ([BitVec.ofNat 8 (min m.toNat s.exc.queue.length)]
          ++ (s.exc.queue.take m.toNat).flatMap encodeRecord
          ++ [BitVec.ofNat 8 (s.exc.queue.length - m.toNat), s.exc.lost]) s
        { Reloaded s with exc := { s.exc with queue := s.exc.queue.drop m.toNat, lost := 0 } }) ∧
    ∀ flags : Byte, CompletesAs (.clearAlerts h flags) h b rest 0x14 .done [s.exc.flags &&& ~~~flags] s
      { Reloaded s with exc := { s.exc with
        flags := s.exc.flags &&& ~~~flags
        alertLow := (s.exc.flags &&& ~~~flags &&& s.agent.settings.pinEnables) != 0 } }

/-- FLUSH_HOLD removes every first record, or every first of one index, one after another in hold order, changes no
credit and no count, and returns how many records went, partners with them. Of each removed first the buffer returns to
the free list and the record is FLUSHED, its partner's BOUND_BROKEN after it; the binding of one that awaits its
partner closes, and a request that names it is withdrawn, the next of its port taking its place (R53, R105, R112, R115;
a return before a Report's claim, each first gone before the next one's records, and the removals before the response
is offered: log 15). The response by its bytes where no Report is sent. -/
def Obligations.FlushHoldTakesOutTheRecords : Prop :=
  ∀ h b rest s, CanWrite h b rest s → RefsDistinct s → PartnersLinked s →
    ∀ (scope : Option Index) (i : Byte), (∀ j, scope = some j → j.val = i.toNat) →
    ∀ pick : HeldRecord → FirstPart → Bool,
      pick = (fun r _ => match scope with
        | none => true
        | some j => r.index == some j) →
    ∀ count : Byte, count = BitVec.ofNat 8 (s.hold.records.filter (goesWith pick s.hold.records)).length →
    ∀ code : Byte, code = (if scope.isSome then 1 else 0) →
    ∃ t begun, exec (.flushHold h code i) s = .next t ∧ Received h s t ∧
      t.hold.records = s.hold.records.filter (fun r => !goesWith pick s.hold.records r) ∧
      (s.agent.settings.reportAddress = none →
        (t.buffer b).bytes = composed h.source s.ownAddr h.seq [0x15, 0, count] ∧
        t.tx = s.tx.set h.port (startTx t.buffer (listAdd (s.tx.get h.port) .normal b))) ∧
      begun = { Reloaded s with pool := begun.pool, rx := t.rx } ∧ begun.pool.free = rest ∧
      (∀ c, c ≠ b → begun.buffer c = s.buffer c) ∧
      (begun.buffer b).bytes = commandTelegram h s.ownAddr [0x15, code, i] ∧
      (begun.buffer b).desc.port = h.port ∧
      t = RequestsPlaced (respond b .done [count] (AllRemoved .flushed pick begun))

/-! ### Invariants: what every step keeps -/

/-- The lists never pass their limits: 32 held records, 4 commands in the inbox, 16 exception records, 8 urgent and 16
normal telegrams on each port (R13, R99, R151, R171). -/
def Obligations.ListsStayWithinTheirLimits : Prop :=
  ∀ s t, Bounded s → step s = .next t → Bounded t

/-- ALERT_N stays low exactly while a flag and its pin enable are both set, and no two neighbours in the Exception Queue
have the same key (R171, R176). -/
def Obligations.AlertPinAndQueueStaySound : Prop :=
  ∀ s t, AlertFollows s → NoEqualNeighbours s → step s = .next t → AlertFollows t ∧ NoEqualNeighbours t

/-- Each of the 64 buffers stays in exactly one place (R12), where the held records' numbers are distinct (log 17). -/
def Obligations.EachBufferStaysInOnePlace : Prop :=
  ∀ s t, EachBufferInOnePlace s → RefsDistinct s → step s = .next t →
    EachBufferInOnePlace t ∧ RefsDistinct t

/-- Held firsts and their partners stay linked, and the Judges refer to no held record that has a partner (R49, R53,
R100, R105). -/
def Obligations.HeldPairsStayLinked : Prop :=
  ∀ s t, RefsDistinct s → PartnersLinked s → BindingsSound s → step s = .next t →
    RefsDistinct t ∧ PartnersLinked t ∧ BindingsSound t

/-- The credit of every index stays within the ceiling of the usable record of the active bank, and at 0 while the
store is INITIALIZING; the table port stays with the one party it was granted to (R85, R86, R96, R97, R124, R135). -/
def Obligations.CreditsStayWithinTheirCeilings : Prop :=
  ∀ s t, CreditsWithin s → QuietWhileInitializing s → PortHeldByOne s → AgentAccessSound s →
    step s = .next t →
    CreditsWithin t ∧ QuietWhileInitializing t ∧ PortHeldByOne t ∧ AgentAccessSound t

/-- The invariants hold right after a power-on reset. -/
def Obligations.InvariantsHoldAfterPowerOn : Prop :=
  Bounded State.reset ∧ AlertFollows State.reset ∧ NoEqualNeighbours State.reset ∧
    EachBufferInOnePlace State.reset ∧ RefsDistinct State.reset ∧ PartnersLinked State.reset ∧
    BindingsSound State.reset ∧ CreditsWithin State.reset ∧ QuietWhileInitializing State.reset ∧
    PortHeldByOne State.reset ∧ AgentAccessSound State.reset ∧ Settled State.reset
end

