-- ==== Sys2Proof/Laws/State.lean ====
section
/-! SUPPORT. One lemma for each field under each update of a block of State, true by rfl, so that no
later proof unfolds a record update. -/

namespace Sys2Proof.Machine

variable (s : State)

section
variable (x y : Pool)
@[simp] theorem State.setPool_pool : (s.setPool x).pool = x := rfl
@[simp] theorem State.setPool_rx : (s.setPool x).rx = s.rx := rfl
@[simp] theorem State.setPool_tx : (s.setPool x).tx = s.tx := rfl
@[simp] theorem State.setPool_judges : (s.setPool x).judges = s.judges := rfl
@[simp] theorem State.setPool_store : (s.setPool x).store = s.store := rfl
@[simp] theorem State.setPool_windows : (s.setPool x).windows = s.windows := rfl
@[simp] theorem State.setPool_policer : (s.setPool x).policer = s.policer := rfl
@[simp] theorem State.setPool_cal : (s.setPool x).cal = s.cal := rfl
@[simp] theorem State.setPool_hold : (s.setPool x).hold = s.hold := rfl
@[simp] theorem State.setPool_commit : (s.setPool x).commit = s.commit := rfl
@[simp] theorem State.setPool_agent : (s.setPool x).agent = s.agent := rfl
@[simp] theorem State.setPool_exc : (s.setPool x).exc = s.exc := rfl
@[simp] theorem State.setPool_ownAddr : (s.setPool x).ownAddr = s.ownAddr := rfl
@[simp] theorem State.setPool_straps : (s.setPool x).straps = s.straps := rfl
@[simp] theorem State.setPool_draws : (s.setPool x).draws = s.draws := rfl
@[simp] theorem State.setPool_pending : (s.setPool x).pending = s.pending := rfl
@[simp] theorem State.setPool_setPool : (s.setPool x).setPool y = s.setPool y := rfl
@[simp] theorem State.setPool_self : s.setPool s.pool = s := rfl
end

section
variable (x y : PerPort RxUnit)
@[simp] theorem State.setRx_pool : (s.setRx x).pool = s.pool := rfl
@[simp] theorem State.setRx_rx : (s.setRx x).rx = x := rfl
@[simp] theorem State.setRx_tx : (s.setRx x).tx = s.tx := rfl
@[simp] theorem State.setRx_judges : (s.setRx x).judges = s.judges := rfl
@[simp] theorem State.setRx_store : (s.setRx x).store = s.store := rfl
@[simp] theorem State.setRx_windows : (s.setRx x).windows = s.windows := rfl
@[simp] theorem State.setRx_policer : (s.setRx x).policer = s.policer := rfl
@[simp] theorem State.setRx_cal : (s.setRx x).cal = s.cal := rfl
@[simp] theorem State.setRx_hold : (s.setRx x).hold = s.hold := rfl
@[simp] theorem State.setRx_commit : (s.setRx x).commit = s.commit := rfl
@[simp] theorem State.setRx_agent : (s.setRx x).agent = s.agent := rfl
@[simp] theorem State.setRx_exc : (s.setRx x).exc = s.exc := rfl
@[simp] theorem State.setRx_ownAddr : (s.setRx x).ownAddr = s.ownAddr := rfl
@[simp] theorem State.setRx_straps : (s.setRx x).straps = s.straps := rfl
@[simp] theorem State.setRx_draws : (s.setRx x).draws = s.draws := rfl
@[simp] theorem State.setRx_pending : (s.setRx x).pending = s.pending := rfl
@[simp] theorem State.setRx_setRx : (s.setRx x).setRx y = s.setRx y := rfl
@[simp] theorem State.setRx_self : s.setRx s.rx = s := rfl
end

section
variable (x y : PerPort TxUnit)
@[simp] theorem State.setTx_pool : (s.setTx x).pool = s.pool := rfl
@[simp] theorem State.setTx_rx : (s.setTx x).rx = s.rx := rfl
@[simp] theorem State.setTx_tx : (s.setTx x).tx = x := rfl
@[simp] theorem State.setTx_judges : (s.setTx x).judges = s.judges := rfl
@[simp] theorem State.setTx_store : (s.setTx x).store = s.store := rfl
@[simp] theorem State.setTx_windows : (s.setTx x).windows = s.windows := rfl
@[simp] theorem State.setTx_policer : (s.setTx x).policer = s.policer := rfl
@[simp] theorem State.setTx_cal : (s.setTx x).cal = s.cal := rfl
@[simp] theorem State.setTx_hold : (s.setTx x).hold = s.hold := rfl
@[simp] theorem State.setTx_commit : (s.setTx x).commit = s.commit := rfl
@[simp] theorem State.setTx_agent : (s.setTx x).agent = s.agent := rfl
@[simp] theorem State.setTx_exc : (s.setTx x).exc = s.exc := rfl
@[simp] theorem State.setTx_ownAddr : (s.setTx x).ownAddr = s.ownAddr := rfl
@[simp] theorem State.setTx_straps : (s.setTx x).straps = s.straps := rfl
@[simp] theorem State.setTx_draws : (s.setTx x).draws = s.draws := rfl
@[simp] theorem State.setTx_pending : (s.setTx x).pending = s.pending := rfl
@[simp] theorem State.setTx_setTx : (s.setTx x).setTx y = s.setTx y := rfl
@[simp] theorem State.setTx_self : s.setTx s.tx = s := rfl
end

section
variable (x y : PerPort Judge)
@[simp] theorem State.setJudges_pool : (s.setJudges x).pool = s.pool := rfl
@[simp] theorem State.setJudges_rx : (s.setJudges x).rx = s.rx := rfl
@[simp] theorem State.setJudges_tx : (s.setJudges x).tx = s.tx := rfl
@[simp] theorem State.setJudges_judges : (s.setJudges x).judges = x := rfl
@[simp] theorem State.setJudges_store : (s.setJudges x).store = s.store := rfl
@[simp] theorem State.setJudges_windows : (s.setJudges x).windows = s.windows := rfl
@[simp] theorem State.setJudges_policer : (s.setJudges x).policer = s.policer := rfl
@[simp] theorem State.setJudges_cal : (s.setJudges x).cal = s.cal := rfl
@[simp] theorem State.setJudges_hold : (s.setJudges x).hold = s.hold := rfl
@[simp] theorem State.setJudges_commit : (s.setJudges x).commit = s.commit := rfl
@[simp] theorem State.setJudges_agent : (s.setJudges x).agent = s.agent := rfl
@[simp] theorem State.setJudges_exc : (s.setJudges x).exc = s.exc := rfl
@[simp] theorem State.setJudges_ownAddr : (s.setJudges x).ownAddr = s.ownAddr := rfl
@[simp] theorem State.setJudges_straps : (s.setJudges x).straps = s.straps := rfl
@[simp] theorem State.setJudges_draws : (s.setJudges x).draws = s.draws := rfl
@[simp] theorem State.setJudges_pending : (s.setJudges x).pending = s.pending := rfl
@[simp] theorem State.setJudges_setJudges : (s.setJudges x).setJudges y = s.setJudges y := rfl
@[simp] theorem State.setJudges_self : s.setJudges s.judges = s := rfl
end

section
variable (x y : TableStore)
@[simp] theorem State.setStore_pool : (s.setStore x).pool = s.pool := rfl
@[simp] theorem State.setStore_rx : (s.setStore x).rx = s.rx := rfl
@[simp] theorem State.setStore_tx : (s.setStore x).tx = s.tx := rfl
@[simp] theorem State.setStore_judges : (s.setStore x).judges = s.judges := rfl
@[simp] theorem State.setStore_store : (s.setStore x).store = x := rfl
@[simp] theorem State.setStore_windows : (s.setStore x).windows = s.windows := rfl
@[simp] theorem State.setStore_policer : (s.setStore x).policer = s.policer := rfl
@[simp] theorem State.setStore_cal : (s.setStore x).cal = s.cal := rfl
@[simp] theorem State.setStore_hold : (s.setStore x).hold = s.hold := rfl
@[simp] theorem State.setStore_commit : (s.setStore x).commit = s.commit := rfl
@[simp] theorem State.setStore_agent : (s.setStore x).agent = s.agent := rfl
@[simp] theorem State.setStore_exc : (s.setStore x).exc = s.exc := rfl
@[simp] theorem State.setStore_ownAddr : (s.setStore x).ownAddr = s.ownAddr := rfl
@[simp] theorem State.setStore_straps : (s.setStore x).straps = s.straps := rfl
@[simp] theorem State.setStore_draws : (s.setStore x).draws = s.draws := rfl
@[simp] theorem State.setStore_pending : (s.setStore x).pending = s.pending := rfl
@[simp] theorem State.setStore_setStore : (s.setStore x).setStore y = s.setStore y := rfl
@[simp] theorem State.setStore_self : s.setStore s.store = s := rfl
end

section
variable (x y : WindowMonitor)
@[simp] theorem State.setWindows_pool : (s.setWindows x).pool = s.pool := rfl
@[simp] theorem State.setWindows_rx : (s.setWindows x).rx = s.rx := rfl
@[simp] theorem State.setWindows_tx : (s.setWindows x).tx = s.tx := rfl
@[simp] theorem State.setWindows_judges : (s.setWindows x).judges = s.judges := rfl
@[simp] theorem State.setWindows_store : (s.setWindows x).store = s.store := rfl
@[simp] theorem State.setWindows_windows : (s.setWindows x).windows = x := rfl
@[simp] theorem State.setWindows_policer : (s.setWindows x).policer = s.policer := rfl
@[simp] theorem State.setWindows_cal : (s.setWindows x).cal = s.cal := rfl
@[simp] theorem State.setWindows_hold : (s.setWindows x).hold = s.hold := rfl
@[simp] theorem State.setWindows_commit : (s.setWindows x).commit = s.commit := rfl
@[simp] theorem State.setWindows_agent : (s.setWindows x).agent = s.agent := rfl
@[simp] theorem State.setWindows_exc : (s.setWindows x).exc = s.exc := rfl
@[simp] theorem State.setWindows_ownAddr : (s.setWindows x).ownAddr = s.ownAddr := rfl
@[simp] theorem State.setWindows_straps : (s.setWindows x).straps = s.straps := rfl
@[simp] theorem State.setWindows_draws : (s.setWindows x).draws = s.draws := rfl
@[simp] theorem State.setWindows_pending : (s.setWindows x).pending = s.pending := rfl
@[simp] theorem State.setWindows_setWindows : (s.setWindows x).setWindows y = s.setWindows y := rfl
@[simp] theorem State.setWindows_self : s.setWindows s.windows = s := rfl
end

section
variable (x y : Policer)
@[simp] theorem State.setPolicer_pool : (s.setPolicer x).pool = s.pool := rfl
@[simp] theorem State.setPolicer_rx : (s.setPolicer x).rx = s.rx := rfl
@[simp] theorem State.setPolicer_tx : (s.setPolicer x).tx = s.tx := rfl
@[simp] theorem State.setPolicer_judges : (s.setPolicer x).judges = s.judges := rfl
@[simp] theorem State.setPolicer_store : (s.setPolicer x).store = s.store := rfl
@[simp] theorem State.setPolicer_windows : (s.setPolicer x).windows = s.windows := rfl
@[simp] theorem State.setPolicer_policer : (s.setPolicer x).policer = x := rfl
@[simp] theorem State.setPolicer_cal : (s.setPolicer x).cal = s.cal := rfl
@[simp] theorem State.setPolicer_hold : (s.setPolicer x).hold = s.hold := rfl
@[simp] theorem State.setPolicer_commit : (s.setPolicer x).commit = s.commit := rfl
@[simp] theorem State.setPolicer_agent : (s.setPolicer x).agent = s.agent := rfl
@[simp] theorem State.setPolicer_exc : (s.setPolicer x).exc = s.exc := rfl
@[simp] theorem State.setPolicer_ownAddr : (s.setPolicer x).ownAddr = s.ownAddr := rfl
@[simp] theorem State.setPolicer_straps : (s.setPolicer x).straps = s.straps := rfl
@[simp] theorem State.setPolicer_draws : (s.setPolicer x).draws = s.draws := rfl
@[simp] theorem State.setPolicer_pending : (s.setPolicer x).pending = s.pending := rfl
@[simp] theorem State.setPolicer_setPolicer : (s.setPolicer x).setPolicer y = s.setPolicer y := rfl
@[simp] theorem State.setPolicer_self : s.setPolicer s.policer = s := rfl
end

section
variable (x y : Calendar)
@[simp] theorem State.setCal_pool : (s.setCal x).pool = s.pool := rfl
@[simp] theorem State.setCal_rx : (s.setCal x).rx = s.rx := rfl
@[simp] theorem State.setCal_tx : (s.setCal x).tx = s.tx := rfl
@[simp] theorem State.setCal_judges : (s.setCal x).judges = s.judges := rfl
@[simp] theorem State.setCal_store : (s.setCal x).store = s.store := rfl
@[simp] theorem State.setCal_windows : (s.setCal x).windows = s.windows := rfl
@[simp] theorem State.setCal_policer : (s.setCal x).policer = s.policer := rfl
@[simp] theorem State.setCal_cal : (s.setCal x).cal = x := rfl
@[simp] theorem State.setCal_hold : (s.setCal x).hold = s.hold := rfl
@[simp] theorem State.setCal_commit : (s.setCal x).commit = s.commit := rfl
@[simp] theorem State.setCal_agent : (s.setCal x).agent = s.agent := rfl
@[simp] theorem State.setCal_exc : (s.setCal x).exc = s.exc := rfl
@[simp] theorem State.setCal_ownAddr : (s.setCal x).ownAddr = s.ownAddr := rfl
@[simp] theorem State.setCal_straps : (s.setCal x).straps = s.straps := rfl
@[simp] theorem State.setCal_draws : (s.setCal x).draws = s.draws := rfl
@[simp] theorem State.setCal_pending : (s.setCal x).pending = s.pending := rfl
@[simp] theorem State.setCal_setCal : (s.setCal x).setCal y = s.setCal y := rfl
@[simp] theorem State.setCal_self : s.setCal s.cal = s := rfl
end

section
variable (x y : HoldQueue)
@[simp] theorem State.setHold_pool : (s.setHold x).pool = s.pool := rfl
@[simp] theorem State.setHold_rx : (s.setHold x).rx = s.rx := rfl
@[simp] theorem State.setHold_tx : (s.setHold x).tx = s.tx := rfl
@[simp] theorem State.setHold_judges : (s.setHold x).judges = s.judges := rfl
@[simp] theorem State.setHold_store : (s.setHold x).store = s.store := rfl
@[simp] theorem State.setHold_windows : (s.setHold x).windows = s.windows := rfl
@[simp] theorem State.setHold_policer : (s.setHold x).policer = s.policer := rfl
@[simp] theorem State.setHold_cal : (s.setHold x).cal = s.cal := rfl
@[simp] theorem State.setHold_hold : (s.setHold x).hold = x := rfl
@[simp] theorem State.setHold_commit : (s.setHold x).commit = s.commit := rfl
@[simp] theorem State.setHold_agent : (s.setHold x).agent = s.agent := rfl
@[simp] theorem State.setHold_exc : (s.setHold x).exc = s.exc := rfl
@[simp] theorem State.setHold_ownAddr : (s.setHold x).ownAddr = s.ownAddr := rfl
@[simp] theorem State.setHold_straps : (s.setHold x).straps = s.straps := rfl
@[simp] theorem State.setHold_draws : (s.setHold x).draws = s.draws := rfl
@[simp] theorem State.setHold_pending : (s.setHold x).pending = s.pending := rfl
@[simp] theorem State.setHold_setHold : (s.setHold x).setHold y = s.setHold y := rfl
@[simp] theorem State.setHold_self : s.setHold s.hold = s := rfl
end

section
variable (x y : CommitCtl)
@[simp] theorem State.setCommit_pool : (s.setCommit x).pool = s.pool := rfl
@[simp] theorem State.setCommit_rx : (s.setCommit x).rx = s.rx := rfl
@[simp] theorem State.setCommit_tx : (s.setCommit x).tx = s.tx := rfl
@[simp] theorem State.setCommit_judges : (s.setCommit x).judges = s.judges := rfl
@[simp] theorem State.setCommit_store : (s.setCommit x).store = s.store := rfl
@[simp] theorem State.setCommit_windows : (s.setCommit x).windows = s.windows := rfl
@[simp] theorem State.setCommit_policer : (s.setCommit x).policer = s.policer := rfl
@[simp] theorem State.setCommit_cal : (s.setCommit x).cal = s.cal := rfl
@[simp] theorem State.setCommit_hold : (s.setCommit x).hold = s.hold := rfl
@[simp] theorem State.setCommit_commit : (s.setCommit x).commit = x := rfl
@[simp] theorem State.setCommit_agent : (s.setCommit x).agent = s.agent := rfl
@[simp] theorem State.setCommit_exc : (s.setCommit x).exc = s.exc := rfl
@[simp] theorem State.setCommit_ownAddr : (s.setCommit x).ownAddr = s.ownAddr := rfl
@[simp] theorem State.setCommit_straps : (s.setCommit x).straps = s.straps := rfl
@[simp] theorem State.setCommit_draws : (s.setCommit x).draws = s.draws := rfl
@[simp] theorem State.setCommit_pending : (s.setCommit x).pending = s.pending := rfl
@[simp] theorem State.setCommit_setCommit : (s.setCommit x).setCommit y = s.setCommit y := rfl
@[simp] theorem State.setCommit_self : s.setCommit s.commit = s := rfl
end

section
variable (x y : Agent)
@[simp] theorem State.setAgent_pool : (s.setAgent x).pool = s.pool := rfl
@[simp] theorem State.setAgent_rx : (s.setAgent x).rx = s.rx := rfl
@[simp] theorem State.setAgent_tx : (s.setAgent x).tx = s.tx := rfl
@[simp] theorem State.setAgent_judges : (s.setAgent x).judges = s.judges := rfl
@[simp] theorem State.setAgent_store : (s.setAgent x).store = s.store := rfl
@[simp] theorem State.setAgent_windows : (s.setAgent x).windows = s.windows := rfl
@[simp] theorem State.setAgent_policer : (s.setAgent x).policer = s.policer := rfl
@[simp] theorem State.setAgent_cal : (s.setAgent x).cal = s.cal := rfl
@[simp] theorem State.setAgent_hold : (s.setAgent x).hold = s.hold := rfl
@[simp] theorem State.setAgent_commit : (s.setAgent x).commit = s.commit := rfl
@[simp] theorem State.setAgent_agent : (s.setAgent x).agent = x := rfl
@[simp] theorem State.setAgent_exc : (s.setAgent x).exc = s.exc := rfl
@[simp] theorem State.setAgent_ownAddr : (s.setAgent x).ownAddr = s.ownAddr := rfl
@[simp] theorem State.setAgent_straps : (s.setAgent x).straps = s.straps := rfl
@[simp] theorem State.setAgent_draws : (s.setAgent x).draws = s.draws := rfl
@[simp] theorem State.setAgent_pending : (s.setAgent x).pending = s.pending := rfl
@[simp] theorem State.setAgent_setAgent : (s.setAgent x).setAgent y = s.setAgent y := rfl
@[simp] theorem State.setAgent_self : s.setAgent s.agent = s := rfl
end

section
variable (x y : ExceptionUnit)
@[simp] theorem State.setExc_pool : (s.setExc x).pool = s.pool := rfl
@[simp] theorem State.setExc_rx : (s.setExc x).rx = s.rx := rfl
@[simp] theorem State.setExc_tx : (s.setExc x).tx = s.tx := rfl
@[simp] theorem State.setExc_judges : (s.setExc x).judges = s.judges := rfl
@[simp] theorem State.setExc_store : (s.setExc x).store = s.store := rfl
@[simp] theorem State.setExc_windows : (s.setExc x).windows = s.windows := rfl
@[simp] theorem State.setExc_policer : (s.setExc x).policer = s.policer := rfl
@[simp] theorem State.setExc_cal : (s.setExc x).cal = s.cal := rfl
@[simp] theorem State.setExc_hold : (s.setExc x).hold = s.hold := rfl
@[simp] theorem State.setExc_commit : (s.setExc x).commit = s.commit := rfl
@[simp] theorem State.setExc_agent : (s.setExc x).agent = s.agent := rfl
@[simp] theorem State.setExc_exc : (s.setExc x).exc = x := rfl
@[simp] theorem State.setExc_ownAddr : (s.setExc x).ownAddr = s.ownAddr := rfl
@[simp] theorem State.setExc_straps : (s.setExc x).straps = s.straps := rfl
@[simp] theorem State.setExc_draws : (s.setExc x).draws = s.draws := rfl
@[simp] theorem State.setExc_pending : (s.setExc x).pending = s.pending := rfl
@[simp] theorem State.setExc_setExc : (s.setExc x).setExc y = s.setExc y := rfl
@[simp] theorem State.setExc_self : s.setExc s.exc = s := rfl
end

section
variable (x y : Addr)
@[simp] theorem State.setOwnAddr_pool : (s.setOwnAddr x).pool = s.pool := rfl
@[simp] theorem State.setOwnAddr_rx : (s.setOwnAddr x).rx = s.rx := rfl
@[simp] theorem State.setOwnAddr_tx : (s.setOwnAddr x).tx = s.tx := rfl
@[simp] theorem State.setOwnAddr_judges : (s.setOwnAddr x).judges = s.judges := rfl
@[simp] theorem State.setOwnAddr_store : (s.setOwnAddr x).store = s.store := rfl
@[simp] theorem State.setOwnAddr_windows : (s.setOwnAddr x).windows = s.windows := rfl
@[simp] theorem State.setOwnAddr_policer : (s.setOwnAddr x).policer = s.policer := rfl
@[simp] theorem State.setOwnAddr_cal : (s.setOwnAddr x).cal = s.cal := rfl
@[simp] theorem State.setOwnAddr_hold : (s.setOwnAddr x).hold = s.hold := rfl
@[simp] theorem State.setOwnAddr_commit : (s.setOwnAddr x).commit = s.commit := rfl
@[simp] theorem State.setOwnAddr_agent : (s.setOwnAddr x).agent = s.agent := rfl
@[simp] theorem State.setOwnAddr_exc : (s.setOwnAddr x).exc = s.exc := rfl
@[simp] theorem State.setOwnAddr_ownAddr : (s.setOwnAddr x).ownAddr = x := rfl
@[simp] theorem State.setOwnAddr_straps : (s.setOwnAddr x).straps = s.straps := rfl
@[simp] theorem State.setOwnAddr_draws : (s.setOwnAddr x).draws = s.draws := rfl
@[simp] theorem State.setOwnAddr_pending : (s.setOwnAddr x).pending = s.pending := rfl
@[simp] theorem State.setOwnAddr_setOwnAddr : (s.setOwnAddr x).setOwnAddr y = s.setOwnAddr y := rfl
@[simp] theorem State.setOwnAddr_self : s.setOwnAddr s.ownAddr = s := rfl
end

section
variable (x y : BitVec 8)
@[simp] theorem State.setStraps_pool : (s.setStraps x).pool = s.pool := rfl
@[simp] theorem State.setStraps_rx : (s.setStraps x).rx = s.rx := rfl
@[simp] theorem State.setStraps_tx : (s.setStraps x).tx = s.tx := rfl
@[simp] theorem State.setStraps_judges : (s.setStraps x).judges = s.judges := rfl
@[simp] theorem State.setStraps_store : (s.setStraps x).store = s.store := rfl
@[simp] theorem State.setStraps_windows : (s.setStraps x).windows = s.windows := rfl
@[simp] theorem State.setStraps_policer : (s.setStraps x).policer = s.policer := rfl
@[simp] theorem State.setStraps_cal : (s.setStraps x).cal = s.cal := rfl
@[simp] theorem State.setStraps_hold : (s.setStraps x).hold = s.hold := rfl
@[simp] theorem State.setStraps_commit : (s.setStraps x).commit = s.commit := rfl
@[simp] theorem State.setStraps_agent : (s.setStraps x).agent = s.agent := rfl
@[simp] theorem State.setStraps_exc : (s.setStraps x).exc = s.exc := rfl
@[simp] theorem State.setStraps_ownAddr : (s.setStraps x).ownAddr = s.ownAddr := rfl
@[simp] theorem State.setStraps_straps : (s.setStraps x).straps = x := rfl
@[simp] theorem State.setStraps_draws : (s.setStraps x).draws = s.draws := rfl
@[simp] theorem State.setStraps_pending : (s.setStraps x).pending = s.pending := rfl
@[simp] theorem State.setStraps_setStraps : (s.setStraps x).setStraps y = s.setStraps y := rfl
@[simp] theorem State.setStraps_self : s.setStraps s.straps = s := rfl
end

section
variable (x y : Nat)
@[simp] theorem State.setDraws_pool : (s.setDraws x).pool = s.pool := rfl
@[simp] theorem State.setDraws_rx : (s.setDraws x).rx = s.rx := rfl
@[simp] theorem State.setDraws_tx : (s.setDraws x).tx = s.tx := rfl
@[simp] theorem State.setDraws_judges : (s.setDraws x).judges = s.judges := rfl
@[simp] theorem State.setDraws_store : (s.setDraws x).store = s.store := rfl
@[simp] theorem State.setDraws_windows : (s.setDraws x).windows = s.windows := rfl
@[simp] theorem State.setDraws_policer : (s.setDraws x).policer = s.policer := rfl
@[simp] theorem State.setDraws_cal : (s.setDraws x).cal = s.cal := rfl
@[simp] theorem State.setDraws_hold : (s.setDraws x).hold = s.hold := rfl
@[simp] theorem State.setDraws_commit : (s.setDraws x).commit = s.commit := rfl
@[simp] theorem State.setDraws_agent : (s.setDraws x).agent = s.agent := rfl
@[simp] theorem State.setDraws_exc : (s.setDraws x).exc = s.exc := rfl
@[simp] theorem State.setDraws_ownAddr : (s.setDraws x).ownAddr = s.ownAddr := rfl
@[simp] theorem State.setDraws_straps : (s.setDraws x).straps = s.straps := rfl
@[simp] theorem State.setDraws_draws : (s.setDraws x).draws = x := rfl
@[simp] theorem State.setDraws_pending : (s.setDraws x).pending = s.pending := rfl
@[simp] theorem State.setDraws_setDraws : (s.setDraws x).setDraws y = s.setDraws y := rfl
@[simp] theorem State.setDraws_self : s.setDraws s.draws = s := rfl
end

section
variable (x y : List Instr)
@[simp] theorem State.setPending_pool : (s.setPending x).pool = s.pool := rfl
@[simp] theorem State.setPending_rx : (s.setPending x).rx = s.rx := rfl
@[simp] theorem State.setPending_tx : (s.setPending x).tx = s.tx := rfl
@[simp] theorem State.setPending_judges : (s.setPending x).judges = s.judges := rfl
@[simp] theorem State.setPending_store : (s.setPending x).store = s.store := rfl
@[simp] theorem State.setPending_windows : (s.setPending x).windows = s.windows := rfl
@[simp] theorem State.setPending_policer : (s.setPending x).policer = s.policer := rfl
@[simp] theorem State.setPending_cal : (s.setPending x).cal = s.cal := rfl
@[simp] theorem State.setPending_hold : (s.setPending x).hold = s.hold := rfl
@[simp] theorem State.setPending_commit : (s.setPending x).commit = s.commit := rfl
@[simp] theorem State.setPending_agent : (s.setPending x).agent = s.agent := rfl
@[simp] theorem State.setPending_exc : (s.setPending x).exc = s.exc := rfl
@[simp] theorem State.setPending_ownAddr : (s.setPending x).ownAddr = s.ownAddr := rfl
@[simp] theorem State.setPending_straps : (s.setPending x).straps = s.straps := rfl
@[simp] theorem State.setPending_draws : (s.setPending x).draws = s.draws := rfl
@[simp] theorem State.setPending_pending : (s.setPending x).pending = x := rfl
@[simp] theorem State.setPending_setPending : (s.setPending x).setPending y = s.setPending y := rfl
@[simp] theorem State.setPending_self : s.setPending s.pending = s := rfl
end

section
variable {α : Type} (x : PerPort α) (y : PerBank α) (v w : α)

@[simp] theorem PerPort.get_set_self (p : Port) : (x.set p v).get p = v := by cases p <;> rfl

theorem PerPort.get_set_other (p : Port) : (x.set p v).get (otherPort p) = x.get (otherPort p) := by
  cases p <;> rfl

theorem PerPort.get_set (p q : Port) : (x.set p v).get q = if q = p then v else x.get q := by
  cases p <;> cases q <;> rfl

@[simp] theorem PerPort.set_set (p : Port) : (x.set p v).set p w = x.set p w := by cases p <;> rfl

@[simp] theorem PerPort.set_get (p : Port) : x.set p (x.get p) = x := by cases p <;> rfl

@[simp] theorem PerBank.get_set_self (b : Bank) : (y.set b v).get b = v := by cases b <;> rfl

theorem PerBank.get_set (b c : Bank) : (y.set b v).get c = if c = b then v else y.get c := by
  cases b <;> cases c <;> rfl

@[simp] theorem PerBank.set_set (b : Bank) : (y.set b v).set b w = y.set b w := by cases b <;> rfl

@[simp] theorem otherPort_otherPort (p : Port) : otherPort (otherPort p) = p := by cases p <;> rfl

@[simp] theorem otherBank_otherBank (b : Bank) : otherBank (otherBank b) = b := by cases b <;> rfl

theorem otherBank_ne (b : Bank) : otherBank b ≠ b := by cases b <;> decide

end

end Sys2Proof.Machine
end

