-- ==== Sys2Proof/Laws/Frames.lean ====
section
/-! SUPPORT. What each shared operation leaves as it is. Two frames are enough: an operation that only tells,
hands over, returns or appends changes at most the pool, the Transmit Units and the Exception Unit; one that
works on held records changes besides at most the Hold Queue, the Judges and the Policer. -/

namespace Sys2Proof.Machine

/-- `t` is `s` but for the Buffer Pool, the Transmit Units and the Exception Unit. -/
structure SameButOut (s t : State) : Prop where
  rx : t.rx = s.rx
  judges : t.judges = s.judges
  store : t.store = s.store
  windows : t.windows = s.windows
  policer : t.policer = s.policer
  cal : t.cal = s.cal
  hold : t.hold = s.hold
  commit : t.commit = s.commit
  agent : t.agent = s.agent
  ownAddr : t.ownAddr = s.ownAddr
  straps : t.straps = s.straps
  draws : t.draws = s.draws
  pending : t.pending = s.pending

/-- `t` is `s` but for the Buffer Pool, the Transmit Units, the Exception Unit, the Hold Queue, the Judges and
the Policer. -/
structure SameButHeld (s t : State) : Prop where
  rx : t.rx = s.rx
  store : t.store = s.store
  windows : t.windows = s.windows
  cal : t.cal = s.cal
  commit : t.commit = s.commit
  agent : t.agent = s.agent
  ownAddr : t.ownAddr = s.ownAddr
  straps : t.straps = s.straps
  draws : t.draws = s.draws
  pending : t.pending = s.pending

theorem SameButOut.refl (s : State) : SameButOut s s := by constructor <;> rfl

theorem SameButHeld.refl (s : State) : SameButHeld s s := by constructor <;> rfl

theorem SameButOut.trans {s t u : State} (a : SameButOut s t) (b : SameButOut t u) : SameButOut s u := by
  constructor
  · rw [b.rx, a.rx]
  · rw [b.judges, a.judges]
  · rw [b.store, a.store]
  · rw [b.windows, a.windows]
  · rw [b.policer, a.policer]
  · rw [b.cal, a.cal]
  · rw [b.hold, a.hold]
  · rw [b.commit, a.commit]
  · rw [b.agent, a.agent]
  · rw [b.ownAddr, a.ownAddr]
  · rw [b.straps, a.straps]
  · rw [b.draws, a.draws]
  · rw [b.pending, a.pending]

theorem SameButHeld.trans {s t u : State} (a : SameButHeld s t) (b : SameButHeld t u) :
    SameButHeld s u := by
  constructor
  · rw [b.rx, a.rx]
  · rw [b.store, a.store]
  · rw [b.windows, a.windows]
  · rw [b.cal, a.cal]
  · rw [b.commit, a.commit]
  · rw [b.agent, a.agent]
  · rw [b.ownAddr, a.ownAddr]
  · rw [b.straps, a.straps]
  · rw [b.draws, a.draws]
  · rw [b.pending, a.pending]

theorem SameButOut.held {s t : State} (a : SameButOut s t) : SameButHeld s t :=
  ⟨a.rx, a.store, a.windows, a.cal, a.commit, a.agent, a.ownAddr, a.straps, a.draws, a.pending⟩

/-! ### The pool, the Transmit Units, the Exception Unit -/

theorem setBuffer_out (b : BufId) (x : Buffer) (s : State) : SameButOut s (s.setBuffer b x) := by
  constructor <;> rfl

theorem release_out (b : BufId) (s : State) : SameButOut s (release b s) := by constructor <;> rfl

theorem prepareBuffer_out (b : BufId) (d : Addr) (x : StampPolicy) (s : State) :
    SameButOut s (prepareBuffer b d x s) := by constructor <;> rfl

theorem setExc_out (x : ExceptionUnit) (s : State) : SameButOut s (s.setExc x) := by constructor <;> rfl

theorem claim_out {b : BufId} {s t : State} (h : claim s = some (b, t)) : SameButOut s t := by
  unfold claim at h
  split at h
  · cases h
  · cases h
    constructor <;> rfl

theorem txAppend_out {p : Port} {k : ListKind} {b : BufId} {s t : State}
    (h : txAppend p k b s = some t) : SameButOut s t := by
  unfold txAppend at h
  split at h
  · cases h
    constructor <;> rfl
  · cases h

theorem sendReport_out (f : Flag) (s : State) : SameButOut s (sendReport f s) := by
  unfold sendReport
  split
  · exact .refl s
  · simp only
    split
    · exact setExc_out _ s
    · rename_i b s2 hc
      have h1 := (setExc_out { s.exc with reportNumber := s.exc.reportNumber + 1 } s).trans (claim_out hc)
      split
      · rename_i s4 ha
        exact (h1.trans (setBuffer_out _ _ _)).trans (txAppend_out ha)
      · exact (h1.trans (setBuffer_out _ _ _)).trans (release_out _ _)

theorem driveAlert_out (s : State) : SameButOut s (driveAlert s) := setExc_out _ s

theorem tell_out (f : Flag) (s : State) : SameButOut s (tell f s) := by
  unfold tell
  split
  · exact .refl s
  · exact ((setExc_out _ s).trans (driveAlert_out _)).trans (sendReport_out f _)

theorem clearFlags_out (x : BitVec 8) (s : State) : SameButOut s (clearFlags x s) :=
  (setExc_out _ s).trans (driveAlert_out _)

theorem loseRecord_out (s : State) : SameButOut s (loseRecord s) := (setExc_out _ s).trans (tell_out _ _)

theorem appendRecord_out (r : ExcRecord) (s : State) : SameButOut s (appendRecord r s) := by
  unfold appendRecord
  split
  · exact (setExc_out _ s).trans (tell_out _ _)
  · exact setExc_out _ s

theorem handOver_out (h : Handed) (s : State) : SameButOut s (handOver h s) := by
  unfold handOver
  simp only
  split
  · exact appendRecord_out _ s
  · split
    · split
      · exact loseRecord_out s
      · exact setExc_out _ s
    · split
      · exact loseRecord_out s
      · exact appendRecord_out _ s

theorem drainRecords_out (n : Nat) (s : State) : SameButOut s (drainRecords n s) := setExc_out _ s

theorem holdHighTest_out (s : State) : SameButOut s (holdHighTest s) := by
  unfold holdHighTest
  split
  · exact tell_out _ s
  · exact .refl s

theorem urgentTest_out (s : State) : SameButOut s (urgentTest s) := by
  unfold urgentTest
  split
  · exact tell_out _ s
  · exact .refl s

theorem tellFault_out (x : Bool) (s : State) : SameButOut s (tellFault x s) := by
  unfold tellFault
  split
  · exact tell_out _ s
  · exact .refl s

theorem offerResponse_out (b : BufId) (d : Addr) (s : State) : SameButOut s (offerResponse b d s) := by
  unfold offerResponse
  split
  · rename_i t h
    exact txAppend_out h
  · exact (release_out b s).trans (handOver_out _ _)

theorem respond_out (b : BufId) (x : Status) (l : List Byte) (s : State) :
    SameButOut s (respond b x l s) := (setBuffer_out _ _ s).trans (offerResponse_out _ _ _)

/-! ### Credits, counts, held records -/

theorem setPolicer_held (x : Policer) (s : State) : SameButHeld s (s.setPolicer x) := by
  constructor <;> rfl

theorem setHold_held (x : HoldQueue) (s : State) : SameButHeld s (s.setHold x) := by constructor <;> rfl

theorem mapJudge_held (p : Port) (f : Judge → Judge) (s : State) : SameButHeld s (s.mapJudge p f) := by
  constructor <;> rfl

theorem requestCredit_held (i : Index) (s : State) : SameButHeld s (requestCredit i s).2 := by
  unfold requestCredit
  split
  · exact .refl s
  · exact setPolicer_held _ s

theorem countPassed_held (i : Option Index) (s : State) : SameButHeld s (countPassed i s) := by
  unfold countPassed
  split
  · exact setPolicer_held _ s
  · exact .refl s

theorem countRefused_held (i : Option Index) (s : State) : SameButHeld s (countRefused i s) := by
  unfold countRefused
  split
  · exact setPolicer_held _ s
  · exact .refl s

theorem countHeld_held (i : Option Index) (s : State) : SameButHeld s (countHeld i s) := by
  unfold countHeld
  split
  · exact setPolicer_held _ s
  · exact .refl s

theorem consume_held (i : Option Index) (c : HeldContext) (s : State) : SameButHeld s (consume i c s) := by
  unfold consume
  split
  · split
    · exact .refl s
    · exact requestCredit_held _ s
  · exact .refl s

theorem takeOut_held (r : HeldRecord) (x : Reason) (i : Option Index) (s : State) :
    SameButHeld s (takeOut r x i s) :=
  ((setHold_held _ s).trans (release_out _ _).held).trans (handOver_out _ _).held

theorem takeOutPartner_held (r : HeldRecord) (s : State) : SameButHeld s (takeOutPartner r s) := by
  unfold takeOutPartner
  split
  · exact .refl s
  · split
    · exact .refl s
    · exact takeOut_held _ _ _ s

theorem reportFate_held (r : HeldRecord) (s : State) : SameButHeld s (reportFate r s) := by
  unfold reportFate
  split
  · exact mapJudge_held _ _ s
  · exact .refl s

theorem withdraw_held (r : HeldRecord) (s : State) : SameButHeld s (withdraw r s) := by
  unfold withdraw
  split
  · exact (mapJudge_held _ _ s).trans (setHold_held _ _)
  · exact .refl s

theorem removeFirst_held (r : HeldRecord) (x : Reason) (i : Option Index) (s : State) :
    SameButHeld s (removeFirst r x i s) :=
  (((takeOut_held r x i s).trans (takeOutPartner_held r _)).trans (reportFate_held r _)).trans
    (withdraw_held r _)

theorem removeCounted_held (r : HeldRecord) (x : Reason) (i : Option Index) (s : State) :
    SameButHeld s (removeCounted r x i s) := (removeFirst_held r x i s).trans (countRefused_held i _)

theorem removeRef_held (x : Reason) (s : State) (n : Nat) : SameButHeld s (removeRef x s n) := by
  unfold removeRef
  split
  · exact removeFirst_held _ _ _ s
  · exact .refl s

theorem removeRefs_held (x : Reason) (l : List Nat) (s : State) :
    SameButHeld s (l.foldl (removeRef x) s) := by
  induction l generalizing s with
  | nil => exact .refl s
  | cons n l ih => exact (removeRef_held x s n).trans (ih _)

theorem dropBroken_held (n : Nat) (s : State) : SameButHeld s (dropBroken n s) := removeRef_held _ s n

theorem expire_held (s : State) : SameButHeld s (expire s) := removeRefs_held _ _ s

theorem removeBlocked_held (s : State) : SameButHeld s (removeBlocked s) := removeRefs_held _ _ s

theorem flushHeld_held (x : Option Index) (s : State) : SameButHeld s (flushHeld x s) := by
  unfold flushHeld
  split <;> exact removeRefs_held _ _ s

theorem releasePartner_held (r : HeldRecord) (s : State) : SameButHeld s (releasePartner r s) := by
  unfold releasePartner
  split
  · exact .refl s
  · split
    · exact .refl s
    · simp only
      split
      · rename_i t h
        exact (((prepareBuffer_out _ _ _ s).held.trans (txAppend_out h).held).trans
          (setHold_held _ _)).trans (countPassed_held _ _)
      · exact ((prepareBuffer_out _ _ _ s).held.trans (takeOut_held _ _ _ _)).trans
          (countRefused_held _ _)

theorem releaseFirst_held (r : HeldRecord) (s : State) : SameButHeld s (releaseFirst r s) := by
  unfold releaseFirst
  simp only
  split
  · rename_i t h
    exact ((((prepareBuffer_out _ _ _ s).held.trans (txAppend_out h).held).trans
      (setHold_held _ _)).trans (countPassed_held _ _)).trans (releasePartner_held r _)
  · exact (prepareBuffer_out _ _ _ s).held.trans (removeCounted_held _ _ _ _)

theorem evaluate_held (r : HeldRecord) (f : FirstPart) (s : State) : SameButHeld s (evaluate r f s) := by
  unfold evaluate
  split
  · exact removeCounted_held _ _ _ s
  · exact setHold_held _ s
  · exact (consume_held _ _ s).trans (releaseFirst_held r _)

theorem catchUp_held (r : HeldRecord) (f : FirstPart) (s : State) : SameButHeld s (catchUp r f s) := by
  unfold catchUp
  split
  · exact removeCounted_held _ _ _ s
  · split
    · exact evaluate_held r f s
    · exact .refl s

theorem admissionTest_held (r : HeldRecord) (f : FirstPart) (s : State) :
    SameButHeld s (admissionTest r f s) := by
  unfold admissionTest
  split
  · split
    · exact removeCounted_held _ _ _ s
    · exact .refl s
  · exact catchUp_held r f s

theorem afterPartner_held (n : Nat) (s : State) : SameButHeld s (afterPartner n s) := by
  unfold afterPartner
  split
  · exact .refl s
  · split
    · exact .refl s
    · split
      · exact .refl s
      · split
        · exact releaseFirst_held _ s
        · exact evaluate_held _ _ s

theorem admitPartner_held (b : BufId) (x : Facts) (n : Nat) (r : HeldRecord) (s : State) :
    SameButHeld s (admitPartner b x n r s) :=
  (((setHold_held _ s).trans (setHold_held _ _)).trans (holdHighTest_out _).held).trans
    (afterPartner_held n _)

theorem trigger_held (k : ScanKind) (s : State) : SameButHeld s (trigger k s) := by
  unfold trigger
  split <;> exact setHold_held _ s

theorem endScan_held (s : State) : SameButHeld s (endScan s) := by
  unfold endScan
  split
  · exact setHold_held _ s
  · exact .refl s

theorem scanRecord_held (k : ScanKind) (n : Nat) (s : State) : SameButHeld s (scanRecord k n s) := by
  unfold scanRecord
  split
  · exact .refl s
  · split
    · exact .refl s
    · split
      · exact evaluate_held _ _ s
      · exact .refl s

theorem scanStep_held (s : State) : SameButHeld s (scanStep s) := by
  unfold scanStep
  split
  · exact .refl s
  · exact endScan_held s
  · exact ((setHold_held _ s).trans (scanRecord_held _ _ _)).trans (endScan_held _)

theorem staleRequest_held (p : Port) (s : State) : SameButHeld s (staleRequest p s) := by
  unfold staleRequest
  split
  · exact .refl s
  · split
    · exact (mapJudge_held _ _ s).trans (setHold_held _ _)
    · exact setHold_held _ s

theorem markPending_held (s : State) : SameButHeld s (markPending s) :=
  ((setHold_held _ s).trans (staleRequest_held .n _)).trans (staleRequest_held .f _)

theorem fillCredits_held (s : State) : SameButHeld s (fillCredits s) := setPolicer_held _ s

theorem clearPending_held (r : HeldRecord) (s : State) : SameButHeld s (clearPending r s) := by
  unfold clearPending
  split
  · exact (setHold_held _ s).trans (setHold_held _ _)
  · exact setHold_held _ s

theorem verdictPass_held (r : HeldRecord) (f : FirstPart) (x : Facts) (s : State) :
    SameButHeld s (verdictPass r f x s) := by
  unfold verdictPass
  simp only
  split
  · exact setHold_held _ s
  · exact (setHold_held _ s).trans (releaseFirst_held _ _)

theorem verdictHold_held (r : HeldRecord) (f : FirstPart) (x : Facts) (y : HoldReason) (n : Nat)
    (s : State) : SameButHeld s (verdictHold r f x y n s) := by
  unfold verdictHold
  simp only
  split
  · exact (setHold_held _ s).trans (removeFirst_held _ _ _ _)
  · split
    · exact setHold_held _ s
    · exact (setHold_held _ s).trans (catchUp_held _ _ _)

theorem carryVerdict_held (r : HeldRecord) (f : FirstPart) (v : RejudgeVerdict) (s : State) :
    SameButHeld s (carryVerdict r f v s) := by
  unfold carryVerdict
  simp only
  split
  · exact (clearPending_held r s).trans (verdictPass_held _ _ _ _)
  · exact (clearPending_held r s).trans (verdictHold_held _ _ _ _ _ _)
  · exact (clearPending_held r s).trans (removeCounted_held _ _ _ _)

/-! ### The Judges at a conclusion -/

theorem refuseTelegram_held (p : Port) (b : BufId) (t : List Byte) (x : Reason) (i : Option Index)
    (s : State) : SameButHeld s (refuseTelegram p b t x i s) :=
  ((release_out b s).held.trans (handOver_out _ _).held).trans (countRefused_held i _)

theorem writeOutcome_held (p : Port) (r : JudgedAs) (o : BindOutcome) (x : Particulars) (s : State) :
    SameButHeld s (writeOutcome p r o x s) := by
  unfold writeOutcome
  split
  · exact mapJudge_held _ _ s
  · exact .refl s

theorem concludeRefuse_held (p : Port) (b : BufId) (r : JudgedAs) (d : Described) (x : Reason)
    (i : Option Index) (s : State) : SameButHeld s (concludeRefuse p b r d x i s) :=
  (refuseTelegram_held p b _ x i s).trans (writeOutcome_held p r _ _ _)

theorem concludePass_held (p : Port) (b : BufId) (r : JudgedAs) (d : Described) (x : Facts)
    (k : ListKind) (s : State) : SameButHeld s (concludePass p b r d x k s) := by
  unfold concludePass
  simp only
  split
  · rename_i t h
    exact (((prepareBuffer_out _ _ _ s).held.trans (txAppend_out h).held).trans
      (countPassed_held _ _)).trans (writeOutcome_held _ _ _ _ _)
  · exact ((prepareBuffer_out _ _ _ s).held.trans (refuseTelegram_held _ _ _ _ _ _)).trans
      (writeOutcome_held _ _ _ _ _)

theorem concludeHold_held (p : Port) (b : BufId) (r : JudgedAs) (d : Described) (x : Facts)
    (y : HoldReason) (n : Nat) (s : State) : SameButHeld s (concludeHold p b r d x y n s) := by
  unfold concludeHold
  split
  · exact concludeRefuse_held _ _ _ _ _ _ s
  · have h : SameButHeld s (holdHighTest (countHeld x.index (writeOutcome p r
        (.held (firstRecord b x y n r.isFirst s).ref) (particularsOf d x.index)
        (admitRecord (firstRecord b x y n r.isFirst s) s)))) :=
      (((setHold_held _ s).trans (writeOutcome_held _ _ _ _ _)).trans (countHeld_held _ _)).trans
        (holdHighTest_out _).held
    simp only
    split
    · exact h.trans (admissionTest_held _ _ _)
    · exact h

theorem concludeOwn_held (p : Port) (b : BufId) (r : JudgedAs) (d : Described) (v : RejudgeVerdict)
    (s : State) : SameButHeld s (concludeOwn p b r d v s) := by
  unfold concludeOwn
  split
  · exact (consume_held _ _ s).trans (concludePass_held _ _ _ _ _ _ _)
  · exact concludeHold_held _ _ _ _ _ _ _ s
  · exact concludeRefuse_held _ _ _ _ _ _ s

theorem concludeAfterPassed_held (p : Port) (b : BufId) (k : ListKind) (o : Option Particulars) (d : Described)
    (v : RejudgeVerdict) (s : State) : SameButHeld s (concludeAfterPassed p b k o d v s) := by
  unfold concludeAfterPassed
  split
  · exact concludePass_held _ _ _ _ _ _ s
  · exact .refl s
  · exact concludeRefuse_held _ _ _ _ _ _ s

theorem offerPartner_held (p : Port) (b : BufId) (n : Nat) (o : Option Particulars) (d : Described) (x : Facts)
    (own : RejudgeVerdict) (s : State) : SameButHeld s (offerPartner p b n o d x own s) := by
  unfold offerPartner
  split
  · exact (concludeRefuse_held _ _ _ _ _ _ s).trans (dropBroken_held _ _)
  · split
    · exact concludeOwn_held _ _ _ _ _ s
    · exact (countHeld_held _ s).trans (admitPartner_held _ _ _ _ _)

theorem concludeAfterHeld_held (p : Port) (b : BufId) (n : Nat) (o : Option Particulars) (d : Described)
    (v own : RejudgeVerdict) (s : State) : SameButHeld s (concludeAfterHeld p b n o d v own s) := by
  unfold concludeAfterHeld
  split
  · exact offerPartner_held _ _ _ _ _ _ _ s
  · exact .refl s
  · exact (concludeRefuse_held _ _ _ _ _ _ s).trans (dropBroken_held _ _)

theorem concludeTelegram_held (p : Port) (b : BufId) (r : JudgedAs) (k : Bank) (x : LookupStop)
    (s : State) : SameButHeld s (concludeTelegram p b r k x s) := by
  unfold concludeTelegram
  simp only
  split
  · exact concludeOwn_held _ _ _ _ _ s
  · exact concludeOwn_held _ _ _ _ _ s
  · exact concludeAfterPassed_held _ _ _ _ _ _ s
  · exact concludeAfterHeld_held _ _ _ _ _ _ _ s

theorem concludeRejudge_held (p : Port) (n : Nat) (k : Bank) (x : LookupStop) (s : State) :
    SameButHeld s (concludeRejudge p n k x s) := by
  unfold concludeRejudge
  split
  · exact setHold_held _ s
  · split
    · exact setHold_held _ s
    · have h : ∀ v, SameButHeld s (rejudgeConsume v s) := by
        intro v
        unfold rejudgeConsume
        split
        · exact consume_held _ _ s
        · exact .refl s
        · exact .refl s
      simp only
      split
      · exact (h _).trans (setHold_held _ _)
      · exact ((h _).trans (setHold_held _ _)).trans (carryVerdict_held _ _ _ _)

theorem concludeItem_held (p : Port) (it : Item) (k : Bank) (x : LookupStop) (s : State) :
    SameButHeld s (concludeItem p it k x s) := by
  unfold concludeItem
  split
  · exact concludeTelegram_held _ _ _ _ _ s
  · exact concludeRejudge_held _ _ _ _ s

theorem endBinding_held (p : Port) (c : BindContext) (s : State) : SameButHeld s (endBinding p c s) := by
  unfold endBinding
  simp only
  split
  · exact (mapJudge_held _ _ s).trans (dropBroken_held _ _)
  · exact (mapJudge_held _ _ s).trans (handOver_out _ _).held
  · exact mapJudge_held _ _ s
  · exact mapJudge_held _ _ s

theorem bindDeadlineAt_held (p : Port) (s : State) : SameButHeld s (bindDeadlineAt p s) := by
  unfold bindDeadlineAt
  split
  · exact .refl s
  · split
    · split
      · exact mapJudge_held _ _ s
      · exact endBinding_held _ _ s
    · exact .refl s

theorem setPhase_held (p : Port) (x : JudgePhase) (s : State) : SameButHeld s (setPhase p x s) :=
  mapJudge_held p _ s

theorem setBind_held (p : Port) (x : Option BindContext) (s : State) : SameButHeld s (setBind p x s) :=
  mapJudge_held p _ s

theorem awaitPort_held (p : Port) (b : BufId) (r : JudgedAs) (s : State) :
    SameButHeld s (awaitPort p b r s) := setPhase_held p _ s

theorem bindTest_held (p : Port) (b : BufId) (s : State) : SameButHeld s (bindTest p b s) := by
  have h1 : ∀ t : State, SameButHeld t (bindFirst p b t) := by
    intro t
    unfold bindFirst
    split
    · exact (setBind_held _ _ t).trans (awaitPort_held _ _ _ _)
    · exact awaitPort_held _ _ _ t
  have h2 : ∀ c, SameButHeld s (bindSecond p b c s) := by
    intro c
    unfold bindSecond
    simp only
    split
    · exact (setBind_held _ _ s).trans (awaitPort_held _ _ _ _)
    · exact (setBind_held _ _ s).trans (awaitPort_held _ _ _ _)
    · exact (setBind_held _ _ s).trans (refuseTelegram_held _ _ _ _ _ _)
    · exact (setBind_held _ _ s).trans (awaitPort_held _ _ _ _)
  unfold bindTest
  split
  · exact h1 s
  · split
    · exact h2 _
    · exact (endBinding_held _ _ s).trans (h1 _)

end Sys2Proof.Machine
end

