-- ==== Sys2Proof/Laws/Abandoned.lean ====
section
/-! SUPPORT. What a read of a row finds, as ReadsAs says it (R119, R121), and the table after an access that a reset
abandons (R118, R128, log 13). -/

namespace Sys2Proof.Machine

/-! ### A read of a row -/

theorem rowErrors_any (r : StoredRow) (p : Nat → Bool) :
    (rowErrors r).any p = true ↔ ∃ w, p (wordErrors r w) = true := by
  simp [rowErrors]

theorem readRow_of_clean {r : StoredRow} (draws : Nat) (h : r.changed = []) :
    readRow r draws = (.clean r.entry, draws) := by
  have e (w : Fin 6) : wordErrors r w = 0 := by simp [wordErrors, h]
  simp [readRow, rowErrors, e]

theorem readRow_of_correctable {r : StoredRow} (draws : Nat) (most : ∀ w, wordErrors r w ≤ 1)
    (one : ∃ w, wordErrors r w = 1) : readRow r draws = (.correctable r.entry, draws) := by
  have none (p : Nat → Bool) (hp : p 0 = false ∧ p 1 = false) : (rowErrors r).any p = false := by
    rw [Bool.eq_false_iff, ne_eq, rowErrors_any]
    rintro ⟨w, hw⟩
    have := most w
    obtain h | h : wordErrors r w = 0 ∨ wordErrors r w = 1 := by omega
    all_goals simp [h, hp] at hw
  unfold readRow
  rw [none (· == 2) ⟨rfl, rfl⟩, none (3 ≤ ·) ⟨rfl, rfl⟩,
    (rowErrors_any r (· == 1)).2 (one.imp fun w hw => by simp [hw])]
  rfl

theorem readRow_of_uncorrectable {r : StoredRow} (draws : Nat) (h : ∃ w, wordErrors r w = 2) :
    readRow r draws = (.uncorrectable, draws) := by
  unfold readRow
  rw [(rowErrors_any r (· == 2)).2 (h.imp fun w hw => by simp [hw])]
  rfl

/-- What a read's outcome gives: the entry, or none of an uncorrectable row. -/
def RowRead.entry? : RowRead → Option StreamEntry
  | .clean e => some e
  | .correctable e => some e
  | .uncorrectable => none

theorem readsAs_of_poisoned {b : Bank} {i : Index} {s : State} (h : s.store.poisoned b i = true) :
    ReadsAs b i s none := by
  refine ⟨fun x => ?_, fun _ => rfl⟩
  rcases x with x | x <;> exact absurd (x.1.symm.trans h) (by decide)

theorem readsAs_of_read {b : Bank} {i : Index} {s : State} {draws : Nat} (h : s.store.poisoned b i = false) :
    ReadsAs b i s (readRow (s.store.row b i) draws).1.entry? := by
  refine ⟨?_, ?_⟩
  · rintro (x | x)
    · rw [readRow_of_clean draws x.2]
      rfl
    · rw [readRow_of_correctable draws x.2.1 x.2.2]
      rfl
  · rintro (x | x)
    · exact absurd (x.symm.trans h) (by decide)
    · rw [readRow_of_uncorrectable draws x.2]
      rfl

/-! ### The table after an access -/

/-- Two states agree on the rows, the Poison Set and the parameter records. -/
def SameTable (s t : State) : Prop :=
  t.store.rows = s.store.rows ∧ t.store.poison = s.store.poison ∧ t.policer.params = s.policer.params

theorem TableLeft.of_same {s t u : State} (h : TableLeft s t) (e : SameTable t u) : TableLeft s u := by
  obtain ⟨x, hx, h1, h2, h3⟩ := h
  exact ⟨x, hx, e.1.trans h1, e.2.1.trans h2, e.2.2.trans h3⟩

theorem SameTable.refl (s : State) : SameTable s s := ⟨rfl, rfl, rfl⟩

theorem SameTable.trans {s t u : State} (h : SameTable s t) (k : SameTable t u) : SameTable s u :=
  ⟨k.1.trans h.1, k.2.1.trans h.2.1, k.2.2.trans h.2.2⟩

theorem tell_same (f : Flag) (s : State) : SameTable s (tell f s) := by
  have h := tell_out f s
  exact ⟨congrArg (·.rows) h.store, congrArg (·.poison) h.store, congrArg (·.params) h.policer⟩

theorem joinPoison_same (b : Bank) (i : Index) (s : State) : SameTable (Poisoned b i s) (joinPoison b i s) := by
  unfold joinPoison reportPoison
  dsimp only
  split <;> exact ⟨rfl, rfl, rfl⟩

theorem readRowOf_fst (b : Bank) (i : Index) (s : State) : ReadsAs b i s (readRowOf b i s).1 := by
  unfold readRowOf
  by_cases h : s.store.poisoned b i = true
  · rw [if_pos h]
    exact readsAs_of_poisoned h
  · rw [if_neg h]
    have r := readsAs_of_read (draws := s.draws) (by simpa using h)
    revert r
    cases readRow (s.store.row b i) s.draws with
    | mk x d => cases x <;> exact id

theorem readRowOf_same (b : Bank) (i : Index) (s : State) :
    SameTable (match (readRowOf b i s).1 with
      | some _ => s
      | none => JoinedAt b i s) (readRowOf b i s).2 := by
  unfold readRowOf JoinedAt
  by_cases h : s.store.poisoned b i = true
  · simp only [h, if_true]
    exact .refl s
  · simp only [h]
    cases readRow (s.store.row b i) s.draws with
    | mk x d =>
      cases x with
      | clean _ => exact .refl s
      | correctable _ => exact .refl s
      | uncorrectable => exact (joinPoison_same b i (s.setDraws d)).trans (tell_same _ _)

/-! ### The access that a reset abandons (R118, R128, log 13) -/

theorem ReadsAs.draws {b : Bank} {i : Index} {s : State} {e : Option StreamEntry} (d : Nat)
    (h : ReadsAs b i (s.setDraws d) e) : ReadsAs b i s e := h

theorem joinedAt_setDraws (b : Bank) (i : Index) (s : State) (d : Nat) :
    JoinedAt b i (s.setDraws d) = (JoinedAt b i s).setDraws d := by
  by_cases h : s.store.poisoned b i = true
  · rw [JoinedAt, JoinedAt, if_pos h, if_pos (show (s.setDraws d).store.poisoned b i = true from h)]
  · rw [JoinedAt, JoinedAt, if_neg h, if_neg (show ¬(s.setDraws d).store.poisoned b i = true from h)]
    rfl

/-- The place of a scrub step is the first from the walk pointer on that is not poisoned (R132). -/
theorem scrubPlace_some {s : State} {n : Fin 512} (hp : s.store.port = .scrub) (h : scrubPlace s.store = some n) :
    ScrubsRow (placePair n).1 (placePair n).2 s := by
  unfold scrubPlace at h
  rw [List.find?_map, Option.map_eq_some_iff] at h
  obtain ⟨k, hk, rfl⟩ := h
  rw [List.find?_eq_some_iff_append] at hk
  obtain ⟨here, before, after, he, hb⟩ := hk
  refine ⟨hp, by simpa using here, k, rfl, fun j hj => ?_⟩
  have hm : j ∈ before ++ k :: after := he ▸ List.mem_finRange j
  have hs : (before ++ k :: after).Pairwise (· < ·) := he ▸ List.pairwise_lt_finRange 512
  rw [List.pairwise_append] at hs
  rw [List.mem_append, List.mem_cons] at hm
  rcases hm with hm | rfl | hm
  · simpa using hb j hm
  · exact absurd hj (lt_irrefl _)
  · exact absurd ((List.pairwise_cons.1 hs.2.1).1 j hm) (not_lt_of_gt hj)

/-- What a read whose outcome stands leaves: a pair found uncorrectable has joined the Poison Set. -/
theorem abandonedRead_tableLeft {b : Bank} {i : Index} {s : State} (d : Nat)
    (h : ScrubsRow b i s ∨ AgentReadsRow b i s) : TableLeft s (readRowOf b i (s.setDraws d)).2 := by
  have r := readRowOf_fst b i (s.setDraws d)
  have k := readRowOf_same b i (s.setDraws d)
  cases e : (readRowOf b i (s.setDraws d)).1 with
  | some x =>
    rw [e] at k
    exact ⟨s, .inl rfl, k⟩
  | none =>
    rw [e] at k r
    refine ⟨JoinedAt b i s, .inr (.inr (.inl ⟨b, i, h, r.draws, rfl⟩)), ?_⟩
    rw [joinedAt_setDraws] at k
    exact SameTable.trans (t := (JoinedAt b i s).setDraws d) ⟨rfl, rfl, rfl⟩ k

/-- What a scrub step's read and write-back leave. -/
theorem abandonedScrub_tableLeft {n : Fin 512} {s : State} (d : Nat) (hp : s.store.port = .scrub)
    (h : scrubPlace s.store = some n) : TableLeft s (scrubRead n (s.setDraws d)) := by
  have hs := scrubPlace_some hp h
  have r := readsAs_of_read (draws := d) hs.2.1
  unfold scrubRead
  simp only [State.setDraws_store, State.setDraws_draws]
  revert r
  cases readRow (s.store.row (placePair n).1 (placePair n).2) d with
  | mk x d' =>
    cases x with
    | clean e => exact fun _ => ⟨s, .inl rfl, rfl, rfl, rfl⟩
    | correctable e => exact fun r => ⟨_, .inr (.inl ⟨_, _, e, hs, r, rfl⟩), rfl, rfl, rfl⟩
    | uncorrectable =>
      intro r
      refine ⟨_, .inr (.inr (.inl ⟨_, _, .inl hs, r, rfl⟩)), ?_⟩
      have k := (joinPoison_same (placePair n).1 (placePair n).2 ((s.setDraws d).setDraws d')).trans
        (tell_same .tableFault _)
      rw [JoinedAt, if_neg (by simp [hs.2.1])]
      exact SameTable.trans (t := Poisoned _ _ ((s.setDraws d).setDraws d')) ⟨rfl, rfl, rfl⟩ k

theorem rowWritten_same {b : Bank} {i : Index} {e : StreamEntry} {r : ParamRecord} {s t : State} (h : SameTable s t) :
    SameTable (RowWritten b i e r s) (RowWritten b i e r t) := by
  obtain ⟨h1, h2, h3⟩ := h
  refine ⟨?_, ?_, ?_⟩ <;> simp only [RowWritten, h1, h2, h3]

/-- A pair that joins the Poison Set keeps its ceiling and amount (R86). -/
theorem joinedAt_param (b : Bank) (i : Index) (s : State) :
    ({ (JoinedAt b i s).param b i with usable := false } : ParamRecord) = { s.param b i with usable := false } := by
  unfold JoinedAt
  split
  · rfl
  · cases b <;> simp [Poisoned, State.param, PerBank.get, PerBank.set]

theorem writeUnusable_same (a : Bank) (i : Index) (e : StreamEntry) (s : State) :
    SameTable (RowWritten (otherBank a) i e { s.param (otherBank a) i with usable := false } s)
      (writeUnusable a i e s) := ⟨rfl, rfl, rfl⟩

/-- What the row write of INVALIDATE_ENTRY leaves (R139). -/
theorem invalidateAccess_same (a : Bank) (i : Index) (s : State) :
    ∃ e, ReadsAs (otherBank a) i s e ∧
      SameTable (RowWritten (otherBank a) i (match e with
          | some e => { e with valid := false }
          | none => blankEntry) { s.param (otherBank a) i with usable := false } s) (invalidateAccess a i s).2 := by
  unfold invalidateAccess
  by_cases h : s.store.poisoned (otherBank a) i = true
  · rw [if_pos h]
    exact ⟨none, readsAs_of_poisoned h, writeUnusable_same _ _ _ _⟩
  · rw [if_neg h]
    have r := readsAs_of_read (draws := s.draws) (by simpa using h)
    revert r
    cases readRow (s.store.row (otherBank a) i) s.draws with
    | mk x d => cases x <;> exact fun r => ⟨_, r, rfl, rfl, rfl⟩

/-- What the row write of COPY_ACTIVE_TO_SHADOW leaves, with the join that its read found (R141). -/
theorem copyAccess_same (a : Bank) (i : Index) (s : State) :
    ∃ e, ReadsAs a i s e ∧ SameTable (match e with
      | some e => RowWritten (otherBank a) i e (s.param a i) s
      | none => RowWritten (otherBank a) i blankEntry { s.param a i with usable := false } (JoinedAt a i s))
      (copyAccess a i s).2 := by
  refine ⟨(readRowOf a i s).1, readRowOf_fst a i s, ?_⟩
  have k := readRowOf_same a i s
  unfold copyAccess
  revert k
  cases readRowOf a i s with
  | mk x u =>
    cases x with
    | some x =>
      intro k
      rw [show s.param a i = u.param a i by rw [State.param, State.param, k.2.2]]
      exact rowWritten_same k
    | none =>
      intro k
      have e : ({ s.param a i with usable := false } : ParamRecord) = { u.param a i with usable := false } := by
        rw [← joinedAt_param a i s, State.param, State.param, k.2.2]
      rw [e]
      exact rowWritten_same k

/-- What an access abandoned at a reset leaves (log 13). -/
theorem abandonAccess_tableLeft (s : State) : TableLeft s (abandonAccess s) := by
  have same {t : State} (h : SameTable s t) : TableLeft s t := ⟨s, .inl rfl, h⟩
  have free : SameTable s (s.setDraws (s.draws + 2)) := ⟨rfl, rfl, rfl⟩
  unfold abandonAccess
  dsimp only
  split
  · rename_i active hp
    split
    · rename_i x hx
      unfold abandonedEffect
      have reading {b i} (h : AgentReadsRow b i s) := abandonedRead_tableLeft (s.draws + 2) (.inr h)
      cases hj : x.job with
      | readEntry role i =>
        dsimp only
        split
        · exact reading ⟨active, x, hp, hx, .inl ⟨role, hj, rfl⟩⟩
        · exact same ⟨rfl, rfl, rfl⟩
      | readStream i more results =>
        dsimp only
        split
        · exact reading ⟨active, x, hp, hx, .inr (.inl ⟨more, results, hj, rfl⟩)⟩
        · exact same ⟨rfl, rfl, rfl⟩
      | probe d => exact same ⟨rfl, rfl, rfl⟩
      | writeEntry i e => exact same ⟨rfl, rfl, rfl⟩
      | invalidate i =>
        dsimp only
        split
        · obtain ⟨e, he, k⟩ := invalidateAccess_same active i (s.setDraws (s.draws + 2))
          refine ⟨_, .inr (.inr (.inr ⟨active, x, i, hp, hx, ?_⟩)), (rowWritten_same free).trans k⟩
          rintro kept rfl
          exact .inr (.inl ⟨e, hj, he.draws, rfl⟩)
        · exact same ⟨rfl, rfl, rfl⟩
      | copy i n =>
        dsimp only
        split
        · obtain ⟨e, he, k⟩ := copyAccess_same active i (s.setDraws (s.draws + 2))
          cases e with
          | some e =>
            refine ⟨_, .inr (.inr (.inr ⟨active, x, i, hp, hx, ?_⟩)), (rowWritten_same free).trans k⟩
            rintro kept rfl
            exact .inr (.inr ⟨n, some e, hj, he.draws, rfl⟩)
          | none =>
            rw [joinedAt_setDraws] at k
            refine ⟨_, .inr (.inr (.inr ⟨active, x, i, hp, hx, ?_⟩)),
              (rowWritten_same (s := JoinedAt active i s) (t := (JoinedAt active i s).setDraws (s.draws + 2))
                ⟨rfl, rfl, rfl⟩).trans k⟩
            rintro kept rfl
            exact .inr (.inr ⟨n, none, hj, he.draws, rfl⟩)
        · split
          · exact reading ⟨active, x, hp, hx, .inr (.inr ⟨n, hj, rfl⟩)⟩
          · exact same ⟨rfl, rfl, rfl⟩
      | clear i =>
        dsimp only
        split
        · refine ⟨_, .inr (.inr (.inr ⟨active, x, i, hp, hx, ?_⟩)), (rowWritten_same free).trans
            (writeUnusable_same active i blankEntry (s.setDraws (s.draws + 2)))⟩
          rintro kept rfl
          exact .inl ⟨hj, rfl⟩
        · exact same ⟨rfl, rfl, rfl⟩
    · exact same (.refl s)
  · rename_i hp
    split
    · rename_i n hn
      split
      · exact abandonedScrub_tableLeft _ hp hn
      · exact same ⟨rfl, rfl, rfl⟩
    · exact same (.refl s)
  all_goals exact same (.refl s)

end Sys2Proof.Machine
end

