-- ==== Sys2Proof/Laws/Line.lean ====
section
/-! SUPPORT. A reception as a run: what a run of bytes does to a unit in FILLING, and what the telegram of a
command reads as. -/

namespace Sys2Proof.Machine

/-! ### A run of bytes that does not end the reception -/

/-- None of the bytes is the last by the framed length. -/
def staysOpen (f : Framing) : List Byte → Bool
  | [] => true
  | b :: l => !(f.next b).ended && staysOpen (f.next b) l

theorem staysOpen_append (f : Framing) (l m : List Byte) :
    staysOpen f (l ++ m) = (staysOpen f l && staysOpen (l.foldl Framing.next f) m) := by
  induction l generalizing f with
  | nil => simp [staysOpen]
  | cons b l ih => simp [staysOpen, ih, Bool.and_assoc]

theorem take_framing (u : RxUnit) (b : Byte) : (u.take b).framing = u.framing.next b := rfl

theorem take_phase (u : RxUnit) (b : Byte) : (u.take b).phase = u.phase := rfl

theorem takes_framing (u : RxUnit) (l : List Byte) :
    (l.foldl RxUnit.take u).framing = l.foldl Framing.next u.framing := by
  induction l generalizing u with
  | nil => rfl
  | cons b l ih => simp [ih, take_framing]

theorem takes_phase (u : RxUnit) (l : List Byte) : (l.foldl RxUnit.take u).phase = u.phase := by
  induction l generalizing u with
  | nil => rfl
  | cons b l ih => simp [ih, take_phase]

/-- What a run of bytes leaves of the counters of a unit. -/
theorem takes_counts (u : RxUnit) (l : List Byte) :
    l.foldl RxUnit.take u = { u with
      sum := (l.foldl RxUnit.take u).sum
      tail := (l.foldl RxUnit.take u).tail
      framing := (l.foldl RxUnit.take u).framing } := by
  induction l generalizing u with
  | nil => rfl
  | cons b l ih => rw [List.foldl_cons, ih]; rfl

theorem stores_bytes (x : Buffer) (l : List Byte) (h : x.bytes.length + l.length ≤ 256) :
    l.foldl storeByte x = { x with bytes := x.bytes ++ l } := by
  induction l generalizing x with
  | nil => simp
  | cons b l ih =>
    have hb : storeByte x b = { x with bytes := x.bytes ++ [b] } := by
      unfold storeByte
      rw [if_pos]
      simp at h
      omega
    rw [List.foldl_cons, hb, ih]
    · simp
    · simp at h ⊢
      omega

/-- A reception with its buffer and its unit as given. -/
def inFilling (p : Port) (buf : BufId) (x : Buffer) (u : RxUnit) (s : State) : State :=
  (s.setBuffer buf x).mapRx p fun _ => u

theorem inFilling_rx (p : Port) (buf : BufId) (x : Buffer) (u : RxUnit) (s : State) :
    (inFilling p buf x u s).rx.get p = u := by simp [inFilling, State.mapRx]

theorem inFilling_buffer (p : Port) (buf : BufId) (x : Buffer) (u : RxUnit) (s : State) :
    (inFilling p buf x u s).buffer buf = x := by
  simp [inFilling, State.mapRx, State.setBuffer, State.buffer]

theorem inFilling_again (p : Port) (buf : BufId) (x y : Buffer) (u v : RxUnit) (s : State) :
    inFilling p buf y v (inFilling p buf x u s) = inFilling p buf y v s := by
  cases p <;> simp [inFilling, State.mapRx, State.setBuffer, State.setPool, State.setRx, PerPort.set]

/-- A byte in FILLING: it is stored and taken, and if it is the last the reception ends. -/
theorem fillByte_inFilling (p : Port) (buf : BufId) (b : Byte) (x : Buffer) (u : RxUnit) (s : State) :
    fillByte p buf b (inFilling p buf x u s) =
      if (u.framing.next b).ended = true then endReception p buf (inFilling p buf (storeByte x b) (u.take b) s)
      else inFilling p buf (storeByte x b) (u.take b) s := by
  have h : (((inFilling p buf x u s).setBuffer buf (storeByte ((inFilling p buf x u s).buffer buf) b)).mapRx p
      fun u => u.take b) = inFilling p buf (storeByte x b) (u.take b) s := by
    rw [inFilling_buffer]
    have := inFilling_again p buf x (storeByte x b) u (u.take b) s
    rw [← this]
    conv_rhs => rw [inFilling]
    simp only [State.mapRx]
    congr 2
    have e := inFilling_rx p buf x u s
    change (inFilling p buf x u s).rx.get p = u at e
    show (PerPort.get ((inFilling p buf x u s).setBuffer buf (storeByte x b)).rx p).take b = u.take b
    rw [show ((inFilling p buf x u s).setBuffer buf (storeByte x b)).rx = (inFilling p buf x u s).rx from rfl, e]
  unfold fillByte
  rw [h]
  simp only [inFilling_rx, take_framing]

/-- A run of bytes none of which is the last only fills. -/
theorem lineBytes_fill (p : Port) (buf : BufId) (l : List Byte) (x : Buffer) (u : RxUnit) (s : State)
    (hu : u.phase = .filling buf) (ho : staysOpen u.framing l = true) :
    lineBytes p l (inFilling p buf x u s) =
      inFilling p buf (l.foldl storeByte x) (l.foldl RxUnit.take u) s := by
  induction l generalizing x u with
  | nil => rfl
  | cons b l ih =>
    simp only [staysOpen, Bool.and_eq_true, Bool.not_eq_true'] at ho
    have h1 : lineByte p b (inFilling p buf x u s) = inFilling p buf (storeByte x b) (u.take b) s := by
      unfold lineByte
      rw [inFilling_rx, hu]
      show fillByte p buf b _ = _
      rw [fillByte_inFilling, ho.1]
      rfl
    have h2 : lineBytes p (b :: l) (inFilling p buf x u s) =
        lineBytes p l (lineByte p b (inFilling p buf x u s)) := rfl
    rw [h2, h1, ih _ _ (by rw [take_phase]; exact hu) (by rw [take_framing]; exact ho.2)]
    rfl

/-! ### The telegram of a command -/

/-- The telegram of a command up to its check word. -/
def commandBody (h : CmdHead) (own : Addr) (payload : List Byte) : List Byte :=
  0xD3#8 :: be16 own ++ be16 h.source
    ++ [0xF0#8 ||| (h.priv.setWidth 8 <<< 2), 0, h.seq, BitVec.ofNat 8 payload.length] ++ payload

theorem commandTelegram_body (h : CmdHead) (own : Addr) (payload : List Byte) :
    commandTelegram h own payload = commandBody h own payload ++ be16 (crc (commandBody h own payload)) := rfl

/-- A byte after the header, with no option left, only counts. -/
theorem next_plain (f : Framing) (b : Byte) (h9 : 9 ≤ f.received) (h0 : f.optionsLeft = 0) :
    f.next b = { f with received := f.received + 1 } := by
  unfold Framing.next
  rw [if_neg (by omega), if_neg (by omega), if_neg (by omega)]

theorem nexts_plain (f : Framing) (l : List Byte) (h9 : 9 ≤ f.received) (h0 : f.optionsLeft = 0) :
    l.foldl Framing.next f = { f with received := f.received + l.length } := by
  induction l generalizing f with
  | nil => rfl
  | cons b l ih =>
    have h9' : 9 ≤ ({ f with received := f.received + 1 } : Framing).received := Nat.le_succ_of_le h9
    rw [List.foldl_cons, next_plain f b h9 h0, ih _ h9' h0]
    simp only [List.length_cons, Framing.mk.injEq, and_true]
    omega

theorem ended_plain (f : Framing) (h9 : 9 ≤ f.received) (h0 : f.optionsLeft = 0) :
    f.ended = (f.received == f.expected) := by
  simp [Framing.ended, Framing.complete, h9, h0]

theorem open_plain (f : Framing) (l : List Byte) (h9 : 9 ≤ f.received) (h0 : f.optionsLeft = 0)
    (hl : f.received + l.length < f.expected) : staysOpen f l = true := by
  induction l generalizing f with
  | nil => rfl
  | cons b l ih =>
    simp only [List.length_cons] at hl
    have h9' : 9 ≤ ({ f with received := f.received + 1 } : Framing).received := Nat.le_succ_of_le h9
    simp only [staysOpen]
    rw [next_plain f b h9 h0, ended_plain _ h9' h0]
    simp only [Bool.and_eq_true, Bool.not_eq_true', beq_eq_false_iff_ne]
    exact ⟨by omega, ih _ h9' h0 (show f.received + 1 + l.length < f.expected by omega)⟩

/-- The eight header bytes after the start marker. -/
def commandHeader (h : CmdHead) (own : Addr) (n : Nat) : List Byte :=
  be16 own ++ be16 h.source ++ [0xF0#8 ||| (h.priv.setWidth 8 <<< 2), 0, h.seq, BitVec.ofNat 8 n]

theorem commandBody_cons (h : CmdHead) (own : Addr) (payload : List Byte) :
    commandBody h own payload = 0xD3#8 :: (commandHeader h own payload.length ++ payload) := by
  simp [commandBody, commandHeader]

theorem header_framing (h : CmdHead) (own : Addr) (n : Nat) (hn : n ≤ 200) :
    (commandHeader h own n).foldl Framing.next framingStart = ⟨9, 11 + n, 0, 10⟩ ∧
      staysOpen framingStart (commandHeader h own n) = true := by
  have e : n % 256 = n := by omega
  constructor <;>
    simp [commandHeader, be16, framingStart, Framing.next, staysOpen, Framing.ended, Framing.complete, e]
  omega

/-- The framing of a command telegram: it ends with its second check byte, at 11 bytes and the payload's. -/
theorem command_framing (h : CmdHead) (own : Addr) (payload : List Byte) (c1 c0 : Byte)
    (hn : payload.length ≤ 200) :
    staysOpen framingStart (commandHeader h own payload.length ++ payload ++ [c1]) = true ∧
      (commandHeader h own payload.length ++ payload).foldl Framing.next framingStart =
        ⟨9 + payload.length, 11 + payload.length, 0, 10⟩ ∧
      (commandHeader h own payload.length ++ payload ++ [c1, c0]).foldl Framing.next framingStart =
        ⟨11 + payload.length, 11 + payload.length, 0, 10⟩ := by
  obtain ⟨h1, h2⟩ := header_framing h own payload.length hn
  refine ⟨?_, ?_, ?_⟩
  · rw [List.append_assoc, staysOpen_append, h2, h1, open_plain _ _ (Nat.le_refl 9) rfl (by simp; omega)]
    rfl
  · rw [List.foldl_append, h1, nexts_plain _ _ (Nat.le_refl 9) rfl]
  · rw [List.append_assoc, List.foldl_append, h1, nexts_plain _ _ (Nat.le_refl 9) rfl]
    simp only [List.length_append, List.length_cons, List.length_nil, Framing.mk.injEq, and_true]
    omega

/-! ### The check word of a run -/

/-- None of the bytes is of the check word. -/
def beforeCheck (f : Framing) : List Byte → Bool
  | [] => true
  | b :: l => !(f.next b).inCheckWord && beforeCheck (f.next b) l

theorem beforeCheck_append (f : Framing) (l m : List Byte) :
    beforeCheck f (l ++ m) = (beforeCheck f l && beforeCheck (l.foldl Framing.next f) m) := by
  induction l generalizing f with
  | nil => simp [beforeCheck]
  | cons b l ih => simp [beforeCheck, ih, Bool.and_assoc]

theorem takes_sum (u : RxUnit) (l : List Byte) (h : beforeCheck u.framing l = true) :
    (l.foldl RxUnit.take u).sum = l.foldl crcByte u.sum := by
  induction l generalizing u with
  | nil => rfl
  | cons b l ih =>
    simp only [beforeCheck, Bool.and_eq_true, Bool.not_eq_true'] at h
    rw [List.foldl_cons, ih _ h.2, List.foldl_cons]
    simp only [RxUnit.take, h.1]
    rfl

theorem beforeCheck_plain (f : Framing) (l : List Byte) (h9 : 9 ≤ f.received) (h0 : f.optionsLeft = 0)
    (hl : f.received + l.length + 2 ≤ f.expected) : beforeCheck f l = true := by
  induction l generalizing f with
  | nil => rfl
  | cons b l ih =>
    simp only [List.length_cons] at hl
    have h9' : 9 ≤ ({ f with received := f.received + 1 } : Framing).received := Nat.le_succ_of_le h9
    simp only [beforeCheck]
    rw [next_plain f b h9 h0, ih _ h9' h0 (show f.received + 1 + l.length + 2 ≤ f.expected by omega)]
    simp only [Framing.inCheckWord, Bool.and_true, Bool.not_eq_true', Bool.and_eq_false_iff,
      decide_eq_false_iff_not]
    exact .inr (by omega)

theorem command_beforeCheck (h : CmdHead) (own : Addr) (payload : List Byte) (hn : payload.length ≤ 200) :
    beforeCheck framingStart (commandHeader h own payload.length ++ payload) = true := by
  have e : payload.length % 256 = payload.length := by omega
  have h1 : beforeCheck framingStart (commandHeader h own payload.length) = true := by
    simp [commandHeader, be16, framingStart, Framing.next, beforeCheck, Framing.inCheckWord,
      Framing.complete, e]
  rw [beforeCheck_append, h1, (header_framing h own payload.length hn).1,
    beforeCheck_plain _ _ (Nat.le_refl 9) rfl (by simp; omega)]
  rfl

/-- The last two bytes of a reception, taken one after the other, are the value they carry. -/
theorem tail_of_be16 (t x : BitVec 16) :
    ((t <<< 8 ||| (x.extractLsb' 8 8).setWidth 16) <<< 8) ||| (x.extractLsb' 0 8).setWidth 16 = x := by
  apply BitVec.eq_of_getLsbD_eq
  intro i hi
  interval_cases i <;> simp

/-- The unit right after the start marker of a reception (R6). -/
def startUnit (buf : BufId) (u : RxUnit) : RxUnit :=
  { u with phase := .filling buf, sum := crcByte 0xFFFF#16 0xD3#8, tail := 0, framing := framingStart }

theorem startUnit_sum (buf : BufId) (u : RxUnit) : (startUnit buf u).sum = crcByte 0xFFFF#16 0xD3#8 := by
  simp only [startUnit]

theorem startUnit_framing (buf : BufId) (u : RxUnit) : (startUnit buf u).framing = framingStart := by
  simp only [startUnit]

theorem crc_cons (b : Byte) (l : List Byte) : crc (b :: l) = l.foldl crcByte (crcByte 0xFFFF#16 b) := by
  simp only [crc, List.foldl_cons]

/-- The bytes of a command telegram after its start marker. -/
theorem commandTelegram_cons (h : CmdHead) (own : Addr) (payload : List Byte) :
    commandTelegram h own payload = 0xD3#8 :: (commandHeader h own payload.length ++ payload ++
      [(crc (commandBody h own payload)).extractLsb' 8 8, (crc (commandBody h own payload)).extractLsb' 0 8]) := by
  rw [commandTelegram_body]
  generalize crc (commandBody h own payload) = x
  rw [commandBody_cons, be16]
  simp only [List.cons_append]

/-- A byte of the check word: the sum stays. -/
theorem take_check (u : RxUnit) (b : Byte) (h9 : 9 ≤ u.framing.received) (h0 : u.framing.optionsLeft = 0)
    (hl : u.framing.expected < u.framing.received + 3) :
    u.take b = { u with
      framing := { u.framing with received := u.framing.received + 1 }
      tail := u.tail <<< 8 ||| b.setWidth 16 } := by
  have hc : ({ u.framing with received := u.framing.received + 1 } : Framing).inCheckWord = true := by
    simp only [Framing.inCheckWord, Framing.complete, h0, Bool.and_eq_true, decide_eq_true_eq, beq_self_eq_true]
    exact ⟨⟨Nat.le_succ_of_le h9, trivial⟩, by omega⟩
  unfold RxUnit.take
  simp only [next_plain u.framing b h9 h0, hc, if_true]

/-- The unit at the end of a whole command telegram: its check word is the sum, its framing is complete. -/
theorem command_unit (h : CmdHead) (own : Addr) (payload : List Byte) (buf : BufId) (u : RxUnit)
    (hn : payload.length ≤ 200) :
    ∀ v, v = (commandHeader h own payload.length ++ payload ++
      [(crc (commandBody h own payload)).extractLsb' 8 8,
        (crc (commandBody h own payload)).extractLsb' 0 8]).foldl RxUnit.take (startUnit buf u) →
      v.sum = v.tail ∧ v.framing = ⟨11 + payload.length, 11 + payload.length, 0, 10⟩ := by
  intro v hv
  have hs := takes_sum (startUnit buf u) (commandHeader h own payload.length ++ payload)
    (by rw [startUnit_framing]; exact command_beforeCheck h own payload hn)
  have hF : ((commandHeader h own payload.length ++ payload).foldl RxUnit.take (startUnit buf u)).framing =
      ⟨9 + payload.length, 11 + payload.length, 0, 10⟩ := by
    rw [takes_framing, startUnit_framing]
    exact (command_framing h own payload 0 0 hn).2.1
  rw [startUnit_sum, ← crc_cons, ← commandBody_cons] at hs
  rw [List.foldl_append] at hv
  generalize (commandHeader h own payload.length ++ payload).foldl RxUnit.take (startUnit buf u) = w at *
  generalize crc (commandBody h own payload) = x at *
  have h1 := take_check w (x.extractLsb' 8 8) (by rw [hF]; dsimp only; omega) (by rw [hF])
    (by rw [hF]; dsimp only; omega)
  have h2 := take_check (w.take (x.extractLsb' 8 8)) (x.extractLsb' 0 8) (by rw [h1, hF]; dsimp only; omega)
    (by rw [h1, hF]) (by rw [h1, hF]; dsimp only; omega)
  have hv' : v = (w.take (x.extractLsb' 8 8)).take (x.extractLsb' 0 8) := hv
  rw [hv', h2, h1, hF]
  refine ⟨?_, ?_⟩
  · rw [hs]
    exact (tail_of_be16 _ _).symm
  · simp only [Framing.mk.injEq, and_true]
    omega

/-! ### What the telegram of a command reads as -/

theorem half_be16 (x : BitVec 16) : x.extractLsb' 8 8 ++ x.extractLsb' 0 8 = x := by
  apply BitVec.eq_of_getLsbD_eq
  intro i hi
  simp only [BitVec.getLsbD_append, BitVec.getLsbD_extractLsb']
  interval_cases i <;> simp

theorem command_length (h : CmdHead) (own : Addr) (payload : List Byte) :
    (commandTelegram h own payload).length = payload.length + 11 := by
  rw [commandTelegram_cons]
  simp [commandHeader, be16]

theorem command_dest (h : CmdHead) (own : Addr) (payload : List Byte) :
    destOf (commandTelegram h own payload) = own := by
  rw [commandTelegram_cons]
  exact half_be16 own

theorem command_source (h : CmdHead) (own : Addr) (payload : List Byte) :
    sourceOf (commandTelegram h own payload) = h.source := by
  rw [commandTelegram_cons]
  exact half_be16 h.source

theorem command_byte5 (h : CmdHead) (own : Addr) (payload : List Byte) :
    byteAt (commandTelegram h own payload) 5 = 0xF0#8 ||| (h.priv.setWidth 8 <<< 2) := by
  rw [commandTelegram_cons]
  rfl

theorem command_byte6 (h : CmdHead) (own : Addr) (payload : List Byte) :
    byteAt (commandTelegram h own payload) 6 = 0 := by
  rw [commandTelegram_cons]
  rfl

theorem command_seq (h : CmdHead) (own : Addr) (payload : List Byte) :
    seqOf (commandTelegram h own payload) = h.seq := by
  rw [commandTelegram_cons]
  rfl

theorem command_class (h : CmdHead) (own : Addr) (payload : List Byte) :
    classOf (commandTelegram h own payload) = 15 := by
  unfold classOf
  rw [command_byte5]
  generalize h.priv = x
  revert x
  decide

theorem command_priv (h : CmdHead) (own : Addr) (payload : List Byte) :
    privOf (commandTelegram h own payload) = h.priv := by
  unfold privOf
  rw [command_byte5]
  generalize h.priv = x
  revert x
  decide

theorem command_unbound (h : CmdHead) (own : Addr) (payload : List Byte) :
    boundOf (commandTelegram h own payload) = false := by
  unfold boundOf
  rw [command_byte5]
  generalize h.priv = x
  revert x
  decide

theorem command_options (h : CmdHead) (own : Addr) (payload : List Byte) :
    optionsOf (commandTelegram h own payload) = [] := by
  have h0 : optionCountOf (commandTelegram h own payload) = 0 := by
    unfold optionCountOf
    rw [command_byte6]
    rfl
  unfold optionsOf
  rw [h0]
  rfl

theorem command_payloadLength (h : CmdHead) (own : Addr) (payload : List Byte) (hn : payload.length ≤ 200) :
    payloadLengthOf (commandTelegram h own payload) = payload.length := by
  have h8 : byteAt (commandTelegram h own payload) 8 = BitVec.ofNat 8 payload.length := by
    rw [commandTelegram_cons]
    rfl
  unfold payloadLengthOf
  rw [h8, BitVec.toNat_ofNat]
  omega

theorem command_payload (h : CmdHead) (own : Addr) (payload : List Byte) (hn : payload.length ≤ 200) :
    payloadOf (commandTelegram h own payload) = payload := by
  unfold payloadOf payloadPlace
  rw [command_options, command_payloadLength h own payload hn, commandTelegram_cons]
  simp [commandHeader, be16]

/-- A command telegram has no form error (R9, R179). -/
theorem command_formed (h : CmdHead) (own : Addr) (payload : List Byte) (hn : payload.length ≤ 200)
    (hs : h.source ≠ 0xFFFF) : formError (commandTelegram h own payload) (11 + payload.length) = false := by
  have h5 : (byteAt (commandTelegram h own payload) 5).getLsbD 0 = false := by
    rw [command_byte5]
    generalize h.priv = x
    revert x
    decide
  have h6 : optionCountOf (commandTelegram h own payload) = 0 := by
    unfold optionCountOf
    rw [command_byte6]
    rfl
  unfold formError
  rw [command_options, command_payloadLength h own payload hn, h5, command_byte6, h6, command_source]
  have hs' : (h.source == 0xFFFF) = false := by simpa using hs
  have h227 : ¬227 < 11 + payload.length := by omega
  have h200 : ¬200 < payload.length := by omega
  simp only [hs', h227, h200, List.any_nil]
  decide

end Sys2Proof.Machine
end

