-- ==== Sys2Proof/Laws/Settle.lean ====
section
/-! SUPPORT. When nothing follows at once (log 14), and what keeps it so; what a conclusion writes into the context it
opened. -/

namespace Sys2Proof.Machine

theorem orElse_isNone {α : Type} (a b : Option α) : (a <|> b).isNone = (a.isNone && b.isNone) := by
  cases a <;> rfl

/-- A state is settled exactly when none of the eleven consequences is there. -/
theorem settled_iff (s : State) : Settled s ↔
    grant s = none ∧ (endReached .n s = none ∧ endReached .f s = none) ∧
      (placeRequest .n s = none ∧ placeRequest .f s = none) ∧
      (takeSlot .n s = none ∧ takeSlot .f s = none) ∧ beginCommand s = none ∧
      (takeArrival .n s = none ∧ takeArrival .f s = none) ∧ openPort s = none := by
  simp only [Settled, consequence, orElse_isNone, Bool.and_eq_true, Option.isNone_iff_eq_none]
  tauto

theorem Settled.grant {s : State} (h : Settled s) : grant s = none := ((settled_iff s).1 h).1

theorem Settled.endReached {s : State} (h : Settled s) (p : Port) : endReached p s = none := by
  have := ((settled_iff s).1 h).2.1
  cases p
  · exact this.1
  · exact this.2

theorem Settled.placeRequest {s : State} (h : Settled s) (p : Port) : placeRequest p s = none := by
  have := ((settled_iff s).1 h).2.2.1
  cases p
  · exact this.1
  · exact this.2

theorem Settled.takeSlot {s : State} (h : Settled s) (p : Port) : takeSlot p s = none := by
  have := ((settled_iff s).1 h).2.2.2.1
  cases p
  · exact this.1
  · exact this.2

theorem Settled.beginCommand {s : State} (h : Settled s) : beginCommand s = none :=
  ((settled_iff s).1 h).2.2.2.2.1

theorem Settled.takeArrival {s : State} (h : Settled s) (p : Port) : takeArrival p s = none := by
  have := ((settled_iff s).1 h).2.2.2.2.2.1
  cases p
  · exact this.1
  · exact this.2

theorem Settled.openPort {s : State} (h : Settled s) : openPort s = none :=
  ((settled_iff s).1 h).2.2.2.2.2.2

/-- A settled state stays as it is. -/
theorem settleFor_settled (n : Nat) {s : State} (h : Settled s) : settleFor n s = s := by
  cases n with
  | zero => rfl
  | succ n =>
    have : consequence s = none := by simpa [Settled] using h
    simp [settleFor, this]

theorem settle_settled {s : State} (h : Settled s) : settle s = s := settleFor_settled _ h

/-- One consequence taken. -/
theorem settleFor_succ (n : Nat) {s t : State} (h : consequence s = some t) :
    settleFor (n + 1) s = settleFor n t := by simp [settleFor, h]

/-! ### What the consequences read -/

theorem grant_none_congr {s t : State} (hs : t.store = s.store)
    (hj : ∀ p, (t.judges.get p).phase = (s.judges.get p).phase)
    (hu : t.agent.settings.urgentLevel = s.agent.settings.urgentLevel) (h : grant s = none) :
    grant t = none := by
  have ha : arbiterChoice t = arbiterChoice s := by
    have hw : ∀ p, t.judgeWaiting p = s.judgeWaiting p := by
      intro p
      unfold State.judgeWaiting
      rw [hj]
    simp only [arbiterChoice, waitingJudge, hw, hs, hu]
  unfold Sys2Proof.Machine.grant at h ⊢
  rw [hs, ha]
  split at h
  · rename_i h1 h2
    simp only [Option.map_eq_none_iff] at h
    simp [h]
  · rfl

theorem someWaiting_congr {s t : State} (p : Port) (d : Uptime) (hj : t.judges = s.judges)
    (hb : ∀ b ∈ judgePlaces (s.judges.get p), (t.buffer b).desc.uptime = (s.buffer b).desc.uptime) :
    someWaiting p d t = someWaiting p d s := by
  have ha : ∀ b ∈ judgePlaces (s.judges.get p), arrivedBy t d b = arrivedBy s d b := by
    intro b m
    simp only [arrivedBy, hb b m]
  unfold someWaiting
  rw [hj]
  have h1 : (s.judges.get p).arrivals.any (arrivedBy t d) = (s.judges.get p).arrivals.any (arrivedBy s d) := by
    rw [Bool.eq_iff_iff, List.any_eq_true, List.any_eq_true]
    constructor
    · rintro ⟨b, m, h⟩
      exact ⟨b, m, by rw [← ha b (List.mem_append_left _ m)]; exact h⟩
    · rintro ⟨b, m, h⟩
      exact ⟨b, m, by rw [ha b (List.mem_append_left _ m)]; exact h⟩
  rw [h1]
  congr 1
  cases hd : judgedBuffer (s.judges.get p).phase with
  | none => rfl
  | some b => exact ha b (List.mem_append_right _ (by simp [hd]))

theorem endReached_none_congr {s t : State} (p : Port) (hj : (t.judges.get p).bind = (s.judges.get p).bind)
    (hw : ∀ d, someWaiting p d s = true → someWaiting p d t = true)
    (h : endReached p s = none) : endReached p t = none := by
  unfold Sys2Proof.Machine.endReached at h ⊢
  rw [hj]
  split at h
  · rfl
  · rename_i c h1
    split at h
    · cases h
    · rename_i h2
      rw [if_neg]
      intro h3
      simp only [Bool.and_eq_true, Bool.not_eq_true'] at h2 h3
      cases hx : someWaiting p c.deadline s with
      | true => rw [hw _ hx] at h3; exact absurd h3.2 (by decide)
      | false => exact h2 ⟨h3.1, hx⟩

theorem placeRequest_none_congr {s t : State} (p : Port) (hr : t.hold.records = s.hold.records)
    (ho : t.hold.outstanding = s.hold.outstanding) (h : placeRequest p s = none) :
    placeRequest p t = none := by
  have hn : nextPending p t.hold = nextPending p s.hold := by simp only [nextPending, hr]
  unfold Sys2Proof.Machine.placeRequest at h ⊢
  rw [ho, hn]
  split at h
  · cases h
  · rfl

theorem takeSlot_none_congr {s t : State} (p : Port) (hj : (t.judges.get p).phase = (s.judges.get p).phase)
    (hs : (t.judges.get p).slot = (s.judges.get p).slot) (h : takeSlot p s = none) :
    takeSlot p t = none := by
  unfold Sys2Proof.Machine.takeSlot at h ⊢
  rw [hj, hs]
  split at h
  · simp only at h
    split at h <;> cases h
  · rfl

theorem takeArrival_none_congr {s t : State} (p : Port) (hj : t.judges.get p = s.judges.get p)
    (h : takeArrival p s = none) : takeArrival p t = none := by
  unfold Sys2Proof.Machine.takeArrival at h ⊢
  rw [hj]
  split at h
  · simp only at h
    split at h <;> cases h
  · rfl

theorem beginCommand_none_congr {s t : State} (he : t.agent.exec = s.agent.exec)
    (hi : t.agent.inbox = s.agent.inbox) (hp : t.store.phase = s.store.phase) (h : beginCommand s = none) :
    beginCommand t = none := by
  unfold Sys2Proof.Machine.beginCommand at h ⊢
  rw [he, hi, hp]
  split at h
  · cases h
  · rfl

theorem openPort_none_congr {s t : State} (hs : t.store = s.store) (h : openPort s = none) :
    openPort t = none := by
  unfold Sys2Proof.Machine.openPort at h ⊢
  rw [hs]
  split at h
  · cases h
  all_goals simp_all

/-- What is not read by any consequence may change: a settled state stays settled while the Table Store, the
Judges, the held records and their requests, the command in execution, the inbox, the urgent level and the
arrival uptimes of the buffers with the Judges are the same. -/
theorem Settled.congr {s t : State} (h : Settled s) (hs : t.store = s.store) (hj : t.judges = s.judges)
    (hr : t.hold.records = s.hold.records) (ho : t.hold.outstanding = s.hold.outstanding)
    (he : t.agent.exec = s.agent.exec) (hi : t.agent.inbox = s.agent.inbox)
    (hu : t.agent.settings.urgentLevel = s.agent.settings.urgentLevel)
    (hb : ∀ p, ∀ b ∈ judgePlaces (s.judges.get p),
      (t.buffer b).desc.uptime = (s.buffer b).desc.uptime) : Settled t := by
  have hw : ∀ p d, someWaiting p d s = true → someWaiting p d t = true := fun p d x => by
    rw [someWaiting_congr p d hj (hb p)]; exact x
  exact (settled_iff t).2 ⟨grant_none_congr hs (fun p => by rw [hj]) hu h.grant,
    ⟨endReached_none_congr .n (by rw [hj]) (hw .n) (h.endReached .n),
      endReached_none_congr .f (by rw [hj]) (hw .f) (h.endReached .f)⟩,
    ⟨placeRequest_none_congr .n hr ho (h.placeRequest .n), placeRequest_none_congr .f hr ho (h.placeRequest .f)⟩,
    ⟨takeSlot_none_congr .n (by rw [hj]) (by rw [hj]) (h.takeSlot .n),
      takeSlot_none_congr .f (by rw [hj]) (by rw [hj]) (h.takeSlot .f)⟩,
    beginCommand_none_congr he hi (by rw [hs]) h.beginCommand,
    ⟨takeArrival_none_congr .n (by rw [hj]) (h.takeArrival .n),
      takeArrival_none_congr .f (by rw [hj]) (h.takeArrival .f)⟩,
    openPort_none_congr hs h.openPort⟩

/-! ### What a conclusion writes into the context it opened (R40, R47, R52) -/

theorem FirstConcluded_closed {s : State} {p : Port} (l : List Byte) (o : BindOutcome) (index : Option Index)
    (broken : State → State) (h : (s.judges.get p).bind = none) : FirstConcluded p l o index broken s = s := by
  simp [FirstConcluded, h]

theorem FirstConcluded_open {s : State} {p : Port} {c : BindContext} (l : List Byte) (o : BindOutcome)
    (index : Option Index) (broken : State → State) (h : (s.judges.get p).bind = some c) (hr : c.reached = false) :
    FirstConcluded p l o index broken s = { s with judges := s.judges.set p { s.judges.get p with
      bind := some { c with outcome := o, particulars := some ⟨destOf l, classOf l, index⟩ } } } := by
  simp [FirstConcluded, h, hr]

theorem FirstConcluded_ended {s : State} {p : Port} {c : BindContext} (l : List Byte) (o : BindOutcome)
    (index : Option Index) (broken : State → State) (h : (s.judges.get p).bind = some c) (hr : c.reached = true)
    (ha : (s.judges.get p).arrivals = []) : FirstConcluded p l o index broken s =
      broken { s with judges := s.judges.set p { s.judges.get p with bind := none } } := by
  simp [FirstConcluded, h, hr, ha]

end Sys2Proof.Machine
end

