-- ==== Sys2Proof/Laws/Command.lean ====
section
/-! SUPPORT. A command telegram at a gate that is ready for it: the state the Agent begins the command in, and the
completion of a command that is answered at once. -/

namespace Sys2Proof.Machine

/-- The Receive Unit in READY when the start marker arrives. -/
def readyUnit (u : RxUnit) : RxUnit := { u with phase := .ready }

/-- The Receive Unit at the last byte of the telegram. -/
def commandUnit (h : CmdHead) (b : BufId) (payload : List Byte) (s : State) : RxUnit :=
  (commandHeader h s.ownAddr payload.length ++ payload ++
    [(crc (commandBody h s.ownAddr payload)).extractLsb' 8 8,
      (crc (commandBody h s.ownAddr payload)).extractLsb' 0 8]).foldl RxUnit.take
        (startUnit b (readyUnit (s.rx.get h.port)))

/-- The state in which the Agent begins the command: the telegram in its buffer, its unit SETTLING, everything else
as it was. -/
def received (h : CmdHead) (b : BufId) (rest : List BufId) (payload : List Byte) (s : State) : State :=
  { s with
    pool := ⟨s.pool.buffers.set b.val
      ⟨commandTelegram h s.ownAddr payload, arrivalDescriptor h.port (11 + payload.length) s⟩, rest⟩
    rx := s.rx.set h.port { commandUnit h b payload s with
      phase := .settling
      good := (commandUnit h b payload s).good + 1 } }

theorem lineBytes_append (p : Port) (l m : List Byte) (s : State) :
    lineBytes p (l ++ m) s = lineBytes p m (lineBytes p l s) := by
  simp [lineBytes, List.foldl_append]

/-- Silence of 3 byte times at a unit at rest leaves it READY. -/
theorem lineSettled_ready {p : Port} {s : State}
    (h : (s.rx.get p).phase = .settling ∨ (s.rx.get p).phase = .ready) :
    lineSettled p s = s.setRx (s.rx.set p (readyUnit (s.rx.get p))) := by
  unfold lineSettled
  rcases h with h | h
  · rw [h]
    rfl
  · rw [h]
    have e : readyUnit (s.rx.get p) = s.rx.get p := by
      unfold readyUnit
      rw [← h]
    rw [e]
    cases p <;> rfl

/-- The start marker at a READY unit with a free buffer. -/
theorem lineByte_start {p : Port} {b : BufId} {rest : List BufId} {s : State}
    (hp : (s.rx.get p).phase = .ready) (hf : s.pool.free = b :: rest) :
    lineByte p 0xD3#8 s = inFilling p b { s.buffer b with bytes := [0xD3#8] } (startUnit b (s.rx.get p))
      (s.setPool { s.pool with free := rest }) := by
  have hc : claim s = some (b, s.setPool { s.pool with free := rest }) := by
    simp only [claim, hf]
  simp only [lineByte, hp, startReception, hc]
  rfl

/-- The last byte of a well-formed telegram whose check word closes its sum. -/
theorem fillByte_good {p : Port} {b : BufId} {c : Byte} {x : Buffer} {u : RxUnit} {s : State}
    (he : (u.framing.next c).ended = true) (hs : (u.take c).sum = (u.take c).tail)
    (hf : formError (storeByte x c).bytes (u.take c).framing.expected = false) :
    fillByte p b c (inFilling p b x u s) =
      settle (arrive p b (u.take c).framing.expected (inFilling p b (storeByte x c) (u.take c) s)) := by
  rw [fillByte_inFilling, if_pos he]
  simp only [endReception, inFilling_rx, inFilling_buffer, hs, ne_eq, not_true_eq_false, if_false, hf]
  rfl

/-! ### From the last byte to the Agent -/

/-- A buffer of the free list is with no Judge (R12). -/
theorem free_not_judged {s : State} {b : BufId} (h : EachBufferInOnePlace s) (hb : b ∈ s.pool.free) (p : Port) :
    b ∉ judgePlaces (s.judges.get p) := by
  intro hj
  have hn : (places s).Nodup := h.nodup_iff.2 (List.nodup_finRange 64)
  unfold places at hn
  simp only [List.append_assoc] at hn
  have hd := (List.nodup_append.1 hn).2.2
  refine hd b hb b ?_ rfl
  cases p
  · simp only [PerPort.get] at hj
    simp [hj]
  · simp only [PerPort.get] at hj
    simp [hj]

theorem idle_no_arrivals {s : State} {p : Port} (hs : Settled s) (hi : (s.judges.get p).phase = .idle) :
    (s.judges.get p).arrivals = [] := by
  have h := hs.takeArrival p
  unfold takeArrival at h
  rw [hi] at h
  cases ha : (s.judges.get p).arrivals with
  | nil => rfl
  | cons c l =>
    rw [ha] at h
    simp only at h
    split at h <;> cases h

theorem received_buffer (h : CmdHead) (b : BufId) (rest : List BufId) (payload : List Byte) (s : State) :
    (received h b rest payload s).buffer b =
      ⟨commandTelegram h s.ownAddr payload, arrivalDescriptor h.port (11 + payload.length) s⟩ := by
  simp [received, State.buffer]

theorem received_other (h : CmdHead) (b : BufId) (rest : List BufId) (payload : List Byte) (s : State) {c : BufId}
    (hc : c ≠ b) : (received h b rest payload s).buffer c = s.buffer c := by
  have : (b : Nat) ≠ c := fun e => hc (Fin.ext e.symm)
  simp [received, State.buffer, Vector.getElem_set_ne, this]

/-- What a Judge's arrival list gains never ends a wait. -/
theorem someWaiting_arrived {s t : State} {p q : Port} {b : BufId} {d : Uptime}
    (hj : t.judges = s.judges.set p { s.judges.get p with arrivals := (s.judges.get p).arrivals ++ [b] })
    (hb : ∀ c ∈ judgePlaces (s.judges.get q), (t.buffer c).desc.uptime = (s.buffer c).desc.uptime)
    (h : someWaiting q d s = true) : someWaiting q d t = true := by
  have ha : ∀ c ∈ judgePlaces (s.judges.get q), arrivedBy t d c = arrivedBy s d c := by
    intro c m
    simp only [arrivedBy, hb c m]
  have hp : (t.judges.get q).phase = (s.judges.get q).phase := by
    rw [hj, PerPort.get_set]
    split
    · rename_i e
      rw [e]
    · rfl
  unfold someWaiting at h ⊢
  rw [Bool.or_eq_true] at h ⊢
  rcases h with h | h
  · left
    rw [List.any_eq_true] at h ⊢
    obtain ⟨c, m, hc⟩ := h
    refine ⟨c, ?_, by rw [ha c (List.mem_append_left _ m)]; exact hc⟩
    rw [hj, PerPort.get_set]
    split
    · rename_i e
      rw [e] at m
      exact List.mem_append_left _ m
    · exact m
  · right
    rw [hp]
    cases hd : judgedBuffer (s.judges.get q).phase with
    | none => rw [hd] at h; exact h
    | some c =>
      rw [hd] at h
      have hm : c ∈ judgePlaces (s.judges.get q) := List.mem_append_right _ (by simp [hd])
      show arrivedBy t d c = true
      rw [ha c hm]
      exact h

theorem beginCommand_of {Q : State} {b : BufId} {rest : List BufId} (he : Q.agent.exec = none)
    (hi : Q.agent.inbox = b :: rest) (hp : Q.store.phase = .ready) :
    beginCommand Q = some (startCommand b (Q.setAgent { Q.agent with inbox := rest })) := by
  unfold beginCommand
  rw [he, hi, hp]

theorem setInbox_back (b : BufId) (R : State) (h : R.agent.inbox = []) :
    (R.setAgent { R.agent with inbox := [b] }).setAgent
      { (R.setAgent { R.agent with inbox := [b] }).agent with inbox := [] } = R := by
  rw [State.setAgent_setAgent, State.setAgent_agent, ← h]
  rfl

/-- The arrival of a command at a gate that is ready for it is taken by its Judge, put in the inbox and begun. -/
theorem settle_command {h : CmdHead} {b : BufId} {rest : List BufId} {payload : List Byte} {s : State}
    (hr : CommandReady h b rest s) :
    settle ((received h b rest payload s).mapJudge h.port fun j => { j with arrivals := j.arrivals ++ [b] }) =
      settleFor 1022 (startCommand b (received h b rest payload s)) := by
  obtain ⟨-, hfree, -, hidle, hadm, hready, hexec, hinbox, -, hplace, hset⟩ := hr
  have harr := idle_no_arrivals hset hidle
  have hbuf : ∀ p, ∀ c ∈ judgePlaces (s.judges.get p),
      ((received h b rest payload s).buffer c).desc.uptime = (s.buffer c).desc.uptime := by
    intro p c m
    have : c ≠ b := by
      rintro rfl
      exact free_not_judged hplace (by rw [hfree]; exact List.mem_cons_self) p m
    rw [received_other _ _ _ _ _ this]
  generalize hR : received h b rest payload s = R
  have eR : R = { s with pool := R.pool, rx := R.rx } := by rw [← hR]; rfl
  have hRb : (R.buffer b).bytes = commandTelegram h s.ownAddr payload := by rw [← hR, received_buffer]
  rw [hR] at hbuf
  have hjudges : R.judges = s.judges := by rw [eR]
  have hstore : R.store = s.store := by rw [eR]
  have hagent : R.agent = s.agent := by rw [eR]
  have hhold : R.hold = s.hold := by rw [eR]
  have hown : R.ownAddr = s.ownAddr := by rw [eR]
  -- the arrival
  generalize hA : (R.mapJudge h.port fun j => { j with arrivals := j.arrivals ++ [b] }) = A
  have aj : A.judges =
      s.judges.set h.port { s.judges.get h.port with arrivals := (s.judges.get h.port).arrivals ++ [b] } := by
    rw [← hA, ← hjudges]; rfl
  have ab : ∀ c, A.buffer c = R.buffer c := by intro c; rw [← hA]; rfl
  have astore : A.store = s.store := by rw [← hA]; exact hstore
  have aagent : A.agent = s.agent := by rw [← hA]; exact hagent
  have ahold : A.hold = s.hold := by rw [← hA]; exact hhold
  have aown : A.ownAddr = s.ownAddr := by rw [← hA]; exact hown
  have aphase : ∀ q, (A.judges.get q).phase = (s.judges.get q).phase ∧
      (A.judges.get q).slot = (s.judges.get q).slot ∧ (A.judges.get q).bind = (s.judges.get q).bind := by
    intro q
    rw [aj, PerPort.get_set]
    split
    · rename_i e
      rw [e]
      exact ⟨rfl, rfl, rfl⟩
    · exact ⟨rfl, rfl, rfl⟩
  have await : ∀ q d, someWaiting q d s = true → someWaiting q d A = true := by
    intro q d
    exact someWaiting_arrived aj (fun c m => by rw [ab]; exact hbuf q c m)
  have g1 : grant A = none := grant_none_congr astore (fun q => (aphase q).1) (by rw [aagent]) hset.grant
  have g2 : ∀ q, endReached q A = none := fun q =>
    endReached_none_congr q (aphase q).2.2 (await q) (hset.endReached q)
  have g3 : ∀ q, placeRequest q A = none := fun q =>
    placeRequest_none_congr q (by rw [ahold]) (by rw [ahold]) (hset.placeRequest q)
  have g4 : ∀ q, takeSlot q A = none := fun q =>
    takeSlot_none_congr q (aphase q).1 (aphase q).2.1 (hset.takeSlot q)
  have g5 : beginCommand A = none :=
    beginCommand_none_congr (by rw [aagent]) (by rw [aagent]) (by rw [astore]) hset.beginCommand
  have g6 : ∀ q, q ≠ h.port → takeArrival q A = none := fun q hq =>
    takeArrival_none_congr q (by rw [aj, PerPort.get_set, if_neg hq]) (hset.takeArrival q)
  -- the Judge takes it
  have g7 : takeArrival h.port A = some (R.setAgent { R.agent with inbox := [b] }) := by
    have e1 : (A.judges.get h.port).phase = .idle := by rw [(aphase h.port).1]; exact hidle
    have e2 : (A.judges.get h.port).arrivals = [b] := by
      rw [aj, PerPort.get_set, if_pos rfl, harr]
      rfl
    have e3 : (A.mapJudge h.port fun j => { j with arrivals := [] }) = R := by
      have : (s.judges.set h.port { s.judges.get h.port with
          arrivals := (s.judges.get h.port).arrivals ++ [b] }).set h.port
          { (A.judges.get h.port) with arrivals := [] } = R.judges := by
        rw [aj, hjudges]
        revert harr
        generalize s.judges = J
        cases h.port <;> (intro harr; simp only [PerPort.get] at harr; cases J; simp [PerPort.set, PerPort.get, ← harr])
      rw [← aj] at this
      unfold State.mapJudge
      rw [this, ← hA]
      rfl
    simp only [takeArrival, e1, e2, e3]
    rw [ab, hRb, aown, command_dest, if_pos rfl]
    congr 1
    unfold disposeOwn
    simp only [hRb, command_class, hagent]
    rw [if_pos hadm, if_pos (by rw [hinbox]; decide), hinbox]
    rfl
  have hc1 : consequence A = some (R.setAgent { R.agent with inbox := [b] }) := by
    unfold consequence
    rw [g1, g2, g2, g3, g3, g4, g4, g5]
    cases hp : h.port with
    | n =>
      rw [hp] at g7
      rw [g7]
      rfl
    | f =>
      rw [hp] at g7 g6
      rw [g6 .n (by decide), g7]
      rfl
  -- the Agent begins it
  have hc2 : consequence (R.setAgent { R.agent with inbox := [b] }) = some (startCommand b R) := by
    generalize hQ : R.setAgent { R.agent with inbox := [b] } = Q
    have qs : Q.store = s.store := by rw [← hQ]; exact hstore
    have qj : Q.judges = s.judges := by rw [← hQ]; exact hjudges
    have qh : Q.hold = s.hold := by rw [← hQ]; exact hhold
    have qb : ∀ c, Q.buffer c = R.buffer c := by intro c; rw [← hQ]; rfl
    have qa : Q.agent = { s.agent with inbox := [b] } := by rw [← hQ, ← hagent]; rfl
    have k1 : grant Q = none := grant_none_congr qs (fun q => by rw [qj]) (by rw [qa]) hset.grant
    have k2 : ∀ q, endReached q Q = none := fun q =>
      endReached_none_congr q (by rw [qj]) (fun d x => by
        rw [someWaiting_congr q d qj (fun c m => by rw [qb]; exact hbuf q c m)]; exact x) (hset.endReached q)
    have k3 : ∀ q, placeRequest q Q = none := fun q =>
      placeRequest_none_congr q (by rw [qh]) (by rw [qh]) (hset.placeRequest q)
    have k4 : ∀ q, takeSlot q Q = none := fun q =>
      takeSlot_none_congr q (by rw [qj]) (by rw [qj]) (hset.takeSlot q)
    have k5 : beginCommand Q = some (startCommand b R) := by
      rw [beginCommand_of (rest := []) (by rw [qa]; exact hexec) (by rw [qa]) (by rw [qs]; exact hready)]
      congr 2
      rw [← hQ]
      exact setInbox_back b R (by rw [hagent]; exact hinbox)
    unfold consequence
    rw [k1, k2, k2, k3, k3, k4, k4, k5]
    rfl
  show settleFor (1022 + 1 + 1) A = _
  rw [settleFor_succ _ hc1, settleFor_succ _ hc2]

/-- The end of the telegram: its state is `received`, with the buffer on the arrival list. -/
theorem arrive_received (h : CmdHead) (b : BufId) (rest : List BufId) (payload : List Byte) (s : State)
    (x : Buffer) :
    arrive h.port b (11 + payload.length)
        (inFilling h.port b { x with bytes := commandTelegram h s.ownAddr payload } (commandUnit h b payload s)
          ((s.setRx (s.rx.set h.port (readyUnit (s.rx.get h.port)))).setPool { s.pool with free := rest })) =
      (received h b rest payload s).mapJudge h.port fun j => { j with arrivals := j.arrivals ++ [b] } := by
  simp only [received, arrive]
  generalize commandTelegram h s.ownAddr payload = l
  generalize commandUnit h b payload s = u
  have e : ∀ t : State, arrivalDescriptor h.port (11 + payload.length)
      (inFilling h.port b { x with bytes := l } u t) = arrivalDescriptor h.port (11 + payload.length) t := by
    intro t; rfl
  rw [e, inFilling_buffer]
  simp only [inFilling, State.mapRx, State.mapJudge, State.setBuffer, State.setPool, State.setRx,
    State.setJudges]
  cases h.port <;> simp [PerPort.set, PerPort.get, arrivalDescriptor]

/-- A command telegram sent to a gate that is ready for it is begun by the Agent with everything else as it was. -/
theorem sendCommand_ready {h : CmdHead} {b : BufId} {rest : List BufId} {payload : List Byte} {s : State}
    (hr : CommandReady h b rest s) (hn : payload.length ≤ 200) :
    sendCommand h payload s = settleFor 1022 (startCommand b (received h b rest payload s)) := by
  rw [← settle_command hr]
  obtain ⟨hphase, hfree, hsource, -⟩ := hr
  unfold sendCommand
  rw [lineSettled_ready hphase]
  generalize hs0 : s.setRx (s.rx.set h.port (readyUnit (s.rx.get h.port))) = s0
  have h0rx : s0.rx.get h.port = readyUnit (s.rx.get h.port) := by rw [← hs0]; simp
  have h0pool : s0.pool = s.pool := by rw [← hs0]; rfl
  rw [commandTelegram_cons]
  generalize hx : crc (commandBody h s.ownAddr payload) = x
  have hcons : ∀ l, lineBytes h.port (0xD3#8 :: l) s0 = lineBytes h.port l (lineByte h.port 0xD3#8 s0) :=
    fun _ => rfl
  rw [hcons, lineByte_start (by rw [h0rx]; rfl) (by rw [h0pool]; exact hfree), h0rx]
  have hsplit : commandHeader h s.ownAddr payload.length ++ payload ++ [x.extractLsb' 8 8, x.extractLsb' 0 8] =
      (commandHeader h s.ownAddr payload.length ++ payload ++ [x.extractLsb' 8 8]) ++ [x.extractLsb' 0 8] := by
    simp
  have hopen := (command_framing h s.ownAddr payload (x.extractLsb' 8 8) (x.extractLsb' 0 8) hn).1
  have hunit := command_unit h s.ownAddr payload b (readyUnit (s.rx.get h.port)) hn _ rfl
  have hU : commandUnit h b payload s = ((commandHeader h s.ownAddr payload.length ++ payload ++
      [x.extractLsb' 8 8]).foldl RxUnit.take (startUnit b (readyUnit (s.rx.get h.port)))).take
        (x.extractLsb' 0 8) := by
    unfold commandUnit
    rw [hx, hsplit, List.foldl_append]
    rfl
  have hU' : commandUnit h b payload s = (commandHeader h s.ownAddr payload.length ++ payload ++
      [(crc (commandBody h s.ownAddr payload)).extractLsb' 8 8,
        (crc (commandBody h s.ownAddr payload)).extractLsb' 0 8]).foldl RxUnit.take
          (startUnit b (readyUnit (s.rx.get h.port))) := rfl
  rw [← hU'] at hunit
  have hlen := command_length h s.ownAddr payload
  have hT : commandTelegram h s.ownAddr payload = 0xD3#8 :: ((commandHeader h s.ownAddr payload.length ++ payload ++
      [x.extractLsb' 8 8]) ++ [x.extractLsb' 0 8]) := by
    rw [commandTelegram_cons, hx, hsplit]
  rw [hsplit, lineBytes_append, lineBytes_fill _ _ _ _ _ _ rfl (by rw [startUnit_framing]; exact hopen)]
  generalize hw : (commandHeader h s.ownAddr payload.length ++ payload ++ [x.extractLsb' 8 8]).foldl RxUnit.take
    (startUnit b (readyUnit (s.rx.get h.port))) = w at *
  have hwp : w.phase = .filling b := by rw [← hw, takes_phase]; rfl
  have hlast : ∀ y t, lineBytes h.port [x.extractLsb' 0 8] (inFilling h.port b y w t) =
      fillByte h.port b (x.extractLsb' 0 8) (inFilling h.port b y w t) := by
    intro y t
    show lineByte h.port _ _ = _
    unfold lineByte
    rw [inFilling_rx, hwp]
  rw [hlast]
  have hb1 : ((commandHeader h s.ownAddr payload.length ++ payload ++ [x.extractLsb' 8 8]).foldl storeByte
      { s0.buffer b with bytes := [0xD3#8] }) = { s0.buffer b with
        bytes := 0xD3#8 :: (commandHeader h s.ownAddr payload.length ++ payload ++ [x.extractLsb' 8 8]) } := by
    rw [stores_bytes _ _ (by
      have := congrArg List.length hT
      simp only [List.length_cons, List.length_append] at this ⊢
      simp only [hlen, List.length_nil] at this ⊢
      omega)]
    rfl
  have hb2 : storeByte { s0.buffer b with
      bytes := 0xD3#8 :: (commandHeader h s.ownAddr payload.length ++ payload ++ [x.extractLsb' 8 8]) }
        (x.extractLsb' 0 8) = { s0.buffer b with bytes := commandTelegram h s.ownAddr payload } := by
    have := congrArg List.length hT
    simp only [List.length_cons, List.length_append, hlen, List.length_nil] at this
    unfold storeByte
    rw [if_pos (by simp only [List.length_cons, List.length_append, List.length_nil]; omega), hT]
    rfl
  have hf : w.framing.next (x.extractLsb' 0 8) = ⟨11 + payload.length, 11 + payload.length, 0, 10⟩ := by
    rw [← take_framing, ← hU, hunit.2]
  rw [hb1, fillByte_good (by rw [hf, ended_plain _ (by dsimp only; omega) rfl]; simp)
    (by rw [← hU]; exact hunit.1)
    (by rw [hb2, take_framing, hf]; exact command_formed h s.ownAddr payload hn hsource), hb2, take_framing, hf]
  rw [← hU, ← arrive_received h b rest payload s (s0.buffer b), ← hs0]
  rfl

/-! ### A command answered at once -/

/-- The unit at the end of a telegram differs from the unit before in its phase, sum, tail and framing alone. -/
theorem commandUnit_counts (h : CmdHead) (b : BufId) (payload : List Byte) (s : State) :
    commandUnit h b payload s = { s.rx.get h.port with
      phase := .filling b
      sum := (commandUnit h b payload s).sum
      tail := (commandUnit h b payload s).tail
      framing := (commandUnit h b payload s).framing } := by
  unfold commandUnit
  exact (takes_counts _ _).trans rfl

theorem received_received (h : CmdHead) (b : BufId) (rest : List BufId) (payload : List Byte) (s t : State)
    (ht : t.rx = (received h b rest payload s).rx) : Received h s t := by
  have e : (received h b rest payload s).rx = s.rx.set h.port { commandUnit h b payload s with
      phase := .settling
      good := (commandUnit h b payload s).good + 1 } := rfl
  unfold Received
  rw [ht, e, PerPort.get_set, if_pos rfl]
  congr 1
  rw [commandUnit_counts]

/-- A response that finds room: it is in its buffer and on the list, or on the line (R13, R14, R156). -/
theorem complete_room {b : BufId} {status : Status} {results : List Byte} {y : State} (he : y.agent.exec = none)
    (hd : ∀ i, y.commit.phase ≠ .due i)
    (hroom : (y.tx.get (y.buffer b).desc.port).normal.length < 16) :
    ∀ w, w = writeResponse b status results y →
      complete b status results y =
        w.setTx (w.tx.set (y.buffer b).desc.port
          (startTx w.buffer (listAdd (w.tx.get (y.buffer b).desc.port) .normal b))) := by
  intro w hw
  have h1 : endExecution y = y := by
    unfold endExecution
    rw [← he]
    rfl
  have h2 : (w.buffer b).desc.port = (y.buffer b).desc.port := by
    rw [hw]
    simp [writeResponse, State.setBuffer, State.buffer]
  have h3 : w.tx = y.tx := by rw [hw]; rfl
  have h4 : w.commit = y.commit := by rw [hw]; rfl
  have h5 : txAppend (y.buffer b).desc.port .normal b w = some (w.setTx (w.tx.set (y.buffer b).desc.port
      (startTx w.buffer (listAdd (w.tx.get (y.buffer b).desc.port) .normal b)))) := by
    unfold txAppend
    rw [if_pos]
    · rfl
    · rw [h3]
      simpa [listRoom] using hroom
  unfold complete respond offerResponse
  rw [h1, ← hw, h2, h5]
  simp only [swapIfDue, State.setTx_commit, h4]
  split
  · rename_i i hi
    exact absurd hi (hd i)
  · rfl
  · rfl

/-- What a completion leaves: the telegram received, the response in its buffer and on the list, and everything
else as it is in `x`. -/
theorem complete_answers {h : CmdHead} {b : BufId} {rest : List BufId} {payload : List Byte} {s x : State}
    (status : Status) (results : List Byte) (hroom : RoomToAnswer h s) (hn : payload.length ≤ 200)
    (ht : x.tx = s.tx) (ho : x.ownAddr = s.ownAddr) (he : x.agent.exec = none)
    (hd : ∀ i, x.commit.phase ≠ .due i) :
    ∀ u, u = complete b status results
        { x with pool := (received h b rest payload s).pool, rx := (received h b rest payload s).rx } →
      Received h s u ∧ Answered h b (responseCode payload) status results s u ∧ u.pool.free = rest ∧
        u = { x with pool := u.pool, rx := u.rx, tx := u.tx } := by
  intro u hu
  have hRb := received_buffer h b rest payload s
  have hRo : ∀ c, c ≠ b → (received h b rest payload s).buffer c = s.buffer c :=
    fun c hcb => received_other h b rest payload s hcb
  have hRf : (received h b rest payload s).pool.free = rest := rfl
  have hRx := received_received h b rest payload s
  generalize received h b rest payload s = R at *
  generalize hy : ({ x with pool := R.pool, rx := R.rx } : State) = y at *
  have yb : ∀ c, y.buffer c = R.buffer c := by intro c; rw [← hy]; rfl
  have ye : y.agent.exec = none := by rw [← hy]; exact he
  have yd : ∀ i, y.commit.phase ≠ .due i := by rw [← hy]; exact hd
  have yt : y.tx = s.tx := by rw [← hy]; exact ht
  have yo : y.ownAddr = s.ownAddr := by rw [← hy]; exact ho
  have yp : (y.buffer b).desc.port = h.port := by rw [yb, hRb]; rfl
  have hcomp := complete_room (b := b) (status := status) (results := results) ye yd
    (by rw [yp, yt]; exact hroom) _ rfl
  rw [yp] at hcomp
  generalize hw : writeResponse b status results y = w at hcomp
  have wx : w = { y with pool := w.pool } := by rw [← hw]; rfl
  have wb : w.buffer b = ⟨composed h.source s.ownAddr h.seq (responseCode payload :: status.code :: results),
      { (y.buffer b).desc with length := (composed h.source s.ownAddr h.seq
        (responseCode payload :: status.code :: results)).length + 2 }⟩ := by
    rw [← hw]
    simp only [writeResponse, responseBytes, yb, hRb, command_source, command_seq, command_payload _ _ _ hn, yo]
    simp [State.setBuffer, State.buffer]
  have wo : ∀ c, c ≠ b → w.buffer c = s.buffer c := by
    intro c hcb
    have : (b : Nat) ≠ c := fun e => hcb (Fin.ext e.symm)
    rw [← hRo c hcb, ← yb, ← hw]
    simp [writeResponse, State.setBuffer, State.buffer, Vector.getElem_set_ne, this]
  have wf : w.pool.free = rest := by
    rw [← hw]
    show y.pool.free = rest
    rw [← hy]
    exact hRf
  have wt : w.tx = s.tx := by rw [wx, ← yt]
  rw [hu, hcomp]
  refine ⟨?_, ⟨?_, ?_, ?_, ?_⟩, ?_, ?_⟩
  · apply hRx
    show w.rx = R.rx
    rw [wx, ← hy]
  · show (w.buffer b).bytes = _
    rw [wb]
  · show txLine (w.buffer b) = (w.buffer b).bytes ++ be16 (crc (w.buffer b).bytes)
    rw [wb]
    simp [txLine]
  · exact wo
  · show w.tx.set h.port _ = s.tx.set h.port _
    rw [wt]
    rfl
  · exact wf
  · rw [wx, ← hy]
    rfl

/-- The buffers with the Judges are not the command's: their arrival uptimes stay. -/
theorem answered_uptimes {h : CmdHead} {b : BufId} {rest : List BufId} {payload : List Byte} {s u : State}
    {code : Byte} {status : Status} {results : List Byte} (hr : CommandReady h b rest s)
    (ha : Answered h b code status results s u) (p : Port) :
    ∀ c ∈ judgePlaces (s.judges.get p),
      (u.buffer c).desc.uptime = ((received h b rest payload s).buffer c).desc.uptime := by
  intro c m
  have hcb : c ≠ b := by
    rintro rfl
    exact free_not_judged hr.2.2.2.2.2.2.2.2.2.1 (by rw [hr.2.1]; exact List.mem_cons_self) p m
  rw [ha.2.2.1 c hcb, received_other _ _ _ _ _ hcb]

/-- A command that the Agent begins by completing it, every block but the pool and the units being as in `x`:
what a statement of its effect says (`CompletesAs`). -/
theorem completes {c : Instr} {h : CmdHead} {b : BufId} {rest : List BufId} {payload : List Byte} {s x : State}
    {status : Status} {results : List Byte} (hc : exec c s = .next (sendCommand h payload s))
    (hr : CommandReady h b rest s) (hroom : RoomToAnswer h s) (hn : payload.length ≤ 200)
    (hx : startCommand b (received h b rest payload s) = complete b status results
      { x with pool := (received h b rest payload s).pool, rx := (received h b rest payload s).rx })
    (hset : Settled { x with pool := (received h b rest payload s).pool, rx := (received h b rest payload s).rx })
    (hj : x.judges = s.judges) (ht : x.tx = s.tx) (ho : x.ownAddr = s.ownAddr) (he : x.agent.exec = none)
    (hd : ∀ i, x.commit.phase ≠ .due i) :
    CompletesAs c h b rest (responseCode payload) status results s x := by
  have hsend := sendCommand_ready hr hn
  rw [hx] at hsend
  obtain ⟨h1, h2, h3, h4⟩ := complete_answers (b := b) (rest := rest) status results hroom hn ht ho he hd _ rfl
  generalize complete b status results
    { x with pool := (received h b rest payload s).pool, rx := (received h b rest payload s).rx } = u at *
  have hfin : Settled u := by
    refine hset.congr ?_ ?_ ?_ ?_ ?_ ?_ ?_ ?_
    any_goals (rw [h4])
    intro p c m
    have m' : c ∈ judgePlaces (s.judges.get p) := by rw [← hj]; exact m
    exact answered_uptimes (rest := rest) (payload := payload) hr h2 p c m'
  rw [settleFor_settled _ hfin] at hsend
  exact ⟨u, by rw [hc, hsend], h1, h2, h3, h4⟩

/-- The reload at the beginning of an executed command (R166). -/
theorem reload_received (h : CmdHead) (b : BufId) (rest : List BufId) (payload : List Byte) (s : State) :
    reload (received h b rest payload s) = { Reloaded s with
      pool := (received h b rest payload s).pool, rx := (received h b rest payload s).rx } := rfl

/-- A command that passes the privilege test: the reload, then what its payload asks for (R153, R155, R166). -/
theorem startCommand_privileged {h : CmdHead} {b : BufId} {rest : List BufId} {payload : List Byte} {s : State}
    (hp : Privileged h (if isWrite payload then s.agent.settings.writeFloor else s.agent.settings.readFloor) s)
    (hn : payload.length ≤ 200) :
    startCommand b (received h b rest payload s) =
      match decodeCommand payload with
      | .unknown => complete b .unknownCommand [] (reload (received h b rest payload s))
      | .bad => complete b .badArgument [] (reload (received h b rest payload s))
      | .command c => carryOut b s.lapsed c (reload (received h b rest payload s)) := by
  have hb := received_buffer h b rest payload s
  have h1 : privileged (arrivalDescriptor h.port (11 + payload.length) s).port
      (commandTelegram h s.ownAddr payload) (received h b rest payload s).agent.settings = true := by
    show privileged h.port _ s.agent.settings = true
    unfold privileged
    rw [command_payload _ _ _ hn, command_priv]
    exact decide_eq_true hp
  unfold startCommand executeCommand
  rw [hb]
  simp only [command_payload _ _ _ hn]
  rw [if_pos h1]
  rfl

/-- A command above its floor is denied (R154). -/
theorem startCommand_denied {h : CmdHead} {b : BufId} {rest : List BufId} {payload : List Byte} {s : State}
    (hp : ¬Privileged h (if isWrite payload then s.agent.settings.writeFloor else s.agent.settings.readFloor) s)
    (hn : payload.length ≤ 200) :
    startCommand b (received h b rest payload s) =
      handOver ⟨.mgmtRefused, h.port, some h.source, some s.ownAddr, some 15, none⟩
        (complete b .denied [] (received h b rest payload s)) := by
  have hb := received_buffer h b rest payload s
  have h1 : ¬privileged (arrivalDescriptor h.port (11 + payload.length) s).port
      (commandTelegram h s.ownAddr payload) (received h b rest payload s).agent.settings = true := by
    show ¬privileged h.port _ s.agent.settings = true
    unfold privileged
    rw [command_payload _ _ _ hn, command_priv, decide_eq_true_eq]
    exact hp
  unfold startCommand deny recordOf
  rw [hb]
  simp only [command_source, command_dest, command_class]
  rw [if_neg h1]
  rfl

/-- The same for a command of class READ that a gate can answer: what is left to show is what `carryOut` does. -/
theorem completes_read {c : Instr} {h : CmdHead} {b : BufId} {rest : List BufId} {payload : List Byte}
    {s x : State} {status : Status} {results : List Byte} (hc : exec c s = .next (sendCommand h payload s))
    (hr : CanRead h b rest s) (hn : payload.length ≤ 200) (hw : isWrite payload = false)
    (hx : (match decodeCommand payload with
      | .unknown => complete b .unknownCommand [] (reload (received h b rest payload s))
      | .bad => complete b .badArgument [] (reload (received h b rest payload s))
      | .command d => carryOut b s.lapsed d (reload (received h b rest payload s))) =
        complete b status results
          { x with pool := (received h b rest payload s).pool, rx := (received h b rest payload s).rx })
    (hset : Settled { x with pool := (received h b rest payload s).pool, rx := (received h b rest payload s).rx })
    (hj : x.judges = s.judges) (ht : x.tx = s.tx) (ho : x.ownAddr = s.ownAddr) (he : x.agent.exec = none)
    (hd : ∀ i, x.commit.phase ≠ .due i) :
    CompletesAs c h b rest (responseCode payload) status results s x :=
  completes hc hr.1 hr.2.2 hn
    ((startCommand_privileged (by rw [hw]; exact hr.2.1) hn).trans hx) hset hj ht ho he hd

/-- The same for a command of class WRITE. -/
theorem completes_write {c : Instr} {h : CmdHead} {b : BufId} {rest : List BufId} {payload : List Byte}
    {s x : State} {status : Status} {results : List Byte} (hc : exec c s = .next (sendCommand h payload s))
    (hr : CanWrite h b rest s) (hn : payload.length ≤ 200) (hw : isWrite payload = true)
    (hx : (match decodeCommand payload with
      | .unknown => complete b .unknownCommand [] (reload (received h b rest payload s))
      | .bad => complete b .badArgument [] (reload (received h b rest payload s))
      | .command d => carryOut b s.lapsed d (reload (received h b rest payload s))) =
        complete b status results
          { x with pool := (received h b rest payload s).pool, rx := (received h b rest payload s).rx })
    (hset : Settled { x with pool := (received h b rest payload s).pool, rx := (received h b rest payload s).rx })
    (hj : x.judges = s.judges) (ht : x.tx = s.tx) (ho : x.ownAddr = s.ownAddr) (he : x.agent.exec = none)
    (hd : ∀ i, x.commit.phase ≠ .due i) :
    CompletesAs c h b rest (responseCode payload) status results s x :=
  completes hc hr.1 hr.2.2 hn
    ((startCommand_privileged (by rw [hw]; exact hr.2.1) hn).trans hx) hset hj ht ho he hd

/-- A gate that is ready for a command stays settled under what the command changes outside the Table Store, the
Judges, the held records, the inbox and the urgent level. -/
theorem settled_received {h : CmdHead} {b : BufId} {rest : List BufId} {payload : List Byte} {s x : State}
    (hr : CommandReady h b rest s) (hs : x.store = s.store) (hj : x.judges = s.judges)
    (hh : x.hold.records = s.hold.records) (ho : x.hold.outstanding = s.hold.outstanding)
    (he : x.agent.exec = s.agent.exec) (hi : x.agent.inbox = s.agent.inbox)
    (hu : x.agent.settings.urgentLevel = s.agent.settings.urgentLevel) :
    Settled { x with pool := (received h b rest payload s).pool, rx := (received h b rest payload s).rx } := by
  have hset := hr.2.2.2.2.2.2.2.2.2.2
  refine hset.congr hs hj hh ho he hi hu ?_
  intro p c m
  have hcb : c ≠ b := by
    rintro rfl
    exact free_not_judged hr.2.2.2.2.2.2.2.2.2.1 (by rw [hr.2.1]; exact List.mem_cons_self) p m
  exact congrArg (fun y => y.desc.uptime) (received_other h b rest payload s hcb)

end Sys2Proof.Machine
end

