-- ==== Sys2Proof/Laws/Access.lean ====
section
/-! SUPPORT. What a read of a row finds (R119); and management accesses at a gate where nothing else wants the table
port (R124 to R127): the grant at a command's beginning, the next access of it, and its completion at an access's
conclusion. -/

namespace Sys2Proof.Machine

/-! ### What a read of a row finds (R119) -/

/-- The words' numbers of changed bits are those of `rowErrors`. -/
theorem mem_rowErrors (r : StoredRow) (w : Fin 6) : wordErrors r w ∈ rowErrors r := by
  unfold rowErrors
  exact List.mem_map.2 ⟨w, List.mem_finRange w, rfl⟩

/-- A row that reads clean has no word of one or two changed bits. -/
theorem readRow_clean {r : StoredRow} {draws : Nat} {e : StreamEntry} (h : (readRow r draws).1 = .clean e)
    (w : Fin 6) : wordErrors r w ≠ 1 ∧ wordErrors r w ≠ 2 := by
  have some_word (n : Nat) (hw : wordErrors r w = n) : (rowErrors r).any (· == n) = true :=
    List.any_eq_true.2 ⟨_, mem_rowErrors r w, by simp [hw]⟩
  unfold readRow at h
  refine ⟨fun hw => ?_, fun hw => ?_⟩
  · rw [some_word 1 hw] at h
    split at h
    · cases h
    · split at h
      · simp only [if_true] at h
        cases x : Config.manyBitRead draws r <;> rw [x] at h <;> cases h
      · cases h
  · rw [some_word 2 hw] at h
    cases h

/-! ### The accesses of the Agent -/

/-- The port of a READY store is free, and nothing follows at once. -/
def PortAtRest (s : State) : Prop := s.store.phase = .ready ∧ s.store.port = .free ∧ Settled s

/-- At rest no party has a request (R125). -/
theorem PortAtRest.quiet {s : State} (h : PortAtRest s) :
    s.store.scrubRequest = false ∧ s.store.agentRequest = false ∧ waitingJudge s = none := by
  have hg := h.2.2.grant
  unfold grant at hg
  rw [h.1, h.2.1] at hg
  simp only [Option.map_eq_none_iff] at hg
  unfold arbiterChoice at hg
  split at hg
  · cases hg
  · split at hg
    · cases hg
    · split at hg
      · cases hg
      · rename_i hw
        split at hg
        · cases hg
        · rename_i ha
          split at hg
          · cases hg
          · rename_i hs
            exact ⟨by simpa using hs, by simpa using ha, hw⟩

/-- The rows and the wait count while an access of the Agent is in progress: WRITE_ENTRY has written (R126, R138). -/
def atAccess (job : Job) (s : State) : State :=
  let x := { s with store := { s.store with agentRequest := false, waitCount := 0 } }
  match job with
  | .writeEntry i e => writeEntryAccess s.store.active i e x
  | _ => x

/-- A command's access granted: the Agent holds the port. -/
def granted (b : BufId) (job : Job) (s : State) : State :=
  { atAccess job s with
    store := { (atAccess job s).store with port := .agent s.store.active }
    agent := { s.agent with exec := some ⟨b, job⟩ } }

/-- Beside the rows, the Poison Set and the parameter records, a granted access changes the port alone. -/
theorem atAccess_same (job : Job) (s : State) :
    atAccess job s = { s with
      store := { s.store with
        agentRequest := false
        waitCount := 0
        rows := (atAccess job s).store.rows
        poison := (atAccess job s).store.poison }
      policer := { s.policer with params := (atAccess job s).policer.params } } := by
  cases job <;> rfl

/-- A request of the Agent alone is granted at once. -/
theorem grant_agent {b : BufId} {job : Job} {s : State} (h : PortAtRest s) :
    grant (beginJob b job s) = some (granted b job s) := by
  obtain ⟨h1, h2, h3⟩ := h.quiet
  have e1 : (beginJob b job s).store = { s.store with agentRequest := true } := rfl
  have e2 : waitingJudge (beginJob b job s) = none := h3
  unfold grant
  rw [e1]
  simp only [h.1, h.2.1]
  have ha : arbiterChoice (beginJob b job s) = some (.agent s.store.active) := by
    unfold arbiterChoice
    rw [e2, e1]
    simp only [h1, Bool.false_and, Bool.true_and, if_true]
    split
    · rename_i hf
      exact absurd hf (by decide)
    · split <;> rfl
  rw [ha]
  cases job <;> rfl

/-- While the Agent holds the port nothing follows, if nothing did before. -/
theorem agentHolds_settled {s t : State} {a : Bank} {x : Execution} (h : Settled s) (hp : t.store.port = .agent a)
    (he : t.agent.exec = some x) (hj : t.judges = s.judges) (hh : t.hold = s.hold) (hb : t.pool = s.pool) :
    Settled t := by
  have hw : ∀ p d, someWaiting p d s = true → someWaiting p d t = true := fun p d y => by
    rw [someWaiting_congr p d hj (fun c _ => by rw [State.buffer, State.buffer, hb])]; exact y
  have g1 : grant t = none := by
    unfold grant
    rw [hp]
    split
    · rename_i h2
      cases h2
    · rfl
  have g2 : ∀ p, endReached p t = none := fun p => endReached_none_congr p (by rw [hj]) (hw p) (h.endReached p)
  have g3 : ∀ p, placeRequest p t = none := fun p =>
    placeRequest_none_congr p (by rw [hh]) (by rw [hh]) (h.placeRequest p)
  have g4 : ∀ p, takeSlot p t = none := fun p => takeSlot_none_congr p (by rw [hj]) (by rw [hj]) (h.takeSlot p)
  have g5 : ∀ p, takeArrival p t = none := fun p => takeArrival_none_congr p (by rw [hj]) (h.takeArrival p)
  have g6 : beginCommand t = none := by
    unfold beginCommand
    rw [he]
  have g7 : openPort t = none := by
    unfold openPort
    rw [hp]
  exact (settled_iff _).2 ⟨g1, ⟨g2 .n, g2 .f⟩, ⟨g3 .n, g3 .f⟩, ⟨g4 .n, g4 .f⟩, g6, ⟨g5 .n, g5 .f⟩, g7⟩

theorem granted_settled {b : BufId} {job : Job} {s : State} (h : Settled s) : Settled (granted b job s) :=
  agentHolds_settled (a := s.store.active) (x := ⟨b, job⟩) h rfl rfl (by cases job <;> rfl) (by cases job <;> rfl)
    (by cases job <;> rfl)

theorem consequence_grant {s t : State} (h : grant s = some t) : consequence s = some t := by
  unfold consequence
  rw [h]
  rfl

/-- A command's first access begins at its beginning. -/
theorem settleFor_begin (n : Nat) {b : BufId} {job : Job} {s : State} (h : PortAtRest s) :
    settleFor (n + 1) (beginJob b job s) = granted b job s := by
  rw [settleFor_succ n (consequence_grant (grant_agent h)), settleFor_settled _ (granted_settled h.2.2)]

/-- A state whose access has just concluded, as it stands before the release of the port. -/
def closing (b : BufId) (job : Job) (s : State) : State :=
  { s with
    store := { s.store with port := .closing }
    agent := { s.agent with exec := some ⟨b, job⟩ } }

/-- The release of the port is the one consequence of a conclusion, if nothing else follows without it. -/
theorem consequence_closing {s t : State} (hs : t.store.port = .closing)
    (hj : t.judges = s.judges) (hr : t.hold.records = s.hold.records)
    (ho : t.hold.outstanding = s.hold.outstanding) (hb : beginCommand t = none)
    (hu : ∀ p, ∀ b ∈ judgePlaces (s.judges.get p), (t.buffer b).desc.uptime = (s.buffer b).desc.uptime)
    (h : Settled s) : consequence t = some (t.setStore { t.store with port := .free }) := by
  have hw : ∀ p d, someWaiting p d s = true → someWaiting p d t = true := fun p d x => by
    rw [someWaiting_congr p d hj (hu p)]; exact x
  have g1 : grant t = none := by
    unfold grant
    rw [hs]
    split
    · rename_i h2
      cases h2
    · rfl
  have g2 : ∀ p, endReached p t = none := fun p => endReached_none_congr p (by rw [hj]) (hw p) (h.endReached p)
  have g3 : ∀ p, placeRequest p t = none := fun p => placeRequest_none_congr p hr ho (h.placeRequest p)
  have g4 : ∀ p, takeSlot p t = none := fun p => takeSlot_none_congr p (by rw [hj]) (by rw [hj]) (h.takeSlot p)
  have g5 : ∀ p, takeArrival p t = none := fun p => takeArrival_none_congr p (by rw [hj]) (h.takeArrival p)
  unfold consequence
  rw [g1, g2, g2, g3, g3, g4, g4, hb, g5, g5]
  show openPort t = _
  unfold openPort
  rw [hs]

/-- The next access of a command is granted at the conclusion of the access before. -/
theorem settle_next {b : BufId} {job next : Job} {s : State} (h : PortAtRest s) :
    settle (nextAccess b next (closing b job s)) = granted b next s := by
  have hc : consequence (nextAccess b next (closing b job s)) = some (beginJob b next s) := by
    rw [consequence_closing (s := s) (t := nextAccess b next (closing b job s)) rfl rfl rfl rfl rfl
      (fun _ _ _ => rfl) h.2.2]
    have e : s.store = { s.store with port := .free } := by rw [← h.2.1]
    congr 1
    unfold beginJob
    conv_rhs => rw [e]
    rfl
  show settleFor (1022 + 1 + 1) _ = _
  rw [settleFor_succ _ hc, settleFor_begin _ h]

/-- A conclusion of a management access. -/
theorem access_concludes {b : BufId} {job : Job} {s : State} :
    exec .managementAccess (granted b job s) =
      .next (settle (concludeJob b job s.store.active (closing b job (atAccess job s)))) := by
  cases job <;> rfl

/-- The completion of a command at the conclusion of its last access, with room for the response. -/
theorem settle_complete {b : BufId} {job : Job} {status : Status} {results : List Byte} {s : State}
    (h : PortAtRest s) (he : s.agent.exec = none) (hi : s.agent.inbox = [])
    (hd : ∀ i, s.commit.phase ≠ .due i)
    (hb : ∀ p, b ∉ judgePlaces (s.judges.get p))
    (hroom : (s.tx.get (s.buffer b).desc.port).normal.length < 16) :
    settle (complete b status results (closing b job s)) = complete b status results s := by
  have e1 : complete b status results (closing b job s) =
      complete b status results (endExecution (closing b job s)) := rfl
  have e2 : endExecution (closing b job s) = s.setStore { s.store with port := .closing } := by
    unfold endExecution closing
    simp only [State.setAgent, State.setStore]
    rw [← he]
  rw [e1, e2]
  have c1 := complete_room (b := b) (status := status) (results := results)
    (y := s.setStore { s.store with port := .closing }) he hd hroom _ rfl
  have c2 := complete_room (b := b) (status := status) (results := results) (y := s) he hd hroom _ rfl
  generalize hT : complete b status results (s.setStore { s.store with port := .closing }) = T at *
  generalize hU : complete b status results s = U at *
  have hTU : T.setStore { T.store with port := .free } = U := by
    rw [c1, c2]
    have e : s.store = { s.store with port := .free } := by rw [← h.2.1]
    conv_rhs => rw [writeResponse]
    simp only [State.setTx, State.setStore, writeResponse, State.setBuffer, State.setPool]
    rw [← h.2.1]
    rfl
  have hbuf : ∀ c, c ≠ b → (writeResponse b status results s).buffer c = s.buffer c := by
    intro c hcb
    have : (b : Nat) ≠ c := fun e => hcb (Fin.ext e.symm)
    simp [writeResponse, State.setBuffer, State.buffer, Vector.getElem_set_ne, this]
  have hup : ∀ p, ∀ c ∈ judgePlaces (s.judges.get p), (U.buffer c).desc.uptime = (s.buffer c).desc.uptime := by
    intro p c m
    have hcb : c ≠ b := by
      rintro rfl
      exact hb p m
    rw [c2]
    show ((writeResponse b status results s).buffer c).desc.uptime = _
    rw [hbuf c hcb]
  have hUs : Settled U := by
    refine h.2.2.congr ?_ ?_ ?_ ?_ ?_ ?_ ?_ hup
    all_goals (rw [c2]; rfl)
  have hc : consequence T = some U := by
    rw [consequence_closing (s := s) ?_ ?_ ?_ ?_ ?_ ?_ h.2.2, hTU]
    any_goals (rw [c1]; rfl)
    · rw [c1]
      unfold beginCommand
      simp only [State.setTx_agent]
      have : (writeResponse b status results (s.setStore { s.store with port := .closing })).agent = s.agent := rfl
      rw [this, he, hi]
    · intro p c m
      have := hup p c m
      rw [← this, ← hTU]
      rfl
  show settleFor (1023 + 1) T = U
  rw [settleFor_succ _ hc, settleFor_settled _ hUs]

/-- A command whose first access begins with it, at a gate whose port is at rest. -/
theorem sendCommand_begins {h : CmdHead} {b : BufId} {rest : List BufId} {payload : List Byte} {job : Job}
    {s y : State} (hr : CommandReady h b rest s) (hn : payload.length ≤ 200)
    (hbegin : startCommand b (received h b rest payload s) = beginJob b job y) (hy : PortAtRest y) :
    sendCommand h payload s = granted b job y := by
  rw [sendCommand_ready hr hn, hbegin]
  exact settleFor_begin 1021 hy

/-- The gate after the reload of a command that makes accesses is at rest when it was before. -/
theorem reload_atRest {h : CmdHead} {b : BufId} {rest : List BufId} {payload : List Byte} {s : State}
    (hr : CommandReady h b rest s) (hf : s.store.port = .free) :
    PortAtRest (reload (received h b rest payload s)) :=
  ⟨hr.2.2.2.2.2.1, hf, by
    rw [reload_received]
    exact settled_received (x := Reloaded s) hr rfl rfl rfl rfl rfl rfl rfl⟩

/-- A command of one access: what is left to show is what the conclusion of its access does. -/
theorem completes_one {c : Instr} {h : CmdHead} {b : BufId} {rest : List BufId} {payload : List Byte} {job : Job}
    {s x : State} {status : Status} {results : List Byte} (hc : exec c s = .next (sendCommand h payload s))
    (hr : CommandReady h b rest s) (hf : s.store.port = .free) (hroom : RoomToAnswer h s)
    (hn : payload.length ≤ 200)
    (hbegin : startCommand b (received h b rest payload s) =
      beginJob b job (reload (received h b rest payload s)))
    (hconc : concludeJob b job s.store.active
        (closing b job (atAccess job (reload (received h b rest payload s)))) =
      complete b status results (closing b job
        { x with pool := (received h b rest payload s).pool, rx := (received h b rest payload s).rx }))
    (hx : PortAtRest { x with
      pool := (received h b rest payload s).pool, rx := (received h b rest payload s).rx })
    (hj : x.judges = s.judges) (ht : x.tx = s.tx) (ho : x.ownAddr = s.ownAddr) (he : x.agent.exec = none)
    (hi : x.agent.inbox = []) (hd : ∀ i, x.commit.phase ≠ .due i) :
    CompletesAfter 1 c h b rest (responseCode payload) status results s x := by
  obtain ⟨h1, h2, h3, h4⟩ := complete_answers (b := b) (rest := rest) status results hroom hn ht ho he hd _ rfl
  refine ⟨granted b job (reload (received h b rest payload s)), _, ?_, ⟨_, ?_, rfl⟩, h1, h2, h3, h4⟩
  · rw [hc, sendCommand_begins hr hn hbegin (reload_atRest hr hf)]
  · rw [access_concludes]
    congr 1
    rw [show (reload (received h b rest payload s)).store.active = s.store.active from rfl, hconc]
    refine settle_complete hx he hi hd ?_ ?_
    · intro p m
      rw [show PerPort.get ({ x with pool := (received h b rest payload s).pool
                                     rx := (received h b rest payload s).rx } : State).judges p =
        s.judges.get p from by rw [← hj]] at m
      exact free_not_judged hr.2.2.2.2.2.2.2.2.2.1 (by rw [hr.2.1]; exact List.mem_cons_self) p m
    · have e1 := received_buffer h b rest payload s
      have e2 : ({ x with pool := (received h b rest payload s).pool
                          rx := (received h b rest payload s).rx } : State).buffer b =
          (received h b rest payload s).buffer b := rfl
      rw [e2, e1]
      show (x.tx.get h.port).normal.length < 16
      rw [ht]
      exact hroom

end Sys2Proof.Machine
end

