-- ==== Sys2Proof/Laws/Requests.lean ====
section
/-! SUPPORT. When only the arbiter, the Judges' slots and the rejudge requests have something to do at an event
(log 14), all that follows changes nothing else. -/

namespace Sys2Proof.Machine

/-- Nothing but a grant, a rejudge request, a slot taken or the release of the port can follow. -/
structure OnlyRequests (s : State) : Prop where
  bindings : ∀ p, endReached p s = none
  commands : beginCommand s = none
  arrivals : ∀ p, takeArrival p s = none

theorem Settled.onlyRequests {s : State} (h : Settled s) : OnlyRequests s :=
  ⟨h.endReached, h.beginCommand, h.takeArrival⟩

theorem WithRequests.refl (s : State) : WithRequests s s := rfl

theorem WithRequests.trans {s t u : State} (a : WithRequests s t) (b : WithRequests t u) : WithRequests s u := by
  unfold WithRequests at *
  rw [b, a]

/-- What a grant to the Agent writes reads none of the requests. -/
theorem WithRequests.written {s t : State} (a : WithRequests s t) :
    WithRequests (WrittenAtGrant s) (WrittenAtGrant t) := by
  unfold WithRequests at a
  rw [a]
  unfold WrittenAtGrant
  simp only
  cases s.agent.exec with
  | none => rfl
  | some x =>
    obtain ⟨b, job⟩ := x
    cases job <;> rfl

/-- What a grant to the Agent writes leaves every request as it is. -/
theorem writtenAtGrant_requests (s : State) :
    (WrittenAtGrant s).store.agentRequest = s.store.agentRequest ∧ (WrittenAtGrant s).judges = s.judges ∧
      (WrittenAtGrant s).hold = s.hold ∧ (WrittenAtGrant s).agent = s.agent ∧ (WrittenAtGrant s).pool = s.pool ∧
      (WrittenAtGrant s).store.phase = s.store.phase := by
  unfold WrittenAtGrant
  split <;> exact ⟨rfl, rfl, rfl, rfl, rfl, rfl⟩

/-- A change of the requests alone, the Agent's apart. -/
theorem WithRequests.butFor {s t : State} (a : WithRequests s t)
    (h : t.store.agentRequest = s.store.agentRequest) : ButForRequests s t := by
  refine ⟨fun x => by rw [← h]; exact x, ?_⟩
  rw [if_neg]
  · exact a
  · rw [h]
    rintro ⟨h1, h2⟩
    rw [h1] at h2
    cases h2

/-- A grant of the Agent's request. -/
theorem WithRequests.granted {s t : State} (a : WithRequests (WrittenAtGrant s) t)
    (h1 : s.store.agentRequest = true) (h2 : t.store.agentRequest = false) : ButForRequests s t :=
  ⟨fun _ => h1, by rw [if_pos ⟨h1, h2⟩]; exact a⟩

theorem ButForRequests.refl (s : State) : ButForRequests s s := WithRequests.butFor rfl rfl

theorem ButForRequests.trans {s t u : State} (a : ButForRequests s t) (b : ButForRequests t u) :
    ButForRequests s u := by
  obtain ⟨a1, a2⟩ := a
  obtain ⟨b1, b2⟩ := b
  refine ⟨fun h => a1 (b1 h), ?_⟩
  cases ht : t.store.agentRequest with
  | true =>
    have hs := a1 ht
    rw [if_neg (by rw [ht]; rintro ⟨_, h⟩; cases h)] at a2
    cases hu : u.store.agentRequest with
    | true =>
      rw [if_neg (by rw [hu]; rintro ⟨_, h⟩; cases h)] at b2
      rw [if_neg (by rintro ⟨_, h⟩; cases h)]
      exact a2.trans b2
    | false =>
      rw [if_pos ⟨ht, hu⟩] at b2
      rw [if_pos ⟨hs, rfl⟩]
      exact a2.written.trans b2
  | false =>
    have hu : u.store.agentRequest = false := by
      cases h : u.store.agentRequest with
      | false => rfl
      | true => rw [ht] at b1; exact absurd (b1 h) (by decide)
    rw [if_neg (by rw [ht]; rintro ⟨h, _⟩; cases h)] at b2
    rw [ht] at a2
    rw [hu]
    exact a2.trans b2

/-- What `OnlyRequests` reads. -/
theorem OnlyRequests.congr {s t : State} (h : OnlyRequests s) (hp : t.store.phase = s.store.phase)
    (ha : t.agent = s.agent) (hb : t.pool = s.pool)
    (hj : ∀ p, (t.judges.get p).bind = (s.judges.get p).bind ∧
      (t.judges.get p).arrivals = (s.judges.get p).arrivals ∧
      judgedBuffer (t.judges.get p).phase = judgedBuffer (s.judges.get p).phase ∧
      ((t.judges.get p).phase = .idle → (s.judges.get p).phase = .idle)) : OnlyRequests t := by
  have hbuf : ∀ c, t.buffer c = s.buffer c := by
    intro c
    simp only [State.buffer, hb]
  refine ⟨?_, ?_, ?_⟩
  · intro p
    refine endReached_none_congr p (hj p).1 (fun d x => ?_) (h.bindings p)
    have e : arrivedBy t d = arrivedBy s d := by
      funext c
      simp only [arrivedBy, hbuf]
    unfold someWaiting at x ⊢
    rw [(hj p).2.1, (hj p).2.2.1, e]
    exact x
  · exact beginCommand_none_congr (by rw [ha]) (by rw [ha]) hp h.commands
  · intro p
    have h1 := h.arrivals p
    cases hk : (t.judges.get p).phase with
    | waiting x => unfold takeArrival; rw [hk]
    | lookup x y => unfold takeArrival; rw [hk]
    | idle =>
      have hi := (hj p).2.2.2 hk
      cases hl : (s.judges.get p).arrivals with
      | nil =>
        unfold takeArrival
        rw [hk, (hj p).2.1, hl]
      | cons c l =>
        unfold takeArrival at h1
        rw [hi, hl] at h1
        simp only at h1
        split at h1 <;> cases h1

/-- A Judge changed in its phase and slot alone, its telegram in judgement the same. -/
theorem onlyRequests_mapJudge {s : State} (h : OnlyRequests s) (p : Port) (f : Judge → Judge)
    (h1 : (f (s.judges.get p)).bind = (s.judges.get p).bind)
    (h2 : (f (s.judges.get p)).arrivals = (s.judges.get p).arrivals)
    (h3 : judgedBuffer (f (s.judges.get p)).phase = judgedBuffer (s.judges.get p).phase)
    (h4 : (f (s.judges.get p)).phase = .idle → (s.judges.get p).phase = .idle) :
    OnlyRequests (s.mapJudge p f) ∧ ButForRequests s (s.mapJudge p f) := by
  refine ⟨h.congr rfl rfl rfl ?_, WithRequests.butFor ?_ rfl⟩
  · intro q
    have e : (s.mapJudge p f).judges = s.judges.set p (f (s.judges.get p)) := rfl
    rw [e, PerPort.get_set]
    split
    · rename_i hq
      rw [hq]
      exact ⟨h1, h2, h3, h4⟩
    · exact ⟨rfl, rfl, rfl, id⟩
  · have e : f (s.judges.get p) = { s.judges.get p with
        phase := (f (s.judges.get p)).phase, slot := (f (s.judges.get p)).slot } := by
      generalize f (s.judges.get p) = j at *
      cases j
      simp only at h1 h2
      rw [h1, h2]
    unfold WithRequests State.mapJudge
    rw [e]
    cases p <;> rfl

/-- The port and the grant counts of the Table Store changed. -/
theorem onlyRequests_setPort {s : State} (h : OnlyRequests s) (t : TableStore)
    (ht : t = { s.store with port := t.port, waitCount := t.waitCount, lastJudge := t.lastJudge }) :
    OnlyRequests (s.setStore t) ∧ ButForRequests s (s.setStore t) := by
  refine ⟨h.congr (by rw [State.setStore_store, ht]) rfl rfl (fun _ => ⟨rfl, rfl, rfl, id⟩),
    WithRequests.butFor ?_ (by rw [State.setStore_store, ht])⟩
  have hr : t.agentRequest = s.store.agentRequest := by rw [ht]
  unfold WithRequests State.setStore
  simp only
  rw [hr]
  conv_lhs => rw [ht]

/-- The requests at the Hold Queue changed. -/
theorem onlyRequests_setOutstanding {s : State} (h : OnlyRequests s) (x : PerPort (Option Request)) :
    OnlyRequests (s.setHold { s.hold with outstanding := x }) ∧
      ButForRequests s (s.setHold { s.hold with outstanding := x }) :=
  ⟨h.congr rfl rfl rfl (fun _ => ⟨rfl, rfl, rfl, id⟩), WithRequests.butFor rfl rfl⟩

theorem beginLookup_same (bank : Bank) (j : Judge) :
    (beginLookup bank j).bind = j.bind ∧ (beginLookup bank j).arrivals = j.arrivals ∧
      judgedBuffer (beginLookup bank j).phase = judgedBuffer j.phase ∧
      ((beginLookup bank j).phase = .idle → j.phase = .idle) := by
  unfold beginLookup
  split
  · rename_i it hp
    refine ⟨rfl, rfl, ?_, fun x => by cases x⟩
    rw [hp]
    cases it <;> rfl
  · exact ⟨rfl, rfl, rfl, id⟩
  · exact ⟨rfl, rfl, rfl, id⟩

/-- The arbiter grants the Agent only what it has asked for. -/
theorem arbiterChoice_agent {s : State} {a : Bank} (h : arbiterChoice s = some (.agent a)) :
    s.store.agentRequest = true ∧ a = s.store.active := by
  unfold arbiterChoice at h
  split at h
  · cases h
  · split at h
    · rename_i h1
      cases h
      exact ⟨(Bool.and_eq_true _ _ ▸ h1).1, rfl⟩
    · split at h
      · cases h
      · split at h
        · rename_i h1
          cases h
          exact ⟨h1, rfl⟩
        · split at h <;> cases h

/-- The grant of the Agent's request. -/
theorem grantTo_agent {s : State} (h : OnlyRequests s) (hr : s.store.agentRequest = true) :
    OnlyRequests (grantTo (.agent s.store.active) s) ∧ ButForRequests s (grantTo (.agent s.store.active) s) := by
  have e : grantTo (.agent s.store.active) s = WrittenAtGrant (s.setStore { s.store with
      port := .agent s.store.active, agentRequest := false, waitCount := 0 }) := by
    unfold grantTo grantedWrite WrittenAtGrant
    simp only [State.setStore]
    cases s.agent.exec with
    | none => rfl
    | some x =>
      obtain ⟨b, job⟩ := x
      cases job <;> rfl
  have w : WithRequests s (s.setStore { s.store with
      port := .agent s.store.active, agentRequest := false, waitCount := 0 }) := rfl
  have q := writtenAtGrant_requests (s.setStore { s.store with
      port := .agent s.store.active, agentRequest := false, waitCount := 0 })
  rw [e]
  refine ⟨h.congr q.2.2.2.2.2 q.2.2.2.1 q.2.2.2.2.1 (fun p => ?_), w.written.granted hr q.1⟩
  rw [q.2.1]
  exact ⟨rfl, rfl, rfl, id⟩

theorem grant_requests {s t : State} (h : OnlyRequests s) (hg : grant s = some t) :
    OnlyRequests t ∧ ButForRequests s t := by
  unfold grant at hg
  split at hg
  · cases ha : arbiterChoice s with
    | none => rw [ha] at hg; cases hg
    | some u =>
      rw [ha] at hg
      simp only [Option.map_some, Option.some.injEq] at hg
      rw [← hg]
      cases u with
      | judge p =>
        have hb := beginLookup_same s.store.active (s.judges.get p)
        obtain ⟨a1, a2⟩ := onlyRequests_mapJudge h p (beginLookup s.store.active) hb.1 hb.2.1 hb.2.2.1 hb.2.2.2
        obtain ⟨b1, b2⟩ := onlyRequests_setPort a1
          { s.store with port := .judge p, lastJudge := p, waitCount := nextWait s.store } rfl
        exact ⟨b1, a2.trans b2⟩
      | agent a =>
        obtain ⟨hr, rfl⟩ := arbiterChoice_agent ha
        exact grantTo_agent h hr
      | scrub => exact onlyRequests_setPort h _ rfl
      | free => exact ⟨h, .refl s⟩
      | closing => exact ⟨h, .refl s⟩
      | sweep => exact ⟨h, .refl s⟩
  · cases hg

theorem placeRequest_requests {s t : State} (p : Port) (h : OnlyRequests s) (hg : placeRequest p s = some t) :
    OnlyRequests t ∧ ButForRequests s t := by
  unfold placeRequest at hg
  split at hg
  · rename_i r hr1 hr2
    simp only [Option.some.injEq] at hg
    rw [← hg]
    obtain ⟨a1, a2⟩ := onlyRequests_mapJudge h p (fun j => { j with slot := some r.ref }) rfl rfl rfl id
    obtain ⟨b1, b2⟩ := onlyRequests_setOutstanding a1
      ((s.mapJudge p fun j => { j with slot := some r.ref }).hold.outstanding.set p (some ⟨r.ref, false⟩))
    exact ⟨b1, a2.trans b2⟩
  · cases hg

theorem takeSlot_requests {s t : State} (p : Port) (h : OnlyRequests s) (hg : takeSlot p s = some t) :
    OnlyRequests t ∧ ButForRequests s t := by
  unfold takeSlot at hg
  split at hg
  · rename_i ref hp hs
    obtain ⟨a1, a2⟩ := onlyRequests_mapJudge h p (fun j => { j with slot := none }) rfl rfl rfl id
    simp only at hg
    split at hg
    · rename_i r hr
      simp only [Option.some.injEq] at hg
      rw [← hg]
      have hq : (PerPort.get (s.mapJudge p fun j => { j with slot := none }).judges p).phase = .idle := by
        simp [State.mapJudge, hp]
      obtain ⟨b1, b2⟩ := onlyRequests_mapJudge a1 p
        (fun j => { j with phase := .waiting (.rejudge ref (keyOf p (s.buffer r.buffer).bytes)) }) rfl rfl
        (by rw [hq]; rfl) (fun x => by cases x)
      exact ⟨b1, a2.trans b2⟩
    · simp only [Option.some.injEq] at hg
      rw [← hg]
      obtain ⟨b1, b2⟩ := onlyRequests_setOutstanding a1
        ((s.mapJudge p fun j => { j with slot := none }).hold.outstanding.set p none)
      exact ⟨b1, a2.trans b2⟩
  · cases hg

theorem openPort_requests {s t : State} (h : OnlyRequests s) (hg : openPort s = some t) :
    OnlyRequests t ∧ ButForRequests s t := by
  unfold openPort at hg
  split at hg
  · simp only [Option.some.injEq] at hg
    rw [← hg]
    exact onlyRequests_setPort h _ rfl
  all_goals cases hg

theorem orElse_some {α : Type} {a b : Option α} {x : α} (h : (a <|> b) = some x) : a = some x ∨ b = some x := by
  cases a with
  | none => exact .inr h
  | some y => exact .inl h

/-- One consequence, where only requests follow. -/
theorem consequence_requests {s t : State} (h : OnlyRequests s) (hc : consequence s = some t) :
    OnlyRequests t ∧ ButForRequests s t := by
  unfold consequence at hc
  rw [h.bindings, h.bindings, h.commands, h.arrivals, h.arrivals] at hc
  rcases orElse_some hc with hc | hc
  · exact grant_requests h hc
  · change (placeRequest .n s <|> placeRequest .f s <|> takeSlot .n s <|> takeSlot .f s <|> openPort s) = some t at hc
    rcases orElse_some hc with hc | hc
    · exact placeRequest_requests .n h hc
    · rcases orElse_some hc with hc | hc
      · exact placeRequest_requests .f h hc
      · rcases orElse_some hc with hc | hc
        · exact takeSlot_requests .n h hc
        · rcases orElse_some hc with hc | hc
          · exact takeSlot_requests .f h hc
          · exact openPort_requests h hc

/-- All that follows an event where only requests follow: nothing but the requests, the grants and the Judges'
phases and slots changes. -/
theorem settleFor_requests (n : Nat) {s : State} (h : OnlyRequests s) : ButForRequests s (settleFor n s) := by
  induction n generalizing s with
  | zero => exact .refl s
  | succ n ih =>
    unfold settleFor
    split
    · rename_i t hc
      obtain ⟨a, b⟩ := consequence_requests h hc
      exact b.trans (ih a)
    · exact .refl s

theorem settle_requests {s : State} (h : OnlyRequests s) : ButForRequests s (settle s) := settleFor_requests _ h

end Sys2Proof.Machine
end

