-- ==== Sys2Proof/Laws/Uptimes.lean ====
section
/-! SUPPORT. Telling a flag and handing over a record change no arrival uptime of a buffer, so nothing follows from
them that did not follow before (log 14). -/

namespace Sys2Proof.Machine

/-- The arrival uptimes of all buffers are the same. -/
def SameUptimes (s t : State) : Prop := ∀ c, (t.buffer c).desc.uptime = (s.buffer c).desc.uptime

theorem SameUptimes.refl (s : State) : SameUptimes s s := fun _ => rfl

theorem SameUptimes.trans {s t u : State} (a : SameUptimes s t) (b : SameUptimes t u) : SameUptimes s u :=
  fun c => (b c).trans (a c)

theorem SameUptimes.ofBuffers {s t : State} (h : t.pool.buffers = s.pool.buffers) : SameUptimes s t := by
  intro c
  simp only [State.buffer, h]

theorem setBuffer_uptimes (b : BufId) (x : Buffer) (s : State) (h : x.desc.uptime = (s.buffer b).desc.uptime) :
    SameUptimes s (s.setBuffer b x) := by
  intro c
  by_cases hc : c = b
  · rw [hc, ← h]
    simp [State.setBuffer, State.buffer]
  · have : (b : Nat) ≠ c := fun e => hc (Fin.ext e.symm)
    simp [State.setBuffer, State.buffer, Vector.getElem_set_ne, this]

theorem claim_uptimes {b : BufId} {s t : State} (h : claim s = some (b, t)) : SameUptimes s t := by
  unfold claim at h
  split at h
  · cases h
  · simp only [Option.some.injEq, Prod.mk.injEq] at h
    rw [← h.2]
    exact .ofBuffers rfl

theorem release_uptimes (b : BufId) (s : State) : SameUptimes s (release b s) := .ofBuffers rfl

theorem txAppend_uptimes {p : Port} {k : ListKind} {b : BufId} {s t : State} (h : txAppend p k b s = some t) :
    SameUptimes s t := by
  unfold txAppend at h
  split at h
  · simp only [Option.some.injEq] at h
    rw [← h]
    exact .ofBuffers rfl
  · cases h

theorem sendReport_uptimes (f : Flag) (s : State) : SameUptimes s (sendReport f s) := by
  unfold sendReport
  split
  · exact .refl s
  · simp only
    split
    · exact .ofBuffers rfl
    · rename_i b s2 hc
      have h1 := claim_uptimes hc
      have h2 : SameUptimes s s2 := SameUptimes.trans (.ofBuffers rfl) h1
      split
      · rename_i s4 ht
        refine SameUptimes.trans ?_ (txAppend_uptimes ht)
        refine h2.trans (setBuffer_uptimes _ _ _ ?_)
        rfl
      · refine SameUptimes.trans ?_ (release_uptimes _ _)
        refine h2.trans (setBuffer_uptimes _ _ _ ?_)
        rfl

theorem tell_uptimes (f : Flag) (s : State) : SameUptimes s (tell f s) := by
  unfold tell
  split
  · exact .refl s
  · exact SameUptimes.trans (.ofBuffers rfl) (sendReport_uptimes _ _)

theorem appendRecord_uptimes (r : ExcRecord) (s : State) : SameUptimes s (appendRecord r s) := by
  unfold appendRecord
  split
  · exact SameUptimes.trans (.ofBuffers rfl) (tell_uptimes _ _)
  · exact .ofBuffers rfl

theorem loseRecord_uptimes (s : State) : SameUptimes s (loseRecord s) :=
  SameUptimes.trans (.ofBuffers rfl) (tell_uptimes _ _)

theorem handOver_uptimes (h : Handed) (s : State) : SameUptimes s (handOver h s) := by
  unfold handOver
  simp only
  split
  · exact appendRecord_uptimes _ _
  · split
    · split
      · exact loseRecord_uptimes _
      · exact .ofBuffers rfl
    · split
      · exact loseRecord_uptimes _
      · exact appendRecord_uptimes _ _

/-- What leaves all but the pool, the Transmit Units and the Exception Unit, and the arrival uptimes, leaves a
settled state settled. -/
theorem Settled.out {s t : State} (h : Settled s) (a : SameButOut s t) (b : SameUptimes s t) : Settled t :=
  h.congr a.store a.judges (by rw [a.hold]) (by rw [a.hold]) (by rw [a.agent]) (by rw [a.agent])
    (by rw [a.agent]) (fun _ c _ => b c)

theorem Settled.tell {s : State} (h : Settled s) (f : Flag) : Settled (tell f s) :=
  h.out (tell_out f s) (tell_uptimes f s)

theorem Settled.handOver {s : State} (h : Settled s) (x : Handed) : Settled (handOver x s) :=
  h.out (handOver_out x s) (handOver_uptimes x s)

/-- The same for a state where only requests can follow. -/
theorem OnlyRequests.out {s t : State} (h : OnlyRequests s) (a : SameButOut s t) (b : SameUptimes s t) :
    OnlyRequests t := by
  refine ⟨fun p => ?_, ?_, fun p => ?_⟩
  · exact endReached_none_congr p (by rw [a.judges])
      (fun d x => by rw [someWaiting_congr p d a.judges (fun c _ => b c)]; exact x) (h.bindings p)
  · exact beginCommand_none_congr (by rw [a.agent]) (by rw [a.agent]) (by rw [a.store]) h.commands
  · exact takeArrival_none_congr p (by rw [a.judges]) (h.arrivals p)

end Sys2Proof.Machine
end

