-- ==== Sys2Proof/Laws/Removals.lean ====
section
/-! SUPPORT. The removals of R105 as the statements say them: each operation of the Hold Queue that takes a record out
is the state Safety.lean writes out for it; and the minute boundary at one block and at both. -/

namespace Sys2Proof.Machine

/-! ### One removal -/

theorem takeOut_eq (r : HeldRecord) (reason : Reason) (index : Option Index) (s : State) :
    takeOut r reason index s = TakenOut reason index r s := rfl

theorem withdraw_eq (r : HeldRecord) (s : State) : withdraw r s = Withdrawn r.port r.ref s := by
  unfold withdraw Withdrawn
  split <;> rfl

/-- Where the binding of a Judge refers to the record it is closed; else it is as it was. -/
theorem mapJudge_unbound (p : Port) (n : Nat) (s : State) :
    (if references (s.judges.get p).bind n then s.mapJudge p fun j => { j with bind := none } else s) =
      Unbound p n s := by
  have keep : s = { s with judges := s.judges.set p { s.judges.get p with bind := (s.judges.get p).bind } } := by
    rw [show ({ s.judges.get p with bind := (s.judges.get p).bind } : Judge) = s.judges.get p from rfl,
      PerPort.set_get]
  unfold references Unbound
  cases hb : (s.judges.get p).bind with
  | none =>
    rw [hb] at keep
    simpa using keep
  | some c =>
    by_cases ho : c.outcome = .held n
    · simp [ho, State.mapJudge, State.setJudges]
    · rw [hb] at keep
      simpa [ho] using keep

theorem reportFate_eq (r : HeldRecord) (s : State) :
    reportFate r s = if r.awaiting then Unbound r.port r.ref s else s := by
  rw [← mapJudge_unbound]
  unfold reportFate
  cases r.awaiting <;> simp

theorem takeOutPartner_eq (r : HeldRecord) (s : State) :
    takeOutPartner r s = match s.hold.records.find? fun q => r.partnerRef == some q.ref with
      | some q => TakenOut .boundBroken q.index q s
      | none => s := by
  unfold takeOutPartner State.heldRecord
  cases r.partnerRef with
  | none =>
    have h : s.hold.records.find? (fun q => (none : Option Nat) == some q.ref) = none := by
      rw [List.find?_eq_none]
      intro q _
      simp
    simp only [h]
  | some n =>
    have h : (fun q : HeldRecord => (some n : Option Nat) == some q.ref) = fun q => q.ref == n := by
      funext q
      exact Bool.eq_iff_iff.2 ⟨fun e => by simpa using (of_decide_eq_true (by simpa using e) : n = q.ref).symm,
        fun e => by simpa using (eq_of_beq e).symm⟩
    simp only [h]
    cases s.hold.records.find? (fun q => q.ref == n) <;> rfl

/-- A removal of a first record is the one R105 describes. -/
theorem removeFirst_eq (reason : Reason) (r : HeldRecord) (s : State) :
    removeFirst r reason r.index s = Removed reason r s := by
  unfold removeFirst Removed
  rw [withdraw_eq, reportFate_eq, takeOutPartner_eq, takeOut_eq] <;> rfl

/-! ### What a removal leaves of the hold order -/

@[simp] theorem TakenOut_records (reason : Reason) (index : Option Index) (r : HeldRecord) (s : State) :
    (TakenOut reason index r s).hold.records = s.hold.records.filter fun q => q.ref != r.ref :=
  congrArg HoldQueue.records (handOver_out _ _).hold

@[simp] theorem Unbound_hold (p : Port) (n : Nat) (s : State) : (Unbound p n s).hold = s.hold := rfl

@[simp] theorem Withdrawn_records (p : Port) (n : Nat) (s : State) :
    (Withdrawn p n s).hold.records = s.hold.records := by
  unfold Withdrawn
  split <;> rfl

/-- A removal takes out its record and at most the partner it names; every other record stays. -/
theorem mem_removed {reason : Reason} {r q : HeldRecord} {s : State} (hq : q ∈ s.hold.records) (hr : q.ref ≠ r.ref)
    (hp : r.partnerRef ≠ some q.ref) : q ∈ (Removed reason r s).hold.records := by
  unfold Removed
  simp only [Withdrawn_records, apply_ite State.hold, Unbound_hold, ite_self, TakenOut_records]
  split
  · rename_i x hx
    have := List.find?_some hx
    have hn : q.ref ≠ x.ref := fun e => hp (by rw [e]; exact eq_of_beq this)
    simp [TakenOut_records, hq, hr, hn]
  · simp [TakenOut_records, hq, hr]

/-- A removal only takes records out. -/
theorem removed_sublist (reason : Reason) (r : HeldRecord) (s : State) :
    (Removed reason r s).hold.records.Sublist s.hold.records := by
  unfold Removed
  simp only [Withdrawn_records, apply_ite State.hold, Unbound_hold, ite_self]
  split
  · rw [TakenOut_records, TakenOut_records]
    exact List.filter_sublist.trans List.filter_sublist
  · rw [TakenOut_records]
    exact List.filter_sublist

/-! ### Removals one after another -/

/-- The record of a reference is the one that has it, where the references are distinct. -/
theorem heldRecord_mem {s : State} {r : HeldRecord} (hn : (s.hold.records.map (·.ref)).Nodup)
    (hr : r ∈ s.hold.records) : s.heldRecord r.ref = some r := by
  unfold State.heldRecord
  generalize s.hold.records = l at hn hr
  induction l with
  | nil => cases hr
  | cons a l ih =>
    rw [List.map_cons, List.nodup_cons] at hn
    rcases List.mem_cons.1 hr with rfl | hm
    · simp
    · have : a.ref ≠ r.ref := fun e => hn.1 (e ▸ List.mem_map_of_mem hm)
      simp [this, ih hn.2 hm]

theorem removeRef_eq {reason : Reason} {r : HeldRecord} {s : State} (hn : (s.hold.records.map (·.ref)).Nodup)
    (hr : r ∈ s.hold.records) : removeRef reason s r.ref = Removed reason r s := by
  unfold removeRef
  rw [heldRecord_mem hn hr]
  exact removeFirst_eq reason r s

/-- Records removed by their references, where none is the partner of another. -/
theorem removeRefs_eq (reason : Reason) (l : List HeldRecord) : ∀ s : State,
    (s.hold.records.map (·.ref)).Nodup → (l.map (·.ref)).Nodup → (∀ r ∈ l, r ∈ s.hold.records) →
    (∀ r ∈ l, ∀ q ∈ l, r.partnerRef ≠ some q.ref) →
    (l.map (·.ref)).foldl (removeRef reason) s = l.foldl (fun u r => Removed reason r u) s := by
  induction l with
  | nil => exact fun _ _ _ _ _ => rfl
  | cons a l ih =>
    intro s hs hl hm hp
    rw [List.map_cons, List.nodup_cons] at hl
    rw [List.map_cons, List.foldl_cons, List.foldl_cons, removeRef_eq hs (hm a (List.mem_cons_self ..))]
    refine ih _ (hs.sublist ((removed_sublist reason a s).map _)) hl.2 (fun r hr => ?_) fun r hr q hq =>
      hp r (List.mem_cons_of_mem _ hr) q (List.mem_cons_of_mem _ hq)
    exact mem_removed (hm r (List.mem_cons_of_mem _ hr)) (fun e => hl.1 (e ▸ List.mem_map_of_mem hr))
      (hp a (List.mem_cons_self ..) r (List.mem_cons_of_mem _ hr))

/-- The removals of one event are those R105 describes, one after another in hold order. -/
theorem removeAll_eq (reason : Reason) (pick : HeldRecord → FirstPart → Bool) {s : State} (hs : RefsDistinct s)
    (hp : PartnersLinked s) : removeAll reason pick s = AllRemoved reason pick s := by
  have e : removeAll reason pick s = ((s.hold.records.filter fun r => match r.role with
      | .first f => pick r f
      | .partner _ => false).map (·.ref)).foldl (removeRef reason) s := by
    unfold removeAll
    congr 2
    refine List.filter_congr fun r _ => ?_
    unfold HeldRecord.firstPart
    cases r.role <;> rfl
  rw [e]
  unfold AllRemoved
  refine removeRefs_eq reason _ s hs.1 (hs.1.sublist (List.filter_sublist.map _))
    (fun r hr => (List.mem_filter.1 hr).1) fun r hr q hq hrq => ?_
  obtain ⟨x, hx, hxr, hxp⟩ := hp.1 r (List.mem_filter.1 hr).1 _ hrq
  have hxq : x = q := Option.some.inj <| by
    rw [← heldRecord_mem hs.1 hx, hxr, heldRecord_mem hs.1 (List.mem_filter.1 hq).1]
  have := (List.mem_filter.1 hq).2
  rw [← hxq, hxp] at this
  cases this

/-! ### The request that follows -/

theorem placeRequest_eq (p : Port) (s : State) : (placeRequest p s).getD s = Requested p s := by
  unfold placeRequest Requested nextPending
  cases s.hold.outstanding.get p with
  | some _ => rfl
  | none => cases s.hold.records.find? fun r => r.isFirst && r.pending && r.port == p <;> rfl

/-! ### The minute boundary (R58, R81) -/

theorem takeWindowMinute_none {s : State} (h : s.cal.windowMinute = none) : takeWindowMinute s = s := by
  unfold takeWindowMinute
  rw [h]

theorem takeCommitMinute_none {s : State} (h : s.cal.commitMinute = none) : takeCommitMinute s = s := by
  unfold takeCommitMinute
  rw [h]

theorem takeMinute_evaluationFirst (s : State) :
    takeMinute .evaluationFirst s = takeMinute .commitAlone (takeMinute .evaluationAlone s) := rfl

theorem takeMinute_commitFirst (s : State) :
    takeMinute .commitFirst s = takeMinute .evaluationAlone (takeMinute .commitAlone s) := rfl

end Sys2Proof.Machine
end

