-- ==== Sys2Proof/Laws/Following.lean ====
section
/-! SUPPORT. What follows an event where only the arbiter, the rejudge requests and the Judges that take them have
something to do: it ends within ten consequences, and leaves of each port's request what RequestLeft says. -/

namespace Sys2Proof.Machine

/-! ### One consequence -/

/-- Which consequence is taken, where only requests follow. -/
theorem consequence_cases {s t : State} (h : OnlyRequests s) (hc : consequence s = some t) :
    grant s = some t ∨ (∃ p, placeRequest p s = some t) ∨
      (∃ p, (∀ q, placeRequest q s = none) ∧ takeSlot p s = some t) ∨ openPort s = some t := by
  unfold consequence at hc
  rw [h.bindings, h.bindings, h.commands, h.arrivals, h.arrivals] at hc
  rcases orElse_some hc with hc | hc
  · exact .inl hc
  · change (placeRequest .n s <|> placeRequest .f s <|> takeSlot .n s <|> takeSlot .f s <|> openPort s) = some t at hc
    cases hn : placeRequest .n s with
    | some u => rw [hn] at hc; exact .inr (.inl ⟨.n, hn.trans hc⟩)
    | none =>
      cases hf : placeRequest .f s with
      | some u => rw [hn, hf] at hc; exact .inr (.inl ⟨.f, hf.trans hc⟩)
      | none =>
        rw [hn, hf] at hc
        change (takeSlot .n s <|> takeSlot .f s <|> openPort s) = some t at hc
        have hq : ∀ q, placeRequest q s = none := fun q => by cases q <;> assumption
        rcases orElse_some hc with hc | hc
        · exact .inr (.inr (.inl ⟨.n, hq, hc⟩))
        · rcases orElse_some hc with hc | hc
          · exact .inr (.inr (.inl ⟨.f, hq, hc⟩))
          · exact .inr (.inr (.inr hc))

/-- What a Judge becomes at a grant: itself, or the one that waits in LOOKUP. -/
def Granted (a : Bank) (j k : Judge) : Prop := k = j ∨ ∃ it, j.phase = .waiting it ∧ k = { j with phase := .lookup it a }

theorem Granted.trans {a : Bank} {j k l : Judge} (h : Granted a j k) (g : Granted a k l) : Granted a j l := by
  rcases h with rfl | ⟨it, h, rfl⟩
  · exact g
  · rcases g with rfl | ⟨x, g, _⟩
    · exact .inr ⟨it, h, rfl⟩
    · cases g

theorem granted_beginLookup (a : Bank) (j : Judge) : Granted a j (beginLookup a j) := by
  unfold beginLookup
  split
  · rename_i it h
    exact .inr ⟨it, h, rfl⟩
  · exact .inl rfl
  · exact .inl rfl

/-- A grant leaves the requests, the held records and the buffers, and each Judge but for the lookup of one that waits;
the port is free no more. -/
theorem grant_leaves {s t : State} (h : grant s = some t) :
    t.hold = s.hold ∧ t.pool = s.pool ∧ t.store.active = s.store.active ∧
      (∀ p, Granted s.store.active (s.judges.get p) (t.judges.get p)) ∧ s.store.port = .free ∧
      t.store.port ≠ .free ∧ t.store.port ≠ .closing := by
  unfold grant at h
  split at h
  · rename_i hp
    cases ha : arbiterChoice s with
    | none => rw [ha] at h; cases h
    | some u =>
      rw [ha] at h
      simp only [Option.map_some, Option.some.injEq] at h
      subst h
      cases u with
      | judge p =>
        refine ⟨rfl, rfl, rfl, fun q => ?_, hp, nofun, nofun⟩
        simp only [grantTo, State.mapJudge, State.setStore_judges, State.setJudges_judges, PerPort.get_set]
        split
        · rename_i hq
          rw [hq]
          exact granted_beginLookup _ _
        · exact .inl rfl
      | agent a =>
        obtain ⟨_, rfl⟩ := arbiterChoice_agent ha
        unfold grantTo grantedWrite
        simp only
        split <;> exact ⟨rfl, rfl, rfl, fun _ => .inl rfl, hp, nofun, nofun⟩
      | scrub => exact ⟨rfl, rfl, rfl, fun _ => .inl rfl, hp, nofun, nofun⟩
      | free =>
        unfold arbiterChoice at ha
        grind
      | closing =>
        unfold arbiterChoice at ha
        grind
      | sweep =>
        unfold arbiterChoice at ha
        grind
  · cases h

/-- A request placed. -/
theorem placeRequest_some {p : Port} {s t : State} (h : placeRequest p s = some t) :
    s.hold.outstanding.get p = none ∧ ∃ r ∈ s.hold.records, t = { s with
      judges := s.judges.set p { s.judges.get p with slot := some r.ref }
      hold := { s.hold with outstanding := s.hold.outstanding.set p (some ⟨r.ref, false⟩) } } := by
  unfold placeRequest at h
  split at h
  · rename_i r h1 h2
    refine ⟨h1, r, List.mem_of_find?_eq_some h2, ?_⟩
    exact (Option.some.inj h).symm
  · cases h

/-- A request taken, of a record that is held or of one that has gone. -/
theorem takeSlot_some {p : Port} {s t : State} (h : takeSlot p s = some t) :
    (s.judges.get p).phase = .idle ∧ ∃ n, (s.judges.get p).slot = some n ∧
      ((∃ r, s.heldRecord n = some r ∧ t = { s with judges := s.judges.set p { s.judges.get p with
          slot := none
          phase := .waiting (.rejudge n (keyOf p (s.buffer r.buffer).bytes)) } }) ∨
        s.heldRecord n = none ∧ t = { s with
          judges := s.judges.set p { s.judges.get p with slot := none }
          hold := { s.hold with outstanding := s.hold.outstanding.set p none } }) := by
  unfold takeSlot at h
  split at h
  · rename_i n h1 h2
    refine ⟨h1, n, h2, ?_⟩
    simp only at h
    split at h
    · rename_i r hr
      refine .inl ⟨r, hr, ?_⟩
      rw [← Option.some.inj h]
      simp [setPhase, State.mapJudge, State.setJudges]
    · rename_i hr
      refine .inr ⟨hr, ?_⟩
      exact (Option.some.inj h).symm
  · cases h

/-! ### How long it lasts -/

/-- A request in a slot that names no held record. -/
def slotGone (p : Port) (s : State) : Bool :=
  match (s.judges.get p).slot with
  | some n => (s.heldRecord n).isNone
  | none => false

/-- What a port has still to do. -/
def workOf (p : Port) (s : State) : Nat :=
  (if s.hold.outstanding.get p = none then 1 else 0) + (if (s.judges.get p).phase = .idle then 1 else 0) +
    if slotGone p s then 2 else 0

/-- What the table port has still to do. -/
def portWork (u : PortUse) : Nat := if u = .closing then 2 else if u = .free then 1 else 0

/-- How many consequences may still follow. -/
def work (s : State) : Nat := workOf .n s + workOf .f s + portWork s.store.port

theorem work_le (s : State) : work s ≤ 10 := by
  unfold work workOf portWork
  split <;> split <;> split <;> split <;> split <;> split <;> (try split) <;> (try split) <;> omega

theorem workOf_congr {s t : State} {p : Port} (ho : t.hold.outstanding.get p = s.hold.outstanding.get p)
    (hr : t.hold.records = s.hold.records) (hj : t.judges.get p = s.judges.get p) : workOf p t = workOf p s := by
  unfold workOf slotGone State.heldRecord
  rw [ho, hr, hj]

/-- The work of one port falls, and that of the other stays: the whole falls. -/
theorem work_lt {s t : State} (p : Port) (h : workOf p t < workOf p s) (hq : ∀ q, q ≠ p → workOf q t = workOf q s)
    (hs : t.store.port = s.store.port) : work t < work s := by
  unfold work
  rw [hs]
  cases p
  · rw [hq .f nofun]
    omega
  · rw [hq .n nofun]
    omega

theorem heldRecord_isSome {s : State} {r : HeldRecord} (h : r ∈ s.hold.records) : (s.heldRecord r.ref).isSome := by
  unfold State.heldRecord
  rw [List.find?_isSome]
  exact ⟨r, h, by simp⟩

/-- Each consequence leaves less to do. -/
theorem consequence_work {s t : State} (h : OnlyRequests s) (hc : consequence s = some t) : work t < work s := by
  rcases consequence_cases h hc with hc | ⟨p, hc⟩ | ⟨p, _, hc⟩ | hc
  · obtain ⟨hh, _, _, hj, h1, h2, h3⟩ := grant_leaves hc
    have : ∀ p, workOf p t ≤ workOf p s := by
      intro p
      have e : slotGone p t = slotGone p s := by
        unfold slotGone State.heldRecord
        rw [hh]
        rcases hj p with e | ⟨it, _, e⟩ <;> rw [e]
      unfold workOf
      rw [e, hh]
      rcases hj p with e | ⟨it, hw, e⟩
      · rw [e]
      · rw [e, hw]
        simp
    have hn := this .n
    have hf := this .f
    unfold work portWork
    rw [h1, if_neg h3, if_neg h2]
    simp only [reduceCtorEq, if_false, if_true]
    omega
  · obtain ⟨ho, r, hr, rfl⟩ := placeRequest_some hc
    refine work_lt p ?_ (fun q hq => workOf_congr ?_ rfl ?_) rfl
    · unfold workOf slotGone State.heldRecord
      have := heldRecord_isSome hr
      unfold State.heldRecord at this
      simp only [PerPort.get_set_self, ho, if_true, reduceCtorEq, if_false]
      rw [Option.isNone_eq_false_iff.2 this]
      simp only [Bool.false_eq_true, if_false]
      omega
    · simp only [PerPort.get_set, if_neg hq]
    · simp only [PerPort.get_set, if_neg hq]
  · obtain ⟨hi, n, hs, ⟨r, hr, rfl⟩ | ⟨hr, rfl⟩⟩ := takeSlot_some hc
    · refine work_lt p ?_ (fun q hq => workOf_congr rfl rfl ?_) rfl
      · unfold workOf slotGone
        simp only [PerPort.get_set_self, hi, if_true, reduceCtorEq, if_false, Bool.false_eq_true]
        omega
      · simp only [PerPort.get_set, if_neg hq]
    · refine work_lt p ?_ (fun q hq => workOf_congr ?_ rfl ?_) rfl
      · unfold workOf slotGone
        simp only [PerPort.get_set_self, hi, hs, hr, Option.isNone_none, if_true, Bool.false_eq_true, if_false]
        split <;> omega
      · simp only [PerPort.get_set, if_neg hq]
      · simp only [PerPort.get_set, if_neg hq]
  · unfold openPort at hc
    split at hc
    · rename_i hp
      rw [← Option.some.inj hc]
      have hw : ∀ p, workOf p (s.setStore { s.store with port := .free }) = workOf p s := fun p => rfl
      unfold work portWork
      rw [hw, hw, hp, State.setStore_store]
      simp
    all_goals cases hc

/-- Where only requests follow, nothing more follows after ten consequences. -/
theorem settleFor_ends (n : Nat) {s : State} (h : OnlyRequests s) (hn : work s ≤ n) : Settled (settleFor n s) := by
  induction n generalizing s with
  | zero =>
    unfold settleFor Settled
    cases hc : consequence s with
    | none => rfl
    | some t =>
      have := consequence_work h hc
      omega
  | succ n ih =>
    unfold settleFor
    split
    · rename_i t hc
      have := consequence_work h hc
      exact ih (consequence_requests h hc).1 (by omega)
    · rename_i hc
      unfold Settled
      rw [hc]
      rfl

/-! ### What it leaves of a request -/

/-- The request in the slot of an IDLE Judge names a held record. -/
def SlotHeld (p : Port) (s : State) : Prop :=
  (s.judges.get p).phase = .idle → ∀ n, (s.judges.get p).slot = some n → ∃ r ∈ s.hold.records, r.ref = n

theorem requested_none {p : Port} {s : State} (h : placeRequest p s = none) : Requested p s = s := by
  rw [← placeRequest_eq, h]
  rfl

/-- The request of a port and the Judge that takes it depend on no other port. -/
theorem requested_congr {s t : State} {p : Port} (ho : t.hold.outstanding.get p = s.hold.outstanding.get p)
    (hr : t.hold.records = s.hold.records) (hb : t.pool = s.pool) (hj : t.judges.get p = s.judges.get p) :
    (Requested p t).hold.outstanding.get p = (Requested p s).hold.outstanding.get p ∧
      SlotTaken p (Requested p t) = SlotTaken p (Requested p s) := by
  have e : ∀ u : State, (Requested p u).hold.records = u.hold.records ∧ (Requested p u).pool = u.pool := by
    intro u
    unfold Requested
    split <;> exact ⟨rfl, rfl⟩
  have q : (Requested p t).hold.outstanding.get p = (Requested p s).hold.outstanding.get p ∧
      (Requested p t).judges.get p = (Requested p s).judges.get p := by
    unfold Requested
    rw [hr, ho]
    split
    · simp only [PerPort.get_set_self, hj, and_self]
    · exact ⟨ho, hj⟩
  refine ⟨q.1, ?_⟩
  unfold SlotTaken State.buffer
  rw [q.2, (e t).1, (e s).1, (e t).2, (e s).2, hr, hb]

theorem slotTaken_busy {p : Port} {s : State} (h : (s.judges.get p).phase ≠ .idle) :
    SlotTaken p s = s.judges.get p := by
  unfold SlotTaken
  split
  · rename_i n h1 _
    exact absurd h1 h
  · rfl

/-- A Judge that waits has its request beside it, whether it is granted the port or not. -/
theorem requested_granted {a : Bank} {s t : State} {p : Port} (hh : t.hold = s.hold) (hb : t.pool = s.pool)
    (hj : Granted a (s.judges.get p) (t.judges.get p)) :
    (Requested p t).hold.outstanding.get p = (Requested p s).hold.outstanding.get p ∧
      Granted a (SlotTaken p (Requested p s)) (SlotTaken p (Requested p t)) := by
  rcases hj with e | ⟨it, hw, e⟩
  · obtain ⟨q1, q2⟩ := requested_congr (congrArg (fun x => x.outstanding.get p) hh) (congrArg HoldQueue.records hh) hb e
    exact ⟨q1, .inl q2⟩
  · unfold Requested
    rw [hh]
    split
    · refine ⟨by simp only [PerPort.get_set_self], ?_⟩
      rw [slotTaken_busy (by simp [hw]), slotTaken_busy (by simp [e])]
      simp only [PerPort.get_set_self, e]
      exact .inr ⟨it, hw, rfl⟩
    · refine ⟨congrArg (fun x => x.outstanding.get p) hh, ?_⟩
      rw [slotTaken_busy (by simp [hw]), slotTaken_busy (by simp [e]), e]
      exact .inr ⟨it, hw, rfl⟩

/-- One consequence leaves of a port's request and its Judge what the event leaves. -/
theorem consequence_left {s t : State} (p : Port) (h : OnlyRequests s) (hc : consequence s = some t)
    (hp : SlotHeld p s) :
    SlotHeld p t ∧ t.store.active = s.store.active ∧
      (Requested p t).hold.outstanding.get p = (Requested p s).hold.outstanding.get p ∧
      Granted s.store.active (SlotTaken p (Requested p s)) (SlotTaken p (Requested p t)) := by
  have same : ∀ {u : State}, u.hold.outstanding.get p = s.hold.outstanding.get p → u.hold.records = s.hold.records →
      u.pool = s.pool → u.judges.get p = s.judges.get p → u.store.active = s.store.active →
      SlotHeld p u ∧ u.store.active = s.store.active ∧
        (Requested p u).hold.outstanding.get p = (Requested p s).hold.outstanding.get p ∧
        Granted s.store.active (SlotTaken p (Requested p s)) (SlotTaken p (Requested p u)) := by
    intro u ho hr hb hj ha
    obtain ⟨q1, q2⟩ := requested_congr ho hr hb hj
    refine ⟨?_, ha, q1, .inl q2⟩
    unfold SlotHeld
    rw [hj, hr]
    exact hp
  rcases consequence_cases h hc with hc | ⟨q, hc⟩ | ⟨q, hn, hc⟩ | hc
  · obtain ⟨hh, hb, ha, hj, _⟩ := grant_leaves hc
    refine ⟨?_, ha, requested_granted hh hb (hj p)⟩
    unfold SlotHeld
    rw [hh]
    rcases hj p with e | ⟨it, hw, e⟩
    · rw [e]
      exact hp
    · rw [e]
      exact nofun
  · obtain ⟨ho, r, hr, e⟩ := placeRequest_some hc
    by_cases hq : p = q
    · subst hq
      have hs : Requested p s = t := by rw [← placeRequest_eq, hc]; rfl
      have ht : Requested p t = t := by
        refine requested_none ?_
        unfold placeRequest
        rw [e]
        simp only [PerPort.get_set_self]
      refine ⟨?_, by rw [e], by rw [hs, ht], .inl (by rw [hs, ht])⟩
      intro _ n hsn
      rw [e] at hsn ⊢
      simp only [PerPort.get_set_self, Option.some.injEq] at hsn
      exact ⟨r, hr, hsn⟩
    · rw [e]
      exact same (by simp only [PerPort.get_set, if_neg hq]) rfl rfl (by simp only [PerPort.get_set, if_neg hq]) rfl
  · obtain ⟨hi, n, hs, ⟨r, hr, e⟩ | ⟨hr, e⟩⟩ := takeSlot_some hc
    · by_cases hq : p = q
      · subst hq
        have h1 : Requested p s = s := requested_none (hn p)
        have h2 : Requested p t = t := requested_none (placeRequest_none_congr p (by rw [e]) (by rw [e]) (hn p))
        have hj : t.judges.get p = SlotTaken p s := by
          unfold SlotTaken
          rw [hi, hs]
          simp only
          unfold State.heldRecord at hr
          rw [hr, e]
          simp only [PerPort.get_set_self]
          rfl
        have hb : (t.judges.get p).phase ≠ .idle := by
          rw [e]
          simp
        refine ⟨fun x => absurd x hb, by rw [e], by rw [h1, h2, e], .inl ?_⟩
        rw [h1, h2, slotTaken_busy hb, hj]
      · rw [e]
        exact same rfl rfl rfl (by simp only [PerPort.get_set, if_neg hq]) rfl
    · by_cases hq : p = q
      · subst hq
        obtain ⟨r, hm, rfl⟩ := hp hi n hs
        have := heldRecord_isSome hm
        rw [hr] at this
        cases this
      · rw [e]
        exact same (by simp only [PerPort.get_set, if_neg hq]) rfl rfl (by simp only [PerPort.get_set, if_neg hq]) rfl
  · unfold openPort at hc
    split at hc
    · rw [← Option.some.inj hc]
      exact same rfl rfl rfl rfl rfl
    all_goals cases hc

theorem settleFor_chain (n : Nat) {s : State} (p : Port) (h : OnlyRequests s) (hp : SlotHeld p s) :
    (Requested p (settleFor n s)).hold.outstanding.get p = (Requested p s).hold.outstanding.get p ∧
      Granted s.store.active (SlotTaken p (Requested p s)) (SlotTaken p (Requested p (settleFor n s))) := by
  induction n generalizing s with
  | zero => exact ⟨rfl, .inl rfl⟩
  | succ n ih =>
    unfold settleFor
    split
    · rename_i t hc
      obtain ⟨h1, h2, h3, h4⟩ := consequence_left p h hc hp
      obtain ⟨g1, g2⟩ := ih (consequence_requests h hc).1 h1
      rw [h2] at g2
      exact ⟨g1.trans h3, h4.trans g2⟩
    · exact ⟨rfl, .inl rfl⟩

/-- In a settled gate every request is placed and taken. -/
theorem Settled.requested {s : State} (h : Settled s) (p : Port) :
    Requested p s = s ∧ SlotTaken p s = s.judges.get p := by
  refine ⟨requested_none (h.placeRequest p), ?_⟩
  have ht := h.takeSlot p
  unfold SlotTaken
  unfold Machine.takeSlot at ht
  split
  · rename_i n h1 h2
    rw [h1, h2] at ht
    simp only at ht
    split at ht <;> cases ht
  · rfl

/-- All that follows where only requests follow: nothing but the requests, the grants and the Judges' phases and slots
changes, each port is left with the request that RequestLeft says, and nothing follows any more. -/
theorem settleFor_follows (n : Nat) {s : State} (h : OnlyRequests s) (hn : work s ≤ n) :
    FollowsOnly s (settleFor n s) := by
  have hs := settleFor_ends n h hn
  refine ⟨settleFor_requests n h, fun p hp => ?_, hs⟩
  obtain ⟨h1, h2⟩ := settleFor_chain n p h hp
  obtain ⟨e1, e2⟩ := hs.requested p
  rw [e1] at h1 h2
  rw [e2] at h2
  refine ⟨h1, fun j hj => ?_⟩
  rw [hj]
  exact h2

theorem settle_follows {s : State} (h : OnlyRequests s) : FollowsOnly s (settle s) :=
  settleFor_follows _ h ((work_le s).trans (by decide))

/-! ### The commit (R113) -/

theorem staleRequest_eq (p : Port) (s : State) : staleRequest p s = RequestStaled p s := by
  unfold staleRequest RequestStaled Withdrawn
  cases s.hold.outstanding.get p with
  | none => rfl
  | some q =>
    simp only
    by_cases h : (s.judges.get p).slot = some q.ref
    · rw [if_pos h, if_pos h, if_pos h]
      rfl
    · rw [if_neg h, if_neg h]
      rfl

/-- The commit event at the Hold Queue is the one R113 describes. -/
theorem markPending_eq (s : State) : markPending s = CommitMarked s := by
  unfold markPending CommitMarked
  rw [staleRequest_eq, staleRequest_eq]
  rfl

end Sys2Proof.Machine
end

