-- ==== Sys2Proof/Tests/Slice0.lean ====
section
/-! SUPPORT. Tests: the form check refuses ill-formed commands, a few steps on small states, and for every
statement with hypotheses a state and operands that meet them. -/

namespace Sys2Proof.Tests

-- One test after another: checked side by side they ask for more threads than the memory limit leaves room for.
set_option Elab.async false

open Sys2Proof.Machine

/-! ### The form check -/

/-- A command head that names a station. -/
def head : CmdHead := ⟨.f, 1, 0, 7⟩

/-- A command head whose source is the broadcast address. -/
def badHead : CmdHead := ⟨.f, 0xFFFF, 0, 7⟩

theorem test_wf_source_is_a_station : (Instr.readStatus badHead).wf = false ∧ (Instr.readStatus head).wf = true := by
  decide

theorem test_wf_payload_fits :
    (Instr.unknownCommand head (List.replicate 201 0)).wf = false ∧
      (Instr.unknownCommand head (List.replicate 200 0)).wf = true := by decide +kernel

theorem test_wf_indexes_fit :
    (Instr.readStreamStatus head (List.replicate 200 0)).wf = false ∧
      (Instr.readStreamStatus head (List.replicate 199 0)).wf = true := by decide +kernel

theorem test_wf_code_names_no_command :
    (Instr.unknownCommand head [0x01]).wf = false ∧ (Instr.unknownCommand head [0x16]).wf = false ∧
      (Instr.unknownCommand head [0x17]).wf = true ∧ (Instr.unknownCommand head []).wf = true := by decide

theorem test_wf_edges_are_apart :
    (Instr.refinRisingEdge 0).wf = false ∧ (Instr.refinRisingEdge 1).wf = true ∧
      (Instr.pinReset 0 [.tick, .edge 0]).wf = false ∧ (Instr.pinReset 0 [.tick, .edge 1]).wf = true := by decide

/-! ### Small states -/

/-- The gate with its store READY and nothing in hand. -/
def atRest : State :=
  { State.reset with store := { State.reset.store with phase := .ready, port := .free } }

/-- The buffers 1 to 63. -/
def others : List BufId := (List.finRange 64).drop 1

theorem atRest_settled : Settled atRest := by
  unfold Settled
  decide +kernel

theorem atRest_places : EachBufferInOnePlace atRest := by
  unfold EachBufferInOnePlace
  decide +kernel

theorem atRest_ready : CommandReady head 0 others atRest :=
  ⟨.inl rfl, by decide +kernel, by decide, rfl, by decide +kernel, rfl, rfl, rfl, nofun, atRest_places,
    atRest_settled⟩

theorem atRest_reads : CanRead head 0 others atRest :=
  ⟨atRest_ready, by unfold Privileged; decide +kernel, by unfold RoomToAnswer; decide +kernel⟩

theorem atRest_writes : CanWrite head 0 others atRest :=
  ⟨atRest_ready, by unfold Privileged; decide +kernel, by unfold RoomToAnswer; decide +kernel⟩

theorem test_crc : crc [0x31, 0x32, 0x33, 0x34, 0x35, 0x36, 0x37, 0x38, 0x39] = 0x29B1 := by decide +kernel

/-- The next state a command answers. -/
def after (i : Instr) (s : State) : State :=
  match exec i s with
  | .next t => t
  | .fault _ => s
  | .refused _ => s

theorem test_keepalive_answers :
    ((after (.keepalive head) atRest).buffer 0).bytes =
      [0xD3, 0x00, 0x01, 0xF0, 0x00, 0xF0, 0, 7, 14, 0x06, 0, 0, 0, 0, 0, 0, 0, 0, 0, 0, 0, 0, 0] := by decide +kernel

/-! ### One step each on small states -/

theorem test_unknown_command_is_answered :
    ((after (.unknownCommand head []) atRest).buffer 0).bytes =
      [0xD3, 0x00, 0x01, 0xF0, 0x00, 0xF0, 0, 7, 2, 0x00, 3] := by decide +kernel

theorem test_commit_now_flips_the_selector :
    (after (.commitNow head) atRest).store.active = .b1 ∧ (after (.commitNow head) atRest).commit.count = 1 := by
  decide +kernel

theorem test_set_time_makes_the_quality_nominal :
    (after (.setTime head 3 2 1 0 59) atRest).cal.quality = .nominal ∧
      (after (.setTime head 3 2 1 0 59) atRest).cal.subOfDay = 3659 * 1024 := by decide +kernel

theorem test_read_entry_takes_the_port :
    (after (.readEntry head 0 0) atRest).store.port = .agent .b0 ∧
      (after .managementAccess (after (.readEntry head 0 0) atRest)).store.port = .free := by decide +kernel

theorem test_reset_command_sends_no_response :
    (after (.reset head 5) atRest).tx = State.reset.tx ∧ (after (.reset head 5) atRest).ownAddr = 0xF005 := by
  decide +kernel

theorem test_start_loads_no_count :
    (after (.start head) atRest).policer.timer = .running ∧ (after (.start head) atRest).policer.count = 0 := by
  decide +kernel

theorem test_sweep_advances : (after .sweepWrite State.reset).store.phase = .initializing 1 := by decide +kernel

theorem test_tick_advances : (after (.tick []) atRest).cal.sub = 1 ∧ (after (.tick []) atRest).cal.uptime = 1 := by
  decide +kernel

theorem test_loss_falls_back :
    (after (.referenceLoss false) atRest).cal.source = .fallback ∧
      (after (.referenceLoss false) atRest).exc.alertLow = true := by decide +kernel

theorem test_reception_starts :
    ((after (.byteArrival .n 0xD3) (after (.silenceSettled .n) atRest)).rx.n).phase = .filling 0 := by decide +kernel

/-- A Friday span from 22:00 to 02:00 with a date range: the cases of R74. -/
def fridayWindow (low high : BitVec 16) : WindowRecord := ⟨true, 0x10, 1320, 120, some (low, high), false⟩

theorem test_dates_bound_the_part_after_midnight :
    windowOpen (fridayWindow 7 7) ⟨7, 4, 1330⟩ .nominal = true ∧ windowOpen (fridayWindow 7 7) ⟨8, 5, 30⟩ .nominal = false ∧
      windowOpen (fridayWindow 7 8) ⟨8, 5, 30⟩ .nominal = true ∧ windowOpen (fridayWindow 8 9) ⟨8, 5, 30⟩ .nominal = false := by
  decide +kernel

theorem test_write_entry_writes_at_its_grant :
    ((after (.writeEntry head 3 ((0x60 : BitVec 176) <<< 168)) atRest).store.row .b1 3).changed = [] ∧
      (after (.writeEntry head 3 ((0x60 : BitVec 176) <<< 168)) atRest).store.port = .agent .b0 ∧
      ((after (.writeEntry head 3 ((0x60 : BitVec 176) <<< 168)) atRest).store.row .b1 3).entry.portN = true := by
  decide +kernel

/-! ### What the statements suppose, met -/

theorem test_hyp_StepRunsTheFrontCommand :
    ({ atRest with pending := [.sweepWrite, .tick []] } : State).pending = .sweepWrite :: [.tick []] ∧
      atRest.pending = [] := ⟨rfl, rfl⟩

/-- A telegram with one option and a payload of one byte. -/
def optioned : List Byte := [0xD3, 0x10, 0, 0, 1, 0xE0, 1, 0, 1, 3, 0, 0xAA, 0, 0]

theorem test_hyp_FramedLengthEndsTheTelegram :
    optioned.length = framedLength optioned ∧ 1 ≤ 1 ∧ 1 ≤ optioned.length ∧
      optioned.length ≤ optioned.length := by decide

/-- Port N's Receive Unit in a phase, its buffer 0 claimed, at the last byte by the framed length or before. -/
def receiving (x : RxPhase) (bytes : List Byte) (f : Framing) (sum : BitVec 16) : State :=
  { atRest with
    pool := ⟨atRest.pool.buffers.set 0 { blankBuffer with bytes := bytes }, others⟩
    rx := ⟨{ atRest.rx.n with phase := x, header := bytes, framing := f, sum := sum }, atRest.rx.f⟩ }

/-- The place of a unit before the last byte of a telegram without options or payload. -/
def atLast : Framing := ⟨10, 11, 0, 10⟩

theorem test_hyp_BytesAndSilencesFollowTheUnit :
    (atRest.rx.get .n).phase = .settling ∧
      ((receiving .ready [] framingStart 0).rx.get .n).phase = .ready ∧
      ((receiving (.filling 0) [0xD3] framingStart 0).rx.get .n).phase = .filling 0 ∧
      ((receiving (.filling 0) [0xD3] framingStart 0).rx.get .n).phase ≠ .settling ∧
      (((receiving (.filling 0) [0xD3] framingStart 0).rx.get .n).framing.next 0).ended = false ∧
      ((receiving .void [0xD3] framingStart 0).rx.get .n).phase = .void ∧
      (((receiving .void [0xD3] framingStart 0).rx.get .n).framing.next 0).ended = false ∧
      (receiving .ready [] framingStart 0).pool.free = 1 :: others.drop 1 ∧
      ({ receiving .ready [] framingStart 0 with pool := ⟨atRest.pool.buffers, []⟩ } : State).pool.free = [] := by
  decide +kernel

theorem test_hyp_SilenceTruncatesAReception :
    ((receiving (.filling 0) [0xD3] framingStart 0).rx.get .n).phase = .filling 0 := rfl

theorem test_hyp_VoidReceptionEndsUncarried :
    ∀ n : Fin 10, ((receiving .void (List.replicate n.val 0) atLast 0).rx.get .n).phase = .void ∧
      (((receiving .void (List.replicate n.val 0) atLast 0).rx.get .n).framing.next 0).ended = true := by
  decide +kernel

/-- The ten bytes before the last of a telegram of class 14 from station 1 to a destination. -/
def tenBytes (dest : Addr) (control : Byte) : List Byte := [0xD3] ++ be16 dest ++ [0, 1, control, 0, 0, 0, 0]

theorem test_hyp_BadReceptionIsCountedAndDropped :
    ∀ s, s = receiving (.filling 0) (tenBytes 0x1000 0xE0) atLast 1 ∨
        s = receiving (.filling 0) (tenBytes 0x1000 0xE1) atLast 0 →
      (s.rx.get .n).phase = .filling 0 ∧ ((s.rx.get .n).framing.next 0).ended = true ∧
        ((s.rx.get .n).sum ≠ lastTwo (s.rx.get .n) 0 ∨
          (s.rx.get .n).sum = lastTwo (s.rx.get .n) 0 ∧
            formError (storedBytes (s.buffer 0) 0) ((s.rx.get .n).framing.next 0).expected = true) := by
  rintro s (rfl | rfl) <;> decide +kernel

/-- A judge key of a telegram of class 14 from station 1 on port N. -/
def key : LookupKey := ⟨.n, 1, 14⟩

/-- A telegram ends while the scrubber holds the table port. -/
def ending (dest : Addr) (control : Byte) : State :=
  { receiving (.filling 0) (tenBytes dest control) atLast 0 with
    store := { atRest.store with port := .scrub } }

/-- The same while Judge N waits with a rejudge. -/
def endingBusy : State :=
  { ending 0x1000 0xE0 with judges := ⟨⟨[], none, none, .waiting (.rejudge 0 key)⟩, judgeReset⟩ }

theorem test_hyp_GoodReceptionJoinsTheArrivals :
    (endingBusy.rx.get .n).phase = .filling 0 ∧ ((endingBusy.rx.get .n).framing.next 0).ended = true ∧
      (endingBusy.rx.get .n).sum = lastTwo (endingBusy.rx.get .n) 0 ∧
      formError (storedBytes (endingBusy.buffer 0) 0) ((endingBusy.rx.get .n).framing.next 0).expected = false ∧
      (endingBusy.judges.get .n).phase ≠ .idle ∧ EachBufferInOnePlace endingBusy ∧ Settled endingBusy := by
  unfold EachBufferInOnePlace Settled
  decide +kernel

theorem test_hyp_IdleJudgeTakesTheArrival :
    ∀ s, s = ending 0xF000 0xE0 ∨ s = ending 0xF000 0xF0 ∨ s = ending 0x1000 0xE0 ∨ s = ending 0x1000 0xE2 →
      (s.rx.get .n).phase = .filling 0 ∧ ((s.rx.get .n).framing.next 0).ended = true ∧
        (s.rx.get .n).sum = lastTwo (s.rx.get .n) 0 ∧
        formError (storedBytes (s.buffer 0) 0) ((s.rx.get .n).framing.next 0).expected = false ∧
        (s.judges.get .n).phase = .idle ∧ (s.judges.get .n).bind = none ∧ EachBufferInOnePlace s ∧
        Settled s ∧ s.store.port ≠ .free ∧ 0 < s.agent.settings.bindLimit.toNat ∧
        (destOf (storedBytes (s.buffer 0) 0) = s.ownAddr →
          classOf (storedBytes (s.buffer 0) 0) ≠ 15 ∨ (Port.n = .n ∧ s.agent.settings.nearAllowed = false)) := by
  unfold EachBufferInOnePlace Settled
  rintro s (rfl | rfl | rfl | rfl) <;> decide +kernel

/-- The same with the table port free. -/
def endingFree (dest : Addr) (control : Byte) : State := { ending dest control with store := atRest.store }

theorem test_hyp_IdleJudgeTakesTheArrival_at_a_free_port :
    ∀ s, s = endingFree 0x1000 0xE0 ∨ s = endingFree 0x1000 0xE2 →
      (s.rx.get .n).phase = .filling 0 ∧ ((s.rx.get .n).framing.next 0).ended = true ∧
        (s.rx.get .n).sum = lastTwo (s.rx.get .n) 0 ∧
        formError (storedBytes (s.buffer 0) 0) ((s.rx.get .n).framing.next 0).expected = false ∧
        (s.judges.get .n).phase = .idle ∧ (s.judges.get .n).bind = none ∧ EachBufferInOnePlace s ∧
        Settled s ∧ s.store.port = .free ∧ s.store.phase = .ready ∧ 0 < s.agent.settings.bindLimit.toNat ∧
        destOf (storedBytes (s.buffer 0) 0) ≠ s.ownAddr := by
  unfold EachBufferInOnePlace Settled
  rintro s (rfl | rfl) <;> decide +kernel

theorem test_a_telegram_is_granted_the_free_port :
    ((after (.receptionEnd .n 0) (endingFree 0x1000 0xE0)).judges.get .n).phase =
        .lookup (.telegram 0 .plain key) .b0 ∧
      (after (.receptionEnd .n 0) (endingFree 0x1000 0xE0)).store.port = .judge .n ∧
      (after (.receptionEnd .n 0) (endingFree 0x1000 0xE0)).store.lastJudge = .n := by decide +kernel

/-- A command for the gate ends on port N with near management allowed, while a command is in execution. -/
def commandEnding (inbox : List BufId) : State :=
  { ending 0xF000 0xF0 with
    pool := ⟨(ending 0xF000 0xF0).pool.buffers, (others.drop 5)⟩
    agent := { atRest.agent with
      inbox := inbox, exec := some ⟨5, .probe ⟨.n, 1, 2, 14, 0, false, false, none⟩⟩
      settings := { defaultSettings with nearAllowed := true } } }

theorem test_hyp_IdleJudgeTakesTheArrival_as_command :
    ∀ s, s = { commandEnding [1] with pool := ⟨(commandEnding []).pool.buffers, 2 :: 3 :: 4 :: others.drop 5⟩ } ∨
        s = commandEnding [1, 2, 3, 4] →
      (s.rx.get .n).phase = .filling 0 ∧ ((s.rx.get .n).framing.next 0).ended = true ∧
        (s.rx.get .n).sum = lastTwo (s.rx.get .n) 0 ∧
        formError (storedBytes (s.buffer 0) 0) ((s.rx.get .n).framing.next 0).expected = false ∧
        (s.judges.get .n).phase = .idle ∧ EachBufferInOnePlace s ∧
        Settled s ∧ s.store.port ≠ .free ∧ 0 < s.agent.settings.bindLimit.toNat ∧
        destOf (storedBytes (s.buffer 0) 0) = s.ownAddr ∧ classOf (storedBytes (s.buffer 0) 0) = 15 ∧
        s.agent.settings.nearAllowed = true ∧ s.agent.exec ≠ none ∧
        (s.agent.inbox.length < 4 ∨ 4 ≤ s.agent.inbox.length) := by
  unfold EachBufferInOnePlace Settled
  rintro s (rfl | rfl) <;> decide +kernel

/-- The oldest arrival may be a command or another telegram, to the own address or to another. -/
theorem test_hyp_IdleJudgeTakesTheArrival_of_an_arrival :
    (classOf (tenBytes 0xF000 0xE0) ≠ 15 ∧ classOf (tenBytes 0xF000 0xF0) = 15) ∧
      atRest.agent.settings.nearAllowed = false ∧ atRest.agent.inbox.length < 4 ∧
      4 ≤ (commandEnding [1, 2, 3, 4]).agent.inbox.length ∧
      boundOf (tenBytes 0x1000 0xE0) = false ∧ boundOf (tenBytes 0x1000 0xE2) = true ∧
      (atRest.judges.get .n).bind = none := by decide +kernel

/-- A binding that station 1 opened on port N, with an outcome. -/
def binding (o : BindOutcome) : BindContext := ⟨1, o, some ⟨0x1000, 14, some 3⟩, 5, false⟩

/-- Judge N with an open binding and the arrivals given; the buffers arrived at uptime 0. -/
def bound (c : BindContext) (l : List BufId) (now : Uptime) : State :=
  { receiving .ready (tenBytes 0x1000 0xE0) atLast 0 with
    judges := ⟨⟨l, none, some c, .waiting (.rejudge 0 key)⟩, judgeReset⟩
    store := { atRest.store with port := .scrub }
    cal := { atRest.cal with uptime := now } }

/-- A telegram of station 1 ends on port N while Judge N is IDLE with the binding given, at an uptime. -/
def endingBound (c : BindContext) (now : Uptime) (l : List HeldRecord) : State :=
  { ending 0x1000 0xE2 with
    pool := ⟨(ending 0x1000 0xE2).pool.buffers, others.drop l.length⟩
    judges := ⟨⟨[], none, some c, .idle⟩, judgeReset⟩
    hold := { atRest.hold with records := l, nextRef := 9 }
    cal := { atRest.cal with uptime := now } }

/-- A first held in buffer 1, awaiting its partner. -/
def awaitedInOne : List HeldRecord :=
  [⟨0, 1, .n, 0x2000, .b0, some 3, 0x2000, .normal, .ignore, false,
    .first ⟨.window, ⟨1, .hold, .hold, .block, 0⟩, 0, 99, none, true, false⟩⟩]

theorem test_hyp_IdleJudgeTakesTheArrival_with_an_open_context :
    (∀ o : BindOutcome, o = .refused ∨ o = .passed .urgent ∨ o = .held 0 → ∀ source : Addr, source = 1 ∨ source = 2 →
      ∀ now : Uptime, now = 5 ∨ now = 6 → ∀ l, l = [] ∨ l = awaitedInOne →
      ∀ s, s = endingBound { binding o with source := source } now l →
        (s.rx.get .n).phase = .filling 0 ∧ ((s.rx.get .n).framing.next 0).ended = true ∧
        (s.rx.get .n).sum = lastTwo (s.rx.get .n) 0 ∧
        formError (storedBytes (s.buffer 0) 0) ((s.rx.get .n).framing.next 0).expected = false ∧
        (s.judges.get .n).phase = .idle ∧ (s.judges.get .n).bind = some { binding o with source := source } ∧
        EachBufferInOnePlace s ∧ Settled s ∧ RefsDistinct s ∧ s.store.port ≠ .free ∧
        0 < s.agent.settings.bindLimit.toNat ∧ destOf (storedBytes (s.buffer 0) 0) ≠ s.ownAddr ∧
        sourceOf (storedBytes (s.buffer 0) 0) = 1) ∧
      atOrBefore 5 (binding .refused).deadline = true ∧ atOrBefore 6 (binding .refused).deadline = false ∧
      ((ending 0x1000 0xE2).judges.get .n).bind = none ∧
      boundOf ({ blankBuffer with bytes := tenBytes 0x1000 0xE2 } : Buffer).bytes = true := by
  unfold EachBufferInOnePlace Settled RefsDistinct
  refine ⟨?_, by decide, by decide, rfl, by decide⟩
  rintro o (rfl | rfl | rfl) source (rfl | rfl) now (rfl | rfl) l (rfl | rfl) s rfl <;> decide +kernel

theorem test_hyp_SecondOfARefusedFirstIsRefused :
    ((bound (binding .refused) [] 0).judges.get .n).bind = some (binding .refused) ∧
      sourceOf ((bound (binding .refused) [] 0).buffer 0).bytes = (binding .refused).source ∧
      atOrBefore ((bound (binding .refused) [] 0).buffer 0).desc.uptime (binding .refused).deadline = true ∧
      (binding .refused).outcome = .refused := by decide +kernel

/-- Port N's Transmit Unit as given. -/
def sending (x : TxUnit) : State := { atRest with tx := ⟨x, txReset⟩ }

theorem test_hyp_TransmissionEndsAndTheNextStarts :
    ((sending ⟨[], [], .sending 0 [], 0⟩).tx.get .n).phase = .sending 0 [] ∧
      ((sending ⟨[1], [2], .spacing, 0⟩).tx.get .n).phase = .spacing ∧
      ((sending ⟨[1], [2], .spacing, 0⟩).tx.get .n).urgent = 1 :: [] ∧
      ((sending ⟨[], [2], .spacing, 0⟩).tx.get .n).urgent = [] ∧
      ((sending ⟨[], [2], .spacing, 0⟩).tx.get .n).normal = 2 :: [] ∧
      ((sending ⟨[], [], .spacing, 0⟩).tx.get .n).phase = .spacing ∧
      ((sending ⟨[], [], .spacing, 0⟩).tx.get .n).urgent = [] ∧
      ((sending ⟨[], [], .spacing, 0⟩).tx.get .n).normal = [] := by decide +kernel

/-- A transmit list of the same length full of one buffer. -/
def fullList (n : Nat) : List BufId := List.replicate n 3

/-- A buffer that joins a list of an IDLE unit starts the oldest urgent telegram, and one that joins in SPACING waits. -/
theorem test_hyp_TransmissionEndsAndTheNextStarts_appended :
    (txReset.phase = .idle ∧ txReset.urgent = [] ∧ txReset.normal = []) ∧
      ((listAdd txReset .urgent 1).phase = .idle ∧ (listAdd txReset .urgent 1).urgent = 1 :: []) ∧
      ((listAdd txReset .normal 1).urgent = [] ∧ (listAdd txReset .normal 1).normal = 1 :: []) ∧
      (⟨[], [], .spacing, 0⟩ : TxUnit).phase ≠ .idle ∧
      listRoom ⟨fullList 7, [], .idle, 0⟩ .urgent = true ∧ listRoom ⟨fullList 8, [], .idle, 0⟩ .urgent = false := by
  decide

theorem test_hyp_WarmResetsKeepPolicyAndTime :
    CommandReady head 0 others atRest ∧ Privileged head atRest.agent.settings.writeFloor atRest :=
  ⟨atRest_writes.1, atRest_writes.2.1⟩

/-- A gate whose Agent is at an access. -/
def atJob (job : Job) : State :=
  { atRest with
    store := { atRest.store with port := .agent .b0 }
    agent := { atRest.agent with exec := some ⟨0, job⟩ } }

/-- The row accesses that a reset may find in progress, and what their reads may have found. -/
theorem test_hyp_WarmResetsKeepPolicyAndTime_access :
    (∀ job, job = .readEntry true 3 ∨ job = .readStream 3 [] [] ∨ job = .copy 3 0 →
      AgentReadsRow .b0 3 (atJob job)) ∧
      ¬AgentReadsRow .b0 3 (atJob (.clear 3)) ∧
      ScrubsRow .b0 3 { atRest with store := { atRest.store with port := .scrub, pointer := 3 } } ∧
      ¬ScrubsRow .b0 4 { atRest with store := { atRest.store with port := .scrub, pointer := 3 } } := by
  refine ⟨?_, ?_, ⟨rfl, by decide +kernel, 0, by decide, fun j hj => absurd hj (by omega)⟩, ?_⟩
  · rintro job (rfl | rfl | rfl) <;> exact ⟨.b0, _, rfl, rfl, by simp⟩
  · simp [AgentReadsRow, atJob]
  · rintro ⟨_, _, k, hk, hp⟩
    by_cases h : k = 0
    · subst h
      exact absurd hk (by decide)
    · exact absurd (hp 0 (by omega)) (by decide +kernel)

/-- CLEAR_SHADOW abandoned at row 3 leaves that row of the shadow as it was, or blank. -/
theorem test_an_abandoned_clear_is_made_or_not :
    TableLeft (atJob (.clear 3)) (atJob (.clear 3)) ∧
      TableLeft (atJob (.clear 3))
        (RowWritten .b1 3 blankEntry { (atJob (.clear 3)).param .b1 3 with usable := false } (atJob (.clear 3))) :=
  ⟨⟨_, .inl rfl, rfl, rfl, rfl⟩, ⟨_, .inr (.inr (.inr ⟨.b0, _, 3, rfl, rfl, by rintro kept rfl; exact .inl ⟨rfl, rfl⟩⟩)),
    rfl, rfl, rfl⟩⟩

/-- The Calendar with its Monitor ABSENT and so many good edges. -/
def absentCal (seen : Bool) (good : Fin 1025) : Calendar :=
  { calendarPowerOn with monitor := .absent, source := .fallback, edgeSeen := seen, goodEdges := good }

theorem test_hyp_WarmResetsKeepPolicyAndTime_met :
    calendarPowerOn.monitor = .present ∧ calendarPowerOn.source = .reference ∧
      ({ calendarPowerOn with source := .fallback } : Calendar).monitor = .present ∧
      (∀ n : Fin 31, n = 0 ∨ n = 30 →
        ({ calendarPowerOn with divider := n.castLE (by omega) } : Calendar).divider.val = n.val) ∧
      ({ calendarPowerOn with divider := 31 } : Calendar).divider = 31 ∧
      ¬(false = true ∧ calendarPowerOn.source = .reference) ∧
      (absentCal false 0).monitor = .absent ∧ (absentCal false 0).edgeSeen = false ∧
      (absentCal true 0).edgeSeen = true ∧ (absentCal true 0).goodEdges.val = (0 : Fin 1023).val ∧
      (absentCal true 1022).goodEdges.val = (1022 : Fin 1023).val ∧ (absentCal true 1023).goodEdges = 1023 := by
  decide

/-- What a pin reset keeps of a loss, the edges and the ticks it lasts through. -/
theorem test_a_pin_reset_keeps_what_it_met :
    (after (.pinReset 3 [.edge 1, .loss true, .tick, .edge 1, .edge 30000, .edge 5]) atRest).cal =
      { calendarPowerOn with sub := 2, monitor := .absent, source := .fallback, edgeSeen := true } := by decide +kernel

/-- The sweep at a place. -/
def sweeping (n : Fin 512) : State := { State.reset with store := { State.reset.store with phase := .initializing n } }

theorem test_hyp_SweepWritesTheNextRow :
    (∀ n, (sweeping n).store.phase = .initializing n) ∧ Settled (sweeping 0) ∧ Settled (sweeping 510) ∧
      Settled (sweeping 511) ∧ placePair 0 = (.b0, 0) ∧ placePair 511 = (.b1, 255) ∧
      (sweeping 511).agent.inbox = [] ∧ (sweeping 511).store.scrubRequest = false ∧
      (sweeping 511).store.agentRequest = false ∧
      ∀ p it, ((sweeping 511).judges.get p).phase ≠ .waiting it := by
  unfold Settled
  refine ⟨fun _ => rfl, by decide +kernel, by decide +kernel, by decide +kernel, by decide +kernel,
    by decide +kernel, rfl, rfl, rfl, fun p it => ?_⟩
  cases p <;> nofun

/-- The last place of the sweep with a scrub request, a Judge waiting and a command in the inbox. -/
def sweepingBusy : State :=
  { sweeping 511 with
    judges := ⟨⟨[], none, none, .waiting (.telegram 1 .plain key)⟩, judgeReset⟩
    store := { (sweeping 511).store with scrubRequest := true }
    agent := { State.reset.agent with inbox := [0] } }

theorem test_hyp_SweepWritesTheNextRow_with_requests :
    sweepingBusy.store.phase = .initializing 511 ∧ Settled sweepingBusy ∧ sweepingBusy.agent.inbox = 0 :: [] ∧
      sweepingBusy.agent.exec = none ∧
      (grant { sweepingBusy with store := { sweepingBusy.store with phase := .ready, port := .free } }).isSome = true := by
  unfold Settled
  refine ⟨rfl, by decide +kernel, rfl, rfl, by decide +kernel⟩

/-- The gate at rest at a time of day, with its clock as given. -/
def timed (hour : Fin 24) (minute second : Fin 60) (sub : Fin 1024) (source : ClockSource) (switch : Bool) : State :=
  { atRest with cal := { atRest.cal with
    hour := hour, minute := minute, second := second, sub := sub, source := source, switchPending := switch } }

theorem timed_outstanding (hour : Fin 24) (minute second : Fin 60) (sub : Fin 1024) (source : ClockSource)
    (switch : Bool) : NothingOutstanding (timed hour minute second sub source switch) := by
  refine ⟨rfl, rfl, rfl, rfl, rfl, ?_, ?_, ?_⟩
  · intro r h
    cases h
  · intro p c h
    cases p <;> cases h
  · exact atRest_settled.congr rfl rfl rfl rfl rfl rfl rfl (fun _ _ _ => rfl)

theorem test_hyp_TickAdvancesTheTime :
    NothingOutstanding (timed 23 59 59 1023 .fallback true) ∧
      (timed 23 59 59 1023 .fallback true).cal.subOfDay + 1 = 88473600 ∧
      (timed 23 59 59 1023 .fallback true).cal.switchPending = true ∧
      (timed 23 59 59 1023 .fallback true).cal.source = .fallback ∧
      NothingOutstanding (timed 23 59 59 1022 .reference false) ∧
      (timed 23 59 59 1022 .reference false).cal.subOfDay + 1 < 88473600 ∧
      ¬((timed 23 59 59 1022 .reference false).cal.switchPending = true ∧
        (timed 23 59 59 1022 .reference false).cal.source = .fallback) :=
  ⟨timed_outstanding .., by decide +kernel, rfl, rfl, timed_outstanding .., by decide +kernel, by decide +kernel⟩

theorem test_a_disturbance_changes_one_bit :
    ((applyUpsets [⟨.b1, 7, 2, 40⟩] atRest).store.row .b1 7).changed = [(2, 40)] ∧
      ((applyUpsets [⟨.b1, 7, 2, 40⟩, ⟨.b1, 7, 2, 40⟩] atRest).store.row .b1 7).changed = [] ∧
      ((applyUpsets [⟨.b1, 7, 2, 40⟩] atRest).store.row .b0 7).changed = [] := by decide +kernel

/-- A held record of index 3 on port N. -/
def record (ref : Nat) (b : BufId) (role : HeldRole) : HeldRecord :=
  ⟨ref, b, .n, 0x2000, .b0, some 3, 0x2000, .normal, .ignore, false, role⟩

/-- The first part of a record held for its windows, of policy BLOCK. -/
def heldFirst (deadline : Uptime) (partner : Option Nat) : FirstPart :=
  ⟨.window, ⟨1, .hold, .hold, .block, 0⟩, 0, deadline, partner, false, false⟩

/-- The gate at rest with records held, and uptime 5. -/
def holding (l : List HeldRecord) (free : List BufId) : State :=
  { atRest with
    pool := ⟨atRest.pool.buffers, free⟩
    hold := { atRest.hold with records := l, nextRef := 9 }
    cal := { atRest.cal with uptime := 5 } }

/-- One record alone. -/
def alone : List HeldRecord := [record 0 0 (.first (heldFirst 5 none))]

/-- A first and its partner. -/
def paired : List HeldRecord := [record 0 0 (.first (heldFirst 5 (some 1))), record 1 1 (.partner 0)]

theorem alone_linked (free : List BufId) : RefsDistinct (holding alone free) ∧ PartnersLinked (holding alone free) := by
  simp [RefsDistinct, PartnersLinked, holding, alone, record, heldFirst, HeldRecord.partnerRef,
    HeldRecord.firstPart]

theorem paired_linked (free : List BufId) : RefsDistinct (holding paired free) ∧ PartnersLinked (holding paired free) := by
  simp [RefsDistinct, PartnersLinked, holding, paired, record, heldFirst, HeldRecord.partnerRef,
    HeldRecord.firstPart]

/-- The gate at a second boundary with supervision as given. -/
def secondAt (due : Bool) (x : Supervision) (s : State) : State :=
  { s with cal := { s.cal with secondDue := due }, agent := { s.agent with supervision := x } }

theorem secondAt_settled {s : State} (h : Settled s) (due : Bool) (x : Supervision) : Settled (secondAt due x s) :=
  h.congr rfl rfl rfl rfl rfl rfl rfl (fun _ _ _ => rfl)

theorem paired_settled : Settled (holding paired (others.drop 1)) := by
  unfold Settled
  decide +kernel

/-- Two firsts. -/
def couple : List HeldRecord := [record 0 0 (.first (heldFirst 5 none)), record 1 1 (.first (heldFirst 5 none))]

theorem couple_linked (free : List BufId) : RefsDistinct (holding couple free) ∧ PartnersLinked (holding couple free) := by
  simp [RefsDistinct, PartnersLinked, holding, couple, record, heldFirst, HeldRecord.partnerRef, HeldRecord.firstPart]

/-- What a removal may take out, with the buffers then free: nothing, one first, a pair, two firsts. -/
def removals : List (List HeldRecord × List BufId) :=
  [([], 0 :: others), (alone, others), (paired, others.drop 1), (couple, others.drop 1)]

/-- Each of them is a sound state at rest. -/
theorem removals_sound : ∀ x ∈ removals, Settled (holding x.1 x.2) ∧ EachBufferInOnePlace (holding x.1 x.2) ∧
    RefsDistinct (holding x.1 x.2) ∧ PartnersLinked (holding x.1 x.2) := by
  have h : ∀ x ∈ removals, Settled (holding x.1 x.2) ∧ EachBufferInOnePlace (holding x.1 x.2) := by
    unfold Settled EachBufferInOnePlace
    decide +kernel
  intro x hx
  refine ⟨(h x hx).1, (h x hx).2, ?_⟩
  simp only [removals, List.mem_cons, List.not_mem_nil, or_false] at hx
  rcases hx with rfl | rfl | rfl | rfl
  · simp [RefsDistinct, PartnersLinked, holding]
  · exact alone_linked _
  · exact paired_linked _
  · exact couple_linked _

/-- The records are those that an expiry, a lapse and a flush of all or of index 3 take out. -/
theorem test_hyp_removals_take_all : ∀ x ∈ removals,
    ∀ pick ∈ ([fun _ f => atOrBefore f.deadline 5, fun _ f => f.context.unsup == .block,
      fun _ _ => true, fun r _ => r.index == some 3] : List (HeldRecord → FirstPart → Bool)),
    x.1.filter (goesWith pick x.1) = x.1 := by decide

theorem test_a_lapse_records_the_pair :
    (after (.supervisionLapse .flagFirst) (secondAt true ⟨.counting, 1⟩ (holding paired (others.drop 1)))).exc.queue.map
      (·.what.reason) = [.unsupervised, .boundBroken] := by decide +kernel

theorem test_a_flush_records_the_pair :
    (after (.flushHold head 0 0) (holding paired (others.drop 1))).exc.queue.map (·.what.reason) =
      [.flushed, .boundBroken] := by decide +kernel

theorem test_hyp_SecondBoundaryCountsDownAndLapses_removals : ∀ x ∈ removals,
    Settled (secondAt true ⟨.counting, 1⟩ (holding x.1 x.2)) ∧
      RefsDistinct (secondAt true ⟨.counting, 1⟩ (holding x.1 x.2)) ∧
      PartnersLinked (secondAt true ⟨.counting, 1⟩ (holding x.1 x.2)) := fun x hx =>
  have h := removals_sound x hx
  ⟨secondAt_settled h.1 _ _, h.2.2.1, h.2.2.2⟩

theorem test_hyp_SecondBoundaryCountsDownAndLapses :
    (Settled (secondAt false ⟨.counting, 1⟩ atRest) ∧ (secondAt false ⟨.counting, 1⟩ atRest).cal.secondDue = false) ∧
      (∀ x, x = ⟨.disabled, 0⟩ ∨ x = ⟨.lapsed, 0⟩ → Settled (secondAt true x atRest) ∧
        (secondAt true x atRest).cal.secondDue = true ∧
        (secondAt true x atRest).agent.supervision.state ≠ .counting) ∧
      (∀ n : Fin 65536, n = 1 ∨ n = 65535 → 0 < n.val ∧ Settled (secondAt true ⟨.counting, ⟨n.val + 1, by omega⟩⟩ atRest)) ∧
      Settled (secondAt true ⟨.counting, 1⟩ (holding paired (others.drop 1))) ∧
      RefsDistinct (secondAt true ⟨.counting, 1⟩ (holding paired (others.drop 1))) ∧
      PartnersLinked (secondAt true ⟨.counting, 1⟩ (holding paired (others.drop 1))) := by
  refine ⟨⟨secondAt_settled atRest_settled _ _, rfl⟩, ?_, ?_, secondAt_settled paired_settled _ _,
    (paired_linked (others.drop 1)).1, (paired_linked (others.drop 1)).2⟩
  · rintro x (rfl | rfl)
    · exact ⟨secondAt_settled atRest_settled _ _, rfl, by decide⟩
    · exact ⟨secondAt_settled atRest_settled _ _, rfl, by decide⟩
  · rintro n (rfl | rfl)
    · exact ⟨by decide, secondAt_settled atRest_settled _ _⟩
    · exact ⟨by decide, secondAt_settled atRest_settled _ _⟩

/-- The gate at a minute boundary with a commit state, with CLEAR_SHADOW in execution or not. -/
def minuteWith (x : CommitPhase) (busy : Bool) : State :=
  { atRest with
    cal := { atRest.cal with windowMinute := some ⟨7, 0, 30⟩, commitMinute := some ⟨7, 0, 30⟩ }
    commit := ⟨x, 0⟩
    store := { atRest.store with port := if busy then .agent .b0 else .free }
    agent := { atRest.agent with exec := if busy then some ⟨0, .clear 0⟩ else none } }

theorem test_hyp_MinuteBoundaryEvaluatesAndCommits :
    (∀ s, s = minuteWith .idle false ∨ s = minuteWith (.scheduled ⟨7, 30⟩) true ∨
        s = minuteWith (.scheduled ⟨7, 30⟩) false →
      s.cal.windowMinute = some ⟨7, 0, 30⟩ ∧ s.cal.commitMinute = some ⟨7, 0, 30⟩ ∧ Settled s ∧
        (s.commit.phase ≠ .scheduled ⟨7, 30⟩ ∨ s.shadowBusy = true ∨ s.shadowBusy = false)) ∧
      atRest.cal.windowMinute = none ∧ atRest.cal.commitMinute = none := by
  unfold Settled
  refine ⟨?_, rfl, rfl⟩
  rintro s (rfl | rfl | rfl) <;> decide +kernel

/-- The minute boundary that opens window 0 of bank 0 and fires the schedule, a record held for that window. -/
def openingMinute : State :=
  { minuteWith (.scheduled ⟨7, 30⟩) false with
    pool := (holding alone others).pool
    windows := ⟨⟨atRest.windows.records.b0.set 0 ⟨true, 1, 30, 60, none, false⟩, atRest.windows.records.b1⟩, ⟨0, 0⟩⟩
    hold := (holding alone others).hold }

/-- Taken at the Window Monitor alone the boundary lets the scan release the record before the commit; taken at both
at one event, the commit marks the record and the scan passes it over (R81). -/
theorem test_a_scan_releases_between_evaluation_and_commit :
    (after (.minuteBoundary .commitAlone) (after .scanEvaluation
      (after (.minuteBoundary .evaluationAlone) openingMinute))).hold.records = [] ∧
    (after (.minuteBoundary .commitAlone) (after .scanEvaluation
      (after (.minuteBoundary .evaluationAlone) openingMinute))).store.active = .b1 ∧
    ((after .scanEvaluation (after (.minuteBoundary .evaluationFirst) openingMinute)).hold.records.map
      (·.pending)) = [true] := by decide +kernel

theorem test_hyp_ReferenceLossFallsBack :
    ({ atRest with cal := { atRest.cal with monitor := .absent } } : State).cal.monitor = .absent ∧
      atRest.cal.monitor = .present ∧ ¬(false = true ∧ atRest.cal.source = .reference) ∧
      ({ atRest with cal := { atRest.cal with quality := .nominal } } : State).cal.quality = .nominal ∧
      atRest.cal.quality ≠ .nominal ∧
      (timed 0 0 0 0 .reference false).cal.source = .reference ∧
      NothingOutstanding (timed 0 0 0 0 .reference false) :=
  ⟨rfl, rfl, by decide, rfl, by decide, rfl, timed_outstanding ..⟩

/-- The Monitor ABSENT with so many good edges. -/
def absent (seen : Bool) (good : Fin 1025) : State :=
  { atRest with cal := { atRest.cal with monitor := .absent, edgeSeen := seen, goodEdges := good } }

theorem test_hyp_ReferenceEdgesAreCounted :
    (absent false 0).cal.monitor = .absent ∧ (absent false 0).cal.edgeSeen = false ∧
      (absent true 0).cal.edgeSeen = true ∧ (absent true 0).cal.goodEdges.val = (0 : Fin 1023).val ∧
      (absent true 1022).cal.goodEdges.val = (1022 : Fin 1023).val ∧ (absent true 1023).cal.goodEdges = 1023 ∧
      (26999 < 27000 ∧ 34000 < 34001) ∧ (27000 ≤ 27000 ∧ 34000 ≤ 34000) ∧
      (timed 0 0 0 0 .fallback true).cal.monitor = .present ∧ (timed 0 0 0 0 .fallback true).cal.source = .fallback ∧
      atRest.cal.source = .reference ∧ atRest.cal.divider.val = (0 : Fin 31).val ∧
      ({ atRest with cal := { atRest.cal with divider := 30 } } : State).cal.divider.val = (30 : Fin 31).val ∧
      ({ atRest with cal := { atRest.cal with divider := 31 } } : State).cal.divider = 31 := by decide +kernel

theorem test_hyp_HoldExpiryRemovesTheExpired :
    (Settled (holding alone others) ∧ RefsDistinct (holding alone others) ∧ PartnersLinked (holding alone others) ∧
        (holding alone others).hold.records.filter (fun r =>
          goesWith (fun _ f => atOrBefore f.deadline (holding alone others).cal.uptime)
            (holding alone others).hold.records r) = alone) ∧
      Settled (holding paired (others.drop 1)) ∧
      RefsDistinct (holding paired (others.drop 1)) ∧ PartnersLinked (holding paired (others.drop 1)) ∧
      (holding paired (others.drop 1)).hold.records.filter (fun r =>
        goesWith (fun _ f => atOrBefore f.deadline (holding paired (others.drop 1)).cal.uptime)
          (holding paired (others.drop 1)).hold.records r) = paired := by
  refine ⟨⟨?_, (alone_linked _).1, (alone_linked _).2, by decide +kernel⟩, paired_settled,
    (paired_linked _).1, (paired_linked _).2, by decide +kernel⟩
  unfold Settled
  decide +kernel

/-- Two pending firsts of port N, the older past its deadline, its request in the slot of Judge N behind a telegram. -/
def requested : State :=
  { holding [] (others.drop 2) with
    judges := ⟨⟨[], some 0, none, .waiting (.telegram 2 .plain key)⟩, judgeReset⟩
    store := { atRest.store with port := .scrub }
    hold := { atRest.hold with
      records := [{ record 0 0 (.first (heldFirst 5 none)) with pending := true },
        { record 1 1 (.first (heldFirst 99 none)) with pending := true }]
      nextRef := 9
      outstanding := ⟨some ⟨0, false⟩, none⟩ } }

theorem test_hyp_HoldExpiryRemovesTheExpired_requested :
    Settled requested ∧ RefsDistinct requested ∧ PartnersLinked requested := by
  refine ⟨by unfold Settled; decide +kernel, ?_⟩
  simp [RefsDistinct, PartnersLinked, requested, holding, record, heldFirst, HeldRecord.partnerRef, HeldRecord.firstPart]

theorem test_an_expiry_withdraws_the_request :
    (after .holdExpiry requested).hold.records.map (·.ref) = [1] ∧
      ((after .holdExpiry requested).judges.get .n).slot = some 1 ∧
      (after .holdExpiry requested).hold.outstanding.get .n = some ⟨1, false⟩ ∧
      (after .holdExpiry requested).pool.free = others.drop 2 ++ [0] := by decide +kernel

/-- Judge N's binding to held record 0, its deadline reached, where that record is as given. -/
def boundTo (x : List HeldRecord × List BufId) : State :=
  { holding x.1 x.2 with judges := ⟨⟨[], none, some (binding (.held 0)), .idle⟩, judgeReset⟩ }

theorem test_hyp_BindDeadlineEndsTheBinding_records :
    (∀ x ∈ removals, Settled (boundTo x) ∧ RefsDistinct (boundTo x) ∧
      PartnersLinked (boundTo x) ∧ ∀ r ∈ (boundTo x).hold.records, r.ref = 0 → r.isFirst = true) ∧
      (binding (.held 0)).reached = false ∧ (binding (.held 0)).outcome = .held 0 ∧
      atOrBefore (binding (.held 0)).deadline (boundTo (paired, others.drop 1)).cal.uptime = true ∧
      judgePlaces ((boundTo (paired, others.drop 1)).judges.get .n) = [] := by
  refine ⟨fun x hx => ?_, rfl, rfl, by decide, rfl⟩
  have h := removals_sound x hx
  have k : ∀ x ∈ removals, Settled (boundTo x) ∧ ∀ r ∈ (boundTo x).hold.records, r.ref = 0 → r.isFirst = true := by
    unfold Settled
    decide +kernel
  exact ⟨(k x hx).1, h.2.2.1, h.2.2.2, (k x hx).2⟩

/-- A first that awaits its partner, held for Judge N's binding. -/
def awaited : List HeldRecord := [record 0 0 (.first { heldFirst 99 none with awaiting := true })]

/-- The gate with that record and Judge N's binding to it, the deadline reached. -/
def boundToHeld : State := { bound (binding (.held 0)) [] 5 with hold := { atRest.hold with records := awaited, nextRef := 9 } }

/-- The expiry of a first that awaits its partner closes the binding of its Judge (R53, R105). -/
theorem test_an_expiry_closes_the_binding :
    ((after .holdExpiry { boundToHeld with cal := { boundToHeld.cal with uptime := 99 } }).judges.get .n).bind = none ∧
      (after .holdExpiry { boundToHeld with cal := { boundToHeld.cal with uptime := 99 } }).hold.records = [] := by
  decide +kernel

theorem test_hyp_BindDeadlineEndsTheBinding :
    (Settled atRest ∧ (atRest.judges.get .n).bind = none) ∧
      (Settled (bound (binding .refused) [] 4) ∧
        atOrBefore (binding .refused).deadline (bound (binding .refused) [] 4).cal.uptime = false) ∧
      (Settled (bound (binding .refused) [1] 5) ∧ (binding .refused).reached = false ∧
        atOrBefore (binding .refused).deadline (bound (binding .refused) [1] 5).cal.uptime = true ∧
        1 ∈ judgePlaces ((bound (binding .refused) [1] 5).judges.get .n) ∧
        atOrBefore ((bound (binding .refused) [1] 5).buffer 1).desc.uptime (binding .refused).deadline = true) ∧
      (∀ o, o = .refused ∨ o = .passed .normal →
        Settled (bound (binding o) [] 5) ∧ ((bound (binding o) [] 5).judges.get .n).bind = some (binding o) ∧
        judgePlaces ((bound (binding o) [] 5).judges.get .n) = [] ∧ (binding o).outcome = o ∧
        (binding o).particulars = some ⟨0x1000, 14, some 3⟩) ∧
      (Settled boundToHeld ∧ (boundToHeld.judges.get .n).bind = some (binding (.held 0)) ∧
        RefsDistinct boundToHeld ∧ PartnersLinked boundToHeld ∧
        ∀ r ∈ boundToHeld.hold.records, r.ref = 0 → r.isFirst = true) := by
  refine ⟨⟨atRest_settled, rfl⟩, ?_, ?_, ?_, ?_⟩
  · unfold Settled
    decide +kernel
  · unfold Settled
    decide +kernel
  · unfold Settled
    rintro o (rfl | rfl) <;> decide +kernel
  · refine ⟨by unfold Settled; decide +kernel, rfl, ?_, ?_, ?_⟩
    all_goals simp [RefsDistinct, PartnersLinked, boundToHeld, awaited, record, heldFirst, HeldRecord.partnerRef,
      HeldRecord.firstPart, HeldRecord.isFirst]

/-- The Refill Timer at a tick of its grid. -/
def refilling (x : TimerState) (count : BitVec 16) (now : Uptime) : State :=
  { atRest with
    cal := { atRest.cal with refillTick := true, uptime := now }
    policer := { atRest.policer with timer := x, count := count }
    agent := { atRest.agent with settings := { defaultSettings with refillSource := .sixtyFourth } } }

theorem test_hyp_RefillPulsesAndRefills :
    atRest.cal.refillTick = false ∧ (refilling .running 0 15).cal.refillTick = true ∧
      (refilling .running 0 15).cal.uptime.toNat % (refilling .running 0 15).agent.settings.refillSource.period ≠ 0 ∧
      (refilling .paused 0 16).policer.timer ≠ .running ∧
      ∀ n : Fin 3, (refilling .running (BitVec.ofNat 16 n.val) 16).cal.refillTick = true ∧
        (refilling .running (BitVec.ofNat 16 n.val) 16).policer.timer = .running ∧
        (refilling .running (BitVec.ofNat 16 n.val) 16).cal.uptime.toNat %
          (refilling .running (BitVec.ofNat 16 n.val) 16).agent.settings.refillSource.period = 0 ∧
        (refilling .running (BitVec.ofNat 16 n.val) 16).policer.count.toNat = n.val := by decide +kernel

/-- The Scrubber at a tick. -/
def scrubTickAt (now : Uptime) (request : Bool) (debt : Fin 16) (port : PortUse) : State :=
  { atRest with
    cal := { atRest.cal with scrubTick := true, uptime := now }
    store := { atRest.store with scrubRequest := request, debt := debt, port := port } }

theorem test_hyp_ScrubIntervalRaisesTheRequest :
    (Settled atRest ∧ atRest.cal.scrubTick = false) ∧
      (∀ now : Uptime, now = 0 ∨ now = 255 → Settled (scrubTickAt now false 0 .free) ∧
        (scrubTickAt now false 0 .free).cal.scrubTick = true ∧
        (now = 0 ∨ now.toNat % ((scrubTickAt now false 0 .free).agent.settings.scrubInterval.toNat * 16) ≠ 0)) ∧
      (∀ s, s = scrubTickAt 256 false 0 .free ∨ s = scrubTickAt 256 true 7 .scrub ∨
          s = scrubTickAt 256 true 15 .scrub →
        Settled s ∧ s.cal.scrubTick = true ∧ s.store.phase = .ready ∧ s.cal.uptime ≠ 0 ∧
          s.cal.uptime.toNat % (s.agent.settings.scrubInterval.toNat * 16) = 0) := by
  refine ⟨⟨atRest_settled, rfl⟩, ?_, ?_⟩
  · unfold Settled
    rintro now (rfl | rfl) <;> decide +kernel
  · unfold Settled
    rintro s (rfl | rfl | rfl) <;> decide +kernel

/-- Row 0 of bank 0 as given, its pair in the Poison Set or not. -/
def withRow (r : StoredRow) (poisoned : Bool) (port : PortUse) : State :=
  { atRest with store := { atRest.store with
    rows := ⟨atRest.store.rows.b0.set 0 r, atRest.store.rows.b1⟩
    poison := ⟨atRest.store.poison.b0.set 0 poisoned, atRest.store.poison.b1⟩
    port := port } }

theorem clean_iff (b : Bank) (i : Index) (s : State) :
    RowClean b i s ↔ (!s.store.poisoned b i && (s.store.row b i).changed.isEmpty) = true := by
  simp [RowClean]

theorem test_hyp_ScrubStepChecksOneRow :
    (∀ r, r = freshRow blankEntry ∨ r = ⟨blankEntry, [(0, 1)]⟩ ∨ r = ⟨blankEntry, [(0, 1), (0, 2)]⟩ →
      (withRow r false .scrub).store.port = .scrub ∧ Settled (withRow r false .scrub) ∧
        placePair ((withRow r false .scrub).store.pointer + 0) = (.b0, 0)) ∧
      RowClean .b0 0 (withRow (freshRow blankEntry) false .scrub) ∧
      RowCorrectable .b0 0 (withRow ⟨blankEntry, [(0, 1)]⟩ false .scrub) ∧
      RowUncorrectable .b0 0 (withRow ⟨blankEntry, [(0, 1), (0, 2)]⟩ false .scrub) ∧
      (Settled (withRow (freshRow blankEntry) true .scrub) ∧
        (∀ j : Fin 512, j < 1 → (withRow (freshRow blankEntry) true .scrub).store.poisoned
          (placePair ((withRow (freshRow blankEntry) true .scrub).store.pointer + j)).1
          (placePair ((withRow (freshRow blankEntry) true .scrub).store.pointer + j)).2 = true) ∧
        RowClean .b0 1 (withRow (freshRow blankEntry) true .scrub)) := by
  refine ⟨?_, ?_, ?_, ?_, ?_, ?_, ?_⟩
  · unfold Settled
    rintro r (rfl | rfl | rfl) <;> decide +kernel
  · rw [clean_iff]
    decide +kernel
  · unfold RowCorrectable
    decide +kernel
  · unfold RowUncorrectable
    decide +kernel
  · unfold Settled
    decide +kernel
  · intro j hj
    have : j = 0 := by omega
    rw [this]
    decide +kernel
  · rw [clean_iff]
    decide +kernel

/-- A scrub step where every pair is poisoned, with a debt. -/
def allPoisoned (debt : Fin 16) : State :=
  { atRest with store := { atRest.store with
    poison := ⟨Vector.replicate 256 true, Vector.replicate 256 true⟩
    port := .scrub
    scrubRequest := true
    debt := debt } }

theorem test_hyp_ScrubStepChecksOneRow_all_poisoned :
    ∀ debt, (allPoisoned debt).store.port = .scrub ∧ Settled (allPoisoned debt) ∧
      ∀ b i, (allPoisoned debt).store.poisoned b i = true := by
  intro debt
  refine ⟨rfl, (settled_iff _).2 ⟨rfl, ⟨rfl, rfl⟩, ⟨rfl, rfl⟩, ⟨rfl, rfl⟩, rfl, ⟨rfl, rfl⟩, rfl⟩, fun b i => ?_⟩
  cases b <;> simp [allPoisoned, TableStore.poisoned, PerBank.get]

theorem test_hyp_ScrubStepChecksOneRow_clean : (readRow (freshRow anyEntry) 0).1 = .clean anyEntry := rfl

theorem test_a_row_with_a_one_bit_word_is_not_clean (draws : Nat) (e : StreamEntry) :
    (readRow ⟨anyEntry, [(0, 1), (1, 1), (1, 2), (1, 3)]⟩ draws).1 ≠ .clean e := fun h =>
  (readRow_clean h 0).1 rfl

/-- A window scan of bank 0 that has a record still to reach, which is held or has gone. -/
def scanning (rest : List Nat) (l : List HeldRecord) : State :=
  { holding l others with
    hold := { (holding l others).hold with scan := some ⟨.window .b0 1, 0 :: rest⟩ } }

/-- The gate at the same scan with window 0 open or closed, credits as they are, and supervision lapsed or not. -/
def scanningAt (openNow : Bool) (sup : SupState) : State :=
  { scanning [] alone with
    windows := { atRest.windows with openSets := ⟨if openNow then 1 else 0, 0⟩ }
    agent := { atRest.agent with supervision := ⟨sup, 0⟩ } }

theorem test_hyp_ScanEvaluatesTheNextRecord :
    (∀ s, s = scanning [4] [] ∨ s = scanning [] [] ∨ s = scanning [] alone →
        (∃ rest, s.hold.scan = some ⟨.window .b0 1, 0 :: rest⟩) ∧ Settled s ∧ RefsDistinct s ∧
          s.hold.waiting = []) ∧
      (∀ r f, r = record 0 0 (.first f) → f = heldFirst 5 none → r ∈ (scanning [] alone).hold.records ∧
        r.ref = 0 ∧ r.role = .first f ∧ f.partner = none ∧ scanEvaluates (.window .b0 1) r = true ∧
        scanEvaluates .refill r = false ∧
        policyNow (scanningAt false .disabled) r.bank r.index f.context = .hold .window ∧
        policyNow (scanningAt false .lapsed) r.bank r.index f.context = .refuse .unsupervised ∧
        policyNow (scanningAt true .disabled) r.bank r.index f.context = .pass ∧
        listRoom ((scanningAt true .disabled).tx.get (otherPort r.port)) r.list = true ∧
        listRoom (({ scanningAt true .disabled with tx := ⟨txReset, ⟨[], fullList 16, .spacing, 0⟩⟩ } : State).tx.get
          (otherPort r.port)) r.list = false) := by
  refine ⟨?_, ?_⟩
  · unfold Settled
    rintro s (rfl | rfl | rfl)
    · exact ⟨⟨_, rfl⟩, by decide +kernel, by simp [RefsDistinct, scanning, holding], rfl⟩
    · exact ⟨⟨_, rfl⟩, by decide +kernel, by simp [RefsDistinct, scanning, holding], rfl⟩
    · exact ⟨⟨_, rfl⟩, by decide +kernel, by simp [RefsDistinct, scanning, holding, alone, record], rfl⟩
  · rintro r f rfl rfl
    decide +kernel

theorem test_hyp_ScanEvaluatesTheNextRecord_with_waiting :
    (∀ w, w = [] ∨ w = [.refill] ∨ w = [.refill, .window .b0 1] →
      Settled { scanning [] [record 3 3 (.first (heldFirst 99 none))] with
        hold := { (scanning [] [record 3 3 (.first (heldFirst 99 none))]).hold with waiting := w } }) ∧
      atRest.hold.scan = none ∧ atRest.hold.waiting = [] ∧ (scanning [] alone).hold.scan ≠ none ∧
      chosenOf .refill [record 3 3 (.first (heldFirst 99 none))] = [] ∧
      chosenOf (.window .b0 1) [record 3 3 (.first (heldFirst 99 none))] ≠ [] ∧
      (∀ v, ScanKind.window .b1 v ∉ [.refill, .window .b0 1]) ∧
      [.refill, .window .b0 1] = [.refill] ++ ScanKind.window .b0 1 :: [] ∧ ScanKind.refill ∉ [.window .b0 1] ∧
      (∃ r f, r ∈ (scanning [] paired).hold.records ∧ r.ref = 0 ∧ r.role = .first f ∧ f.partner = some 1 ∧
        scanEvaluates (.window .b0 1) r = true ∧ scanEvaluates .refill r = false) ∧
      (∀ k, Settled { scanning [] paired with hold := { (scanning [] paired).hold with scan := some ⟨k, [0]⟩ } }) := by
  refine ⟨?_, rfl, rfl, nofun, by decide, by decide, ?_, rfl, by decide, ?_, ?_⟩
  · unfold Settled
    rintro w (rfl | rfl | rfl) <;> decide +kernel
  · intro v h
    simp at h
  · exact ⟨record 0 0 (.first (heldFirst 5 (some 1))), _, by simp [scanning, holding, paired], rfl, rfl, rfl, by decide,
      by decide⟩
  · exact fun k => (settled_iff _).2 ⟨rfl, ⟨rfl, rfl⟩, ⟨rfl, rfl⟩, ⟨rfl, rfl⟩, rfl, ⟨rfl, rfl⟩, rfl⟩

/-- An entry that matches every telegram and admits every destination. -/
def anyEntry : StreamEntry :=
  { blankEntry with valid := true, srcHigh := 0xFFFE, classes := 0xFFFF, dstHigh := 0xFFFE, broadcast := true, privLimit := 3 }

/-- A telegram from station 1 to 0x1000 with an unfilled STAMP slot, a hold limit of 300 s and URGENT. -/
def stampedLine (dest : Addr) (slot : List Byte) : List Byte :=
  telegramBytes dest 1 0xE4 3 9 1 [(0x01, slot), (0x02, [1, 44]), (0x03, [])] [0xAA]

theorem test_hyp_ChecksDecideTheVerdict :
    OptionsInForm 3 [(0x01, [0, 0, 0, 0, 0, 0, 0, 0]), (0x02, [1, 44]), (0x03, [])] ∧ OptionsInForm 0 [] := by
  unfold OptionsInForm
  decide

theorem test_describe_reads_the_telegram :
    describe .n (stampedLine 0x1000 [0, 0, 0, 0, 0, 0, 0, 0]) = ⟨.n, 1, 0x1000, 14, 1, true, true, some 300⟩ ∧
      describe .f (stampedLine 0x1000 [0, 0, 0, 0, 0, 0, 0, 0x80]) = ⟨.f, 1, 0x1000, 14, 1, true, false, some 300⟩ := by
  decide +kernel

/-- The telegram in buffer 0, arrived on day 258 at second 66051, sub-second 515, quality NOMINAL. -/
def stamped : State :=
  atRest.setBuffer 0
    ⟨stampedLine 0x1000 [0, 0, 0, 0, 0, 0, 0, 0], ⟨.n, 26, ⟨258, 66051, 515⟩, .nominal, 5⟩⟩

theorem test_hyp_LookupConclusionCarriesTheVerdict_prepared :
    (stamped.buffer 0).bytes = stampedLine 0x1000 [0, 0, 0, 0, 0, 0, 0, 0] := by decide +kernel

theorem test_preparation_writes_destination_and_stamp :
    ((prepareBuffer 0 0x2345 .fill stamped).buffer 0).bytes = stampedLine 0x2345 [1, 2, 1, 2, 3, 2, 3, 0x82] ∧
      ((prepareBuffer 0 0x2345 .ignore stamped).buffer 0).bytes = stampedLine 0x2345 [0, 0, 0, 0, 0, 0, 0, 0] := by
  decide +kernel

/-- Bank 0 blank but for one row. -/
def tableWith (i : Index) (r : StoredRow) : State :=
  { atRest with store := { atRest.store with rows := ⟨atRest.store.rows.b0.set i.val r, atRest.store.rows.b1⟩ } }

theorem tableWith_row (i : Index) (r : StoredRow) : (tableWith i r).store.row .b0 i = r := by
  simp [tableWith, TableStore.row, PerBank.get]

theorem tableWith_poison (i j : Index) (r : StoredRow) (b : Bank) : (tableWith i r).store.poisoned b j = false := by
  cases b <;> simp [tableWith, atRest, State.reset, storePowerOn, TableStore.poisoned, PerBank.get]

theorem tableWith_blank (i j : Index) (r : StoredRow) (h : j ≠ i) :
    RowClean .b0 j (tableWith i r) ∧ ¬RowMatches .b0 key (tableWith i r) j := by
  have hij : (i : Nat) ≠ j := fun e => h (Fin.ext e.symm)
  have e : (tableWith i r).store.row .b0 j = freshRow blankEntry := by
    simp [tableWith, TableStore.row, PerBank.get, atRest, State.reset, storePowerOn, Vector.getElem_set_ne, hij]
  refine ⟨⟨tableWith_poison i j r .b0, by rw [e]; rfl⟩, fun m => ?_⟩
  have := m.1
  rw [e] at this
  cases this

theorem test_hyp_LookupStopsAtTheLowestMatch :
    (∀ i : Index, ∀ r, (∀ j < i, RowClean .b0 j (tableWith i r) ∧ ¬RowMatches .b0 key (tableWith i r) j)) ∧
      (∀ i : Index, i = 0 ∨ i = 255 → RowClean .b0 i (tableWith i (freshRow anyEntry)) ∧
        RowMatches .b0 key (tableWith i (freshRow anyEntry)) i ∧
        RowCorrectable .b0 i (tableWith i ⟨anyEntry, [(0, 1)]⟩) ∧
        RowMatches .b0 key (tableWith i ⟨anyEntry, [(0, 1)]⟩) i ∧
        RowUncorrectable .b0 i (tableWith i ⟨anyEntry, [(0, 1), (0, 2)]⟩)) ∧
      (withRow (freshRow anyEntry) true .free).store.poisoned .b0 0 = true ∧
      ∀ i, RowClean .b0 i (tableWith 0 (freshRow blankEntry)) ∧
        ¬RowMatches .b0 key (tableWith 0 (freshRow blankEntry)) i := by
  refine ⟨fun i r j h => tableWith_blank i j r (ne_of_lt h), ?_, by decide +kernel, ?_⟩
  · intro i _
    refine ⟨⟨tableWith_poison _ _ _ _, by rw [tableWith_row]; rfl⟩, ?_, ⟨tableWith_poison _ _ _ _, ?_⟩, ?_,
      ⟨tableWith_poison _ _ _ _, ?_⟩⟩
    · unfold RowMatches
      rw [tableWith_row]
      decide
    · rw [tableWith_row]
      decide
    · unfold RowMatches
      rw [tableWith_row]
      decide
    · rw [tableWith_row]
      decide
  · intro i
    by_cases h : i = 0
    · rw [h]
      refine ⟨⟨tableWith_poison _ _ _ _, by rw [tableWith_row]; rfl⟩, fun m => ?_⟩
      have := m.1
      rw [tableWith_row] at this
      cases this
    · exact tableWith_blank 0 i _ h

/-- Bank 0 blank but for a correctable row 0 below a row 1 that is as given. -/
def behindCorrectable (r : StoredRow) : State :=
  { atRest with store := { atRest.store with
    rows := ⟨(atRest.store.rows.b0.set 0 ⟨blankEntry, [(0, 1)]⟩).set 1 r, atRest.store.rows.b1⟩ } }

theorem test_hyp_LookupStopsAtTheLowestMatch_behind_a_correctable_row :
    (∀ r, RowCorrectable .b0 0 (behindCorrectable r) ∧ ¬RowMatches .b0 key (behindCorrectable r) 0) ∧
      (∀ e, e = { anyEntry with privLimit := 0 } ∨ e = { anyEntry with dstHigh := 0, broadcast := false } →
        RowMatches .b0 key (behindCorrectable (freshRow e)) 1 ∧
          (behindCorrectable (freshRow e)).store.poisoned .b0 1 = false ∧
          ((behindCorrectable (freshRow e)).store.row .b0 1).changed = []) ∧
      max (1 : BitVec 2).toNat (atRest.agent.settings.floor .f).toNat = 1 ∧ ({ anyEntry with privLimit := 0 } :
        StreamEntry).privLimit.toNat < 1 ∧ 1 ≤ anyEntry.privLimit.toNat := by
  refine ⟨fun r => ⟨⟨rfl, ?_⟩, ?_⟩, ?_, by decide +kernel, by decide, by decide⟩
  · have h : (behindCorrectable r).store.row .b0 0 = ⟨blankEntry, [(0, 1)]⟩ := by
      simp [behindCorrectable, TableStore.row, PerBank.get]
    rw [h]
    decide
  · rintro ⟨h, _⟩
    have e : (behindCorrectable r).store.row .b0 0 = ⟨blankEntry, [(0, 1)]⟩ := by
      simp [behindCorrectable, TableStore.row, PerBank.get]
    rw [e] at h
    cases h
  · rintro e he
    have h : (behindCorrectable (freshRow e)).store.row .b0 1 = freshRow e := by
      simp [behindCorrectable, TableStore.row, PerBank.get]
    refine ⟨?_, rfl, by rw [h]; rfl⟩
    unfold RowMatches
    rw [h]
    rcases he with rfl | rfl <;> decide

/-- The lookup of the last telegram in hand of Judge N, row 0 as given. -/
def looking (r : StoredRow) : State :=
  { withRow r false (.judge .n) with
    pool := ⟨atRest.pool.buffers.set 0 { blankBuffer with bytes := tenBytes 0x1000 0xE0 ++ [0] }, others⟩
    judges := ⟨⟨[], none, none, .lookup (.telegram 0 .plain key) .b0⟩, judgeReset⟩ }

/-- Row 0 in the cases of the verdict: refused for its closed window, passed, held. -/
def refusing : State := looking (freshRow { anyEntry with windows := 1 })
def passing : State := looking (freshRow anyEntry)
def withholding : State := looking (freshRow { anyEntry with windows := 1, closed := .hold, holdLimit := 10 })

/-- The same with telegrams waiting behind the one in hand of Judge N. -/
def withArrivals (l : List BufId) (s : State) : State :=
  { s with judges := ⟨{ s.judges.n with arrivals := l }, s.judges.f⟩ }

theorem test_hyp_LookupConclusionCarriesTheVerdict_with_arrivals :
    (∀ s, s = refusing ∨ s = passing ∨ s = withholding →
      OwnInHand .n 0 .plain [1, 2] none none key .b0 (withArrivals [1, 2] s) ∧
        (lookup .b0 key (withArrivals [1, 2] s)).joins = false) ∧
      NoRequestDue (Dropped .n 0 (refusing.buffer 0).bytes .windowClosed (some 0) (withArrivals [1, 2] refusing)) := by
  unfold OwnInHand Settled
  refine ⟨?_, ?_⟩
  · rintro s (rfl | rfl | rfl) <;> decide +kernel
  · intro q _ r hr
    have : (Dropped .n 0 (refusing.buffer 0).bytes .windowClosed (some 0) (withArrivals [1, 2] refusing)).hold.records =
        [] := by decide +kernel
    rw [this] at hr
    cases hr

theorem test_the_oldest_arrival_is_taken :
    ((after (.lookupConclusion .n .flagFirst) (withArrivals [1, 2] refusing)).judges.get .n).arrivals = [2] ∧
      judgedBuffer ((after (.lookupConclusion .n .flagFirst) (withArrivals [1, 2] refusing)).judges.get .n).phase =
        some 1 := by decide +kernel

theorem test_hyp_LookupConclusionCarriesTheVerdict :
    (∀ s, s = refusing ∨ s = passing ∨ s = withholding ∨ s = { passing with tx := ⟨txReset, ⟨[], fullList 16, .spacing, 0⟩⟩ } ∨
        s = { withholding with hold := { atRest.hold with records := List.replicate 32 (record 0 0 (.partner 0)) } } ∨
        s = { withholding with hold := { atRest.hold with records := List.replicate 31 (record 0 0 (.partner 0)) } } →
      OwnInHand .n 0 .plain [] none none key .b0 s ∧ (lookup .b0 key s).joins = false) ∧
      verdictOf refusing .b0 (lookup .b0 key refusing).stop (describe .n (refusing.buffer 0).bytes) =
        .refuse .windowClosed (some 0) ∧
      (∃ f, verdictOf passing .b0 (lookup .b0 key passing).stop (describe .n (passing.buffer 0).bytes) = .pass f ∧
        listRoom (passing.tx.get (otherPort .n)) f.list = true) ∧
      (∃ f, verdictOf withholding .b0 (lookup .b0 key withholding).stop (describe .n (withholding.buffer 0).bytes) =
        .hold f .window 10) := by
  unfold OwnInHand Settled
  refine ⟨?_, by decide +kernel, ⟨_, rfl, by decide +kernel⟩, ⟨_, rfl⟩⟩
  rintro s (rfl | rfl | rfl | rfl | rfl | rfl) <;> decide +kernel

/-- A row that a read finds uncorrectable. -/
def lostRow : StoredRow := ⟨anyEntry, [(0, 1), (0, 2)]⟩

theorem test_hyp_LookupFaultPoisonsTheRow :
    OwnInHand .n 0 .plain [] none none key .b0 (looking lostRow) ∧ EachBufferInOnePlace (looking lostRow) ∧
      lookup .b0 key (looking lostRow) = ⟨.fault 0, 0, 0⟩ := by
  unfold OwnInHand Settled EachBufferInOnePlace
  decide +kernel

theorem test_table_fault_is_told_and_recorded :
    (after (.lookupConclusion .n .flagFirst) (looking lostRow)).exc.flags = 0x05 ∧
      (after (.lookupConclusion .n .flagFirst) (looking lostRow)).exc.queue.map (·.what) =
        [⟨.tableFault, .n, some 1, some 0x1000, some 14, none⟩] := by decide +kernel

/-- The same lookup for the first of a binding, its deadline reached or not, with the slot, the arrivals and the held
records as given. -/
def opening (r : StoredRow) (reached : Bool) (slot : Option Nat) (arrivals : List BufId) (l : List HeldRecord) : State :=
  { looking r with
    judges := ⟨⟨arrivals, slot, some ⟨1, .pending, none, 5, reached⟩, .lookup (.telegram 0 .first key) .b0⟩, judgeReset⟩
    hold := { atRest.hold with records := l, nextRef := 40, outstanding := ⟨slot.map (⟨·, false⟩), none⟩ } }

theorem test_hyp_LookupConclusionCarriesTheVerdict_of_a_first :
    (∀ r, r = freshRow { anyEntry with windows := 1 } ∨ r = freshRow anyEntry ∨
        r = freshRow { anyEntry with windows := 1, closed := .hold, holdLimit := 10 } → ∀ reached,
      OwnInHand .n 0 .first [] none (some ⟨1, .pending, none, 5, reached⟩) key .b0 (opening r reached none [] []) ∧
        (lookup .b0 key (opening r reached none [] [])).joins = false ∧ RefsDistinct (opening r reached none [] [])) ∧
      (∀ reached, OwnInHand .n 0 .first [1] (some 0) (some ⟨1, .pending, none, 5, reached⟩) key .b0
          (opening (freshRow anyEntry) reached (some 0) [1] [record 0 2 (.first (heldFirst 99 none))]) ∧
        atOrBefore ((opening (freshRow anyEntry) reached (some 0) [1] []).buffer 1).desc.uptime 5 = true) ∧
      RefsDistinct (opening (freshRow anyEntry) true (some 0) [1] [record 0 2 (.first (heldFirst 99 none))]) ∧
      (opening (freshRow anyEntry) true (some 0) [1] []).hold.outstanding.get .n = some ⟨0, false⟩ := by
  unfold OwnInHand Settled RefsDistinct
  refine ⟨?_, ?_, by decide +kernel, rfl⟩
  · rintro r (rfl | rfl | rfl) <;> decide +kernel
  · decide +kernel

theorem test_hyp_LookupFaultPoisonsTheRow_of_a_first :
    ∀ reached, OwnInHand .n 0 .first [] none (some ⟨1, .pending, none, 5, reached⟩) key .b0
        (opening lostRow reached none [] []) ∧ EachBufferInOnePlace (opening lostRow reached none [] []) ∧
      lookup .b0 key (opening lostRow reached none [] []) = ⟨.fault 0, 0, 0⟩ := by
  unfold OwnInHand Settled EachBufferInOnePlace
  decide +kernel

/-- Judge N at the end of the rejudge of the first record held, row 0 as given, and the deadline of that record. -/
def rejudging (r : StoredRow) (deadline : Uptime) (normal : List BufId) : State :=
  { withRow r false (.judge .n) with
    pool := ⟨atRest.pool.buffers.set 0 { blankBuffer with bytes := tenBytes 0x1000 0xE0 ++ [0] }, others⟩
    judges := ⟨⟨[], none, none, .lookup (.rejudge 0 key) .b0⟩, judgeReset⟩
    cal := { atRest.cal with uptime := 5 }
    tx := ⟨txReset, ⟨[], normal, .spacing, 0⟩⟩
    hold := { atRest.hold with
      records := [record 0 0 (.first (heldFirst deadline none))], nextRef := 9
      outstanding := ⟨some ⟨0, false⟩, none⟩ } }

theorem rejudging_hyp (r : StoredRow) (deadline : Uptime) (normal : List BufId) :
    (rejudging r deadline normal).judges.get .n = ⟨[], none, none, .lookup (.rejudge 0 key) .b0⟩ ∧
      (rejudging r deadline normal).store.port = .judge .n ∧ RefsDistinct (rejudging r deadline normal) ∧
      record 0 0 (.first (heldFirst deadline none)) ∈ (rejudging r deadline normal).hold.records ∧
      (rejudging r deadline normal).hold.outstanding.get .n = some ⟨0, false⟩ ∧
      Settled (rejudging r deadline normal) := by
  refine ⟨rfl, rfl, by simp [RefsDistinct, rejudging, record], by simp [rejudging], rfl, (settled_iff _).2 ?_⟩
  exact ⟨rfl, ⟨rfl, rfl⟩, ⟨rfl, rfl⟩, ⟨rfl, rfl⟩, rfl, ⟨rfl, rfl⟩, rfl⟩

/-- The verdict of the rejudge in a state. -/
def rejudged (s : State) : RejudgeVerdict :=
  verdictOf s .b0 (lookup .b0 key s).stop (describe .n (s.buffer 0).bytes)

/-- Row 0 that refuses, passes or holds the record. -/
def refusingRow : StoredRow := freshRow { anyEntry with windows := 1 }
def holdingRow : StoredRow := freshRow { anyEntry with windows := 1, closed := .hold, holdLimit := 10 }

theorem test_hyp_RejudgeVerdictIsCarriedOut :
    (∀ r d l, (rejudging r d l).judges.get .n = ⟨[], none, none, .lookup (.rejudge 0 key) .b0⟩ ∧
      Settled (rejudging r d l) ∧ RefsDistinct (rejudging r d l)) ∧
      (∀ r, r = refusingRow ∨ r = freshRow anyEntry ∨ r = holdingRow →
        (lookup .b0 key (rejudging r 9 [])).joins = false) ∧
      rejudged (rejudging refusingRow 9 []) = .refuse .windowClosed (some 0) ∧
      (∀ l, l = [] ∨ l = fullList 16 → ∃ g, rejudged (rejudging (freshRow anyEntry) 9 l) = .pass g) ∧
      listRoom ((rejudging (freshRow anyEntry) 9 []).tx.get .f) .normal = true ∧
      listRoom ((rejudging (freshRow anyEntry) 9 (fullList 16)).tx.get .f) .normal = false ∧
      (∀ d : Uptime, d = 5 ∨ d = 9 → ∃ g, rejudged (rejudging holdingRow d []) = .hold g .window 10) ∧
      atOrBefore 5 (rejudging holdingRow 5 []).cal.uptime = true ∧
      atOrBefore 9 (rejudging holdingRow 9 []).cal.uptime = false := by
  refine ⟨fun r d l => ⟨(rejudging_hyp r d l).1, (rejudging_hyp r d l).2.2.2.2.2, (rejudging_hyp r d l).2.2.1⟩, ?_,
    by decide +kernel, ?_, by decide +kernel, by decide +kernel, ?_, by decide +kernel, by decide +kernel⟩
  · rintro r (rfl | rfl | rfl) <;> decide +kernel
  · rintro l (rfl | rfl) <;> exact ⟨_, rfl⟩
  · rintro d (rfl | rfl) <;> exact ⟨_, rfl⟩

/-- Judge N at the end of the lookup of a second, a request for record 0 in its slot, row 0 and the held records as given. -/
def following (role : JudgedAs) (r : StoredRow) (l : List HeldRecord) (normal : List BufId) : State :=
  { looking r with
    judges := ⟨⟨[], some 0, none, .lookup (.telegram 0 role key) .b0⟩, judgeReset⟩
    tx := ⟨txReset, ⟨[], normal, .spacing, 0⟩⟩
    hold := { atRest.hold with records := l, nextRef := 40, outstanding := ⟨some ⟨0, false⟩, none⟩ } }

/-- The first of that second: pending or not, cleared or not. -/
def awaiter (pending cleared : Bool) : HeldRecord :=
  { record 0 1 (.first { heldFirst 99 none with awaiting := true, cleared := cleared }) with pending := pending }

/-- So many records besides. -/
def crowd (n : Nat) : List HeldRecord := (List.range n).map fun i => record (i + 2) 1 (.first (heldFirst 99 none))

/-- The same end where the request has been made stale, or its record has gone, with more records held. -/
def discarding (outstanding : Option Request) (l : List HeldRecord) : State :=
  { rejudging (freshRow anyEntry) 9 [] with
    hold := { atRest.hold with records := l, nextRef := 40, outstanding := ⟨outstanding, none⟩ } }

theorem test_hyp_RejudgeVerdictIsCarriedOut_stale_or_gone :
    (∀ o l, (o = some ⟨0, true⟩ ∧ l = [awaiter true false]) ∨ (o = some ⟨0, false⟩ ∧ l = []) ∨
        (o = some ⟨0, false⟩ ∧ l = [{ record 3 3 (.first (heldFirst 99 none)) with pending := true }]) →
      RejudgeInHand .n 0 [] none key .b0 (discarding o l) ∧ (lookup .b0 key (discarding o l)).joins = false) ∧
      (awaiter true false ∈ (discarding (some ⟨0, true⟩) [awaiter true false]).hold.records ∧
        (awaiter true false).ref = 0 ∧ (awaiter true false).port = .n ∧
        (discarding (some ⟨0, true⟩) [awaiter true false]).hold.outstanding.get .n = some ⟨0, true⟩) ∧
      (∃ g, rejudged (discarding (some ⟨0, true⟩) [awaiter true false]) = .pass g) ∧
      Requestable .n (awaiter true false) ∧ Requestable .n { record 3 3 (.first (heldFirst 99 none)) with pending := true } ∧
      (∀ r ∈ [record 3 3 (.first (heldFirst 99 none))], ¬Requestable .n r) := by
  unfold RejudgeInHand Settled RefsDistinct Requestable
  refine ⟨?_, ⟨by simp [discarding], rfl, rfl, rfl⟩, ⟨_, rfl⟩, by decide, by decide, by decide⟩
  rintro o l (⟨rfl, rfl⟩ | ⟨rfl, rfl⟩ | ⟨rfl, rfl⟩) <;> decide +kernel

/-- A row that admits no destination but 0, and what the second's checks make of a row. -/
def narrowRow : StoredRow := freshRow { anyEntry with dstHigh := 0 }
def secondFound (s : State) : RejudgeVerdict :=
  secondVerdict s .b0 (lookup .b0 key s).stop (describe .n (s.buffer 0).bytes)

theorem following_hyp (role : JudgedAs) (r : StoredRow) (l : List HeldRecord) (normal : List BufId)
    (settled : Settled (following role r l normal)) :
    SecondInHand .n 0 role [] (some 0) key .b0 (following role r l normal) := ⟨rfl, rfl, settled⟩

/-- That second behind a first that is held, each in its own buffer. -/
def followingHeld (role : JudgedAs) (r : StoredRow) (pending : Bool) : State :=
  { following role r [awaiter pending false] [] with pool := ⟨(looking r).pool.buffers, others.drop 1⟩ }

theorem test_hyp_LookupFaultPoisonsTheRow_of_a_second :
    (∀ role, role = .secondPassed .normal none ∨ role = .secondHeld 0 none →
      SecondInHand .n 0 role [] (some 0) key .b0 (following role lostRow [] []) ∧
        EachBufferInOnePlace (following role lostRow [] []) ∧ RefsDistinct (following role lostRow [] []) ∧
        lookup .b0 key (following role lostRow [] []) = ⟨.fault 0, 0, 0⟩) ∧
      (∀ pending, SecondInHand .n 0 (.secondHeld 0 none) [] (some 0) key .b0
          (followingHeld (.secondHeld 0 none) lostRow pending) ∧
        EachBufferInOnePlace (followingHeld (.secondHeld 0 none) lostRow pending) ∧
        RefsDistinct (followingHeld (.secondHeld 0 none) lostRow pending) ∧
        lookup .b0 key (followingHeld (.secondHeld 0 none) lostRow pending) = ⟨.fault 0, 0, 0⟩ ∧
        awaiter pending false ∈ (followingHeld (.secondHeld 0 none) lostRow pending).hold.records ∧
        (awaiter pending false).ref = 0 ∧ (awaiter pending false).port = .n ∧
        ∃ g, (awaiter pending false).role = .first g ∧ g.partner = none) := by
  unfold SecondInHand Settled EachBufferInOnePlace RefsDistinct
  refine ⟨?_, fun pending => ?_⟩
  · rintro role (rfl | rfl) <;> decide +kernel
  · refine ⟨?_, ?_, ?_, ?_, by simp [followingHeld, following], rfl, rfl, _, rfl, rfl⟩ <;> revert pending <;>
      decide +kernel

/-- The end of a rejudge that meets that row, the request stale or not. -/
def rejudgingLost (stale : Bool) : State :=
  { rejudging lostRow 9 [] with hold := { (rejudging lostRow 9 []).hold with outstanding := ⟨some ⟨0, stale⟩, none⟩ } }

/-- The same where the record has gone. -/
def rejudgingGone : State :=
  { rejudging lostRow 9 [] with
    hold := { atRest.hold with nextRef := 9, outstanding := ⟨some ⟨0, false⟩, none⟩ }
    pool := atRest.pool }

theorem test_hyp_LookupFaultPoisonsTheRow_at_a_rejudge :
    (∀ stale, RejudgeInHand .n 0 [] none key .b0 (rejudgingLost stale) ∧ EachBufferInOnePlace (rejudgingLost stale) ∧
      lookup .b0 key (rejudgingLost stale) = ⟨.fault 0, 0, 0⟩ ∧
      (rejudgingLost stale).hold.outstanding.get .n = some ⟨0, stale⟩ ∧
      record 0 0 (.first (heldFirst 9 none)) ∈ (rejudgingLost stale).hold.records) ∧
      RejudgeInHand .n 0 [] none key .b0 rejudgingGone ∧ EachBufferInOnePlace rejudgingGone ∧
      lookup .b0 key rejudgingGone = ⟨.fault 0, 0, 0⟩ ∧ (∀ r ∈ rejudgingGone.hold.records, r.ref ≠ 0) := by
  unfold RejudgeInHand Settled EachBufferInOnePlace RefsDistinct
  refine ⟨?_, by decide +kernel, by decide +kernel, by decide +kernel, by decide +kernel⟩
  decide +kernel

/-- The ends of a second's and of a rejudge's judgement with telegrams waiting. -/
theorem test_hyp_SecondsFollowTheirFirsts_with_arrivals :
    (∀ role, role = .secondPassed .normal none ∨ role = .secondHeld 0 none →
      SecondInHand .n 0 role [1, 2] (some 0) key .b0
        (withArrivals [1, 2] (following role narrowRow [awaiter false false] []))) ∧
      RejudgeInHand .n 0 [1, 2] none key .b0 (withArrivals [1, 2] (rejudging refusingRow 9 [])) := by
  unfold SecondInHand RejudgeInHand Settled RefsDistinct
  refine ⟨?_, by decide +kernel⟩
  rintro role (rfl | rfl) <;> decide +kernel

/-- A second refused takes its held first out and the request for it; the Judge goes on to the oldest arrival. -/
theorem test_the_oldest_arrival_follows_a_second :
    ((after (.lookupConclusion .n .flagFirst) (withArrivals [1, 2]
      (following (.secondHeld 0 none) narrowRow [awaiter false false] []))).judges.get .n).arrivals = [2] ∧
    (after (.lookupConclusion .n .flagFirst) (withArrivals [1, 2]
      (following (.secondHeld 0 none) narrowRow [awaiter false false] []))).hold.records = [] ∧
    ((after (.lookupConclusion .n .flagFirst) (withArrivals [1, 2]
      (following (.secondHeld 0 none) narrowRow [awaiter false false] []))).judges.get .n).slot = none ∧
    ((after (.lookupConclusion .n .flagFirst) (withArrivals [1, 2] (rejudging refusingRow 9 []))).judges.get
      .n).arrivals = [2] := by decide +kernel

theorem test_hyp_SecondsFollowTheirFirsts_of_passed :
    (∀ r l, (r, l) = (narrowRow, []) ∨ (r, l) = (freshRow anyEntry, []) ∨ (r, l) = (freshRow anyEntry, fullList 16) →
      SecondInHand .n 0 (.secondPassed .normal none) [] (some 0) key .b0 (following (.secondPassed .normal none) r [] l) ∧
        (lookup .b0 key (following (.secondPassed .normal none) r [] l)).joins = false) ∧
      secondFound (following (.secondPassed .normal none) narrowRow [] []) = .refuse .range (some 0) ∧
      (∃ f, secondFound (following (.secondPassed .normal none) (freshRow anyEntry) [] []) = .pass f) ∧
      listRoom ((following (.secondPassed .normal none) (freshRow anyEntry) [] []).tx.get .f) .normal = true ∧
      listRoom ((following (.secondPassed .normal none) (freshRow anyEntry) [] (fullList 16)).tx.get .f) .normal = false := by
  refine ⟨?_, by decide +kernel, ⟨_, rfl⟩, by decide +kernel, by decide +kernel⟩
  rintro r l (h | h | h)
  all_goals
    cases h
    refine ⟨following_hyp _ _ _ _ ?_, ?_⟩
    · unfold Settled
      decide +kernel
    · decide +kernel

theorem test_hyp_SecondsFollowTheirFirsts_of_held :
    (∀ r l, (r = narrowRow ∨ r = freshRow anyEntry) →
        (l = [] ∨ l = crowd 31 ∨ l = crowd 32 ∨ l = awaiter false false :: crowd 30 ∨ l = awaiter false false :: crowd 31 ∨
          l = [awaiter true false] ∨ l = [awaiter false true]) →
      SecondInHand .n 0 (.secondHeld 0 none) [] (some 0) key .b0 (following (.secondHeld 0 none) r l []) ∧
        (lookup .b0 key (following (.secondHeld 0 none) r l [])).joins = false ∧
        RefsDistinct (following (.secondHeld 0 none) r l [])) ∧
      secondFound (following (.secondHeld 0 none) narrowRow [awaiter false false] []) = .refuse .range (some 0) ∧
      (∃ f, secondFound (following (.secondHeld 0 none) (freshRow anyEntry) [awaiter false false] []) = .pass f) ∧
      (∀ r ∈ crowd 32, r.ref ≠ 0) ∧ (crowd 31).length < 32 ∧ 32 ≤ (crowd 32).length ∧
      (awaiter false false :: crowd 30).length < 32 ∧ 32 ≤ (awaiter false false :: crowd 31).length ∧
      (∀ a c, (awaiter a c).ref = 0 ∧ (awaiter a c).port = .n ∧ (awaiter a c).pending = a ∧
        ∃ g, (awaiter a c).role = .first g ∧ g.partner = none ∧ g.cleared = c) := by
  refine ⟨?_, by decide +kernel, ⟨_, rfl⟩, by decide, by decide, by decide, by decide, by decide,
    fun a c => ⟨rfl, rfl, rfl, _, rfl, rfl, rfl⟩⟩
  rintro r l (rfl | rfl) (rfl | rfl | rfl | rfl | rfl | rfl | rfl)
  all_goals
    refine ⟨following_hyp _ _ _ _ ?_, ?_, ?_⟩
    · unfold Settled
      decide +kernel
    · decide +kernel
    · unfold RefsDistinct
      decide +kernel

theorem test_hyp_SecondsFollowTheirFirsts_in_pairs :
    RefsDistinct (holding paired others) ∧
      (∃ r q f, r ∈ (holding paired others).hold.records ∧ q ∈ (holding paired others).hold.records ∧
        r.role = .first f ∧ f.awaiting = false ∧ f.partner = some q.ref ∧ q.role = .partner r.ref ∧
        policyNow { holding paired others with agent := { atRest.agent with supervision := ⟨.lapsed, 0⟩ } } r.bank r.index
          f.context = .refuse .unsupervised ∧
        policyNow (holding paired others) r.bank r.index f.context = .hold .window ∧
        policyNow { holding paired others with windows := { atRest.windows with openSets := ⟨1, 0⟩ } } r.bank r.index
          f.context = .pass ∧
        listRoom ((holding paired others).tx.get .f) r.list = true ∧
        listRoom (({ holding paired others with tx := ⟨txReset, ⟨[], fullList 16, .spacing, 0⟩⟩ } : State).tx.get .f)
          r.list = false ∧
        listRoom (listAdd ⟨[], fullList 14, .spacing, 0⟩ r.list 3) r.list = true ∧
        listRoom (listAdd ⟨[], fullList 15, .spacing, 0⟩ r.list 3) r.list = false) := by
  refine ⟨(paired_linked _).1, record 0 0 (.first (heldFirst 5 (some 1))), record 1 1 (.partner 0), heldFirst 5 (some 1),
    by simp [holding, paired], by simp [holding, paired], rfl, rfl, rfl, rfl, ?_⟩
  decide +kernel

/-- A held first that the catch-up test finds lapsed and blocked, due by its window or its credit, or neither. -/
theorem test_hyp_SecondsFollowTheirFirsts_caught_up :
    RefsDistinct (holding paired others) ∧ (heldFirst 5 (some 1)).awaiting = false ∧
      (heldFirst 5 (some 1)).context.unsup = .block ∧ (holding paired others).agent.supervision.state ≠ .lapsed ∧
      (secondAt false ⟨.lapsed, 0⟩ (holding paired others)).agent.supervision.state = .lapsed ∧
      (heldFirst 5 (some 1)).reason = .window ∧
      (heldFirst 5 (some 1)).context.windows &&& ((⟨1, 0⟩ : PerBank (BitVec 32)).get .b0) ≠ 0 ∧
      (heldFirst 5 (some 1)).context.windows &&& ((holding paired others).windows.openSets.get .b0) = 0 := by
  refine ⟨(paired_linked _).1, ?_⟩
  decide +kernel

theorem test_hyp_SecondsFollowTheirFirsts_at_a_rejudge :
    (∀ l, l = paired ∨ l = [awaiter true false] → RefsDistinct (holding l others)) ∧
      (∃ f, (awaiter true false).role = .first f ∧ f.awaiting = true ∧ f.partner = none) ∧
      atOrBefore (0 + BitVec.ofNat 40 (0 * 1024)) (holding paired others).cal.uptime = true ∧
      atOrBefore (0 + BitVec.ofNat 40 (1 * 1024)) (holding paired others).cal.uptime = false := by
  refine ⟨?_, ⟨_, rfl, rfl, rfl⟩, by decide +kernel, by decide +kernel⟩
  rintro l (rfl | rfl)
  · exact (paired_linked _).1
  · unfold RefsDistinct
    decide +kernel

/-- The Table Store READY with its port free and the requests given. -/
def asking (judges : PerPort Judge) (scrub agent : Bool) (debt : Fin 16) (count : Fin 5) (last : Port) : State :=
  { atRest with
    judges := judges
    store := { atRest.store with
      scrubRequest := scrub, agentRequest := agent, debt := debt, waitCount := count, lastJudge := last } }

/-- A Judge that waits. -/
def waiting : Judge := ⟨[], none, none, .waiting (.rejudge 0 key)⟩

theorem test_hyp_ArbiterGrantsByRank :
    (∀ j a b d c l, (asking j a b d c l).store.phase = .ready ∧ (asking j a b d c l).store.port = .free) ∧
      State.reset.store.phase = .initializing 0 ∧ State.reset.store.port ≠ .free ∧
      (grant (asking ⟨waiting, waiting⟩ true true 8 4 .f)).isSome = true ∧
      (asking ⟨waiting, waiting⟩ true true 8 4 .f).agent.settings.urgentLevel.toNat ≤ (8 : Fin 16).val ∧
      ¬(asking ⟨waiting, waiting⟩ true true 7 4 .f).agent.settings.urgentLevel.toNat ≤ (7 : Fin 16).val ∧
      (asking ⟨waiting, waiting⟩ true true 7 4 .f).store.waitCount = 4 ∧
      ¬((asking ⟨waiting, waiting⟩ true true 7 3 .f).store.agentRequest = true ∧ (3 : Fin 5) = 4) ∧
      ((asking ⟨waiting, waiting⟩ true true 7 3 .f).judges.get .n).phase = .waiting (.rejudge 0 key) ∧
      (asking ⟨waiting, waiting⟩ true true 7 3 .f).store.lastJudge = otherPort .n ∧
      (asking ⟨waiting, waiting⟩ true true 7 3 .n).store.lastJudge = otherPort .f ∧
      (∀ it, ((asking ⟨waiting, judgeReset⟩ true true 7 3 .n).judges.get (otherPort .n)).phase ≠ .waiting it) ∧
      ∀ a b d c l p it, ((asking ⟨judgeReset, judgeReset⟩ a b d c l).judges.get p).phase ≠ .waiting it := by
  refine ⟨fun _ _ _ _ _ _ => ⟨rfl, rfl⟩, rfl, by decide, by decide +kernel, by decide, by decide, rfl, by decide, rfl, rfl,
    rfl, nofun, ?_⟩
  intro a b d c l p it
  cases p <;> nofun

/-- A record of a truncation on port N. -/
def truncated : Handed := ⟨.truncated, .n, none, none, none, none⟩

/-- The Exception Queue with so many records of another key, and one of that key with so many repeats. -/
def queued (n : Nat) (repeats : Option (BitVec 8)) : State :=
  { atRest with exc := { atRest.exc with
    queue := List.replicate n ⟨⟨.corrupt, .n, none, none, none, none⟩, ⟨0, 0, 0⟩, .unset, 1⟩
      ++ (repeats.map fun x => ⟨truncated, ⟨0, 0, 0⟩, .unset, x⟩).toList } }

theorem test_hyp_ExceptionRecordsArePlaced :
    atRest.exc.queue = [] ∧
      (∀ x : BitVec 8, x = 254 ∨ x = 255 → (queued 0 (some x)).exc.queue = [] ++ [⟨truncated, ⟨0, 0, 0⟩, .unset, x⟩]) ∧
      (254#8).toNat < 255 ∧ (255#8).toNat = 255 ∧
      ((queued 15 none).exc.queue.length < 16 ∧ 16 ≤ (queued 16 none).exc.queue.length) ∧
      (∀ n, n ∈ (queued 16 none).exc.queue → ¬n.what.reason = truncated.reason) := by
  refine ⟨rfl, ?_, by decide, by decide, by decide +kernel, ?_⟩
  · rintro x (rfl | rfl) <;> rfl
  · decide +kernel

/-- The gate where COMMIT_DONE reports to station 5. -/
def reporting (free : List BufId) (n : Nat) : State :=
  { atRest with
    pool := ⟨atRest.pool.buffers, free⟩
    tx := ⟨txReset, ⟨[], fullList n, .spacing, 0⟩⟩
    agent := { atRest.agent with settings := { defaultSettings with reportEnables := 0xFF, reportAddress := some 5 } } }

theorem test_hyp_AFlagRisesOnceAndReports :
    ({ atRest with exc := { atRest.exc with flags := 0x20 } } : State).exc.flags.getLsbD Flag.commitDone.bit = true ∧
      atRest.exc.flags.getLsbD Flag.commitDone.bit = false ∧
      atRest.agent.settings.reportEnables.getLsbD Flag.commitDone.bit = false ∧
      (reporting [] 0).exc.flags.getLsbD Flag.commitDone.bit = false ∧
      (reporting [] 0).agent.settings.reportEnables.getLsbD Flag.commitDone.bit = true ∧
      (reporting [] 0).agent.settings.reportAddress = some 5 ∧ (reporting [] 0).pool.free = [] ∧
      (reporting others 15).pool.free = 1 :: others.drop 1 ∧ (reporting others 15).tx.f.normal.length < 16 ∧
      16 ≤ (reporting others 16).tx.f.normal.length := by decide +kernel

/-- A head whose privilege tag is above the write floor. -/
def lowHead : CmdHead := ⟨.f, 1, 1, 7⟩

theorem test_hyp_UnprivilegedCommandIsDenied :
    exec (.commitNow lowHead) atRest = .next (sendCommand lowHead [0x0C] atRest) ∧ [(0x0C : Byte)].length ≤ 200 ∧
      CommandReady lowHead 0 others atRest ∧ RoomToAnswer lowHead atRest ∧
      ¬Privileged lowHead (if isWrite [0x0C] then atRest.agent.settings.writeFloor
        else atRest.agent.settings.readFloor) atRest := by
  refine ⟨rfl, by decide, ⟨.inl rfl, by decide +kernel, by decide, rfl, by decide +kernel, rfl, rfl, rfl, nofun,
    atRest_places, atRest_settled⟩, ?_, ?_⟩
  · unfold RoomToAnswer
    decide +kernel
  · unfold Privileged
    decide +kernel

theorem test_hyp_FullListLosesTheResponse :
    ((reporting others 15).tx.get .f).normal.length < 16 ∧ 16 ≤ ((reporting others 16).tx.get .f).normal.length := by
  decide +kernel

/-- A WRITE_ENTRY at the end of its access, another command in the inbox, a commit in DUE. -/
def writingNext : State :=
  { atRest with
    store := { atRest.store with port := .agent .b0 }
    commit := ⟨.due ⟨0, 0⟩, 0⟩
    agent := { atRest.agent with exec := some ⟨0, .writeEntry 3 anyEntry⟩, inbox := [1] } }

theorem test_hyp_FullListLosesTheResponse_in_DUE :
    writingNext.store.port = .agent .b0 ∧ writingNext.agent.exec = some ⟨0, .writeEntry 3 anyEntry⟩ ∧
      writingNext.agent.inbox = 1 :: [] ∧ writingNext.store.phase = .ready ∧
      writingNext.judges = ⟨⟨[], none, none, .idle⟩, ⟨[], none, none, .idle⟩⟩ ∧ writingNext.hold.records = [] ∧
      writingNext.commit.phase = .due ⟨0, 0⟩ ∧ (∀ i, atRest.commit.phase ≠ .due i) ∧
      (atRest.agent.exec ≠ none ∨ atRest.agent.inbox = [] ∨ atRest.store.phase ≠ .ready) :=
  ⟨rfl, rfl, rfl, rfl, rfl, rfl, rfl, nofun, .inr (.inl rfl)⟩

/-! ### Commands: states that meet what they suppose -/

/-- A state that differs from the gate at rest in its settled store, its windows, its Policer, its Calendar or its
Commit Controller is as ready for a command. -/
theorem like_atRest {s : State} (pool : s.pool = atRest.pool) (rx : s.rx = atRest.rx) (tx : s.tx = atRest.tx)
    (judges : s.judges = atRest.judges) (hold : s.hold = atRest.hold) (agent : s.agent = atRest.agent)
    (phase : s.store.phase = .ready) (commit : ∀ i, s.commit.phase ≠ .due i) (settled : Settled s) :
    CanRead head 0 others s ∧ CanWrite head 0 others s := by
  have places : EachBufferInOnePlace s := by
    have e : places s = places atRest := by simp only [places, pool, rx, tx, judges, hold, agent]
    unfold EachBufferInOnePlace
    rw [e]
    exact atRest_places
  obtain ⟨r, r1, r2⟩ := atRest_reads
  obtain ⟨a1, a2, a3, a4, a5, _, a7, a8, _, _, _⟩ := r
  have ready : CommandReady head 0 others s := by
    refine ⟨?_, ?_, a3, ?_, ?_, phase, ?_, ?_, commit, places, settled⟩
    · rw [rx]; exact a1
    · rw [pool]; exact a2
    · rw [judges]; exact a4
    · rw [agent]; exact a5
    · rw [agent]; exact a7
    · rw [agent]; exact a8
  have room : RoomToAnswer head s := by
    unfold RoomToAnswer
    rw [tx]
    exact r2
  refine ⟨⟨ready, ?_, room⟩, ⟨ready, ?_, room⟩⟩
  · unfold Privileged
    rw [agent]
    exact atRest_reads.2.1
  · unfold Privileged
    rw [agent]
    exact atRest_writes.2.1

/-- A change that leaves the store, the Judges, the Hold Queue and the Agent leaves the gate at rest settled. -/
theorem settled_like_atRest {s : State} (store : s.store = atRest.store) (judges : s.judges = atRest.judges)
    (hold : s.hold = atRest.hold) (agent : s.agent = atRest.agent) (pool : s.pool = atRest.pool) : Settled s := by
  refine atRest_settled.congr store judges ?_ ?_ ?_ ?_ ?_ ?_
  · rw [hold]
  · rw [hold]
  · rw [agent]
  · rw [agent]
  · rw [agent]
  · intro p b _
    simp only [State.buffer, pool]

theorem test_hyp_BadCommandsAreAnswered :
    CanRead head 0 others atRest ∧ CanWrite head 0 others atRest ∧
      (namesNoCommand [] = true ∧ namesNoCommand [0] = true ∧ namesNoCommand (0x17 :: List.replicate 199 0) = true ∧
        (0x17 :: List.replicate 199 (0 : Byte)).length ≤ 200) ∧
      (1 < (2#8).toNat ∧ 31 < (32#8).toNat ∧ 15 < (16#8).toNat ∧ 3 < (4#8).toNat ∧ 7 < (8#8).toNat) ∧
      ((4#8).getLsbD 2 = true ∧ 4095 < (4096#16).toNat) ∧
      (8 < (List.replicate 9 (0 : Byte)).length ∧ (List.replicate 9 (0 : Byte)).length ≤ 199) ∧
      (entryAllowed (bytesOf 22 (BitVec.allOnes 176)) = false ∧ decodeWindow (bytesOf 10 (BitVec.allOnes 80)) = none) ∧
      (1439 < (1440#16).toNat ∧ atRest.cal.day = 0 ∧ (0#16).toNat ≤ atRest.cal.minuteOfDay.val ∧
        (0#16).toNat < ({ atRest with cal := { atRest.cal with day := 1 } } : State).cal.day.toNat) ∧
      (6 < (7#8).toNat ∧ 23 < (24#8).toNat ∧ 59 < (60#8).toNat ∧ (0#8).toNat < (1#8).toNat ∧ 8 < (9#8).toNat) := by
  refine ⟨atRest_reads, atRest_writes, ?_⟩
  decide +kernel

/-- The gate with a RESET telegram of one argument byte in buffer 0, which came on port F. -/
def longReset : State :=
  atRest.setBuffer 0 ⟨[0xD3, 0xF0, 0, 0, 1, 0xF0, 0, 7, 2, 0x16, 5], { blankBuffer.desc with port := .f }⟩

theorem test_hyp_BadCommandsAreAnswered_length :
    payloadOf (longReset.buffer 0).bytes = [0x16, 5] ∧ (0x16#8, 0) ∈ argumentLengths ∧ ([5] : List Byte).length ≠ 0 ∧
      max (privOf (longReset.buffer 0).bytes).toNat
        (longReset.agent.settings.floor (longReset.buffer 0).desc.port).toNat ≤
        longReset.agent.settings.writeFloor.toNat := by decide +kernel

/-- The gate with a telegram of this payload in buffer 0, which came on port F. -/
def commanded (payload : List Byte) : State :=
  atRest.setBuffer 0 ⟨[0xD3, 0xF0, 0, 0, 1, 0xF0, 0, 7, BitVec.ofNat 8 payload.length] ++ payload,
    { blankBuffer.desc with port := .f }⟩

theorem test_hyp_BadCommandsAreAnswered_codes :
    (∀ payload : List Byte, payload = [0x10, 0, 1, 0, 0] ∨ payload = [0x10, 17, 1, 0, 0] ∨ payload = [0x11, 4] ∨
        payload = [0x11, 255] →
      payloadOf ((commanded payload).buffer 0).bytes = payload ∧
        max (privOf ((commanded payload).buffer 0).bytes).toNat
          ((commanded payload).agent.settings.floor ((commanded payload).buffer 0).desc.port).toNat ≤
          (commanded payload).agent.settings.writeFloor.toNat) ∧
      16 < (17#8).toNat ∧ 3 < (4#8).toNat := by
  refine ⟨?_, by decide, by decide⟩
  rintro payload (rfl | rfl | rfl | rfl) <;> decide +kernel

theorem test_a_setting_and_an_action_of_no_code_are_answered :
    ((startCommand 0 (commanded [0x10, 17, 1, 0, 0])).buffer 0).bytes = [0xD3, 0, 1, 0xF0, 0, 0xF0, 0, 7, 2, 0x10, 2] ∧
      ((startCommand 0 (commanded [0x11, 4])).buffer 0).bytes = [0xD3, 0, 1, 0xF0, 0, 0xF0, 0, 7, 2, 0x11, 2] := by
  decide +kernel

theorem test_reset_with_arguments_is_answered :
    ((startCommand 0 longReset).buffer 0).bytes = [0xD3, 0, 1, 0xF0, 0, 0xF0, 0, 7, 2, 0x16, 2] := by decide +kernel

/-- The gate at rest with a commit scheduled. -/
def scheduled : State := { atRest with commit := ⟨.scheduled ⟨65535, 1439⟩, 3⟩ }

theorem scheduled_ready : CanRead head 0 others scheduled ∧ CanWrite head 0 others scheduled :=
  like_atRest rfl rfl rfl rfl rfl rfl rfl nofun (settled_like_atRest rfl rfl rfl rfl rfl)

theorem test_hyp_StatusIsReadAtOnce :
    CanRead head 0 others atRest ∧ atRest.commit.phase = .idle ∧
      CanRead head 0 others scheduled ∧ scheduled.commit.phase = .scheduled ⟨65535, 1439⟩ :=
  ⟨atRest_reads, rfl, scheduled_ready.1, rfl⟩

theorem test_hyp_WindowAndSupervisionAreRead : CanRead head 0 others atRest := atRest_reads

theorem withRow_ready (r : StoredRow) (poisoned : Bool) (h : Settled (withRow r poisoned .free)) :
    CanRead head 0 others (withRow r poisoned .free) ∧ CanWrite head 0 others (withRow r poisoned .free) :=
  like_atRest rfl rfl rfl rfl rfl rfl rfl nofun h

theorem withRow_settled (r : StoredRow) (poisoned : Bool) : Settled (withRow r poisoned .free) := by
  refine (settled_iff _).2 ?_
  obtain ⟨h1, h2, h3, h4, h5, h6, h7⟩ := (settled_iff _).1 atRest_settled
  exact ⟨h1, h2, h3, h4, h5, h6, h7⟩

theorem test_hyp_RowsAreReadThroughAccesses :
    (∀ r p, CanRead head 0 others (withRow r p .free) ∧ (withRow r p .free).store.port = .free) ∧
      RowClean .b0 0 (withRow (freshRow anyEntry) false .free) ∧
      RowCorrectable .b0 0 (withRow ⟨anyEntry, [(0, 1)]⟩ false .free) ∧
      (withRow (freshRow anyEntry) true .free).store.poisoned .b0 0 = true ∧
      ∀ l : List Index, l = [1] ∨ l = [0, 1, 2, 3, 4, 5, 6, 255] → l ≠ [] ∧ l.length ≤ 8 ∧
        ∀ i ∈ l, (withRow (freshRow anyEntry) true .free).store.poisoned .b0 i = true ∨
          RowClean .b0 i (withRow (freshRow anyEntry) true .free) := by
  refine ⟨fun r p => ⟨(withRow_ready r p (withRow_settled r p)).1, rfl⟩, ?_, ?_, by decide +kernel, ?_⟩
  · rw [clean_iff]
    decide +kernel
  · unfold RowCorrectable
    decide +kernel
  · unfold RowClean
    rintro l (rfl | rfl) <;> decide +kernel

theorem test_hyp_ProbeReportsTheVerdict :
    (∀ r p, CanRead head 0 others (withRow r p .free) ∧ (withRow r p .free).store.port = .free) ∧
      (1#16) ≠ 0xFFFF ∧ (7#8).toNat < 8 ∧ ((7#8).getLsbD 2 = true → (4095#16).toNat ≤ 4095) ∧
      lookup .b0 ⟨.n, 1, 14⟩ (withRow (freshRow anyEntry) false .free) =
        ⟨.found 0 anyEntry, 0, (withRow (freshRow anyEntry) false .free).draws⟩ ∧
      lookup .b0 ⟨.f, 1, 0⟩ (withRow (freshRow anyEntry) true .free) =
        ⟨.poisoned 0, 0, (withRow (freshRow anyEntry) true .free).draws⟩ ∧
      (∀ i, LookupStop.found 0 anyEntry ≠ .fault i) ∧ ∀ i, LookupStop.poisoned 0 ≠ .fault i := by
  refine ⟨fun r p => ⟨(withRow_ready r p (withRow_settled r p)).1, rfl⟩, by decide, by decide, by decide,
    by decide +kernel, by decide +kernel, nofun, nofun⟩

/-- Row 0 of the shadow as given, its pair in the Poison Set or not. -/
def shadowRow (r : StoredRow) (poisoned : Bool) : State :=
  { atRest with store := { atRest.store with
    rows := ⟨atRest.store.rows.b0, atRest.store.rows.b1.set 0 r⟩
    poison := ⟨atRest.store.poison.b0, atRest.store.poison.b1.set 0 poisoned⟩ } }

theorem shadowRow_settled (r : StoredRow) (poisoned : Bool) : Settled (shadowRow r poisoned) := by
  refine (settled_iff _).2 ?_
  obtain ⟨h1, h2, h3, h4, h5, h6, h7⟩ := (settled_iff _).1 atRest_settled
  exact ⟨h1, h2, h3, h4, h5, h6, h7⟩

/-- A record with every field at a value of its own. -/
def oddEntry : StreamEntry where
  valid := true
  srcLow := 0x0102
  srcHigh := 0x0304
  portN := false
  portF := true
  classes := 0x0506
  privLimit := 2
  dstLow := 0x0708
  dstHigh := 0x090A
  broadcast := false
  remap := some 0x0B0C
  windows := 0x0D0E0F10
  closed := .hold
  ceiling := 0x11
  refill := 0x12
  overRate := .refuse
  holdLimit := 0x0314
  urgent := true
  stamp := .ignore
  unsup := .block

/-- The 22 bytes of that record by the table of section 12.2. -/
def oddBytes : List Byte :=
  [0xAD, 0x82, 1, 2, 3, 4, 5, 6, 7, 8, 9, 10, 11, 12, 13, 14, 15, 16, 17, 18, 3, 20]

theorem test_records_stand_as_the_tables_say :
    encodeEntry oddEntry = oddBytes ∧ decodeEntry oddBytes = oddEntry ∧
      encodeWindow (fridayWindow 0x0102 0x0304) = [0xA0, 0x10, 5, 40, 0, 120, 1, 2, 3, 4] ∧
      encodeRecord ⟨⟨.range, .f, some 0x0102, none, some 14, some 9⟩, ⟨258, 66051, 515⟩, .degraded, 7⟩ =
        [8, 0xD9, 1, 2, 1, 2, 3, 2, 3, 1, 2, 0, 0, 14, 9, 7] := by decide +kernel

theorem test_hyp_ShadowRowsAreWrittenThroughAccesses :
    (∀ r p, CanWrite head 0 others (shadowRow r p) ∧ (shadowRow r p).store.port = .free) ∧
      entryAllowed (bytesOf 22 ((0x60 : BitVec 176) <<< 168)) = true ∧ otherBank atRest.store.active = .b1 ∧
      RowClean .b1 0 (shadowRow (freshRow anyEntry) false) ∧
      RowCorrectable .b1 0 (shadowRow ⟨anyEntry, [(0, 1)]⟩ false) ∧
      (shadowRow (freshRow anyEntry) true).store.poisoned .b1 0 = true ∧
      RowUncorrectable .b1 0 (shadowRow ⟨anyEntry, [(0, 1), (0, 2)]⟩ false) := by
  refine ⟨fun r p => ⟨(like_atRest rfl rfl rfl rfl rfl rfl rfl nofun (shadowRow_settled r p)).2, rfl⟩, by decide +kernel,
    rfl, ?_, ?_, by decide +kernel, ?_⟩
  · rw [clean_iff]
    decide +kernel
  · unfold RowCorrectable
    decide +kernel
  · unfold RowUncorrectable
    decide +kernel

theorem test_hyp_ShadowIsCopiedAndCleared :
    CanWrite head 0 others (withRow (freshRow anyEntry) true .free) ∧
      (withRow (freshRow anyEntry) true .free).store.port = .free ∧
      ∀ i, (withRow (freshRow anyEntry) true .free).store.poisoned .b0 i = true ∨
        RowClean .b0 i (withRow (freshRow anyEntry) true .free) := by
  refine ⟨(withRow_ready _ _ (withRow_settled _ _)).2, rfl, fun i => ?_⟩
  by_cases h : (0 : Nat) = i.val
  · left
    simp [withRow, TableStore.poisoned, PerBank.get, ← h]
  · right
    constructor
    · simp [withRow, TableStore.poisoned, PerBank.get, Vector.getElem_set_ne, h, atRest, State.reset, storePowerOn]
    · simp [withRow, TableStore.row, PerBank.get, Vector.getElem_set_ne, h, atRest, State.reset, storePowerOn, freshRow]

theorem test_hyp_RowsAreReadThroughAccesses_uncorrectable :
    (∀ r p, CanRead head 0 others (withRow r p .free)) ∧
      RowUncorrectable .b0 0 (withRow ⟨anyEntry, [(0, 1), (0, 2)]⟩ false .free) ∧
      SendsNoReport .tableFault (withRow ⟨anyEntry, [(0, 1), (0, 2)]⟩ false .free) ∧
      ([0, 0, 255] : List Index).length ≤ 8 ∧ RowCorrectable .b0 0 (withRow ⟨anyEntry, [(0, 1)]⟩ false .free) := by
  refine ⟨fun r p => (withRow_ready r p (withRow_settled r p)).1, ?_, .inr (.inl (by decide +kernel)), by decide, ?_⟩
  · unfold RowUncorrectable
    decide +kernel
  · unfold RowCorrectable
    decide +kernel

theorem test_hyp_ProbeReportsTheVerdict_at_a_fault :
    lookup .b0 ⟨.n, 1, 14⟩ (withRow ⟨anyEntry, [(0, 1), (0, 2)]⟩ false .free) = ⟨.fault 0, 0, 0⟩ ∧
      SendsNoReport .tableFault (withRow ⟨anyEntry, [(0, 1), (0, 2)]⟩ false .free) :=
  ⟨by decide +kernel, .inr (.inl (by decide +kernel))⟩

theorem test_hyp_ShadowIsCopiedAndCleared_uncorrectable :
    (∀ r, r = ⟨anyEntry, [(0, 1)]⟩ ∨ r = ⟨anyEntry, [(0, 1), (0, 2)]⟩ →
      CanWrite head 0 others (withRow r false .free) ∧ SendsNoReport .tableFault (withRow r false .free) ∧
      ∀ i, RowClean .b0 i (withRow r false .free) ∨ RowCorrectable .b0 i (withRow r false .free) ∨
        RowUncorrectable .b0 i (withRow r false .free)) := by
  intro r hr
  refine ⟨(withRow_ready _ _ (withRow_settled _ _)).2, .inr (.inl (by rcases hr with rfl | rfl <;> decide +kernel)),
    fun i => ?_⟩
  by_cases h : (0 : Nat) = i.val
  · right
    have hi : i = 0 := Fin.ext h.symm
    subst hi
    rcases hr with rfl | rfl
    · left
      unfold RowCorrectable
      decide +kernel
    · right
      unfold RowUncorrectable
      decide +kernel
  · left
    constructor
    · simp [withRow, TableStore.poisoned, PerBank.get, atRest, State.reset, storePowerOn]
    · simp [withRow, TableStore.row, PerBank.get, Vector.getElem_set_ne, h, atRest, State.reset, storePowerOn, freshRow]

theorem test_hyp_BadCommandsAreAnswered_presence :
    (∀ p : Byte, p = 0 ∨ p = 2 ∨ p = 255 → p ≠ 1) ∧ (∀ p : Byte, p = 2 ∨ p = 255 → 1 < p.toNat) := by decide

theorem test_hyp_WindowIsWrittenToTheShadow :
    CanWrite head 0 others atRest ∧ ∃ r, decodeWindow (bytesOf 10 (0 : BitVec 80)) = some r :=
  ⟨atRest_writes, Option.isSome_iff_exists.1 (by decide +kernel)⟩

theorem test_hyp_CommitNowSwapsTheBanks :
    CanWrite head 0 others atRest ∧ atRest.agent.settings.reportAddress = none := ⟨atRest_writes, rfl⟩

/-- Two firsts of port N, the younger pending and requested: its request waits in the slot of Judge N behind a telegram,
or Judge N has taken it. -/
def requestedBefore (taken : Bool) : State :=
  { holding [record 0 1 (.first (heldFirst 99 none)),
      { record 1 2 (.first (heldFirst 99 none)) with pending := true }] (0 :: others.drop (if taken then 2 else 3)) with
    judges := ⟨⟨[], if taken then none else some 1, none,
      .waiting (if taken then .rejudge 1 key else .telegram 3 .plain key)⟩, judgeReset⟩
    store := { atRest.store with port := .scrub }
    hold := { (holding [record 0 1 (.first (heldFirst 99 none)),
        { record 1 2 (.first (heldFirst 99 none)) with pending := true }] []).hold with
      outstanding := ⟨some ⟨1, false⟩, none⟩ } }

/-- A first of port N held, with Judge N IDLE and no request. -/
def unrequested : State := holding [record 0 1 (.first (heldFirst 99 none))] (0 :: others.drop 1)

theorem test_hyp_CommitNowSwapsTheBanks_requested :
    (∀ taken, CanWrite head 0 (others.drop (if taken then 2 else 3)) (requestedBefore taken)) ∧
      CanWrite head 0 (others.drop 1) unrequested := by
  unfold CanWrite CommandReady EachBufferInOnePlace Settled Privileged RoomToAnswer
  refine ⟨fun taken => ?_, ⟨.inl rfl, rfl, by decide, rfl, by decide +kernel, rfl, rfl, rfl, nofun, by decide +kernel,
    by decide +kernel⟩, by decide +kernel, by decide +kernel⟩
  cases taken <;> exact ⟨⟨.inl rfl, rfl, by decide, rfl, by decide +kernel, rfl, rfl, rfl, nofun, by decide +kernel,
    by decide +kernel⟩, by decide +kernel, by decide +kernel⟩

/-- A commit marks the taken request stale, withdraws the one in the slot and requests the oldest pending first, and an
IDLE Judge takes such a request (R113, R115). -/
theorem test_a_commit_renews_the_requests :
    (after (.commitNow head) (requestedBefore true)).hold.outstanding.get .n = some ⟨1, true⟩ ∧
      (after (.commitNow head) (requestedBefore false)).hold.outstanding.get .n = some ⟨0, false⟩ ∧
      ((after (.commitNow head) (requestedBefore false)).judges.get .n).slot = some 0 ∧
      ((after (.commitNow head) unrequested).judges.get .n).phase = .lookup (.rejudge 0 ⟨.n, 0, 0⟩) .b1 := by
  decide +kernel

theorem test_hyp_CommitInstantIsScheduledAndCancelled :
    CanWrite head 0 others scheduled ∧ scheduled.commit.phase = .scheduled ⟨65535, 1439⟩ ∧
      CanWrite head 0 others atRest ∧ atRest.commit.phase = .idle ∧ atRest.cal.day.toNat < (65535#16).toNat ∧
      (0#16 = atRest.cal.day ∧ atRest.cal.minuteOfDay.val < (1 : Fin 1440).val) :=
  ⟨scheduled_ready.2, rfl, atRest_writes, rfl, by decide +kernel⟩

theorem test_hyp_SetTimeSetsTheTimeAndTheWindows :
    CanWrite head 0 others atRest ∧ atRest.cal.source = .reference ∧
      CanWrite head 0 others (timed 0 0 0 0 .fallback false) :=
  ⟨atRest_writes, rfl,
    (like_atRest (s := timed 0 0 0 0 .fallback false) rfl rfl rfl rfl rfl rfl rfl nofun
      (settled_like_atRest rfl rfl rfl rfl rfl)).2⟩

theorem test_hyp_PlainSettingsAreReplaced :
    CanWrite head 0 others atRest ∧ 1 < (2#16).toNat ∧ (3#16).toNat ≤ 3 ∧ 3 < (4#16).toNat ∧
      (1#16).toNat ≤ 1023 ∧ (1023#16).toNat ≤ 1023 ∧ 1023 < (1024#16).toNat ∧ (255#16).toNat ≤ 255 ∧
      255 < (256#16).toNat ∧ (15#16).toNat ≤ 15 ∧ 15 < (16#16).toNat ∧ (32#16).toNat ≤ 32 ∧ 32 < (33#16).toNat ∧
      (0xFFFE#16) ≠ 0xFFFF := ⟨atRest_writes, by decide⟩

/-- The head of a command on Port N. -/
def nearHead : CmdHead := { head with port := .n }

/-- The gate with near management allowed, or the write floor as given. -/
def floored (floor : BitVec 2) : State :=
  { atRest with agent := { atRest.agent with
    settings := { defaultSettings with nearAllowed := true, writeFloor := floor, floorN := 0, floorF := 0 } } }

theorem floored_writes (port : Port) (floor : BitVec 2) :
    CanWrite { head with port := port } 0 others (floored floor) := by
  refine ⟨⟨.inl ?_, rfl, (by decide : (1#16) ≠ 0xFFFF), ?_, ?_, rfl, rfl, rfl, nofun, atRest_places, ?_⟩, ?_, ?_⟩
  · cases port <;> rfl
  · cases port <;> rfl
  · cases port <;> rfl
  · exact atRest_settled.congr rfl rfl rfl rfl rfl rfl rfl (fun _ _ _ => rfl)
  · cases port <;> exact Nat.zero_le _
  · cases port <;> exact (by decide : 0 < 16)

theorem test_hyp_GuardedSettingsKeepTheStationIn :
    (∀ port floor, CanWrite { head with port := port } 0 others (floored floor)) ∧
      (∀ port, max head.priv.toNat ((floored 1).agent.settings.floor port).toNat ≤ (0#16).toNat) ∧
      (CanWrite head 0 others { floored 2 with agent := { (floored 2).agent with settings :=
          { (floored 2).agent.settings with floorF := 2 } } } ∧ (1#16).toNat < (2#2).toNat) ∧
      ((2#16).toNat ≤ 3 ∧ (floored 1).agent.settings.writeFloor.toNat < (2#16).toNat ∧
        (1#16).toNat ≤ (floored 1).agent.settings.writeFloor.toNat) ∧
      3 < (4#16).toNat ∧ 1 < (2#16).toNat := by
  refine ⟨floored_writes, ?_, ⟨?_, by decide⟩, by decide, by decide⟩
  · intro port
    cases port <;> decide
  · refine ⟨⟨.inl rfl, rfl, by decide, rfl, by decide +kernel, rfl, rfl, rfl, nofun, atRest_places, ?_⟩, ?_, ?_⟩
    · exact atRest_settled.congr rfl rfl rfl rfl rfl rfl rfl (fun _ _ _ => rfl)
    · unfold Privileged
      decide
    · unfold RoomToAnswer
      decide +kernel

/-- The gate at rest with its Refill Timer as given. -/
def timerAt (x : TimerState) (count : BitVec 16) : State :=
  { atRest with policer := { atRest.policer with timer := x, count := count } }

theorem timerAt_writes (x : TimerState) (count : BitVec 16) : CanWrite head 0 others (timerAt x count) :=
  (like_atRest rfl rfl rfl rfl rfl rfl rfl nofun (settled_like_atRest rfl rfl rfl rfl rfl)).2

theorem test_hyp_TimerAndPinSettingsActAtOnce :
    (∀ x, CanWrite head 0 others (timerAt x 7) ∧ (timerAt x 7).policer.timer = x) ∧ (1#16) ≠ 0 ∧ (65535#16) ≠ 0 ∧
      (2#16).toNat ≤ 2 ∧ 2 < (3#16).toNat ∧ (255#16).toNat ≤ 255 ∧ 255 < (256#16).toNat ∧
      TimerState.running ≠ .stopped :=
  ⟨fun x => ⟨timerAt_writes x 7, rfl⟩, by decide⟩

theorem test_hyp_RefillControlActsOnTheTimer :
    ∀ x, CanWrite head 0 others (timerAt x 7) ∧ (timerAt x 7).policer.timer = x :=
  fun x => ⟨timerAt_writes x 7, rfl⟩

theorem test_hyp_CountsRecordsAndFlagsAreCleared :
    CanWrite head 0 others atRest ∧ (0#8).toNat ≤ (0#8).toNat ∧ (0#8).toNat ≤ (255#8).toNat ∧
      (1 ≤ (1#8).toNat ∧ (1#8).toNat ≤ 8) ∧ 1 ≤ (8#8).toNat ∧ (8#8).toNat ≤ 8 := ⟨atRest_writes, by decide⟩

theorem test_hyp_FlushHoldTakesOutTheRecords :
    (CanWrite head 2 (others.drop 2) (holding paired (others.drop 1)) ∧
        RefsDistinct (holding paired (others.drop 1)) ∧ PartnersLinked (holding paired (others.drop 1))) ∧
      (∀ j : Index, (none : Option Index) = some j → j.val = (9#8).toNat) ∧
      (∀ j : Index, some (3 : Index) = some j → j.val = (3#8).toNat) ∧
      (holding paired (others.drop 1)).agent.settings.reportAddress = none := by
  refine ⟨⟨⟨⟨.inl rfl, by decide +kernel, by decide, rfl, by decide +kernel, rfl, rfl, rfl, nofun, ?_, paired_settled⟩,
    ?_, ?_⟩, paired_linked _⟩, nofun, ?_, rfl⟩
  · unfold EachBufferInOnePlace
    decide +kernel
  · unfold Privileged
    decide
  · unfold RoomToAnswer
    decide +kernel
  · rintro j h
    cases h
    rfl

theorem test_hyp_FlushHoldTakesOutTheRecords_removals : ∀ x ∈ removals,
    CanWrite head (x.2.headD 0) x.2.tail (holding x.1 x.2) ∧ RefsDistinct (holding x.1 x.2) ∧
      PartnersLinked (holding x.1 x.2) ∧ (holding x.1 x.2).agent.settings.reportAddress = none := by
  intro x hx
  have h := removals_sound x hx
  have hd : ∀ x ∈ removals, x.2 = x.2.headD 0 :: x.2.tail := by decide +kernel
  exact ⟨⟨⟨.inl rfl, hd x hx, by decide, rfl, atRest_ready.2.2.2.2.1, rfl, rfl, rfl, nofun, h.2.1, h.1⟩,
    atRest_writes.2.1, Nat.succ_pos _⟩, h.2.2.1, h.2.2.2, rfl⟩

/-! ### States in which the invariants hold and a step is taken -/

theorem test_hyp_ListsStayWithinTheirLimits :
    Bounded { queued 16 none with pending := [.truncation .n] } ∧
      ∃ t, step { queued 16 none with pending := [.truncation .n] } = .next t := by
  refine ⟨⟨by decide +kernel, by decide +kernel, by decide +kernel, ?_, ?_⟩, ⟨_, rfl⟩⟩
  · intro p
    cases p <;> decide +kernel
  · intro p
    cases p <;> decide +kernel

theorem test_hyp_AlertPinAndQueueStaySound :
    AlertFollows { queued 1 (some 255) with pending := [.truncation .n] } ∧
      NoEqualNeighbours { queued 1 (some 255) with pending := [.truncation .n] } ∧
      ∃ t, step { queued 1 (some 255) with pending := [.truncation .n] } = .next t := by
  refine ⟨?_, ?_, ⟨_, rfl⟩⟩
  · unfold AlertFollows
    decide +kernel
  · unfold NoEqualNeighbours
    decide +kernel

/-- A held pair at its deadline, whose expiry is next. -/
def expiring : State := { holding paired (others.drop 1) with pending := [.holdExpiry] }

theorem test_hyp_EachBufferStaysInOnePlace :
    EachBufferInOnePlace expiring ∧ RefsDistinct expiring ∧ ∃ t, step expiring = .next t := by
  refine ⟨?_, (paired_linked (others.drop 1)).1, ⟨_, rfl⟩⟩
  unfold EachBufferInOnePlace
  decide +kernel

theorem test_hyp_HeldPairsStayLinked :
    (RefsDistinct expiring ∧ PartnersLinked expiring ∧ BindingsSound expiring ∧ ∃ t, step expiring = .next t) ∧
      BindingsSound boundToHeld := by
  refine ⟨⟨(paired_linked (others.drop 1)).1, (paired_linked (others.drop 1)).2, ⟨by decide, nofun, ?_⟩, ⟨_, rfl⟩⟩, ?_⟩
  · simp [expiring, holding, paired, record, heldFirst, HeldRecord.awaiting, HeldRecord.firstPart]
  · refine ⟨by decide +kernel, ?_, ?_⟩
    · intro n h
      have : n = 0 := by simpa [heldByJudge, boundToHeld, bound, binding, PerPort.get, judgeReset] using h
      subst this
      simp [boundToHeld, awaited, record, heldFirst, HeldRecord.awaiting, HeldRecord.firstPart]
    · simp [boundToHeld, awaited, record, heldFirst, HeldRecord.partnerRef, HeldRecord.firstPart]

/-- Judge N at the end of a lookup, or the Agent at an access. -/
def concluding : State := { passing with pending := [.lookupConclusion .n .flagFirst] }
def accessing : State := { minuteWith .idle true with pending := [.managementAccess] }

theorem blank_credit (s : State) (h : s.policer = atRest.policer) (i : Index) : (s.stream i).credit = 0 := by
  simp only [State.stream, h]
  simp [atRest, State.reset, policerPowerOn]

theorem credits_blank (s : State) (h : s.policer = atRest.policer) : CreditsWithin s := fun i => by
  rw [blank_credit s h i]
  exact Nat.zero_le _

theorem test_hyp_CreditsStayWithinTheirCeilings :
    ∀ s, s = concluding ∨ s = accessing ∨ s = { State.reset with pending := [.sweepWrite] } →
      CreditsWithin s ∧ QuietWhileInitializing s ∧ PortHeldByOne s ∧ AgentAccessSound s ∧ ∃ t, step s = .next t := by
  rintro s (rfl | rfl | rfl)
  · refine ⟨credits_blank _ rfl, nofun, ⟨fun p it bank h => ?_, nofun⟩, ⟨nofun, nofun⟩, ⟨_, rfl⟩⟩
    cases p
    · rfl
    · cases h
  · refine ⟨credits_blank _ rfl, nofun, ⟨fun p it bank h => ?_, nofun⟩, ⟨fun a h => ⟨rfl, _, rfl, fun _ => ?_⟩, nofun⟩,
      ⟨_, rfl⟩⟩
    · cases p <;> cases h
    · cases h
      rfl
  · refine ⟨credits_blank _ rfl, fun _ _ => ⟨blank_credit _ rfl, rfl, rfl, rfl⟩, ⟨fun p it bank h => ?_, fun _ _ => rfl⟩,
      ⟨nofun, nofun⟩, ⟨_, rfl⟩⟩
    cases p <;> cases h

end Sys2Proof.Tests
end

section
/-! SUPPORT. The end of a void reception (R10), by a silence and by the framed length: the changes of one Receive Unit
put together, and then the two events as one record handed over on the counted unit. -/

namespace Sys2Proof.Machine

/-! ### One Receive Unit changed -/

@[simp] theorem mapRx_rx_get (p : Port) (f : RxUnit → RxUnit) (s : State) :
    (s.mapRx p f).rx.get p = f (s.rx.get p) := by
  simp [State.mapRx]

/-- Two changes of one unit are one change. -/
theorem mapRx_mapRx (p : Port) (f g : RxUnit → RxUnit) (s : State) :
    (s.mapRx p f).mapRx p g = s.mapRx p fun u => g (f u) := by
  simp [State.mapRx]

/-! ### A unit in VOID (R5, R10) -/

/-- A unit in VOID whose reception ends: its next state, and one more reception without a buffer (R10, R15). -/
def RxUnit.endedVoid (x : RxPhase) (u : RxUnit) : RxUnit :=
  { u with phase := x, noBuffer := u.noBuffer + 1 }

/-- What the end of a void reception hands over and changes: nothing but the record and the unit. -/
theorem endVoid_eq_handOver (p : Port) (x : RxPhase) (s : State) :
    endVoid p x s = handOver (voidRecord p (s.rx.get p).header) (s.mapRx p (RxUnit.endedVoid x)) := rfl

theorem lineSilent_of_void {p : Port} {s : State} (h : (s.rx.get p).phase = .void) :
    lineSilent p s = endVoid p .ready s := by
  simp only [lineSilent, h]

theorem lineByte_of_void {p : Port} {s : State} (h : (s.rx.get p).phase = .void) (b : Byte) :
    lineByte p b s = voidByte p b s := by
  simp only [lineByte, h]

/-- The last byte by the framed length is kept first, so a field that it completes is in the record (R10). -/
theorem voidByte_of_ended {p : Port} {s : State} {b : Byte} (hend : ((s.rx.get p).framing.next b).ended = true) :
    voidByte p b s = handOver (voidRecord p (keptHeader (s.rx.get p) b))
      (s.mapRx p fun u => (u.keep b).endedVoid .settling) := by
  have hkept : (((s.mapRx p fun u => u.keep b).rx.get p).framing.ended) = true := by
    rw [mapRx_rx_get]
    exact hend
  calc voidByte p b s = endVoid p .settling (s.mapRx p fun u => u.keep b) := if_pos hkept
    _ = handOver (voidRecord p (keptHeader (s.rx.get p) b))
        (s.mapRx p fun u => (u.keep b).endedVoid .settling) := by
      rw [endVoid_eq_handOver, mapRx_mapRx, mapRx_rx_get]
      rfl

/-! ### The row VOID_RECEPTION_END -/

theorem exec_voidReceptionEnd_silence (p : Port) (s : State) :
    exec (.voidReceptionEnd p none) s = .next (lineSilent p s) := rfl

theorem exec_voidReceptionEnd_byte (p : Port) (b : Byte) (s : State) :
    exec (.voidReceptionEnd p (some b)) s = .next (lineByte p b s) := rfl

/-- Settles O6: each end is the unit's own response in VOID, a silence to READY, the last byte to SETTLING. -/
theorem voidReceptionEndsUncarried : Obligations.VoidReceptionEndsUncarried := by
  intro p s hvoid
  constructor
  case left =>
    rw [exec_voidReceptionEnd_silence, lineSilent_of_void hvoid, endVoid_eq_handOver]
    rfl
  case right =>
    rintro b hend l rfl
    rw [exec_voidReceptionEnd_byte, lineByte_of_void hvoid, voidByte_of_ended hend]
    rfl

end Sys2Proof.Machine
end

section
/-! SUPPORT. The walk of a lookup (R25, R26): what the reading of one row does to it, what a run of rows that do not
match does, and the rows below a place as the first part of the walk; and checks 4 and 5 at the matched entry. -/

namespace Sys2Proof.Machine

/-! ### The match test and the counts (R25, R120) -/

theorem matchesKey_iff_rowMatches (b : Bank) (k : LookupKey) (s : State) (i : Index) :
    matchesKey (s.store.row b i).entry k = true ↔ RowMatches b k s i := by
  obtain ⟨port, source, cls⟩ := k
  cases port <;> simp only [matchesKey, RowMatches, Bool.and_eq_true, decide_eq_true_iff, and_assoc]

/-- The count of correctable rows stops at 65535 and does not wrap. -/
theorem satPlus_toNat (x : BitVec 16) (n : Nat) : (satPlus x n).toNat = min (x.toNat + n) 65535 := by
  have below : min (x.toNat + n) 65535 < 2 ^ 16 := by omega
  rw [satPlus, BitVec.toNat_ofNat, Nat.mod_eq_of_lt below]

/-- A row that a lookup reads and goes past. -/
def RowPassed (b : Bank) (k : LookupKey) (s : State) (i : Index) : Prop :=
  (RowClean b i s ∨ RowCorrectable b i s) ∧ ¬RowMatches b k s i

/-- The count of a walk once it has read a row that reads clean or correctable. -/
def countedAt (b : Bank) (s : State) (i : Index) (n : Nat) : Nat := if RowCorrectable b i s then n + 1 else n

/-- How many rows below a place are correctable. -/
def correctableBelow (b : Bank) (s : State) (i : Index) : Nat :=
  ((List.finRange 256).filter fun j => decide (j < i ∧ RowCorrectable b j s)).length

theorem not_rowCorrectable_of_clean {b : Bank} {i : Index} {s : State} (h : RowClean b i s) :
    ¬RowCorrectable b i s := by
  rintro ⟨-, -, w, hw⟩
  simp [wordErrors, h.2] at hw

/-! ### One row of the walk (R26) -/

/-- A row that can be read ends the walk where it matches; the walk goes on with its error counted where not. -/
theorem walkRows_readable {b : Bank} {i : Index} {s : State} (h : RowClean b i s ∨ RowCorrectable b i s)
    (k : LookupKey) (rest : List Index) (n draws : Nat) :
    walkRows s.store b k (i :: rest) n draws =
      if matchesKey (s.store.row b i).entry k then ⟨.found i (s.store.row b i).entry, countedAt b s i n, draws⟩
      else walkRows s.store b k rest (countedAt b s i n) draws := by
  rcases h with clean | correctable
  · rw [countedAt, if_neg (not_rowCorrectable_of_clean clean), walkRows, clean.1, readRow_of_clean draws clean.2]
    rfl
  · rw [countedAt, if_pos correctable, walkRows, correctable.1,
      readRow_of_correctable draws correctable.2.1 correctable.2.2]
    rfl

theorem walkRows_found {b : Bank} {i : Index} {s : State} {k : LookupKey} (hit : RowMatches b k s i)
    (h : RowClean b i s ∨ RowCorrectable b i s) (rest : List Index) (n draws : Nat) :
    walkRows s.store b k (i :: rest) n draws =
      ⟨.found i (s.store.row b i).entry, countedAt b s i n, draws⟩ := by
  rw [walkRows_readable h, if_pos ((matchesKey_iff_rowMatches b k s i).2 hit)]

theorem walkRows_passed {b : Bank} {i : Index} {s : State} {k : LookupKey} (h : RowPassed b k s i)
    (rest : List Index) (n draws : Nat) :
    walkRows s.store b k (i :: rest) n draws = walkRows s.store b k rest (countedAt b s i n) draws := by
  rw [walkRows_readable h.1, if_neg (mt (matchesKey_iff_rowMatches b k s i).1 h.2)]

theorem walkRows_poisoned {b : Bank} {i : Index} {s : State} (h : s.store.poisoned b i = true) (k : LookupKey)
    (rest : List Index) (n draws : Nat) :
    walkRows s.store b k (i :: rest) n draws = ⟨.poisoned i, n, draws⟩ := by
  rw [walkRows, if_pos h]

theorem walkRows_uncorrectable {b : Bank} {i : Index} {s : State} (h : RowUncorrectable b i s) (k : LookupKey)
    (rest : List Index) (n draws : Nat) :
    walkRows s.store b k (i :: rest) n draws = ⟨.fault i, n, draws⟩ := by
  rw [walkRows, h.1, readRow_of_uncorrectable draws h.2]
  rfl

/-! ### A run of rows that do not match -/

/-- Rows that do not match stop nothing: the walk is that of the rows after them, the correctable ones counted. -/
theorem walkRows_append_of_passed {b : Bank} {s : State} {k : LookupKey} (run rest : List Index) (n draws : Nat)
    (h : ∀ j ∈ run, RowPassed b k s j) :
    walkRows s.store b k (run ++ rest) n draws =
      walkRows s.store b k rest (n + (run.filter fun j => decide (RowCorrectable b j s)).length) draws := by
  induction run generalizing n with
  | nil => rfl
  | cons j run ih =>
    rw [List.cons_append, walkRows_passed (h j List.mem_cons_self), ih _ fun i hi => h i (List.mem_cons_of_mem _ hi),
      countedAt, List.filter_cons]
    by_cases counted : RowCorrectable b j s
    · rw [if_pos counted, if_pos (decide_eq_true counted), List.length_cons, Nat.add_right_comm, Nat.add_assoc]
    · rw [if_neg counted, if_neg (mt of_decide_eq_true counted)]

/-! ### The lookup, up to a place and to the end (R24, R25) -/

/-- The rows of a bank in the order read: those below a place, the place, and those above it. -/
theorem finRange_split (i : Index) :
    ∃ before after, List.finRange 256 = before ++ i :: after ∧ (∀ j ∈ before, j < i) ∧ ∀ j ∈ after, i < j := by
  obtain ⟨before, after, split⟩ := List.append_of_mem (List.mem_finRange i)
  have ascending : (before ++ i :: after).Pairwise (· < ·) := split ▸ List.pairwise_lt_finRange 256
  obtain ⟨-, fromPlace, across⟩ := List.pairwise_append.1 ascending
  exact ⟨before, after, split, fun j hj => across j hj i List.mem_cons_self, (List.pairwise_cons.1 fromPlace).1⟩

/-- Past rows that do not match, a lookup comes to a place with the correctable rows below it counted. -/
theorem lookup_reaches {b : Bank} {k : LookupKey} {s : State} {i : Index} (h : ∀ j < i, RowPassed b k s j) :
    ∃ rest, lookup b k s = walkRows s.store b k (i :: rest) (correctableBelow b s i) s.draws := by
  obtain ⟨before, after, split, below, above⟩ := finRange_split i
  have counted_before : before.filter (fun j => decide (j < i ∧ RowCorrectable b j s)) =
      before.filter fun j => decide (RowCorrectable b j s) :=
    List.filter_congr fun j hj => by simp only [below j hj, true_and]
  have counted_after : (i :: after).filter (fun j => decide (j < i ∧ RowCorrectable b j s)) = [] := by
    refine List.filter_eq_nil_iff.2 fun j hj => ?_
    have notBelow : ¬j < i := by
      rcases List.mem_cons.1 hj with rfl | hj
      · exact lt_irrefl _
      · exact lt_asymm (above j hj)
    simp only [notBelow, false_and, decide_false, Bool.false_eq_true, not_false_eq_true]
  refine ⟨after, ?_⟩
  rw [correctableBelow, split, List.filter_append, counted_before, counted_after, List.append_nil, lookup, split,
    walkRows_append_of_passed before _ _ _ fun j hj => h j (below j hj), Nat.zero_add]

/-- Over rows none of which matches, a lookup finds none and has counted every correctable row. -/
theorem lookup_noMatch {b : Bank} {k : LookupKey} {s : State} (h : ∀ i, RowPassed b k s i) :
    lookup b k s =
      ⟨.noMatch, ((List.finRange 256).filter fun j => decide (RowCorrectable b j s)).length, s.draws⟩ := by
  have walk := walkRows_append_of_passed (List.finRange 256) [] 0 s.draws fun i _ => h i
  rw [List.append_nil, Nat.zero_add] at walk
  exact walk

/-! ### Checks 4 and 5 at the matched entry (R29, R30) -/

/-- The effective privilege is the greater of the tag and the port's floor. -/
theorem effectivePriv_toNat (c : Settings) (p : Port) (tag : BitVec 2) :
    (effectivePriv c p tag).toNat = max tag.toNat (c.floor p).toNat := by
  unfold effectivePriv maxPriv
  split
  next h => exact (max_eq_right h).symm
  next h => exact (max_eq_left (Nat.le_of_not_le h)).symm

/-- A broadcast is admitted by its mark alone, another destination by the range alone. -/
theorem destAdmitted_eq_false {e : StreamEntry} {dest : Addr} (mark : dest = 0xFFFF → e.broadcast = false)
    (range : dest ≠ 0xFFFF → dest.toNat < e.dstLow.toNat ∨ e.dstHigh.toNat < dest.toNat) :
    destAdmitted e dest = false := by
  unfold destAdmitted
  by_cases broadcast : dest = 0xFFFF
  · rw [if_pos broadcast, mark broadcast]
  · rw [if_neg broadcast, Bool.and_eq_false_iff, decide_eq_false_iff_not, decide_eq_false_iff_not]
    exact (range broadcast).imp Nat.not_le_of_lt Nat.not_le_of_lt

/-- What admission refuses, the matched entry refuses, at its own index. -/
theorem verdictOf_found_of_admission {s : State} {b : Bank} {i : Index} {e : StreamEntry} {d : Described} {r : Reason}
    (h : admission s.agent.settings e d = some r) : verdictOf s b (.found i e) d = .refuse r (some i) := by
  rw [verdictOf, judgeByEntry, h]

theorem admission_privilege {c : Settings} {e : StreamEntry} {d : Described}
    (h : e.privLimit.toNat < max d.priv.toNat (c.floor d.port).toNat) : admission c e d = some .privilege := by
  rw [admission, effectivePriv_toNat, if_pos h]

theorem admission_range {c : Settings} {e : StreamEntry} {d : Described}
    (h : max d.priv.toNat (c.floor d.port).toNat ≤ e.privLimit.toNat) (away : destAdmitted e d.dest = false) :
    admission c e d = some .range := by
  rw [admission, effectivePriv_toNat, if_neg (Nat.not_lt_of_le h), away]
  rfl

/-- Settles O27: the walk over the rows below the place is passed as one run, and the row at the place decides. -/
theorem lookupStopsAtTheLowestMatch : Obligations.LookupStopsAtTheLowestMatch := by
  refine ⟨fun _ _ => rfl, satPlus_toNat, fun b k s passes hpasses =>
    ⟨?_, fun all => lookup_noMatch fun i => (hpasses i).1 (all i)⟩⟩
  rintro i below n rfl
  obtain ⟨rest, reaches⟩ := lookup_reaches fun j hj => (hpasses j).1 (below j hj)
  rw [reaches]
  refine ⟨fun hit readable => ?_, fun poisoned => walkRows_poisoned poisoned .., fun uncorrectable =>
    walkRows_uncorrectable uncorrectable ..⟩
  rw [walkRows_found hit readable]
  exact ⟨rfl, fun d => ⟨fun tooHigh => verdictOf_found_of_admission (admission_privilege tooHigh),
    fun admitted mark range =>
      verdictOf_found_of_admission (admission_range admitted (destAdmitted_eq_false mark range))⟩⟩

end Sys2Proof.Machine
end

section
/-! SUPPORT. What a step can do, said once: a property that the effect of every event keeps, and every consequence that
may follow at once, is kept by every step. Each invariant then has one small goal for each effect. -/

namespace Sys2Proof.Machine

/-- What must keep a property so that every step keeps it: the effects of the events at their blocks, each under the
guard the event has there, and the consequences of log 14. -/
structure EventsKeep (P : State → Prop) : Prop where
  pending : ∀ s l, P s → P (s.setPending l)
  straps : ∀ s x, P s → P (s.setStraps x)
  calendar : ∀ s c, P s → P (s.setCal c)
  windows : ∀ s w, P s → P (s.setWindows w)
  upsets : ∀ s l, P s → P (applyUpsets l s)
  buffer : ∀ s b x, P s → P (s.setBuffer b x)
  unit : ∀ s p u, rxPlaces u = rxPlaces (s.rx.get p) → P s → P (s.setRx (s.rx.set p u))
  handOver : ∀ s h, P s → P (handOver h s)
  tell : ∀ s f, P s → P (tell f s)
  startReception : ∀ s p, (s.rx.get p).phase = .ready → P s → P (startReception p s)
  dropReception : ∀ s p b x count, (s.rx.get p).phase = .filling b → x = .ready ∨ x = .settling → P s →
    P (dropReception p b x count s)
  arrive : ∀ s p b n, (s.rx.get p).phase = .filling b → P s → P (arrive p b n s)
  txComplete : ∀ s p, P s → P (txComplete p s)
  txSpacingEnd : ∀ s p, P s → P (txSpacingEnd p s)
  powerOn : ∀ s x, P s → P (powerOnTo x s)
  warmReset : ∀ s c, P s → P (warmReset c s)
  sweep : ∀ s n, s.store.phase = .initializing n → P s → P (sweepNext n (sweepRow n s))
  expire : ∀ s, P s → P (expire s)
  bindDeadline : ∀ s p, P s → P (bindDeadlineAt p s)
  pulse : ∀ s, s.policer.timer = .running → P s → P (runningPulse s)
  scrubExpiry : ∀ s, s.store.phase = .ready → P s → P (s.setStore s.store.atExpiry)
  supervision : ∀ s x, P s → P (setSupervision x s)
  removeBlocked : ∀ s, P s → P (removeBlocked s)
  trigger : ∀ s k, P s → P (trigger k s)
  commitBoundary : ∀ s m, P s → P (commitBoundary m s)
  scrubStep : ∀ s, s.store.port = .scrub → P s → P (concludeAccess (scrubStepEffect s))
  access : ∀ s a x, s.store.port = .agent a → s.agent.exec = some x → P s →
    P (concludeJob x.buffer x.job a (concludeAccess s))
  lookup : ∀ s p it bank o, (s.judges.get p).phase = .lookup it bank → P s → P (concludeLookup p it bank o s)
  scanStep : ∀ s, P s → P (scanStep s)
  grant : ∀ s t, grant s = some t → P s → P t
  endReached : ∀ s t p, endReached p s = some t → P s → P t
  placeRequest : ∀ s t p, placeRequest p s = some t → P s → P t
  takeSlot : ∀ s t p, takeSlot p s = some t → P s → P t
  command : ∀ s b rest, s.agent.exec = none → s.agent.inbox = b :: rest → s.store.phase = .ready → P s →
    P (startCommand b (s.setAgent { s.agent with inbox := rest }))
  takeArrival : ∀ s t p, takeArrival p s = some t → P s → P t
  openPort : ∀ s t, openPort s = some t → P s → P t

namespace EventsKeep

variable {P : State → Prop} {s t : State}

/-! ### What follows at once (log 14) -/

theorem beginCommand (k : EventsKeep P) (h : beginCommand s = some t) (hs : P s) : P t := by
  unfold Machine.beginCommand at h
  split at h
  next idle waits ready =>
    cases h
    exact k.command s _ _ idle waits ready hs
  next => cases h

theorem consequence (k : EventsKeep P) (h : consequence s = some t) (hs : P s) : P t := by
  unfold Machine.consequence at h
  rcases orElse_some h with h | h
  · exact k.grant s t h hs
  rcases orElse_some h with h | h
  · exact k.endReached s t .n h hs
  rcases orElse_some h with h | h
  · exact k.endReached s t .f h hs
  rcases orElse_some h with h | h
  · exact k.placeRequest s t .n h hs
  rcases orElse_some h with h | h
  · exact k.placeRequest s t .f h hs
  rcases orElse_some h with h | h
  · exact k.takeSlot s t .n h hs
  rcases orElse_some h with h | h
  · exact k.takeSlot s t .f h hs
  rcases orElse_some h with h | h
  · exact k.beginCommand h hs
  rcases orElse_some h with h | h
  · exact k.takeArrival s t .n h hs
  rcases orElse_some h with h | h
  · exact k.takeArrival s t .f h hs
  · exact k.openPort s t h hs

theorem settleFor (k : EventsKeep P) (n : Nat) (hs : P s) : P (settleFor n s) := by
  induction n generalizing s with
  | zero => exact hs
  | succ n ih =>
    unfold Machine.settleFor
    split
    next t h => exact ih (k.consequence h hs)
    next => exact hs

theorem settle (k : EventsKeep P) (hs : P s) : P (settle s) := k.settleFor _ hs

/-! ### The lines (chapter 1) -/

theorem mapRx (k : EventsKeep P) (p : Port) (f : RxUnit → RxUnit)
    (h : rxPlaces (f (s.rx.get p)) = rxPlaces (s.rx.get p)) (hs : P s) : P (s.mapRx p f) :=
  k.unit s p _ h hs

theorem endVoid (k : EventsKeep P) {p : Port} {x : RxPhase} (hv : (s.rx.get p).phase = .void)
    (hx : x = .ready ∨ x = .settling) (hs : P s) : P (endVoid p x s) := by
  refine k.handOver _ _ (k.mapRx p _ ?_ hs)
  rcases hx with rfl | rfl <;> simp [rxPlaces, hv]

theorem endReception (k : EventsKeep P) {p : Port} {b : BufId} (hf : (s.rx.get p).phase = .filling b) (hs : P s) :
    P (endReception p b s) := by
  unfold Machine.endReception
  dsimp only
  split
  · exact k.handOver _ _ (k.dropReception s p b _ _ hf (.inr rfl) hs)
  · split
    · exact k.handOver _ _ (k.dropReception s p b _ _ hf (.inr rfl) hs)
    · exact k.settle (k.arrive s p b _ hf hs)

theorem fillByte (k : EventsKeep P) {p : Port} {buf : BufId} (b : Byte) (hf : (s.rx.get p).phase = .filling buf)
    (hs : P s) : P (fillByte p buf b s) := by
  have taken : P ((s.setBuffer buf (storeByte (s.buffer buf) b)).mapRx p fun u => u.take b) :=
    k.mapRx p _ rfl (k.buffer _ _ _ hs)
  have filling : (((s.setBuffer buf (storeByte (s.buffer buf) b)).mapRx p fun u => u.take b).rx.get p).phase =
      .filling buf := by
    rw [mapRx_rx_get]
    exact hf
  unfold Machine.fillByte
  dsimp only
  split
  · exact k.endReception filling taken
  · exact taken

theorem voidByte (k : EventsKeep P) {p : Port} (b : Byte) (hv : (s.rx.get p).phase = .void) (hs : P s) :
    P (voidByte p b s) := by
  have kept : P (s.mapRx p fun u => u.keep b) := k.mapRx p _ rfl hs
  have void : ((s.mapRx p fun u => u.keep b).rx.get p).phase = .void := by
    rw [mapRx_rx_get]
    exact hv
  unfold Machine.voidByte
  dsimp only
  split
  · exact k.endVoid void (.inr rfl) kept
  · exact kept

theorem lineByte (k : EventsKeep P) (p : Port) (b : Byte) (hs : P s) : P (lineByte p b s) := by
  unfold Machine.lineByte
  split
  next => exact hs
  next ready =>
    split
    · exact k.startReception s p ready hs
    · exact k.mapRx p _ (by simp [rxPlaces, ready]) hs
  next buf filling => exact k.fillByte b filling hs
  next void => exact k.voidByte b void hs

theorem lineBytes (k : EventsKeep P) (p : Port) (l : List Byte) (hs : P s) : P (lineBytes p l s) := by
  induction l generalizing s with
  | nil => exact hs
  | cons b l ih => exact ih (k.lineByte p b hs)

theorem lineSettled (k : EventsKeep P) (p : Port) (hs : P s) : P (lineSettled p s) := by
  unfold Machine.lineSettled
  split
  next settling => exact k.mapRx p _ (by simp [rxPlaces, settling]) hs
  all_goals exact hs

theorem lineSilent (k : EventsKeep P) (p : Port) (hs : P s) : P (lineSilent p s) := by
  unfold Machine.lineSilent
  split
  next => exact hs
  next => exact hs
  next b filling => exact k.handOver _ _ (k.dropReception s p b _ _ filling (.inl rfl) hs)
  next void => exact k.endVoid void (.inl rfl) hs

theorem sendCommand (k : EventsKeep P) (h : CmdHead) (l : List Byte) (hs : P s) : P (sendCommand h l s) :=
  k.lineBytes _ _ (k.lineSettled _ hs)

/-! ### The clock events at their blocks (chapters 4 to 10) -/

theorem takeRefillTick (k : EventsKeep P) (hs : P s) : P (takeRefillTick s) := by
  unfold Machine.takeRefillTick
  split
  · have marked := k.calendar s { s.cal with refillTick := false } hs
    split
    next due =>
      rw [Bool.and_eq_true, beq_iff_eq] at due
      exact k.pulse _ due.2 marked
    next => exact marked
  · exact hs

theorem scrubExpiryTold (k : EventsKeep P) (ready : s.store.phase = .ready) (hs : P s) : P (Machine.scrubExpiry s) := by
  have raised := k.scrubExpiry s ready hs
  unfold Machine.scrubExpiry urgentTest
  split
  · exact k.tell _ _ raised
  · exact raised

theorem takeScrubTick (k : EventsKeep P) (hs : P s) : P (takeScrubTick s) := by
  unfold Machine.takeScrubTick
  split
  · have marked := k.calendar s { s.cal with scrubTick := false } hs
    split
    next due =>
      have ready : s.store.phase = .ready := by
        rw [expiryFalls, Bool.and_eq_true, Bool.and_eq_true, beq_iff_eq] at due
        exact due.1.1
      exact k.settle (k.scrubExpiryTold ready marked)
    next => exact marked
  · exact hs

theorem lapse (k : EventsKeep P) (o : RiseOrder) (hs : P s) : P (lapse o s) := by
  have lapsed := k.supervision s ⟨.lapsed, 0⟩ hs
  cases o with
  | flagFirst => exact k.removeBlocked _ (k.tell _ _ lapsed)
  | recordsFirst => exact k.tell _ _ (k.removeBlocked _ lapsed)

theorem takeSecond (k : EventsKeep P) (o : RiseOrder) (hs : P s) : P (takeSecond o s) := by
  unfold Machine.takeSecond
  split
  · refine k.settle ?_
    have marked := k.calendar s { s.cal with secondDue := false } hs
    unfold supervise
    split
    · split
      · exact k.lapse o marked
      · exact k.supervision _ _ marked
    all_goals exact marked
  · exact hs

theorem fullEvaluation (k : EventsKeep P) (m : MinuteMark) (hs : P s) : P (fullEvaluation m s) := by
  have evaluated : P (reevaluate m s) := k.windows s _ hs
  unfold Machine.fullEvaluation
  dsimp only
  split
  · exact evaluated
  · exact k.trigger _ _ evaluated

theorem takeWindowMinute (k : EventsKeep P) (hs : P s) : P (takeWindowMinute s) := by
  unfold Machine.takeWindowMinute
  split
  · exact k.settle (k.fullEvaluation _ (k.calendar _ _ hs))
  · exact hs

theorem takeCommitMinute (k : EventsKeep P) (hs : P s) : P (takeCommitMinute s) := by
  unfold Machine.takeCommitMinute
  split
  · exact k.settle (k.commitBoundary _ _ (k.calendar _ _ hs))
  · exact hs

theorem takeMinute (k : EventsKeep P) (o : BoundaryOrder) (hs : P s) : P (takeMinute o s) := by
  cases o with
  | evaluationFirst => exact k.takeCommitMinute (k.takeWindowMinute hs)
  | commitFirst => exact k.takeWindowMinute (k.takeCommitMinute hs)
  | evaluationAlone => exact k.takeWindowMinute hs
  | commitAlone => exact k.takeCommitMinute hs

theorem takeHoldTick (k : EventsKeep P) (hs : P s) : P (takeHoldTick s) := k.settle (k.expire s hs)

theorem takeBindTick (k : EventsKeep P) (p : Port) (hs : P s) : P (takeBindTick p s) :=
  k.settle (k.bindDeadline s p hs)

theorem takeOutstanding (k : EventsKeep P) (hs : P s) : P (takeOutstanding s) :=
  k.takeMinute .evaluationFirst (k.takeSecond .recordsFirst (k.takeScrubTick (k.takeRefillTick
    (k.takeBindTick .f (k.takeBindTick .n (k.takeHoldTick hs))))))

theorem tickNow (k : EventsKeep P) (hs : P s) : P (tickNow s) := k.calendar _ _ (k.takeOutstanding hs)

theorem refinEdge (k : EventsKeep P) (ns : Nat) (hs : P s) : P (refinEdge ns s) := by
  unfold Machine.refinEdge
  split
  · exact k.tickNow hs
  · exact k.calendar _ _ hs

theorem referenceLostAt (k : EventsKeep P) (due : Bool) (hs : P s) : P (referenceLostAt due s) := by
  have lost : P (loseReference s) := by
    unfold loseReference
    refine k.tell _ _ ?_
    split
    · exact k.fullEvaluation _ (k.calendar _ _ hs)
    · exact k.calendar _ _ hs
  unfold Machine.referenceLostAt
  split
  · split
    · exact k.tickNow lost
    · exact lost
  · exact hs

/-! ### Accesses and scans -/

theorem sweepWrite (k : EventsKeep P) (hs : P s) : P (sweepWrite s) := by
  unfold Machine.sweepWrite
  split
  next n sweeping => exact k.settle (k.sweep s n sweeping hs)
  next => exact hs

theorem scrubStepNow (k : EventsKeep P) (hs : P s) : P (scrubStepNow s) := by
  unfold Machine.scrubStepNow
  split
  next scrubs => exact k.settle (k.scrubStep s scrubs hs)
  all_goals exact hs

theorem managementAccessNow (k : EventsKeep P) (hs : P s) : P (managementAccessNow s) := by
  unfold Machine.managementAccessNow
  split
  next a x held executes => exact k.settle (k.access s a x held executes hs)
  next => exact hs

theorem lookupConclusionNow (k : EventsKeep P) (p : Port) (o : RiseOrder) (hs : P s) :
    P (lookupConclusionNow p o s) := by
  unfold Machine.lookupConclusionNow
  split
  next it bank inLookup => exact k.settle (k.lookup s p it bank o inLookup hs)
  all_goals exact hs

/-! ### Every row, and every step -/

/-- What a row answers, by the effect it has: each row is one effect, or a telegram on the line (log 7). -/
theorem exec (k : EventsKeep P) (c : Instr) (h : exec c s = .next t) (hs : P s) : P t := by
  cases c
  case voidReceptionEnd p last =>
    cases last with
    | none => cases h; exact k.lineSilent p hs
    | some b => cases h; exact k.lineByte p b hs
  case refill =>
    change (if refillDue s then Host.Outcome.next (Machine.takeRefillTick s) else Host.Outcome.next s) = _ at h
    split at h <;> cases h
    · exact k.takeRefillTick hs
    · exact hs
  case supervisionLapse o =>
    change (if lapseDue s then Host.Outcome.next (Machine.takeSecond o s) else Host.Outcome.next s) = _ at h
    split at h <;> cases h
    · exact k.takeSecond o hs
    · exact hs
  all_goals cases h
  case receptionStart p => exact k.lineByte p _ hs
  case silenceSettled p => exact k.lineSettled p hs
  case truncation p => exact k.lineSilent p hs
  case receptionEnd p b => exact k.lineByte p b hs
  case transmissionComplete p => exact k.txComplete s p hs
  case spacingEnd p => exact k.txSpacingEnd s p hs
  case powerOnReset x => exact k.powerOn s x hs
  case pinReset x l => exact k.warmReset _ _ (k.calendar _ _ (k.straps _ _ hs))
  case sweepWrite => exact k.sweepWrite hs
  case tick l => exact k.tickNow (k.upsets s l hs)
  case secondBoundary o => exact k.takeSecond o hs
  case minuteBoundary o => exact k.takeMinute o hs
  case referenceLoss due => exact k.referenceLostAt due hs
  case referenceQualified => exact k.refinEdge _ hs
  case holdExpiry => exact k.takeHoldTick hs
  case bindDeadline p => exact k.takeBindTick p hs
  case refillPulse => exact k.takeRefillTick hs
  case scrubIntervalExpiry => exact k.takeScrubTick hs
  case scrubStep => exact k.scrubStepNow hs
  case lookupConclusion p o => exact k.lookupConclusionNow p o hs
  case scanEvaluation => exact k.settle (k.scanStep s hs)
  case managementAccess => exact k.managementAccessNow hs
  case reset => exact k.sendCommand _ _ (k.straps _ _ hs)
  case byteArrival p b => exact k.lineByte p b hs
  case refinRisingEdge ns => exact k.refinEdge ns hs
  case noEdgeStretch => exact k.calendar _ _ hs
  all_goals exact k.sendCommand _ _ hs

theorem step (k : EventsKeep P) (h : step s = .next t) (hs : P s) : P t := by
  unfold Machine.step at h
  split at h
  · cases h
    exact hs
  · exact k.exec _ h (k.pending _ _ hs)

end EventsKeep

end Sys2Proof.Machine
end

section
/-! SUPPORT. A property of the gate with some buffers in hand: a buffer that an operation has taken from one place and
has still to put in another. What each change of one block must keep is stated once (`HandsKeep`); every operation of
the model is a run of such changes, so every step keeps the property with no buffer in hand. -/

namespace Sys2Proof.Machine

/-- A record of the Hold Queue has this reference and this buffer. -/
def IsHeld (n : Nat) (b : BufId) (s : State) : Prop := ∃ q ∈ s.hold.records, q.ref = n ∧ q.buffer = b

theorem IsHeld.congr {s t : State} {n : Nat} {b : BufId} (h : t.hold = s.hold) (hs : IsHeld n b s) : IsHeld n b t := by
  unfold IsHeld
  rw [h]
  exact hs

/-- What keeps a property of a list of buffers in hand and a state: changes of one block at a time, each buffer that a
block gives up going into the hand and each that it takes coming out of it. -/
structure HandsKeep (K : List BufId → State → Prop) : Prop where
  store : ∀ {l s} x, K l s → K l (s.setStore x)
  windows : ∀ {l s} x, K l s → K l (s.setWindows x)
  policer : ∀ {l s} x, K l s → K l (s.setPolicer x)
  calendar : ∀ {l s} x, K l s → K l (s.setCal x)
  commit : ∀ {l s} x, K l s → K l (s.setCommit x)
  straps : ∀ {l s} x, K l s → K l (s.setStraps x)
  draws : ∀ {l s} x, K l s → K l (s.setDraws x)
  pending : ∀ {l s} x, K l s → K l (s.setPending x)
  report : ∀ {l s} n, K l s → K l (s.setExc { s.exc with reportNumber := n })
  flags : ∀ {l s} x, K l s → K l (driveAlert (s.setExc { s.exc with flags := x }))
  lost : ∀ {l s} x, K l s → K l (s.setExc { s.exc with lost := x })
  coalesced : ∀ {l s} n x, s.exc.queue.getLast? = some n → K l s →
    K l (s.setExc { s.exc with queue := s.exc.queue.dropLast ++ [{ n with repeats := x }] })
  recorded : ∀ {l s} r, (∀ n, s.exc.queue.getLast? = some n → sameKey n.what r.what = false) →
    s.exc.queue.length < 16 → K l s → K l (s.setExc { s.exc with queue := s.exc.queue ++ [r] })
  drained : ∀ {l s} n, K l s → K l (drainRecords n s)
  buffer : ∀ {l s} b x, K l s → K l (s.setBuffer b x)
  free : ∀ {l l' s} x, (x ++ l').Perm (s.pool.free ++ l) → K l s → K l' (s.setPool { s.pool with free := x })
  rx : ∀ {l l' s} p u, (rxPlaces u ++ l').Perm (rxPlaces (s.rx.get p) ++ l) → K l s →
    K l' (s.setRx (s.rx.set p u))
  tx : ∀ {l l' s} p u, (txPlaces u ++ l').Perm (txPlaces (s.tx.get p) ++ l) →
    (u.urgent.length ≤ 8 ∨ u.urgent.length ≤ (s.tx.get p).urgent.length) →
    (u.normal.length ≤ 16 ∨ u.normal.length ≤ (s.tx.get p).normal.length) → K l s →
    K l' (s.setTx (s.tx.set p u))
  judge : ∀ {l l' s} p j, (judgePlaces j ++ l').Perm (judgePlaces (s.judges.get p) ++ l) → K l s →
    K l' (s.setJudges (s.judges.set p j))
  agent : ∀ {l l' s} x, (agentPlaces x ++ l').Perm (agentPlaces s.agent ++ l) →
    (x.inbox.length ≤ 4 ∨ x.inbox.length ≤ s.agent.inbox.length) →
    x.settings.pinEnables = s.agent.settings.pinEnables → K l s → K l' (s.setAgent x)
  settings : ∀ {l s} x, K l s → K l (driveAlert (s.setAgent { s.agent with settings := x }))
  hold : ∀ {l s} x, x.records.map (·.ref) = s.hold.records.map (·.ref) →
    x.records.map (·.buffer) = s.hold.records.map (·.buffer) → x.nextRef = s.hold.nextRef → K l s →
    K l (s.setHold x)
  replaced : ∀ {l s} r, IsHeld r.ref r.buffer s → K l s → K l (mapRecord r.ref (fun _ => r) s)
  dropped : ∀ {l s} n b, IsHeld n b s → K l s → K (b :: l) (dropRecord n s)
  admitted : ∀ {l s} r, r.ref = s.hold.nextRef → s.hold.records.length < 32 → K (r.buffer :: l) s →
    K l (admitRecord r s)
  reset : ∀ {l s} c, K l s → K [] (resetCommon c s)

namespace HandsKeep

variable {K : List BufId → State → Prop} {l : List BufId} {s t : State}

/-! ### The pool and the Exception Unit -/

theorem claim (k : HandsKeep K) {b : BufId} (h : claim s = some (b, t)) (hs : K l s) : K (b :: l) t := by
  unfold Machine.claim at h
  split at h
  next => cases h
  next free =>
    cases h
    refine k.free _ ?_ hs
    rw [free]
    exact List.perm_middle

theorem release (k : HandsKeep K) {b : BufId} (hs : K (b :: l) s) : K l (release b s) := by
  refine k.free _ ?_ hs
  rw [List.append_assoc]
  exact .refl _

/-- Starting a transmission moves a buffer from a list to the line. -/
theorem startTx_places (f : BufId → Buffer) (u : TxUnit) : (txPlaces (startTx f u)).Perm (txPlaces u) := by
  unfold startTx
  split
  next b rest _ idle urgent =>
    simp only [txPlaces, idle, urgent, List.append_nil]
    exact List.perm_append_comm
  next b rest idle urgent normal =>
    simp only [txPlaces, idle, urgent, normal, List.append_nil, List.nil_append]
    exact List.perm_append_comm
  next => exact .refl _

theorem startTx_lengths (f : BufId → Buffer) (u : TxUnit) :
    (startTx f u).urgent.length ≤ u.urgent.length ∧ (startTx f u).normal.length ≤ u.normal.length := by
  unfold startTx
  split <;> simp_all

theorem listAdd_places (u : TxUnit) (k : ListKind) (b : BufId) : (txPlaces (listAdd u k b)).Perm (b :: txPlaces u) := by
  cases k with
  | urgent =>
    rw [txPlaces, txPlaces, listAdd, List.append_assoc, List.append_assoc, List.append_assoc]
    exact List.perm_middle
  | normal =>
    rw [txPlaces, txPlaces, listAdd, ← List.append_assoc, List.append_assoc]
    exact List.perm_middle

theorem txAppend (k : HandsKeep K) {p : Port} {x : ListKind} {b : BufId} (h : txAppend p x b s = some t)
    (hs : K (b :: l) s) : K l t := by
  unfold Machine.txAppend at h
  split at h
  next room =>
    cases h
    have short := startTx_lengths s.buffer (listAdd (s.tx.get p) x b)
    refine k.tx p _ ?_ ?_ ?_ hs
    · calc txPlaces (startTx s.buffer (listAdd (s.tx.get p) x b)) ++ l
          |>.Perm (txPlaces (listAdd (s.tx.get p) x b) ++ l) := (startTx_places _ _).append_right l
        _ |>.Perm (b :: txPlaces (s.tx.get p) ++ l) := (listAdd_places _ _ _).append_right l
        _ |>.Perm (txPlaces (s.tx.get p) ++ b :: l) := List.perm_middle.symm
    · cases x <;> simp [listRoom, listAdd] at room short ⊢ <;> omega
    · cases x <;> simp [listRoom, listAdd] at room short ⊢ <;> omega
  next => cases h

theorem sendReport (k : HandsKeep K) (f : Flag) (hs : K l s) : K l (sendReport f s) := by
  unfold Machine.sendReport
  split
  · exact hs
  · have numbered := k.report (s.exc.reportNumber + 1) hs
    dsimp only
    split
    · exact numbered
    · next b s2 claimed =>
      have written := fun x => k.buffer b x (k.claim claimed numbered)
      split
      · next appended => exact k.txAppend appended (written _)
      · exact k.release (written _)

theorem tell (k : HandsKeep K) (f : Flag) (hs : K l s) : K l (tell f s) := by
  unfold Machine.tell
  split
  · exact hs
  · exact k.sendReport f (k.flags _ hs)

theorem tellFault (k : HandsKeep K) (x : Bool) (hs : K l s) : K l (tellFault x s) := by
  unfold Machine.tellFault
  split
  · exact k.tell _ hs
  · exact hs

theorem loseRecord (k : HandsKeep K) (hs : K l s) : K l (loseRecord s) := k.tell _ (k.lost _ hs)

theorem appendRecord (k : HandsKeep K) (r : ExcRecord)
    (h : ∀ n, s.exc.queue.getLast? = some n → sameKey n.what r.what = false) (room : s.exc.queue.length < 16)
    (hs : K l s) : K l (appendRecord r s) := by
  have placed := k.recorded r h room hs
  unfold Machine.appendRecord
  dsimp only
  split
  · exact k.tell _ placed
  · exact placed

theorem handOver (k : HandsKeep K) (h : Handed) (hs : K l s) : K l (handOver h s) := by
  unfold Machine.handOver
  dsimp only
  split
  next empty =>
    refine k.appendRecord _ (by simp [empty]) ?_ hs
    rw [List.getLast?_eq_none_iff.1 empty]
    decide
  next newest last =>
    split
    · split
      · exact k.loseRecord hs
      · exact k.coalesced _ _ last hs
    · next other =>
      split
      · exact k.loseRecord hs
      · next room =>
        refine k.appendRecord _ (fun n hn => ?_) (by omega) hs
        rw [last] at hn
        cases hn
        exact Bool.not_eq_true _ ▸ other

theorem holdHighTest (k : HandsKeep K) (hs : K l s) : K l (holdHighTest s) := by
  unfold Machine.holdHighTest
  split
  · exact k.tell _ hs
  · exact hs

/-! ### Credits and counts -/

theorem countPassed (k : HandsKeep K) (i : Option Index) (hs : K l s) : K l (countPassed i s) := by
  cases i with
  | none => exact hs
  | some i => exact k.policer _ hs

theorem countRefused (k : HandsKeep K) (i : Option Index) (hs : K l s) : K l (countRefused i s) := by
  cases i with
  | none => exact hs
  | some i => exact k.policer _ hs

theorem countHeld (k : HandsKeep K) (i : Option Index) (hs : K l s) : K l (countHeld i s) := by
  cases i with
  | none => exact hs
  | some i => exact k.policer _ hs

theorem consume (k : HandsKeep K) (i : Option Index) (c : HeldContext) (hs : K l s) : K l (consume i c s) := by
  unfold Machine.consume requestCredit
  split
  · split
    · exact hs
    · split
      · exact hs
      · exact k.policer _ hs
  · exact hs

/-! ### One Judge, one Receive Unit -/

theorem mapJudge (k : HandsKeep K) (p : Port) (f : Judge → Judge)
    (h : judgePlaces (f (s.judges.get p)) = judgePlaces (s.judges.get p)) (hs : K l s) : K l (s.mapJudge p f) := by
  refine k.judge p _ ?_ hs
  rw [h]

theorem setBind (k : HandsKeep K) (p : Port) (x : Option BindContext) (hs : K l s) : K l (setBind p x s) :=
  k.mapJudge p _ rfl hs

theorem outstanding (k : HandsKeep K) (x : PerPort (Option Request)) (hs : K l s) :
    K l (s.setHold { s.hold with outstanding := x }) := k.hold _ rfl rfl rfl hs

/-! ### Held records -/

theorem isHeld_of_heldRecord {n : Nat} {r : HeldRecord} (h : s.heldRecord n = some r) : IsHeld r.ref r.buffer s :=
  ⟨r, List.mem_of_find?_eq_some h, rfl, rfl⟩

theorem takeOut (k : HandsKeep K) {r : HeldRecord} (reason : Reason) (i : Option Index)
    (h : IsHeld r.ref r.buffer s) (hs : K l s) : K l (takeOut r reason i s) :=
  k.handOver _ (k.release (k.dropped _ _ h hs))

theorem takeOutPartner (k : HandsKeep K) (r : HeldRecord) (hs : K l s) : K l (takeOutPartner r s) := by
  unfold Machine.takeOutPartner
  split
  · exact hs
  · split
    · exact hs
    · next held => exact k.takeOut _ _ (isHeld_of_heldRecord held) hs

theorem reportFate (k : HandsKeep K) (r : HeldRecord) (hs : K l s) : K l (reportFate r s) := by
  unfold Machine.reportFate
  split
  · exact k.mapJudge _ _ rfl hs
  · exact hs

theorem withdraw (k : HandsKeep K) (r : HeldRecord) (hs : K l s) : K l (withdraw r s) := by
  unfold Machine.withdraw
  split
  · exact k.outstanding _ (k.mapJudge _ _ rfl hs)
  · exact hs

theorem removeFirst (k : HandsKeep K) {r : HeldRecord} (reason : Reason) (i : Option Index)
    (h : IsHeld r.ref r.buffer s) (hs : K l s) : K l (removeFirst r reason i s) :=
  k.withdraw _ (k.reportFate _ (k.takeOutPartner _ (k.takeOut _ _ h hs)))

theorem removeCounted (k : HandsKeep K) {r : HeldRecord} (reason : Reason) (i : Option Index)
    (h : IsHeld r.ref r.buffer s) (hs : K l s) : K l (removeCounted r reason i s) :=
  k.countRefused _ (k.removeFirst _ _ h hs)

theorem removeRef (k : HandsKeep K) (reason : Reason) (n : Nat) (hs : K l s) : K l (removeRef reason s n) := by
  unfold Machine.removeRef
  split
  · next held => exact k.removeFirst _ _ (isHeld_of_heldRecord held) hs
  · exact hs

theorem removeAll (k : HandsKeep K) (reason : Reason) (pick : HeldRecord → FirstPart → Bool) (hs : K l s) :
    K l (removeAll reason pick s) := by
  unfold Machine.removeAll
  generalize List.map _ _ = refs
  induction refs generalizing s with
  | nil => exact hs
  | cons n refs ih => exact ih (k.removeRef reason n hs)

theorem flushHeld (k : HandsKeep K) (x : Option Index) (hs : K l s) : K l (flushHeld x s) := by
  cases x <;> exact k.removeAll _ _ hs

/-- A telegram's append and the leaving of its record can be taken in either order. -/
theorem txAppend_dropRecord {p : Port} {x : ListKind} {b : BufId} (n : Nat)
    (h : Machine.txAppend p x b s = some t) :
    Machine.txAppend p x b (dropRecord n s) = some (dropRecord n t) := by
  unfold Machine.txAppend at h ⊢
  split at h
  next room =>
    cases h
    exact if_pos room
  next => cases h

theorem prepareBuffer (k : HandsKeep K) (b : BufId) (d : Addr) (x : StampPolicy) (hs : K l s) :
    K l (prepareBuffer b d x s) := k.buffer _ _ hs

/-- A held telegram leaves its record for a list. -/
theorem appendHeld (k : HandsKeep K) {r : HeldRecord} {p : Port} {x : ListKind} (h : IsHeld r.ref r.buffer s)
    (ha : Machine.txAppend p x r.buffer s = some t) (hs : K l s) : K l (dropRecord r.ref t) :=
  k.txAppend (txAppend_dropRecord r.ref ha) (k.dropped _ _ h hs)

theorem releasePartner (k : HandsKeep K) (r : HeldRecord) (hs : K l s) : K l (releasePartner r s) := by
  unfold Machine.releasePartner
  split
  · exact hs
  · split
    · exact hs
    · next q held =>
      have prepared := k.prepareBuffer q.buffer q.outDest q.stamp hs
      have stands : IsHeld q.ref q.buffer (Machine.prepareBuffer q.buffer q.outDest q.stamp s) :=
        (isHeld_of_heldRecord held).congr rfl
      dsimp only
      split
      · next appended => exact k.countPassed _ (k.appendHeld stands appended prepared)
      · exact k.countRefused _ (k.takeOut _ _ stands prepared)

theorem releaseFirst (k : HandsKeep K) {r : HeldRecord} (h : IsHeld r.ref r.buffer s) (hs : K l s) :
    K l (releaseFirst r s) := by
  have prepared := k.prepareBuffer r.buffer r.outDest r.stamp hs
  have stands : IsHeld r.ref r.buffer (Machine.prepareBuffer r.buffer r.outDest r.stamp s) := h.congr rfl
  unfold Machine.releaseFirst
  dsimp only
  split
  · next appended => exact k.releasePartner _ (k.countPassed _ (k.appendHeld stands appended prepared))
  · exact k.removeCounted _ _ stands prepared

/-- Records replaced in their places, each by one of its reference and its buffer. -/
theorem mapRecords (k : HandsKeep K) (f : HeldRecord → HeldRecord)
    (h : ∀ r ∈ s.hold.records, (f r).ref = r.ref ∧ (f r).buffer = r.buffer) (hs : K l s) :
    K l (s.setRecords (s.hold.records.map f)) := by
  refine k.hold _ ?_ ?_ rfl hs
  · rw [List.map_map]
    exact List.map_congr_left fun r hr => (h r hr).1
  · rw [List.map_map]
    exact List.map_congr_left fun r hr => (h r hr).2

theorem mapRecord (k : HandsKeep K) (n : Nat) (f : HeldRecord → HeldRecord)
    (h : ∀ r ∈ s.hold.records, r.ref = n → (f r).ref = r.ref ∧ (f r).buffer = r.buffer) (hs : K l s) :
    K l (mapRecord n f s) := by
  refine k.mapRecords _ (fun r hr => ?_) hs
  split
  · next hn => exact h r hr hn
  · exact ⟨rfl, rfl⟩

theorem mapFirst_same (r : HeldRecord) (f : FirstPart → FirstPart) :
    (r.mapFirst f).ref = r.ref ∧ (r.mapFirst f).buffer = r.buffer := by
  unfold HeldRecord.mapFirst
  split <;> exact ⟨rfl, rfl⟩

theorem stay (k : HandsKeep K) (r : HeldRecord) (x : HoldReason) (hs : K l s) : K l (stay r x s) :=
  k.mapRecord _ _ (fun q _ _ => mapFirst_same q _) hs

theorem consume_hold (i : Option Index) (c : HeldContext) (s : State) : (Machine.consume i c s).hold = s.hold := by
  unfold Machine.consume requestCredit
  split
  · split
    · rfl
    · split <;> rfl
  · rfl

theorem evaluate (k : HandsKeep K) {r : HeldRecord} (f : FirstPart) (h : IsHeld r.ref r.buffer s) (hs : K l s) :
    K l (evaluate r f s) := by
  unfold Machine.evaluate
  split
  · exact k.removeCounted _ _ h hs
  · exact k.stay _ _ hs
  · exact k.releaseFirst (h.congr (consume_hold _ _ _)) (k.consume _ _ hs)

theorem catchUp (k : HandsKeep K) {r : HeldRecord} (f : FirstPart) (h : IsHeld r.ref r.buffer s) (hs : K l s) :
    K l (catchUp r f s) := by
  unfold Machine.catchUp
  split
  · exact k.removeCounted _ _ h hs
  · split
    · exact k.evaluate f h hs
    · exact hs

theorem admissionTest (k : HandsKeep K) {r : HeldRecord} (f : FirstPart) (h : IsHeld r.ref r.buffer s) (hs : K l s) :
    K l (admissionTest r f s) := by
  unfold Machine.admissionTest
  split
  · split
    · exact k.removeCounted _ _ h hs
    · exact hs
  · exact k.catchUp f h hs

theorem afterPartner (k : HandsKeep K) (n : Nat) (hs : K l s) : K l (afterPartner n s) := by
  unfold Machine.afterPartner
  split
  · exact hs
  · next held =>
    have stands := isHeld_of_heldRecord held
    split
    · exact hs
    · split
      · exact hs
      · split
        · exact k.releaseFirst stands hs
        · exact k.evaluate _ stands hs

theorem admitPartner (k : HandsKeep K) {b : BufId} (x : Facts) (n : Nat) (r : HeldRecord)
    (room : s.hold.records.length < 32) (hs : K (b :: l) s) : K l (admitPartner b x n r s) := by
  refine k.afterPartner _ (k.holdHighTest (k.admitted _ rfl ?_ ?_))
  · simpa [Machine.mapRecord, State.setRecords] using room
  · exact k.mapRecord _ _ (fun q _ _ => mapFirst_same q _) hs

/-! ### Scans and the rejudge pass -/

theorem beginScans_same (h : HoldQueue) (w : List ScanKind) :
    (beginScans h w).records = h.records ∧ (beginScans h w).nextRef = h.nextRef := by
  induction w with
  | nil => exact ⟨rfl, rfl⟩
  | cons k rest ih =>
    unfold beginScans
    split
    · exact ih
    · exact ⟨rfl, rfl⟩

theorem begins (k : HandsKeep K) (w : List ScanKind) (hs : K l s) : K l (s.setHold (beginScans s.hold w)) := by
  obtain ⟨records, next⟩ := beginScans_same s.hold w
  exact k.hold _ (by rw [records]) (by rw [records]) next hs

theorem trigger (k : HandsKeep K) (x : ScanKind) (hs : K l s) : K l (trigger x s) := by
  unfold Machine.trigger
  split
  · exact k.begins _ hs
  · exact k.hold _ rfl rfl rfl hs

theorem endScan (k : HandsKeep K) (hs : K l s) : K l (endScan s) := by
  unfold Machine.endScan
  split
  · exact k.begins _ hs
  · exact hs

theorem scanRecord (k : HandsKeep K) (x : ScanKind) (n : Nat) (hs : K l s) : K l (scanRecord x n s) := by
  unfold Machine.scanRecord
  split
  · exact hs
  · next held =>
    split
    · exact hs
    · split
      · exact k.evaluate _ (isHeld_of_heldRecord held) hs
      · exact hs

theorem scanStep (k : HandsKeep K) (hs : K l s) : K l (scanStep s) := by
  unfold Machine.scanStep
  split
  · exact hs
  · exact k.endScan hs
  · exact k.endScan (k.scanRecord _ _ (k.hold _ rfl rfl rfl hs))

theorem staleRequest (k : HandsKeep K) (p : Port) (hs : K l s) : K l (staleRequest p s) := by
  unfold Machine.staleRequest
  split
  · exact hs
  · split
    · exact k.outstanding _ (k.mapJudge _ _ rfl hs)
    · exact k.outstanding _ hs

theorem markPending (k : HandsKeep K) (hs : K l s) : K l (markPending s) :=
  k.staleRequest _ (k.staleRequest _ (k.mapRecords _ (fun _ _ => ⟨rfl, rfl⟩) hs))

theorem clearPending (k : HandsKeep K) (r : HeldRecord) (hs : K l s) : K l (clearPending r s) := by
  have first := k.mapRecord r.ref (fun q => { q with pending := false }) (fun _ _ _ => ⟨rfl, rfl⟩) hs
  unfold Machine.clearPending
  dsimp only
  split
  · exact k.mapRecord _ _ (fun _ _ _ => ⟨rfl, rfl⟩) first
  · exact first

end HandsKeep

end Sys2Proof.Machine
end

section
/-! SUPPORT. The operations of the Hold Queue's rejudge pass, the Table Store, the Commit Controller and the Judges as
runs of the changes of `HandsKeep`. -/

namespace Sys2Proof.Machine.HandsKeep

variable {K : List BufId → State → Prop} {l : List BufId} {s t : State}

/-! ### The verdict of a rejudge (R116) -/

theorem IsHeld.mapRecord {n : Nat} {b : BufId} {m : Nat} {f : HeldRecord → HeldRecord}
    (h : ∀ r, (f r).ref = r.ref ∧ (f r).buffer = r.buffer) (hs : IsHeld n b s) : IsHeld n b (Machine.mapRecord m f s) := by
  obtain ⟨q, member, ref, buffer⟩ := hs
  refine ⟨_, List.mem_map_of_mem member, ?_, ?_⟩ <;> split <;> simp [h, ref, buffer]

theorem IsHeld.replaced {r : HeldRecord} (hs : IsHeld r.ref r.buffer s) :
    IsHeld r.ref r.buffer (Machine.mapRecord r.ref (fun _ => r) s) := by
  obtain ⟨q, member, ref, buffer⟩ := hs
  exact ⟨r, List.mem_map.2 ⟨q, member, if_pos ref⟩, rfl, rfl⟩

theorem IsHeld.clearPending {n : Nat} {b : BufId} (r : HeldRecord) (hs : IsHeld n b s) :
    IsHeld n b (Machine.clearPending r s) := by
  have first : IsHeld n b (Machine.mapRecord r.ref (fun q => { q with pending := false }) s) :=
    IsHeld.mapRecord (fun _ => ⟨rfl, rfl⟩) hs
  unfold Machine.clearPending
  dsimp only
  split
  · exact IsHeld.mapRecord (fun _ => ⟨rfl, rfl⟩) first
  · exact first

theorem verdictPass (k : HandsKeep K) {r : HeldRecord} (f : FirstPart) (x : Facts) (h : IsHeld r.ref r.buffer s)
    (hs : K l s) : K l (verdictPass r f x s) := by
  unfold Machine.verdictPass
  extract_lets f' old r' s1
  have renewed : IsHeld r'.ref r'.buffer s := h
  have taken : K l s1 := k.replaced r' renewed hs
  split
  · exact taken
  · exact k.releaseFirst (IsHeld.replaced renewed) taken

theorem verdictHold (k : HandsKeep K) {r : HeldRecord} (f : FirstPart) (x : Facts) (y : HoldReason) (n : Nat)
    (h : IsHeld r.ref r.buffer s) (hs : K l s) : K l (verdictHold r f x y n s) := by
  unfold Machine.verdictHold
  extract_lets deadline past f' old r' s1
  have renewed : IsHeld r'.ref r'.buffer s := h
  have taken : K l s1 := k.replaced r' renewed hs
  split
  · exact k.removeFirst _ _ (IsHeld.replaced renewed) taken
  · split
    · exact taken
    · exact k.catchUp _ (IsHeld.replaced renewed) taken

theorem carryVerdict (k : HandsKeep K) {r : HeldRecord} (f : FirstPart) (v : RejudgeVerdict)
    (h : IsHeld r.ref r.buffer s) (hs : K l s) : K l (carryVerdict r f v s) := by
  have cleared := k.clearPending r hs
  have stands := IsHeld.clearPending r h
  cases v with
  | pass x => exact k.verdictPass f x stands cleared
  | hold x reason limit => exact k.verdictHold f x reason limit stands cleared
  | refuse reason index => exact k.removeCounted _ _ stands cleared

/-! ### The Table Store and the Policer -/

theorem setParam (k : HandsKeep K) (b : Bank) (i : Index) (r : ParamRecord) (hs : K l s) : K l (setParam b i r s) :=
  k.policer _ hs

theorem writeRow (k : HandsKeep K) (b : Bank) (i : Index) (e : StreamEntry) (hs : K l s) : K l (writeRow b i e s) :=
  k.store _ hs

theorem joinPoison (k : HandsKeep K) (b : Bank) (i : Index) (hs : K l s) : K l (joinPoison b i s) := by
  have marked := k.store { s.store.setPoison b i true with uncorrectable := satAdd s.store.uncorrectable } hs
  unfold Machine.joinPoison reportPoison clearUsable
  dsimp only
  split
  · exact k.policer _ (k.policer _ marked)
  · exact k.policer _ marked

theorem applyWalk (k : HandsKeep K) (b : Bank) (w : Walk) (hs : K l s) : K l (applyWalk b w s) := by
  have counted : K l (countCorrected w.corrected (s.setDraws w.draws)) := k.store _ (k.draws _ hs)
  unfold Machine.applyWalk
  dsimp only
  split
  · exact k.joinPoison _ _ counted
  all_goals exact counted

theorem scrubRead (k : HandsKeep K) (n : Fin 512) (hs : K l s) : K l (scrubRead n s) := by
  unfold Machine.scrubRead
  split
  · exact k.draws _ hs
  · exact k.store _ (k.draws _ hs)
  · exact k.tell _ (k.joinPoison _ _ (k.draws _ hs))

theorem scrubSettleDebt (k : HandsKeep K) (hs : K l s) : K l (scrubSettleDebt s) := by
  unfold Machine.scrubSettleDebt
  split <;> exact k.store _ hs

theorem scrubStepEffect (k : HandsKeep K) (hs : K l s) : K l (scrubStepEffect s) := by
  unfold Machine.scrubStepEffect
  split
  · exact k.scrubSettleDebt hs
  · exact k.scrubSettleDebt (k.store _ (k.scrubRead _ hs))

theorem concludeAccess (k : HandsKeep K) (hs : K l s) : K l (concludeAccess s) := k.store _ hs

theorem grantedWrite (k : HandsKeep K) (a : Bank) (hs : K l s) : K l (grantedWrite a s) := by
  unfold Machine.grantedWrite
  split
  · exact k.setParam _ _ _ (k.writeRow _ _ _ hs)
  · exact hs

/-- The buffer in judgement is the same in WAITING and in LOOKUP. -/
theorem judgePlaces_beginLookup (a : Bank) (j : Judge) : judgePlaces (beginLookup a j) = judgePlaces j := by
  obtain ⟨-, arrivals, judged, -⟩ := beginLookup_same a j
  rw [judgePlaces, judgePlaces, arrivals, judged]

theorem grantTo (k : HandsKeep K) (u : PortUse) (hs : K l s) : K l (grantTo u s) := by
  cases u with
  | judge p => exact k.store _ (k.mapJudge p _ (judgePlaces_beginLookup _ _) hs)
  | agent a => exact k.grantedWrite _ (k.store _ hs)
  | scrub => exact k.store _ hs
  | free => exact hs
  | closing => exact hs
  | sweep => exact hs

theorem grant (k : HandsKeep K) (h : grant s = some t) (hs : K l s) : K l t := by
  unfold Machine.grant at h
  split at h
  · obtain ⟨u, -, rfl⟩ := Option.map_eq_some_iff.1 h
    exact k.grantTo u hs
  · cases h

/-! ### The Commit Controller -/

theorem swapBanks (k : HandsKeep K) (hs : K l s) : K l (swapBanks s) :=
  k.tell _ (k.markPending (k.policer _ (k.commit _ (k.store _ hs))))

theorem commitBoundary (k : HandsKeep K) (m : MinuteMark) (hs : K l s) : K l (commitBoundary m s) := by
  unfold Machine.commitBoundary
  split
  · split
    · split
      · exact k.commit _ hs
      · exact k.swapBanks hs
    · exact hs
  all_goals exact hs

theorem swapIfDue (k : HandsKeep K) (hs : K l s) : K l (swapIfDue s) := by
  unfold Machine.swapIfDue
  split
  · exact k.swapBanks hs
  all_goals exact hs

/-! ### The work of a Judge -/

theorem refuseTelegram (k : HandsKeep K) (p : Port) {b : BufId} (x : List Byte) (reason : Reason) (i : Option Index)
    (hs : K (b :: l) s) : K l (refuseTelegram p b x reason i s) :=
  k.countRefused _ (k.handOver _ (k.release hs))

theorem endBinding (k : HandsKeep K) (p : Port) (c : BindContext) (hs : K l s) : K l (endBinding p c s) := by
  have closed := k.setBind p none hs
  unfold Machine.endBinding
  dsimp only
  split
  · exact k.removeRef _ _ closed
  · exact k.handOver _ closed
  · exact closed
  · exact closed

theorem bindDeadlineAt (k : HandsKeep K) (p : Port) (hs : K l s) : K l (bindDeadlineAt p s) := by
  unfold Machine.bindDeadlineAt
  split
  · exact hs
  · split
    · split
      · exact k.setBind _ _ hs
      · exact k.endBinding _ _ hs
    · exact hs

theorem endReached (k : HandsKeep K) {p : Port} (h : endReached p s = some t) (hs : K l s) : K l t := by
  unfold Machine.endReached at h
  split at h
  · cases h
  · split at h
    · cases h
      exact k.endBinding _ _ hs
    · cases h

theorem placeRequest (k : HandsKeep K) {p : Port} (h : placeRequest p s = some t) (hs : K l s) : K l t := by
  unfold Machine.placeRequest at h
  split at h
  · cases h
    exact k.outstanding _ (k.mapJudge p _ rfl hs)
  · cases h

/-- The Agent takes a buffer behind the others of its inbox. -/
theorem inboxed (k : HandsKeep K) {b : BufId} (room : s.agent.inbox.length < 4) (hs : K (b :: l) s) :
    K l (s.setAgent { s.agent with inbox := s.agent.inbox ++ [b] }) := by
  refine k.agent _ ?_ (.inl ?_) rfl hs
  · have behind : (b :: ((s.agent.exec.map (·.buffer)).toList ++ l)).Perm
        ((s.agent.exec.map (·.buffer)).toList ++ b :: l) := List.perm_middle.symm
    rw [agentPlaces, agentPlaces, List.append_assoc, List.append_assoc, List.append_assoc]
    exact behind.append_left s.agent.inbox
  · simpa using room

theorem disposeOwn (k : HandsKeep K) (p : Port) {b : BufId} (hs : K (b :: l) s) : K l (disposeOwn p b s) := by
  unfold Machine.disposeOwn
  dsimp only
  split
  · split
    · next room => exact k.inboxed room hs
    · exact k.refuseTelegram _ _ _ _ hs
  · exact k.refuseTelegram _ _ _ _ hs

/-- An IDLE Judge takes a telegram into judgement. -/
theorem awaitPort (k : HandsKeep K) {p : Port} {b : BufId} (x : JudgedAs) (idle : (s.judges.get p).phase = .idle)
    (hs : K (b :: l) s) : K l (awaitPort p b x s) := by
  refine k.judge p _ ?_ hs
  simp only [judgePlaces, idle, judgedBuffer, Option.toList, List.append_nil, List.append_assoc]
  exact .refl _

theorem setBind_phase (p : Port) (x : Option BindContext) (s : State) :
    ((Machine.setBind p x s).judges.get p).phase = (s.judges.get p).phase := by
  simp [Machine.setBind, State.mapJudge]

theorem bindFirst (k : HandsKeep K) {p : Port} {b : BufId} (idle : (s.judges.get p).phase = .idle)
    (hs : K (b :: l) s) : K l (bindFirst p b s) := by
  unfold Machine.bindFirst
  split
  · exact k.awaitPort _ ((setBind_phase _ _ _).trans idle) (k.setBind _ _ hs)
  · exact k.awaitPort _ idle hs

theorem bindSecond (k : HandsKeep K) {p : Port} {b : BufId} (c : BindContext) (idle : (s.judges.get p).phase = .idle)
    (hs : K (b :: l) s) : K l (bindSecond p b c s) := by
  have closed := k.setBind p none hs
  have still := (setBind_phase p none s).trans idle
  unfold Machine.bindSecond
  dsimp only
  split
  · exact k.awaitPort _ still closed
  · exact k.awaitPort _ still closed
  · exact k.refuseTelegram _ _ _ _ closed
  · exact k.awaitPort _ still closed

/-! ### What a removal leaves of the Judges' phases -/

theorem removeFirst_phase (r : HeldRecord) (x : Reason) (i : Option Index) (q : Port) (s : State) :
    ((Machine.removeFirst r x i s).judges.get q).phase = (s.judges.get q).phase := by
  have taken : (Machine.takeOut r x i s).judges = s.judges := (handOver_out _ _).judges
  have pair : (Machine.takeOutPartner r (Machine.takeOut r x i s)).judges = s.judges := by
    unfold Machine.takeOutPartner
    split
    · exact taken
    · split
      · exact taken
      · exact ((handOver_out _ _).judges).trans taken
  unfold Machine.removeFirst Machine.withdraw Machine.reportFate State.mapJudge
  split <;> split <;> simp [PerPort.get_set, pair] <;> split <;> simp_all

theorem removeRef_phase (x : Reason) (n : Nat) (q : Port) (s : State) :
    ((Machine.removeRef x s n).judges.get q).phase = (s.judges.get q).phase := by
  unfold Machine.removeRef
  split
  · exact removeFirst_phase _ _ _ _ _
  · rfl

theorem endBinding_phase (p : Port) (c : BindContext) (s : State) :
    ((Machine.endBinding p c s).judges.get p).phase = (s.judges.get p).phase := by
  unfold Machine.endBinding dropBroken
  dsimp only
  split
  · rw [removeRef_phase, setBind_phase]
  · rw [(handOver_out _ _).judges, setBind_phase]
  · exact setBind_phase _ _ _
  · exact setBind_phase _ _ _

theorem bindTest (k : HandsKeep K) {p : Port} {b : BufId} (idle : (s.judges.get p).phase = .idle)
    (hs : K (b :: l) s) : K l (bindTest p b s) := by
  unfold Machine.bindTest
  split
  · exact k.bindFirst idle hs
  · split
    · exact k.bindSecond _ idle hs
    · exact k.bindFirst ((endBinding_phase _ _ _).trans idle) (k.endBinding _ _ hs)

theorem takeSlot (k : HandsKeep K) {p : Port} (h : takeSlot p s = some t) (hs : K l s) : K l t := by
  unfold Machine.takeSlot at h
  split at h
  · next ref idle slot =>
    have emptied := k.mapJudge (s := s) p (fun j => { j with slot := none }) rfl hs
    dsimp only at h
    split at h
    · cases h
      refine k.mapJudge p _ ?_ emptied
      simp [judgePlaces, State.mapJudge, idle, judgedBuffer]
    · cases h
      exact k.outstanding _ emptied
  · cases h

theorem takeArrival (k : HandsKeep K) {p : Port} (h : takeArrival p s = some t) (hs : K l s) : K l t := by
  unfold Machine.takeArrival at h
  split at h
  · next b rest idle arrivals =>
    have taken : K (b :: l) (s.mapJudge p fun j => { j with arrivals := rest }) := by
      refine k.judge p _ ?_ hs
      simp only [judgePlaces, arrivals, idle, judgedBuffer, Option.toList, List.append_nil]
      exact List.perm_middle
    have still : ((s.mapJudge p fun j => { j with arrivals := rest }).judges.get p).phase = .idle := by
      simp [State.mapJudge, idle]
    dsimp only at h
    split at h
    · cases h
      exact k.disposeOwn _ taken
    · cases h
      exact k.bindTest still taken
  · cases h

/-! ### The conclusion of a judgement (R28, R34 to R42) -/

theorem writeOutcome (k : HandsKeep K) (p : Port) (r : JudgedAs) (o : BindOutcome) (x : Particulars) (hs : K l s) :
    K l (writeOutcome p r o x s) := by
  unfold Machine.writeOutcome
  split
  · exact k.setBind _ _ hs
  · exact hs

theorem concludeRefuse (k : HandsKeep K) (p : Port) {b : BufId} (r : JudgedAs) (d : Described) (x : Reason)
    (i : Option Index) (hs : K (b :: l) s) : K l (concludeRefuse p b r d x i s) :=
  k.writeOutcome _ _ _ _ (k.refuseTelegram _ _ _ _ hs)

theorem concludePass (k : HandsKeep K) (p : Port) {b : BufId} (r : JudgedAs) (d : Described) (x : Facts)
    (y : ListKind) (hs : K (b :: l) s) : K l (concludePass p b r d x y s) := by
  have prepared := k.prepareBuffer b x.outDest x.stamp hs
  unfold Machine.concludePass
  dsimp only
  split
  · next appended => exact k.writeOutcome _ _ _ _ (k.countPassed _ (k.txAppend appended prepared))
  · exact k.writeOutcome _ _ _ _ (k.refuseTelegram _ _ _ _ prepared)

theorem writeOutcome_hold (p : Port) (r : JudgedAs) (o : BindOutcome) (x : Particulars) (s : State) :
    (Machine.writeOutcome p r o x s).hold = s.hold := by
  unfold Machine.writeOutcome
  split <;> rfl

theorem countHeld_hold (i : Option Index) (s : State) : (Machine.countHeld i s).hold = s.hold := by
  cases i <;> rfl

theorem concludeHold (k : HandsKeep K) (p : Port) {b : BufId} (r : JudgedAs) (d : Described) (x : Facts)
    (y : HoldReason) (n : Nat) (hs : K (b :: l) s) : K l (concludeHold p b r d x y n s) := by
  unfold Machine.concludeHold
  split
  · exact k.concludeRefuse _ _ _ _ _ hs
  · next room =>
    extract_lets record s1 s2
    have admitted : K l (admitRecord record s) :=
      k.admitted record rfl (by simpa [holdFull] using room) hs
    have tested : K l s2 := k.holdHighTest (k.countHeld _ (k.writeOutcome _ _ _ _ admitted))
    have stands : IsHeld record.ref record.buffer s2 := by
      refine IsHeld.congr (s := admitRecord record s) ?_ ⟨record, by simp [admitRecord], rfl, rfl⟩
      rw [(holdHighTest_out _).hold, countHeld_hold, writeOutcome_hold]
    split
    · exact k.admissionTest _ stands tested
    · exact tested

theorem concludeOwn (k : HandsKeep K) (p : Port) {b : BufId} (r : JudgedAs) (d : Described) (v : RejudgeVerdict)
    (hs : K (b :: l) s) : K l (concludeOwn p b r d v s) := by
  cases v with
  | pass x => exact k.concludePass _ _ _ _ _ (k.consume _ _ hs)
  | hold x reason limit => exact k.concludeHold _ _ _ _ _ _ hs
  | refuse reason index => exact k.concludeRefuse _ _ _ _ _ hs

/-- Checks 6 to 8 are skipped for a second, so its verdict is never HOLD (R48, R49). -/
theorem secondVerdict_ne_hold (s : State) (bank : Bank) (stop : LookupStop) (d : Described) (x : Facts)
    (r : HoldReason) (n : Nat) : secondVerdict s bank stop d ≠ .hold x r n := by
  unfold secondVerdict defaultVerdict
  intro h
  split at h
  · split at h <;> cases h
  · split at h <;> cases h
  · cases h
  · cases h

theorem concludeAfterPassed (k : HandsKeep K) (p : Port) {b : BufId} (y : ListKind) (o : Option Particulars)
    (d : Described) {v : RejudgeVerdict} (hv : ∀ x r n, v ≠ .hold x r n) (hs : K (b :: l) s) :
    K l (concludeAfterPassed p b y o d v s) := by
  cases v with
  | pass x => exact k.concludePass _ _ _ _ _ hs
  | hold x r n => exact absurd rfl (hv x r n)
  | refuse reason index => exact k.concludeRefuse _ _ _ _ _ hs

theorem offerPartner (k : HandsKeep K) (p : Port) {b : BufId} (n : Nat) (o : Option Particulars) (d : Described)
    (x : Facts) (own : RejudgeVerdict) (hs : K (b :: l) s) : K l (offerPartner p b n o d x own s) := by
  unfold Machine.offerPartner
  split
  · exact k.removeRef _ _ (k.concludeRefuse _ _ _ _ _ hs)
  · next room =>
    split
    · exact k.concludeOwn _ _ _ _ hs
    · refine k.admitPartner _ _ _ ?_ (k.countHeld _ hs)
      rw [countHeld_hold]
      simpa [holdFull] using room

theorem concludeAfterHeld (k : HandsKeep K) (p : Port) {b : BufId} (n : Nat) (o : Option Particulars) (d : Described)
    {v : RejudgeVerdict} (own : RejudgeVerdict) (hv : ∀ x r n, v ≠ .hold x r n) (hs : K (b :: l) s) :
    K l (concludeAfterHeld p b n o d v own s) := by
  cases v with
  | pass x => exact k.offerPartner _ _ _ _ _ _ hs
  | hold x r n => exact absurd rfl (hv x r n)
  | refuse reason index => exact k.removeRef _ _ (k.concludeRefuse _ _ _ _ _ hs)

theorem concludeTelegram (k : HandsKeep K) (p : Port) {b : BufId} (r : JudgedAs) (bank : Bank) (stop : LookupStop)
    (hs : K (b :: l) s) : K l (concludeTelegram p b r bank stop s) := by
  cases r with
  | plain => exact k.concludeOwn _ _ _ _ hs
  | first => exact k.concludeOwn _ _ _ _ hs
  | secondPassed list first => exact k.concludeAfterPassed _ _ _ _ (secondVerdict_ne_hold _ _ _ _) hs
  | secondHeld ref first => exact k.concludeAfterHeld _ _ _ _ _ (secondVerdict_ne_hold _ _ _ _) hs

theorem rejudgeConsume (k : HandsKeep K) (v : RejudgeVerdict) (hs : K l s) : K l (rejudgeConsume v s) := by
  cases v with
  | pass x => exact k.consume _ _ hs
  | hold x reason limit => exact hs
  | refuse reason index => exact hs

theorem rejudgeConsume_hold (v : RejudgeVerdict) (s : State) : (Machine.rejudgeConsume v s).hold = s.hold := by
  cases v with
  | pass x => exact consume_hold _ _ _
  | hold x reason limit => rfl
  | refuse reason index => rfl

theorem concludeRejudge (k : HandsKeep K) (p : Port) (n : Nat) (bank : Bank) (stop : LookupStop) (hs : K l s) :
    K l (concludeRejudge p n bank stop s) := by
  unfold Machine.concludeRejudge
  split
  · exact k.outstanding _ hs
  · next r held =>
    split
    · exact k.outstanding _ hs
    · extract_lets v s1
      have taken : K l s1 := k.rejudgeConsume v hs
      have stands : IsHeld r.ref r.buffer s1 := (isHeld_of_heldRecord held).congr (rejudgeConsume_hold v s)
      split
      · exact k.outstanding _ taken
      · exact k.carryVerdict _ _ stands (k.outstanding _ taken)

/-- The buffer of the telegram in judgement, none for a rejudge. -/
theorem concludeItem (k : HandsKeep K) (p : Port) (it : Item) (bank : Bank) (stop : LookupStop)
    (hs : K ((judgedBuffer (.waiting it)).toList ++ l) s) : K l (concludeItem p it bank stop s) := by
  cases it with
  | telegram b r key => exact k.concludeTelegram _ _ _ _ hs
  | rejudge n key => exact k.concludeRejudge _ _ _ _ hs

theorem concludeLookup (k : HandsKeep K) {p : Port} {it : Item} {bank : Bank} (o : RiseOrder)
    (h : (s.judges.get p).phase = .lookup it bank) (hs : K l s) : K l (concludeLookup p it bank o s) := by
  have walked := k.concludeAccess (k.applyWalk bank (lookup bank it.key s) hs)
  have phase : ((Machine.concludeAccess (Machine.applyWalk bank (lookup bank it.key s) s)).judges.get p).phase =
      .lookup it bank := by
    have same : (Machine.applyWalk bank (lookup bank it.key s) s).judges = s.judges := by
      unfold Machine.applyWalk Machine.joinPoison reportPoison
      dsimp only
      split
      · split <;> rfl
      all_goals rfl
    exact (congrArg (fun j : PerPort Judge => (j.get p).phase) same).trans h
  have ended : K ((judgedBuffer (.waiting it)).toList ++ l) (Machine.setPhase p .idle
      (Machine.concludeAccess (Machine.applyWalk bank (lookup bank it.key s) s))) := by
    refine k.judge p _ ?_ walked
    rw [judgePlaces, judgePlaces, phase, List.append_assoc, List.append_assoc]
    cases it <;> exact .refl _
  cases o with
  | flagFirst => exact k.concludeItem _ _ _ _ (k.tellFault _ ended)
  | recordsFirst => exact k.tellFault _ (k.concludeItem _ _ _ _ ended)

end Sys2Proof.Machine.HandsKeep
end

section
/-! SUPPORT. The operations of the Management Agent, the resets and the Receive Units as runs of the changes of
`HandsKeep`; with them every event, so every step, keeps such a property with no buffer in hand. -/

namespace Sys2Proof.Machine

/-! ### What the Agent's operations leave of the Agent -/

theorem joinPoison_agent (b : Bank) (i : Index) (s : State) : (joinPoison b i s).agent = s.agent := by
  unfold joinPoison reportPoison
  dsimp only
  split <;> rfl

theorem readRowOf_agent (b : Bank) (i : Index) (s : State) : (readRowOf b i s).2.agent = s.agent := by
  unfold readRowOf
  split
  · rfl
  · split
    · rfl
    · rfl
    · exact ((tell_out _ _).agent).trans (joinPoison_agent _ _ _)

theorem invalidateAccess_agent (a : Bank) (i : Index) (s : State) : (invalidateAccess a i s).2.agent = s.agent := by
  unfold invalidateAccess
  split
  · rfl
  · split <;> rfl

theorem copyAccess_agent (a : Bank) (i : Index) (s : State) : (copyAccess a i s).2.agent = s.agent := by
  have read := readRowOf_agent a i s
  unfold copyAccess
  split
  all_goals
    next h =>
    rw [h] at read
    exact read

theorem applyWalk_agent (b : Bank) (w : Walk) (s : State) : (applyWalk b w s).agent = s.agent := by
  unfold applyWalk
  dsimp only
  split
  · exact joinPoison_agent _ _ _
  all_goals rfl

theorem swapBanks_agent (s : State) : (swapBanks s).agent = s.agent :=
  ((tell_out _ _).agent).trans ((markPending_held _).agent)

theorem fullEvaluation_agent (m : MinuteMark) (s : State) : (fullEvaluation m s).agent = s.agent := by
  unfold fullEvaluation
  dsimp only
  split
  · rfl
  · exact (trigger_held _ _).agent

theorem timerAct_agent (a : RefillAction) (s : State) : (timerAct a s).agent = s.agent := by
  cases a
  · unfold timerAct timerStart
    dsimp only
    split <;> rfl
  · unfold timerAct timerPause
    dsimp only
    split <;> rfl
  · rfl
  · rfl

theorem acceptSetting_exec (code : Nat) (new : Settings) (s : State) :
    (acceptSetting code new s).agent.exec = s.agent.exec := by
  unfold acceptSetting
  dsimp only
  split
  · rfl
  · split <;> rfl

namespace HandsKeep

variable {K : List BufId → State → Prop} {l : List BufId} {s t : State}

/-! ### Responses (R156, R157) -/

theorem respond (k : HandsKeep K) {b : BufId} (x : Status) (r : List Byte) (hs : K (b :: l) s) :
    K l (respond b x r s) := by
  have written : K (b :: l) (writeResponse b x r s) := k.buffer _ _ hs
  unfold Machine.respond offerResponse
  split
  · next appended => exact k.txAppend appended written
  · exact k.handOver _ (k.release written)

theorem complete (k : HandsKeep K) {b : BufId} (x : Status) (r : List Byte) (hs : K (b :: l) (endExecution s)) :
    K l (complete b x r s) := k.swapIfDue (k.respond _ _ hs)

/-- A command answered as it begins: its buffer is in hand. -/
theorem completeIdle (k : HandsKeep K) {b : BufId} (x : Status) (r : List Byte) (idle : s.agent.exec = none)
    (hs : K (b :: l) s) : K l (Machine.complete b x r s) := by
  refine k.complete _ _ (k.agent _ ?_ (.inr le_rfl) rfl hs)
  rw [agentPlaces, agentPlaces, idle]

/-- A command answered at an access: its buffer is the one in execution. -/
theorem completeJob (k : HandsKeep K) {e : Execution} (x : Status) (r : List Byte) (busy : s.agent.exec = some e)
    (hs : K l s) : K l (Machine.complete e.buffer x r s) := by
  refine k.complete _ _ (k.agent _ ?_ (.inr le_rfl) rfl hs)
  rw [agentPlaces, agentPlaces, busy]
  simp

theorem beginJob (k : HandsKeep K) {b : BufId} (job : Job) (idle : s.agent.exec = none) (hs : K (b :: l) s) :
    K l (beginJob b job s) := by
  refine k.store _ (k.agent _ ?_ (.inr le_rfl) rfl hs)
  rw [agentPlaces, agentPlaces, idle]
  simp

theorem nextAccess (k : HandsKeep K) {e : Execution} (job : Job) (busy : s.agent.exec = some e) (hs : K l s) :
    K l (nextAccess e.buffer job s) := by
  refine k.store _ (k.agent _ ?_ (.inr le_rfl) rfl hs)
  rw [agentPlaces, agentPlaces, busy]
  simp

/-! ### Commands as they begin (R152 to R155) -/

theorem setSupervision (k : HandsKeep K) (x : Supervision) (hs : K l s) : K l (setSupervision x s) :=
  k.agent _ (.refl _) (.inr le_rfl) rfl hs

theorem reload (k : HandsKeep K) (hs : K l s) : K l (reload s) := k.setSupervision _ hs

theorem fullEvaluation (k : HandsKeep K) (m : MinuteMark) (hs : K l s) : K l (fullEvaluation m s) := by
  have evaluated : K l (reevaluate m s) := k.windows _ hs
  unfold Machine.fullEvaluation
  dsimp only
  split
  · exact evaluated
  · exact k.trigger _ evaluated

theorem timerAct (k : HandsKeep K) (a : RefillAction) (hs : K l s) : K l (timerAct a s) := by
  cases a
  · unfold Machine.timerAct timerStart
    dsimp only
    split
    · exact k.policer _ hs
    · exact k.policer _ hs
    · exact hs
  · unfold Machine.timerAct timerPause
    dsimp only
    split
    · exact k.policer _ hs
    · exact hs
    · exact hs
  · exact k.policer _ hs
  · exact k.policer _ hs

/-- The pin enables change with setting 15 alone. -/
theorem withSetting_pinEnables {code : Nat} {present : Bool} {v : BitVec 16} {c new : Settings}
    (h : withSetting code present v c = some new) (other : code ≠ 15) : new.pinEnables = c.pinEnables := by
  unfold withSetting at h
  split at h
  case h_12 => cases h; rfl
  case h_15 => exact absurd rfl other
  case h_17 => cases h
  all_goals
    obtain ⟨_, -, rfl⟩ := Option.map_eq_some_iff.1 h
    rfl

theorem acceptSetting (k : HandsKeep K) {code : Nat} {new : Settings}
    (h : code ≠ 15 → new.pinEnables = s.agent.settings.pinEnables) (hs : K l s) : K l (acceptSetting code new s) := by
  unfold Machine.acceptSetting
  dsimp only
  split
  · next period =>
    exact k.reload (k.agent _ (.refl _) (.inr le_rfl) (h (by omega)) hs)
  · split
    · exact k.settings _ hs
    · next other => exact k.agent _ (.refl _) (.inr le_rfl) (h other) hs

theorem carrySetConfig (k : HandsKeep K) {b : BufId} (code : Nat) (present : Bool) (v : BitVec 16)
    (idle : s.agent.exec = none) (hs : K (b :: l) s) : K l (carrySetConfig b code present v s) := by
  unfold Machine.carrySetConfig
  dsimp only
  split
  · exact k.completeIdle _ _ idle hs
  · next new inRange =>
    split
    · exact k.completeIdle _ _ idle hs
    · exact k.completeIdle _ _ ((acceptSetting_exec _ _ _).trans idle)
        (k.acceptSetting (withSetting_pinEnables inRange) hs)

theorem clearFlags (k : HandsKeep K) (x : BitVec 8) (hs : K l s) : K l (clearFlags x s) := k.flags _ hs

theorem powerOnTo (k : HandsKeep K) (x : BitVec 8) (hs : K l s) : K [] (powerOnTo x s) :=
  k.draws _ (k.commit _ (k.calendar _ (k.windows _ (k.policer _ (k.store _ (k.reset _ (k.straps _ hs)))))))

/-! ### Accesses of rows -/

theorem readRowOf (k : HandsKeep K) (b : Bank) (i : Index) (hs : K l s) : K l (readRowOf b i s).2 := by
  unfold Machine.readRowOf
  split
  · exact hs
  · split
    · exact k.draws _ hs
    · exact k.store _ (k.draws _ hs)
    · exact k.tell _ (k.joinPoison _ _ (k.draws _ hs))

theorem writeUnusable (k : HandsKeep K) (a : Bank) (i : Index) (e : StreamEntry) (hs : K l s) :
    K l (writeUnusable a i e s) := k.policer _ (k.writeRow _ _ _ hs)

theorem invalidateAccess (k : HandsKeep K) (a : Bank) (i : Index) (hs : K l s) : K l (invalidateAccess a i s).2 := by
  unfold Machine.invalidateAccess
  split
  · exact k.writeUnusable _ _ _ hs
  · split
    · exact k.writeUnusable _ _ _ (k.draws _ hs)
    · exact k.writeUnusable _ _ _ (k.store _ (k.draws _ hs))
    · exact k.writeUnusable _ _ _ (k.draws _ hs)

theorem copyAccess (k : HandsKeep K) (a : Bank) (i : Index) (hs : K l s) : K l (copyAccess a i s).2 := by
  have read := k.readRowOf a i hs
  unfold Machine.copyAccess
  split
  all_goals
    next h =>
    rw [h] at read
    exact k.setParam _ _ _ (k.writeRow _ _ _ read)

theorem abandonAccess (k : HandsKeep K) (hs : K l s) : K l (abandonAccess s) := by
  have drawn := k.draws (s.draws + 2) hs
  unfold Machine.abandonAccess
  dsimp only
  split
  · split
    · next x _ =>
      unfold abandonedEffect
      split
      · split
        · exact k.readRowOf _ _ drawn
        · exact drawn
      · split
        · exact k.readRowOf _ _ drawn
        · exact drawn
      · exact drawn
      · exact drawn
      · split
        · exact k.invalidateAccess _ _ drawn
        · exact drawn
      · split
        · exact k.copyAccess _ _ drawn
        · split
          · exact k.readRowOf _ _ drawn
          · exact drawn
      · split
        · exact k.writeUnusable _ _ _ drawn
        · exact drawn
    · exact hs
  · split
    · split
      · exact k.scrubRead _ drawn
      · exact drawn
    · exact hs
  all_goals exact hs

theorem warmReset (k : HandsKeep K) (c : ResetCause) (hs : K l s) : K [] (warmReset c s) := by
  have common := k.calendar ((Machine.abandonAccess s).cal.afterReset) (k.commit
    ⟨.idle, (Machine.abandonAccess s).commit.count⟩ (k.store ((Machine.abandonAccess s).store.afterReset)
      (k.reset c (k.abandonAccess hs))))
  refine k.windows _ ?_
  unfold resetCredits
  split
  · exact k.policer _ common
  · exact k.policer _ common

/-! ### Commands carried out -/

theorem carryOut (k : HandsKeep K) {b : BufId} (x : Bool) (c : Cmd) (idle : s.agent.exec = none)
    (hs : K [b] s) : K [] (carryOut b x c s) := by
  cases c
  case readStatus => exact k.completeIdle _ _ idle hs
  case readEntry => exact k.beginJob _ idle hs
  case readWindow => exact k.completeIdle _ _ idle hs
  case readStream => exact k.beginJob _ idle hs
  case probe => exact k.beginJob _ idle hs
  case keepalive => exact k.completeIdle _ _ idle hs
  case writeEntry => exact k.beginJob _ idle hs
  case invalidate => exact k.beginJob _ idle hs
  case writeWindow => exact k.completeIdle _ _ idle (k.windows _ hs)
  case copy => exact k.beginJob _ idle (k.windows _ hs)
  case clear => exact k.beginJob _ idle (k.windows _ hs)
  case commitNow => exact k.completeIdle _ _ ((congrArg Agent.exec (swapBanks_agent s)).trans idle) (k.swapBanks hs)
  case schedule i =>
    unfold Machine.carryOut carrySchedule
    dsimp only
    split
    · exact k.completeIdle _ _ idle (k.commit _ hs)
    · exact k.completeIdle _ _ idle hs
  case cancel => exact k.completeIdle _ _ idle (k.commit _ hs)
  case setTime =>
    exact k.completeIdle _ _ ((congrArg Agent.exec (fullEvaluation_agent _ _)).trans idle)
      (k.fullEvaluation _ (k.calendar _ hs))
  case setConfig => exact k.carrySetConfig _ _ _ idle hs
  case refillControl a =>
    exact k.completeIdle _ _ ((congrArg Agent.exec (timerAct_agent a s)).trans idle) (k.timerAct _ hs)
  case clearCounters => exact k.completeIdle _ _ idle (k.policer _ hs)
  case drain => exact k.completeIdle _ _ idle (k.drained _ hs)
  case clearAlerts => exact k.completeIdle _ _ idle (k.clearFlags _ hs)
  case flush scope =>
    exact k.completeIdle _ _ ((congrArg Agent.exec (flushHeld_held scope s).agent).trans idle) (k.flushHeld _ hs)
  case reset => exact k.warmReset _ hs

theorem startCommand (k : HandsKeep K) {b : BufId} (idle : s.agent.exec = none) (hs : K [b] s) :
    K [] (startCommand b s) := by
  unfold Machine.startCommand
  split
  · unfold executeCommand
    dsimp only
    split
    · exact k.completeIdle _ _ idle (k.reload hs)
    · exact k.completeIdle _ _ idle (k.reload hs)
    · exact k.carryOut _ _ idle (k.reload hs)
  · exact k.handOver _ (k.completeIdle _ _ idle hs)

/-! ### The conclusion of a management access -/

theorem concludeJob (k : HandsKeep K) {e : Execution} (job : Job) (a : Bank) (busy : s.agent.exec = some e)
    (hs : K l s) : K l (concludeJob e.buffer job a s) := by
  cases job with
  | readEntry role i =>
    have read := k.readRowOf (roleBank a role) i hs
    have agent := readRowOf_agent (roleBank a role) i s
    unfold Machine.concludeJob concludeReadEntry
    dsimp only
    split
    all_goals
      next h =>
      rw [h] at read agent
      exact k.completeJob _ _ ((congrArg Agent.exec agent).trans busy) read
  | readStream i rest results =>
    have read := k.readRowOf a i hs
    have still := (congrArg Agent.exec (readRowOf_agent a i s)).trans busy
    cases rest with
    | nil => exact k.completeJob _ _ still read
    | cons j more => exact k.nextAccess _ still read
  | probe d =>
    have walked := k.tellFault (lookup a d.key s).joins (k.applyWalk a (lookup a d.key s) hs)
    have agent := ((tellFault_out (lookup a d.key s).joins (Machine.applyWalk a (lookup a d.key s) s)).agent).trans
      (applyWalk_agent a (lookup a d.key s) s)
    exact k.completeJob _ _ ((congrArg Agent.exec agent).trans busy) walked
  | writeEntry i w => exact k.completeJob _ _ busy hs
  | invalidate i =>
    exact k.completeJob _ _ ((congrArg Agent.exec (invalidateAccess_agent a i s)).trans busy)
      (k.invalidateAccess a i hs)
  | copy i blanks =>
    have copied := k.copyAccess a i hs
    have still := (congrArg Agent.exec (copyAccess_agent a i s)).trans busy
    unfold Machine.concludeJob concludeCopy
    dsimp only
    split
    · exact k.nextAccess _ still copied
    · exact k.completeJob _ _ still copied
  | clear i =>
    have cleared := k.writeUnusable a i blankEntry hs
    unfold Machine.concludeJob concludeClear
    dsimp only
    split
    · exact k.nextAccess _ busy cleared
    · exact k.completeJob _ _ busy cleared

/-! ### The lines -/

theorem startReception (k : HandsKeep K) {p : Port} (h : (s.rx.get p).phase = .ready) (hs : K l s) :
    K l (startReception p s) := by
  unfold Machine.startReception
  split
  · next b s1 claimed =>
    have unit : s1.rx = s.rx := (claim_out claimed).rx
    refine k.rx p _ ?_ (k.buffer b _ (k.claim claimed hs))
    change ([b] ++ l).Perm (rxPlaces (s1.rx.get p) ++ b :: l)
    rw [unit, rxPlaces, h]
    exact .refl _
  · refine k.rx p _ ?_ hs
    simp [rxPlaces, h]

theorem dropReception (k : HandsKeep K) {p : Port} {b : BufId} {x : RxPhase} (count : RxUnit → RxUnit)
    (h : (s.rx.get p).phase = .filling b) (hx : x = .ready ∨ x = .settling) (hs : K l s) :
    K l (dropReception p b x count s) := by
  refine k.release (k.rx p _ ?_ hs)
  rcases hx with rfl | rfl <;> simp [rxPlaces, h]

theorem arrive (k : HandsKeep K) {p : Port} {b : BufId} (n : Nat) (h : (s.rx.get p).phase = .filling b) (hs : K l s) :
    K l (arrive p b n s) := by
  have left : K (b :: l) ((s.setBuffer b { s.buffer b with desc := arrivalDescriptor p n s }).mapRx p fun u =>
      { u with phase := .settling, good := u.good + 1 }) := by
    refine k.rx p _ ?_ (k.buffer b _ hs)
    change ([] ++ b :: l).Perm (rxPlaces (s.rx.get p) ++ l)
    rw [rxPlaces, h]
    exact .refl _
  refine k.judge p _ ?_ left
  simp only [judgePlaces, List.append_assoc]
  exact (List.perm_middle (l₁ := (judgedBuffer _).toList) (l₂ := l)).symm.append_left _

theorem txComplete (k : HandsKeep K) (p : Port) (hs : K l s) : K l (txComplete p s) := by
  unfold Machine.txComplete
  split
  · next b line sending =>
    refine k.release (k.tx p _ ?_ (.inr le_rfl) (.inr le_rfl) hs)
    rw [txPlaces, txPlaces, sending, List.append_nil, List.append_assoc _ [b]]
    exact .refl _
  all_goals exact hs

theorem txSpacingEnd (k : HandsKeep K) (p : Port) (hs : K l s) : K l (txSpacingEnd p s) := by
  unfold Machine.txSpacingEnd
  split
  · next spacing =>
    have short := startTx_lengths s.buffer { s.tx.get p with phase := .idle }
    refine k.tx p _ ?_ (.inr short.1) (.inr short.2) hs
    refine ((startTx_places _ _).trans ?_).append_right l
    rw [txPlaces, txPlaces, spacing]
  all_goals exact hs

/-! ### Every event -/

theorem sweepNext (k : HandsKeep K) (n : Fin 512) (hs : K l s) : K l (sweepNext n s) := by
  unfold Machine.sweepNext
  split <;> exact k.store _ hs

theorem runningPulse (k : HandsKeep K) (hs : K l s) : K l (runningPulse s) := by
  unfold Machine.runningPulse
  split
  · exact k.policer _ hs
  · split
    · exact k.trigger _ (k.policer _ (k.policer _ hs))
    · exact k.policer _ hs

theorem openPort (k : HandsKeep K) (h : openPort s = some t) (hs : K l s) : K l t := by
  unfold Machine.openPort at h
  split at h <;> cases h
  exact k.store _ hs

/-- With no buffer in hand, every event keeps the property. -/
theorem events (k : HandsKeep K) : EventsKeep (K []) where
  pending _ _ hs := k.pending _ hs
  straps _ _ hs := k.straps _ hs
  calendar _ _ hs := k.calendar _ hs
  windows _ _ hs := k.windows _ hs
  upsets _ _ hs := k.store _ hs
  buffer _ _ _ hs := k.buffer _ _ hs
  unit _ p u h hs := k.rx p u (by rw [h]) hs
  handOver _ _ hs := k.handOver _ hs
  tell _ _ hs := k.tell _ hs
  startReception _ _ h hs := k.startReception h hs
  dropReception _ _ _ _ _ h hx hs := k.dropReception _ h hx hs
  arrive _ _ _ _ h hs := k.arrive _ h hs
  txComplete _ _ hs := k.txComplete _ hs
  txSpacingEnd _ _ hs := k.txSpacingEnd _ hs
  powerOn _ _ hs := k.powerOnTo _ hs
  warmReset _ _ hs := k.warmReset _ hs
  sweep _ _ _ hs := k.sweepNext _ (k.setParam _ _ _ (k.store _ hs))
  expire _ hs := k.removeAll _ _ hs
  bindDeadline _ _ hs := k.bindDeadlineAt _ hs
  pulse _ _ hs := k.runningPulse hs
  scrubExpiry _ _ hs := k.store _ hs
  supervision _ _ hs := k.setSupervision _ hs
  removeBlocked _ hs := k.removeAll _ _ hs
  trigger _ _ hs := k.trigger _ hs
  commitBoundary _ _ hs := k.commitBoundary _ hs
  scrubStep _ _ hs := k.concludeAccess (k.scrubStepEffect hs)
  access _ _ _ _ busy hs := k.concludeJob _ _ busy (k.concludeAccess hs)
  lookup _ _ _ _ _ h hs := k.concludeLookup _ h hs
  scanStep _ hs := k.scanStep hs
  grant _ _ h hs := k.grant h hs
  endReached _ _ _ h hs := k.endReached h hs
  placeRequest _ _ _ h hs := k.placeRequest h hs
  takeSlot _ _ _ h hs := k.takeSlot h hs
  command _ _ _ idle waits _ hs := by
    refine k.startCommand idle (k.agent _ ?_ (.inr ?_) rfl hs)
    · rw [agentPlaces, agentPlaces, waits]
      exact List.perm_middle
    · simp [waits]
  takeArrival _ _ _ h hs := k.takeArrival h hs
  openPort _ _ h hs := k.openPort h hs

end HandsKeep

end Sys2Proof.Machine
end

section
/-! SUPPORT. The invariants of the lists (R13, R99, R151, R171), of ALERT_N and the Exception Queue (R171, R176) and of
the buffers' places (R12, log 17), each as a property kept with buffers in hand. -/

namespace Sys2Proof.Machine

/-! ### The lists' limits -/

theorem bounded_hands : HandsKeep fun _ s => Bounded s where
  store _ h := h
  windows _ h := h
  policer _ h := h
  calendar _ h := h
  commit _ h := h
  straps _ h := h
  draws _ h := h
  pending _ h := h
  report _ h := h
  flags _ h := h
  lost _ h := h
  coalesced _ _ _ := by
    rintro ⟨held, inbox, queue, sent⟩
    exact ⟨held, inbox, by simp; omega, sent⟩
  recorded _ _ room := by
    rintro ⟨held, inbox, -, sent⟩
    exact ⟨held, inbox, by simpa using room, sent⟩
  drained n := by
    rintro ⟨held, inbox, queue, sent⟩
    exact ⟨held, inbox, by simp [drainRecords]; omega, sent⟩
  buffer _ _ h := h
  free _ _ h := h
  rx _ _ _ h := h
  tx p u _ fewUrgent fewNormal := by
    rintro ⟨held, inbox, queue, urgent, normal⟩
    refine ⟨held, inbox, queue, fun q => ?_, fun q => ?_⟩
    · rw [State.setTx_tx, PerPort.get_set]
      split
      · exact fewUrgent.elim id (le_trans · (urgent p))
      · exact urgent q
    · rw [State.setTx_tx, PerPort.get_set]
      split
      · exact fewNormal.elim id (le_trans · (normal p))
      · exact normal q
  judge _ _ _ h := h
  agent _ _ few _ := by
    rintro ⟨held, inbox, rest⟩
    exact ⟨held, few.elim id (le_trans · inbox), rest⟩
  settings _ h := h
  hold x refs _ _ := by
    rintro ⟨held, rest⟩
    refine ⟨?_, rest⟩
    have same := congrArg List.length refs
    rw [List.length_map, List.length_map] at same
    exact same.trans_le held
  replaced _ _ := by
    rintro ⟨held, rest⟩
    exact ⟨by simpa [mapRecord, State.setRecords] using held, rest⟩
  dropped _ _ _ := by
    rintro ⟨held, rest⟩
    exact ⟨(List.length_filter_le _ _).trans held, rest⟩
  admitted _ _ room := by
    rintro ⟨-, rest⟩
    exact ⟨by simpa [admitRecord] using room, rest⟩
  reset _ _ := ⟨Nat.zero_le _, Nat.zero_le _, Nat.zero_le _, fun p => by cases p <;> exact Nat.zero_le _,
    fun p => by cases p <;> exact Nat.zero_le _⟩

/-- Settles O54: each append is made where its list has room, and nothing else makes a list longer. -/
theorem listsStayWithinTheirLimits : Obligations.ListsStayWithinTheirLimits :=
  fun _ _ h hstep => bounded_hands.events.step hstep h

/-! ### ALERT_N and the neighbours in the Exception Queue -/

theorem alertFollows_driveAlert (s : State) : AlertFollows (driveAlert s) := by
  simp [AlertFollows, driveAlert]

/-- A list whose last is replaced by one of the same key keeps its neighbours of different keys. -/
theorem isChain_replace_last {l : List ExcRecord} {n m : ExcRecord} (last : l.getLast? = some n)
    (key : m.what = n.what) (h : l.IsChain fun a b => sameKey a.what b.what = false) :
    (l.dropLast ++ [m]).IsChain fun a b => sameKey a.what b.what = false := by
  rw [← List.dropLast_append_getLast? n last, List.isChain_append] at h
  obtain ⟨front, -, joint⟩ := h
  refine List.isChain_append.2 ⟨front, List.isChain_singleton _, fun x hx y hy => ?_⟩
  rw [List.head?_cons, Option.mem_some_iff] at hy
  rw [← hy, key]
  exact joint x hx n rfl

theorem alert_hands : HandsKeep fun _ s => AlertFollows s ∧ NoEqualNeighbours s where
  store _ h := h
  windows _ h := h
  policer _ h := h
  calendar _ h := h
  commit _ h := h
  straps _ h := h
  draws _ h := h
  pending _ h := h
  report _ h := h
  flags _ h := ⟨alertFollows_driveAlert _, h.2⟩
  lost _ h := h
  coalesced _ _ last h := ⟨h.1, isChain_replace_last last rfl h.2⟩
  recorded _ other _ h := by
    refine ⟨h.1, List.isChain_append.2 ⟨h.2, List.isChain_singleton _, fun x hx y hy => ?_⟩⟩
    rw [List.head?_cons, Option.mem_some_iff] at hy
    rw [← hy]
    exact other x hx
  drained n h := ⟨h.1, List.IsChain.drop h.2 n⟩
  buffer _ _ h := h
  free _ _ h := h
  rx _ _ _ h := h
  tx _ _ _ _ _ h := h
  judge _ _ _ h := h
  agent _ _ _ pins h := by
    refine ⟨?_, h.2⟩
    unfold AlertFollows
    rw [State.setAgent_agent, pins]
    exact h.1
  settings _ h := ⟨alertFollows_driveAlert _, h.2⟩
  hold _ _ _ _ h := h
  replaced _ _ h := h
  dropped _ _ _ h := h
  admitted _ _ _ h := h
  reset _ _ := ⟨by simp [AlertFollows, resetCommon, setTimer, excReset], List.isChain_nil⟩

/-- Settles O55: the pin is driven with every change of a flag or an enable, and a record of the newest one's key is
counted there or lost. -/
theorem alertPinAndQueueStaySound : Obligations.AlertPinAndQueueStaySound :=
  fun _ _ alert neighbours hstep => alert_hands.events.step hstep ⟨alert, neighbours⟩

/-! ### The place of each buffer -/

/-- Each buffer is in one place or in hand, once. -/
def EachBufferOnce (l : List BufId) (s : State) : Prop :=
  (l ++ places s).Perm (List.finRange 64) ∧ RefsDistinct s

/-- A buffer moved between a place and the hand is in one of them still. -/
theorem EachBufferOnce.moved {l l' : List BufId} {s t : State} (h : EachBufferOnce l s)
    (moved : (l' ++ places t).Perm (l ++ places s)) (refs : RefsDistinct t) : EachBufferOnce l' t :=
  ⟨moved.trans h.1, refs⟩

theorem refsDistinct_of_map {s t : State} (refs : t.hold.records.map (·.ref) = s.hold.records.map (·.ref))
    (next : t.hold.nextRef = s.hold.nextRef) (h : RefsDistinct s) : RefsDistinct t := by
  obtain ⟨distinct, given⟩ := h
  refine ⟨refs ▸ distinct, fun r hr => ?_⟩
  have named : r.ref ∈ s.hold.records.map (·.ref) := refs ▸ List.mem_map_of_mem hr
  obtain ⟨q, hq, same⟩ := List.mem_map.1 named
  rw [next, ← same]
  exact given q hq

theorem refsDistinct_of_sublist {s t : State} (sub : t.hold.records.Sublist s.hold.records)
    (next : t.hold.nextRef = s.hold.nextRef) (h : RefsDistinct s) : RefsDistinct t := by
  obtain ⟨distinct, given⟩ := h
  exact ⟨distinct.sublist (sub.map _), fun r hr => next ▸ given r (sub.subset hr)⟩

theorem refsDistinct_admitRecord {r : HeldRecord} {s : State} (fresh : r.ref = s.hold.nextRef) (h : RefsDistinct s) :
    RefsDistinct (admitRecord r s) := by
  obtain ⟨distinct, given⟩ := h
  refine ⟨?_, fun q hq => ?_⟩
  · change (List.map (·.ref) (s.hold.records ++ [r])).Nodup
    rw [List.map_append, List.nodup_append]
    refine ⟨distinct, List.nodup_singleton _, fun a ha b hb => ?_⟩
    obtain ⟨q, hq, rfl⟩ := List.mem_map.1 ha
    rw [List.map_singleton, List.mem_singleton, fresh] at hb
    have := given q hq
    omega
  · change q.ref < s.hold.nextRef + 1
    rcases List.mem_append.1 hq with old | new
    · exact Nat.lt_succ_of_lt (given q old)
    · rw [List.mem_singleton.1 new, fresh]
      exact Nat.lt_succ_self _

/-- Of records with distinct numbers, one number's leaving takes out one. -/
theorem dropped_buffers {l : List HeldRecord} {q : HeldRecord} (distinct : (l.map (·.ref)).Nodup) (hq : q ∈ l) :
    (q.buffer :: (l.filter fun r => r.ref != q.ref).map (·.buffer)).Perm (l.map (·.buffer)) := by
  obtain ⟨older, younger, rfl⟩ := List.append_of_mem hq
  rw [List.map_append, List.map_cons, List.nodup_append, List.nodup_cons] at distinct
  obtain ⟨-, ⟨notYounger, -⟩, apart⟩ := distinct
  have kept_older : older.filter (fun r => r.ref != q.ref) = older :=
    List.filter_eq_self.2 fun r hr => by
      simpa using apart _ (List.mem_map_of_mem hr) _ List.mem_cons_self
  have kept_younger : younger.filter (fun r => r.ref != q.ref) = younger :=
    List.filter_eq_self.2 fun r hr => by
      simpa using fun same => notYounger (List.mem_map.2 ⟨r, hr, same⟩)
  rw [List.filter_append, List.filter_cons, kept_older, kept_younger, if_neg (by simp), List.map_append,
    List.map_append, List.map_cons]
  exact List.perm_middle.symm

/-- A record put in the place of the one of its number and buffer changes neither. -/
theorem replaced_maps {l : List HeldRecord} {r q : HeldRecord} (distinct : (l.map (·.ref)).Nodup) (hq : q ∈ l)
    (ref : q.ref = r.ref) (buffer : q.buffer = r.buffer) :
    (l.map fun x => if x.ref = r.ref then r else x).map (·.ref) = l.map (·.ref) ∧
      (l.map fun x => if x.ref = r.ref then r else x).map (·.buffer) = l.map (·.buffer) := by
  constructor
  · rw [List.map_map]
    refine List.map_congr_left fun x _ => ?_
    by_cases h : x.ref = r.ref <;> simp [h]
  · rw [List.map_map]
    refine List.map_congr_left fun x hx => ?_
    by_cases h : x.ref = r.ref
    · have same : x = q := List.inj_on_of_nodup_map distinct hx hq (h.trans ref.symm)
      rw [Function.comp_apply, if_pos h, same, buffer]
    · simp [h]

theorem places_hands : HandsKeep EachBufferOnce where
  store _ h := h
  windows _ h := h
  policer _ h := h
  calendar _ h := h
  commit _ h := h
  straps _ h := h
  draws _ h := h
  pending _ h := h
  report _ h := h
  flags _ h := h
  lost _ h := h
  coalesced _ _ _ h := h
  recorded _ _ _ h := h
  drained _ h := h
  buffer _ _ h := h
  free x moved h := h.moved (List.perm_iff_count.2 fun c => by
    have := moved.count_eq c
    simp only [places, List.count_append, State.setPool_pool, State.setPool_rx, State.setPool_judges,
      State.setPool_agent, State.setPool_hold, State.setPool_tx] at this ⊢
    omega) h.2
  rx p u moved h := h.moved (List.perm_iff_count.2 fun c => by
    have := moved.count_eq c
    cases p <;> simp only [places, List.count_append, State.setRx, PerPort.set, PerPort.get] at this ⊢ <;> omega) h.2
  tx p u moved _ _ h := h.moved (List.perm_iff_count.2 fun c => by
    have := moved.count_eq c
    cases p <;> simp only [places, List.count_append, State.setTx, PerPort.set, PerPort.get] at this ⊢ <;> omega) h.2
  judge p j moved h := h.moved (List.perm_iff_count.2 fun c => by
    have := moved.count_eq c
    cases p <;> simp only [places, List.count_append, State.setJudges, PerPort.set, PerPort.get] at this ⊢ <;>
      omega) h.2
  agent x moved _ _ h := h.moved (List.perm_iff_count.2 fun c => by
    have := moved.count_eq c
    simp only [places, List.count_append, State.setAgent] at this ⊢
    omega) h.2
  settings _ h := h
  hold x refs buffers next h := h.moved (by
    simp only [places, State.setHold]
    rw [buffers]) (refsDistinct_of_map refs next h.2)
  replaced r held h := by
    obtain ⟨q, hq, ref, buffer⟩ := held
    obtain ⟨refs, buffers⟩ := replaced_maps h.2.1 hq ref buffer
    refine h.moved ?_ (refsDistinct_of_map refs rfl h.2)
    simp only [places, mapRecord, State.setRecords, State.setHold]
    rw [buffers]
  dropped n b held h := by
    obtain ⟨q, hq, rfl, rfl⟩ := held
    refine h.moved (List.perm_iff_count.2 fun c => ?_) (refsDistinct_of_sublist List.filter_sublist rfl h.2)
    have := (dropped_buffers h.2.1 hq).count_eq c
    simp only [places, List.count_append, List.count_cons, dropRecord, State.setRecords, State.setHold] at this ⊢
    omega
  admitted r fresh _ h := h.moved (List.perm_iff_count.2 fun c => by
    simp only [places, admitRecord, List.map_append, List.map_cons, List.map_nil, List.count_append, List.count_cons,
      List.count_nil, State.setHold]
    omega) (refsDistinct_admitRecord fresh h.2)
  reset _ _ := by
    refine ⟨?_, List.nodup_nil, fun r hr => by cases hr⟩
    change ((List.finRange 64 ++ [] ++ [] ++ [] ++ [] ++ [] ++ [] ++ [] ++ [] : List BufId)).Perm _
    simp only [List.append_nil]
    exact .refl _

/-- Settles O56: every operation takes a buffer from one place and puts it in another. -/
theorem eachBufferStaysInOnePlace : Obligations.EachBufferStaysInOnePlace :=
  fun _ _ once refs hstep => places_hands.events.step hstep ⟨once, refs⟩

end Sys2Proof.Machine
end

section
/-! SUPPORT. What the operations on held records and the conclusions of judgement leave of the Judges and the Policer:
no Judge's phase or arrival list changes, no credit rises, and parameter records and Refill Timer stay. -/

namespace Sys2Proof.Machine

/-- `t` has the Judges' phases and arrivals of `s`, no credit above its own, and its parameter records and Timer. -/
structure SpendsOnly (s t : State) : Prop where
  phase : ∀ p, (t.judges.get p).phase = (s.judges.get p).phase
  arrivals : ∀ p, (t.judges.get p).arrivals = (s.judges.get p).arrivals
  credit : ∀ i, (t.stream i).credit.toNat ≤ (s.stream i).credit.toNat
  params : t.policer.params = s.policer.params
  timer : t.policer.timer = s.policer.timer

namespace SpendsOnly

variable {s t u : State}

theorem refl (s : State) : SpendsOnly s s := ⟨fun _ => rfl, fun _ => rfl, fun _ => le_rfl, rfl, rfl⟩

theorem trans (a : SpendsOnly s t) (b : SpendsOnly t u) : SpendsOnly s u where
  phase p := (b.phase p).trans (a.phase p)
  arrivals p := (b.arrivals p).trans (a.arrivals p)
  credit i := (b.credit i).trans (a.credit i)
  params := b.params.trans a.params
  timer := b.timer.trans a.timer

/-- An operation that touches neither the Judges nor the Policer. -/
theorem of_same (judges : t.judges = s.judges) (policer : t.policer = s.policer) : SpendsOnly s t where
  phase p := by rw [judges]
  arrivals p := by rw [judges]
  credit i := by rw [State.stream, policer, State.stream]
  params := by rw [policer]
  timer := by rw [policer]

theorem of_out (h : SameButOut s t) : SpendsOnly s t := of_same h.judges h.policer

theorem mapJudge (p : Port) (f : Judge → Judge) (s : State) (phase : (f (s.judges.get p)).phase = (s.judges.get p).phase)
    (arrivals : (f (s.judges.get p)).arrivals = (s.judges.get p).arrivals) : SpendsOnly s (s.mapJudge p f) where
  phase q := by
    rw [State.mapJudge, State.setJudges_judges, PerPort.get_set]
    split
    · next h => rw [h, phase]
    · rfl
  arrivals q := by
    rw [State.mapJudge, State.setJudges_judges, PerPort.get_set]
    split
    · next h => rw [h, arrivals]
    · rfl
  credit _ := le_rfl
  params := rfl
  timer := rfl

theorem stream_mapStream (s : State) (i j : Index) (f : StreamStatus → StreamStatus) :
    (s.mapStream i f).stream j = if j = i then f (s.stream i) else s.stream j := by
  simp only [State.mapStream, State.stream, State.setPolicer_policer, Fin.getElem_fin, Vector.getElem_set,
    Fin.val_inj, eq_comm (a := i)]

theorem mapStream (s : State) (i : Index) (f : StreamStatus → StreamStatus)
    (h : (f (s.stream i)).credit.toNat ≤ (s.stream i).credit.toNat) : SpendsOnly s (s.mapStream i f) where
  phase _ := rfl
  arrivals _ := rfl
  credit j := by
    rw [stream_mapStream]
    split
    · next same => rw [same]; exact h
    · exact le_rfl
  params := rfl
  timer := rfl

theorem countPassed (i : Option Index) (s : State) : SpendsOnly s (countPassed i s) := by
  cases i with
  | none => exact refl s
  | some i => exact mapStream s i (fun r => { r with passed := r.passed + 1 }) le_rfl

theorem countRefused (i : Option Index) (s : State) : SpendsOnly s (countRefused i s) := by
  cases i with
  | none => exact refl s
  | some i => exact mapStream s i (fun r => { r with refused := r.refused + 1 }) le_rfl

theorem countHeld (i : Option Index) (s : State) : SpendsOnly s (countHeld i s) := by
  cases i with
  | none => exact refl s
  | some i => exact mapStream s i (fun r => { r with held := r.held + 1 }) le_rfl

theorem consume (i : Option Index) (c : HeldContext) (s : State) : SpendsOnly s (consume i c s) := by
  unfold Machine.consume requestCredit
  split
  · next i =>
    split
    · exact refl s
    · split
      · exact refl s
      · next credit =>
        refine mapStream s i (fun r => { r with credit := r.credit - 1 }) ?_
        have positive : (s.stream i).credit.toNat ≠ 0 := fun h => credit (BitVec.eq_of_toNat_eq h)
        have bound := (s.stream i).credit.isLt
        rw [BitVec.toNat_sub]
        change (2 ^ 8 - 1 + _) % 2 ^ 8 ≤ _
        omega
  · exact refl s

/-! ### Held records -/

theorem setHold (x : HoldQueue) (s : State) : SpendsOnly s (s.setHold x) := of_same rfl rfl

theorem takeOut (r : HeldRecord) (x : Reason) (i : Option Index) (s : State) : SpendsOnly s (takeOut r x i s) :=
  (setHold _ s).trans ((of_out (release_out _ _)).trans (of_out (handOver_out _ _)))

theorem takeOutPartner (r : HeldRecord) (s : State) : SpendsOnly s (takeOutPartner r s) := by
  unfold Machine.takeOutPartner
  split
  · exact refl s
  · split
    · exact refl s
    · exact takeOut _ _ _ s

theorem reportFate (r : HeldRecord) (s : State) : SpendsOnly s (reportFate r s) := by
  unfold Machine.reportFate
  split
  · exact mapJudge _ _ s rfl rfl
  · exact refl s

theorem withdraw (r : HeldRecord) (s : State) : SpendsOnly s (withdraw r s) := by
  unfold Machine.withdraw
  split
  · exact (mapJudge r.port (fun j => { j with slot := none }) s rfl rfl).trans (setHold _ _)
  · exact refl s

theorem removeFirst (r : HeldRecord) (x : Reason) (i : Option Index) (s : State) :
    SpendsOnly s (removeFirst r x i s) :=
  (takeOut r x i s).trans ((takeOutPartner r _).trans ((reportFate r _).trans (withdraw r _)))

theorem removeCounted (r : HeldRecord) (x : Reason) (i : Option Index) (s : State) :
    SpendsOnly s (removeCounted r x i s) := (removeFirst r x i s).trans (countRefused i _)

theorem removeRef (x : Reason) (n : Nat) (s : State) : SpendsOnly s (removeRef x s n) := by
  unfold Machine.removeRef
  split
  · exact removeFirst _ _ _ s
  · exact refl s

theorem removeAll (x : Reason) (pick : HeldRecord → FirstPart → Bool) (s : State) :
    SpendsOnly s (removeAll x pick s) := by
  unfold Machine.removeAll
  generalize List.map _ _ = refs
  induction refs generalizing s with
  | nil => exact refl s
  | cons n refs ih => exact (removeRef x n s).trans (ih _)

theorem flushHeld (x : Option Index) (s : State) : SpendsOnly s (flushHeld x s) := by
  cases x <;> exact removeAll _ _ s

theorem releasePartner (r : HeldRecord) (s : State) : SpendsOnly s (releasePartner r s) := by
  unfold Machine.releasePartner
  split
  · exact refl s
  · split
    · exact refl s
    · dsimp only
      split
      · next appended =>
        exact (of_out ((prepareBuffer_out _ _ _ s).trans (txAppend_out appended))).trans
          ((setHold _ _).trans (countPassed _ _))
      · exact (of_out (prepareBuffer_out _ _ _ s)).trans ((takeOut _ _ _ _).trans (countRefused _ _))

theorem releaseFirst (r : HeldRecord) (s : State) : SpendsOnly s (releaseFirst r s) := by
  unfold Machine.releaseFirst
  dsimp only
  split
  · next appended =>
    exact (of_out ((prepareBuffer_out _ _ _ s).trans (txAppend_out appended))).trans
      ((setHold _ _).trans ((countPassed _ _).trans (releasePartner r _)))
  · exact (of_out (prepareBuffer_out _ _ _ s)).trans (removeCounted _ _ _ _)

theorem evaluate (r : HeldRecord) (f : FirstPart) (s : State) : SpendsOnly s (evaluate r f s) := by
  unfold Machine.evaluate
  split
  · exact removeCounted _ _ _ s
  · exact setHold _ s
  · exact (consume _ _ s).trans (releaseFirst r _)

theorem catchUp (r : HeldRecord) (f : FirstPart) (s : State) : SpendsOnly s (catchUp r f s) := by
  unfold Machine.catchUp
  split
  · exact removeCounted _ _ _ s
  · split
    · exact evaluate r f s
    · exact refl s

theorem admissionTest (r : HeldRecord) (f : FirstPart) (s : State) : SpendsOnly s (admissionTest r f s) := by
  unfold Machine.admissionTest
  split
  · split
    · exact removeCounted _ _ _ s
    · exact refl s
  · exact catchUp r f s

theorem afterPartner (n : Nat) (s : State) : SpendsOnly s (afterPartner n s) := by
  unfold Machine.afterPartner
  split
  · exact refl s
  · split
    · exact refl s
    · split
      · exact refl s
      · split
        · exact releaseFirst _ s
        · exact evaluate _ _ s

theorem admitPartner (b : BufId) (x : Facts) (n : Nat) (r : HeldRecord) (s : State) :
    SpendsOnly s (admitPartner b x n r s) :=
  (setHold _ s).trans ((setHold _ _).trans ((of_out (holdHighTest_out _)).trans (afterPartner n _)))

theorem trigger (k : ScanKind) (s : State) : SpendsOnly s (trigger k s) := by
  unfold Machine.trigger
  split <;> exact setHold _ s

theorem endScan (s : State) : SpendsOnly s (endScan s) := by
  unfold Machine.endScan
  split
  · exact setHold _ s
  · exact refl s

theorem scanRecord (k : ScanKind) (n : Nat) (s : State) : SpendsOnly s (scanRecord k n s) := by
  unfold Machine.scanRecord
  split
  · exact refl s
  · split
    · exact refl s
    · split
      · exact evaluate _ _ s
      · exact refl s

theorem scanStep (s : State) : SpendsOnly s (scanStep s) := by
  unfold Machine.scanStep
  split
  · exact refl s
  · exact endScan s
  · exact (setHold _ s).trans ((scanRecord _ _ _).trans (endScan _))

theorem staleRequest (p : Port) (s : State) : SpendsOnly s (staleRequest p s) := by
  unfold Machine.staleRequest
  split
  · exact refl s
  · split
    · exact (mapJudge p (fun j => { j with slot := none }) s rfl rfl).trans (setHold _ _)
    · exact setHold _ s

theorem markPending (s : State) : SpendsOnly s (markPending s) :=
  (setHold _ s).trans ((staleRequest .n _).trans (staleRequest .f _))

theorem clearPending (r : HeldRecord) (s : State) : SpendsOnly s (clearPending r s) := by
  unfold Machine.clearPending
  dsimp only
  split
  · exact (setHold _ s).trans (setHold _ _)
  · exact setHold _ s

theorem verdictPass (r : HeldRecord) (f : FirstPart) (x : Facts) (s : State) :
    SpendsOnly s (verdictPass r f x s) := by
  unfold Machine.verdictPass
  dsimp only
  split
  · exact setHold _ s
  · exact (setHold _ s).trans (releaseFirst _ _)

theorem verdictHold (r : HeldRecord) (f : FirstPart) (x : Facts) (y : HoldReason) (n : Nat) (s : State) :
    SpendsOnly s (verdictHold r f x y n s) := by
  unfold Machine.verdictHold
  dsimp only
  split
  · exact (setHold _ s).trans (removeFirst _ _ _ _)
  · split
    · exact setHold _ s
    · exact (setHold _ s).trans (catchUp _ _ _)

theorem carryVerdict (r : HeldRecord) (f : FirstPart) (v : RejudgeVerdict) (s : State) :
    SpendsOnly s (carryVerdict r f v s) := by
  cases v with
  | pass x => exact (clearPending r s).trans (verdictPass _ _ _ _)
  | hold x y n => exact (clearPending r s).trans (verdictHold _ _ _ _ _ _)
  | refuse y i => exact (clearPending r s).trans (removeCounted _ _ _ _)

/-! ### The Judges -/

theorem refuseTelegram (p : Port) (b : BufId) (l : List Byte) (x : Reason) (i : Option Index) (s : State) :
    SpendsOnly s (refuseTelegram p b l x i s) :=
  (of_out ((release_out b s).trans (handOver_out _ _))).trans (countRefused _ _)

theorem setBind (p : Port) (x : Option BindContext) (s : State) : SpendsOnly s (setBind p x s) :=
  mapJudge _ _ s rfl rfl

theorem endBinding (p : Port) (c : BindContext) (s : State) : SpendsOnly s (endBinding p c s) := by
  unfold Machine.endBinding
  dsimp only
  split
  · exact (setBind p none s).trans (removeRef _ _ _)
  · exact (setBind p none s).trans (of_out (handOver_out _ _))
  · exact setBind p none s
  · exact setBind p none s

theorem bindDeadlineAt (p : Port) (s : State) : SpendsOnly s (bindDeadlineAt p s) := by
  unfold Machine.bindDeadlineAt
  split
  · exact refl s
  · split
    · split
      · exact setBind _ _ s
      · exact endBinding _ _ s
    · exact refl s

theorem writeOutcome (p : Port) (r : JudgedAs) (o : BindOutcome) (x : Particulars) (s : State) :
    SpendsOnly s (writeOutcome p r o x s) := by
  unfold Machine.writeOutcome
  split
  · exact setBind _ _ s
  · exact refl s

theorem concludeRefuse (p : Port) (b : BufId) (r : JudgedAs) (d : Described) (x : Reason) (i : Option Index)
    (s : State) : SpendsOnly s (concludeRefuse p b r d x i s) :=
  (refuseTelegram _ _ _ _ _ s).trans (writeOutcome _ _ _ _ _)

theorem concludePass (p : Port) (b : BufId) (r : JudgedAs) (d : Described) (x : Facts) (k : ListKind) (s : State) :
    SpendsOnly s (concludePass p b r d x k s) := by
  unfold Machine.concludePass
  dsimp only
  split
  · next appended =>
    exact (of_out ((prepareBuffer_out _ _ _ s).trans (txAppend_out appended))).trans
      ((countPassed _ _).trans (writeOutcome _ _ _ _ _))
  · exact (of_out (prepareBuffer_out _ _ _ s)).trans ((refuseTelegram _ _ _ _ _ _).trans (writeOutcome _ _ _ _ _))

theorem concludeHold (p : Port) (b : BufId) (r : JudgedAs) (d : Described) (x : Facts) (y : HoldReason) (n : Nat)
    (s : State) : SpendsOnly s (concludeHold p b r d x y n s) := by
  unfold Machine.concludeHold
  split
  · exact concludeRefuse _ _ _ _ _ _ s
  · have tested := (setHold _ s).trans ((writeOutcome p r (.held (firstRecord b x y n r.isFirst s).ref)
      (particularsOf d x.index) (admitRecord (firstRecord b x y n r.isFirst s) s)).trans
        ((countHeld x.index _).trans (of_out (holdHighTest_out _))))
    dsimp only
    split
    · exact tested.trans (admissionTest _ _ _)
    · exact tested

theorem concludeOwn (p : Port) (b : BufId) (r : JudgedAs) (d : Described) (v : RejudgeVerdict) (s : State) :
    SpendsOnly s (concludeOwn p b r d v s) := by
  cases v with
  | pass x => exact (consume _ _ s).trans (concludePass _ _ _ _ _ _ _)
  | hold x y n => exact concludeHold _ _ _ _ _ _ _ s
  | refuse y i => exact concludeRefuse _ _ _ _ _ _ s

theorem concludeAfterPassed (p : Port) (b : BufId) (k : ListKind) (o : Option Particulars) (d : Described)
    (v : RejudgeVerdict) (s : State) : SpendsOnly s (concludeAfterPassed p b k o d v s) := by
  cases v with
  | pass x => exact concludePass _ _ _ _ _ _ s
  | hold x y n => exact refl s
  | refuse y i => exact concludeRefuse _ _ _ _ _ _ s

theorem offerPartner (p : Port) (b : BufId) (n : Nat) (o : Option Particulars) (d : Described) (x : Facts)
    (own : RejudgeVerdict) (s : State) : SpendsOnly s (offerPartner p b n o d x own s) := by
  unfold Machine.offerPartner
  split
  · exact (concludeRefuse _ _ _ _ _ _ s).trans (removeRef _ _ _)
  · split
    · exact concludeOwn _ _ _ _ _ s
    · exact (countHeld _ s).trans (admitPartner _ _ _ _ _)

theorem concludeAfterHeld (p : Port) (b : BufId) (n : Nat) (o : Option Particulars) (d : Described)
    (v own : RejudgeVerdict) (s : State) : SpendsOnly s (concludeAfterHeld p b n o d v own s) := by
  cases v with
  | pass x => exact offerPartner _ _ _ _ _ _ _ s
  | hold x y n => exact refl s
  | refuse y i => exact (concludeRefuse _ _ _ _ _ _ s).trans (removeRef _ _ _)

theorem concludeTelegram (p : Port) (b : BufId) (r : JudgedAs) (k : Bank) (x : LookupStop) (s : State) :
    SpendsOnly s (concludeTelegram p b r k x s) := by
  cases r with
  | plain => exact concludeOwn _ _ _ _ _ s
  | first => exact concludeOwn _ _ _ _ _ s
  | secondPassed list first => exact concludeAfterPassed _ _ _ _ _ _ s
  | secondHeld ref first => exact concludeAfterHeld _ _ _ _ _ _ _ s

theorem rejudgeConsume (v : RejudgeVerdict) (s : State) : SpendsOnly s (rejudgeConsume v s) := by
  cases v with
  | pass x => exact consume _ _ s
  | hold x y n => exact refl s
  | refuse y i => exact refl s

theorem concludeRejudge (p : Port) (n : Nat) (k : Bank) (x : LookupStop) (s : State) :
    SpendsOnly s (concludeRejudge p n k x s) := by
  unfold Machine.concludeRejudge
  split
  · exact setHold _ s
  · split
    · exact setHold _ s
    · dsimp only
      split
      · exact (rejudgeConsume _ s).trans (setHold _ _)
      · exact (rejudgeConsume _ s).trans ((setHold _ _).trans (carryVerdict _ _ _ _))

theorem concludeItem (p : Port) (it : Item) (k : Bank) (x : LookupStop) (s : State) :
    SpendsOnly s (concludeItem p it k x s) := by
  cases it with
  | telegram b r key => exact concludeTelegram _ _ _ _ _ s
  | rejudge n key => exact concludeRejudge _ _ _ _ s

end SpendsOnly

end Sys2Proof.Machine
end

section
/-! SUPPORT. The credits and the holder of the table port (R24, R85, R86, R96, R97, R123, R124, R135, R147): an operation
that spends at most, and leaves the port and the banks alone, keeps them; the others are gone through one by one. -/

namespace Sys2Proof.Machine

/-- The credits within their ceilings, the quiet of the sweep, and the one holder of the table port. -/
structure PortAndCreditsSound (s : State) : Prop where
  credits : CreditsWithin s
  quiet : QuietWhileInitializing s
  port : PortHeldByOne s
  access : AgentAccessSound s

/-- `t` has the banks, the port, the commit state, the command in execution and the parameter records of `s`; no credit
is above its own, and no Judge has gone to LOOKUP. -/
structure SoundFrame (s t : State) : Prop where
  credit : ∀ i, (t.stream i).credit.toNat ≤ (s.stream i).credit.toNat
  params : t.policer.params = s.policer.params
  timer : t.policer.timer = s.policer.timer
  active : t.store.active = s.store.active
  phase : t.store.phase = s.store.phase
  port : t.store.port = s.store.port
  request : t.store.agentRequest = s.store.agentRequest
  commit : t.commit.phase = s.commit.phase
  exec : t.agent.exec = s.agent.exec
  lookups : ∀ p it bank, (t.judges.get p).phase = .lookup it bank → (s.judges.get p).phase = .lookup it bank

namespace SoundFrame

variable {s t u : State}

theorem trans (a : SoundFrame s t) (b : SoundFrame t u) : SoundFrame s u where
  credit i := (b.credit i).trans (a.credit i)
  params := b.params.trans a.params
  timer := b.timer.trans a.timer
  active := b.active.trans a.active
  phase := b.phase.trans a.phase
  port := b.port.trans a.port
  request := b.request.trans a.request
  commit := b.commit.trans a.commit
  exec := b.exec.trans a.exec
  lookups p it bank h := a.lookups p it bank (b.lookups p it bank h)

/-- An operation on held records, or of a Judge that stays in its phase. -/
theorem of_held (frame : SameButHeld s t) (spends : SpendsOnly s t) : SoundFrame s t where
  credit := spends.credit
  params := spends.params
  timer := spends.timer
  active := by rw [frame.store]
  phase := by rw [frame.store]
  port := by rw [frame.store]
  request := by rw [frame.store]
  commit := by rw [frame.commit]
  exec := by rw [frame.agent]
  lookups p it bank h := by rwa [spends.phase] at h

theorem of_out (frame : SameButOut s t) : SoundFrame s t := of_held frame.held (.of_out frame)

/-- An operation that leaves the Judges, the Policer, the Table Store and the Commit Controller, and the command in
execution. -/
theorem of_same (judges : t.judges = s.judges) (policer : t.policer = s.policer) (store : t.store = s.store)
    (commit : t.commit = s.commit) (exec : t.agent.exec = s.agent.exec) : SoundFrame s t where
  credit i := by rw [State.stream, policer, State.stream]
  params := by rw [policer]
  timer := by rw [policer]
  active := by rw [store]
  phase := by rw [store]
  port := by rw [store]
  request := by rw [store]
  commit := by rw [commit]
  exec := exec
  lookups p it bank h := by rwa [judges] at h

/-- A change of the Table Store that leaves the selector, the store's state, the port and the Agent's request. -/
theorem setStore (x : TableStore) (active : x.active = s.store.active) (phase : x.phase = s.store.phase)
    (port : x.port = s.store.port) (request : x.agentRequest = s.store.agentRequest) :
    SoundFrame s (s.setStore x) :=
  ⟨fun _ => le_rfl, rfl, rfl, active, phase, port, request, rfl, rfl, fun _ _ _ h => h⟩

/-- A Judge changed that does not go to LOOKUP. -/
theorem mapJudge (p : Port) (f : Judge → Judge) (s : State)
    (h : ∀ it bank, (f (s.judges.get p)).phase = .lookup it bank → (s.judges.get p).phase = .lookup it bank) :
    SoundFrame s (s.mapJudge p f) where
  credit _ := le_rfl
  params := rfl
  timer := rfl
  active := rfl
  phase := rfl
  port := rfl
  request := rfl
  commit := rfl
  exec := rfl
  lookups q it bank hq := by
    rw [State.mapJudge, State.setJudges_judges, PerPort.get_set] at hq
    split at hq
    · next same => rw [same]; exact h it bank hq
    · exact hq

end SoundFrame

namespace PortAndCreditsSound

variable {s t : State}

theorem frame (h : PortAndCreditsSound s) (f : SoundFrame s t) : PortAndCreditsSound t where
  credits i := by
    have within := (f.credit i).trans (h.credits i)
    rwa [State.param, f.params, f.active]
  quiet n initializing := by
    obtain ⟨empty, stopped, idle, none⟩ := h.quiet n (f.phase ▸ initializing)
    refine ⟨fun i => BitVec.eq_of_toNat_eq ?_, f.timer.trans stopped, f.commit.trans idle, f.exec.trans none⟩
    have := f.credit i
    rw [empty i] at this
    exact Nat.le_zero.1 this
  port := by
    obtain ⟨lookups, sweeps⟩ := h.port
    exact ⟨fun p it bank hp => f.port.trans (lookups p it bank (f.lookups p it bank hp)),
      fun n hn => f.port.trans (sweeps n (f.phase ▸ hn))⟩
  access := by
    obtain ⟨granted, requested⟩ := h.access
    refine ⟨fun a ha => ?_, fun hr => ?_⟩
    · rw [f.request, f.exec, f.active]
      exact granted a (f.port ▸ ha)
    · rw [f.exec]
      exact requested (f.request ▸ hr)

theorem out (h : PortAndCreditsSound s) (f : SameButOut s t) : PortAndCreditsSound t := h.frame (.of_out f)

theorem held (h : PortAndCreditsSound s) (f : SameButHeld s t) (g : SpendsOnly s t) : PortAndCreditsSound t :=
  h.frame (.of_held f g)

/-! ### Who holds the port -/

/-- The store is READY where the port is not the sweep's. -/
theorem ready_of_port (h : PortAndCreditsSound s) (port : s.store.port ≠ .sweep) : s.store.phase = .ready := by
  cases phase : s.store.phase with
  | ready => rfl
  | initializing n => exact absurd (h.port.2 n phase) port

theorem ready_of_exec {x : Execution} (h : PortAndCreditsSound s) (busy : s.agent.exec = some x) :
    s.store.phase = .ready := by
  cases phase : s.store.phase with
  | ready => rfl
  | initializing n =>
    obtain ⟨-, -, -, none⟩ := h.quiet n phase
    rw [busy] at none
    cases none

/-- The Agent has no access in progress and none requested, and the store is READY. -/
structure AgentDone (s : State) : Prop where
  ready : s.store.phase = .ready
  request : s.store.agentRequest = false
  port : ∀ a, s.store.port ≠ .agent a

theorem AgentDone.frame (h : AgentDone s) (f : SoundFrame s t) : AgentDone t :=
  ⟨f.phase.trans h.ready, f.request.trans h.request, fun a => f.port ▸ h.port a⟩

theorem agentDone_of_idle (h : PortAndCreditsSound s) (ready : s.store.phase = .ready) (idle : s.agent.exec = none) :
    AgentDone s where
  ready := ready
  request := by
    cases request : s.store.agentRequest with
    | false => rfl
    | true => exact absurd idle (h.access.2 request)
  port a ha := by
    obtain ⟨-, x, busy, -⟩ := h.access.1 a ha
    rw [idle] at busy
    cases busy

/-! ### The Policer's and the Table Store's own changes -/

/-- A change of the Policer that keeps the credits within; while INITIALIZING they stay 0 and the Timer STOPPED. -/
theorem setPolicer (h : PortAndCreditsSound s) (x : Policer) (credits : CreditsWithin (s.setPolicer x))
    (quiet : ∀ n, s.store.phase = .initializing n →
      (∀ i, ((s.setPolicer x).stream i).credit = 0) ∧ x.timer = .stopped) :
    PortAndCreditsSound (s.setPolicer x) where
  credits := credits
  quiet n hn := by
    obtain ⟨-, -, idle, none⟩ := h.quiet n hn
    exact ⟨(quiet n hn).1, (quiet n hn).2, idle, none⟩
  port := h.port
  access := h.access

theorem setPolicer_ready (h : PortAndCreditsSound s) (ready : s.store.phase = .ready) (x : Policer)
    (credits : CreditsWithin (s.setPolicer x)) : PortAndCreditsSound (s.setPolicer x) :=
  h.setPolicer x credits fun n hn => by rw [ready] at hn; cases hn

theorem setTimer (h : PortAndCreditsSound s) (ready : s.store.phase = .ready) (x : TimerState) (count : BitVec 16) :
    PortAndCreditsSound (setTimer x count s) := h.setPolicer_ready ready _ h.credits

theorem param_setParam (s : State) (b c : Bank) (i j : Index) (r : ParamRecord) :
    (setParam b i r s).param c j = if c = b ∧ j = i then r else s.param c j := by
  have set := congrArg (fun v : Vector ParamRecord 256 => v[j])
    (PerBank.get_set s.policer.params ((s.policer.params.get b).set i r) b c)
  refine set.trans ?_
  by_cases same : c = b
  · simp only [same, if_true, Fin.getElem_fin, Vector.getElem_set, Fin.val_inj, eq_comm (a := i), true_and]
    rfl
  · simp only [same, if_false, false_and]
    rfl

/-- A parameter record of the shadow bounds no credit. -/
theorem setParam_shadow (h : PortAndCreditsSound s) {b : Bank} (shadow : b ≠ s.store.active) (i : Index)
    (r : ParamRecord) : PortAndCreditsSound (setParam b i r s) := by
  refine h.setPolicer _ (fun j => ?_) fun n hn => ?_
  · have within := h.credits j
    have kept : (setParam b i r s).param s.store.active j = s.param s.store.active j := by
      rw [param_setParam, if_neg fun both => shadow both.1.symm]
    rwa [← kept] at within
  · obtain ⟨empty, stopped, -, -⟩ := h.quiet n hn
    exact ⟨empty, stopped⟩

/-- A poisoned pair of the active bank loses its credit with its parameter record (R97). -/
theorem reportPoison (h : PortAndCreditsSound s) (b : Bank) (i : Index) : PortAndCreditsSound (reportPoison b i s) := by
  unfold Machine.reportPoison clearUsable
  dsimp only
  split
  · next active =>
    refine h.setPolicer _ (fun j => ?_) fun n hn => ?_
    · have within := h.credits j
      rw [show State.setPolicer s _ = (setParam b i { s.param b i with usable := false } s).mapStream i
        fun r => { r with credit := 0 } from rfl, SpendsOnly.stream_mapStream]
      change _ ≤ if ((setParam b i _ s).param s.store.active j).usable then
        ((setParam b i _ s).param s.store.active j).ceiling.toNat else 0
      rw [param_setParam]
      by_cases same : j = i
      · simp [same, active]
      · have kept : (setParam b i { s.param b i with usable := false } s).param s.store.active j =
            s.param s.store.active j := by
          rw [param_setParam, if_neg fun both => same both.2]
        rw [if_neg same, ← param_setParam, kept]
        exact within
    · obtain ⟨empty, stopped, -, -⟩ := h.quiet n hn
      refine ⟨fun j => ?_, stopped⟩
      rw [show State.setPolicer s _ = (setParam b i { s.param b i with usable := false } s).mapStream i
        fun r => { r with credit := 0 } from rfl, SpendsOnly.stream_mapStream]
      split
      · rfl
      · exact empty j
  · next shadow => exact h.setParam_shadow shadow i _

theorem joinPoison (h : PortAndCreditsSound s) (b : Bank) (i : Index) : PortAndCreditsSound (joinPoison b i s) :=
  (h.frame (.setStore { s.store.setPoison b i true with uncorrectable := satAdd s.store.uncorrectable }
    rfl rfl rfl rfl)).reportPoison b i

theorem setDraws (h : PortAndCreditsSound s) (n : Nat) : PortAndCreditsSound (s.setDraws n) :=
  h.frame (.of_same rfl rfl rfl rfl rfl)

theorem applyWalk (h : PortAndCreditsSound s) (b : Bank) (w : Walk) : PortAndCreditsSound (applyWalk b w s) := by
  have counted : PortAndCreditsSound (countCorrected w.corrected (s.setDraws w.draws)) :=
    (h.setDraws _).frame (.setStore _ rfl rfl rfl rfl)
  unfold Machine.applyWalk
  dsimp only
  split
  · exact counted.joinPoison _ _
  all_goals exact counted

/-- The port set to what holds it when no Judge is in LOOKUP. -/
theorem setPort (h : PortAndCreditsSound s) (ready : s.store.phase = .ready)
    (noLookup : ∀ p it bank, (s.judges.get p).phase ≠ .lookup it bank) (x : TableStore)
    (active : x.active = s.store.active) (phase : x.phase = s.store.phase) (port : ∀ a, x.port ≠ .agent a)
    (request : x.agentRequest = true → s.store.agentRequest = true) : PortAndCreditsSound (s.setStore x) where
  credits i := by
    have within := h.credits i
    rwa [← active] at within
  quiet n hn := by
    rw [State.setStore_store, phase, ready] at hn
    cases hn
  port := by
    refine ⟨fun p it bank hp => absurd hp (noLookup p it bank), fun n hn => ?_⟩
    rw [State.setStore_store, phase, ready] at hn
    cases hn
  access := ⟨fun a ha => absurd ha (port a), fun hr => h.access.2 (request hr)⟩

/-- No Judge is in LOOKUP where the port is another party's. -/
theorem noLookup (h : PortAndCreditsSound s) (port : ∀ p, s.store.port ≠ .judge p) (p : Port) (it : Item)
    (bank : Bank) : (s.judges.get p).phase ≠ .lookup it bank := fun hp => port p (h.port.1 p it bank hp)

/-! ### The commit (R96, R147, R148) -/

theorem fillCredits_within (s : State) : CreditsWithin (fillCredits s) := by
  intro i
  have filled : ((fillCredits s).stream i).credit = (s.param s.store.active i).fill := by
    simp [fillCredits, State.stream]
  have same : (fillCredits s).param (fillCredits s).store.active i = s.param s.store.active i := by
    simp [fillCredits, State.param]
  rw [filled, same, ParamRecord.fill]
  split <;> simp

theorem swapBanks (h : PortAndCreditsSound s) (ready : s.store.phase = .ready)
    (reads : ∀ a x, s.store.port = .agent a → s.agent.exec = some x → x.job.modifiesShadow = false) :
    PortAndCreditsSound (swapBanks s) := by
  have swapped : PortAndCreditsSound (fillCredits ((flipActive s).setCommit ⟨.idle, s.commit.count + 1⟩)) := by
    refine ⟨fillCredits_within _, fun n hn => ?_, ⟨h.port.1, h.port.2⟩, fun a ha => ?_, h.access.2⟩
    · change s.store.phase = _ at hn
      rw [ready] at hn
      cases hn
    · obtain ⟨request, x, busy, -⟩ := h.access.1 a ha
      refine ⟨request, x, busy, fun modifies => ?_⟩
      rw [reads a x ha busy] at modifies
      cases modifies
  exact (swapped.held (markPending_held _) (.markPending _)).out (tell_out _ _)

theorem commitBoundary (h : PortAndCreditsSound s) (m : MinuteMark) : PortAndCreditsSound (commitBoundary m s) := by
  unfold Machine.commitBoundary
  split
  · next i scheduled =>
    have ready : s.store.phase = .ready := by
      cases phase : s.store.phase with
      | ready => rfl
      | initializing n =>
        obtain ⟨-, -, idle, -⟩ := h.quiet n phase
        rw [scheduled] at idle
        cases idle
    split
    · split
      · refine ⟨h.credits, fun n hn => ?_, h.port, h.access⟩
        change s.store.phase = _ at hn
        rw [ready] at hn
        cases hn
      · next quiet =>
        refine h.swapBanks ready fun a x _ busy => ?_
        simpa [State.shadowBusy, busy] using quiet
    · exact h
  all_goals exact h

/-! ### Completions (R148, R152) -/

theorem respond_out' (b : BufId) (x : Status) (r : List Byte) (s : State) :
    SoundFrame s (respond b x r s) := .of_out (respond_out b x r s)

theorem complete (h : PortAndCreditsSound s) (done : AgentDone s) (b : BufId) (x : Status) (r : List Byte) :
    PortAndCreditsSound (complete b x r s) := by
  have ended : PortAndCreditsSound (endExecution s) := by
    refine ⟨h.credits, fun n hn => ?_, h.port, fun a ha => absurd ha (done.port a), fun hr => ?_⟩
    · change s.store.phase = _ at hn
      rw [done.ready] at hn
      cases hn
    · change s.store.agentRequest = true at hr
      rw [done.request] at hr
      cases hr
  have answered : PortAndCreditsSound (respond b x r (endExecution s)) := ended.out (respond_out _ _ _ _)
  unfold Machine.complete swapIfDue
  split
  · refine answered.swapBanks ?_ fun a y _ busy => ?_
    · rw [(respond_out _ _ _ _).store]
      exact done.ready
    · rw [(respond_out _ _ _ _).agent] at busy
      cases busy
  all_goals exact answered

theorem beginJob (h : PortAndCreditsSound s) (done : AgentDone s) (b : BufId) (job : Job) :
    PortAndCreditsSound (beginJob b job s) := by
  refine ⟨h.credits, fun n hn => ?_, h.port, fun a ha => absurd ha (done.port a), fun _ busy => by cases busy⟩
  change s.store.phase = _ at hn
  rw [done.ready] at hn
  cases hn

/-! ### The resets -/

theorem idle_sound (credits : CreditsWithin s) (quiet : QuietWhileInitializing s)
    (judges : ∀ p, (s.judges.get p).phase = .idle) (sweeps : ∀ n, s.store.phase = .initializing n → s.store.port = .sweep)
    (port : ∀ a, s.store.port ≠ .agent a) (request : s.store.agentRequest = false) : PortAndCreditsSound s where
  credits := credits
  quiet := quiet
  port := by
    refine ⟨fun p it bank hp => ?_, sweeps⟩
    rw [judges p] at hp
    cases hp
  access := by
    refine ⟨fun a ha => absurd ha (port a), fun hr => ?_⟩
    rw [request] at hr
    cases hr

theorem noCredit_within (h : ∀ i, (s.stream i).credit = 0) : CreditsWithin s := by
  intro i
  rw [h i]
  exact Nat.zero_le _

theorem powerOnTo (x : BitVec 8) (s : State) : PortAndCreditsSound (powerOnTo x s) := by
  have empty : ∀ i, ((Machine.powerOnTo x s).stream i).credit = 0 := by
    intro i
    simp [Machine.powerOnTo, policerPowerOn, State.stream]
  exact idle_sound (noCredit_within empty) (fun _ _ => ⟨empty, rfl, rfl, rfl⟩) (fun p => by cases p <;> rfl)
    (fun _ _ => rfl) (fun _ h => by cases h) rfl

/-- What a pin or command reset makes of the Table Store (R136). -/
theorem afterReset_store (t : TableStore) :
    (t.afterReset.phase = .ready ∧ t.afterReset.port = .free ∨
      t.afterReset.phase = .initializing 0 ∧ t.afterReset.port = .sweep) ∧ t.afterReset.agentRequest = false := by
  refine ⟨?_, rfl⟩
  cases phase : t.phase with
  | ready => exact .inl ⟨by simp [TableStore.afterReset, phase], by simp [TableStore.afterReset, phase]⟩
  | initializing n => exact .inr ⟨by simp [TableStore.afterReset, phase], by simp [TableStore.afterReset, phase]⟩

theorem resetCredits_frame (s : State) :
    (resetCredits s).store = s.store ∧ (resetCredits s).judges = s.judges ∧ (resetCredits s).agent = s.agent ∧
      (resetCredits s).commit = s.commit ∧ (resetCredits s).policer.timer = s.policer.timer := by
  unfold resetCredits
  split <;> simp [fillCredits]

/-- The credits after a reset: full ceilings, or 0 during the sweep (R85). -/
theorem resetCredits_within (s : State) :
    CreditsWithin (resetCredits s) ∧
      ∀ n, s.store.phase = .initializing n → ∀ i, ((resetCredits s).stream i).credit = 0 := by
  unfold resetCredits
  split
  · next ready => exact ⟨fillCredits_within s, fun n hn => by rw [ready] at hn; cases hn⟩
  · have empty : ∀ i, ((s.setPolicer { s.policer with
        streams := Vector.replicate 256 ⟨0, 0, 0, 0⟩ }).stream i).credit = 0 := by
      intro i
      simp [State.stream]
    exact ⟨noCredit_within empty, fun _ _ => empty⟩

theorem warmReset (c : ResetCause) (s : State) : PortAndCreditsSound (warmReset c s) := by
  obtain ⟨x, hx⟩ : ∃ x, x = (((resetCommon c (abandonAccess s)).setStore
      (resetCommon c (abandonAccess s)).store.afterReset).setCommit
        { (resetCommon c (abandonAccess s)).commit with phase := .idle }).setCal
          (resetCommon c (abandonAccess s)).cal.afterReset := ⟨_, rfl⟩
  have made : Machine.warmReset c s = reevaluate (resetCredits x).cal.mark (resetCredits x) := by rw [hx]; rfl
  obtain ⟨store, judges, agent, commit, timer⟩ := resetCredits_frame x
  obtain ⟨within, empty⟩ := resetCredits_within x
  have reset_store : x.store = (resetCommon c (abandonAccess s)).store.afterReset := by rw [hx]; rfl
  obtain ⟨holder, request⟩ := afterReset_store (resetCommon c (abandonAccess s)).store
  rw [← reset_store] at holder request
  have sound : PortAndCreditsSound (resetCredits x) := by
    refine idle_sound within (fun n hn => ?_) (fun p => ?_) (fun n hn => ?_) (fun a ha => ?_) (by rw [store]; exact request)
    · rw [store] at hn
      refine ⟨empty n hn, ?_, ?_, ?_⟩
      · rw [timer, hx]; rfl
      · rw [commit, hx]; rfl
      · rw [agent, hx]; rfl
    · rw [judges, hx]
      cases p <;> rfl
    · rw [store] at hn ⊢
      rcases holder with ⟨ready, -⟩ | ⟨-, sweeps⟩
      · rw [ready] at hn
        cases hn
      · exact sweeps
    · rw [store] at ha
      rcases holder with ⟨-, port⟩ | ⟨-, port⟩ <;> rw [port] at ha <;> cases ha
  rw [made]
  exact sound.frame (.of_same rfl rfl rfl rfl rfl)

end PortAndCreditsSound

end Sys2Proof.Machine
end

section
/-! SUPPORT. The operations of the Table Store, the Judges and the Agent on the holder of the table port and the
credits, and every event (R24, R85, R86, R96, R97, R124, R135). -/

namespace Sys2Proof.Machine

namespace SoundFrame

variable {s t : State}

theorem setCal (x : Calendar) : SoundFrame s (s.setCal x) := .of_same rfl rfl rfl rfl rfl

/-- A Judge that goes to another phase than LOOKUP. -/
theorem setPhase (p : Port) (x : JudgePhase) (s : State) (h : ∀ it bank, x ≠ .lookup it bank) :
    SoundFrame s (setPhase p x s) := .mapJudge p _ s fun it bank hx => absurd hx (h it bank)

theorem setBind (p : Port) (x : Option BindContext) (s : State) : SoundFrame s (setBind p x s) :=
  .of_held (setBind_held p x s) (.setBind p x s)

theorem awaitPort (p : Port) (b : BufId) (r : JudgedAs) (s : State) : SoundFrame s (awaitPort p b r s) :=
  setPhase p _ s fun _ _ h => by cases h

theorem bindFirst (p : Port) (b : BufId) (s : State) : SoundFrame s (bindFirst p b s) := by
  unfold Machine.bindFirst
  split
  · exact (setBind _ _ _).trans (awaitPort _ _ _ _)
  · exact awaitPort _ _ _ _

theorem bindSecond (p : Port) (b : BufId) (c : BindContext) (s : State) : SoundFrame s (bindSecond p b c s) := by
  have closed := setBind p none s
  unfold Machine.bindSecond
  dsimp only
  split
  · exact closed.trans (awaitPort _ _ _ _)
  · exact closed.trans (awaitPort _ _ _ _)
  · exact closed.trans (.of_held (refuseTelegram_held _ _ _ _ _ _) (.refuseTelegram _ _ _ _ _ _))
  · exact closed.trans (awaitPort _ _ _ _)

theorem bindTest (p : Port) (b : BufId) (s : State) : SoundFrame s (bindTest p b s) := by
  unfold Machine.bindTest
  split
  · exact bindFirst _ _ _
  · split
    · exact bindSecond _ _ _ _
    · exact (of_held (endBinding_held _ _ _) (.endBinding _ _ _)).trans (bindFirst _ _ _)

theorem disposeOwn (p : Port) (b : BufId) (s : State) : SoundFrame s (disposeOwn p b s) := by
  unfold Machine.disposeOwn
  dsimp only
  split
  · split
    · exact .of_same rfl rfl rfl rfl rfl
    · exact .of_held (refuseTelegram_held _ _ _ _ _ _) (.refuseTelegram _ _ _ _ _ _)
  · exact .of_held (refuseTelegram_held _ _ _ _ _ _) (.refuseTelegram _ _ _ _ _ _)

theorem fullEvaluation (m : MinuteMark) (s : State) : SoundFrame s (fullEvaluation m s) := by
  have evaluated : SoundFrame s (reevaluate m s) := .of_same rfl rfl rfl rfl rfl
  unfold Machine.fullEvaluation
  dsimp only
  split
  · exact evaluated
  · exact evaluated.trans (.of_held (trigger_held _ _) (.trigger _ _))

theorem acceptSetting (code : Nat) (new : Settings) (s : State) : SoundFrame s (acceptSetting code new s) := by
  have set : SoundFrame s (s.setAgent { s.agent with settings := new }) := .of_same rfl rfl rfl rfl rfl
  unfold Machine.acceptSetting
  dsimp only
  split
  · exact .of_same rfl rfl rfl rfl rfl
  · split
    · exact set.trans (.of_out (driveAlert_out _))
    · exact set

theorem startReception (p : Port) (s : State) : SoundFrame s (startReception p s) := by
  unfold Machine.startReception
  split
  · next claimed => exact (of_out (claim_out claimed)).trans (.of_same rfl rfl rfl rfl rfl)
  · exact .of_same rfl rfl rfl rfl rfl

theorem arrive (p : Port) (b : BufId) (n : Nat) (s : State) : SoundFrame s (arrive p b n s) := by
  have received : SoundFrame s ((s.setBuffer b { s.buffer b with desc := arrivalDescriptor p n s }).mapRx p fun u =>
      { u with phase := .settling, good := u.good + 1 }) := of_same rfl rfl rfl rfl rfl
  exact received.trans (.mapJudge p (fun j => { j with arrivals := j.arrivals ++ [b] }) _ fun _ _ h => h)

theorem txComplete (p : Port) (s : State) : SoundFrame s (txComplete p s) := by
  unfold Machine.txComplete
  split
  · exact .of_same rfl rfl rfl rfl rfl
  all_goals exact .of_same rfl rfl rfl rfl rfl

theorem txSpacingEnd (p : Port) (s : State) : SoundFrame s (txSpacingEnd p s) := by
  unfold Machine.txSpacingEnd
  split
  all_goals exact .of_same rfl rfl rfl rfl rfl

theorem removeBlocked (s : State) : SoundFrame s (removeBlocked s) :=
  .of_held (removeBlocked_held s) (.removeAll _ _ s)

end SoundFrame

namespace PortAndCreditsSound

variable {s t : State}

/-! ### Reads and writes of rows with no access of the Agent outstanding -/

theorem reportPoison_store (b : Bank) (i : Index) (s : State) : (Machine.reportPoison b i s).store = s.store := by
  unfold Machine.reportPoison
  dsimp only
  split <;> rfl

/-- The invariant at the conclusion of an access of the Agent: the port is released and nothing is asked for. -/
structure AtConclusion (a : Bank) (s : State) : Prop where
  sound : PortAndCreditsSound s
  done : AgentDone s
  active : a = s.store.active

namespace AtConclusion

variable {a : Bank}

theorem frame (h : AtConclusion a s) (f : SoundFrame s t) : AtConclusion a t :=
  ⟨h.sound.frame f, h.done.frame f, h.active.trans f.active.symm⟩

theorem setDraws (h : AtConclusion a s) (n : Nat) : AtConclusion a (s.setDraws n) :=
  h.frame (.of_same rfl rfl rfl rfl rfl)

theorem countCorrected (h : AtConclusion a s) (n : Nat) : AtConclusion a (Machine.countCorrected n s) :=
  h.frame (.setStore _ rfl rfl rfl rfl)

theorem joinPoison (h : AtConclusion a s) (b : Bank) (i : Index) : AtConclusion a (Machine.joinPoison b i s) := by
  have store : (Machine.joinPoison b i s).store =
      { s.store.setPoison b i true with uncorrectable := satAdd s.store.uncorrectable } := reportPoison_store b i _
  refine ⟨h.sound.joinPoison b i, ⟨?_, ?_, ?_⟩, ?_⟩ <;> rw [store]
  · exact h.done.ready
  · exact h.done.request
  · exact h.done.port
  · exact h.active

theorem applyWalk (h : AtConclusion a s) (b : Bank) (w : Walk) : AtConclusion a (Machine.applyWalk b w s) := by
  have counted := (h.setDraws w.draws).countCorrected w.corrected
  unfold Machine.applyWalk
  dsimp only
  split
  · exact counted.joinPoison _ _
  all_goals exact counted

theorem readRowOf (h : AtConclusion a s) (b : Bank) (i : Index) : AtConclusion a (Machine.readRowOf b i s).2 := by
  unfold Machine.readRowOf
  split
  · exact h
  · split
    · exact h.setDraws _
    · exact (h.setDraws _).countCorrected _
    · exact ((h.setDraws _).joinPoison _ _).frame (.of_out (tell_out _ _))

theorem writeRow (h : AtConclusion a s) (b : Bank) (i : Index) (e : StreamEntry) : AtConclusion a (Machine.writeRow b i e s) :=
  h.frame (.setStore _ rfl rfl rfl rfl)

theorem setParam (h : AtConclusion a s) (i : Index) (r : ParamRecord) :
    AtConclusion a (Machine.setParam (otherBank a) i r s) :=
  ⟨h.sound.setParam_shadow (h.active ▸ otherBank_ne a) i r, ⟨h.done.ready, h.done.request, h.done.port⟩, h.active⟩

theorem writeUnusable (h : AtConclusion a s) (i : Index) (e : StreamEntry) : AtConclusion a (Machine.writeUnusable a i e s) :=
  (h.writeRow _ i e).setParam i _

theorem invalidateAccess (h : AtConclusion a s) (i : Index) : AtConclusion a (Machine.invalidateAccess a i s).2 := by
  unfold Machine.invalidateAccess
  split
  · exact h.writeUnusable _ _
  · split
    · exact (h.setDraws _).writeUnusable _ _
    · exact ((h.setDraws _).countCorrected _).writeUnusable _ _
    · exact (h.setDraws _).writeUnusable _ _

theorem copyAccess (h : AtConclusion a s) (i : Index) : AtConclusion a (Machine.copyAccess a i s).2 := by
  have read := h.readRowOf a i
  unfold Machine.copyAccess
  split
  all_goals
    next row =>
    rw [row] at read
    exact (read.writeRow _ _ _).setParam _ _

theorem complete (h : AtConclusion a s) (b : BufId) (x : Status) (r : List Byte) : PortAndCreditsSound (Machine.complete b x r s) :=
  h.sound.complete h.done b x r

theorem nextAccess (h : AtConclusion a s) (b : BufId) (job : Job) : PortAndCreditsSound (Machine.nextAccess b job s) :=
  h.sound.beginJob h.done b job

theorem of_active (h : AtConclusion a s) : AtConclusion s.store.active s := ⟨h.sound, h.done, rfl⟩

end AtConclusion

/-- The conclusion of an access: those that modify the shadow write under the selector they were granted under. -/
theorem concludeJob (h : PortAndCreditsSound s) (done : AgentDone s) (b : BufId) (job : Job) (a : Bank)
    (granted : job.modifiesShadow = true → a = s.store.active) : PortAndCreditsSound (concludeJob b job a s) := by
  have reading : AtConclusion s.store.active s := ⟨h, done, rfl⟩
  cases job with
  | readEntry role i =>
    have read := reading.readRowOf (roleBank a role) i
    unfold Machine.concludeJob concludeReadEntry
    dsimp only
    split
    all_goals
      next row =>
      rw [row] at read
      exact read.complete _ _ _
  | readStream i rest results =>
    have read := reading.readRowOf a i
    cases rest with
    | nil => exact read.complete _ _ _
    | cons j more => exact read.nextAccess _ _
  | probe d =>
    have walked := (reading.applyWalk a (lookup a d.key s)).frame
      (.of_out (tellFault_out (lookup a d.key s).joins _))
    exact walked.complete _ _ _
  | writeEntry i e => exact reading.complete _ _ _
  | invalidate i =>
    have writing : AtConclusion a s := ⟨h, done, granted rfl⟩
    exact (writing.invalidateAccess i).complete _ _ _
  | copy i blanks =>
    have writing : AtConclusion a s := ⟨h, done, granted rfl⟩
    have copied := writing.copyAccess i
    unfold Machine.concludeJob concludeCopy
    dsimp only
    split
    · exact copied.nextAccess _ _
    · exact copied.complete _ _ _
  | clear i =>
    have writing : AtConclusion a s := ⟨h, done, granted rfl⟩
    have cleared := writing.writeUnusable i blankEntry
    unfold Machine.concludeJob concludeClear
    dsimp only
    split
    · exact cleared.nextAccess _ _
    · exact cleared.complete _ _ _

/-- The conclusion of an access releases the port, and the Agent has asked for no more. -/
theorem concludeAccess_agent (h : PortAndCreditsSound s) {a : Bank} (port : s.store.port = .agent a) :
    PortAndCreditsSound (concludeAccess s) ∧ AgentDone (concludeAccess s) := by
  have ready := h.ready_of_port (by rw [port]; exact fun x => by cases x)
  obtain ⟨request, -⟩ := h.access.1 a port
  exact ⟨h.setPort ready (h.noLookup (by rw [port]; exact fun p x => by cases x)) _ rfl rfl (fun _ x => by cases x) id,
    ⟨ready, request, fun _ x => by cases x⟩⟩

/-! ### The other parties at the table port -/

theorem scrubRead (h : PortAndCreditsSound s) (n : Fin 512) : PortAndCreditsSound (scrubRead n s) := by
  unfold Machine.scrubRead
  split
  · exact h.setDraws _
  · exact (h.setDraws _).frame (.setStore _ rfl rfl rfl rfl)
  · exact ((h.setDraws _).joinPoison _ _).out (tell_out _ _)

theorem scrubRead_port (n : Fin 512) (s : State) : (Machine.scrubRead n s).store.port = s.store.port := by
  unfold Machine.scrubRead
  split
  · rfl
  · rfl
  · rw [(tell_out _ _).store, Machine.joinPoison, reportPoison_store]
    rfl

theorem scrubSettleDebt_frame (s : State) : SoundFrame s (scrubSettleDebt s) := by
  unfold scrubSettleDebt
  split <;> exact .setStore _ rfl rfl rfl rfl

theorem pointerMoved_frame (n : Fin 512) (s : State) :
    SoundFrame s (scrubSettleDebt (s.setStore { s.store with pointer := n })) :=
  (SoundFrame.setStore { s.store with pointer := n } rfl rfl rfl rfl).trans (scrubSettleDebt_frame _)

theorem scrubStepEffect (h : PortAndCreditsSound s) :
    PortAndCreditsSound (scrubStepEffect s) ∧ (Machine.scrubStepEffect s).store.port = s.store.port := by
  unfold Machine.scrubStepEffect
  split
  · exact ⟨h.frame (scrubSettleDebt_frame s), (scrubSettleDebt_frame s).port⟩
  · next n _ =>
    have moved := pointerMoved_frame (n + 1) (Machine.scrubRead n s)
    exact ⟨(h.scrubRead n).frame moved, moved.port.trans (scrubRead_port n s)⟩

theorem concludeAccess_scrub (h : PortAndCreditsSound s) (port : s.store.port = .scrub) :
    PortAndCreditsSound (concludeAccess s) :=
  h.setPort (h.ready_of_port (by rw [port]; exact fun x => by cases x))
    (h.noLookup (by rw [port]; exact fun p x => by cases x)) _ rfl rfl (fun _ x => by cases x) id

theorem applyWalk_judges (b : Bank) (w : Walk) (s : State) : (Machine.applyWalk b w s).judges = s.judges := by
  unfold Machine.applyWalk Machine.joinPoison Machine.reportPoison
  dsimp only
  split
  · split <;> rfl
  all_goals rfl

/-- A Judge that leaves LOOKUP releases the port: the other one is not in LOOKUP. -/
theorem concludeAccess_judge (h : PortAndCreditsSound s) {p : Port} {it : Item} {bank : Bank}
    (phase : (s.judges.get p).phase = .lookup it bank) :
    PortAndCreditsSound (setPhase p .idle (concludeAccess s)) := by
  have port := h.port.1 p it bank phase
  have idle := h.frame (.setPhase p .idle s fun _ _ x => by cases x)
  refine idle.setPort (h.ready_of_port (by rw [port]; exact fun x => by cases x)) (fun q it' bank' hq => ?_) _ rfl rfl
    (fun _ x => by cases x) id
  rw [setPhase, State.mapJudge, State.setJudges_judges, PerPort.get_set] at hq
  split at hq
  · cases hq
  · next other =>
    have same := h.port.1 q it' bank' hq
    rw [port] at same
    cases same
    exact other rfl

theorem concludeLookup (h : PortAndCreditsSound s) {p : Port} {it : Item} {bank : Bank} (o : RiseOrder)
    (phase : (s.judges.get p).phase = .lookup it bank) : PortAndCreditsSound (concludeLookup p it bank o s) := by
  have walked := h.applyWalk bank (lookup bank it.key s)
  have ended := walked.concludeAccess_judge (by rw [applyWalk_judges]; exact phase)
  have told := fun x (t : State) => SoundFrame.of_out (tellFault_out x t)
  have item := fun k x (t : State) => SoundFrame.of_held (concludeItem_held p it k x t) (.concludeItem p it k x t)
  cases o with
  | flagFirst => exact (ended.frame (told _ _)).frame (item _ _ _)
  | recordsFirst => exact (ended.frame (item _ _ _)).frame (told _ _)

theorem grantedWrite (h : PortAndCreditsSound s) : PortAndCreditsSound (grantedWrite s.store.active s) := by
  unfold Machine.grantedWrite
  split
  · next i e _ =>
    have written := h.frame (SoundFrame.setStore (s := s)
      ((s.store.setRow (otherBank s.store.active) i (freshRow e)).setPoison (otherBank s.store.active) i false)
      rfl rfl rfl rfl)
    exact written.setParam_shadow (otherBank_ne _) i _
  · exact h

/-- A grant to a Judge: it alone goes to LOOKUP. -/
theorem grantJudge (h : PortAndCreditsSound s) (ready : s.store.phase = .ready) (free : s.store.port = .free)
    (p : Port) : PortAndCreditsSound (grantTo (.judge p) s) where
  credits := h.credits
  quiet n hn := by
    change s.store.phase = _ at hn
    rw [ready] at hn
    cases hn
  port := by
    refine ⟨fun q it bank hq => ?_, fun n hn => ?_⟩
    · change ((s.judges.set p (beginLookup s.store.active (s.judges.get p))).get q).phase = _ at hq
      rw [PerPort.get_set] at hq
      split at hq
      · next same => rw [same]; rfl
      · exact absurd (free.symm.trans (h.port.1 q it bank hq)) (by simp)
    · change s.store.phase = _ at hn
      rw [ready] at hn
      cases hn
  access := ⟨fun a ha => (nomatch (show PortUse.judge p = .agent a from ha)), h.access.2⟩

theorem grantAgent (h : PortAndCreditsSound s) (ready : s.store.phase = .ready) (free : s.store.port = .free)
    (request : s.store.agentRequest = true) : PortAndCreditsSound (grantTo (.agent s.store.active) s) := by
  refine grantedWrite (s := s.setStore
    { s.store with port := .agent s.store.active, agentRequest := false, waitCount := 0 }) ⟨h.credits, ?_, ?_, ?_⟩
  · intro n hn
    change s.store.phase = _ at hn
    rw [ready] at hn
    cases hn
  · refine ⟨fun p it bank hp => absurd hp (h.noLookup (by rw [free]; exact fun p x => by cases x) p it bank),
      fun n hn => ?_⟩
    change s.store.phase = _ at hn
    rw [ready] at hn
    cases hn
  · refine ⟨fun a ha => ?_, fun hr => by cases hr⟩
    obtain ⟨x, busy⟩ := Option.ne_none_iff_exists'.1 (h.access.2 request)
    cases ha
    exact ⟨rfl, x, busy, fun _ => rfl⟩

theorem grant (h : PortAndCreditsSound s) (granted : grant s = some t) : PortAndCreditsSound t := by
  unfold Machine.grant at granted
  split at granted
  · next ready free =>
    obtain ⟨u, choice, rfl⟩ := Option.map_eq_some_iff.1 granted
    cases u with
    | judge p => exact h.grantJudge ready free p
    | agent a =>
      obtain ⟨request, rfl⟩ := arbiterChoice_agent choice
      exact h.grantAgent ready free request
    | scrub =>
      exact h.setPort ready (h.noLookup (by rw [free]; exact fun p x => by cases x)) _ rfl rfl
        (fun _ x => by cases x) id
    | free => exact h
    | closing => exact h
    | sweep => exact h
  · cases granted

theorem openPort (h : PortAndCreditsSound s) (opened : openPort s = some t) : PortAndCreditsSound t := by
  unfold Machine.openPort at opened
  split at opened
  case h_1 closing =>
    cases opened
    exact h.setPort (h.ready_of_port (by rw [closing]; exact fun x => by cases x))
      (h.noLookup (by rw [closing]; exact fun p x => by cases x)) _ rfl rfl (fun _ x => by cases x) id
  all_goals cases opened

/-- A write of the sweep; after the last one the port is free, and neither a Judge nor the Agent had it. -/
theorem sweep (h : PortAndCreditsSound s) {n : Fin 512} (phase : s.store.phase = .initializing n) :
    PortAndCreditsSound (sweepNext n (sweepRow n s)) := by
  obtain ⟨empty, stopped, idle, none⟩ := h.quiet n phase
  have port := h.port.2 n phase
  have noLookup := h.noLookup (by rw [port]; exact fun p x => by cases x)
  unfold sweepNext
  split
  · refine ⟨noCredit_within empty, fun _ _ => ⟨empty, stopped, idle, none⟩,
      ⟨fun p it bank hp => absurd hp (noLookup p it bank), fun _ _ => port⟩, fun a ha => ?_, h.access.2⟩
    exact absurd (port.symm.trans ha) (by simp)
  · exact ⟨noCredit_within empty, fun m hm => (nomatch hm),
      ⟨fun p it bank hp => absurd hp (noLookup p it bank), fun m hm => (nomatch hm)⟩, fun a ha => (nomatch ha),
      h.access.2⟩

/-! ### The Refill Timer -/

theorem refillCredits (h : PortAndCreditsSound s) (ready : s.store.phase = .ready) :
    PortAndCreditsSound (refillCredits s) := by
  refine h.setPolicer_ready ready _ fun i => ?_
  have filled : ((Machine.refillCredits s).stream i).credit = refilled (s.param s.store.active i) (s.stream i).credit := by
    simp [Machine.refillCredits, State.stream]
  have same : (Machine.refillCredits s).param (Machine.refillCredits s).store.active i = s.param s.store.active i := by
    simp [Machine.refillCredits, State.param]
  change ((Machine.refillCredits s).stream i).credit.toNat ≤ if
    ((Machine.refillCredits s).param (Machine.refillCredits s).store.active i).usable then
    ((Machine.refillCredits s).param (Machine.refillCredits s).store.active i).ceiling.toNat else 0
  rw [filled, same, refilled]
  split
  · rw [BitVec.toNat_ofNat]
    exact (Nat.mod_le _ _).trans (min_le_right _ _)
  · exact le_rfl

theorem runningPulse (h : PortAndCreditsSound s) (ready : s.store.phase = .ready) :
    PortAndCreditsSound (runningPulse s) := by
  unfold Machine.runningPulse
  split
  · exact h.setTimer ready _ _
  · split
    · have refilled := (h.setTimer ready .running s.agent.settings.refillPreset).refillCredits ready
      exact refilled.held (trigger_held .refill _) (.trigger .refill _)
    · exact h.setTimer ready _ _

theorem ready_of_running (h : PortAndCreditsSound s) (running : s.policer.timer = .running) :
    s.store.phase = .ready := by
  cases phase : s.store.phase with
  | ready => rfl
  | initializing n =>
    obtain ⟨-, stopped, -, -⟩ := h.quiet n phase
    rw [running] at stopped
    cases stopped

/-! ### Commands -/

/-- The invariant at the beginning of a command: the store is READY and the Agent has asked for nothing. -/
structure AtCommand (s : State) : Prop where
  sound : PortAndCreditsSound s
  done : AgentDone s

namespace AtCommand

theorem frame (h : AtCommand s) (f : SoundFrame s t) : AtCommand t := ⟨h.sound.frame f, h.done.frame f⟩

theorem complete (h : AtCommand s) (b : BufId) (x : Status) (r : List Byte) : PortAndCreditsSound (Machine.complete b x r s) :=
  h.sound.complete h.done b x r

theorem beginJob (h : AtCommand s) (b : BufId) (job : Job) : PortAndCreditsSound (Machine.beginJob b job s) :=
  h.sound.beginJob h.done b job

theorem setTimer (h : AtCommand s) (x : TimerState) (count : BitVec 16) : AtCommand (Machine.setTimer x count s) :=
  ⟨h.sound.setTimer h.done.ready x count, h.done.ready, h.done.request, h.done.port⟩

theorem timerAct (h : AtCommand s) (a : RefillAction) : AtCommand (Machine.timerAct a s) := by
  cases a
  · unfold Machine.timerAct timerStart
    dsimp only
    split
    · exact h.setTimer _ _
    · exact h.setTimer _ _
    · exact h
  · unfold Machine.timerAct timerPause
    dsimp only
    split
    · exact h.setTimer _ _
    · exact h
    · exact h
  · exact h.setTimer _ _
  · exact h.setTimer _ _

theorem setCommit (h : AtCommand s) (x : CommitCtl) : AtCommand (s.setCommit x) := by
  refine ⟨⟨h.sound.credits, fun n hn => ?_, h.sound.port, h.sound.access⟩, h.done.ready, h.done.request, h.done.port⟩
  exact absurd (h.done.ready.symm.trans hn) (by simp)

theorem swapBanks (h : AtCommand s) (idle : s.agent.exec = none) : AtCommand (Machine.swapBanks s) := by
  have store : (Machine.swapBanks s).store = { s.store with active := otherBank s.store.active } := by
    rw [Machine.swapBanks, (tell_out _ _).store, (markPending_held _).store]
    rfl
  refine ⟨h.sound.swapBanks h.done.ready fun a x _ busy => absurd (idle.symm.trans busy) (by simp), ?_, ?_, ?_⟩ <;>
    rw [store]
  · exact h.done.ready
  · exact h.done.request
  · exact h.done.port

theorem stream_clearCounts (low high i : Index) (s : State) :
    ((clearCounts low high s).stream i).credit = (s.stream i).credit := by
  simp only [clearCounts, State.stream, State.setPolicer_policer, Fin.getElem_fin, Vector.getElem_ofFn]
  split <;> rfl

theorem clearCounts (h : AtCommand s) (low high : Index) : AtCommand (Machine.clearCounts low high s) := by
  refine h.frame ⟨fun i => (congrArg BitVec.toNat (stream_clearCounts low high i s)).le, ?_, ?_, ?_, ?_, ?_, ?_, ?_, ?_,
    fun p it bank => ?_⟩ <;> simp [Machine.clearCounts]

theorem carryOut (h : AtCommand s) (b : BufId) (x : Bool) (c : Cmd) (idle : s.agent.exec = none) :
    PortAndCreditsSound (Machine.carryOut b x c s) := by
  have windows : ∀ w, AtCommand (s.setWindows w) := fun w => h.frame (.of_same rfl rfl rfl rfl rfl)
  cases c
  case readStatus => exact h.complete _ _ _
  case readEntry => exact h.beginJob _ _
  case readWindow => exact h.complete _ _ _
  case readStream => exact h.beginJob _ _
  case probe => exact h.beginJob _ _
  case keepalive => exact h.complete _ _ _
  case writeEntry => exact h.beginJob _ _
  case invalidate => exact h.beginJob _ _
  case writeWindow => exact (windows _).complete _ _ _
  case copy => exact (windows _).beginJob _ _
  case clear => exact (windows _).beginJob _ _
  case commitNow => exact (h.swapBanks idle).complete _ _ _
  case schedule i =>
    unfold Machine.carryOut carrySchedule
    dsimp only
    split
    · exact (h.setCommit _).complete _ _ _
    · exact h.complete _ _ _
  case cancel => exact (h.setCommit _).complete _ _ _
  case setTime => exact (h.frame ((SoundFrame.setCal _).trans (.fullEvaluation _ _))).complete _ _ _
  case setConfig code present v =>
    unfold Machine.carryOut carrySetConfig
    dsimp only
    split
    · exact h.complete _ _ _
    · split
      · exact h.complete _ _ _
      · exact (h.frame (.acceptSetting _ _ _)).complete _ _ _
  case refillControl a => exact (h.timerAct a).complete _ _ _
  case clearCounters low high => exact (h.clearCounts low high).complete _ _ _
  case drain => exact (h.frame (.of_out (drainRecords_out _ _))).complete _ _ _
  case clearAlerts => exact (h.frame (.of_out (clearFlags_out _ _))).complete _ _ _
  case flush scope => exact (h.frame (.of_held (flushHeld_held _ _) (.flushHeld _ _))).complete _ _ _
  case reset => exact warmReset _ _

theorem startCommand (h : AtCommand s) (b : BufId) (idle : s.agent.exec = none) :
    PortAndCreditsSound (Machine.startCommand b s) := by
  have reloaded : AtCommand (reload s) := h.frame (.of_same rfl rfl rfl rfl rfl)
  unfold Machine.startCommand
  split
  · unfold executeCommand
    dsimp only
    split
    · exact reloaded.complete _ _ _
    · exact reloaded.complete _ _ _
    · exact reloaded.carryOut _ _ _ idle
  · exact (h.complete _ _ _).out (handOver_out _ _)

end AtCommand

/-! ### What follows at once -/

theorem takeSlot (h : PortAndCreditsSound s) {p : Port} (taken : takeSlot p s = some t) : PortAndCreditsSound t := by
  have emptied := h.frame (.mapJudge p (fun j => { j with slot := none }) s fun _ _ x => x)
  unfold Machine.takeSlot at taken
  split at taken
  · dsimp only at taken
    split at taken
    · cases taken
      exact emptied.frame (.setPhase p _ _ fun _ _ x => by cases x)
    · cases taken
      exact emptied.frame (.of_same rfl rfl rfl rfl rfl)
  · cases taken

theorem takeArrival (h : PortAndCreditsSound s) {p : Port} (taken : takeArrival p s = some t) :
    PortAndCreditsSound t := by
  unfold Machine.takeArrival at taken
  split at taken
  · next b rest _ _ =>
    have shortened := h.frame (.mapJudge p (fun j => { j with arrivals := rest }) s fun _ _ x => x)
    dsimp only at taken
    split at taken
    · cases taken
      exact shortened.frame (.disposeOwn p b _)
    · cases taken
      exact shortened.frame (.bindTest p b _)
  · cases taken

theorem placeRequest (h : PortAndCreditsSound s) {p : Port} (placed : placeRequest p s = some t) :
    PortAndCreditsSound t := by
  unfold Machine.placeRequest at placed
  split at placed
  · next r _ _ =>
    cases placed
    exact (h.frame (.mapJudge p (fun j => { j with slot := some r.ref }) s fun _ _ x => x)).frame
      (.of_same rfl rfl rfl rfl rfl)
  · cases placed

theorem endReached (h : PortAndCreditsSound s) {p : Port} (ended : endReached p s = some t) :
    PortAndCreditsSound t := by
  unfold Machine.endReached at ended
  split at ended
  · cases ended
  · split at ended
    · cases ended
      exact h.held (endBinding_held _ _ _) (.endBinding _ _ _)
    · cases ended

theorem applyUpsets_frame (l : List Upset) (s : State) : SoundFrame s (applyUpsets l s) := by
  have rows : ∀ (t : TableStore), ∃ r, l.foldl (fun t u => t.setRow u.bank u.index
      (disturb (t.row u.bank u.index) u.word u.bit)) t = { t with rows := r } := by
    induction l with
    | nil => exact fun t => ⟨t.rows, rfl⟩
    | cons u l ih =>
      intro t
      obtain ⟨r, hr⟩ := ih (t.setRow u.bank u.index (disturb (t.row u.bank u.index) u.word u.bit))
      exact ⟨r, hr⟩
  obtain ⟨r, hr⟩ := rows s.store
  rw [applyUpsets, hr]
  exact .setStore _ rfl rfl rfl rfl

theorem atExpiry_frame (s : State) : SoundFrame s (s.setStore s.store.atExpiry) := by
  unfold TableStore.atExpiry
  split
  · split <;> exact .setStore _ rfl rfl rfl rfl
  · exact .setStore _ rfl rfl rfl rfl

/-- Every event keeps the credits within their ceilings and the port with its one holder. -/
theorem events : EventsKeep PortAndCreditsSound where
  pending _ _ h := h.frame (.of_same rfl rfl rfl rfl rfl)
  straps _ _ h := h.frame (.of_same rfl rfl rfl rfl rfl)
  calendar _ _ h := h.frame (.setCal _)
  windows _ _ h := h.frame (.of_same rfl rfl rfl rfl rfl)
  upsets s l h := h.frame (applyUpsets_frame l s)
  buffer _ _ _ h := h.frame (.of_same rfl rfl rfl rfl rfl)
  unit _ _ _ _ h := h.frame (.of_same rfl rfl rfl rfl rfl)
  handOver _ _ h := h.out (handOver_out _ _)
  tell _ _ h := h.out (tell_out _ _)
  startReception s p _ h := h.frame (.startReception p s)
  dropReception _ _ _ _ _ _ _ h := h.frame (.of_same rfl rfl rfl rfl rfl)
  arrive s p b n _ h := h.frame (.arrive p b n s)
  txComplete s p h := h.frame (.txComplete p s)
  txSpacingEnd s p h := h.frame (.txSpacingEnd p s)
  powerOn s x _ := powerOnTo x s
  warmReset s c _ := warmReset c s
  sweep _ _ phase h := h.sweep phase
  expire s h := h.held (expire_held s) (.removeAll _ _ s)
  bindDeadline s p h := h.held (bindDeadlineAt_held p s) (.bindDeadlineAt p s)
  pulse _ running h := h.runningPulse (h.ready_of_running running)
  scrubExpiry s _ h := h.frame (atExpiry_frame s)
  supervision _ _ h := h.frame (.of_same rfl rfl rfl rfl rfl)
  removeBlocked s h := h.frame (.removeBlocked s)
  trigger s k h := h.held (trigger_held k s) (.trigger k s)
  commitBoundary _ m h := h.commitBoundary m
  scrubStep _ port h := by
    obtain ⟨sound, still⟩ := h.scrubStepEffect
    exact sound.concludeAccess_scrub (still.trans port)
  access s a x port busy h := by
    obtain ⟨sound, done⟩ := h.concludeAccess_agent port
    obtain ⟨-, y, same, granted⟩ := h.access.1 a port
    obtain rfl : x = y := Option.some.inj (busy.symm.trans same)
    exact sound.concludeJob done _ _ _ granted
  lookup _ _ _ _ o phase h := h.concludeLookup o phase
  scanStep s h := h.held (scanStep_held s) (.scanStep s)
  grant _ _ granted h := h.grant granted
  endReached _ _ _ ended h := h.endReached ended
  placeRequest _ _ _ placed h := h.placeRequest placed
  takeSlot _ _ _ taken h := h.takeSlot taken
  command s b rest idle _ ready h := by
    have taken : AtCommand s := ⟨h, h.agentDone_of_idle ready idle⟩
    have begun : AtCommand (s.setAgent { s.agent with inbox := rest }) := taken.frame (.of_same rfl rfl rfl rfl rfl)
    exact begun.startCommand b idle
  takeArrival _ _ _ taken h := h.takeArrival taken
  openPort _ _ opened h := h.openPort opened

end PortAndCreditsSound

/-- Settles O58: every event keeps the credits, the quiet of the sweep and the port's holder together. -/
theorem creditsStayWithinTheirCeilings : Obligations.CreditsStayWithinTheirCeilings := by
  intro s t credits quiet port access stepped
  obtain ⟨credits', quiet', port', access'⟩ :=
    PortAndCreditsSound.events.step stepped ⟨credits, quiet, port, access⟩
  exact ⟨credits', quiet', port', access'⟩

end Sys2Proof.Machine
end

section
/-! SUPPORT. What links held records to one another, as lists: a removal of a first takes its partner with it, an
admission adds a number not given out yet, and a partner is linked to a first that no Judge refers to (R49, R53, R100,
R105). -/

namespace Sys2Proof.Machine

/-! ### Links -/

/-- What a held record says of others: its reference, its partner, whether it awaits one, the first it is the partner
of. -/
structure Link where
  ref : Nat
  partner : Option Nat
  awaiting : Bool
  first : Option Nat

/-- The first a record is the partner of, if it is a partner. -/
def HeldRecord.firstRef (r : HeldRecord) : Option Nat :=
  match r.role with
  | .first _ => none
  | .partner n => some n

/-- The link of a held record. -/
def HeldRecord.link (r : HeldRecord) : Link := ⟨r.ref, r.partnerRef, r.awaiting, r.firstRef⟩

/-- Whether a link stays when the first `x` is taken out with its partner. -/
def Link.outlives (x y : Link) : Bool := y.ref != x.ref && x.partner != some y.ref

/-- A first that gets its partner. -/
def Link.joined (y : Link) (n : Nat) : Link := ⟨y.ref, some n, false, y.first⟩

theorem Link.outlives_iff {x y : Link} : x.outlives y = true ↔ y.ref ≠ x.ref ∧ x.partner ≠ some y.ref := by
  simp [Link.outlives]

/-- The links of a queue whose next number is `next`, where the Judges refer to `held`. -/
structure LinksSound (l : List Link) (next : Nat) (held : List Nat) : Prop where
  distinct : (l.map (·.ref)).Nodup
  given : ∀ x ∈ l, x.ref < next
  partners : ∀ x ∈ l, ∀ n, x.partner = some n → ∃ y ∈ l, y.ref = n ∧ y.first = some x.ref
  firsts : ∀ y ∈ l, ∀ n, y.first = some n → ∃ x ∈ l, x.ref = n ∧ x.partner = some y.ref
  oneRole : ∀ x ∈ l, ∀ n, x.first = some n → x.partner = none
  once : held.Nodup
  numbered : ∀ n ∈ held, n < next
  awaited : ∀ n ∈ held, ∀ x ∈ l, x.ref = n → x.awaiting = true
  alone : ∀ x ∈ l, x.awaiting = true → x.partner = none

namespace LinksSound

variable {l : List Link} {next : Nat} {held : List Nat}

theorem eq_of_ref (h : LinksSound l next held) {x y : Link} (hx : x ∈ l) (hy : y ∈ l) (same : x.ref = y.ref) : x = y :=
  List.inj_on_of_nodup_map h.distinct hx hy same

/-- The Judges may refer to fewer records. -/
theorem fewer (h : LinksSound l next held) {held' : List Nat} (sub : held'.Subperm held) : LinksSound l next held' where
  distinct := h.distinct
  given := h.given
  partners := h.partners
  firsts := h.firsts
  oneRole := h.oneRole
  once := by
    obtain ⟨k, same, below⟩ := sub
    exact same.nodup_iff.1 (h.once.sublist below)
  numbered n hn := h.numbered n (sub.subset hn)
  awaited n hn := h.awaited n (sub.subset hn)
  alone := h.alone

/-- A first taken out with its partner (R105). -/
theorem without (h : LinksSound l next held) {x : Link} (hx : x ∈ l) (first : x.first = none) :
    LinksSound (l.filter x.outlives) next held where
  distinct := h.distinct.sublist (List.filter_sublist.map _)
  given y hy := h.given y (List.mem_of_mem_filter hy)
  partners y hy n hn := by
    obtain ⟨hy, stays⟩ := List.mem_filter.1 hy
    obtain ⟨other, unlinked⟩ := Link.outlives_iff.1 stays
    obtain ⟨q, hq, ref, names⟩ := h.partners y hy n hn
    refine ⟨q, List.mem_filter.2 ⟨hq, Link.outlives_iff.2 ⟨fun same => ?_, fun taken => ?_⟩⟩, ref, names⟩
    · rw [h.eq_of_ref hq hx same, first] at names
      cases names
    · obtain ⟨q', hq', ref', names'⟩ := h.partners x hx q.ref taken
      rw [h.eq_of_ref hq' hq ref', names] at names'
      exact other (Option.some.inj names')
  firsts q hq n hn := by
    obtain ⟨hq, stays⟩ := List.mem_filter.1 hq
    obtain ⟨other, unlinked⟩ := Link.outlives_iff.1 stays
    obtain ⟨y, hy, ref, names⟩ := h.firsts q hq n hn
    refine ⟨y, List.mem_filter.2 ⟨hy, Link.outlives_iff.2 ⟨fun same => ?_, fun taken => ?_⟩⟩, ref, names⟩
    · rw [h.eq_of_ref hy hx same] at names
      exact unlinked names
    · obtain ⟨y', hy', ref', names'⟩ := h.partners x hx y.ref taken
      rw [h.eq_of_ref hy' hy ref'] at names'
      rw [h.oneRole y hy _ names'] at names
      cases names
  oneRole y hy := h.oneRole y (List.mem_of_mem_filter hy)
  once := h.once
  numbered := h.numbered
  awaited n hn y hy := h.awaited n hn y (List.mem_of_mem_filter hy)
  alone y hy := h.alone y (List.mem_of_mem_filter hy)

/-- A first admitted (R100). -/
theorem admitted (h : LinksSound l next held) (a : Bool) : LinksSound (l ++ [⟨next, none, a, none⟩]) (next + 1) held where
  distinct := by
    rw [List.map_append, List.map_singleton, List.nodup_append]
    refine ⟨h.distinct, List.nodup_singleton _, fun n hn m hm => ?_⟩
    obtain ⟨x, hx, rfl⟩ := List.mem_map.1 hn
    rw [List.mem_singleton.1 hm]
    exact (h.given x hx).ne
  given x hx := by
    rcases List.mem_append.1 hx with old | new
    · exact Nat.lt_succ_of_lt (h.given x old)
    · rw [List.mem_singleton.1 new]
      exact Nat.lt_succ_self next
  partners x hx n hn := by
    rcases List.mem_append.1 hx with old | new
    · obtain ⟨y, hy, linked⟩ := h.partners x old n hn
      exact ⟨y, List.mem_append_left _ hy, linked⟩
    · rw [List.mem_singleton.1 new] at hn
      cases hn
  firsts y hy n hn := by
    rcases List.mem_append.1 hy with old | new
    · obtain ⟨x, hx, linked⟩ := h.firsts y old n hn
      exact ⟨x, List.mem_append_left _ hx, linked⟩
    · rw [List.mem_singleton.1 new] at hn
      cases hn
  oneRole x hx n hn := by
    rcases List.mem_append.1 hx with old | new
    · exact h.oneRole x old n hn
    · rw [List.mem_singleton.1 new]
  once := h.once
  numbered n hn := Nat.lt_succ_of_lt (h.numbered n hn)
  awaited n hn x hx same := by
    rcases List.mem_append.1 hx with old | new
    · exact h.awaited n hn x old same
    · rw [List.mem_singleton.1 new] at same
      exact absurd same (h.numbered n hn).ne'
  alone x hx hw := by
    rcases List.mem_append.1 hx with old | new
    · exact h.alone x old hw
    · rw [List.mem_singleton.1 new]

/-- A Judge comes to refer to a first that awaits its partner (R53). -/
theorem refer (h : LinksSound l next held) {n : Nat} (given : n < next) (fresh : n ∉ held)
    (awaited : ∀ x ∈ l, x.ref = n → x.awaiting = true) : LinksSound l next (n :: held) where
  distinct := h.distinct
  given := h.given
  partners := h.partners
  firsts := h.firsts
  oneRole := h.oneRole
  once := List.nodup_cons.2 ⟨fresh, h.once⟩
  numbered m hm := by
    rcases List.mem_cons.1 hm with rfl | old
    · exact given
    · exact h.numbered m old
  awaited m hm := by
    rcases List.mem_cons.1 hm with rfl | old
    · exact awaited
    · exact h.awaited m old
  alone := h.alone

/-- A first that awaits its partner, once it has it; the others as they are. -/
def joinedAt (x : Link) (n : Nat) (y : Link) : Link := if y.ref = x.ref then y.joined n else y

theorem joinedAt_ref (x : Link) (n : Nat) (y : Link) : (joinedAt x n y).ref = y.ref := by
  unfold joinedAt
  split <;> rfl

theorem joinedAt_first (x : Link) (n : Nat) (y : Link) : (joinedAt x n y).first = y.first := by
  unfold joinedAt
  split <;> rfl

theorem joinedAt_other {x y : Link} (n : Nat) (other : y.ref ≠ x.ref) : joinedAt x n y = y := if_neg other

theorem joinedAt_self {x : Link} (n : Nat) : joinedAt x n x = x.joined n := if_pos rfl

/-- The links of the others when a first gets its partner. -/
theorem mem_joined {x : Link} {n : Nat} {z : Link}
    (hz : z ∈ l.map (joinedAt x n) ++ [⟨n, none, false, some x.ref⟩]) :
    (∃ y ∈ l, joinedAt x n y = z) ∨ z = ⟨n, none, false, some x.ref⟩ := by
  rcases List.mem_append.1 hz with old | new
  · exact .inl (List.mem_map.1 old)
  · exact .inr (List.mem_singleton.1 new)

/-- A partner admitted and linked to a first that awaits it and that no Judge refers to any more (R49, R100). -/
theorem join (h : LinksSound l next held) {x : Link} (hx : x ∈ l) (first : x.first = none) (awaits : x.awaiting = true)
    (unreferred : x.ref ∉ held) :
    LinksSound (l.map (joinedAt x next) ++ [⟨next, none, false, some x.ref⟩]) (next + 1) held where
  distinct := by
    have refs : (l.map (joinedAt x next)).map (·.ref) = l.map (·.ref) := by
      rw [List.map_map]
      exact List.map_congr_left fun y _ => joinedAt_ref x next y
    rw [List.map_append, refs]
    have admitted := (h.admitted false).distinct
    rwa [List.map_append] at admitted
  given z hz := by
    rcases mem_joined hz with ⟨y, hy, rfl⟩ | rfl
    · rw [joinedAt_ref]
      exact Nat.lt_succ_of_lt (h.given y hy)
    · exact Nat.lt_succ_self next
  partners z hz n hn := by
    rcases mem_joined hz with ⟨y, hy, rfl⟩ | rfl
    · by_cases same : y.ref = x.ref
      · obtain rfl := h.eq_of_ref hy hx same
        rw [joinedAt_self] at hn ⊢
        cases hn
        exact ⟨_, List.mem_append_right _ (List.mem_singleton_self _), rfl, rfl⟩
      · rw [joinedAt_other next same] at hn ⊢
        obtain ⟨q, hq, ref, names⟩ := h.partners y hy n hn
        exact ⟨_, List.mem_append_left _ (List.mem_map_of_mem hq), (joinedAt_ref ..).trans ref,
          (joinedAt_first ..).trans names⟩
    · cases hn
  firsts z hz n hn := by
    rcases mem_joined hz with ⟨y, hy, rfl⟩ | rfl
    · rw [joinedAt_first] at hn
      rw [joinedAt_ref]
      obtain ⟨w, hw, ref, names⟩ := h.firsts y hy n hn
      have other : w.ref ≠ x.ref := by
        intro same
        rw [h.eq_of_ref hw hx same, h.alone x hx awaits] at names
        cases names
      refine ⟨_, List.mem_append_left _ (List.mem_map_of_mem hw), (joinedAt_ref ..).trans ref, ?_⟩
      rw [joinedAt_other next other]
      exact names
    · cases hn
      exact ⟨_, List.mem_append_left _ (List.mem_map_of_mem hx), joinedAt_ref .., by rw [joinedAt_self]; rfl⟩
  oneRole z hz n hn := by
    rcases mem_joined hz with ⟨y, hy, rfl⟩ | rfl
    · rw [joinedAt_first] at hn
      have other : y.ref ≠ x.ref := by
        intro same
        rw [h.eq_of_ref hy hx same, first] at hn
        cases hn
      rw [joinedAt_other next other]
      exact h.oneRole y hy n hn
    · rfl
  once := h.once
  numbered n hn := Nat.lt_succ_of_lt (h.numbered n hn)
  awaited n hn z hz same := by
    rcases mem_joined hz with ⟨y, hy, rfl⟩ | rfl
    · rw [joinedAt_ref] at same
      have other : y.ref ≠ x.ref := fun eq => unreferred (eq ▸ same ▸ hn)
      rw [joinedAt_other next other]
      exact h.awaited n hn y hy same
    · exact absurd same (h.numbered n hn).ne'
  alone z hz hw := by
    rcases mem_joined hz with ⟨y, hy, rfl⟩ | rfl
    · have other : y.ref ≠ x.ref := by
        intro same
        rw [joinedAt, if_pos same] at hw
        cases hw
      rw [joinedAt_other next other] at hw ⊢
      exact h.alone y hy hw
    · rfl

end LinksSound

/-! ### The links of a state -/

/-- The links of the held records. -/
def links (s : State) : List Link := s.hold.records.map (·.link)

/-- The records the two Judges refer to. -/
def heldRefs (s : State) : List Nat := heldByJudge s.judges.n ++ heldByJudge s.judges.f

/-- Held firsts and their partners are linked, and the Judges refer to firsts that await theirs. -/
def Linked (s : State) : Prop := LinksSound (links s) s.hold.nextRef (heldRefs s)

theorem HeldRecord.firstRef_iff {r : HeldRecord} {n : Nat} : r.firstRef = some n ↔ r.role = .partner n := by
  unfold HeldRecord.firstRef
  cases r.role <;> simp

theorem HeldRecord.firstRef_of_firstPart {r : HeldRecord} {f : FirstPart} (h : r.firstPart = some f) :
    r.role = .first f := by
  unfold HeldRecord.firstPart at h
  cases role : r.role <;> simp_all

theorem HeldRecord.partner_alone {r : HeldRecord} {n : Nat} (h : r.firstRef = some n) :
    r.partnerRef = none ∧ r.awaiting = false := by
  rw [HeldRecord.firstRef_iff] at h
  simp [HeldRecord.partnerRef, HeldRecord.awaiting, HeldRecord.firstPart, h]

theorem HeldRecord.first_of_awaiting {r : HeldRecord} (h : r.awaiting = true) : r.firstRef = none := by
  cases first : r.firstRef with
  | none => rfl
  | some n =>
    obtain ⟨-, not⟩ := HeldRecord.partner_alone first
    rw [h] at not
    cases not

theorem mem_links {s : State} {r : HeldRecord} (h : r ∈ s.hold.records) : r.link ∈ links s := List.mem_map_of_mem h

theorem refs_eq (s : State) : (links s).map (·.ref) = s.hold.records.map (·.ref) := List.map_map

/-- The three invariants are the one of the links. -/
theorem linked_iff (s : State) : Linked s ↔ RefsDistinct s ∧ PartnersLinked s ∧ BindingsSound s := by
  constructor
  · intro h
    refine ⟨⟨?_, fun r hr => h.given r.link (mem_links hr)⟩, ⟨fun r hr n hn => ?_, fun q hq n hn => ?_⟩, h.once,
      fun n hn => ⟨h.numbered n hn, fun r hr same => h.awaited n hn r.link (mem_links hr) same⟩,
      fun r hr hw => h.alone r.link (mem_links hr) hw⟩
    · rw [← refs_eq]
      exact h.distinct
    · obtain ⟨y, hy, ref, names⟩ := h.partners r.link (mem_links hr) n hn
      obtain ⟨q, hq, rfl⟩ := List.mem_map.1 hy
      exact ⟨q, hq, ref, HeldRecord.firstRef_iff.1 names⟩
    · obtain ⟨y, hy, ref, names⟩ := h.firsts q.link (mem_links hq) n (HeldRecord.firstRef_iff.2 hn)
      obtain ⟨r, hr, rfl⟩ := List.mem_map.1 hy
      exact ⟨r, hr, ref, names⟩
  · rintro ⟨⟨distinct, given⟩, ⟨partners, firsts⟩, once, refers, alone⟩
    have all {p : Link → Prop} (h : ∀ r ∈ s.hold.records, p r.link) : ∀ x ∈ links s, p x := by
      intro x hx
      obtain ⟨r, hr, rfl⟩ := List.mem_map.1 hx
      exact h r hr
    refine ⟨by rw [refs_eq]; exact distinct, all given, all fun r hr n hn => ?_, all fun q hq n hn => ?_,
      all fun r _ n hn => (HeldRecord.partner_alone hn).1, once, fun n hn => (refers n hn).1,
      fun n hn => all (refers n hn).2, all alone⟩
    · obtain ⟨q, hq, ref, names⟩ := partners r hr n hn
      exact ⟨q.link, mem_links hq, ref, HeldRecord.firstRef_iff.2 names⟩
    · obtain ⟨r, hr, ref, names⟩ := firsts q hq n (HeldRecord.firstRef_iff.1 hn)
      exact ⟨r.link, mem_links hr, ref, names⟩

/-! ### What the Judges refer to -/

/-- The record a bind context refers to. -/
def boundRefs (c : Option BindContext) : List Nat :=
  match c with
  | some ⟨_, .held n, _, _, _⟩ => [n]
  | _ => []

/-- The record the second in judgement belongs to. -/
def secondRefs (x : JudgePhase) : List Nat :=
  match x with
  | .waiting (.telegram _ (.secondHeld n _) _) => [n]
  | .lookup (.telegram _ (.secondHeld n _) _) _ => [n]
  | _ => []

theorem heldByJudge_eq (j : Judge) : heldByJudge j = boundRefs j.bind ++ secondRefs j.phase := by
  unfold heldByJudge boundRefs secondRefs
  congr 1
  cases j.bind with
  | none => rfl
  | some c =>
    obtain ⟨source, outcome, particulars, deadline, reached⟩ := c
    cases outcome <;> rfl

theorem boundRefs_held {c : BindContext} {n : Nat} (h : c.outcome = .held n) : boundRefs (some c) = [n] := by
  obtain ⟨source, outcome, particulars, deadline, reached⟩ := c
  cases h
  rfl

/-- The references of the two Judges, those of one port first. -/
theorem heldRefs_perm (p : Port) (s : State) :
    (heldRefs s).Perm (heldByJudge (s.judges.get p) ++ heldByJudge (s.judges.get (otherPort p))) := by
  cases p
  · exact .refl _
  · exact List.perm_append_comm

/-- A Judge changed: its references, and those of the other as they were. -/
theorem heldRefs_mapJudge (p : Port) (f : Judge → Judge) (s : State) :
    (heldRefs (s.mapJudge p f)).Perm
      (heldByJudge (f (s.judges.get p)) ++ heldByJudge (s.judges.get (otherPort p))) := by
  cases p
  · exact .refl _
  · exact List.perm_append_comm

end Sys2Proof.Machine
end

section
/-! SUPPORT. The operations of the Hold Queue and of the Judges on the links of held records: those that leave them, those
that take a first out with its partner, those that add one (R49, R53, R100, R105, R116). -/

namespace Sys2Proof.Machine

variable {s t u : State} {r : HeldRecord}

/-- `t` has the links and the numbers of `s`, and its Judges refer to no more than those of `s`. -/
structure LinkFrame (s t : State) : Prop where
  links : links t = links s
  next : t.hold.nextRef = s.hold.nextRef
  held : (heldRefs t).Subperm (heldRefs s)

/-- The links of `t` are those of `s` that a test lets stay. -/
structure LinksCut (p : Link → Bool) (s t : State) : Prop where
  links : links t = (Machine.links s).filter p
  next : t.hold.nextRef = s.hold.nextRef
  held : (heldRefs t).Subperm (heldRefs s)

/-- A first record is held, up to what links it to others. -/
structure FirstHeld (r : HeldRecord) (s : State) : Prop where
  mem : r.link ∈ links s
  first : r.firstRef = none

/-! ### What leaves the links -/

namespace LinkFrame

theorem refl (s : State) : LinkFrame s s := ⟨rfl, rfl, .refl _⟩

theorem trans (a : LinkFrame s t) (b : LinkFrame t u) : LinkFrame s u :=
  ⟨b.links.trans a.links, b.next.trans a.next, b.held.trans a.held⟩

theorem of_same (hold : t.hold = s.hold) (judges : t.judges = s.judges) : LinkFrame s t := by
  refine ⟨?_, ?_, ?_⟩
  · rw [Machine.links, hold, Machine.links]
  · rw [hold]
  · rw [heldRefs, judges, heldRefs]

/-- An operation after a change that leaves the Hold Queue and the Judges. -/
theorem before (f : LinkFrame t u) (hold : t.hold = s.hold) (judges : t.judges = s.judges) : LinkFrame s u :=
  (of_same hold judges).trans f

theorem of_out (h : SameButOut s t) : LinkFrame s t := of_same h.hold h.judges

/-- A change of the Hold Queue beside its records. -/
theorem setHold (x : HoldQueue) (records : x.records = s.hold.records) (next : x.nextRef = s.hold.nextRef) :
    LinkFrame s (s.setHold x) := ⟨congrArg (List.map HeldRecord.link) records, next, .refl _⟩

theorem mapJudge (p : Port) (f : Judge → Judge) (s : State)
    (h : (heldByJudge (f (s.judges.get p))).Subperm (heldByJudge (s.judges.get p))) :
    LinkFrame s (s.mapJudge p f) :=
  ⟨rfl, rfl, (heldRefs_mapJudge p f s).subperm.trans
    (((List.subperm_append_right _).2 h).trans (heldRefs_perm p s).symm.subperm)⟩

/-- A Judge changed beside its binding and its phase. -/
theorem mapJudge_same (p : Port) (f : Judge → Judge) (s : State)
    (bind : (f (s.judges.get p)).bind = (s.judges.get p).bind)
    (phase : (f (s.judges.get p)).phase = (s.judges.get p).phase) : LinkFrame s (s.mapJudge p f) := by
  refine mapJudge p f s ?_
  rw [heldByJudge_eq, heldByJudge_eq, bind, phase]

/-- A binding that refers to no record. -/
theorem setBind (p : Port) (x : Option BindContext) (s : State) (none : boundRefs x = []) :
    LinkFrame s (setBind p x s) := by
  refine mapJudge p _ s ?_
  rw [heldByJudge_eq, heldByJudge_eq, none]
  exact (List.sublist_append_right _ _).subperm

/-- A Judge that goes to a phase with no second of a held first. -/
theorem setPhase (p : Port) (x : JudgePhase) (s : State) (none : secondRefs x = []) :
    LinkFrame s (setPhase p x s) := by
  refine mapJudge p _ s ?_
  rw [heldByJudge_eq, heldByJudge_eq, none, List.append_nil]
  exact (List.sublist_append_left _ _).subperm

theorem setRecords (f : HeldRecord → HeldRecord) (h : ∀ r ∈ s.hold.records, (f r).link = r.link) :
    LinkFrame s (s.setRecords (s.hold.records.map f)) := by
  refine ⟨?_, rfl, .refl _⟩
  exact List.map_map.trans (List.map_congr_left h)

theorem mapRecord (n : Nat) (f : HeldRecord → HeldRecord)
    (h : ∀ r ∈ s.hold.records, r.ref = n → (f r).link = r.link) : LinkFrame s (mapRecord n f s) := by
  refine setRecords _ fun r hr => ?_
  split
  · next same => exact h r hr same
  · rfl

theorem setPolicer (x : Policer) (s : State) : LinkFrame s (s.setPolicer x) := of_same rfl rfl

theorem countPassed (i : Option Index) (s : State) : LinkFrame s (countPassed i s) := by
  cases i <;> exact of_same rfl rfl

theorem countRefused (i : Option Index) (s : State) : LinkFrame s (countRefused i s) := by
  cases i <;> exact of_same rfl rfl

theorem countHeld (i : Option Index) (s : State) : LinkFrame s (countHeld i s) := by
  cases i <;> exact of_same rfl rfl

theorem consume (i : Option Index) (c : HeldContext) (s : State) : LinkFrame s (consume i c s) := by
  unfold Machine.consume requestCredit
  split
  · split
    · exact .refl s
    · split <;> exact of_same rfl rfl
  · exact .refl s

theorem rejudgeConsume (v : RejudgeVerdict) (s : State) : LinkFrame s (rejudgeConsume v s) := by
  cases v with
  | pass x => exact consume _ _ _
  | hold _ _ _ => exact .refl s
  | refuse _ _ => exact .refl s

theorem refuseTelegram (p : Port) (b : BufId) (l : List Byte) (x : Reason) (i : Option Index) (s : State) :
    LinkFrame s (refuseTelegram p b l x i s) :=
  ((of_out (release_out b s)).trans (of_out (handOver_out _ _))).trans (countRefused i _)

theorem reportFate (r : HeldRecord) (s : State) : LinkFrame s (reportFate r s) := by
  unfold Machine.reportFate
  split
  · exact setBind _ none s rfl
  · exact .refl s

theorem withdraw (r : HeldRecord) (s : State) : LinkFrame s (withdraw r s) := by
  unfold Machine.withdraw
  split
  · exact (mapJudge_same r.port (fun j => { j with slot := none }) s rfl rfl).trans (setHold _ rfl rfl)
  · exact .refl s

theorem staleRequest (p : Port) (s : State) : LinkFrame s (staleRequest p s) := by
  unfold Machine.staleRequest
  split
  · exact .refl s
  · split
    · exact (mapJudge_same p (fun j => { j with slot := none }) s rfl rfl).trans (setHold _ rfl rfl)
    · exact setHold _ rfl rfl

theorem markPending (s : State) : LinkFrame s (markPending s) :=
  ((setRecords (fun r => { r with pending := true }) fun _ _ => rfl).trans (staleRequest .n _)).trans (staleRequest .f _)

theorem endRequest (p : Port) (s : State) : LinkFrame s (endRequest p s) := setHold _ rfl rfl

theorem clearPending (r : HeldRecord) (s : State) : LinkFrame s (clearPending r s) := by
  have first : LinkFrame s (Machine.mapRecord r.ref (fun q => { q with pending := false }) s) :=
    mapRecord _ _ fun _ _ _ => rfl
  unfold Machine.clearPending
  dsimp only
  split
  · exact first.trans (mapRecord _ _ fun _ _ _ => rfl)
  · exact first

theorem beginScans (w : List ScanKind) (s : State) : LinkFrame s (s.setHold (beginScans s.hold w)) := by
  obtain ⟨records, next⟩ := HandsKeep.beginScans_same s.hold w
  exact setHold _ records next

theorem trigger (k : ScanKind) (s : State) : LinkFrame s (trigger k s) := by
  unfold Machine.trigger
  split
  · exact beginScans _ s
  · exact setHold _ rfl rfl

theorem endScan (s : State) : LinkFrame s (endScan s) := by
  unfold Machine.endScan
  split
  · exact beginScans _ s
  · exact .refl s

theorem stay (r : HeldRecord) (x : HoldReason) (s : State) : LinkFrame s (stay r x s) := by
  refine mapRecord _ _ fun q _ _ => ?_
  obtain ⟨ref, buffer, port, dest, bank, index, outDest, list, stamp, pending, role⟩ := q
  cases role <;> rfl

/-- An outcome that refers to no record. -/
theorem writeOutcome (p : Port) (x : JudgedAs) (o : BindOutcome) (y : Particulars) (s : State)
    (none : ∀ n, o ≠ .held n) : LinkFrame s (writeOutcome p x o y s) := by
  unfold Machine.writeOutcome
  split
  · refine setBind _ _ s ?_
    cases o with
    | held n => exact absurd rfl (none n)
    | pending => rfl
    | passed _ => rfl
    | refused => rfl
  · exact .refl s

theorem concludeRefuse (p : Port) (b : BufId) (x : JudgedAs) (d : Described) (y : Reason) (i : Option Index)
    (s : State) : LinkFrame s (concludeRefuse p b x d y i s) :=
  (refuseTelegram _ _ _ _ _ s).trans (writeOutcome _ _ _ _ _ fun _ h => by cases h)

theorem concludePass (p : Port) (b : BufId) (x : JudgedAs) (d : Described) (y : Facts) (k : ListKind) (s : State) :
    LinkFrame s (concludePass p b x d y k s) := by
  have ready : LinkFrame s (prepareBuffer b y.outDest y.stamp s) := of_out (prepareBuffer_out _ _ _ _)
  unfold Machine.concludePass
  dsimp only
  split
  · next appended =>
    exact (ready.trans (of_out (txAppend_out appended))).trans
      ((countPassed _ _).trans (writeOutcome _ _ _ _ _ fun _ h => by cases h))
  · exact ready.trans ((refuseTelegram _ _ _ _ _ _).trans (writeOutcome _ _ _ _ _ fun _ h => by cases h))

end LinkFrame

theorem Linked.frame (h : Linked s) (f : LinkFrame s t) : Linked t := by
  have fewer := LinksSound.fewer h f.held
  rwa [← f.links, ← f.next] at fewer

theorem FirstHeld.frame (h : FirstHeld r s) (f : LinkFrame s t) : FirstHeld r t := ⟨f.links ▸ h.mem, h.first⟩

theorem firstHeld_of_heldRecord {n : Nat} {f : FirstPart} (h : s.heldRecord n = some r) (first : r.firstPart = some f) :
    FirstHeld r s := by
  refine ⟨mem_links (List.mem_of_find?_eq_some h), ?_⟩
  rw [HeldRecord.firstRef, HeldRecord.firstRef_of_firstPart first]

theorem ref_of_heldRecord {n : Nat} (h : s.heldRecord n = some r) : r.ref = n := by
  simpa using List.find?_some h

/-! ### What takes a first out with its partner -/

namespace LinksCut

variable {p q : Link → Bool}

theorem of_frame (f : LinkFrame s t) (all : ∀ y ∈ Machine.links s, p y = true) : LinksCut p s t :=
  ⟨f.links.trans (List.filter_eq_self.2 all).symm, f.next, f.held⟩

theorem frame (a : LinksCut p s t) (b : LinkFrame t u) : LinksCut p s u :=
  ⟨b.links.trans a.links, b.next.trans a.next, b.held.trans a.held⟩

theorem after (a : LinkFrame s t) (b : LinksCut p t u) : LinksCut p s u :=
  ⟨b.links.trans (by rw [a.links]), b.next.trans a.next, b.held.trans a.held⟩

theorem trans (a : LinksCut p s t) (b : LinksCut q t u) : LinksCut (fun y => p y && q y) s u := by
  refine ⟨?_, b.next.trans a.next, b.held.trans a.held⟩
  rw [b.links, a.links, List.filter_filter]
  simp only [Bool.and_comm]

theorem dropRecord (n : Nat) (s : State) : LinksCut (fun y => y.ref != n) s (dropRecord n s) :=
  ⟨(List.filter_map (f := HeldRecord.link) (p := fun y => y.ref != n) (l := s.hold.records)).symm, rfl, .refl _⟩

theorem takeOut (r : HeldRecord) (x : Reason) (i : Option Index) (s : State) :
    LinksCut (fun y => y.ref != r.ref) s (takeOut r x i s) :=
  (dropRecord r.ref s).frame ((LinkFrame.of_out (release_out _ _)).trans (.of_out (handOver_out _ _)))

/-- What a first's partner has to do: the record the first names goes. -/
theorem partner_of_ref (q : HeldRecord) {n : Nat} (names : r.partnerRef = some n) (ref : q.ref = n)
    (c : LinksCut (fun y => y.ref != q.ref) s t) : LinksCut (fun y => r.link.partner != some y.ref) s t := by
  have same : (fun y : Link => y.ref != q.ref) = fun y => r.link.partner != some y.ref := by
    funext y
    rw [show r.link.partner = some q.ref from names.trans (congrArg some ref.symm), bne_comm]
    rfl
  rwa [same] at c

theorem partner_of_none (names : r.partnerRef = none) (f : LinkFrame s t) :
    LinksCut (fun y => r.link.partner != some y.ref) s t :=
  of_frame f fun y _ => by rw [show r.link.partner = none from names]; rfl

theorem partner_of_gone {n : Nat} (names : r.partnerRef = some n) (gone : s.heldRecord n = none) (f : LinkFrame s t) :
    LinksCut (fun y => r.link.partner != some y.ref) s t := by
  refine of_frame f fun y hy => ?_
  obtain ⟨q, hq, rfl⟩ := List.mem_map.1 hy
  have other := List.find?_eq_none.1 gone q hq
  rw [show r.link.partner = some n from names]
  exact bne_iff_ne.2 fun same => other (beq_iff_eq.2 (Option.some.inj same).symm)

theorem takeOutPartner (r : HeldRecord) (s : State) :
    LinksCut (fun y => r.link.partner != some y.ref) s (takeOutPartner r s) := by
  unfold Machine.takeOutPartner
  split
  · next names => exact partner_of_none names (.refl s)
  · next n names =>
    split
    · next gone => exact partner_of_gone names gone (.refl s)
    · next q held => exact partner_of_ref q names (ref_of_heldRecord held) (takeOut q _ _ s)

theorem releasePartner (r : HeldRecord) (s : State) :
    LinksCut (fun y => r.link.partner != some y.ref) s (releasePartner r s) := by
  unfold Machine.releasePartner
  split
  · next names => exact partner_of_none names (.refl s)
  · next n names =>
    split
    · next gone => exact partner_of_gone names gone (.refl s)
    · next q held =>
      have ready : LinkFrame s (prepareBuffer q.buffer q.outDest q.stamp s) := .of_out (prepareBuffer_out _ _ _ _)
      refine partner_of_ref q names (ref_of_heldRecord held) ?_
      dsimp only
      split
      · next appended =>
        exact (after (ready.trans (.of_out (txAppend_out appended))) (dropRecord _ _)).frame (.countPassed _ _)
      · exact (after ready (takeOut q _ _ _)).frame (.countRefused _ _)

theorem removeFirst (r : HeldRecord) (x : Reason) (i : Option Index) (s : State) :
    LinksCut r.link.outlives s (removeFirst r x i s) :=
  (((takeOut r x i s).trans (takeOutPartner r _)).frame (.reportFate r _)).frame (.withdraw r _)

theorem removeCounted (r : HeldRecord) (x : Reason) (i : Option Index) (s : State) :
    LinksCut r.link.outlives s (removeCounted r x i s) := (removeFirst r x i s).frame (.countRefused i _)

theorem releaseFirst (r : HeldRecord) (s : State) : LinksCut r.link.outlives s (releaseFirst r s) := by
  have ready : LinkFrame s (prepareBuffer r.buffer r.outDest r.stamp s) := .of_out (prepareBuffer_out _ _ _ _)
  unfold Machine.releaseFirst
  dsimp only
  split
  · next appended =>
    have left := (after (ready.trans (.of_out (txAppend_out appended))) (dropRecord r.ref _)).frame
      (.countPassed r.index _)
    exact left.trans (releasePartner r _)
  · exact after ready (removeCounted r _ _ _)

end LinksCut

namespace Linked

theorem cut (h : Linked s) (c : LinksCut r.link.outlives s t) (held : FirstHeld r s) : Linked t := by
  have left := (LinksSound.without h held.mem held.first).fewer c.held
  rwa [← c.links, ← c.next] at left

theorem removeFirst (h : Linked s) (held : FirstHeld r s) (x : Reason) (i : Option Index) :
    Linked (removeFirst r x i s) := h.cut (.removeFirst r x i s) held

theorem removeCounted (h : Linked s) (held : FirstHeld r s) (x : Reason) (i : Option Index) :
    Linked (removeCounted r x i s) := h.cut (.removeCounted r x i s) held

theorem releaseFirst (h : Linked s) (held : FirstHeld r s) : Linked (releaseFirst r s) :=
  h.cut (.releaseFirst r s) held

/-- A record of a reference removed, where it is a first. -/
theorem removeRef (h : Linked s) (x : Reason) (n : Nat) (first : ∀ y ∈ links s, y.ref = n → y.first = none) :
    Linked (removeRef x s n) := by
  unfold Machine.removeRef
  split
  · next r held =>
    have mem := mem_links (List.mem_of_find?_eq_some held)
    exact h.removeFirst ⟨mem, first r.link mem (ref_of_heldRecord held)⟩ _ _
  · exact h

theorem removeRef_links (x : Reason) (n : Nat) (s : State) : (links (Machine.removeRef x s n)).Sublist (links s) := by
  unfold Machine.removeRef
  split
  · next r _ =>
    rw [(LinksCut.removeFirst r x r.index s).links]
    exact List.filter_sublist
  · exact .refl _

/-- Firsts removed one after another. -/
theorem removeRefs (x : Reason) (l : List Nat) : ∀ {s : State}, Linked s →
    (∀ n ∈ l, ∀ y ∈ links s, y.ref = n → y.first = none) → Linked (l.foldl (Machine.removeRef x) s) := by
  induction l with
  | nil => exact fun h _ => h
  | cons n l ih =>
    intro s h firsts
    refine ih (h.removeRef x n (firsts n (List.mem_cons_self ..))) fun m hm y hy =>
      firsts m (List.mem_cons_of_mem n hm) y ((removeRef_links x n s).subset hy)

theorem removeAll (h : Linked s) (x : Reason) (pick : HeldRecord → FirstPart → Bool) : Linked (removeAll x pick s) := by
  refine removeRefs x _ h fun n hn y hy same => ?_
  obtain ⟨r, hr, rfl⟩ := List.mem_map.1 hn
  obtain ⟨hr, picked⟩ := List.mem_filter.1 hr
  rw [LinksSound.eq_of_ref h hy (mem_links hr) same]
  cases first : r.firstPart with
  | none =>
    rw [first] at picked
    cases picked
  | some f =>
    rw [HeldRecord.link, HeldRecord.firstRef, HeldRecord.firstRef_of_firstPart first]

theorem flushHeld (h : Linked s) (x : Option Index) : Linked (flushHeld x s) := by
  cases x <;> exact h.removeAll _ _

/-! ### Evaluations (R101, R103, R106) -/

theorem evaluate (h : Linked s) (held : FirstHeld r s) (f : FirstPart) : Linked (evaluate r f s) := by
  unfold Machine.evaluate
  split
  · exact h.removeCounted held _ _
  · exact h.frame (.stay _ _ s)
  · have spent := LinkFrame.consume r.index f.context s
    exact (h.frame spent).releaseFirst (held.frame spent)

theorem catchUp (h : Linked s) (held : FirstHeld r s) (f : FirstPart) : Linked (catchUp r f s) := by
  unfold Machine.catchUp
  split
  · exact h.removeCounted held _ _
  · split
    · exact h.evaluate held f
    · exact h

theorem admissionTest (h : Linked s) (held : FirstHeld r s) (f : FirstPart) : Linked (admissionTest r f s) := by
  unfold Machine.admissionTest
  split
  · split
    · exact h.removeCounted held _ _
    · exact h
  · exact h.catchUp held f

theorem afterPartner (h : Linked s) (n : Nat) : Linked (afterPartner n s) := by
  unfold Machine.afterPartner
  split
  · exact h
  · next held =>
    split
    · exact h
    · next f first =>
      have stands := firstHeld_of_heldRecord held first
      split
      · exact h
      · split
        · exact h.releaseFirst stands
        · exact h.evaluate stands f

theorem scanStep (h : Linked s) : Linked (scanStep s) := by
  unfold Machine.scanStep
  split
  · exact h
  · exact h.frame (.endScan s)
  · next k n rest _ =>
    refine Linked.frame ?_ (.endScan _)
    have left : Linked (s.setHold { s.hold with scan := some ⟨k, rest⟩ }) := h.frame (.setHold _ rfl rfl)
    unfold scanRecord
    split
    · exact left
    · next held =>
      split
      · exact left
      · next f first =>
        split
        · exact left.evaluate (firstHeld_of_heldRecord held first) f
        · exact left

/-! ### The verdict of a rejudge (R116) -/

/-- A held record replaced by one with its link. -/
theorem replaced_frame (h : Linked s) (held : FirstHeld r s) {r' : HeldRecord} (same : r'.link = r.link) :
    LinkFrame s (mapRecord r.ref (fun _ => r') s) :=
  .mapRecord _ _ fun _ hq ref => same.trans (LinksSound.eq_of_ref h held.mem (mem_links hq) ref.symm)

end Linked

/-- A first record with new facts, and a part that keeps its partner and its mark, has its old link. -/
theorem link_of_parts {f f' : FirstPart} (x : Facts) (first : r.firstPart = some f) (partner : f'.partner = f.partner)
    (awaiting : f'.awaiting = f.awaiting) : ({ r.takeFacts x with role := .first f' } : HeldRecord).link = r.link := by
  have role := HeldRecord.firstRef_of_firstPart first
  simp [HeldRecord.link, HeldRecord.partnerRef, HeldRecord.awaiting, HeldRecord.firstPart, HeldRecord.firstRef,
    HeldRecord.takeFacts, role, partner, awaiting]

namespace Linked

theorem verdictPass (h : Linked s) (held : FirstHeld r s) {f : FirstPart} (first : r.firstPart = some f) (x : Facts) :
    Linked (verdictPass r f x s) := by
  unfold Machine.verdictPass
  extract_lets f' old r' s1
  have same : r'.link = r.link := link_of_parts x first rfl rfl
  have renewed : LinkFrame s s1 := h.replaced_frame held same
  split
  · exact h.frame renewed
  · exact (h.frame renewed).releaseFirst (⟨same ▸ renewed.links ▸ held.mem, rfl⟩ : FirstHeld r' s1)

theorem verdictHold (h : Linked s) (held : FirstHeld r s) {f : FirstPart} (first : r.firstPart = some f) (x : Facts)
    (y : HoldReason) (n : Nat) : Linked (verdictHold r f x y n s) := by
  unfold Machine.verdictHold
  extract_lets deadline past f' old r' s1
  have same : r'.link = r.link := link_of_parts x first rfl rfl
  have renewed : LinkFrame s s1 := h.replaced_frame held same
  have stands : FirstHeld r' s1 := ⟨same ▸ renewed.links ▸ held.mem, rfl⟩
  split
  · exact (h.frame renewed).removeFirst stands _ _
  · split
    · exact h.frame renewed
    · exact (h.frame renewed).catchUp stands f'

theorem carryVerdict (h : Linked s) (held : FirstHeld r s) {f : FirstPart} (first : r.firstPart = some f)
    (v : RejudgeVerdict) : Linked (carryVerdict r f v s) := by
  have cleared := LinkFrame.clearPending r s
  cases v with
  | pass x => exact (h.frame cleared).verdictPass (held.frame cleared) first x
  | hold x y n => exact (h.frame cleared).verdictHold (held.frame cleared) first x y n
  | refuse x i => exact (h.frame cleared).removeCounted (held.frame cleared) x i

theorem concludeRejudge (h : Linked s) (p : Port) (n : Nat) (k : Bank) (x : LookupStop) :
    Linked (concludeRejudge p n k x s) := by
  unfold Machine.concludeRejudge
  split
  · exact h.frame (.endRequest p s)
  · next r held =>
    split
    · exact h.frame (.endRequest p s)
    · next f first =>
      have spent := (LinkFrame.rejudgeConsume (verdictOf s k x (describe p (s.buffer r.buffer).bytes)) s).trans
        (.endRequest p _)
      dsimp only
      split
      · exact h.frame spent
      · exact (h.frame spent).carryVerdict ((firstHeld_of_heldRecord held first).frame spent) first _

end Linked

end Sys2Proof.Machine
end

section
/-! SUPPORT. The links of held records at every event: the admissions of a first and of a partner, the end of a binding, a
second that takes over the reference of its first; then every step (R46 to R53, R100). -/

namespace Sys2Proof.Machine

variable {s t u : State} {r : HeldRecord}

/-! ### A reference no Judge has any more -/

/-- A number that the Judges do not refer to and whose record, if it is held, still awaits its partner. -/
structure Unreferred (n : Nat) (s : State) : Prop where
  given : n < s.hold.nextRef
  awaits : ∀ x ∈ links s, x.ref = n → x.awaiting = true
  unreferred : n ∉ heldRefs s

theorem Unreferred.frame {n : Nat} (h : Unreferred n s) (f : LinkFrame s t) : Unreferred n t where
  given := f.next ▸ h.given
  awaits := f.links ▸ h.awaits
  unreferred hn := h.unreferred (f.held.subset hn)

/-- The record of a number that is not referred to is a first. -/
theorem Unreferred.first {n : Nat} (h : Unreferred n s) : ∀ x ∈ links s, x.ref = n → x.first = none := by
  intro x hx same
  obtain ⟨q, hq, rfl⟩ := List.mem_map.1 hx
  exact HeldRecord.first_of_awaiting (h.awaits _ hx same)

/-- A Judge that gives up a reference: what remains of its references and those of the other Judge. -/
theorem Linked.unreferred {n : Nat} {rest : List Nat} (h : Linked s) (had : (heldRefs s).Perm (n :: rest))
    (links : links t = links s) (next : t.hold.nextRef = s.hold.nextRef) (held : (heldRefs t).Subperm rest) :
    Unreferred n t := by
  have member : n ∈ heldRefs s := had.mem_iff.2 (List.mem_cons_self ..)
  refine ⟨next ▸ h.numbered n member, links ▸ h.awaited n member, fun hn => ?_⟩
  exact (List.nodup_cons.1 (had.nodup_iff.1 h.once)).1 (held.subset hn)

namespace Linked

theorem dropBroken {n : Nat} (h : Linked s) (free : Unreferred n s) : Linked (dropBroken n s) :=
  h.removeRef _ n free.first

/-! ### The end of a binding, and the bind test (R46, R47, R52) -/

/-- A context that refers to a held record is closed: its record still awaits its partner. -/
theorem unbound_free (h : Linked s) {p : Port} {c : BindContext} {n : Nat} (bind : (s.judges.get p).bind = some c)
    (outcome : c.outcome = .held n) : Unreferred n (setBind p none s) := by
  refine h.unreferred (rest := secondRefs (s.judges.get p).phase ++ heldByJudge (s.judges.get (otherPort p)))
    ((heldRefs_perm p s).trans ?_) rfl rfl (heldRefs_mapJudge p _ s).subperm
  rw [heldByJudge_eq, bind, boundRefs_held outcome]
  exact .refl _

theorem endBinding (h : Linked s) {p : Port} {c : BindContext} (bind : (s.judges.get p).bind = some c) :
    Linked (endBinding p c s) := by
  have closed : LinkFrame s (setBind p none s) := .setBind p none s rfl
  unfold Machine.endBinding
  dsimp only
  split
  · next outcome => exact (h.frame closed).dropBroken (h.unbound_free bind outcome)
  · exact h.frame (closed.trans (.of_out (handOver_out _ _)))
  · exact h.frame closed
  · exact h.frame closed

/-- A context marked reached refers to what it referred to. -/
theorem reached_frame (p : Port) (c : BindContext) (bind : (s.judges.get p).bind = some c) :
    LinkFrame s (setBind p (some { c with reached := true }) s) := by
  refine .mapJudge p _ s ?_
  rw [heldByJudge_eq, heldByJudge_eq, bind]
  obtain ⟨source, outcome, particulars, deadline, reached⟩ := c
  cases outcome <;> exact .refl _

theorem bindDeadlineAt (h : Linked s) (p : Port) : Linked (bindDeadlineAt p s) := by
  unfold Machine.bindDeadlineAt
  split
  · exact h
  · next c bind =>
    split
    · split
      · exact h.frame (reached_frame p c bind)
      · exact h.endBinding bind
    · exact h

theorem endReached (h : Linked s) {p : Port} (ended : endReached p s = some t) : Linked t := by
  unfold Machine.endReached at ended
  split at ended
  · cases ended
  · next c bind =>
    split at ended
    · cases ended
      exact h.endBinding bind
    · cases ended

theorem bindFirst (h : Linked s) (p : Port) (b : BufId) : Linked (bindFirst p b s) := by
  unfold Machine.bindFirst
  split
  · exact (h.frame (.setBind p _ s rfl)).frame (.setPhase p _ _ rfl)
  · exact h.frame (.setPhase p _ s rfl)

/-- The second of a held first takes the reference over from the context. -/
theorem second_frame (p : Port) (c : BindContext) (n : Nat) (it : Item) (bind : (s.judges.get p).bind = some c)
    (outcome : c.outcome = .held n) (second : secondRefs (.waiting it) = [n]) :
    LinkFrame s (setPhase p (.waiting it) (setBind p none s)) := by
  have taken : setPhase p (.waiting it) (setBind p none s) =
      s.mapJudge p fun j => { j with bind := none, phase := .waiting it } := by
    simp [setPhase, setBind, State.mapJudge, State.setJudges]
  rw [taken]
  refine .mapJudge p _ s ?_
  rw [heldByJudge_eq, heldByJudge_eq, second, bind, boundRefs_held outcome]
  exact (List.sublist_append_left _ _).subperm

theorem bindSecond (h : Linked s) {p : Port} {c : BindContext} (b : BufId) (bind : (s.judges.get p).bind = some c) :
    Linked (bindSecond p b c s) := by
  have closed : LinkFrame s (setBind p none s) := .setBind p none s rfl
  unfold Machine.bindSecond
  dsimp only
  split
  · exact (h.frame closed).frame (.setPhase p _ _ rfl)
  · next n outcome => exact h.frame (second_frame p c n _ bind outcome rfl)
  · exact (h.frame closed).frame (.refuseTelegram _ _ _ _ _ _)
  · exact (h.frame closed).frame (.setPhase p _ _ rfl)

theorem bindTest (h : Linked s) (p : Port) (b : BufId) : Linked (bindTest p b s) := by
  unfold Machine.bindTest
  split
  · exact h.bindFirst p b
  · next c bind =>
    split
    · exact h.bindSecond b bind
    · exact (h.endBinding bind).bindFirst p b

/-! ### Admissions (R49, R100) -/

theorem admitRecord (h : Linked s) (r : HeldRecord) {a : Bool} (new : r.link = ⟨s.hold.nextRef, none, a, none⟩) :
    Linked (admitRecord r s) := by
  have added : links (Machine.admitRecord r s) = links s ++ [⟨s.hold.nextRef, none, a, none⟩] := by
    rw [← new]
    exact List.map_append
  have admitted := LinksSound.admitted h a
  rwa [← added] at admitted

theorem firstRecord_link (b : BufId) (x : Facts) (y : HoldReason) (n : Nat) (first : Bool) (s : State) :
    (firstRecord b x y n first s).link = ⟨s.hold.nextRef, none, first, none⟩ := rfl

/-- The outcome of a first just admitted that awaits its partner (R40, R45). -/
theorem writeOutcome_held (h : Linked s) (p : Port) (role : JudgedAs) (n : Nat) (y : Particulars)
    (given : n < s.hold.nextRef) (fresh : n ∉ heldRefs s)
    (awaits : role = .first → ∀ x ∈ links s, x.ref = n → x.awaiting = true) :
    Linked (writeOutcome p role (.held n) y s) := by
  unfold Machine.writeOutcome
  split
  · next c _ =>
    have refers : (heldRefs (setBind p (some { c with outcome := .held n, particulars := some y }) s)).Subperm
        (n :: heldRefs s) := by
      refine (heldRefs_mapJudge p _ s).subperm.trans (.trans ?_ ((heldRefs_perm p s).symm.cons n).subperm)
      rw [heldByJudge_eq, heldByJudge_eq]
      exact (((List.sublist_append_right _ _).append_right _).cons_cons n).subperm
    exact (LinksSound.refer h given fresh (awaits rfl)).fewer refers
  · exact h

theorem concludeHold (h : Linked s) (p : Port) (b : BufId) (role : JudgedAs) (d : Described) (x : Facts)
    (y : HoldReason) (n : Nat) : Linked (concludeHold p b role d x y n s) := by
  unfold Machine.concludeHold
  split
  · exact h.frame (.concludeRefuse _ _ _ _ _ _ s)
  · have admitted := h.admitRecord _ (firstRecord_link b x y n role.isFirst s)
    extract_lets r s1 s2
    have fresh : s.hold.nextRef ∉ heldRefs s := fun hn => (h.numbered _ hn).ne rfl
    have added : links (Machine.admitRecord r s) = links s ++ [r.link] := List.map_append
    have written : Linked s1 := by
      refine admitted.writeOutcome_held p role _ _ (Nat.lt_succ_self _) fresh fun first z hz same => ?_
      rcases List.mem_append.1 (added ▸ hz) with old | new
      · exact absurd same (h.given z old).ne
      · rw [List.mem_singleton.1 new]
        change role.isFirst = true
        rw [first]
        rfl
    have counted : LinkFrame s1 s2 := (LinkFrame.countHeld x.index s1).trans (.of_out (holdHighTest_out _))
    have kept : links s1 = links s ++ [r.link] := by
      rw [← added]
      change links (writeOutcome _ _ _ _ _) = _
      unfold Machine.writeOutcome
      split <;> rfl
    have stands : FirstHeld r s1 := ⟨kept ▸ List.mem_append_right _ (List.mem_singleton_self _), rfl⟩
    split
    · next f _ => exact (written.frame counted).admissionTest (stands.frame counted) f
    · exact written.frame counted

theorem concludeOwn (h : Linked s) (p : Port) (b : BufId) (x : JudgedAs) (d : Described) (v : RejudgeVerdict) :
    Linked (concludeOwn p b x d v s) := by
  cases v with
  | pass y => exact (h.frame (.consume _ _ s)).frame (.concludePass _ _ _ _ _ _ _)
  | hold y z n => exact h.concludeHold p b x d y z n
  | refuse y i => exact h.frame (.concludeRefuse _ _ _ _ _ _ s)

/-- The record of a first that gets its partner. -/
theorem mapFirst_link {q : HeldRecord} {n : Nat} (first : q.firstRef = none) :
    (q.mapFirst fun f => { f with partner := some n, awaiting := false }).link = q.link.joined n := by
  obtain ⟨ref, buffer, port, dest, bank, index, outDest, list, stamp, pending, role⟩ := q
  cases role with
  | first f => rfl
  | partner m => cases first

theorem admitPartner (h : Linked s) (b : BufId) (x : Facts) {n : Nat} (held : s.heldRecord n = some r)
    (free : Unreferred n s) : Linked (admitPartner b x n r s) := by
  have mem := mem_links (List.mem_of_find?_eq_some held)
  have ref := ref_of_heldRecord held
  have first := free.first _ mem ref
  have joined := LinksSound.join h mem first (free.awaits _ mem ref) (fun hn => free.unreferred (ref ▸ hn))
  unfold Machine.admitPartner
  extract_lets partner s1
  have linked : links s1 = (links s).map (LinksSound.joinedAt r.link s.hold.nextRef) := by
    change (s.hold.records.map _).map _ = (s.hold.records.map _).map _
    rw [List.map_map, List.map_map]
    refine List.map_congr_left fun q hq => ?_
    change (if q.ref = n then _ else q).link = LinksSound.joinedAt r.link s.hold.nextRef q.link
    have same : q.link.ref = r.link.ref ↔ q.ref = n := by rw [← ref]; rfl
    by_cases named : q.ref = n
    · rw [if_pos named, LinksSound.joinedAt, if_pos (same.2 named)]
      exact mapFirst_link (free.first _ (mem_links hq) named)
    · rw [if_neg named, LinksSound.joinedAt, if_neg (mt same.1 named)]
  have admitted : Linked (Machine.admitRecord partner s1) := by
    have added : links (Machine.admitRecord partner s1) =
        (links s).map (LinksSound.joinedAt r.link s.hold.nextRef) ++ [⟨s.hold.nextRef, none, false, some r.link.ref⟩] := by
      refine (List.map_append (l₁ := s1.hold.records)).trans ?_
      rw [← linked, show r.link.ref = n from ref]
      rfl
    rwa [← added] at joined
  exact (admitted.frame (.of_out (holdHighTest_out _))).afterPartner n

/-! ### The conclusion of a judgement (R48 to R50) -/

theorem concludeAfterPassed (h : Linked s) (p : Port) (b : BufId) (k : ListKind) (first : Option Particulars)
    (d : Described) (v : RejudgeVerdict) : Linked (concludeAfterPassed p b k first d v s) := by
  cases v with
  | pass x => exact h.frame (.concludePass _ _ _ _ _ _ s)
  | hold x y n => exact h
  | refuse x i => exact h.frame (.concludeRefuse _ _ _ _ _ _ s)

theorem concludeAfterHeld (h : Linked s) (p : Port) (b : BufId) {n : Nat} (first : Option Particulars)
    (d : Described) (v own : RejudgeVerdict) (free : Unreferred n s) :
    Linked (concludeAfterHeld p b n first d v own s) := by
  have refused := fun x i => LinkFrame.concludeRefuse p b (.secondHeld n first) d x i s
  cases v with
  | pass x =>
    unfold Machine.concludeAfterHeld offerPartner
    dsimp only
    split
    · exact (h.frame (refused _ _)).dropBroken (free.frame (refused _ _))
    · split
      · exact h.concludeOwn p b .plain d own
      · next held =>
        have counted := LinkFrame.countHeld x.index s
        refine (h.frame counted).admitPartner b x ?_ (free.frame counted)
        rw [← held]
        cases x.index <;> rfl
  | hold x y m => exact h
  | refuse x i => exact (h.frame (refused _ _)).dropBroken (free.frame (refused _ _))

theorem concludeItem (h : Linked s) (p : Port) (it : Item) (k : Bank) (x : LookupStop)
    (free : ∀ n, secondRefs (.waiting it) = [n] → Unreferred n s) : Linked (concludeItem p it k x s) := by
  cases it with
  | rejudge n key => exact h.concludeRejudge p n k x
  | telegram b role key =>
    cases role with
    | plain => exact h.concludeOwn _ _ _ _ _
    | first => exact h.concludeOwn _ _ _ _ _
    | secondPassed list first => exact h.concludeAfterPassed _ _ _ _ _ _
    | secondHeld n first => exact h.concludeAfterHeld _ _ _ _ _ _ (free n rfl)

/-! ### Lookups -/

theorem joinPoison_frame (b : Bank) (i : Index) (s : State) : LinkFrame s (joinPoison b i s) := by
  unfold joinPoison reportPoison
  dsimp only
  split <;> exact .of_same rfl rfl

/-- A row found uncorrectable at a read. -/
theorem fault_frame (b : Bank) (i : Index) (d : Nat) (s : State) :
    LinkFrame s (tell .tableFault (joinPoison b i (s.setDraws d))) := by
  have drawn : LinkFrame s (s.setDraws d) := .of_same rfl rfl
  exact (drawn.trans (joinPoison_frame b i _)).trans (.of_out (tell_out _ _))

theorem concludeAccess_frame (s : State) : LinkFrame s (concludeAccess s) := .of_same rfl rfl

theorem applyWalk_frame (b : Bank) (w : Walk) (s : State) : LinkFrame s (applyWalk b w s) := by
  unfold applyWalk
  dsimp only
  split
  · exact (joinPoison_frame _ _ _).before rfl rfl
  all_goals exact .of_same rfl rfl

/-- At a lookup's conclusion the Judge gives up the reference of the second in judgement. -/
theorem secondConcluded_free (h : Linked s) {p : Port} {it : Item} {k : Bank} {n : Nat}
    (phase : (s.judges.get p).phase = .lookup it k) (second : secondRefs (.waiting it) = [n]) :
    Unreferred n (setPhase p .idle s) := by
  have looked : secondRefs (.lookup it k) = [n] := by
    rw [← second]
    cases it with
    | rejudge _ _ => rfl
    | telegram _ role _ => cases role <;> rfl
  refine h.unreferred (rest := boundRefs (s.judges.get p).bind ++ heldByJudge (s.judges.get (otherPort p)))
    ((heldRefs_perm p s).trans ?_) rfl rfl (.trans (heldRefs_mapJudge p _ s).subperm ?_)
  · rw [heldByJudge_eq, phase, looked, List.append_assoc]
    exact List.perm_middle
  · rw [heldByJudge_eq, show secondRefs ({ s.judges.get p with phase := .idle } : Judge).phase = [] from rfl,
      List.append_nil]

theorem concludeLookup (h : Linked s) {p : Port} {it : Item} {bank : Bank} (o : RiseOrder)
    (phase : (s.judges.get p).phase = .lookup it bank) : Linked (concludeLookup p it bank o s) := by
  have read : LinkFrame s (concludeAccess (applyWalk bank (lookup bank it.key s) s)) :=
    (applyWalk_frame _ _ s).trans (.of_same rfl rfl)
  have judges : (concludeAccess (applyWalk bank (lookup bank it.key s) s)).judges = s.judges :=
    PortAndCreditsSound.applyWalk_judges _ _ s
  have idle := LinkFrame.setPhase p .idle (concludeAccess (applyWalk bank (lookup bank it.key s) s)) rfl
  have free := fun n => (h.frame read).secondConcluded_free (n := n) (by rw [judges]; exact phase)
  have told := LinkFrame.of_out (tellFault_out (lookup bank it.key s).joins (setPhase p .idle
    (concludeAccess (applyWalk bank (lookup bank it.key s) s))))
  cases o with
  | flagFirst =>
    exact ((h.frame (read.trans idle)).frame told).concludeItem _ _ _ _ fun n second => (free n second).frame told
  | recordsFirst => exact ((h.frame (read.trans idle)).concludeItem _ _ _ _ free).frame (.of_out (tellFault_out _ _))

/-! ### The Agent -/

theorem swapBanks_frame (s : State) : LinkFrame s (swapBanks s) :=
  have marked : LinkFrame s (markPending (fillCredits ((flipActive s).setCommit ⟨.idle, s.commit.count + 1⟩))) :=
    (LinkFrame.markPending _).before rfl rfl
  marked.trans (.of_out (tell_out _ _))

theorem complete_frame (b : BufId) (x : Status) (l : List Byte) (s : State) : LinkFrame s (complete b x l s) := by
  have answered : LinkFrame s (respond b x l (endExecution s)) :=
    (LinkFrame.of_out (respond_out b x l (endExecution s))).before rfl rfl
  unfold complete swapIfDue
  split
  · exact answered.trans (swapBanks_frame _)
  all_goals exact answered

theorem readRowOf_frame (b : Bank) (i : Index) (s : State) : LinkFrame s (readRowOf b i s).2 := by
  unfold readRowOf
  split
  · exact .refl s
  · split
    · exact .of_same rfl rfl
    · exact .of_same rfl rfl
    · exact fault_frame _ _ _ s

theorem invalidateAccess_frame (a : Bank) (i : Index) (s : State) : LinkFrame s (invalidateAccess a i s).2 := by
  unfold invalidateAccess
  split
  · exact .of_same rfl rfl
  · split <;> exact .of_same rfl rfl

theorem copyAccess_frame (a : Bank) (i : Index) (s : State) : LinkFrame s (copyAccess a i s).2 := by
  have read := readRowOf_frame a i s
  unfold copyAccess
  split
  all_goals
    next row =>
    rw [row] at read
    exact read.trans (.of_same rfl rfl)

theorem concludeJob_frame (b : BufId) (job : Job) (a : Bank) (s : State) : LinkFrame s (concludeJob b job a s) := by
  cases job with
  | readEntry role i =>
    have read := readRowOf_frame (roleBank a role) i s
    unfold concludeJob concludeReadEntry
    dsimp only
    split
    all_goals
      next row =>
      rw [row] at read
      exact read.trans (complete_frame _ _ _ _)
  | readStream i rest results =>
    have read := readRowOf_frame a i s
    cases rest with
    | nil => exact read.trans (complete_frame _ _ _ _)
    | cons j more => exact read.trans (.of_same rfl rfl)
  | probe d =>
    exact ((applyWalk_frame a (lookup a d.key s) s).trans
      (.of_out (tellFault_out (lookup a d.key s).joins _))).trans (complete_frame _ _ _ _)
  | writeEntry i e => exact complete_frame _ _ _ s
  | invalidate i => exact (invalidateAccess_frame a i s).trans (complete_frame _ _ _ _)
  | copy i blanks =>
    have copied := copyAccess_frame a i s
    unfold concludeJob concludeCopy
    dsimp only
    split
    · exact copied.trans (.of_same rfl rfl)
    · exact copied.trans (complete_frame _ _ _ _)
  | clear i =>
    have cleared : LinkFrame s (writeUnusable a i blankEntry s) := .of_same rfl rfl
    unfold concludeJob concludeClear
    dsimp only
    split
    · exact cleared.trans (.of_same rfl rfl)
    · exact cleared.trans (complete_frame _ _ _ _)

theorem fullEvaluation_frame (m : MinuteMark) (s : State) : LinkFrame s (fullEvaluation m s) := by
  unfold fullEvaluation
  dsimp only
  split
  · exact .of_same rfl rfl
  · exact (LinkFrame.trigger _ _).before rfl rfl

theorem timerAct_frame (a : RefillAction) (s : State) : LinkFrame s (timerAct a s) := by
  cases a
  · unfold timerAct timerStart
    dsimp only
    split <;> exact .of_same rfl rfl
  · unfold timerAct timerPause
    dsimp only
    split <;> exact .of_same rfl rfl
  · exact .of_same rfl rfl
  · exact .of_same rfl rfl

theorem acceptSetting_frame (code : Nat) (new : Settings) (s : State) : LinkFrame s (acceptSetting code new s) := by
  unfold acceptSetting
  dsimp only
  split
  · exact .of_same rfl rfl
  · split
    · exact (LinkFrame.of_out (driveAlert_out _)).before rfl rfl
    · exact .of_same rfl rfl

/-- No record is held and no Judge refers to one. -/
theorem of_empty (records : s.hold.records = []) (judges : s.judges = ⟨judgeReset, judgeReset⟩) : Linked s := by
  rw [linked_iff]
  have none : heldByJudge s.judges.n ++ heldByJudge s.judges.f = [] := by rw [judges]; rfl
  refine ⟨⟨?_, ?_⟩, ⟨?_, ?_⟩, ?_, ?_, ?_⟩ <;> simp [records, none]

theorem resetCredits_frame (s : State) : LinkFrame s (resetCredits s) := by
  unfold resetCredits fillCredits
  split <;> exact .setPolicer _ s

theorem warmReset (c : ResetCause) (s : State) : Linked (warmReset c s) := by
  obtain ⟨x, hx⟩ : ∃ x, x = (((resetCommon c (abandonAccess s)).setStore
      (resetCommon c (abandonAccess s)).store.afterReset).setCommit
        { (resetCommon c (abandonAccess s)).commit with phase := .idle }).setCal
          (resetCommon c (abandonAccess s)).cal.afterReset := ⟨_, rfl⟩
  have made : Machine.warmReset c s = reevaluate (resetCredits x).cal.mark (resetCredits x) := by rw [hx]; rfl
  have empty : Linked x := of_empty (by rw [hx]; rfl) (by rw [hx]; rfl)
  rw [made]
  exact (empty.frame (resetCredits_frame x)).frame (.of_same rfl rfl)

theorem powerOnTo (x : BitVec 8) (s : State) : Linked (powerOnTo x s) := by
  have reset : Linked (resetCommon .power (s.setStraps x)) := of_empty rfl rfl
  exact reset.frame (.of_same rfl rfl)

theorem carryOut (h : Linked s) (b : BufId) (x : Bool) (c : Cmd) : Linked (carryOut b x c s) := by
  cases c
  case copy => exact h.frame (.of_same rfl rfl)
  case clear => exact h.frame (.of_same rfl rfl)
  case readEntry => exact h.frame (.of_same rfl rfl)
  case readStream => exact h.frame (.of_same rfl rfl)
  case probe => exact h.frame (.of_same rfl rfl)
  case writeEntry => exact h.frame (.of_same rfl rfl)
  case invalidate => exact h.frame (.of_same rfl rfl)
  case readStatus => exact h.frame (complete_frame _ _ _ s)
  case readWindow => exact h.frame (complete_frame _ _ _ s)
  case keepalive => exact h.frame (complete_frame _ _ _ s)
  case writeWindow => exact h.frame ((complete_frame _ _ _ _).before rfl rfl)
  case commitNow => exact (h.frame (swapBanks_frame s)).frame (complete_frame _ _ _ _)
  case schedule i =>
    unfold Machine.carryOut carrySchedule
    dsimp only
    split
    · exact h.frame ((complete_frame _ _ _ _).before rfl rfl)
    · exact h.frame (complete_frame _ _ _ s)
  case cancel => exact h.frame ((complete_frame _ _ _ _).before rfl rfl)
  case setTime day weekday hour minute second =>
    have set : LinkFrame s (s.setCal (s.cal.set day weekday hour minute second)) := .of_same rfl rfl
    exact h.frame ((set.trans (fullEvaluation_frame _ _)).trans (complete_frame _ _ _ _))
  case setConfig code present v =>
    unfold Machine.carryOut carrySetConfig
    dsimp only
    split
    · exact h.frame (complete_frame _ _ _ s)
    · split
      · exact h.frame (complete_frame _ _ _ s)
      · exact h.frame ((acceptSetting_frame _ _ s).trans (complete_frame _ _ _ _))
  case refillControl a => exact h.frame ((timerAct_frame a s).trans (complete_frame _ _ _ _))
  case clearCounters low high =>
    exact h.frame ((LinkFrame.setPolicer _ s).trans (complete_frame _ _ _ _))
  case drain => exact h.frame ((LinkFrame.of_out (drainRecords_out _ s)).trans (complete_frame _ _ _ _))
  case clearAlerts => exact h.frame ((LinkFrame.of_out (clearFlags_out _ s)).trans (complete_frame _ _ _ _))
  case flush scope => exact (h.flushHeld scope).frame (complete_frame _ _ _ _)
  case reset => exact warmReset _ s

theorem startCommand (h : Linked s) (b : BufId) : Linked (startCommand b s) := by
  have reloaded : Linked (reload s) := h.frame (.of_same rfl rfl)
  unfold Machine.startCommand
  split
  · unfold executeCommand
    dsimp only
    split
    · exact reloaded.frame (complete_frame _ _ _ _)
    · exact reloaded.frame (complete_frame _ _ _ _)
    · exact reloaded.carryOut _ _ _
  · exact h.frame ((complete_frame _ _ _ s).trans (.of_out (handOver_out _ _)))

/-! ### What follows at once -/

theorem takeSlot (h : Linked s) {p : Port} (taken : takeSlot p s = some t) : Linked t := by
  have emptied := h.frame (.mapJudge_same p (fun j => { j with slot := none }) s rfl rfl)
  unfold Machine.takeSlot at taken
  split at taken
  · dsimp only at taken
    split at taken
    · cases taken
      exact emptied.frame (.setPhase p _ _ rfl)
    · cases taken
      exact emptied.frame (.endRequest p _)
  · cases taken

theorem disposeOwn_frame (p : Port) (b : BufId) (s : State) : LinkFrame s (disposeOwn p b s) := by
  unfold disposeOwn
  dsimp only
  split
  · split
    · exact .of_same rfl rfl
    · exact .refuseTelegram _ _ _ _ _ s
  · exact .refuseTelegram _ _ _ _ _ s

theorem takeArrival (h : Linked s) {p : Port} (taken : takeArrival p s = some t) : Linked t := by
  unfold Machine.takeArrival at taken
  split at taken
  · next b rest _ _ =>
    have shortened := h.frame (.mapJudge_same p (fun j => { j with arrivals := rest }) s rfl rfl)
    dsimp only at taken
    split at taken
    · cases taken
      exact shortened.frame (disposeOwn_frame p b _)
    · cases taken
      exact shortened.bindTest p b
  · cases taken

theorem placeRequest (h : Linked s) {p : Port} (placed : placeRequest p s = some t) : Linked t := by
  unfold Machine.placeRequest at placed
  split at placed
  · next r _ _ =>
    cases placed
    exact (h.frame (.mapJudge_same p (fun j => { j with slot := some r.ref }) s rfl rfl)).frame (.setHold _ rfl rfl)
  · cases placed

/-- A Judge granted the port keeps its reference. -/
theorem beginLookup_refs (a : Bank) (j : Judge) : heldByJudge (beginLookup a j) = heldByJudge j := by
  rw [heldByJudge_eq, heldByJudge_eq]
  unfold beginLookup
  split
  · next it waiting =>
    rw [waiting]
    cases it with
    | rejudge _ _ => rfl
    | telegram _ role _ => cases role <;> rfl
  · rfl
  · rfl

theorem grantTo_frame (x : PortUse) (s : State) : LinkFrame s (grantTo x s) := by
  cases x with
  | judge p =>
    have granted := LinkFrame.mapJudge p (beginLookup s.store.active) s (by rw [beginLookup_refs])
    exact granted.trans (.of_same rfl rfl)
  | agent a =>
    unfold grantTo grantedWrite
    dsimp only
    split <;> exact .of_same rfl rfl
  | scrub => exact .of_same rfl rfl
  | free => exact .refl s
  | closing => exact .refl s
  | sweep => exact .refl s

theorem grant (h : Linked s) (granted : grant s = some t) : Linked t := by
  unfold Machine.grant at granted
  split at granted
  · obtain ⟨x, -, rfl⟩ := Option.map_eq_some_iff.1 granted
    exact h.frame (grantTo_frame x s)
  · cases granted

theorem openPort (h : Linked s) (opened : openPort s = some t) : Linked t := by
  unfold Machine.openPort at opened
  split at opened <;> cases opened
  exact h.frame (.of_same rfl rfl)

/-! ### The other events -/

theorem startReception_frame (p : Port) (s : State) : LinkFrame s (startReception p s) := by
  unfold startReception
  split
  · next claimed => exact (LinkFrame.of_out (claim_out claimed)).trans (.of_same rfl rfl)
  · exact .of_same rfl rfl

theorem arrive_frame (p : Port) (b : BufId) (n : Nat) (s : State) : LinkFrame s (arrive p b n s) := by
  have received : LinkFrame s ((s.setBuffer b { s.buffer b with desc := arrivalDescriptor p n s }).mapRx p fun u =>
      { u with phase := .settling, good := u.good + 1 }) := .of_same rfl rfl
  exact received.trans (.mapJudge_same p (fun j => { j with arrivals := j.arrivals ++ [b] }) _ rfl rfl)

theorem txComplete_frame (p : Port) (s : State) : LinkFrame s (txComplete p s) := by
  unfold txComplete
  split <;> exact .of_same rfl rfl

theorem txSpacingEnd_frame (p : Port) (s : State) : LinkFrame s (txSpacingEnd p s) := by
  unfold txSpacingEnd
  split <;> exact .of_same rfl rfl

theorem runningPulse_frame (s : State) : LinkFrame s (runningPulse s) := by
  unfold runningPulse
  split
  · exact .of_same rfl rfl
  · split
    · have refilled : LinkFrame s (refillCredits (setTimer .running s.agent.settings.refillPreset s)) :=
        (LinkFrame.setPolicer _ s).trans (.setPolicer _ _)
      exact refilled.trans (.trigger .refill _)
    · exact .of_same rfl rfl

theorem scrubRead_frame (n : Fin 512) (s : State) : LinkFrame s (scrubRead n s) := by
  unfold scrubRead
  split
  · exact .of_same rfl rfl
  · exact .of_same rfl rfl
  · exact fault_frame _ _ _ s

theorem scrubStepEffect_frame (s : State) : LinkFrame s (scrubStepEffect s) := by
  have settled (t : State) : LinkFrame t (scrubSettleDebt t) := by
    unfold scrubSettleDebt
    split <;> exact .of_same rfl rfl
  unfold scrubStepEffect
  split
  · exact settled s
  · exact (scrubRead_frame _ s).trans ((settled _).before rfl rfl)

theorem sweepNext_frame (n : Fin 512) (s : State) : LinkFrame s (sweepNext n s) := by
  unfold sweepNext
  split <;> exact .of_same rfl rfl

theorem sweep_frame (n : Fin 512) (s : State) : LinkFrame s (sweepNext n (sweepRow n s)) := by
  have row : LinkFrame s (sweepRow n s) := .of_same rfl rfl
  exact row.trans (sweepNext_frame n _)

theorem commitBoundary_frame (m : MinuteMark) (s : State) : LinkFrame s (commitBoundary m s) := by
  unfold commitBoundary
  split
  · split
    · split
      · exact .of_same rfl rfl
      · exact swapBanks_frame s
    · exact .refl s
  all_goals exact .refl s

/-- Every event keeps the links. -/
theorem events : EventsKeep Linked where
  pending _ _ h := h.frame (.of_same rfl rfl)
  straps _ _ h := h.frame (.of_same rfl rfl)
  calendar _ _ h := h.frame (.of_same rfl rfl)
  windows _ _ h := h.frame (.of_same rfl rfl)
  upsets _ _ h := h.frame (.of_same rfl rfl)
  buffer _ _ _ h := h.frame (.of_same rfl rfl)
  unit _ _ _ _ h := h.frame (.of_same rfl rfl)
  handOver _ _ h := h.frame (.of_out (handOver_out _ _))
  tell _ _ h := h.frame (.of_out (tell_out _ _))
  startReception s p _ h := h.frame (startReception_frame p s)
  dropReception _ _ _ _ _ _ _ h := h.frame (.of_same rfl rfl)
  arrive s p b n _ h := h.frame (arrive_frame p b n s)
  txComplete s p h := h.frame (txComplete_frame p s)
  txSpacingEnd s p h := h.frame (txSpacingEnd_frame p s)
  powerOn s x _ := powerOnTo x s
  warmReset s c _ := warmReset c s
  sweep s n _ h := h.frame (sweep_frame n s)
  expire _ h := h.removeAll _ _
  bindDeadline _ p h := h.bindDeadlineAt p
  pulse s _ h := h.frame (runningPulse_frame s)
  scrubExpiry _ _ h := h.frame (.of_same rfl rfl)
  supervision _ _ h := h.frame (.of_same rfl rfl)
  removeBlocked _ h := h.removeAll _ _
  trigger s k h := h.frame (.trigger k s)
  commitBoundary s m h := h.frame (commitBoundary_frame m s)
  scrubStep s _ h := h.frame ((scrubStepEffect_frame s).trans (concludeAccess_frame _))
  access s a x _ _ h := h.frame ((concludeJob_frame x.buffer x.job a (concludeAccess s)).before rfl rfl)
  lookup _ _ _ _ o phase h := h.concludeLookup o phase
  scanStep _ h := h.scanStep
  grant _ _ granted h := h.grant granted
  endReached _ _ _ ended h := h.endReached ended
  placeRequest _ _ _ placed h := h.placeRequest placed
  takeSlot _ _ _ taken h := h.takeSlot taken
  command s b rest _ _ _ h := by
    have begun : Linked (s.setAgent { s.agent with inbox := rest }) := h.frame (.of_same rfl rfl)
    exact begun.startCommand b
  takeArrival _ _ _ taken h := h.takeArrival taken
  openPort _ _ opened h := h.openPort opened

end Linked

/-- Settles O57: every event keeps the links of the held records and of the Judges to them. -/
theorem heldPairsStayLinked : Obligations.HeldPairsStayLinked := by
  intro s t distinct partners bindings stepped
  exact (linked_iff t).1 (Linked.events.step stepped ((linked_iff s).2 ⟨distinct, partners, bindings⟩))

end Sys2Proof.Machine
end

section
/-! SUPPORT. A step and the resets; then the lines: check words, framing, and what a Receive Unit and a Transmit Unit
answer to an event (R2 to R9, R12 to R15, R51, R69, R71, R179). -/

namespace Sys2Proof.Machine

/-! ### A step, and the power-on reset -/

/-- Settles O1: a step hands the front command to `exec`, and each of the commands answers a next state. -/
theorem stepRunsTheFrontCommand : Obligations.StepRunsTheFrontCommand := by
  refine ⟨fun c rest s front => ⟨?_, ?_⟩, fun s empty => ?_⟩
  · rw [step, front]
    rfl
  · cases c
    case voidReceptionEnd p last => cases last <;> exact ⟨_, rfl⟩
    case refill =>
      by_cases due : refillDue { s with pending := rest }
      · exact ⟨_, if_pos due⟩
      · exact ⟨_, if_neg due⟩
    case supervisionLapse order =>
      by_cases due : lapseDue { s with pending := rest }
      · exact ⟨_, if_pos due⟩
      · exact ⟨_, if_neg due⟩
    all_goals exact ⟨_, rfl⟩
  · rw [step, empty]

theorem reset_settled : Settled State.reset := by
  unfold Settled
  decide +kernel

/-- Settles O59: no list holds anything, and the sweep holds the port. -/
theorem invariantsHoldAfterPowerOn : Obligations.InvariantsHoldAfterPowerOn := by
  have linked : Linked State.reset := Linked.of_empty rfl rfl
  obtain ⟨distinct, partners, bindings⟩ := (linked_iff _).1 linked
  have empty : ∀ i, (State.reset.stream i).credit = 0 := by
    intro i
    simp [State.reset, policerPowerOn, State.stream]
  have sound : PortAndCreditsSound State.reset :=
    PortAndCreditsSound.idle_sound (PortAndCreditsSound.noCredit_within empty) (fun _ _ => ⟨empty, rfl, rfl, rfl⟩)
      (fun p => by cases p <;> rfl) (fun _ _ => rfl) (fun _ h => by cases h) rfl
  obtain ⟨credits, quiet, port, access⟩ := sound
  refine ⟨?_, ?_, ?_, ?_, distinct, partners, bindings, credits, quiet, port, access, reset_settled⟩
  · exact ⟨by decide, by decide, by decide, fun p => by cases p <;> decide, fun p => by cases p <;> decide⟩
  · unfold AlertFollows
    decide
  · unfold NoEqualNeighbours
    decide
  · exact .refl _

/-- Settles O12: the reset state field by field, and what a power-on reset makes of any state. -/
theorem powerOnResetTakesEveryBlock : Obligations.PowerOnResetTakesEveryBlock := by
  refine ⟨⟨rfl, fun p => by cases p <;> decide, fun p => by cases p <;> rfl, fun p => by cases p <;> rfl, rfl, rfl,
    fun b i => ?_, rfl, rfl, rfl, rfl, rfl, rfl, rfl, rfl, rfl, fun b w => ?_, rfl, fun i => ?_, rfl, rfl, rfl, rfl, rfl,
    rfl, rfl, rfl, rfl, rfl, rfl, rfl, rfl, rfl, rfl, rfl, rfl, rfl, rfl, rfl, rfl, rfl⟩, fun straps s => ⟨_, rfl, rfl, rfl, rfl⟩⟩
  · cases b <;> simp [State.reset, storePowerOn, TableStore.poisoned, PerBank.get]
  · cases b <;> simp [State.reset, windowsPowerOn, PerBank.get, blankWindow]
  · simp [State.reset, policerPowerOn, State.stream]

/-! ### Check words (R4, R14) -/

/-- A bit equal to the one that leaves the sum only shifts it. -/
theorem crcBit_leaving (r : BitVec 16) {b : Bool} (same : b = r.msb) : crcBit r b = r <<< 1 := by
  simp [crcBit, same]

/-- A byte equal to the high byte of the sum shifts it by eight. -/
theorem crcByte_high (r : BitVec 16) {b : Byte} (same : ∀ i < 8, b.getLsbD i = r.getLsbD (i + 8)) :
    crcByte r b = r <<< 8 := by
  have shift (k : Nat) (hk : k < 8) : crcBit (r <<< k) (b.getLsbD (7 - k)) = r <<< (k + 1) := by
    rw [crcBit_leaving, BitVec.shiftLeft_add]
    rw [same _ (by omega), BitVec.msb_eq_getLsbD_last, BitVec.getLsbD_shiftLeft]
    have at_top : 16 - 1 - k = 7 - k + 8 := by omega
    simp [at_top, show ¬ 15 < k by omega]
  have start : crcBit r (b.getLsbD 7) = r <<< 1 := by simpa using shift 0 (by omega)
  simp only [crcByte, List.foldl_cons, List.foldl_nil, start]
  rw [shift 1 (by omega), shift 2 (by omega), shift 3 (by omega), shift 4 (by omega), shift 5 (by omega),
    shift 6 (by omega), shift 7 (by omega)]

theorem crc_own_check (l : List Byte) : crc (l ++ be16 (crc l)) = 0 := by
  have high : crcByte (crc l) ((crc l).extractLsb' 8 8) = crc l <<< 8 :=
    crcByte_high _ fun i hi => by simp [hi, Nat.add_comm]
  have low : crcByte (crc l <<< 8) ((crc l).extractLsb' 0 8) = crc l <<< 8 <<< 8 :=
    crcByte_high _ fun i hi => by
      simp [BitVec.getLsbD_shiftLeft, hi]
      omega
  have through : crc (l ++ be16 (crc l)) =
      crcByte (crcByte (crc l) ((crc l).extractLsb' 8 8)) ((crc l).extractLsb' 0 8) := by
    rw [crc, List.foldl_append]
    rfl
  rw [through, high, low, ← BitVec.shiftLeft_add]
  exact BitVec.shiftLeft_eq_zero (by decide)

/-- Settles O2: the sum over a telegram and its check word is the sum shifted out. -/
theorem checkWordClosesTheSum : Obligations.CheckWordClosesTheSum :=
  ⟨by decide +kernel, crc_own_check, fun _ => rfl⟩

/-! ### Framing (R3, R6) -/

/-- The framing after the first `n` bytes of a telegram. -/
def framingOf (t : List Byte) (n : Nat) : Framing := ((t.take n).drop 1).foldl Framing.next framingStart

theorem framingOf_one (t : List Byte) : framingOf t 1 = framingStart := by
  cases t <;> simp [framingOf]

theorem framingOf_succ {t : List Byte} {n : Nat} (first : 1 ≤ n) (inside : n < t.length) :
    framingOf t (n + 1) = (framingOf t n).next (byteAt t n) := by
  have taken : (t.take (n + 1)).drop 1 = (t.take n).drop 1 ++ [byteAt t n] := by
    rw [List.take_succ_eq_append_getElem inside, List.drop_append_of_le_length (by simp; omega), byteAt,
      List.getD_eq_getElem _ _ inside]
  rw [framingOf, taken, List.foldl_append]
  rfl

/-- The lengths of options, with their kind and length bytes. -/
def optionBytes (l : List OptionField) : Nat := (l.map fun o => 2 + o.length.toNat).sum

/-- A framing past the header of a telegram: the options still to come make up the framed length. -/
structure PastHeader (t : List Byte) (n : Nat) (f : Framing) : Prop where
  received : f.received = n
  remains : f.expected + optionBytes (optionsFrom t f.optionsLeft (f.nextLength - 1)) = framedLength t
  place : 10 ≤ f.nextLength
  before : f.nextLength < f.expected
  unread : 0 < f.optionsLeft → n ≤ f.nextLength

theorem PastHeader.next {t : List Byte} {n : Nat} {f : Framing} (h : PastHeader t n f) (past : 9 ≤ n) :
    PastHeader t (n + 1) (f.next (byteAt t n)) := by
  obtain ⟨received, remains, place, before, unread⟩ := h
  have six : f.received ≠ 6 := by omega
  have eight : f.received ≠ 8 := by omega
  unfold Framing.next
  simp only [six, eight, if_false]
  split
  · next reads =>
    obtain ⟨-, left, here⟩ := reads
    obtain ⟨m, left⟩ : ∃ m, f.optionsLeft = m + 1 := ⟨f.optionsLeft - 1, by omega⟩
    have split : optionBytes (optionsFrom t f.optionsLeft (f.nextLength - 1)) =
        2 + (byteAt t n).toNat + optionBytes (optionsFrom t m (n + 1 + (byteAt t n).toNat)) := by
      have at_length : f.nextLength - 1 + 1 = n := by omega
      rw [left, optionsFrom, optionBytes, List.map_cons, List.sum_cons, at_length,
        show f.nextLength - 1 + 2 = n + 1 by omega]
      rfl
    constructor
    · change f.received + 1 = n + 1
      rw [received]
    · change f.expected + 2 + (byteAt t n).toNat + optionBytes (optionsFrom t (f.optionsLeft - 1)
        (f.received + (byteAt t n).toNat + 2 - 1)) = framedLength t
      rw [← remains, split, left, Nat.add_sub_cancel, received,
        show n + (byteAt t n).toNat + 2 - 1 = n + 1 + (byteAt t n).toNat by omega]
      omega
    · change 10 ≤ f.received + (byteAt t n).toNat + 2
      omega
    · change f.received + (byteAt t n).toNat + 2 < f.expected + 2 + (byteAt t n).toNat
      omega
    · intro _
      change n + 1 ≤ f.received + (byteAt t n).toNat + 2
      omega
  · next waits =>
    refine ⟨by rw [← received], remains, place, before, fun left => ?_⟩
    have := unread left
    change n + 1 ≤ f.nextLength
    have : f.received ≠ f.nextLength := fun here => waits ⟨by omega, left, here⟩
    omega

theorem Framing.next_received (f : Framing) (b : Byte) : (f.next b).received = f.received + 1 := by
  unfold Framing.next
  dsimp only
  split
  · rfl
  · split
    · rfl
    · split <;> rfl

theorem framing_of_header {t : List Byte} (long : 9 ≤ t.length) :
    framingOf t 9 = ⟨9, 11 + (byteAt t 8).toNat, optionCountOf t, 10⟩ := by
  have next (n : Nat) (h1 : 1 ≤ n) (h2 : n < 9) := framingOf_succ (t := t) h1 (by omega : n < t.length)
  rw [next 8 (by omega) (by omega), next 7 (by omega) (by omega), next 6 (by omega) (by omega),
    next 5 (by omega) (by omega), next 4 (by omega) (by omega), next 3 (by omega) (by omega),
    next 2 (by omega) (by omega), next 1 (by omega) (by omega), framingOf_one]
  rfl

theorem framing_pastHeader {t : List Byte} (long : 9 ≤ t.length) {n : Nat} (past : 9 ≤ n) (inside : n ≤ t.length) :
    PastHeader t n (framingOf t n) := by
  induction n, past using Nat.le_induction with
  | base =>
    rw [framing_of_header long]
    refine ⟨rfl, ?_, le_rfl, ?_, fun _ => (by decide : 9 ≤ 10)⟩
    · change 11 + (byteAt t 8).toNat + optionBytes (optionsOf t) = _
      rw [framedLength, payloadLengthOf, optionBytes]
      omega
    · change 10 < 11 + (byteAt t 8).toNat
      omega
  | succ n past ih =>
    rw [framingOf_succ (by omega) (by omega)]
    exact (ih (by omega)).next past

/-- Before the last header byte a framing counts the bytes and expects none. -/
theorem framing_received {t : List Byte} {n : Nat} (first : 1 ≤ n) (inside : n ≤ t.length) :
    (framingOf t n).received = n := by
  induction n, first using Nat.le_induction with
  | base => rw [framingOf_one]; rfl
  | succ n first ih =>
    rw [framingOf_succ first (by omega), Framing.next_received, ih (by omega)]

/-- Settles O3: past the header the framing ends where no option is left and the expected length is reached. -/
theorem framedLengthEndsTheTelegram : Obligations.FramedLengthEndsTheTelegram := by
  intro t framed n first inside
  change (framingOf t n).ended = decide (n = t.length)
  have long : 11 ≤ t.length := by
    rw [framed, framedLength]
    omega
  by_cases past : 9 ≤ n
  · obtain ⟨received, remains, place, before, unread⟩ := framing_pastHeader (by omega) past inside
    by_cases left : (framingOf t n).optionsLeft = 0
    · rw [left, optionsFrom, optionBytes, List.map_nil, List.sum_nil, Nat.add_zero, ← framed] at remains
      simp only [Framing.ended, Framing.complete, left, received, remains, past, decide_true, beq_self_eq_true,
        Bool.and_true, Bool.true_and]
      rfl
    · have := unread (Nat.pos_of_ne_zero left)
      have : n ≠ t.length := by omega
      simp [Framing.ended, Framing.complete, left, this]
  · have received := framing_received first inside
    have : n ≠ t.length := by omega
    simp [Framing.ended, Framing.complete, received, past, this]

/-! ### The Receive Unit (R5 to R9) -/

theorem lineByte_filling {p : Port} {buf : BufId} {b : Byte} {s : State} (filling : (s.rx.get p).phase = .filling buf) :
    lineByte p b s = fillByte p buf b s := by
  rw [lineByte, filling]

theorem storeByte_eq (x : Buffer) (b : Byte) : storeByte x b = ⟨storedBytes x b, x.desc⟩ := by
  unfold storeByte storedBytes
  split <;> rfl

/-- The state after a byte in FILLING, up to the end of the reception. -/
def byteStored (p : Port) (buf : BufId) (b : Byte) (s : State) : State :=
  { s with
    pool := poolWith s buf ⟨storedBytes (s.buffer buf) b, (s.buffer buf).desc⟩ s.pool.free
    rx := s.rx.set p ((s.rx.get p).take b) }

theorem fillByte_eq (p : Port) (buf : BufId) (b : Byte) (s : State) :
    fillByte p buf b s = if ((s.rx.get p).framing.next b).ended then endReception p buf (byteStored p buf b s)
      else byteStored p buf b s := by
  have stored : (s.setBuffer buf (storeByte (s.buffer buf) b)).mapRx p (fun u => u.take b) = byteStored p buf b s := by
    rw [storeByte_eq]
    rfl
  unfold fillByte
  dsimp only
  rw [stored]
  have framing : ((byteStored p buf b s).rx.get p).framing = (s.rx.get p).framing.next b := by
    simp [byteStored, RxUnit.take]
  rw [framing]

theorem byteStored_unit (p : Port) (buf : BufId) (b : Byte) (s : State) :
    (byteStored p buf b s).rx.get p = (s.rx.get p).take b := PerPort.get_set_self _ _ _

theorem byteStored_buffer (p : Port) (buf : BufId) (b : Byte) (s : State) :
    (byteStored p buf b s).buffer buf = ⟨storedBytes (s.buffer buf) b, (s.buffer buf).desc⟩ := by
  simp [byteStored, State.buffer, poolWith]

/-- A reception dropped after a byte of it is stored. -/
theorem dropReception_byteStored (p : Port) (buf : BufId) (b : Byte) (x : RxPhase) (count : RxUnit → RxUnit)
    (s : State) : dropReception p buf x count (byteStored p buf b s) = { s with
      pool := poolWith s buf ⟨storedBytes (s.buffer buf) b, (s.buffer buf).desc⟩ (s.pool.free ++ [buf])
      rx := s.rx.set p { count ((s.rx.get p).take b) with phase := x } } := by
  simp [dropReception, release, State.mapRx, State.setRx, State.setPool, byteStored, poolWith]

theorem ended_inCheckWord {f : Framing} (h : f.ended = true) : f.inCheckWord = true := by
  simp only [Framing.ended, Framing.inCheckWord, Bool.and_eq_true, beq_iff_eq, decide_eq_true_eq] at h ⊢
  obtain ⟨complete, reached⟩ := h
  exact ⟨complete, by omega⟩

/-- The last byte of a telegram leaves the sum and joins the last two. -/
theorem take_last {u : RxUnit} {b : Byte} (last : (u.framing.next b).ended = true) :
    u.take b = { u with framing := u.framing.next b, tail := lastTwo u b } := by
  simp [RxUnit.take, ended_inCheckWord last, lastTwo]

/-- Settles O4: one case of the Receive Unit's phase after another. -/
theorem bytesAndSilencesFollowTheUnit : Obligations.BytesAndSilencesFollowTheUnit := by
  intro p s
  refine ⟨fun settling => ?_, fun other => ?_, fun settling b => ?_, fun ready b other => ?_, fun ready => rfl,
    fun buf filling b inside => ?_, fun void b inside => ?_, fun b rest ready free => ?_, fun ready free => ?_⟩
  · change Host.Outcome.next (lineSettled p s) = _
    rw [lineSettled, settling]
    rfl
  · change Host.Outcome.next (lineSettled p s) = _
    unfold lineSettled
    split
    · next settling => exact absurd settling other
    all_goals rfl
  · change Host.Outcome.next (lineByte p b s) = _
    rw [lineByte, settling]
  · change Host.Outcome.next (lineByte p b s) = _
    rw [lineByte, ready]
    dsimp only
    rw [if_neg other]
    rfl
  · change Host.Outcome.next (lineByte p b s) = _
    rw [lineByte_filling filling, fillByte_eq, inside]
    rfl
  · change Host.Outcome.next (lineByte p b s) = _
    rw [lineByte, void]
    have framing : ((s.mapRx p fun u => u.keep b).rx.get p).framing = (s.rx.get p).framing.next b := by
      simp [State.mapRx, RxUnit.keep]
    dsimp only
    unfold voidByte
    dsimp only
    rw [framing, inside]
    rfl
  · refine ⟨_, rfl, ?_, ?_⟩
    · simp [lineByte, ready, startReception, claim, free, State.mapRx, crc]
    · have started : lineByte p 0xD3 s = startReception p s := by simp [lineByte, ready]
      rw [started]
      simp [startReception, claim, free, State.mapRx, State.setRx, State.setBuffer, State.setPool, State.buffer, poolWith]
  · change Host.Outcome.next (lineByte p 0xD3 s) = _
    have started : lineByte p 0xD3 s = startReception p s := by simp [lineByte, ready]
    rw [started, startReception, claim, free]
    rfl

/-- Settles O5: a silence in FILLING. -/
theorem silenceTruncatesAReception : Obligations.SilenceTruncatesAReception := by
  intro p b s filling
  change Host.Outcome.next (lineSilent p s) = _
  rw [lineSilent, filling]
  rfl

/-! ### Form errors (R2, R3, R179) -/

theorem high_bits (x : Byte) : x.extractLsb' 3 5 ≠ 0#5 ↔ 7 < x.toNat := by
  revert x
  decide +kernel

theorem optionFault_iff (t : List Byte) (o : OptionField) :
    optionFault t o = true ↔ ∀ last : Byte, last = byteAt t (o.value + 7) →
      (o.kind ≠ 0x01 ∧ o.kind ≠ 0x02 ∧ o.kind ≠ 0x03) ∨ (o.kind = 0x01 ∧ o.length ≠ 8) ∨
      (o.kind = 0x01 ∧ last.getLsbD 7 = true ∧ (86399 < (tripleAt t (o.value + 2)).toNat ∨
        1023 < (halfAt t (o.value + 5)).toNat ∨ last.extractLsb' 0 2 = 3 ∨ last.extractLsb' 2 5 ≠ 0)) ∨
      (o.kind = 0x02 ∧ (o.length ≠ 2 ∨ 4095 < (halfAt t o.value).toNat)) ∨
      (o.kind = 0x03 ∧ o.length ≠ 0) := by
  unfold optionFault
  rw [forall_eq]
  by_cases one : o.kind = 1#8
  · simp [one, stampFault, or_assoc]
  · by_cases two : o.kind = 2#8
    · simp [two]
    · by_cases three : o.kind = 3#8
      · simp [three]
      · simp [one, two, three]

theorem formError_long (t : List Byte) {n : Nat} (long : 227 < n) : formError t n = true := by
  simp [formError, long]

theorem formError_iff (t : List Byte) {n : Nat} (short : n ≤ 227) : formError t n = true ↔
    sourceOf t = 0xFFFF ∨ 3 < optionCountOf t ∨ 200 < payloadLengthOf t ∨ (byteAt t 5).getLsbD 0 = true ∨
    7 < (byteAt t 6).toNat ∨ ¬((optionsOf t).map (·.kind)).Nodup ∨ ∃ o ∈ optionsOf t, optionFault t o = true := by
  have within : ¬ 227 < n := by omega
  rw [← high_bits]
  simp only [formError, repeatsKind, within, Bool.or_eq_true, decide_eq_true_eq, beq_iff_eq, bne_iff_ne,
    List.any_eq_true, Bool.not_eq_true', decide_eq_false_iff_not, false_or, or_assoc]
  rw [or_comm (a := ∃ x ∈ optionsOf t, _)]

/-- Settles O7: the form errors one by one, and the two ends of a reception that is not good. -/
theorem badReceptionIsCountedAndDropped : Obligations.BadReceptionIsCountedAndDropped := by
  refine ⟨fun t n => ⟨formError_long t, fun short => ?_⟩, fun p buf b s filling last l stored => ⟨fun wrong => ?_,
    fun right formed => ?_⟩⟩
  · rw [formError_iff t short]
    simp only [optionFault_iff]
  all_goals
    change Host.Outcome.next (lineByte p b s) = _
    rw [lineByte_filling filling, fillByte_eq, last, if_pos rfl]
    unfold endReception
    dsimp only
    rw [byteStored_unit, take_last last]
    dsimp only
  · rw [if_pos wrong, endCorrupt, dropReception_byteStored, take_last last, stored]
  · rw [if_neg (not_not.2 right), byteStored_buffer, ← stored, formed, if_pos rfl, endMalformed, byteStored_buffer,
      dropReception_byteStored, take_last last, ← stored]
    rfl

/-- Settles O10: the bind test of a second whose first was refused. -/
theorem secondOfARefusedFirstIsRefused : Obligations.SecondOfARefusedFirstIsRefused := by
  intro p b c s bind source inTime refused
  rw [bindTest, bind]
  dsimp only
  rw [if_pos ⟨source, inTime⟩, bindSecond, refused]
  rfl

/-! ### The Transmit Unit (R13, R14) -/

/-- Settles O11: the room and the places of the lists, the start of a transmission, and its two ends. -/
theorem transmissionEndsAndTheNextStarts : Obligations.TransmissionEndsAndTheNextStarts := by
  refine ⟨fun u b => ⟨by simp [listRoom], by simp [listRoom], rfl, rfl⟩, fun buffers u => ⟨fun busy => ?_, fun idle =>
    ⟨fun b rest urgent => ?_, fun b rest urgent normal => ?_, fun urgent normal => ?_⟩⟩, fun p s => ⟨fun b l sending => ?_,
    fun spacing => ⟨fun b rest urgent => ?_, fun b rest urgent normal => ?_, fun urgent normal => ?_⟩⟩⟩
  · unfold startTx
    split
    · next idle _ => exact absurd idle busy
    · next idle _ _ => exact absurd idle busy
    · rfl
  · simp [startTx, idle, urgent]
  · simp [startTx, idle, urgent, normal]
  · simp [startTx, idle, urgent, normal]
  · change Host.Outcome.next (txComplete p s) = _
    rw [txComplete, sending]
    rfl
  all_goals
    change Host.Outcome.next (txSpacingEnd p s) = _
    rw [txSpacingEnd, spacing]
  · simp [State.mapTx, State.setTx, startTx, urgent]
  · simp [State.mapTx, State.setTx, startTx, urgent, normal]
  · simp [State.mapTx, State.setTx, startTx, urgent, normal]

end Sys2Proof.Machine
end

section
/-! SUPPORT. The Exception Unit: where a record goes, and what the rise of a flag does (R156, R170 to R179). -/

namespace Sys2Proof.Machine

/-! ### Records handed over (R170 to R172) -/

theorem sameKey_iff (a b : Handed) :
    sameKey a b = true ↔ a.reason = b.reason ∧ a.port = b.port ∧ a.source = b.source ∧ a.index = b.index := by
  simp [sameKey, and_assoc]

/-- The record of a first hand-over. -/
def freshRecord (h : Handed) (s : State) : ExcRecord := ⟨h, s.cal.stamp, s.cal.quality, 1⟩

theorem handOver_empty {s : State} (empty : s.exc.queue = []) (h : Handed) :
    handOver h s = tell .exception (s.setExc { s.exc with queue := [freshRecord h s] }) := by
  simp [handOver, appendRecord, freshRecord, empty]

/-- A hand-over to a queue with a newest record `n`. -/
theorem handOver_newest {s : State} {l : List ExcRecord} {n : ExcRecord} (q : s.exc.queue = l ++ [n]) (h : Handed) :
    handOver h s = if sameKey n.what h then
        if n.repeats = 255 then loseRecord s
        else s.setExc { s.exc with queue := l ++ [{ n with repeats := n.repeats + 1 }] }
      else if 16 ≤ s.exc.queue.length then loseRecord s
      else s.setExc { s.exc with queue := l ++ [n, freshRecord h s] } := by
  simp [handOver, appendRecord, freshRecord, q]

theorem byte_full_iff (x : BitVec 8) : x = 255 ↔ x.toNat = 255 := by bv_omega

theorem satAdd_byte (x : BitVec 8) : satAdd x = if x.toNat = 255 then 255 else x + 1 := by
  have full : (x = BitVec.allOnes 8) = (x.toNat = 255) := propext (byte_full_iff x)
  unfold satAdd
  simp only [full]
  split
  case isTrue e => exact (byte_full_iff x).2 e
  case isFalse => rfl

theorem loseRecord_eq (s : State) : loseRecord s = tell .excLost { s with exc := { s.exc with
    lost := if s.exc.lost.toNat = 255 then 255 else s.exc.lost + 1 } } := by
  rw [← satAdd_byte]
  rfl

/-- Settles O33: the newest record decides. -/
theorem exceptionRecordsArePlaced : Obligations.ExceptionRecordsArePlaced := by
  refine fun h s => ⟨fun empty => handOver_empty empty h, fun l n q same hsame => ?_⟩
  have key : same ↔ sameKey n.what h = true := hsame.trans (sameKey_iff _ _).symm
  have placed := handOver_newest q h
  refine ⟨fun hs few => ?_, ?_, fun hs room => ?_⟩
  · have few : n.repeats ≠ 255 := fun e => by rw [(byte_full_iff _).1 e] at few; omega
    rw [placed, if_pos (key.1 hs), if_neg few]
    rfl
  · rintro (⟨hs, full⟩ | ⟨hs, full⟩)
    · rw [placed, if_pos (key.1 hs), if_pos ((byte_full_iff _).2 full), loseRecord_eq]
    · rw [placed, if_neg (mt key.2 hs), if_pos full, loseRecord_eq]
  · rw [placed, if_neg (mt key.2 hs), if_neg (by omega)]
    rfl

/-! ### The rise of a flag (R156, R174 to R179) -/

theorem composed_length (dest source : Addr) (seq : Byte) (payload : List Byte) :
    (composed dest source seq payload).length = 9 + payload.length := by
  simp [composed, be16]
  omega

theorem be16_join (x : BitVec 16) : x.extractLsb' 8 8 ++ x.extractLsb' 0 8 = x := by
  rw [BitVec.extractLsb'_append_extractLsb'_eq_extractLsb' (by omega), BitVec.extractLsb'_eq_self]

/-- The fields of a composed telegram. -/
theorem composed_fields (dest source : Addr) (seq : Byte) {payload : List Byte} (short : payload.length ≤ 200) :
    byteAt (composed dest source seq payload) 0 = 0xD3 ∧ halfAt (composed dest source seq payload) 1 = dest ∧
      halfAt (composed dest source seq payload) 3 = source ∧ byteAt (composed dest source seq payload) 5 = 0xF0 ∧
      byteAt (composed dest source seq payload) 6 = 0 ∧ byteAt (composed dest source seq payload) 7 = seq ∧
      (byteAt (composed dest source seq payload) 8).toNat = payload.length ∧
      (composed dest source seq payload).drop 9 = payload := by
  refine ⟨rfl, be16_join dest, be16_join source, rfl, rfl, rfl, ?_, rfl⟩
  change (BitVec.ofNat 8 payload.length).toNat = _
  rw [BitVec.toNat_ofNat]
  omega

/-- A flag's rise before its Report. -/
def risen (f : Flag) (s : State) : State :=
  driveAlert (s.setExc { s.exc with flags := s.exc.flags ||| f.mask })

theorem tell_set {f : Flag} {s : State} (set : s.exc.flags.getLsbD f.bit = true) : tell f s = s := if_pos set

theorem tell_clear {f : Flag} {s : State} (clear : s.exc.flags.getLsbD f.bit = false) :
    tell f s = sendReport f (risen f s) := if_neg (by rw [clear]; decide)

/-- The state with a Report's number counted. -/
def numbered (s : State) : State := s.setExc { s.exc with reportNumber := s.exc.reportNumber + 1 }

/-- A Report is only sent where its enable and the address ask for one. -/
theorem sendReport_unwanted {f : Flag} {s : State}
    (h : s.agent.settings.reportEnables.getLsbD f.bit = false ∨ s.agent.settings.reportAddress = none) :
    sendReport f s = s := by
  have none : reportWanted f s = none := by
    unfold reportWanted
    split
    case isTrue on => exact h.resolve_left (by rw [on]; decide)
    case isFalse => rfl
  unfold sendReport
  rw [none]

theorem reportWanted_some {f : Flag} {s : State} {a : Addr}
    (on : s.agent.settings.reportEnables.getLsbD f.bit = true) (ha : s.agent.settings.reportAddress = some a) :
    reportWanted f s = some a := by
  rw [reportWanted, if_pos on, ha]

theorem sendReport_noBuffer {f : Flag} {s : State} {a : Addr} (wanted : reportWanted f s = some a)
    (empty : s.pool.free = []) : sendReport f s = numbered s := by
  have claimed : claim (numbered s) = none := by unfold claim; rw [show (numbered s).pool.free = [] from empty]
  unfold sendReport
  rw [wanted]
  dsimp only
  rw [show claim (s.setExc _) = _ from claimed]
  rfl

/-- The buffer of a Report as it is written. -/
def reportBuffer (f : Flag) (a : Addr) (b : BufId) (s : State) : Buffer :=
  ⟨composed a s.ownAddr (s.exc.reportNumber + 1) (reportPayload f s),
    { (s.buffer b).desc with length := (composed a s.ownAddr (s.exc.reportNumber + 1) (reportPayload f s)).length + 2 }⟩

/-- The Report written into the buffer at the free list's head. -/
def reportWritten (f : Flag) (a : Addr) (b : BufId) (rest : List BufId) (s : State) : State :=
  ((numbered s).setPool { s.pool with free := rest }).setBuffer b (reportBuffer f a b s)

theorem sendReport_buffer {f : Flag} {s : State} {a : Addr} (wanted : reportWanted f s = some a)
    {b : BufId} {rest : List BufId} (free : s.pool.free = b :: rest) :
    sendReport f s = match txAppend .f .normal b (reportWritten f a b rest s) with
      | some t => t
      | none => release b (reportWritten f a b rest s) := by
  have claimed : claim (numbered s) = some (b, (numbered s).setPool { s.pool with free := rest }) := by
    unfold claim
    rw [show (numbered s).pool.free = b :: rest from free]
    rfl
  unfold sendReport
  rw [wanted]
  dsimp only
  rw [show claim (s.setExc _) = _ from claimed]
  rfl

theorem setBuffer_buffer_same (b : BufId) (x : Buffer) (s : State) : (s.setBuffer b x).buffer b = x := by
  simp [State.setBuffer, State.buffer]

theorem setBuffer_buffer_other {b c : BufId} (h : c ≠ b) (x : Buffer) (s : State) :
    (s.setBuffer b x).buffer c = s.buffer c := by
  have : b.val ≠ c.val := fun e => h (Fin.ext e.symm)
  simp [State.setBuffer, State.buffer, Vector.getElem_set_ne, this]

theorem txLine_report (f : Flag) (a : Addr) (b : BufId) (s : State) :
    txLine (reportBuffer f a b s) = (reportBuffer f a b s).bytes ++ be16 (crc (reportBuffer f a b s).bytes) := by
  unfold txLine reportBuffer
  dsimp only
  rw [Nat.add_sub_cancel, List.take_length]

/-- What a Report to a free buffer does. -/
theorem sendReport_sent {f : Flag} {s : State} {a : Addr} (wanted : reportWanted f s = some a)
    {b : BufId} {rest : List BufId} (free : s.pool.free = b :: rest) :
    ∃ t, sendReport f s = t ∧ t = { numbered s with pool := t.pool, tx := t.tx } ∧
      (∀ c, c ≠ b → t.buffer c = s.buffer c) ∧ t.buffer b = reportBuffer f a b s ∧
      (s.tx.f.normal.length < 16 → t.pool.free = rest ∧
        t.tx = s.tx.set .f (startTx t.buffer (listAdd s.tx.f .normal b))) ∧
      (16 ≤ s.tx.f.normal.length → t.pool.free = rest ++ [b] ∧ t.tx = s.tx) := by
  have sent := sendReport_buffer wanted free
  by_cases room : s.tx.f.normal.length < 16
  · have appended : txAppend .f .normal b (reportWritten f a b rest s)
        = some ((reportWritten f a b rest s).mapTx .f fun u =>
            startTx (reportWritten f a b rest s).buffer (listAdd u .normal b)) := if_pos (decide_eq_true room)
    rw [appended] at sent
    exact ⟨_, sent, rfl, fun c hc => setBuffer_buffer_other hc _ _, setBuffer_buffer_same _ _ _,
      fun _ => ⟨rfl, rfl⟩, fun full => absurd room (by omega)⟩
  · have refused : txAppend .f .normal b (reportWritten f a b rest s) = none :=
      if_neg (fun h => room (of_decide_eq_true h))
    rw [refused] at sent
    exact ⟨_, sent, rfl, fun c hc => setBuffer_buffer_other hc _ _, setBuffer_buffer_same _ _ _,
      fun h => absurd h room, fun _ => ⟨rfl, rfl⟩⟩

/-- Settles O34: `composed_fields` for the bytes; then the flag, the Report's enable, the pool and the list in turn. -/
theorem aFlagRisesOnceAndReports : Obligations.AFlagRisesOnceAndReports := by
  refine ⟨fun dest source seq payload short l hl => ?_, rfl, fun f s => ⟨tell_set, fun clear => ?_⟩⟩
  · subst hl
    exact ⟨composed_length _ _ _ _, composed_fields dest source seq short⟩
  · rintro flags rfl x rfl
    rw [tell_clear clear]
    refine ⟨fun h => sendReport_unwanted h, ?_⟩
    rintro on a ha y rfl
    have wanted : reportWanted f (risen f s) = some a := reportWanted_some on ha
    refine ⟨fun empty => sendReport_noBuffer wanted empty, fun b rest free => ?_⟩
    obtain ⟨t, sent, frame, others, own, room, full⟩ := sendReport_sent wanted free
    refine ⟨t, sent, frame, others, ?_, ?_, room, full⟩
    · rw [own]
      rfl
    · rw [own]
      exact txLine_report f a b _

end Sys2Proof.Machine
end

section
/-! SUPPORT. The Calendar: when a window is open, the edges of REFIN, and a tick (R56 to R63, R73 to R75). -/

namespace Sys2Proof.Machine

/-! ### Windows (R73 to R75) -/

theorem previousDay_val (d : Fin 7) : (previousDay d).val = (d.val + 6) % 7 := by
  unfold previousDay
  split
  case isTrue h => rw [h]; rfl
  case isFalse h => change d.val - 1 = _; omega

theorem spanTest_iff (w : WindowRecord) (m : Fin 1440) (d : Fin 7) : spanTest w m d = true ↔
    (w.start.val < w.stop.val ∧ w.days.getLsbD d.val = true ∧ w.start.val ≤ m.val ∧ m.val < w.stop.val) ∨
      (w.stop.val < w.start.val ∧ ((w.days.getLsbD d.val = true ∧ w.start.val ≤ m.val) ∨
        (w.days.getLsbD ((d.val + 6) % 7) = true ∧ m.val < w.stop.val))) := by
  unfold spanTest inDays
  rw [previousDay_val]
  split
  case isTrue h => simp [h, Nat.not_lt_of_lt h, and_assoc]
  case isFalse h =>
    split
    case isTrue h' => simp [h, h']
    case isFalse h' => simp [h, h']

theorem inDates_iff (low high day : DayNum) :
    inDates low high day = true ↔ low.toNat ≤ day.toNat ∧ day.toNat ≤ high.toNat := by simp [inDates]

theorem dateTest_iff (w : WindowRecord) (m : Fin 1440) (day : DayNum) : dateTest w m day = true ↔
    ∀ low high, w.dates = some (low, high) → low.toNat ≤ day.toNat ∧ day.toNat ≤ high.toNat ∧
      (w.stop.val < w.start.val → m.val < w.stop.val →
        low.toNat ≤ (day - 1).toNat ∧ (day - 1).toNat ≤ high.toNat) := by
  unfold dateTest
  split
  case h_1 none => simp [none]
  case h_2 low high range =>
    have after : (!afterMidnight w m || inDates low high (day - 1)) = true ↔
        (w.stop.val < w.start.val → m.val < w.stop.val →
          low.toNat ≤ (day - 1).toNat ∧ (day - 1).toNat ≤ high.toNat) := by
      rw [Bool.or_eq_true, inDates_iff, Bool.not_eq_true', ← Bool.not_eq_true]
      simp only [afterMidnight, Bool.and_eq_true, decide_eq_true_eq, Fin.val_fin_lt]
      tauto
    rw [Bool.and_eq_true, inDates_iff, after, range, and_assoc]
    exact ⟨fun h l u e => by cases e; exact h, fun h => h low high rfl⟩

/-- Settles O17: the span test and the date test, each an equivalence. -/
theorem windowsAreOpenAsStated : Obligations.WindowsAreOpenAsStated := by
  intro w m q
  have strict : (!w.strict || q == .nominal) = true ↔ (w.strict = true → q = .nominal) := by
    rw [Bool.or_eq_true, Bool.not_eq_true', ← Bool.not_eq_true, beq_iff_eq]
    tauto
  unfold windowOpen
  rw [Bool.and_eq_true, Bool.and_eq_true, Bool.and_eq_true, spanTest_iff, dateTest_iff, strict]
  simp only [and_assoc]

/-! ### The edges of REFIN (R59, R60, R62) -/

theorem wrapNext_lt {n : Nat} {x : Fin (n + 1)} (h : x.val < n) : wrapNext x = ⟨x.val + 1, by omega⟩ := dif_pos h

theorem wrapNext_last {n : Nat} {x : Fin (n + 1)} (h : x.val = n) : wrapNext x = 0 := dif_neg (by omega)

theorem correctInterval_iff (ns : Nat) : correctInterval ns = true ↔ 27000 ≤ ns ∧ ns ≤ 34000 := by
  simp [correctInterval]

namespace Calendar
variable {c : Calendar}

theorem endsReferenceTick_absent (h : c.monitor = .absent) : c.endsReferenceTick = false := by
  simp [endsReferenceTick, h]

theorem endsReferenceTick_fallback (h : c.source = .fallback) : c.endsReferenceTick = false := by
  simp [endsReferenceTick, h]

theorem endsReferenceTick_early {n : Fin 31} (h : c.divider.val = n.val) : c.endsReferenceTick = false := by
  have few : c.divider ≠ 31 := fun e => by rw [e] at h; have := n.isLt; omega
  simp [endsReferenceTick, few]

theorem endsReferenceTick_last (present : c.monitor = .present) (reference : c.source = .reference)
    (last : c.divider = 31) : c.endsReferenceTick = true := by simp [endsReferenceTick, present, reference, last]

theorem edge_absent (h : c.monitor = .absent) (ns : Nat) : c.edge ns = c.qualify ns := by rw [edge, h]

theorem qualify_unseen (h : c.edgeSeen = false) (ns : Nat) : c.qualify ns = { c with edgeSeen := true } := by
  simp [qualify, h]

theorem qualify_wrong (h : c.edgeSeen = true) {ns : Nat} (wrong : ns < 27000 ∨ 34000 < ns) :
    c.qualify ns = { c with goodEdges := 0 } := by
  have : ¬correctInterval ns = true := by rw [correctInterval_iff]; omega
  rw [qualify, if_pos h, if_neg this]

theorem qualify_good (h : c.edgeSeen = true) {ns : Nat} (low : 27000 ≤ ns) (high : ns ≤ 34000) :
    c.qualify ns = c.goodEdge := by
  rw [qualify, if_pos h, if_pos ((correctInterval_iff ns).2 ⟨low, high⟩)]

theorem goodEdge_early {n : Fin 1023} (h : c.goodEdges.val = n.val) :
    c.goodEdge = { c with goodEdges := ⟨n.val + 1, by omega⟩ } := by
  have few : c.goodEdges.val < 1023 := by have := n.isLt; omega
  simp [goodEdge, h]

theorem goodEdge_last (h : c.goodEdges = 1023) :
    c.goodEdge = { c with goodEdges := 1024, monitor := .present, switchPending := true } :=
  dif_neg (by rw [h]; decide)

theorem edge_fallback (present : c.monitor = .present) (fallback : c.source = .fallback) (ns : Nat) :
    c.edge ns = c := by simp [edge, present, fallback]

theorem edge_divides (present : c.monitor = .present) (reference : c.source = .reference) {n : Fin 31}
    (h : c.divider.val = n.val) (ns : Nat) : c.edge ns = { c with divider := ⟨n.val + 1, by omega⟩ } := by
  have next : wrapNext c.divider = ⟨n.val + 1, by omega⟩ := by
    rw [wrapNext_lt (by omega)]
    simp [h]
  simp [edge, present, reference, next]

theorem stretch_absent (h : c.monitor = .absent) : c.stretch = { c with goodEdges := 0, edgeSeen := false } := by
  rw [stretch, h]

theorem stretch_present (h : c.monitor = .present) : c.stretch = c := by rw [stretch, h]

end Calendar

theorem refinEdge_between {s : State} (h : s.cal.endsReferenceTick = false) (ns : Nat) :
    refinEdge ns s = { s with cal := s.cal.edge ns } := if_neg (by rw [h]; decide)

theorem refinEdge_tick {s : State} (h : s.cal.endsReferenceTick = true) (ns : Nat) : refinEdge ns s = tickNow s :=
  if_pos h

theorem refinEdge_absent {s : State} (h : s.cal.monitor = .absent) (ns : Nat) :
    refinEdge ns s = { s with cal := s.cal.qualify ns } := by
  rw [refinEdge_between (Calendar.endsReferenceTick_absent h), Calendar.edge_absent h]

theorem exec_refin (ns : Nat) (s : State) : exec (.refinRisingEdge ns) s = .next (refinEdge ns s) := rfl

theorem exec_stretch (s : State) : exec .noEdgeStretch s = .next { s with cal := s.cal.stretch } := rfl

theorem exec_qualified (s : State) : exec .referenceQualified s = .next (refinEdge 30520 s) := rfl

theorem exec_plainTick (s : State) : exec (.tick []) s = .next (tickNow s) := rfl

/-- Settles O20: by the Monitor's state, the source and the count or the divider. -/
theorem referenceEdgesAreCounted : Obligations.ReferenceEdgesAreCounted := by
  refine fun s => ⟨fun absent => ?_, fun present => ?_⟩
  · refine ⟨by rw [exec_stretch, Calendar.stretch_absent absent], fun unseen ns => ?_, fun seen => ⟨fun ns wrong => ?_,
      fun ns n low high count => ?_, fun count => ?_⟩⟩
    · rw [exec_refin, refinEdge_absent absent, Calendar.qualify_unseen unseen]
    · rw [exec_refin, refinEdge_absent absent, Calendar.qualify_wrong seen wrong]
    · rw [exec_refin, refinEdge_absent absent, Calendar.qualify_good seen low high, Calendar.goodEdge_early count]
    · have last : ∀ ns, 27000 ≤ ns → ns ≤ 34000 → refinEdge ns s = { s with cal := { s.cal with
          goodEdges := 1024, monitor := .present, switchPending := true } } := fun ns low high => by
        rw [refinEdge_absent absent, Calendar.qualify_good seen low high, Calendar.goodEdge_last count]
      refine ⟨fun ns low high => ?_, ?_⟩
      · rw [exec_refin, exec_qualified, last ns low high, last 30520 (by omega) (by omega)]
      · rw [exec_qualified, last 30520 (by omega) (by omega)]
  · refine ⟨by rw [exec_stretch, Calendar.stretch_present present], fun fallback ns => ?_, fun reference ns =>
      ⟨fun n count => ?_, fun last => ?_⟩⟩
    · rw [exec_refin, refinEdge_between (Calendar.endsReferenceTick_fallback fallback),
        Calendar.edge_fallback present fallback]
    · rw [exec_refin, refinEdge_between (Calendar.endsReferenceTick_early count),
        Calendar.edge_divides present reference count]
    · rw [exec_refin, refinEdge_tick (Calendar.endsReferenceTick_last present reference last), exec_plainTick]

/-! ### A tick (R56 to R58, R63) -/

theorem atOrBefore_iff (deadline now : Uptime) :
    atOrBefore deadline now = true ↔ (now - deadline).toNat ≤ 549755813887 := by
  simp [atOrBefore]
  omega

namespace Calendar

theorem subOfDay_eq (c : Calendar) : c.subOfDay =
    ((c.hour.val * 60 + c.minute.val) * 60 + c.second.val) * 1024 + c.sub.val := by
  simp only [subOfDay, secondOfDay]
  omega

/-- What advancing the time of week from sub-second count `n` of a day leaves. -/
def OnTime (c d : Calendar) (n : Nat) : Prop :=
  d.subOfDay = n % 88473600 ∧ (n < 88473600 → d.day = c.day ∧ d.weekday = c.weekday) ∧
    (n = 88473600 → d.day = c.day + 1 ∧ d.weekday.val = (c.weekday.val + 1) % 7)

theorem wrapNext_weekday (d : Fin 7) : (wrapNext d).val = (d.val + 1) % 7 := by
  unfold wrapNext
  split
  case isTrue h => change d.val + 1 = _; omega
  case isFalse h => change 0 = _; omega

theorem wrapNext_val {n : Nat} {x : Fin (n + 1)} (h : x.val < n) : (wrapNext x).val = x.val + 1 := by
  rw [wrapNext_lt h]

theorem nextHour_time {c : Calendar} (hm : c.minute = 0) (hs : c.second = 0) (hb : c.sub = 0) :
    OnTime c c.nextHour ((c.hour.val + 1) * 3686400) := by
  unfold nextHour
  by_cases last : c.hour = 23
  · simp [OnTime, subOfDay_eq, nextDay, last, hm, hs, hb, wrapNext_weekday]
    rfl
  · have few : c.hour.val < 23 := by omega
    simp [OnTime, subOfDay_eq, last, hm, hs, hb, wrapNext_val few]
    omega

theorem nextMinute_time {c : Calendar} (hs : c.second = 0) (hb : c.sub = 0) :
    OnTime c c.nextMinute ((c.hour.val * 60 + c.minute.val + 1) * 61440) := by
  unfold nextMinute
  by_cases last : c.minute = 59
  · have h : wrapNext c.minute = 0 := wrapNext_last (by rw [last]; rfl)
    have next := nextHour_time (c := { c with minute := wrapNext c.minute }) h hs hb
    rw [if_pos last, show (c.hour.val * 60 + c.minute.val + 1) * 61440 = (c.hour.val + 1) * 3686400 by
      rw [last]; change (_ + 59 + 1) * _ = _; omega]
    exact next
  · have few : c.minute.val < 59 := by omega
    simp [OnTime, subOfDay_eq, last, hs, hb, wrapNext_val few]
    omega

theorem nextSecond_time {c : Calendar} (hb : c.sub = 0) :
    OnTime c c.nextSecond (((c.hour.val * 60 + c.minute.val) * 60 + c.second.val + 1) * 1024) := by
  unfold nextSecond
  by_cases last : c.second = 59
  · have h : wrapNext c.second = 0 := wrapNext_last (by rw [last]; rfl)
    have next := nextMinute_time (c := { c with second := wrapNext c.second }) h hb
    rw [if_pos last, show ((c.hour.val * 60 + c.minute.val) * 60 + c.second.val + 1) * 1024 =
      (c.hour.val * 60 + c.minute.val + 1) * 61440 by rw [last]; change (_ + 59 + 1) * _ = _; omega]
    exact next
  · have few : c.second.val < 59 := by omega
    simp [OnTime, subOfDay_eq, last, hb, wrapNext_val few]
    omega

/-- A sub-second: the carries of R56, from the least up. -/
theorem nextSub_time (c : Calendar) : OnTime c c.nextSub (c.subOfDay + 1) := by
  unfold nextSub
  by_cases last : c.sub = 1023
  · have h : wrapNext c.sub = 0 := wrapNext_last (by rw [last]; rfl)
    have next := nextSecond_time (c := { c with sub := wrapNext c.sub }) h
    rw [if_pos last, subOfDay_eq, show ((c.hour.val * 60 + c.minute.val) * 60 + c.second.val) * 1024 + c.sub.val + 1 =
      ((c.hour.val * 60 + c.minute.val) * 60 + c.second.val + 1) * 1024 by rw [last]; change _ + 1023 + 1 = _; omega]
    exact next
  · have few : c.sub.val < 1023 := by omega
    simp [OnTime, subOfDay_eq, last, wrapNext_val few]
    omega

/-- `d` differs from `c` in the time of week alone. -/
def TimeOnly (c d : Calendar) : Prop :=
  d = { c with day := d.day, weekday := d.weekday, hour := d.hour, minute := d.minute, second := d.second, sub := d.sub }

theorem nextSub_only (c : Calendar) : TimeOnly c c.nextSub := by
  simp only [TimeOnly, nextSub, nextSecond, nextMinute, nextHour, nextDay]
  split_ifs <;> rfl

theorem tick_ticked (c : Calendar) : Ticked c c.tick ∧ c.tick = { c.tick with
    refillTick := c.refillTick, scrubTick := c.scrubTick, secondDue := c.secondDue
    windowMinute := c.windowMinute, commitMinute := c.commitMinute } := by
  obtain ⟨sub, within, next⟩ := nextSub_time c
  have only := nextSub_only c
  unfold TimeOnly at only
  unfold tick takeSwitch
  by_cases h : c.switchPending = true ∧ c.source = .fallback
  · have : (c.nextSub.switchPending && c.nextSub.source == .fallback) = true := by
      rw [only]; simp [h]
    rw [if_pos this]
    refine ⟨⟨sub, within, next, rfl, rfl, ?_, ?_, ?_, fun _ _ => ⟨rfl, rfl, rfl⟩, fun n => absurd h n⟩, ?_⟩
    all_goals rw [only]
  · have : ¬(c.nextSub.switchPending && c.nextSub.source == .fallback) = true := by
      rw [only]; simpa using h
    rw [if_neg this]
    refine ⟨⟨sub, within, next, rfl, rfl, ?_, ?_, ?_, fun a b => absurd ⟨a, b⟩ h, fun n => ⟨?_, ?_, ?_⟩⟩, ?_⟩
    all_goals rw [only]

end Calendar

/-! ### Disturbances of the stored bits (log 10) -/

theorem applyUpsets_nil (s : State) : applyUpsets [] s = s := rfl

theorem applyUpsets_cons (x : Upset) (l : List Upset) (s : State) :
    applyUpsets (x :: l) s = applyUpsets l (applyUpsets [x] s) := rfl

theorem disturb_eq (r : StoredRow) (w : Fin 6) (bit : Nat) : disturb r w bit =
    ⟨r.entry, if (w, bit) ∈ r.changed then r.changed.filter (· ≠ (w, bit)) else (w, bit) :: r.changed⟩ := by
  have kept : (fun c : Fin 6 × Nat => c != (w, bit)) = fun c => decide (c ≠ (w, bit)) := by
    funext c
    rw [bne_eq, Bool.eq_iff_iff]
    simp
  unfold disturb
  rw [kept]
  split <;> rfl

theorem applyUpsets_one (x : Upset) (s : State) : applyUpsets [x] s = { s with store := { s.store with
    rows := s.store.rows.set x.bank ((s.store.rows.get x.bank).set x.index.val
      (disturb (s.store.row x.bank x.index) x.word x.bit)) } } := rfl

theorem wordErrors_eq (r : StoredRow) (w : Fin 6) :
    wordErrors r w = (r.changed.filter fun c => c.1 = w).length := by
  have same : (fun c : Fin 6 × Nat => c.1 == w) = fun c => decide (c.1 = w) := by
    funext c
    rw [Bool.eq_iff_iff]
    simp
  rw [wordErrors, same]

/-- The rows of the two banks replaced. -/
def withRows (r : PerBank (Vector StoredRow 256)) (s : State) : State := s.setStore { s.store with rows := r }

theorem applyUpsets_rows (l : List Upset) : ∀ s, applyUpsets l s = withRows (applyUpsets l s).store.rows s := by
  induction l with
  | nil => exact fun _ => rfl
  | cons x l ih =>
    intro s
    rw [applyUpsets_cons, ih, applyUpsets_one]
    rfl

theorem grant_none_iff (s : State) :
    grant s = none ↔ (s.store.phase = .ready → s.store.port = .free → arbiterChoice s = none) := by
  unfold grant
  split
  case h_1 ready free => simp [ready, free]
  case h_2 busy => exact iff_of_true rfl fun ready free => (busy ready free).elim

/-- No consequence reads the stored rows. -/
theorem Settled.withRows {s : State} (h : Settled s) (r : PerBank (Vector StoredRow 256)) :
    Settled (withRows r s) := by
  have ends : ∀ p, Machine.endReached p (Machine.withRows r s) = none := fun p =>
    endReached_none_congr (s := s) p rfl (fun _ x => x) (h.endReached p)
  have places : ∀ p, Machine.placeRequest p (Machine.withRows r s) = none := fun p =>
    placeRequest_none_congr (s := s) p rfl rfl (h.placeRequest p)
  have slots : ∀ p, Machine.takeSlot p (Machine.withRows r s) = none := fun p =>
    takeSlot_none_congr (s := s) p rfl rfl (h.takeSlot p)
  have arrivals : ∀ p, Machine.takeArrival p (Machine.withRows r s) = none := fun p =>
    takeArrival_none_congr (s := s) p rfl (h.takeArrival p)
  have grants : Machine.grant (Machine.withRows r s) = none := by
    exact (grant_none_iff _).2 ((grant_none_iff s).1 h.grant)
  have opens : Machine.openPort (Machine.withRows r s) = none := by
    have opened := h.openPort
    unfold Machine.openPort at opened ⊢
    rw [show (Machine.withRows r s).store.port = s.store.port from rfl]
    cases port : s.store.port with
    | closing => rw [port] at opened; cases opened
    | free | judge | agent | scrub | sweep => rfl
  exact (settled_iff _).2 ⟨grants, ⟨ends .n, ends .f⟩, ⟨places .n, places .f⟩, ⟨slots .n, slots .f⟩,
    beginCommand_none_congr (s := s) rfl rfl rfl h.beginCommand, ⟨arrivals .n, arrivals .f⟩, opens⟩

/-! ### What a tick does where nothing is outstanding (log 8) -/

theorem NothingOutstanding.withRows {s : State} (h : NothingOutstanding s) (r : PerBank (Vector StoredRow 256)) :
    NothingOutstanding (withRows r s) := by
  obtain ⟨refill, scrub, second, window, commit, held, bound, settled⟩ := h
  exact ⟨refill, scrub, second, window, commit, held, bound, settled.withRows r⟩

theorem removeAll_none {pick : HeldRecord → FirstPart → Bool} (reason : Reason) {s : State}
    (h : ∀ r ∈ s.hold.records, ∀ f, r.firstPart = some f → pick r f = false) : removeAll reason pick s = s := by
  unfold removeAll
  rw [List.filter_eq_nil_iff.2 ?_]
  · rfl
  · intro r hr
    cases first : r.firstPart with
    | none => simp
    | some f => simp [h r hr f first]

theorem takeHoldTick_none {s : State} (held : ∀ r ∈ s.hold.records, ∀ f, r.firstPart = some f →
    atOrBefore f.deadline s.cal.uptime = false) (settled : Settled s) : takeHoldTick s = s := by
  have none : expire s = s := removeAll_none _ held
  rw [takeHoldTick, none, settle_settled settled]

theorem takeBindTick_none {s : State} {p : Port} (bound : ∀ c, (s.judges.get p).bind = some c → c.reached = false →
    atOrBefore c.deadline s.cal.uptime = false) (settled : Settled s) : takeBindTick p s = s := by
  have none : bindDeadlineAt p s = s := by
    unfold bindDeadlineAt
    split
    case h_1 => rfl
    case h_2 c open_ =>
      cases reached : c.reached with
      | true => simp
      | false => simp [bound c open_ reached]
  rw [takeBindTick, none, settle_settled settled]

theorem takeOutstanding_none {s : State} (h : NothingOutstanding s) : takeOutstanding s = s := by
  obtain ⟨refill, scrub, second, window, commit, held, bound, settled⟩ := h
  have noRefill : takeRefillTick s = s := if_neg (by rw [refill]; decide)
  have noScrub : takeScrubTick s = s := if_neg (by rw [scrub]; decide)
  have noSecond : takeSecond .recordsFirst s = s := if_neg (by rw [second]; decide)
  simp only [takeOutstanding, takeMinute, takeHoldTick_none held settled, takeBindTick_none (bound .n) settled,
    takeBindTick_none (bound .f) settled, noRefill, noScrub, noSecond, takeWindowMinute_none window,
    takeCommitMinute_none commit]

theorem tickNow_quiet {s : State} (h : NothingOutstanding s) :
    tickNow s = { s with cal := s.cal.deliver s.cal.tick } := by
  rw [tickNow, takeOutstanding_none h]
  rfl

theorem second_falls (c : Calendar) : (c.sub == 1023) = decide ((c.subOfDay + 1) % 1024 = 0) := by
  have := Calendar.subOfDay_eq c
  rw [Bool.eq_iff_iff, beq_iff_eq, decide_eq_true_eq, Fin.ext_iff]
  change c.sub.val = 1023 ↔ _
  omega

theorem minute_falls (c : Calendar) :
    (c.sub = 1023 ∧ c.second = 59) = ((c.subOfDay + 1) % 61440 = 0) := by
  have := Calendar.subOfDay_eq c
  rw [Fin.ext_iff, Fin.ext_iff]
  change (c.sub.val = 1023 ∧ c.second.val = 59) = _
  refine propext ⟨fun h => ?_, fun h => ?_⟩ <;> omega

theorem deliver_ticked (c : Calendar) : Ticked c (c.deliver c.tick) := (Calendar.tick_ticked c).1

theorem deliver_minute (c : Calendar) : c.boundary c.tick = if (c.subOfDay + 1) % 61440 = 0 then
    some ⟨(c.deliver c.tick).day, (c.deliver c.tick).weekday, (c.deliver c.tick).minuteOfDay⟩ else none := by
  unfold Calendar.boundary
  simp only [minute_falls]
  rfl

/-- Settles O15: the disturbances touch rows alone, and with nothing outstanding a tick is the Calendar's. -/
theorem tickAdvancesTheTime : Obligations.TickAdvancesTheTime := by
  refine ⟨atOrBefore_iff, applyUpsets_nil, applyUpsets_cons, ?_, wordErrors_eq, fun u s quiet => ?_⟩
  · rintro x s r rfl bits rfl
    rw [applyUpsets_one, disturb_eq]
  · have rows := applyUpsets_rows u s
    have ticked := tickNow_quiet (quiet.withRows (applyUpsets u s).store.rows)
    rw [← rows] at ticked
    have cal : (applyUpsets u s).cal = s.cal := by rw [rows]; rfl
    rw [cal] at ticked
    refine ⟨_, rfl, ?_⟩
    rw [ticked]
    refine ⟨deliver_ticked s.cal, rfl, rfl, second_falls s.cal, ?_, ?_, ?_⟩
    · rintro m rfl
      exact ⟨deliver_minute s.cal, deliver_minute s.cal⟩
    · rw [rows]
      rfl
    · rintro rfl
      rfl

end Sys2Proof.Machine
end

section
/-! SUPPORT. A full evaluation of the windows, and a loss of the reference (R61, R65, R77, R80). -/

namespace Sys2Proof.Machine

/-! ### The scans of an opening (R80, R106, R108) -/

theorem beginScans_frame (h : HoldQueue) (l : List ScanKind) :
    beginScans h l = { h with scan := (beginScans h l).scan, waiting := (beginScans h l).waiting } := by
  induction l with
  | nil => rfl
  | cons k rest ih =>
    unfold beginScans
    split
    · exact ih
    · rfl

theorem trigger_frame (k : ScanKind) (s : State) : trigger k s = { s with hold := { s.hold with
    scan := (trigger k s).hold.scan, waiting := (trigger k s).hold.waiting } } := by
  unfold trigger
  split
  · exact congrArg s.setHold (beginScans_frame s.hold _)
  · rfl

theorem trigger_congr (k : ScanKind) {s t : State} (h : t.hold = s.hold) :
    (trigger k t).hold = (trigger k s).hold := by
  unfold trigger
  rw [h]
  split <;> rfl

/-! ### The full evaluation (R77) -/

theorem openSetOf_bit (l : Vector WindowRecord 32) (m : MinuteMark) (q : Quality) (i : Fin 32) :
    (openSetOf l m q).getLsbD i.val = windowOpen l[i] m q := by
  simp [openSetOf, i.isLt]

theorem allOpenSets_get (w : WindowMonitor) (m : MinuteMark) (q : Quality) (b : Bank) :
    (allOpenSets w m q).get b = openSetOf (w.records.get b) m q := by
  cases b <;> rfl

theorem fullEvaluation_frame (m : MinuteMark) (s : State) : fullEvaluation m s = { s with
    windows := ⟨s.windows.records, allOpenSets s.windows m s.cal.quality⟩
    hold := { s.hold with scan := (fullEvaluation m s).hold.scan, waiting := (fullEvaluation m s).hold.waiting } } := by
  unfold fullEvaluation
  dsimp only
  split
  · rfl
  · exact trigger_frame _ _

/-- The openings of the active bank at a full evaluation. -/
def openings (m : MinuteMark) (s : State) : WindowSet :=
  (allOpenSets s.windows m s.cal.quality).get s.store.active &&& ~~~(s.windows.openSets.get s.store.active)

theorem fullEvaluation_hold (m : MinuteMark) (s : State) : (fullEvaluation m s).hold =
    if openings m s = 0 then s.hold else (trigger (.window s.store.active (openings m s)) s).hold := by
  by_cases none : openings m s = 0
  · rw [if_pos none, show fullEvaluation m s = reevaluate m s from if_pos none]
    rfl
  · rw [if_neg none, ← trigger_congr _ (s := s) (t := reevaluate m s) rfl]
    exact congrArg State.hold (if_neg none)

theorem fullEvaluation_scans (m : MinuteMark) (s : State) :
    ScansAfterOpenings s.store.active s s (fullEvaluation m s) := by
  rintro opened rfl h rfl
  have sets : (fullEvaluation m s).windows.openSets.get s.store.active &&&
      ~~~(s.windows.openSets.get s.store.active) = openings m s := by rw [fullEvaluation_frame]; rfl
  rw [sets, fullEvaluation_hold]
  exact ⟨rfl, rfl⟩

theorem ScansAfterOpenings.congr {b : Bank} {s s' u u' t t' : State} (h : ScansAfterOpenings b s u t)
    (before : s'.windows.openSets = s.windows.openSets) (hold : u'.hold = u.hold)
    (sets : t'.windows.openSets = t.windows.openSets) (scan : t'.hold.scan = t.hold.scan)
    (waiting : t'.hold.waiting = t.hold.waiting) : ScansAfterOpenings b s' u' t' := by
  rintro opened rfl g rfl
  rw [before, sets, hold, trigger_congr _ hold, scan, waiting]
  exact h _ rfl _ rfl

theorem ScansAfterOpenings.none {b : Bank} {s t : State} (sets : t.windows.openSets = s.windows.openSets)
    (hold : t.hold = s.hold) : ScansAfterOpenings b s s t := by
  rintro opened rfl h rfl
  have closed : t.windows.openSets.get b &&& ~~~(s.windows.openSets.get b) = 0 := by
    rw [sets]
    exact BitVec.and_not_self _
  rw [if_pos closed, hold]
  exact ⟨rfl, rfl⟩

/-! ### A told flag is set (R174) -/

theorem sendReport_flags (f : Flag) (s : State) : (sendReport f s).exc.flags = s.exc.flags := by
  cases wanted : reportWanted f s with
  | none => unfold sendReport; rw [wanted]
  | some a =>
    cases free : s.pool.free with
    | nil => rw [sendReport_noBuffer wanted free]; rfl
    | cons b rest =>
      obtain ⟨t, sent, frame, -⟩ := sendReport_sent wanted free
      rw [sent, frame]
      rfl

theorem tell_sets (f : Flag) (s : State) : (tell f s).exc.flags.getLsbD f.bit = true := by
  cases set : s.exc.flags.getLsbD f.bit with
  | true => rw [tell_set set, set]
  | false =>
    rw [tell_clear set, sendReport_flags]
    change (s.exc.flags ||| BitVec.twoPow 8 f.bit).getLsbD f.bit = true
    have : f.bit < 8 := by cases f <;> decide
    simp [this]

/-! ### The loss (R61) -/

theorem lose_eq (c : Calendar) : c.lose = Lost c := rfl

/-- The state of a loss before the flag. -/
def lossSeen (s : State) : State :=
  if s.cal.quality = .nominal then evaluateNow (s.setCal s.cal.lose) else s.setCal s.cal.lose

theorem loseReference_eq (s : State) : loseReference s = tell .referenceLost (lossSeen s) := rfl

theorem lossSeen_nominal {s : State} (h : s.cal.quality = .nominal) :
    lossSeen s = fullEvaluation s.cal.mark (s.setCal s.cal.lose) := if_pos h

theorem lossSeen_other {s : State} (h : s.cal.quality ≠ .nominal) : lossSeen s = s.setCal s.cal.lose := if_neg h

theorem lossSeen_frame (s : State) : lossSeen s = { s with
    cal := Lost s.cal
    windows := ⟨s.windows.records, (lossSeen s).windows.openSets⟩
    hold := { s.hold with scan := (lossSeen s).hold.scan, waiting := (lossSeen s).hold.waiting } } := by
  by_cases nominal : s.cal.quality = .nominal
  · rw [lossSeen_nominal nominal, fullEvaluation_frame]
    rfl
  · rw [lossSeen_other nominal]
    rfl

theorem lossSeen_open {s : State} (nominal : s.cal.quality = .nominal) (b : Bank) (i : Fin 32) :
    ((lossSeen s).windows.openSets.get b).getLsbD i.val =
      windowOpen (s.windows.records.get b)[i] s.cal.mark .degraded := by
  have degraded : s.cal.lose.quality = .degraded := if_pos nominal
  rw [lossSeen_nominal nominal, fullEvaluation_frame]
  change ((allOpenSets s.windows s.cal.mark s.cal.lose.quality).get b).getLsbD i.val = _
  rw [allOpenSets_get, openSetOf_bit, degraded]

theorem lossSeen_scans (s : State) : ScansAfterOpenings s.store.active s s (lossSeen s) := by
  by_cases nominal : s.cal.quality = .nominal
  · rw [lossSeen_nominal nominal]
    exact (fullEvaluation_scans s.cal.mark (s.setCal s.cal.lose)).congr rfl rfl rfl rfl rfl
  · rw [lossSeen_other nominal]
    exact .none rfl rfl

theorem referenceLostAt_kept {s : State} {due : Bool} (present : s.cal.monitor = .present)
    (early : ¬(due = true ∧ s.cal.source = .reference)) : referenceLostAt due s = loseReference s := by
  have none : ¬s.cal.tickAtLoss due = true := by simpa [Calendar.tickAtLoss] using early
  rw [referenceLostAt, present]
  exact if_neg none

theorem referenceLostAt_due {s : State} (present : s.cal.monitor = .present) (reference : s.cal.source = .reference) :
    referenceLostAt true s = tickNow (loseReference s) := by
  have due : s.cal.tickAtLoss true = true := by simp [Calendar.tickAtLoss, reference]
  rw [referenceLostAt, present]
  exact if_pos due

theorem NothingOutstanding.loss {s : State} (h : NothingOutstanding s) : NothingOutstanding (loseReference s) := by
  obtain ⟨refill, scrub, second, window, commit, held, bound, settled⟩ := h
  have out := tell_out .referenceLost (lossSeen s)
  have frame := lossSeen_frame s
  have cal : (loseReference s).cal = Lost s.cal := by rw [loseReference_eq, out.cal, frame]
  have records : (loseReference s).hold.records = s.hold.records := by rw [loseReference_eq, out.hold, frame]
  have judges : (loseReference s).judges = s.judges := by rw [loseReference_eq, out.judges, frame]
  have seen : Settled (lossSeen s) := by
    rw [frame]
    exact settled.congr rfl rfl rfl rfl rfl rfl rfl fun _ _ _ => rfl
  unfold NothingOutstanding
  rw [cal, records, judges]
  exact ⟨refill, scrub, second, window, commit, held, bound, seen.tell _⟩

theorem exec_loss (due : Bool) (s : State) : exec (.referenceLoss due) s = .next (referenceLostAt due s) := rfl

/-- Settles O19: `lossSeen` says what the loss does before the flag, and the tick at it is one on a quiet state. -/
theorem referenceLossFallsBack : Obligations.ReferenceLossFallsBack := by
  refine fun due s => ⟨fun absent => ?_, fun present early => ?_, ?_, ?_⟩
  · rw [exec_loss, referenceLostAt, absent]
  · have out := tell_out .referenceLost (lossSeen s)
    have frame := lossSeen_frame s
    refine ⟨_, rfl, ?_⟩
    rw [referenceLostAt_kept present early, loseReference_eq]
    refine ⟨tell_sets _ _, ?_, fun degraded => ?_, fun nominal b i => ?_, ?_, ?_⟩
    · rw [out.cal, frame]
    · rw [out.windows, out.hold, lossSeen_other degraded]
      exact ⟨rfl, rfl⟩
    · rw [out.windows, lossSeen_open nominal]
    · exact (lossSeen_scans s).congr rfl rfl (by rw [out.windows]) (by rw [out.hold]) (by rw [out.hold])
    · rw [out.cal, out.windows, out.hold]
      congr 1
      rw [frame]
  · rintro present rfl reference u hu
    have lost : loseReference s = u := by
      rw [exec_loss, referenceLostAt_kept present (by simp)] at hu
      exact Host.Outcome.next.inj hu
    rw [exec_loss, referenceLostAt_due present reference, lost, exec_plainTick]
    exact ⟨rfl, fun quiet => lost ▸ quiet.loss⟩
  · rintro present rfl reference quiet
    refine ⟨_, rfl, ?_⟩
    have out := tell_out .referenceLost (lossSeen s)
    have cal : (loseReference s).cal = Lost s.cal := by rw [loseReference_eq, out.cal, lossSeen_frame]
    have ticked := tickNow_quiet quiet.loss
    rw [cal] at ticked
    rw [referenceLostAt_due present reference, ticked]
    obtain ⟨sub, -, -, uptime, -, -, monitor, -, -, source⟩ := deliver_ticked (Lost s.cal)
    have source := source (by simp [Lost])
    refine ⟨?_, fun u hu => ?_, monitor, source.1, uptime, sub⟩
    · exact tell_sets .referenceLost (lossSeen s)
    · rw [exec_loss, referenceLostAt_kept present (by simp)] at hu
      rw [← Host.Outcome.next.inj hu]

end Sys2Proof.Machine
end

section
/-! SUPPORT. What the accesses of the Table Store leave unchanged; then what a pin reset and RESET leave (R70, R85, R128,
R136, R151, R164). -/

namespace Sys2Proof.Machine

/-! ### What a read or a row write leaves unchanged -/

/-- `t` is `s` but for the pool, the Transmit Units, the Exception Unit, the Policer, the rows and marks of the Table
Store with its error counts, and the free values. -/
structure AccessFrame (s t : State) : Prop where
  rx : t.rx = s.rx
  judges : t.judges = s.judges
  store : t.store = { s.store with
    rows := t.store.rows, poison := t.store.poison, corrected := t.store.corrected
    scrubCorrected := t.store.scrubCorrected, uncorrectable := t.store.uncorrectable }
  windows : t.windows = s.windows
  cal : t.cal = s.cal
  hold : t.hold = s.hold
  commit : t.commit = s.commit
  agent : t.agent = s.agent
  ownAddr : t.ownAddr = s.ownAddr
  straps : t.straps = s.straps
  pending : t.pending = s.pending

namespace AccessFrame

theorem refl (s : State) : AccessFrame s s := by constructor <;> rfl

theorem trans {s t u : State} (a : AccessFrame s t) (b : AccessFrame t u) : AccessFrame s u where
  rx := b.rx.trans a.rx
  judges := b.judges.trans a.judges
  store := by rw [b.store, a.store]
  windows := b.windows.trans a.windows
  cal := b.cal.trans a.cal
  hold := b.hold.trans a.hold
  commit := b.commit.trans a.commit
  agent := b.agent.trans a.agent
  ownAddr := b.ownAddr.trans a.ownAddr
  straps := b.straps.trans a.straps
  pending := b.pending.trans a.pending

theorem out {s t : State} (h : SameButOut s t) : AccessFrame s t where
  rx := h.rx
  judges := h.judges
  store := by rw [h.store]
  windows := h.windows
  cal := h.cal
  hold := h.hold
  commit := h.commit
  agent := h.agent
  ownAddr := h.ownAddr
  straps := h.straps
  pending := h.pending

theorem setDraws (d : Nat) (s : State) : AccessFrame s (s.setDraws d) := by constructor <;> rfl

theorem setPolicer (x : Policer) (s : State) : AccessFrame s (s.setPolicer x) := by constructor <;> rfl

theorem tell (f : Flag) (s : State) : AccessFrame s (tell f s) := .out (tell_out f s)

theorem countCorrected (n : Nat) (s : State) : AccessFrame s (countCorrected n s) := by constructor <;> rfl

theorem writeRow (b : Bank) (i : Index) (e : StreamEntry) (s : State) : AccessFrame s (writeRow b i e s) := by
  constructor <;> rfl

theorem setParam (b : Bank) (i : Index) (r : ParamRecord) (s : State) : AccessFrame s (setParam b i r s) :=
  .setPolicer _ s

theorem writeUnusable (a : Bank) (i : Index) (e : StreamEntry) (s : State) :
    AccessFrame s (writeUnusable a i e s) := (AccessFrame.writeRow _ i e s).trans (.setParam _ _ _ _)

theorem reportPoison (b : Bank) (i : Index) (s : State) : AccessFrame s (reportPoison b i s) := by
  unfold Machine.reportPoison
  dsimp only
  split
  · exact (AccessFrame.setParam b i _ s).trans (.setPolicer _ _)
  · exact .setParam b i _ s

theorem joinPoison (b : Bank) (i : Index) (s : State) : AccessFrame s (joinPoison b i s) :=
  have joined : AccessFrame s
      (s.setStore { s.store.setPoison b i true with uncorrectable := satAdd s.store.uncorrectable }) := by
    constructor <;> rfl
  joined.trans (.reportPoison b i _)

/-- A row found uncorrectable. -/
theorem faulted (b : Bank) (i : Index) (d : Nat) (s : State) :
    AccessFrame s (Machine.tell .tableFault (Machine.joinPoison b i (s.setDraws d))) :=
  (setDraws d s).trans ((joinPoison b i _).trans (.tell _ _))

theorem readRowOf (b : Bank) (i : Index) (s : State) : AccessFrame s (readRowOf b i s).2 := by
  unfold Machine.readRowOf
  split
  · exact .refl s
  · split
    · exact .setDraws _ s
    · exact (AccessFrame.setDraws _ s).trans (.countCorrected 1 _)
    · exact .faulted b i _ s

theorem invalidateAccess (a : Bank) (i : Index) (s : State) : AccessFrame s (invalidateAccess a i s).2 := by
  unfold Machine.invalidateAccess
  split
  · exact .writeUnusable a i _ s
  · split
    · exact (AccessFrame.setDraws _ s).trans (.writeUnusable a i _ _)
    · exact (AccessFrame.setDraws _ s).trans ((AccessFrame.countCorrected 1 _).trans (.writeUnusable a i _ _))
    · exact (AccessFrame.setDraws _ s).trans (.writeUnusable a i _ _)

theorem copyAccess (a : Bank) (i : Index) (s : State) : AccessFrame s (copyAccess a i s).2 := by
  have read := readRowOf a i s
  unfold Machine.copyAccess
  revert read
  cases Machine.readRowOf a i s with
  | mk found u =>
    cases found with
    | some e => exact fun read => read.trans ((AccessFrame.writeRow _ i _ _).trans (.setParam _ _ _ _))
    | none => exact fun read => read.trans ((AccessFrame.writeRow _ i _ _).trans (.setParam _ _ _ _))

theorem scrubRead (n : Fin 512) (s : State) : AccessFrame s (scrubRead n s) := by
  unfold Machine.scrubRead
  split
  · exact .setDraws _ s
  · exact (AccessFrame.setDraws _ s).trans (by constructor <;> rfl)
  · exact .faulted _ _ _ s

theorem abandonedEffect (r w : Bool) (job : Job) (a : Bank) (s : State) :
    AccessFrame s (abandonedEffect r w job a s) := by
  cases job with
  | readEntry role i =>
    unfold Machine.abandonedEffect
    dsimp only
    split
    · exact .readRowOf _ i s
    · exact .refl s
  | readStream i more results =>
    unfold Machine.abandonedEffect
    dsimp only
    split
    · exact .readRowOf a i s
    · exact .refl s
  | probe d => exact .refl s
  | writeEntry i e => exact .refl s
  | invalidate i =>
    unfold Machine.abandonedEffect
    dsimp only
    split
    · exact .invalidateAccess a i s
    · exact .refl s
  | copy i n =>
    unfold Machine.abandonedEffect
    dsimp only
    split
    · exact .copyAccess a i s
    · split
      · exact .readRowOf a i s
      · exact .refl s
  | clear i =>
    unfold Machine.abandonedEffect
    dsimp only
    split
    · exact .writeUnusable a i blankEntry s
    · exact .refl s

theorem abandonAccess (s : State) : AccessFrame s (abandonAccess s) := by
  unfold Machine.abandonAccess
  dsimp only
  split
  · split
    · exact (AccessFrame.setDraws _ s).trans (.abandonedEffect _ _ _ _ _)
    · exact .refl s
  · split
    · split
      · exact (AccessFrame.setDraws _ s).trans (.scrubRead _ _)
      · exact .setDraws _ s
    · exact .refl s
  all_goals exact .refl s

end AccessFrame

/-! ### The Calendar's events while RST_N is low (R70) -/

namespace Calendar
variable {c : Calendar}

theorem meet_edge_between (h : c.endsReferenceTick = false) (ns : Nat) : c.meet (.edge ns) = c.edge ns :=
  if_neg (by rw [h]; decide)

theorem meet_edge_tick (h : c.endsReferenceTick = true) (ns : Nat) : c.meet (.edge ns) = c.meet .tick := if_pos h

theorem meet_edge_absent (h : c.monitor = .absent) (ns : Nat) : c.meet (.edge ns) = c.qualify ns := by
  rw [meet_edge_between (endsReferenceTick_absent h), edge_absent h]

theorem meet_loss_absent (h : c.monitor = .absent) (due : Bool) : c.meet (.loss due) = c := by rw [meet, h]

theorem meet_loss_due (present : c.monitor = .present) (reference : c.source = .reference) :
    c.meet (.loss true) = (Lost c).meet .tick := by
  have due : c.tickAtLoss true = true := by simp [tickAtLoss, reference]
  simp only [meet, present]
  exact if_pos due

theorem meet_loss_early (present : c.monitor = .present) {due : Bool} (early : ¬(due = true ∧ c.source = .reference)) :
    c.meet (.loss due) = Lost c := by
  have none : ¬c.tickAtLoss due = true := by simpa [tickAtLoss] using early
  simp only [meet, present]
  exact if_neg none

theorem meet_present (c : Calendar) (present : c.monitor = .present) :
    (c.source = .fallback → ∀ ns, c.meet (.edge ns) = c) ∧
    (c.source = .reference → ∀ ns,
      (∀ n : Fin 31, c.divider.val = n.val → c.meet (.edge ns) = { c with divider := ⟨n.val + 1, by omega⟩ }) ∧
      (c.divider = 31 → c.meet (.edge ns) = c.meet .tick)) ∧
    (∀ due, due = true → c.source = .reference → c.meet (.loss due) = (Lost c).meet .tick) ∧
    (∀ due, ¬(due = true ∧ c.source = .reference) → c.meet (.loss due) = Lost c) ∧ c.meet .stretch = c := by
  refine ⟨fun fallback ns => ?_, fun reference ns => ⟨fun n count => ?_, fun last => ?_⟩, ?_,
    fun due early => meet_loss_early present early, stretch_present present⟩
  · rw [meet_edge_between (endsReferenceTick_fallback fallback), edge_fallback present fallback]
  · rw [meet_edge_between (endsReferenceTick_early count), edge_divides present reference count]
  · rw [meet_edge_tick (endsReferenceTick_last present reference last)]
  · rintro due rfl reference
    exact meet_loss_due present reference

theorem meet_absent (c : Calendar) (absent : c.monitor = .absent) :
    (c.edgeSeen = false → ∀ ns, c.meet (.edge ns) = { c with edgeSeen := true }) ∧
    (c.edgeSeen = true →
      (∀ ns, ns < 27000 ∨ 34000 < ns → c.meet (.edge ns) = { c with goodEdges := 0 }) ∧
      ∀ ns, 27000 ≤ ns → ns ≤ 34000 →
        (∀ n : Fin 1023, c.goodEdges.val = n.val →
          c.meet (.edge ns) = { c with goodEdges := ⟨n.val + 1, by omega⟩ }) ∧
        (c.goodEdges = 1023 → c.meet (.edge ns) = { c with
          goodEdges := 1024, monitor := .present, switchPending := true })) ∧
    (∀ due, c.meet (.loss due) = c) ∧ c.meet .stretch = { c with goodEdges := 0, edgeSeen := false } := by
  refine ⟨fun unseen ns => ?_, fun seen => ⟨fun ns wrong => ?_, fun ns low high => ⟨fun n count => ?_, fun count => ?_⟩⟩,
    meet_loss_absent absent, stretch_absent absent⟩
  · rw [meet_edge_absent absent, qualify_unseen unseen]
  · rw [meet_edge_absent absent, qualify_wrong seen wrong]
  · rw [meet_edge_absent absent, qualify_good seen low high, goodEdge_early count]
  · rw [meet_edge_absent absent, qualify_good seen low high, goodEdge_last count]

end Calendar

/-! ### What a warm reset leaves (R70, R85, R136) -/

theorem resetCredits_eq (s : State) :
    resetCredits s = s.setPolicer { s.policer with streams := (resetCredits s).policer.streams } := by
  unfold resetCredits
  split
  · rfl
  · generalize Vector.replicate 256 (⟨0, 0, 0, 0⟩ : StreamStatus) = v
    rfl

theorem resetCredits_ready {s : State} (h : s.store.phase = .ready) (i : Index) :
    (resetCredits s).stream i = ⟨(s.param s.store.active i).fill, 0, 0, 0⟩ := by
  have : resetCredits s = fillCredits s := by rw [resetCredits, h]
  rw [this]
  simp [fillCredits, State.stream]

theorem resetCredits_sweeping {s : State} (h : s.store.phase ≠ .ready) (i : Index) :
    (resetCredits s).stream i = ⟨0, 0, 0, 0⟩ := by
  unfold resetCredits
  split
  case h_1 ready => exact absurd ready h
  case h_2 => simp [State.stream]

/-- A warm reset up to the credits. -/
def blocksReset (cause : ResetCause) (a : State) : State :=
  { a with
    pool := { a.pool with free := freeReset }
    rx := ⟨rxReset, rxReset⟩
    tx := ⟨txReset, txReset⟩
    judges := ⟨judgeReset, judgeReset⟩
    hold := holdReset a.hold.nextRef
    agent := agentReset cause
    exc := excReset
    ownAddr := addressOf a.straps
    policer := { a.policer with timer := .stopped, count := 0 }
    store := a.store.afterReset
    commit := { a.commit with phase := .idle }
    cal := Restarted a.cal }

theorem warmReset_blocks (cause : ResetCause) (s : State) : warmReset cause s =
    reevaluate (resetCredits (blocksReset cause (abandonAccess s))).cal.mark
      (resetCredits (blocksReset cause (abandonAccess s))) := rfl

theorem warmReset_eq (cause : ResetCause) (s : State) :
    ∃ v, warmReset cause s = { blocksReset cause (abandonAccess s) with
      policer := { (abandonAccess s).policer with streams := v, timer := .stopped, count := 0 }
      windows := { (abandonAccess s).windows with
        openSets := allOpenSets (abandonAccess s).windows (Restarted (abandonAccess s).cal).mark
          (Restarted (abandonAccess s).cal).quality } } ∧
      v = (resetCredits (blocksReset cause (abandonAccess s))).policer.streams := by
  refine ⟨_, ?_, rfl⟩
  rw [warmReset_blocks, resetCredits_eq]
  rfl

theorem afterReset_phase (t : TableStore) : t.afterReset.phase = .ready ↔ t.phase = .ready := by
  unfold TableStore.afterReset
  cases t.phase <;> simp

theorem fill_eq (r : ParamRecord) : r.fill = if r.usable then r.ceiling else 0 := rfl

/-- A state in which the access that a reset abandons is another's. -/
def SameAccess (s t : State) : Prop :=
  t.store = s.store ∧ t.policer = s.policer ∧ t.agent.exec = s.agent.exec

theorem JoinedAt.congr {s t : State} (store : t.store = s.store) (policer : t.policer = s.policer) (b : Bank)
    (i : Index) : (JoinedAt b i t).store = (JoinedAt b i s).store ∧ (JoinedAt b i t).policer = (JoinedAt b i s).policer := by
  have streams (i : Index) : t.stream i = s.stream i := by rw [State.stream, State.stream, policer]
  have params : t.param b i = s.param b i := by rw [State.param, State.param, policer]
  unfold JoinedAt
  rw [store]
  split
  · exact ⟨store, policer⟩
  · simp only [Poisoned, store, policer, streams, params, and_self]

theorem ReadsAs.congr {s t : State} (store : t.store = s.store) {b : Bank} {i : Index} {e : Option StreamEntry}
    (h : ReadsAs b i t e) : ReadsAs b i s e := by
  simpa only [ReadsAs, RowClean, RowCorrectable, RowUncorrectable, store] using h

theorem ScrubsRow.congr {s t : State} (store : t.store = s.store) {b : Bank} {i : Index} (h : ScrubsRow b i t) :
    ScrubsRow b i s := by
  simpa only [ScrubsRow, store] using h

theorem AgentReadsRow.congr {s t : State} (same : SameAccess s t) {b : Bank} {i : Index} (h : AgentReadsRow b i t) :
    AgentReadsRow b i s := by
  obtain ⟨store, -, exec⟩ := same
  simpa only [AgentReadsRow, store, exec] using h

/-- The state `s` with the Table Store and the Policer of another. -/
def withTable (s u : State) : State := { s with store := u.store, policer := u.policer }

theorem RowWritten.withTable {s t : State} (store : t.store = s.store) (policer : t.policer = s.policer) (b : Bank)
    (i : Index) (e : StreamEntry) (r : ParamRecord) :
    Machine.withTable s (RowWritten b i e r t) = RowWritten b i e r s := by
  simp only [Machine.withTable, RowWritten, store, policer]

theorem AbandonedAs.congr {s t u : State} (same : SameAccess s t) (h : AbandonedAs t u) :
    AbandonedAs s (withTable s u) := by
  obtain ⟨store, policer, exec⟩ := same
  have joined (b : Bank) (i : Index) : withTable s (JoinedAt b i t) = JoinedAt b i s := by
    obtain ⟨joinedStore, joinedPolicer⟩ := JoinedAt.congr store policer b i
    rw [withTable, joinedStore, joinedPolicer]
    unfold JoinedAt
    split <;> rfl
  have params (b : Bank) (i : Index) : t.param b i = s.param b i := by rw [State.param, State.param, policer]
  rcases h with rfl | ⟨b, i, e, scrubs, reads, rfl⟩ | ⟨b, i, access, reads, rfl⟩ | ⟨a, x, i, port, running, write⟩
  · exact .inl (by rw [withTable, store, policer])
  · refine .inr (.inl ⟨b, i, e, scrubs.congr store, reads.congr store, ?_⟩)
    simp only [withTable, store, policer]
  · refine .inr (.inr (.inl ⟨b, i, ?_, reads.congr store, joined b i⟩))
    exact access.imp (·.congr store) (·.congr ⟨store, policer, exec⟩)
  · refine .inr (.inr (.inr ⟨a, x, i, store ▸ port, exec ▸ running, ?_⟩))
    rintro kept rfl
    rcases write _ rfl with ⟨job, rfl⟩ | ⟨e, job, reads, rfl⟩ | ⟨n, e, job, reads, rfl⟩
    · exact .inl ⟨job, by rw [RowWritten.withTable store policer, params]⟩
    · exact .inr (.inl ⟨e, job, reads.congr store, by rw [RowWritten.withTable store policer, params]⟩)
    · refine .inr (.inr ⟨n, e, job, reads.congr store, ?_⟩)
      cases e with
      | some e => exact (RowWritten.withTable store policer _ _ _ _).trans (by rw [params])
      | none =>
        obtain ⟨joinedStore, joinedPolicer⟩ := JoinedAt.congr store policer a i
        have written := RowWritten.withTable joinedStore joinedPolicer (otherBank a) i blankEntry
          { t.param a i with usable := false }
        rw [params] at written
        dsimp only
        rw [params, ← written, ← joined]
        rfl

theorem TableLeft.congr {s t u : State} (same : SameAccess s t) (h : TableLeft t u) : TableLeft s u := by
  obtain ⟨x, made, rows, poison, params⟩ := h
  exact ⟨withTable s x, made.congr same, rows, poison, params⟩

theorem AbandonedAs.quiet {s u : State} (h : AbandonedAs s u) (scrub : s.store.port ≠ .scrub)
    (agent : ∀ a, s.store.port ≠ .agent a) : u = s := by
  rcases h with h | ⟨b, i, e, scrubs, -⟩ | ⟨b, i, scrubs | reads, -⟩ | ⟨a, x, i, port, -⟩
  · exact h
  · exact absurd scrubs.1 scrub
  · exact absurd scrubs.1 scrub
  · obtain ⟨a, x, port, -⟩ := reads
    exact absurd port (agent a)
  · exact absurd port (agent a)

/-- What a warm reset of `t` leaves, told of a state `s` with the same access in progress. -/
theorem warmReset_leaves {cause : ResetCause} {s t : State} (same : SameAccess s t)
    (next : t.hold.nextRef = s.hold.nextRef) (commit : t.commit.count = s.commit.count) (windows : t.windows = s.windows)
    (pending : t.pending = s.pending) : WarmResetLeaves cause s (warmReset cause t) := by
  have frame := AccessFrame.abandonAccess t
  have left : TableLeft s (abandonAccess t) := (abandonAccess_tableLeft t).congr same
  have store := same.1
  obtain ⟨v, reset, credits⟩ := warmReset_eq cause t
  generalize abandonAccess t = a at *
  have active : a.store.active = s.store.active := by rw [frame.store, store]
  have phase : a.store.phase = s.store.phase := by rw [frame.store, store]
  have phaseReset : (blocksReset cause a).store.phase = .ready ↔ s.store.phase = .ready := by
    rw [← phase]
    exact afterReset_phase a.store
  have streams : ∀ i, (warmReset cause t).stream i = (resetCredits (blocksReset cause a)).stream i := fun i => by
    rw [reset, credits]
    rfl
  have leftReset : TableLeft s (warmReset cause t) := by
    rw [reset]
    exact left.of_same ⟨rfl, rfl, rfl⟩
  refine ⟨?_, ?_, ?_, ?_, ?_, ?_, ?_, ?_, ?_, ?_, ?_, ?_, ?_, ?_, fun ready i => ?_, fun sweeping i => ?_,
    fun scrub agent => ?_, leftReset, ?_⟩
  case refine_15 =>
    rw [streams, resetCredits_ready (phaseReset.2 ready), fill_eq, reset, ← active]
    rfl
  case refine_16 => rw [streams, resetCredits_sweeping (mt phaseReset.1 sweeping)]
  case refine_17 =>
    obtain ⟨u, made, rows, poison, params⟩ := leftReset
    rw [made.quiet scrub agent] at rows poison params
    exact ⟨rows, poison, params⟩
  all_goals rw [reset]
  case refine_5 =>
    change holdReset a.hold.nextRef = _
    rw [frame.hold, next]
    rfl
  case refine_8 =>
    change (⟨.idle, a.commit.count⟩ : CommitCtl) = _
    rw [frame.commit, commit]
  case refine_12 =>
    change a.windows.records = _
    rw [frame.windows, windows]
  case refine_13 =>
    change allOpenSets a.windows _ _ = _
    rw [frame.windows, windows]
    rfl
  case refine_14 =>
    change a.store.afterReset = _
    rw [← active, ← phase]
    rfl
  case refine_18 => exact frame.pending.trans pending
  all_goals rfl

theorem warmReset_cal (cause : ResetCause) (s : State) : (warmReset cause s).cal = Restarted s.cal := by
  obtain ⟨v, reset, -⟩ := warmReset_eq cause s
  rw [reset]
  exact congrArg Restarted (AccessFrame.abandonAccess s).cal

theorem warmReset_straps (cause : ResetCause) (s : State) : (warmReset cause s).straps = s.straps := by
  obtain ⟨v, reset, -⟩ := warmReset_eq cause s
  rw [reset]
  exact (AccessFrame.abandonAccess s).straps

theorem openPort_none {s : State} (h : s.store.port ≠ .closing) : openPort s = none := by
  unfold openPort
  split
  case h_1 closing => exact absurd closing h
  all_goals rfl

/-- After a warm reset of a READY store nothing waits for anything. -/
theorem warmReset_settled (cause : ResetCause) {s : State} (ready : s.store.phase = .ready) :
    Settled (warmReset cause s) := by
  obtain ⟨v, reset, -⟩ := warmReset_eq cause s
  have frame := AccessFrame.abandonAccess s
  rw [reset]
  generalize abandonAccess s = a at *
  have port : a.store.afterReset.port = .free := by
    rw [frame.store]
    simp [TableStore.afterReset, ready]
  refine (settled_iff _).2 ⟨(grant_none_iff _).2 fun _ _ => rfl, ⟨rfl, rfl⟩, ⟨rfl, rfl⟩, ⟨rfl, rfl⟩, rfl,
    ⟨rfl, rfl⟩, ?_⟩
  refine openPort_none fun closing => ?_
  cases port.symm.trans closing

theorem CommandReady.setStraps {h : CmdHead} {b : BufId} {rest : List BufId} {s : State} (r : CommandReady h b rest s)
    (straps : BitVec 8) : CommandReady h b rest (s.setStraps straps) := by
  obtain ⟨unit, free, source, judge, admitted, ready, exec, inbox, due, places, settled⟩ := r
  exact ⟨unit, free, source, judge, admitted, ready, exec, inbox, due, places,
    settled.congr rfl rfl rfl rfl rfl rfl rfl fun _ _ _ => rfl⟩

theorem exec_reset (h : CmdHead) (straps : BitVec 8) (s : State) :
    exec (.reset h straps) s = .next (sendCommand h [0x16] (s.setStraps straps)) := rfl

/-- RESET as a command that the Agent begins. -/
theorem sendReset {h : CmdHead} {b : BufId} {rest : List BufId} {s : State} (r : CommandReady h b rest s)
    (p : Privileged h s.agent.settings.writeFloor s) :
    sendCommand h [0x16] s = warmReset .command (reload (received h b rest [0x16] s)) := by
  rw [sendCommand_ready r (by decide), startCommand_privileged p (by decide)]
  obtain ⟨-, -, -, -, -, ready, -⟩ := r
  exact settleFor_settled _ (warmReset_settled .command ready)

/-- Settles O13: `warmReset_leaves` for both resets, and the Calendar's own lemmas. -/
theorem warmResetsKeepPolicyAndTime : Obligations.WarmResetsKeepPolicyAndTime := by
  refine ⟨fun straps meanwhile s => ?_, fun h straps b rest s ready privileged => ?_,
    fun c => ⟨Calendar.tick_ticked c, Calendar.meet_present c, Calendar.meet_absent c⟩⟩
  · refine ⟨_, rfl, warmReset_straps _ _, ?_, warmReset_cal _ _⟩
    exact warmReset_leaves ⟨rfl, rfl, rfl⟩ rfl rfl rfl rfl
  · rw [exec_reset, sendReset (ready.setStraps straps) privileged]
    exact ⟨_, rfl, warmReset_straps _ _, warmReset_leaves ⟨rfl, rfl, rfl⟩ rfl rfl rfl rfl, warmReset_cal _ _⟩

end Sys2Proof.Machine
end

section
/-! SUPPORT. Removals of held records (R105): what they leave of the hold order and of the Judges, and the request that
takes the place of one withdrawn (R115). -/

namespace Sys2Proof.Machine

/-! ### What goes from the hold order (R105) -/

/-- The records that outlive the removal of a first. -/
def outlives (r q : HeldRecord) : Bool := q.ref != r.ref && r.partnerRef != some q.ref

theorem removed_records (reason : Reason) (r : HeldRecord) (s : State) :
    (Removed reason r s).hold.records = s.hold.records.filter (outlives r) := by
  have first : (fun q : HeldRecord => outlives r q) = fun q => (r.partnerRef != some q.ref) && (q.ref != r.ref) := by
    funext q
    exact Bool.and_comm _ _
  unfold Removed
  simp only [Withdrawn_records, apply_ite State.hold, Unbound_hold, ite_self]
  rw [show outlives r = fun q => outlives r q from rfl, first, ← List.filter_filter]
  split
  case h_1 q found =>
    have names : r.partnerRef = some q.ref := eq_of_beq (List.find?_some (p := fun q : HeldRecord => r.partnerRef == some q.ref) found)
    rw [TakenOut_records, TakenOut_records]
    refine List.filter_congr fun x _ => ?_
    have same : (some q.ref != some x.ref) = (x.ref != q.ref) := by
      rw [Bool.eq_iff_iff, bne_iff_ne, bne_iff_ne, ne_eq, Option.some.injEq]
      exact ⟨Ne.symm, Ne.symm⟩
    rw [names, same]
  case h_2 none =>
    rw [TakenOut_records] at none ⊢
    refine (List.filter_eq_self.2 fun q hq => ?_).symm
    have := List.find?_eq_none.1 none q hq
    simpa using this

theorem allRemoved_records (reason : Reason) (l : List HeldRecord) : ∀ s : State,
    (l.foldl (fun u r => Removed reason r u) s).hold.records =
      s.hold.records.filter fun q => l.all fun r => outlives r q := by
  induction l with
  | nil => exact fun s => by simp
  | cons r l ih =>
    intro s
    rw [List.foldl_cons, ih, removed_records, List.filter_filter]
    refine List.filter_congr fun q _ => ?_
    rw [List.all_cons, Bool.and_comm]

/-- The first records a test picks. -/
def picked (pick : HeldRecord → FirstPart → Bool) (l : List HeldRecord) : List HeldRecord :=
  l.filter fun r => match r.role with
    | .first f => pick r f
    | .partner _ => false

theorem mem_picked {pick : HeldRecord → FirstPart → Bool} {l : List HeldRecord} {r : HeldRecord} :
    r ∈ picked pick l ↔ r ∈ l ∧ ∃ f, r.role = .first f ∧ pick r f = true := by
  unfold picked
  rw [List.mem_filter]
  cases role : r.role with
  | first f => simp
  | partner n => simp

theorem eq_of_refs {s : State} (distinct : RefsDistinct s) {q r : HeldRecord} (hq : q ∈ s.hold.records)
    (hr : r ∈ s.hold.records) (same : q.ref = r.ref) : q = r := by
  have := heldRecord_mem distinct.1 hq
  rw [same, heldRecord_mem distinct.1 hr] at this
  exact (Option.some.inj this).symm

/-- Where firsts and partners name one another, the partner of a first is the record that names it. -/
theorem partner_iff {s : State} (distinct : RefsDistinct s) (linked : PartnersLinked s) {q r : HeldRecord}
    (hq : q ∈ s.hold.records) (hr : r ∈ s.hold.records) :
    r.partnerRef = some q.ref ↔ q.role = .partner r.ref := by
  refine ⟨fun names => ?_, fun role => ?_⟩
  · obtain ⟨x, hx, ref, role⟩ := linked.1 r hr _ names
    rwa [eq_of_refs distinct hq hx ref.symm]
  · obtain ⟨x, hx, ref, names⟩ := linked.2 q hq _ role
    rwa [eq_of_refs distinct hr hx ref.symm]

theorem goesWith_partner {pick : HeldRecord → FirstPart → Bool} {l : List HeldRecord} {q : HeldRecord} {n : Nat}
    (role : q.role = .partner n) : goesWith pick l q = true ↔ ∃ r ∈ picked pick l, r.ref = n := by
  unfold goesWith
  rw [role, List.any_eq_true]
  constructor
  · rintro ⟨r, hr, h⟩
    obtain ⟨ref, first⟩ := Bool.and_eq_true_iff.1 h
    refine ⟨r, mem_picked.2 ⟨hr, ?_⟩, eq_of_beq ref⟩
    unfold HeldRecord.firstPart at first
    cases part : r.role with
    | first f => rw [part] at first; exact ⟨f, rfl, first⟩
    | partner m => rw [part] at first; cases first
  · rintro ⟨r, hr, ref⟩
    obtain ⟨hr, f, part, yes⟩ := mem_picked.1 hr
    refine ⟨r, hr, ?_⟩
    rw [HeldRecord.firstPart, part, ref]
    simp [yes]

/-- What goes at the removal of the picked firsts: they, and their partners. -/
theorem goesWith_iff {pick : HeldRecord → FirstPart → Bool} {s : State} (distinct : RefsDistinct s)
    (linked : PartnersLinked s) {q : HeldRecord} (hq : q ∈ s.hold.records) :
    goesWith pick s.hold.records q = true ↔ ∃ r ∈ picked pick s.hold.records, outlives r q = false := by
  have gone (r : HeldRecord) : outlives r q = false ↔ q.ref = r.ref ∨ r.partnerRef = some q.ref := by
    unfold outlives
    rw [Bool.and_eq_false_iff]
    simp
  cases role : q.role with
  | first f =>
    have picks : goesWith pick s.hold.records q = pick q f := by rw [goesWith, role]
    rw [picks]
    constructor
    · exact fun yes => ⟨q, mem_picked.2 ⟨hq, f, role, yes⟩, (gone q).2 (.inl rfl)⟩
    · rintro ⟨r, hr, out⟩
      obtain ⟨hr, g, part, yes⟩ := mem_picked.1 hr
      rcases (gone r).1 out with same | names
      · obtain rfl := eq_of_refs distinct hq hr same
        rw [role] at part
        cases part
        exact yes
      · rw [partner_iff distinct linked hq hr, role] at names
        cases names
  | partner n =>
    rw [goesWith_partner role]
    constructor
    · rintro ⟨r, hr, rfl⟩
      exact ⟨r, hr, (gone r).2 (.inr ((partner_iff distinct linked hq (mem_picked.1 hr).1).2 role))⟩
    · rintro ⟨r, hr, out⟩
      obtain ⟨held, g, part, -⟩ := mem_picked.1 hr
      rcases (gone r).1 out with same | names
      · rw [← eq_of_refs distinct hq held same, role] at part
        cases part
      · rw [partner_iff distinct linked hq held, role] at names
        exact ⟨r, hr, (HeldRole.partner.inj names).symm⟩

/-- The hold order after the removals of one event. -/
theorem AllRemoved_records (reason : Reason) (pick : HeldRecord → FirstPart → Bool) {s : State}
    (distinct : RefsDistinct s) (linked : PartnersLinked s) : (AllRemoved reason pick s).hold.records =
      s.hold.records.filter fun r => !goesWith pick s.hold.records r := by
  change ((picked pick s.hold.records).foldl (fun u r => Removed reason r u) s).hold.records = _
  rw [allRemoved_records]
  refine List.filter_congr fun q hq => ?_
  rw [Bool.eq_iff_iff, List.all_eq_true, Bool.not_eq_true', ← Bool.not_eq_true, goesWith_iff distinct linked hq]
  simp only [not_exists, not_and, Bool.not_eq_false]

/-! ### What a removal leaves of the rest -/

/-- No flag has gone. -/
def FlagsStay (s t : State) : Prop := ∀ i, s.exc.flags.getLsbD i = true → t.exc.flags.getLsbD i = true

theorem tell_flagsStay (f : Flag) (s : State) : FlagsStay s (tell f s) := by
  intro i set
  cases clear : s.exc.flags.getLsbD f.bit with
  | true => rw [tell_set clear, set]
  | false =>
    rw [tell_clear clear, sendReport_flags]
    change (s.exc.flags ||| BitVec.twoPow 8 f.bit).getLsbD i = true
    rw [BitVec.getLsbD_or, set, Bool.true_or]

theorem handOver_flagsStay (h : Handed) (s : State) : FlagsStay s (handOver h s) := by
  have append (r : ExcRecord) : FlagsStay s (appendRecord r s) := by
    unfold appendRecord
    dsimp only
    split
    · exact fun i set => tell_flagsStay .exception (s.setExc { s.exc with queue := s.exc.queue ++ [r] }) i set
    · exact fun _ set => set
  have lose : FlagsStay s (loseRecord s) := fun i set =>
    tell_flagsStay .excLost (s.setExc { s.exc with lost := satAdd s.exc.lost }) i set
  unfold handOver
  dsimp only
  split
  · exact append _
  · split
    · split
      · exact lose
      · exact fun _ set => set
    · split
      · exact lose
      · exact append _

/-- With no report address no Report is sent: the buffers and the Transmit Units stay (R177). -/
def NoReports (s t : State) : Prop :=
  s.agent.settings.reportAddress = none → t.pool.buffers = s.pool.buffers ∧ t.tx = s.tx

theorem NoReports.trans {s t u : State} (a : NoReports s t) (agent : t.agent = s.agent) (b : NoReports t u) :
    NoReports s u := fun off => by
  obtain ⟨buffers, tx⟩ := a off
  obtain ⟨buffers', tx'⟩ := b (by rw [agent]; exact off)
  exact ⟨buffers'.trans buffers, tx'.trans tx⟩

theorem tell_noReports (f : Flag) (s : State) : NoReports s (tell f s) := fun off => by
  cases clear : s.exc.flags.getLsbD f.bit with
  | true => rw [tell_set clear]; exact ⟨rfl, rfl⟩
  | false => rw [tell_clear clear, sendReport_unwanted (s := risen f s) (.inr off)]; exact ⟨rfl, rfl⟩

theorem handOver_noReports (h : Handed) (s : State) : NoReports s (handOver h s) := by
  have append (r : ExcRecord) : NoReports s (appendRecord r s) := by
    unfold appendRecord
    dsimp only
    split
    · exact tell_noReports .exception (s.setExc { s.exc with queue := s.exc.queue ++ [r] })
    · exact fun _ => ⟨rfl, rfl⟩
  have lose : NoReports s (loseRecord s) := tell_noReports .excLost (s.setExc { s.exc with lost := satAdd s.exc.lost })
  unfold handOver
  dsimp only
  split
  · exact append _
  · split
    · split
      · exact lose
      · exact fun _ => ⟨rfl, rfl⟩
    · split
      · exact lose
      · exact append _

/-- Of `s` some held records have gone, with their bindings and the requests that named them. -/
structure Removal (s t : State) : Prop where
  rx : t.rx = s.rx
  store : t.store = s.store
  commit : t.commit = s.commit
  policer : t.policer = s.policer
  agent : t.agent = s.agent
  ownAddr : t.ownAddr = s.ownAddr
  uptimes : SameUptimes s t
  flags : FlagsStay s t
  quiet : NoReports s t
  records : t.hold.records.Sublist s.hold.records
  phase : ∀ p, (t.judges.get p).phase = (s.judges.get p).phase
  arrivals : ∀ p, (t.judges.get p).arrivals = (s.judges.get p).arrivals
  bind : ∀ p, (t.judges.get p).bind = (s.judges.get p).bind ∨ (t.judges.get p).bind = none
  request : ∀ p, ((t.judges.get p).slot = (s.judges.get p).slot ∧
      t.hold.outstanding.get p = s.hold.outstanding.get p) ∨
    ((s.judges.get p).slot ≠ none ∧ (t.judges.get p).slot = none ∧ t.hold.outstanding.get p = none)

namespace Removal
variable {s t u : State}

theorem refl (s : State) : Removal s s :=
  ⟨rfl, rfl, rfl, rfl, rfl, rfl, fun _ => rfl, fun _ set => set, fun _ => ⟨rfl, rfl⟩, .refl _, fun _ => rfl, fun _ => rfl, fun _ => .inl rfl,
    fun _ => .inl ⟨rfl, rfl⟩⟩

theorem trans (a : Removal s t) (b : Removal t u) : Removal s u where
  rx := b.rx.trans a.rx
  store := b.store.trans a.store
  commit := b.commit.trans a.commit
  policer := b.policer.trans a.policer
  agent := b.agent.trans a.agent
  ownAddr := b.ownAddr.trans a.ownAddr
  uptimes c := (b.uptimes c).trans (a.uptimes c)
  flags i set := b.flags i (a.flags i set)
  quiet := a.quiet.trans a.agent b.quiet
  records := b.records.trans a.records
  phase p := (b.phase p).trans (a.phase p)
  arrivals p := (b.arrivals p).trans (a.arrivals p)
  bind p := by
    rcases b.bind p with h | h
    · rw [h]
      exact a.bind p
    · exact .inr h
  request p := by
    rcases a.request p with ⟨slot, request⟩ | ⟨held, slot, request⟩
    · rw [← slot, ← request]
      exact b.request p
    · rcases b.request p with ⟨slot', request'⟩ | ⟨held', -⟩
      · exact .inr ⟨held, slot'.trans slot, request'.trans request⟩
      · exact absurd slot held'

theorem out (h : SameButOut s t) (uptimes : SameUptimes s t) (flags : FlagsStay s t)
    (quiet : NoReports s t) : Removal s t where
  rx := h.rx
  store := h.store
  commit := h.commit
  policer := h.policer
  agent := h.agent
  ownAddr := h.ownAddr
  uptimes := uptimes
  flags := flags
  quiet := quiet
  records := by rw [h.hold]
  phase _ := by rw [h.judges]
  arrivals _ := by rw [h.judges]
  bind _ := .inl (by rw [h.judges])
  request _ := .inl (by rw [h.judges, h.hold]; exact ⟨rfl, rfl⟩)

theorem tell (f : Flag) (s : State) : Removal s (tell f s) := .out (tell_out f s) (tell_uptimes f s) (tell_flagsStay f s)
  (tell_noReports f s)

theorem handOver (h : Handed) (s : State) : Removal s (handOver h s) :=
  .out (handOver_out h s) (handOver_uptimes h s) (handOver_flagsStay h s) (handOver_noReports h s)

/-- A Judge's binding closed. -/
theorem closed (p : Port) (x : Option BindContext) (h : x = (s.judges.get p).bind ∨ x = none) :
    Removal s { s with judges := s.judges.set p { s.judges.get p with bind := x } } where
  rx := rfl
  commit := rfl
  quiet _ := ⟨rfl, rfl⟩
  store := rfl
  policer := rfl
  agent := rfl
  ownAddr := rfl
  uptimes _ := rfl
  flags _ set := set
  records := .refl _
  phase q := by
    rw [PerPort.get_set]
    split
    case isTrue e => rw [e]
    case isFalse => rfl
  arrivals q := by
    rw [PerPort.get_set]
    split
    case isTrue e => rw [e]
    case isFalse => rfl
  bind q := by
    rw [PerPort.get_set]
    split
    case isTrue e => rw [e]; exact h
    case isFalse => exact .inl rfl
  request q := by
    rw [PerPort.get_set]
    split
    case isTrue e => rw [e]; exact .inl ⟨rfl, rfl⟩
    case isFalse => exact .inl ⟨rfl, rfl⟩

theorem unbound (p : Port) (n : Nat) (s : State) : Removal s (Unbound p n s) := by
  refine closed p _ ?_
  cases bind : (s.judges.get p).bind with
  | none => exact .inr rfl
  | some c =>
    dsimp only
    split
    · exact .inr rfl
    · exact .inl rfl

theorem takenOut (reason : Reason) (index : Option Index) (r : HeldRecord) (s : State) :
    Removal s (TakenOut reason index r s) := by
  have dropped : Removal s { s with
      hold := { s.hold with records := s.hold.records.filter fun q => q.ref != r.ref }
      pool := ⟨s.pool.buffers, s.pool.free ++ [r.buffer]⟩ } :=
    ⟨rfl, rfl, rfl, rfl, rfl, rfl, fun _ => rfl, fun _ set => set, fun _ => ⟨rfl, rfl⟩, List.filter_sublist, fun _ => rfl, fun _ => rfl, fun _ => .inl rfl,
      fun _ => .inl ⟨rfl, rfl⟩⟩
  exact dropped.trans (.handOver _ _)

theorem withdrawn (p : Port) (n : Nat) (s : State) : Removal s (Withdrawn p n s) := by
  unfold Withdrawn
  split
  case isFalse => exact .refl s
  case isTrue named =>
    refine ⟨rfl, rfl, rfl, rfl, rfl, rfl, fun _ => rfl, fun _ set => set, fun _ => ⟨rfl, rfl⟩, .refl _, fun q => ?_, fun q => ?_, fun q => .inl ?_, fun q => ?_⟩
    all_goals simp only [PerPort.get_set]; split
    case refine_1.isTrue e | refine_2.isTrue e | refine_3.isTrue e => rw [e]
    case refine_1.isFalse | refine_2.isFalse | refine_3.isFalse => rfl
    case refine_4.isTrue e => rw [e]; exact .inr ⟨by rw [named]; simp, rfl, rfl⟩
    case refine_4.isFalse => exact .inl ⟨rfl, rfl⟩

theorem removed (reason : Reason) (r : HeldRecord) (s : State) : Removal s (Removed reason r s) := by
  have fate (u : State) (pair : Removal (TakenOut reason r.index r s) u) :
      Removal s (if r.awaiting then Unbound r.port r.ref u else u) := by
    have pair := (takenOut reason r.index r s).trans pair
    split
    · exact pair.trans (.unbound _ _ _)
    · exact pair
  unfold Removed
  refine Removal.trans (fate _ ?_) (.withdrawn _ _ _)
  split
  · exact .takenOut _ _ _ _
  · exact .refl _

theorem foldl (reason : Reason) (l : List HeldRecord) : ∀ s, Removal s (l.foldl (fun u r => Removed reason r u) s) := by
  induction l with
  | nil => exact .refl
  | cons r l ih => exact fun s => (removed reason r s).trans (ih _)

theorem allRemoved (reason : Reason) (pick : HeldRecord → FirstPart → Bool) (s : State) :
    Removal s (AllRemoved reason pick s) := foldl reason _ s

/-! ### What follows a removal (R115) -/

theorem someWaiting (r : Removal s t) (p : Port) (d : Uptime) : someWaiting p d t = someWaiting p d s := by
  have arrived : arrivedBy t d = arrivedBy s d := by
    funext c
    rw [arrivedBy, arrivedBy, r.uptimes c]
  unfold Machine.someWaiting
  rw [r.phase, r.arrivals, arrived]

theorem endReached (r : Removal s t) {p : Port} (h : endReached p s = none) : endReached p t = none := by
  rcases r.bind p with same | closed
  · exact endReached_none_congr p same (fun d x => by rwa [r.someWaiting]) h
  · rw [Machine.endReached, closed]

theorem slot_idle (r : Removal s t) (h : Settled s) {p : Port} (idle : (t.judges.get p).phase = .idle) :
    (t.judges.get p).slot = none ∧ t.hold.outstanding.get p = s.hold.outstanding.get p := by
  have none : (s.judges.get p).slot = none := by
    have taken := h.takeSlot p
    unfold Machine.takeSlot at taken
    rw [← r.phase p, idle] at taken
    cases slot : (s.judges.get p).slot with
    | none => rfl
    | some n =>
      rw [slot] at taken
      dsimp only at taken
      split at taken <;> cases taken
  rcases r.request p with ⟨slot, request⟩ | ⟨held, -⟩
  · exact ⟨slot.trans none, request⟩
  · exact absurd none held

theorem takeArrival (r : Removal s t) {p : Port} (h : takeArrival p s = none) : takeArrival p t = none := by
  unfold Machine.takeArrival at h ⊢
  rw [r.phase, r.arrivals]
  split at h
  · dsimp only at h
    split at h <;> cases h
  · rfl

end Removal

/-- Nothing but requests for busy Judges can follow. -/
structure OnlyPlacing (s : State) : Prop where
  grants : grant s = none
  bindings : ∀ p, endReached p s = none
  commands : beginCommand s = none
  arrivals : ∀ p, takeArrival p s = none
  opens : openPort s = none
  idle : ∀ p, (s.judges.get p).phase = .idle → (s.judges.get p).slot = none ∧ placeRequest p s = none

theorem placeRequest_none_iff (p : Port) (s : State) : placeRequest p s = none ↔
    s.hold.outstanding.get p ≠ none ∨ nextPending p s.hold = none := by
  unfold placeRequest
  cases s.hold.outstanding.get p with
  | some x => simp
  | none => cases nextPending p s.hold <;> simp

theorem nextPending_sublist {p : Port} {s t : State} (h : t.hold.records.Sublist s.hold.records)
    (before : nextPending p s.hold = none) : nextPending p t.hold = none := by
  unfold nextPending at before ⊢
  rw [List.find?_eq_none] at before ⊢
  exact fun r hr => before r (h.subset hr)

/-- After removals from a settled state only requests for busy Judges follow. -/
theorem Removal.onlyPlacing {s t : State} (r : Removal s t) (h : Settled s) : OnlyPlacing t where
  grants := grant_none_congr r.store r.phase (by rw [r.agent]) h.grant
  bindings p := r.endReached (h.endReached p)
  commands := beginCommand_none_congr (by rw [r.agent]) (by rw [r.agent]) (by rw [r.store]) h.beginCommand
  arrivals p := r.takeArrival (h.takeArrival p)
  opens := openPort_none_congr r.store h.openPort
  idle p idle := by
    obtain ⟨slot, request⟩ := r.slot_idle h idle
    refine ⟨slot, (placeRequest_none_iff p t).2 ?_⟩
    rw [request]
    exact ((placeRequest_none_iff p s).1 (h.placeRequest p)).imp_right (nextPending_sublist r.records)

namespace OnlyPlacing
variable {s t : State}

theorem takeSlot (h : OnlyPlacing s) (p : Port) : takeSlot p s = none := by
  unfold Machine.takeSlot
  split
  case h_1 n idle slot =>
    rw [(h.idle p idle).1] at slot
    cases slot
  case h_2 => rfl

/-- A request placed with a busy Judge. -/
theorem placed (h : OnlyPlacing s) {p : Port} (placed : placeRequest p s = some t) :
    OnlyPlacing t ∧ placeRequest p t = none := by
  have busy : (s.judges.get p).phase ≠ .idle := fun idle => by
    rw [(h.idle p idle).2] at placed
    cases placed
  obtain ⟨-, r, -, rfl⟩ := placeRequest_some placed
  have other {q : Port} (ne : q ≠ p) :
      (s.judges.set p { s.judges.get p with slot := some r.ref }).get q = s.judges.get q := by
    rw [PerPort.get_set, if_neg ne]
  have own : (s.judges.set p { s.judges.get p with slot := some r.ref }).get p =
      { s.judges.get p with slot := some r.ref } := PerPort.get_set_self ..
  have phase (q : Port) : ((s.judges.set p { s.judges.get p with slot := some r.ref }).get q).phase =
      (s.judges.get q).phase := by
    by_cases e : q = p
    · rw [e, own]
    · rw [other e]
  refine ⟨⟨grant_none_congr (s := s) rfl phase rfl h.grants, fun q => ?_, beginCommand_none_congr (s := s) rfl rfl rfl h.commands,
    fun q => ?_, openPort_none_congr (s := s) rfl h.opens, fun q idle => ?_⟩, ?_⟩
  · by_cases e : q = p
    · subst e
      refine endReached_none_congr (s := s) q (by rw [own]) (fun d x => ?_) (h.bindings q)
      unfold someWaiting at x ⊢
      rw [own]
      exact x
    · refine endReached_none_congr (s := s) q (by rw [other e]) (fun d x => ?_) (h.bindings q)
      unfold someWaiting at x ⊢
      rw [other e]
      exact x
  · by_cases e : q = p
    · subst e
      unfold Machine.takeArrival
      rw [phase]
      split
      case h_1 idle _ => exact absurd idle busy
      case h_2 => rfl
    · exact takeArrival_none_congr (s := s) q (other e) (h.arrivals q)
  · have ne : q ≠ p := fun e => by rw [phase, e] at idle; exact busy idle
    rw [phase] at idle
    obtain ⟨slot, none⟩ := h.idle q idle
    refine ⟨by rw [other ne]; exact slot, (placeRequest_none_iff _ _).2 ?_⟩
    refine ((placeRequest_none_iff q s).1 none).imp_left fun x => ?_
    rwa [PerPort.get_set, if_neg ne]
  · refine (placeRequest_none_iff _ _).2 (.inl ?_)
    rw [PerPort.get_set_self]
    exact Option.some_ne_none _

theorem consequence (h : OnlyPlacing s) : consequence s = (placeRequest .n s <|> placeRequest .f s) := by
  unfold Machine.consequence
  rw [h.grants, h.bindings, h.bindings, h.takeSlot, h.takeSlot, h.commands, h.arrivals, h.arrivals, h.opens]
  cases placeRequest .n s with
  | some t => rfl
  | none => cases placeRequest .f s <;> rfl

/-- With Port N done, the request of Port F is the last. -/
theorem settleFor_second (h : OnlyPlacing s) (done : placeRequest .n s = none) (k : Nat) :
    settleFor (k + 1) s = Requested .f s := by
  have next := h.consequence
  rw [done] at next
  cases last : placeRequest .f s with
  | none =>
    rw [last] at next
    rw [requested_none last]
    exact settleFor_settled _ (Option.isNone_iff_eq_none.2 next)
  | some t =>
    rw [last] at next
    obtain ⟨after, none⟩ := h.placed last
    have still : placeRequest .n t = Option.none := by
      obtain ⟨-, r, -, rfl⟩ := placeRequest_some last
      refine (placeRequest_none_iff _ _).2 (((placeRequest_none_iff .n s).1 done).imp_left fun x => ?_)
      rwa [PerPort.get_set, if_neg (by decide)]
    have settled : Settled t := by
      unfold Settled
      rw [after.consequence, still, none]
      rfl
    rw [settleFor_succ k next, settleFor_settled k settled, ← placeRequest_eq, last]
    rfl

/-- All that follows: the requests of the two ports. -/
theorem settleFor (h : OnlyPlacing s) (k : Nat) : settleFor (k + 2) s = RequestsPlaced s := by
  unfold RequestsPlaced
  cases first : placeRequest .n s with
  | none => rw [h.settleFor_second first, requested_none first]
  | some t =>
    have next := h.consequence
    rw [first] at next
    obtain ⟨after, none⟩ := h.placed first
    rw [settleFor_succ _ next, after.settleFor_second none, ← placeRequest_eq .n s, first]
    rfl

theorem settle (h : OnlyPlacing s) : settle s = RequestsPlaced s := h.settleFor _

end OnlyPlacing

@[simp] theorem Requested_records (p : Port) (s : State) : (Requested p s).hold.records = s.hold.records := by
  unfold Requested
  split <;> rfl

theorem Requested_out (p : Port) (s : State) : (Requested p s).policer = s.policer ∧ (Requested p s).exc = s.exc ∧
    (Requested p s).pool = s.pool ∧ (Requested p s).tx = s.tx ∧ (Requested p s).rx = s.rx := by
  unfold Requested
  split <;> exact ⟨rfl, rfl, rfl, rfl, rfl⟩

theorem RequestsPlaced_records (s : State) : (RequestsPlaced s).hold.records = s.hold.records := by
  simp [RequestsPlaced]

theorem RequestsPlaced_out (s : State) : (RequestsPlaced s).policer = s.policer ∧ (RequestsPlaced s).exc = s.exc ∧
    (RequestsPlaced s).pool = s.pool ∧ (RequestsPlaced s).tx = s.tx ∧ (RequestsPlaced s).rx = s.rx := by
  obtain ⟨policer, exc, pool, tx, rx⟩ := Requested_out .f (Requested .n s)
  obtain ⟨policer', exc', pool', tx', rx'⟩ := Requested_out .n s
  exact ⟨policer.trans policer', exc.trans exc', pool.trans pool', tx.trans tx', rx.trans rx'⟩

/-- Settles O21: the removals of R109, and what follows them. -/
theorem holdExpiryRemovesTheExpired : Obligations.HoldExpiryRemovesTheExpired := by
  rintro s settled distinct linked pick rfl
  have removal := Removal.allRemoved .holdExpired (fun _ f => atOrBefore f.deadline s.cal.uptime) s
  have done : takeHoldTick s =
      RequestsPlaced (AllRemoved .holdExpired (fun _ f => atOrBefore f.deadline s.cal.uptime) s) := by
    rw [takeHoldTick, expire, removeAll_eq _ _ distinct linked]
    exact (removal.onlyPlacing settled).settle
  refine ⟨_, rfl, ?_, ?_, done⟩
  · rw [done, RequestsPlaced_records, AllRemoved_records _ _ distinct linked]
  · rw [done, (RequestsPlaced_out _).1, removal.policer]

end Sys2Proof.Machine
end

section
/-! SUPPORT. The removals at a second boundary, at a binding's deadline and by FLUSH_HOLD (R47, R52, R111, R112, R167). -/

namespace Sys2Proof.Machine

/-! ### The second boundary (R167) -/

theorem takeSecond_none (o : RiseOrder) {s : State} (h : s.cal.secondDue = false) : takeSecond o s = s :=
  if_neg (by rw [h]; decide)

theorem takeSecond_due (o : RiseOrder) {s : State} (h : s.cal.secondDue = true) :
    takeSecond o s = settle (supervise o { s with cal := { s.cal with secondDue := false } }) := if_pos h

/-- What the Calendar, the windows, the scans and the supervision hold is read by no consequence. -/
theorem Settled.secondTaken {s : State} (h : Settled s) (x : Supervision) : Settled { s with
    cal := { s.cal with secondDue := false }, agent := { s.agent with supervision := x } } :=
  h.congr rfl rfl rfl rfl rfl rfl rfl fun _ _ _ => rfl

theorem takeSecond_kept (o : RiseOrder) {s : State} (h : s.cal.secondDue = true)
    (idle : s.agent.supervision.state ≠ .counting) (settled : Settled s) :
    takeSecond o s = { s with cal := { s.cal with secondDue := false } } := by
  have kept : supervise o { s with cal := { s.cal with secondDue := false } } =
      { s with cal := { s.cal with secondDue := false } } := by
    unfold supervise
    dsimp only
    cases state : s.agent.supervision.state with
    | counting => exact absurd state idle
    | disabled => rfl
    | lapsed => rfl
  rw [takeSecond_due o h, kept]
  exact settle_settled (settled.secondTaken s.agent.supervision)

theorem takeSecond_counts (o : RiseOrder) {s : State} (h : s.cal.secondDue = true) {n : Fin 65536} (above : 0 < n.val)
    (counting : s.agent.supervision = ⟨.counting, ⟨n.val + 1, by omega⟩⟩) (settled : Settled s) :
    takeSecond o s = { s with
      cal := { s.cal with secondDue := false }
      agent := { s.agent with supervision := ⟨.counting, ⟨n.val, by omega⟩⟩ } } := by
  have more : (⟨n.val + 1, by omega⟩ : Fin 65537) ≠ 1 := fun e => by
    have := congrArg Fin.val e
    change n.val + 1 = 1 at this
    omega
  have less : (⟨n.val + 1, by omega⟩ : Fin 65537) - 1 = ⟨n.val, by omega⟩ := by
    apply Fin.ext
    rw [Fin.sub_def]
    change (65537 - 1 + (n.val + 1)) % 65537 = n.val
    omega
  have down : supervise o { s with cal := { s.cal with secondDue := false } } = { s with
      cal := { s.cal with secondDue := false }
      agent := { s.agent with supervision := ⟨.counting, ⟨n.val, by omega⟩⟩ } } := by
    unfold supervise countDown setSupervision
    rw [counting]
    dsimp only
    rw [if_neg more, less]
    rfl
  rw [takeSecond_due o h, down]
  exact settle_settled (settled.secondTaken _)

/-- The state of a lapse before its removals and its flag. -/
def lapsing (s : State) : State :=
  { s with cal := { s.cal with secondDue := false }, agent := { s.agent with supervision := ⟨.lapsed, 0⟩ } }

/-- The removals of a lapse with its flag (R111). -/
def lapsed (o : RiseOrder) (x : State) : State :=
  match o with
  | .flagFirst => AllRemoved .unsupervised (fun _ f => f.context.unsup == .block) (tell .supervisionLapsed x)
  | .recordsFirst => tell .supervisionLapsed (AllRemoved .unsupervised (fun _ f => f.context.unsup == .block) x)

theorem lapsed_removal (o : RiseOrder) (x : State) : Removal x (lapsed o x) := by
  cases o with
  | flagFirst => exact (Removal.tell _ _).trans (.allRemoved _ _ _)
  | recordsFirst => exact (Removal.allRemoved _ _ _).trans (.tell _ _)

theorem lapsed_flag (o : RiseOrder) (x : State) : (lapsed o x).exc.flags.getLsbD 6 = true := by
  cases o with
  | flagFirst => exact (Removal.allRemoved _ _ _).flags 6 (tell_sets .supervisionLapsed x)
  | recordsFirst => exact tell_sets .supervisionLapsed _

theorem RefsDistinct.congr {s t : State} (h : RefsDistinct s) (hold : t.hold = s.hold) : RefsDistinct t := by
  unfold RefsDistinct
  rw [hold]
  exact h

theorem PartnersLinked.congr {s t : State} (h : PartnersLinked s) (hold : t.hold = s.hold) : PartnersLinked t := by
  unfold PartnersLinked
  rw [hold]
  exact h

theorem lapsed_records (o : RiseOrder) {x : State} (distinct : RefsDistinct x) (linked : PartnersLinked x) :
    (lapsed o x).hold.records = x.hold.records.filter fun r =>
      !goesWith (fun _ f => f.context.unsup == .block) x.hold.records r := by
  cases o with
  | flagFirst =>
    have hold := (tell_out .supervisionLapsed x).hold
    have gone := AllRemoved_records .unsupervised (fun _ f => f.context.unsup == .block) (distinct.congr hold)
      (linked.congr hold)
    rw [hold] at gone
    exact gone
  | recordsFirst =>
    rw [lapsed, (tell_out _ _).hold]
    exact AllRemoved_records _ _ distinct linked

theorem supervise_lapses (o : RiseOrder) {s : State} (one : s.agent.supervision = ⟨.counting, 1⟩)
    (distinct : RefsDistinct s) (linked : PartnersLinked s) :
    supervise o { s with cal := { s.cal with secondDue := false } } = lapsed o (lapsing s) := by
  have laps : supervise o { s with cal := { s.cal with secondDue := false } } =
      lapse o { s with cal := { s.cal with secondDue := false } } := by
    unfold supervise
    dsimp only
    rw [one]
    rfl
  rw [laps]
  cases o with
  | flagFirst =>
    have hold : (tell .supervisionLapsed (lapsing s)).hold = s.hold := (tell_out _ _).hold
    exact removeAll_eq _ _ (distinct.congr hold) (linked.congr hold)
  | recordsFirst =>
    exact congrArg (tell .supervisionLapsed) (removeAll_eq _ _ (distinct.congr (t := lapsing s) rfl) (linked.congr rfl))

/-- Settles O16: by the mark, the Timer's state and its count; at the lapse the removals and what follows them. -/
theorem secondBoundaryCountsDownAndLapses : Obligations.SecondBoundaryCountsDownAndLapses := by
  refine fun o s settled => ⟨fun h => ?_, fun h idle => ?_, fun h n above counting => ?_, fun h one distinct linked => ?_⟩
  · exact congrArg Host.Outcome.next (takeSecond_none o h)
  · exact congrArg Host.Outcome.next (takeSecond_kept o h idle settled)
  · exact congrArg Host.Outcome.next (takeSecond_counts o h above counting settled)
  · have due : lapseDue s = true := by
      unfold lapseDue
      rw [h, one]
      rfl
    have same : exec (.supervisionLapse o) s = .next (takeSecond o s) := if_pos due
    refine ⟨same.symm, ?_⟩
    rintro pick rfl x rfl
    have taken : takeSecond o s = RequestsPlaced (lapsed o (lapsing s)) := by
      rw [takeSecond_due o h, supervise_lapses o one distinct linked]
      exact ((lapsed_removal o (lapsing s)).onlyPlacing (settled.secondTaken _)).settle
    refine ⟨_, same, ?_, ?_, ?_⟩
    · rw [taken, RequestsPlaced_records]
      exact lapsed_records o (distinct.congr (t := lapsing s) rfl) (linked.congr rfl)
    · rw [taken, (RequestsPlaced_out _).2.1]
      exact lapsed_flag o _
    · rw [taken]
      cases o <;> rfl

/-! ### The deadline of a binding (R47, R52) -/

/-- A Judge with another bind context. -/
def rebound (p : Port) (x : Option BindContext) (s : State) : State :=
  { s with judges := s.judges.set p { s.judges.get p with bind := x } }

theorem setBind_eq (p : Port) (x : Option BindContext) (s : State) : setBind p x s = rebound p x s := rfl

theorem rebound_closed (p : Port) (s : State) : Removal s (rebound p none s) := .closed p none (.inr rfl)

theorem rebound_get (p q : Port) (x : Option BindContext) (s : State) : (rebound p x s).judges.get q =
    if q = p then { s.judges.get p with bind := x } else s.judges.get q := PerPort.get_set ..

/-- Another bind context leaves a settled state settled where it does not end at once. -/
theorem Settled.rebound {s : State} (h : Settled s) (p : Port) (x : Option BindContext)
    (open_ : Machine.endReached p (rebound p x s) = none) : Settled (rebound p x s) := by
  have same (q : Port) : ((Machine.rebound p x s).judges.get q).phase = (s.judges.get q).phase ∧
      ((Machine.rebound p x s).judges.get q).arrivals = (s.judges.get q).arrivals ∧
      ((Machine.rebound p x s).judges.get q).slot = (s.judges.get q).slot := by
    rw [rebound_get]
    split
    case isTrue e => rw [e]; exact ⟨rfl, rfl, rfl⟩
    case isFalse => exact ⟨rfl, rfl, rfl⟩
  have ends (q : Port) : Machine.endReached q (Machine.rebound p x s) = none := by
    by_cases e : q = p
    · rw [e]
      exact open_
    · have judge : (Machine.rebound p x s).judges.get q = s.judges.get q := by rw [rebound_get, if_neg e]
      refine endReached_none_congr q (by rw [judge]) (fun d w => ?_) (h.endReached q)
      unfold someWaiting at w ⊢
      rw [judge]
      exact w
  have arrivals (q : Port) : Machine.takeArrival q (Machine.rebound p x s) = none := by
    have before := h.takeArrival q
    unfold Machine.takeArrival at before ⊢
    rw [(same q).1, (same q).2.1]
    split at before
    · dsimp only at before
      split at before <;> cases before
    · rfl
  have slots (q : Port) : Machine.takeSlot q (Machine.rebound p x s) = none :=
    takeSlot_none_congr q (same q).1 (same q).2.2 (h.takeSlot q)
  have places (q : Port) : Machine.placeRequest q (Machine.rebound p x s) = none :=
    placeRequest_none_congr (s := s) q rfl rfl (h.placeRequest q)
  exact (settled_iff _).2 ⟨grant_none_congr (s := s) rfl (fun q => (same q).1) rfl h.grant, ⟨ends .n, ends .f⟩,
    ⟨places .n, places .f⟩, ⟨slots .n, slots .f⟩, beginCommand_none_congr (s := s) rfl rfl rfl h.beginCommand,
    ⟨arrivals .n, arrivals .f⟩, openPort_none_congr (s := s) rfl h.openPort⟩

theorem Settled.closed {s : State} (h : Settled s) (p : Port) : Settled (Machine.rebound p none s) := by
  refine h.rebound p none ?_
  unfold Machine.endReached
  rw [rebound_get, if_pos rfl]

theorem someWaiting_iff (p : Port) (d : Uptime) (s : State) : someWaiting p d s = true ↔
    ∃ b ∈ judgePlaces (s.judges.get p), atOrBefore (s.buffer b).desc.uptime d = true := by
  unfold someWaiting judgePlaces arrivedBy
  rw [Bool.or_eq_true, List.any_eq_true]
  cases judgedBuffer (s.judges.get p).phase with
  | none => simp
  | some b => simp [or_and_right, exists_or]

section
variable {s : State} {p : Port} {c : BindContext}

theorem bindDeadlineAt_early (bind : (s.judges.get p).bind = some c)
    (early : c.reached = true ∨ atOrBefore c.deadline s.cal.uptime = false) : bindDeadlineAt p s = s := by
  have no : ¬(!c.reached && atOrBefore c.deadline s.cal.uptime) = true := by
    rcases early with h | h <;> simp [h]
  rw [bindDeadlineAt, bind]
  exact if_neg no

theorem bindDeadlineAt_due (bind : (s.judges.get p).bind = some c) (fresh : c.reached = false)
    (due : atOrBefore c.deadline s.cal.uptime = true) : bindDeadlineAt p s =
      if someWaiting p c.deadline s then rebound p (some { c with reached := true }) s else endBinding p c s := by
  have yes : (!c.reached && atOrBefore c.deadline s.cal.uptime) = true := by simp [fresh, due]
  rw [bindDeadlineAt, bind]
  exact if_pos yes

/-- The mark alone, while a telegram that arrived in time waits. -/
theorem takeBindTick_marks (settled : Settled s) (bind : (s.judges.get p).bind = some c) (fresh : c.reached = false)
    (due : atOrBefore c.deadline s.cal.uptime = true) (waits : someWaiting p c.deadline s = true) :
    takeBindTick p s = rebound p (some { c with reached := true }) s := by
  have stays : endReached p (rebound p (some { c with reached := true }) s) = none := by
    have still : someWaiting p c.deadline (rebound p (some { c with reached := true }) s) = true := by
      unfold someWaiting at waits ⊢
      rw [rebound_get, if_pos rfl]
      exact waits
    unfold endReached
    rw [rebound_get, if_pos rfl]
    exact if_neg (by simp [still])
  rw [takeBindTick, bindDeadlineAt_due bind fresh due, if_pos waits]
  exact settle_settled (settled.rebound p _ stays)

/-- The binding ends where none waits. -/
theorem takeBindTick_ends (bind : (s.judges.get p).bind = some c) (fresh : c.reached = false)
    (due : atOrBefore c.deadline s.cal.uptime = true) (none : someWaiting p c.deadline s = false) :
    takeBindTick p s = settle (endBinding p c s) := by
  rw [takeBindTick, bindDeadlineAt_due bind fresh due, if_neg (by rw [none]; decide)]

theorem endBinding_refused (refused : c.outcome = .refused) : endBinding p c s = rebound p none s := by
  rw [endBinding, refused]
  rfl

theorem endBinding_passed {l : ListKind} {x : Particulars} (passed : c.outcome = .passed l)
    (had : c.particulars = some x) : endBinding p c s =
      handOver ⟨.boundBroken, p, some c.source, some x.dest, some x.cls, x.index⟩ (rebound p none s) := by
  rw [endBinding, passed]
  dsimp only
  rw [brokenPassed, had]
  rfl

theorem endBinding_gone {n : Nat} (held : c.outcome = .held n) (gone : ∀ r ∈ s.hold.records, r.ref ≠ n) :
    endBinding p c s = rebound p none s := by
  have none : (rebound p none s).heldRecord n = none :=
    List.find?_eq_none.2 fun r hr => by simpa using gone r hr
  rw [endBinding, held]
  dsimp only
  rw [dropBroken, setBind_eq, removeRef, none]

theorem endBinding_removes {n : Nat} {r : HeldRecord} (held : c.outcome = .held n) (distinct : RefsDistinct s)
    (hr : r ∈ s.hold.records) (ref : r.ref = n) : endBinding p c s = Removed .boundBroken r (rebound p none s) := by
  rw [endBinding, held, ← ref]
  exact removeRef_eq (s := rebound p none s) distinct.1 hr

end

/-- What outlives a broken pair. -/
theorem outlives_eq {s : State} (distinct : RefsDistinct s) (linked : PartnersLinked s) {r : HeldRecord}
    (hr : r ∈ s.hold.records) : s.hold.records.filter (outlives r) =
      s.hold.records.filter fun q => q.ref != r.ref && q.role != .partner r.ref := by
  refine List.filter_congr fun q hq => ?_
  have names : (r.partnerRef != some q.ref) = (q.role != .partner r.ref) := by
    rw [Bool.eq_iff_iff, bne_iff_ne, bne_iff_ne, ne_eq, ne_eq, partner_iff distinct linked hq hr]
  rw [outlives, names]

theorem nothing_broken {s : State} (linked : PartnersLinked s) {n : Nat} (gone : ∀ r ∈ s.hold.records, r.ref ≠ n) :
    s.hold.records = s.hold.records.filter fun q => q.ref != n && q.role != .partner n := by
  refine (List.filter_eq_self.2 fun q hq => ?_).symm
  have alone : q.role ≠ .partner n := fun role => by
    obtain ⟨r, hr, ref, -⟩ := linked.2 q hq n role
    exact gone r hr ref
  simp [gone q hq, alone]

/-- Settles O22: by the mark, the waiting telegrams and the outcome of the binding's first. -/
theorem bindDeadlineEndsTheBinding : Obligations.BindDeadlineEndsTheBinding := by
  refine fun p s settled => ⟨fun none => ?_, fun c bind => ⟨fun early => ?_, fun fresh due => ⟨fun waits => ?_,
    fun late => ?_⟩⟩⟩
  · refine congrArg Host.Outcome.next (takeBindTick_none (fun c bind => ?_) settled)
    rw [none] at bind
    cases bind
  · refine congrArg Host.Outcome.next ?_
    rw [takeBindTick, bindDeadlineAt_early bind early, settle_settled settled]
  · exact congrArg Host.Outcome.next
      (takeBindTick_marks settled bind fresh due ((someWaiting_iff p c.deadline s).2 waits))
  · have none : someWaiting p c.deadline s = false := by
      rw [← Bool.not_eq_true, someWaiting_iff]
      rintro ⟨b, hb, early⟩
      rw [late b hb] at early
      cases early
    have ends := takeBindTick_ends bind fresh due none
    have closed := settled.closed p
    refine ⟨fun refused => ?_, fun l x passed had => ?_, fun n held distinct linked first => ⟨_, rfl, ?_⟩⟩
    · refine congrArg Host.Outcome.next ?_
      rw [ends, endBinding_refused refused]
      exact settle_settled closed
    · refine congrArg Host.Outcome.next ?_
      rw [ends, endBinding_passed passed had]
      exact settle_settled (closed.handOver _)
    · by_cases gone : ∀ r ∈ s.hold.records, r.ref ≠ n
      · have left : takeBindTick p s = rebound p .none s := by
          rw [ends, endBinding_gone held gone]
          exact settle_settled closed
        rw [left]
        refine ⟨nothing_broken linked gone, ?_⟩
        rintro x rfl
        exact ⟨fun _ => rfl, fun r hr ref => absurd ref (gone r hr)⟩
      · obtain ⟨r, hr, ref⟩ : ∃ r ∈ s.hold.records, r.ref = n := by simpa using gone
        have left (r : HeldRecord) (hr : r ∈ s.hold.records) (ref : r.ref = n) :
            takeBindTick p s = RequestsPlaced (Removed .boundBroken r (rebound p .none s)) := by
          rw [ends, endBinding_removes held distinct hr ref]
          exact ((Removal.removed .boundBroken r _).onlyPlacing closed).settle
        refine ⟨?_, ?_⟩
        · rw [left r hr ref, RequestsPlaced_records, removed_records, ← ref]
          exact outlives_eq distinct linked hr
        · rintro x rfl
          exact ⟨fun none => absurd ref (none r hr), left⟩

end Sys2Proof.Machine
end

section
/-! SUPPORT. FLUSH_HOLD (R112): the removals, the response, and the requests that follow. -/

namespace Sys2Proof.Machine

/-! ### A response -/

theorem offerResponse_uptimes (b : BufId) (d : Addr) (s : State) : SameUptimes s (offerResponse b d s) := by
  unfold offerResponse
  split
  case h_1 t appended => exact txAppend_uptimes appended
  case h_2 => exact (release_uptimes _ _).trans (handOver_uptimes _ _)

theorem respond_uptimes (b : BufId) (x : Status) (l : List Byte) (s : State) : SameUptimes s (respond b x l s) :=
  have written : SameUptimes s (writeResponse b x l s) := setBuffer_uptimes b _ s rfl
  written.trans (offerResponse_uptimes b _ _)

theorem offerResponse_flagsStay (b : BufId) (d : Addr) (s : State) : FlagsStay s (offerResponse b d s) := by
  unfold offerResponse
  split
  case h_1 t appended =>
    unfold txAppend at appended
    split at appended
    · cases appended
      exact fun _ set => set
    · cases appended
  case h_2 => exact handOver_flagsStay _ (release b s)

/-- With no command in execution and no swap due a completion is its response. -/
theorem complete_respond {b : BufId} {status : Status} {results : List Byte} {y : State} (idle : y.agent.exec = none)
    (due : ∀ i, y.commit.phase ≠ .due i) : complete b status results y = respond b status results y := by
  have ended : endExecution y = y := by
    unfold endExecution
    rw [← idle]
    rfl
  unfold complete swapIfDue
  rw [ended, (respond_out b status results y).commit]
  split
  case h_1 i phase => exact absurd phase (due i)
  all_goals rfl

/-- Requests that follow a response are those that would follow without it. -/
theorem OnlyPlacing.out {s t : State} (h : OnlyPlacing s) (out : SameButOut s t) (uptimes : SameUptimes s t) :
    OnlyPlacing t where
  grants := grant_none_congr out.store (fun p => by rw [out.judges]) (by rw [out.agent]) h.grants
  bindings p := endReached_none_congr p (by rw [out.judges])
    (fun d x => by rw [someWaiting_congr p d out.judges fun c _ => uptimes c]; exact x) (h.bindings p)
  commands := beginCommand_none_congr (by rw [out.agent]) (by rw [out.agent]) (by rw [out.store]) h.commands
  arrivals p := takeArrival_none_congr p (by rw [out.judges]) (h.arrivals p)
  opens := openPort_none_congr out.store h.opens
  idle p idle := by
    rw [out.judges] at idle
    obtain ⟨slot, none⟩ := h.idle p idle
    exact ⟨by rw [out.judges]; exact slot, placeRequest_none_congr p (by rw [out.hold]) (by rw [out.hold]) none⟩

/-! ### FLUSH_HOLD (R112) -/

/-- Which firsts a flush picks. -/
def flushes (scope : Option Index) : HeldRecord → FirstPart → Bool := fun r _ =>
  match scope with
  | none => true
  | some j => r.index == some j

theorem flushHeld_eq (scope : Option Index) {s : State} (distinct : RefsDistinct s) (linked : PartnersLinked s) :
    flushHeld scope s = AllRemoved .flushed (flushes scope) s := by
  cases scope <;> exact removeAll_eq _ _ distinct linked

theorem decode_flush {scope : Option Index} {i : Byte} (named : ∀ j, scope = some j → j.val = i.toNat) {code : Byte}
    (hcode : code = if scope.isSome then 1 else 0) : decodeCommand [0x15, code, i] = .command (.flush scope) := by
  cases scope with
  | none => rw [hcode]; rfl
  | some j =>
    have : j = indexOf i := Fin.ext (named j rfl)
    rw [hcode, this]
    rfl

theorem filter_not_length {α : Type} (f : α → Bool) (l : List α) :
    l.length - (l.filter fun x => !f x).length = (l.filter f).length := by
  have := List.length_eq_length_filter_add (l := l) f
  omega

/-- The command's execution: its removals, then its response with their count. -/
theorem carryFlush_eq (b : BufId) (scope : Option Index) {s : State} (distinct : RefsDistinct s)
    (linked : PartnersLinked s) (idle : s.agent.exec = none) (due : ∀ i, s.commit.phase ≠ .due i) :
    carryFlush b scope s = respond b .done
      [BitVec.ofNat 8 (s.hold.records.filter (goesWith (flushes scope) s.hold.records)).length]
      (AllRemoved .flushed (flushes scope) s) := by
  have removal := Removal.allRemoved .flushed (flushes scope) s
  unfold carryFlush
  dsimp only
  rw [flushHeld_eq scope distinct linked, complete_respond (by rw [removal.agent]; exact idle)
    (by rw [removal.commit]; exact due), AllRemoved_records _ _ distinct linked, filter_not_length]
  rfl

/-- A response with room on its list (R156). -/
theorem respond_room {b : BufId} {status : Status} {results : List Byte} {y : State} (idle : y.agent.exec = none)
    (due : ∀ i, y.commit.phase ≠ .due i) (room : (y.tx.get (y.buffer b).desc.port).normal.length < 16) :
    ((respond b status results y).buffer b).bytes = responseBytes (y.buffer b).bytes y.ownAddr status results ∧
      (respond b status results y).tx = y.tx.set (y.buffer b).desc.port (startTx (respond b status results y).buffer
        (listAdd (y.tx.get (y.buffer b).desc.port) .normal b)) := by
  have done := complete_room (status := status) (results := results) idle due room _ rfl
  rw [complete_respond idle due] at done
  rw [done]
  exact ⟨congrArg Buffer.bytes (setBuffer_buffer_same b _ y), rfl⟩

/-- A command of class WRITE as the Agent begins it. -/
theorem sendCommand_writes {h : CmdHead} {b : BufId} {rest : List BufId} {payload : List Byte} {s : State} {c : Cmd}
    (ready : CommandReady h b rest s) (privileged : Privileged h s.agent.settings.writeFloor s)
    (short : payload.length ≤ 200) (write : isWrite payload = true) (decoded : decodeCommand payload = .command c) :
    sendCommand h payload s = settleFor 1022 (carryOut b s.lapsed c (reload (received h b rest payload s))) := by
  rw [sendCommand_ready ready short, startCommand_privileged (by rw [write]; exact privileged) short, decoded]

/-- Settles O53: the removals leave the command's buffer, the response follows, then the requests. -/
theorem flushHoldTakesOutTheRecords : Obligations.FlushHoldTakesOutTheRecords := by
  rintro h b rest s ⟨ready, privileged, room⟩ distinct linked scope i named pick hpick count hcount code hcode
  obtain rfl : pick = flushes scope := by
    rw [hpick]
    cases scope <;> rfl
  have sent := sendCommand_writes ready privileged (by simp) rfl (decode_flush named hcode)
  generalize hx : reload (received h b rest [0x15, code, i] s) = x at sent
  have settled : Settled x := by
    rw [← hx, reload_received]
    exact settled_received (x := Reloaded s) ready rfl rfl rfl rfl rfl rfl rfl
  have buffer : x.buffer b = ⟨commandTelegram h s.ownAddr [0x15, code, i], arrivalDescriptor h.port 14 s⟩ := by
    rw [← hx]
    exact received_buffer h b rest _ s
  obtain ⟨-, -, -, -, -, -, idle, -, due, -⟩ := ready
  have distinct' : RefsDistinct x := distinct.congr (by rw [← hx]; rfl)
  have linked' : PartnersLinked x := linked.congr (by rw [← hx]; rfl)
  have records : x.hold.records = s.hold.records := by rw [← hx]; rfl
  have idle' : x.agent.exec = none := by rw [← hx]; exact idle
  have due' : ∀ i, x.commit.phase ≠ .due i := by rw [← hx]; exact due
  have removal := Removal.allRemoved .flushed (flushes scope) x
  have carried : carryOut b s.lapsed (.flush scope) x =
      respond b .done [count] (AllRemoved .flushed (flushes scope) x) := by
    rw [hcount, ← records]
    exact carryFlush_eq b scope distinct' linked' idle' due'
  generalize hy : AllRemoved .flushed (flushes scope) x = y at *
  have out := respond_out b .done [count] y
  have final : sendCommand h [0x15, code, i] s = RequestsPlaced (respond b .done [count] y) := by
    rw [sent, carried]
    exact ((removal.onlyPlacing settled).out out (respond_uptimes _ _ _ _)).settleFor 1020
  obtain ⟨-, -, pool, tx, rx⟩ := RequestsPlaced_out (respond b .done [count] y)
  have rx' : (RequestsPlaced (respond b .done [count] y)).rx = x.rx := rx.trans (out.rx.trans removal.rx)
  refine ⟨_, x, congrArg Host.Outcome.next final, ?_, ?_, fun off => ?_, ?_, ?_, fun c hc => ?_, ?_, ?_, by rw [hy]⟩
  · refine received_received h b rest [0x15, code, i] s _ ?_
    rw [rx', ← hx]
    rfl
  · rw [RequestsPlaced_records, out.hold, ← hy, AllRemoved_records _ _ distinct' linked', records]
  · obtain ⟨buffers, sameTx⟩ := removal.quiet (by rw [← hx]; exact off)
    have command : y.buffer b = x.buffer b := by rw [State.buffer, State.buffer, buffers]
    have tx' : y.tx = s.tx := by rw [sameTx, ← hx]; rfl
    have port : (y.buffer b).desc.port = h.port := by rw [command, buffer]; rfl
    obtain ⟨bytes, list⟩ := respond_room (status := .done) (results := [count])
      (by rw [removal.agent]; exact idle') (by rw [removal.commit]; exact due')
      (by rw [tx', port]; exact room)
    have own : y.ownAddr = s.ownAddr := by rw [removal.ownAddr, ← hx]; rfl
    have same : (RequestsPlaced (respond b .done [count] y)).buffer = (respond b .done [count] y).buffer := by
      funext c
      rw [State.buffer, State.buffer, pool]
    rw [same, tx, list, port, tx', bytes, command, buffer, own]
    refine ⟨?_, rfl⟩
    unfold responseBytes
    rw [command_source, command_seq, command_payload _ _ _ (by simp)]
    rfl
  · rw [rx', ← hx]
    rfl
  · rw [← hx]
    rfl
  · rw [← hx]
    exact received_other h b rest _ s hc
  · rw [buffer]
  · rw [buffer]
    rfl

end Sys2Proof.Machine
end

section
/-! SUPPORT. The minute boundary at the Window Monitor and at the Commit Controller, in either order (R58, R77, R81, R147,
R149). -/

namespace Sys2Proof.Machine

/-! ### The boundary at the Window Monitor (R77) -/

/-- What a boundary taken by the Window Monitor changes: the mark, the Open Sets, and the scans of an announcement. -/
def evaluated (w : WindowMonitor) (h : HoldQueue) (s : State) : State :=
  { s with
    cal := { s.cal with windowMinute := none }
    windows := w
    hold := { s.hold with scan := h.scan, waiting := h.waiting } }

theorem evaluated_settled (w : WindowMonitor) (h : HoldQueue) {s : State} (settled : Settled s) :
    Settled (evaluated w h s) := settled.congr rfl rfl rfl rfl rfl rfl rfl fun _ _ _ => rfl

/-- The evaluation of a boundary's minute. -/
def windowsTaken (m : MinuteMark) (s : State) : State :=
  fullEvaluation m (s.setCal { s.cal with windowMinute := none })

theorem windowsTaken_eq (m : MinuteMark) (s : State) : windowsTaken m s =
    evaluated ⟨s.windows.records, allOpenSets s.windows m s.cal.quality⟩ (windowsTaken m s).hold s :=
  fullEvaluation_frame m (s.setCal { s.cal with windowMinute := none })

theorem takeWindowMinute_some {m : MinuteMark} {s : State} (due : s.cal.windowMinute = some m) (settled : Settled s) :
    takeWindowMinute s = windowsTaken m s := by
  have after : Settled (windowsTaken m s) := by
    rw [windowsTaken_eq]
    exact evaluated_settled _ _ settled
  rw [takeWindowMinute, due]
  exact settle_settled after

theorem windowsTaken_open (m : MinuteMark) (s : State) (b : Bank) (i : Fin 32) :
    ((windowsTaken m s).windows.openSets.get b).getLsbD i.val =
      windowOpen (s.windows.records.get b)[i] m s.cal.quality := by
  rw [windowsTaken_eq]
  change ((allOpenSets s.windows m s.cal.quality).get b).getLsbD i.val = _
  rw [allOpenSets_get, openSetOf_bit]

theorem windowsTaken_scans (m : MinuteMark) (s : State) : ScansAfterOpenings s.store.active s s (windowsTaken m s) :=
  (fullEvaluation_scans m (s.setCal { s.cal with windowMinute := none })).congr rfl rfl rfl rfl rfl

/-! ### The boundary at the Commit Controller (R147, R149) -/

theorem shadowBusy_iff (s : State) : s.shadowBusy = true ↔ ∃ x, s.agent.exec = some x ∧
    ((∃ i e, x.job = .writeEntry i e) ∨ (∃ i, x.job = .invalidate i) ∨ (∃ i n, x.job = .copy i n) ∨
      ∃ i, x.job = .clear i) := by
  unfold State.shadowBusy
  cases s.agent.exec with
  | none => simp
  | some x =>
    dsimp only
    cases job : x.job <;> simp [Job.modifiesShadow, job]

/-- The state of a swap before the held records are marked. -/
def swapping (s : State) : State :=
  { s with
    store := { s.store with active := otherBank s.store.active }
    commit := ⟨.idle, s.commit.count + 1⟩
    policer := { s.policer with streams := Vector.ofFn fun i : Fin 256 =>
      ⟨if (s.param (otherBank s.store.active) i).usable then (s.param (otherBank s.store.active) i).ceiling else 0,
        0, 0, 0⟩ } }

theorem swapBanks_eq (s : State) : swapBanks s = tell .commitDone (CommitMarked (swapping s)) := by
  have made : swapBanks s = tell .commitDone (markPending (swapping s)) := rfl
  rw [made, markPending_eq]

theorem OnlyRequests.requestStaled {s : State} (h : OnlyRequests s) (p : Port) : OnlyRequests (RequestStaled p s) := by
  rw [← staleRequest_eq]
  unfold staleRequest
  split
  case h_1 => exact h
  case h_2 q _ =>
    split
    · have freed := (onlyRequests_mapJudge h p (fun j => { j with slot := none }) rfl rfl rfl id).1
      exact (onlyRequests_setOutstanding freed _).1
    · exact (onlyRequests_setOutstanding h _).1

/-- After a swap in a settled state only requests follow. -/
theorem swapBanks_onlyRequests {s : State} (settled : Settled s) : OnlyRequests (swapBanks s) := by
  have swapped : OnlyRequests (swapping s) := settled.onlyRequests.congr rfl rfl rfl fun _ => ⟨rfl, rfl, rfl, id⟩
  have marked : OnlyRequests { swapping s with hold := { (swapping s).hold with
      records := (swapping s).hold.records.map fun r => { r with pending := true } } } :=
    swapped.congr rfl rfl rfl fun _ => ⟨rfl, rfl, rfl, id⟩
  rw [swapBanks_eq]
  exact ((marked.requestStaled .n).requestStaled .f).out (tell_out _ _) (tell_uptimes _ _)

/-- The boundary at the Commit Controller with its mark taken. -/
def commitSeen (s : State) : State := { s with cal := { s.cal with commitMinute := none } }

theorem commitSeen_settled {s : State} (settled : Settled s) : Settled (commitSeen s) :=
  settled.congr rfl rfl rfl rfl rfl rfl rfl fun _ _ _ => rfl

section
variable {m : MinuteMark} {s : State}

theorem takeCommitMinute_some (due : s.cal.commitMinute = some m) :
    takeCommitMinute s = settle (commitBoundary m (commitSeen s)) := by
  rw [takeCommitMinute, due]
  rfl

theorem commitBoundary_elsewhere (h : s.commit.phase ≠ .scheduled ⟨m.day, m.minute⟩) : commitBoundary m s = s := by
  unfold commitBoundary
  split
  case h_1 i phase =>
    refine if_neg ?_
    rintro ⟨day, minute⟩
    exact h (by rw [phase, ← day, ← minute])
  case h_2 => rfl
  case h_3 => rfl

theorem commitBoundary_here (h : s.commit.phase = .scheduled ⟨m.day, m.minute⟩) : commitBoundary m s =
    if s.shadowBusy then { s with commit := ⟨.due ⟨m.day, m.minute⟩, s.commit.count⟩ } else swapBanks s := by
  unfold commitBoundary
  rw [h]
  exact if_pos ⟨rfl, rfl⟩

theorem takeCommitMinute_elsewhere (due : s.cal.commitMinute = some m) (settled : Settled s)
    (h : s.commit.phase ≠ .scheduled ⟨m.day, m.minute⟩) : takeCommitMinute s = commitSeen s := by
  rw [takeCommitMinute_some due, commitBoundary_elsewhere (s := commitSeen s) h]
  exact settle_settled (commitSeen_settled settled)

theorem takeCommitMinute_busy (due : s.cal.commitMinute = some m) (settled : Settled s)
    (h : s.commit.phase = .scheduled ⟨m.day, m.minute⟩) (busy : s.shadowBusy = true) :
    takeCommitMinute s = { commitSeen s with commit := ⟨.due ⟨m.day, m.minute⟩, s.commit.count⟩ } := by
  rw [takeCommitMinute_some due, commitBoundary_here (s := commitSeen s) h,
    if_pos (show (commitSeen s).shadowBusy = true from busy)]
  exact settle_settled (settled.congr rfl rfl rfl rfl rfl rfl rfl fun _ _ _ => rfl)

theorem takeCommitMinute_swaps (due : s.cal.commitMinute = some m) (settled : Settled s)
    (h : s.commit.phase = .scheduled ⟨m.day, m.minute⟩) (free : s.shadowBusy = false) :
    FollowsOnly (swapBanks (commitSeen s)) (takeCommitMinute s) := by
  rw [takeCommitMinute_some due, commitBoundary_here (s := commitSeen s) h,
    if_neg (by rw [show (commitSeen s).shadowBusy = false from free]; decide)]
  exact settle_follows (swapBanks_onlyRequests (commitSeen_settled settled))

end

/-- What follows at once leaves the blocks that have no part in it. -/
theorem FollowsOnly.frame {x t : State} (h : FollowsOnly x t) : t.cal = x.cal ∧ t.windows = x.windows ∧
    t.hold = { x.hold with outstanding := t.hold.outstanding } ∧ t.exc = x.exc ∧
      t.store.active = x.store.active := by
  obtain ⟨⟨-, requests⟩, -⟩ := h
  have written : (WrittenAtGrant x).cal = x.cal ∧ (WrittenAtGrant x).windows = x.windows ∧
      (WrittenAtGrant x).hold = x.hold ∧ (WrittenAtGrant x).exc = x.exc ∧
      (WrittenAtGrant x).store.active = x.store.active := by
    unfold WrittenAtGrant
    split <;> exact ⟨rfl, rfl, rfl, rfl, rfl⟩
  unfold WithRequests at requests
  split at requests
  · obtain ⟨cal, windows, hold, exc, active⟩ := written
    refine ⟨?_, ?_, ?_, ?_, ?_⟩
    · rw [requests, cal]
    · rw [requests, windows]
    · rw [← hold, congrArg State.hold requests]
    · rw [requests, exc]
    · rw [requests, active]
  · refine ⟨?_, ?_, congrArg State.hold requests, ?_, ?_⟩
    all_goals rw [requests]

/-! ### An evaluation after a swap -/

theorem sendReport_evaluated (f : Flag) (w : WindowMonitor) (h : HoldQueue) (s : State) :
    sendReport f (evaluated w h s) = evaluated w h (sendReport f s) := by
  have same : reportWanted f (evaluated w h s) = reportWanted f s := rfl
  cases wanted : reportWanted f s with
  | none =>
    unfold sendReport
    rw [same, wanted]
  | some a =>
    cases free : s.pool.free with
    | nil =>
      rw [sendReport_noBuffer wanted free, sendReport_noBuffer (s := evaluated w h s) (same.trans wanted) free]
      rfl
    | cons b rest =>
      rw [sendReport_buffer wanted free, sendReport_buffer (s := evaluated w h s) (same.trans wanted) free]
      unfold txAppend
      have room : listRoom ((reportWritten f a b rest (evaluated w h s)).tx.get .f) .normal =
        listRoom ((reportWritten f a b rest s).tx.get .f) .normal := rfl
      rw [room]
      cases listRoom ((reportWritten f a b rest s).tx.get .f) .normal <;> rfl

theorem tell_evaluated (f : Flag) (w : WindowMonitor) (h : HoldQueue) (s : State) :
    tell f (evaluated w h s) = evaluated w h (tell f s) := by
  cases clear : s.exc.flags.getLsbD f.bit with
  | true => rw [tell_set clear, tell_set (s := evaluated w h s) clear]
  | false =>
    rw [tell_clear clear, tell_clear (s := evaluated w h s) clear, ← sendReport_evaluated]
    rfl

theorem requestStaled_evaluated (p : Port) (w : WindowMonitor) (h : HoldQueue) (s : State) :
    RequestStaled p (evaluated w h s) = evaluated w h (RequestStaled p s) := by
  have same : (evaluated w h s).hold.outstanding.get p = s.hold.outstanding.get p := rfl
  unfold RequestStaled
  rw [same]
  cases s.hold.outstanding.get p with
  | none => rfl
  | some q =>
    have slot : (evaluated w h s).judges = s.judges := rfl
    unfold Withdrawn
    dsimp only
    rw [slot]
    split <;> rfl

theorem swapBanks_evaluated (w : WindowMonitor) (h : HoldQueue) (s : State) :
    swapBanks (evaluated w h s) = evaluated w h (swapBanks s) := by
  rw [swapBanks_eq, swapBanks_eq, ← tell_evaluated]
  unfold CommitMarked
  rw [← requestStaled_evaluated, ← requestStaled_evaluated]
  rfl

theorem requested_evaluated (p : Port) (w : WindowMonitor) (h : HoldQueue) (s : State) :
    Requested p (evaluated w h s) = evaluated w h (Requested p s) := by
  have outstanding : (evaluated w h s).hold.outstanding = s.hold.outstanding := rfl
  have records : (evaluated w h s).hold.records = s.hold.records := rfl
  unfold Requested
  rw [outstanding, records]
  split <;> rfl

theorem FollowsOnly.evaluated {x t : State} (f : FollowsOnly x t) (w : WindowMonitor) (h : HoldQueue) :
    FollowsOnly (evaluated w h x) (evaluated w h t) := by
  obtain ⟨⟨agent, requests⟩, left, settled⟩ := f
  refine ⟨⟨agent, ?_⟩, fun p held => ?_, evaluated_settled w h settled⟩
  · have written : WrittenAtGrant (Machine.evaluated w h x) = Machine.evaluated w h (WrittenAtGrant x) := by
      have exec : (Machine.evaluated w h x).agent.exec = x.agent.exec := rfl
      unfold WrittenAtGrant
      rw [exec]
      split <;> rfl
    have split_ : (if (Machine.evaluated w h x).store.agentRequest = true ∧
        (Machine.evaluated w h t).store.agentRequest = false then WrittenAtGrant (Machine.evaluated w h x)
        else Machine.evaluated w h x) = Machine.evaluated w h (if x.store.agentRequest = true ∧
          t.store.agentRequest = false then WrittenAtGrant x else x) := by
      rw [written]
      exact (apply_ite (Machine.evaluated w h) _ _ _).symm
    rw [split_]
    exact congrArg (Machine.evaluated w h) requests
  · obtain ⟨outstanding, judge⟩ := left p held
    rw [requested_evaluated]
    exact ⟨outstanding, judge⟩

/-! ### Both at one boundary (R81) -/

theorem requestStaled_frame (p : Port) (s : State) : (RequestStaled p s).cal = s.cal ∧
    (RequestStaled p s).windows = s.windows ∧ (RequestStaled p s).store = s.store ∧
    (RequestStaled p s).hold = { s.hold with outstanding := (RequestStaled p s).hold.outstanding } := by
  unfold RequestStaled Withdrawn
  split
  · exact ⟨rfl, rfl, rfl, rfl⟩
  · split <;> exact ⟨rfl, rfl, rfl, rfl⟩

theorem swapBanks_frame (s : State) : (swapBanks s).cal = s.cal ∧ (swapBanks s).windows = s.windows ∧
    (swapBanks s).store.active = otherBank s.store.active ∧ (swapBanks s).hold = { s.hold with
      records := s.hold.records.map fun r => { r with pending := true }
      outstanding := (swapBanks s).hold.outstanding } := by
  have out := tell_out .commitDone (CommitMarked (swapping s))
  rw [swapBanks_eq, out.cal, out.windows, out.store, out.hold]
  unfold CommitMarked
  obtain ⟨cal, windows, store, hold⟩ := requestStaled_frame .f (RequestStaled .n { swapping s with
    hold := { (swapping s).hold with records := (swapping s).hold.records.map fun r => { r with pending := true } } })
  obtain ⟨cal', windows', store', hold'⟩ := requestStaled_frame .n { swapping s with
    hold := { (swapping s).hold with records := (swapping s).hold.records.map fun r => { r with pending := true } } }
  refine ⟨cal.trans cal', windows.trans windows', ?_, ?_⟩
  · rw [store, store']
    rfl
  · rw [hold', swapping] at hold
    exact hold

/-- What a boundary of the minute `m` at both blocks leaves: the evaluation's windows and scans, and the schedule fired
where it is the minute's. -/
structure BoundaryTaken (m : MinuteMark) (w : WindowMonitor) (h : HoldQueue) (s t : State) : Prop where
  elsewhere : s.commit.phase ≠ .scheduled ⟨m.day, m.minute⟩ → t = evaluated w h (commitSeen s)
  busy : s.commit.phase = .scheduled ⟨m.day, m.minute⟩ → s.shadowBusy = true →
    t = { evaluated w h (commitSeen s) with commit := ⟨.due ⟨m.day, m.minute⟩, s.commit.count⟩ }
  swaps : s.commit.phase = .scheduled ⟨m.day, m.minute⟩ → s.shadowBusy = false →
    FollowsOnly (swapBanks (evaluated w h (commitSeen s))) t

theorem BoundaryTaken.frame {m : MinuteMark} {w : WindowMonitor} {h : HoldQueue} {s t : State}
    (taken : BoundaryTaken m w h s t) : t.cal = { s.cal with windowMinute := none, commitMinute := none } ∧
      t.windows = w ∧ t.hold.scan = h.scan ∧ t.hold.waiting = h.waiting := by
  by_cases here : s.commit.phase = .scheduled ⟨m.day, m.minute⟩
  · cases busy : s.shadowBusy with
    | true =>
      rw [taken.busy here busy]
      exact ⟨rfl, rfl, rfl, rfl⟩
    | false =>
      obtain ⟨cal, windows, hold, -, -⟩ := (taken.swaps here busy).frame
      obtain ⟨cal', windows', -, hold'⟩ := swapBanks_frame (evaluated w h (commitSeen s))
      rw [cal, cal', windows, windows', hold, hold']
      exact ⟨rfl, rfl, rfl, rfl⟩
  · rw [taken.elsewhere here]
    exact ⟨rfl, rfl, rfl, rfl⟩

/-- The windows at a minute. -/
def windowsAt (m : MinuteMark) (s : State) : WindowMonitor :=
  ⟨s.windows.records, allOpenSets s.windows m s.cal.quality⟩

section
variable {m : MinuteMark} {s : State}

theorem evaluationFirst_taken (window : s.cal.windowMinute = some m) (commit : s.cal.commitMinute = some m)
    (settled : Settled s) :
    BoundaryTaken m (windowsAt m s) (windowsTaken m s).hold s (takeMinute .evaluationFirst s) := by
  have first : takeMinute .evaluationFirst s =
      takeCommitMinute (evaluated (windowsAt m s) (windowsTaken m s).hold s) := by
    refine congrArg takeCommitMinute ?_
    rw [takeWindowMinute_some window settled]
    exact windowsTaken_eq m s
  have after := evaluated_settled (windowsAt m s) (windowsTaken m s).hold settled
  rw [first]
  exact ⟨takeCommitMinute_elsewhere (s := evaluated _ _ s) commit after,
    takeCommitMinute_busy (s := evaluated _ _ s) commit after,
    takeCommitMinute_swaps (s := evaluated _ _ s) commit after⟩

/-- The Commit Controller's part leaves the windows and the Window Monitor's mark. -/
theorem takeCommitMinute_frame (commit : s.cal.commitMinute = some m) (settled : Settled s) :
    (takeCommitMinute s).cal = { s.cal with commitMinute := none } ∧ (takeCommitMinute s).windows = s.windows ∧
      Settled (takeCommitMinute s) := by
  by_cases here : s.commit.phase = .scheduled ⟨m.day, m.minute⟩
  · cases busy : s.shadowBusy with
    | true =>
      rw [takeCommitMinute_busy commit settled here busy]
      exact ⟨rfl, rfl, settled.congr rfl rfl rfl rfl rfl rfl rfl fun _ _ _ => rfl⟩
    | false =>
      have follows := takeCommitMinute_swaps commit settled here busy
      obtain ⟨cal, windows, -⟩ := follows.frame
      obtain ⟨cal', windows', -⟩ := swapBanks_frame (commitSeen s)
      exact ⟨cal.trans cal', windows.trans windows', follows.2.2⟩
  · rw [takeCommitMinute_elsewhere commit settled here]
    exact ⟨rfl, rfl, commitSeen_settled settled⟩

theorem commitFirst_eq (window : s.cal.windowMinute = some m) (commit : s.cal.commitMinute = some m)
    (settled : Settled s) : takeMinute .commitFirst s = windowsTaken m (takeCommitMinute s) ∧
      takeMinute .commitFirst s =
        evaluated (windowsAt m s) (windowsTaken m (takeCommitMinute s)).hold (takeCommitMinute s) := by
  obtain ⟨cal, windows, after⟩ := takeCommitMinute_frame commit settled
  have taken : takeMinute .commitFirst s = windowsTaken m (takeCommitMinute s) :=
    takeWindowMinute_some (by rw [cal]; exact window) after
  refine ⟨taken, ?_⟩
  have made := windowsTaken_eq m (takeCommitMinute s)
  rw [windows, cal] at made
  exact taken.trans made

theorem commitFirst_taken (window : s.cal.windowMinute = some m) (commit : s.cal.commitMinute = some m)
    (settled : Settled s) :
    BoundaryTaken m (windowsAt m s) (windowsTaken m (takeCommitMinute s)).hold s (takeMinute .commitFirst s) := by
  rw [(commitFirst_eq window commit settled).2]
  generalize (windowsTaken m (takeCommitMinute s)).hold = h
  refine ⟨fun elsewhere => ?_, fun here busy => ?_, fun here free => ?_⟩
  · rw [takeCommitMinute_elsewhere commit settled elsewhere]
  · rw [takeCommitMinute_busy commit settled here busy]
    rfl
  · rw [swapBanks_evaluated]
    exact (takeCommitMinute_swaps commit settled here free).evaluated _ h

end

/-! ### The scans of an evaluation after a swap -/

theorem chosenBy_congr (k : ScanKind) {h g : HoldQueue} (records : g.records = h.records) :
    chosenBy k g = chosenBy k h := by
  unfold chosenBy
  rw [records]

theorem beginScans_congr (l : List ScanKind) {h g : HoldQueue} (records : g.records = h.records) :
    (beginScans g l).scan = (beginScans h l).scan ∧ (beginScans g l).waiting = (beginScans h l).waiting := by
  induction l with
  | nil => exact ⟨rfl, rfl⟩
  | cons k rest ih =>
    unfold beginScans
    rw [chosenBy_congr k records]
    split
    · exact ih
    · exact ⟨rfl, rfl⟩

/-- An announcement reads of the Hold Queue its records and its scans. -/
theorem trigger_scans (k : ScanKind) {s t : State} (records : t.hold.records = s.hold.records)
    (scan : t.hold.scan = s.hold.scan) (waiting : t.hold.waiting = s.hold.waiting) :
    (trigger k t).hold.scan = (trigger k s).hold.scan ∧ (trigger k t).hold.waiting = (trigger k s).hold.waiting := by
  unfold trigger
  rw [scan, waiting]
  split
  · exact beginScans_congr _ records
  · exact ⟨scan, rfl⟩

theorem ScansAfterOpenings.records {b : Bank} {s u u' t : State} (h : ScansAfterOpenings b s u t)
    (records : u'.hold.records = u.hold.records) (scan : u'.hold.scan = u.hold.scan)
    (waiting : u'.hold.waiting = u.hold.waiting) : ScansAfterOpenings b s u' t := by
  rintro opened rfl g rfl
  obtain ⟨scans, waits⟩ := h _ rfl _ rfl
  split at scans
  case isTrue closed =>
    rw [if_pos closed] at waits ⊢
    exact ⟨scans.trans scan.symm, waits.trans waiting.symm⟩
  case isFalse opens =>
    rw [if_neg opens] at waits ⊢
    obtain ⟨scans', waits'⟩ := trigger_scans (.window b (t.windows.openSets.get b &&& ~~~(s.windows.openSets.get b)))
      records scan waiting
    exact ⟨scans.trans scans'.symm, waits.trans waits'.symm⟩

/-- The evaluation that comes after the boundary at the Commit Controller announces from what that has left. -/
theorem commitFirst_scans {m : MinuteMark} {s : State} (window : s.cal.windowMinute = some m)
    (commit : s.cal.commitMinute = some m) (settled : Settled s) :
    ScansAfterOpenings (takeCommitMinute s).store.active s (takeCommitMinute s) (takeMinute .commitFirst s) := by
  rw [(commitFirst_eq window commit settled).1]
  refine (windowsTaken_scans m (takeCommitMinute s)).congr ?_ rfl rfl rfl rfl
  rw [(takeCommitMinute_frame commit settled).2.1]

/-- The scans of both at one boundary where the evaluation comes first or no swap is made. -/
theorem boundary_scans {m : MinuteMark} {s : State} (window : s.cal.windowMinute = some m)
    (commit : s.cal.commitMinute = some m) (settled : Settled s) {o : BoundaryOrder}
    (order : o = .evaluationFirst ∨ o = .commitFirst) (h : ¬(s.commit.phase = .scheduled ⟨m.day, m.minute⟩ ∧
      s.shadowBusy = false) ∨ o = .evaluationFirst) : ScansAfterOpenings s.store.active s s (takeMinute o s) := by
  by_cases first : o = .evaluationFirst
  · subst first
    obtain ⟨-, windows, scan, waiting⟩ := (evaluationFirst_taken window commit settled).frame
    refine (windowsTaken_scans m s).congr rfl rfl ?_ scan waiting
    rw [windows, windowsTaken_eq]
    rfl
  · obtain rfl : o = .commitFirst := order.resolve_left first
    have kept := h.resolve_right first
    have scans := commitFirst_scans window commit settled
    by_cases here : s.commit.phase = .scheduled ⟨m.day, m.minute⟩
    · have busy : s.shadowBusy = true := by
        rw [← Bool.not_eq_false]
        exact fun free => kept ⟨here, free⟩
      rw [takeCommitMinute_busy commit settled here busy] at scans
      exact scans.congr rfl rfl rfl rfl rfl
    · rw [takeCommitMinute_elsewhere commit settled here] at scans
      exact scans.congr rfl rfl rfl rfl rfl

/-- The scans after a swap: the records are those marked pending. -/
theorem swapped_scans {m : MinuteMark} {s : State} (window : s.cal.windowMinute = some m)
    (commit : s.cal.commitMinute = some m) (settled : Settled s)
    (here : s.commit.phase = .scheduled ⟨m.day, m.minute⟩) (free : s.shadowBusy = false) :
    ScansAfterOpenings (otherBank s.store.active) s
      { s with hold := { s.hold with records := s.hold.records.map fun r => { r with pending := true } } }
      (takeMinute .commitFirst s) := by
  have scans := commitFirst_scans window commit settled
  obtain ⟨-, -, hold, -, active⟩ := (takeCommitMinute_swaps commit settled here free).frame
  obtain ⟨-, -, active', hold'⟩ := swapBanks_frame (commitSeen s)
  rw [active.trans active'] at scans
  refine scans.records ?_ ?_ ?_
  all_goals rw [hold, hold']; rfl

theorem swap_tells {x t : State} (follows : FollowsOnly (swapBanks x) t) : t.exc.flags.getLsbD 5 = true := by
  obtain ⟨-, -, -, exc, -⟩ := follows.frame
  rw [exc, swapBanks_eq]
  exact tell_sets .commitDone _

/-- Settles O18: each block alone, then both in either order by `BoundaryTaken`. -/
theorem minuteBoundaryEvaluatesAndCommits : Obligations.MinuteBoundaryEvaluatesAndCommits := by
  refine ⟨fun s => ⟨?_, ?_, fun none => ?_, fun none => ?_⟩, shadowBusy_iff, fun m s window settled => ?_, ?_⟩
  · rintro u hu
    rw [← Host.Outcome.next.inj hu]
    rfl
  · rintro u hu
    rw [← Host.Outcome.next.inj hu]
    rfl
  · exact congrArg Host.Outcome.next (takeWindowMinute_none none)
  · exact congrArg Host.Outcome.next (takeCommitMinute_none none)
  · refine ⟨windowsTaken m s, congrArg Host.Outcome.next (takeWindowMinute_some window settled), ?_,
      windowsTaken_open m s, windowsTaken_scans m s, ?_⟩
    · rw [windowsTaken_eq]
      exact evaluated_settled _ _ settled
    · have made := windowsTaken_eq m s
      rw [show (windowsTaken m s).windows.openSets = allOpenSets s.windows m s.cal.quality by rw [made]; rfl]
      exact made
  · rintro m s commit settled here hhere swapped rfl
    refine ⟨?_, fun window o order => ?_⟩
    · rintro x rfl
      refine ⟨_, rfl, fun h => ?_, fun h busy => ?_, fun h free => ?_⟩
      · exact takeCommitMinute_elsewhere commit settled (mt hhere.2 h)
      · exact takeCommitMinute_busy commit settled (hhere.1 h) busy
      · have follows := takeCommitMinute_swaps commit settled (hhere.1 h) free
        refine ⟨?_, swap_tells follows⟩
        rw [swapBanks_eq] at follows
        exact follows
    · obtain ⟨h, taken⟩ : ∃ h, BoundaryTaken m (windowsAt m s) h s (takeMinute o s) := by
        rcases order with rfl | rfl
        · exact ⟨_, evaluationFirst_taken window commit settled⟩
        · exact ⟨_, commitFirst_taken window commit settled⟩
      obtain ⟨cal, windows, scan, waiting⟩ := taken.frame
      refine ⟨_, rfl, cal, by rw [windows]; rfl, fun b i => ?_, ?_, fun kept => ?_, fun at_ free last => ?_⟩
      · rw [windows, ← windowsTaken_open m s b i, windowsTaken_eq]
        rfl
      · rintro x rfl
        rw [cal, windows, scan, waiting]
        refine ⟨fun n => taken.elsewhere (mt hhere.2 n), fun y busy => taken.busy (hhere.1 y) busy, fun y free => ?_⟩
        have follows := taken.swaps (hhere.1 y) free
        refine ⟨?_, swap_tells follows⟩
        rw [swapBanks_eq] at follows
        exact follows
      · refine boundary_scans window commit settled order (kept.imp_left fun no yes => no ⟨hhere.2 yes.1, yes.2⟩)
      · subst last
        exact swapped_scans window commit settled (hhere.1 at_) free

end Sys2Proof.Machine
end

section
/-! SUPPORT. The initialization sweep (R134, R135), and SET_TIME (R66). -/

namespace Sys2Proof.Machine

/-! ### A state in which only a grant and a command can follow -/

/-- Nothing follows but a grant, a command begun, or the release of the port. -/
structure GrantsAndCommands (s : State) : Prop where
  bindings : ∀ p, endReached p s = none
  places : ∀ p, placeRequest p s = none
  slots : ∀ p, takeSlot p s = none
  arrivals : ∀ p, takeArrival p s = none

theorem Settled.grantsAndCommands {s : State} (h : Settled s) : GrantsAndCommands s :=
  ⟨h.endReached, h.placeRequest, h.takeSlot, h.takeArrival⟩

namespace GrantsAndCommands
variable {s t : State}

theorem consequence_grant (h : grant s = some t) : consequence s = some t := by
  unfold consequence
  rw [h]
  rfl

theorem consequence_command (h : GrantsAndCommands s) (grants : grant s = none) (c : beginCommand s = some t) :
    consequence s = some t := by
  unfold consequence
  rw [grants, h.bindings, h.bindings, h.places, h.places, h.slots, h.slots, c]
  rfl

theorem settled (h : GrantsAndCommands s) (grants : grant s = none) (commands : beginCommand s = none)
    (opens : openPort s = none) : Settled s :=
  (settled_iff s).2 ⟨grants, ⟨h.bindings .n, h.bindings .f⟩, ⟨h.places .n, h.places .f⟩, ⟨h.slots .n, h.slots .f⟩,
    commands, ⟨h.arrivals .n, h.arrivals .f⟩, opens⟩

/-- The Table Store and the parameters changed. -/
theorem setTable (h : GrantsAndCommands s) (x : TableStore) (y : Policer) :
    GrantsAndCommands { s with store := x, policer := y } where
  bindings p := endReached_none_congr (s := s) p rfl (fun _ w => w) (h.bindings p)
  places p := placeRequest_none_congr (s := s) p rfl rfl (h.places p)
  slots p := takeSlot_none_congr (s := s) p rfl rfl (h.slots p)
  arrivals p := takeArrival_none_congr (s := s) p rfl (h.arrivals p)

theorem granted (h : GrantsAndCommands s) (g : grant s = some t) : GrantsAndCommands t := by
  obtain ⟨hold, pool, -, judges, -⟩ := grant_leaves g
  have parts (p : Port) : (t.judges.get p).bind = (s.judges.get p).bind ∧
      (t.judges.get p).arrivals = (s.judges.get p).arrivals ∧ (t.judges.get p).slot = (s.judges.get p).slot ∧
      judgedBuffer (t.judges.get p).phase = judgedBuffer (s.judges.get p).phase := by
    rcases judges p with same | ⟨it, waiting, same⟩
    · rw [same]
      exact ⟨rfl, rfl, rfl, rfl⟩
    · rw [same, waiting]
      exact ⟨rfl, rfl, rfl, by cases it <;> rfl⟩
  have idle (p : Port) (i : (t.judges.get p).phase = .idle) : t.judges.get p = s.judges.get p := by
    rcases judges p with same | ⟨it, -, same⟩
    · exact same
    · rw [same] at i
      cases i
  refine ⟨fun p => ?_, fun p => ?_, fun p => ?_, fun p => ?_⟩
  · obtain ⟨bind, arrivals, -, judged⟩ := parts p
    refine endReached_none_congr p bind (fun d w => ?_) (h.bindings p)
    have arrived : arrivedBy t d = arrivedBy s d := by
      funext c
      rw [arrivedBy, arrivedBy, State.buffer, State.buffer, pool]
    unfold someWaiting at w ⊢
    rw [arrivals, judged, arrived]
    exact w
  · exact placeRequest_none_congr p (by rw [hold]) (by rw [hold]) (h.places p)
  · unfold takeSlot
    split
    case h_1 n phase slot =>
      have before := h.slots p
      have same := idle p phase
      rw [same] at phase slot
      unfold takeSlot at before
      rw [phase, slot] at before
      dsimp only at before
      split at before <;> cases before
    case h_2 => rfl
  · unfold takeArrival
    split
    case h_1 c l phase arrivals =>
      have before := h.arrivals p
      have same := idle p phase
      rw [same] at phase arrivals
      unfold takeArrival at before
      rw [phase, arrivals] at before
      dsimp only at before
      split at before <;> cases before
    case h_2 => rfl

end GrantsAndCommands

theorem grant_keeps {s t : State} (g : grant s = some t) : t.agent = s.agent ∧ t.store.phase = s.store.phase := by
  unfold grant at g
  split at g
  · obtain ⟨u, -, rfl⟩ := Option.map_eq_some_iff.1 g
    cases u with
    | agent a =>
      unfold grantTo grantedWrite
      dsimp only
      split <;> exact ⟨rfl, rfl⟩
    | judge p => exact ⟨rfl, rfl⟩
    | scrub => exact ⟨rfl, rfl⟩
    | free | closing | sweep => exact ⟨rfl, rfl⟩
  · cases g

theorem grant_busy {s : State} (h : s.store.port ≠ .free) : grant s = none :=
  (grant_none_iff s).2 fun _ free => absurd free h

theorem beginCommand_empty {s : State} (h : s.agent.inbox = []) : beginCommand s = none := by
  unfold beginCommand
  rw [h]
  split
  case h_1 _ _ inbox _ => cases inbox
  case h_2 => rfl

/-! ### The sweep (R134, R135) -/

/-- A sweep write's row and parameter record. -/
def swept (b : Bank) (i : Index) (s : State) : State :=
  { s with
    store := { s.store with rows := s.store.rows.set b ((s.store.rows.get b).set i.val ⟨blankEntry, []⟩) }
    policer := { s.policer with params := s.policer.params.set b ((s.policer.params.get b).set i.val ⟨0, 0, false⟩) } }

theorem sweepRow_eq {n : Fin 512} {b : Bank} {i : Index} (place : placePair n = (b, i)) (s : State) :
    sweepRow n s = swept b i s := by
  unfold sweepRow
  rw [place]
  rfl

theorem sweepWrite_eq {n : Fin 512} {b : Bank} {i : Index} {s : State} (phase : s.store.phase = .initializing n)
    (place : placePair n = (b, i)) : sweepWrite s = settle (sweepNext n (swept b i s)) := by
  unfold sweepWrite
  rw [phase]
  dsimp only
  rw [sweepRow_eq place]

/-- While the sweep goes on nothing follows a write of it. -/
theorem sweepNext_settled {m : Fin 512} {s : State} (settled : Settled s)
    (b : Bank) (i : Index) : Settled { swept b i s with
      store := { (swept b i s).store with phase := .initializing m } } := by
  refine (settled.grantsAndCommands.setTable _ _).settled ((grant_none_iff _).2 nofun) ?_ ?_
  · unfold beginCommand
    split
    case h_1 _ _ _ ready => cases ready
    case h_2 => rfl
  · refine openPort_none fun closing => ?_
    have opened := settled.openPort
    unfold openPort at opened
    rw [show s.store.port = .closing from closing] at opened
    cases opened

/-- The store at the end of the sweep. -/
def sweepDone (x : State) : State := { x with store := { x.store with phase := .ready, port := .free } }

theorem sweepDone_empty {x : State} (h : GrantsAndCommands x) (empty : x.agent.inbox = []) :
    settle (sweepDone x) = (grant (sweepDone x)).getD (sweepDone x) := by
  have after : GrantsAndCommands (sweepDone x) := h.setTable _ _
  cases g : grant (sweepDone x) with
  | none => exact settle_settled (after.settled g (beginCommand_empty empty) (openPort_none nofun))
  | some z =>
    obtain ⟨-, -, -, -, -, busy, open_⟩ := grant_leaves g
    have inbox : z.agent.inbox = [] := by rw [(grant_keeps g).1]; exact empty
    have ended : Settled z := (after.granted g).settled (grant_busy busy) (beginCommand_empty inbox) (openPort_none open_)
    have steps := settleFor_succ 1023 (GrantsAndCommands.consequence_grant g)
    rw [settleFor_settled 1023 ended] at steps
    exact steps

theorem sweepDone_command {x : State} (h : GrantsAndCommands x) {b : BufId} {l : List BufId}
    (inbox : x.agent.inbox = b :: l) (idle : x.agent.exec = none) {z : State}
    (hz : z = (grant (sweepDone x)).getD (sweepDone x)) : settle (sweepDone x) =
      settleFor (Config.settleBound - if (grant (sweepDone x)).isSome then 2 else 1)
        (startCommand b { z with agent := { z.agent with inbox := l } }) := by
  have after : GrantsAndCommands (sweepDone x) := h.setTable _ _
  cases g : grant (sweepDone x) with
  | none =>
    rw [g] at hz
    have begun : beginCommand z = some (startCommand b (z.setAgent { z.agent with inbox := l })) := by
      rw [hz]
      exact beginCommand_of idle inbox rfl
    rw [hz] at begun ⊢
    exact settleFor_succ 1023 (after.consequence_command g begun)
  | some y =>
    rw [g] at hz
    obtain ⟨-, -, -, -, -, busy, -⟩ := grant_leaves g
    obtain ⟨agent, phase⟩ := grant_keeps g
    have begun : beginCommand y = some (startCommand b (y.setAgent { y.agent with inbox := l })) :=
      beginCommand_of (by rw [agent]; exact idle) (by rw [agent]; exact inbox) (by rw [phase]; rfl)
    have first := settleFor_succ 1023 (GrantsAndCommands.consequence_grant g)
    have second := settleFor_succ 1022 ((after.granted g).consequence_command (grant_busy busy) begun)
    rw [hz]
    exact first.trans second

/-- Settles O14: the write, then the end of the sweep by what is pending. -/
theorem sweepWritesTheNextRow : Obligations.SweepWritesTheNextRow := by
  refine ⟨rfl, fun i => ⟨?_, ?_⟩, fun n s phase settled b i place => ?_⟩
  · exact dif_pos i.isLt
  · have : ¬256 + i.val < 256 := by omega
    unfold placePair
    rw [dif_neg this]
    simp
  · rintro x rfl
    have write := sweepWrite_eq phase place
    have ready : GrantsAndCommands (swept b i s) := settled.grantsAndCommands.setTable (swept b i s).store (swept b i s).policer
    refine ⟨fun more => ?_, ?_⟩
    · refine congrArg Host.Outcome.next (write.trans ?_)
      rw [show sweepNext n (swept b i s) = _ from dif_pos more]
      exact settle_settled (sweepNext_settled settled b i)
    · rintro rfl y rfl
      refine ⟨fun empty scrub agent judges => ?_, fun empty => ?_, fun c l inbox idle z hz => ?_⟩
      · have none : grant (sweepDone (swept b i s)) = none := by
          refine (grant_none_iff _).2 fun _ _ => ?_
          have waiting (p : Port) : (sweepDone (swept b i s)).judgeWaiting p = false := by
            unfold State.judgeWaiting
            split
            case h_1 it wait => exact absurd wait (judges p it)
            case h_2 => rfl
            case h_3 => rfl
          have quiet : waitingJudge (sweepDone (swept b i s)) = Option.none := by
            unfold waitingJudge
            rw [waiting .n, waiting .f]
            rfl
          unfold arbiterChoice
          rw [quiet, show (sweepDone (swept b i s)).store.scrubRequest = false from scrub,
            show (sweepDone (swept b i s)).store.agentRequest = false from agent]
          rfl
        have done := sweepDone_empty ready empty
        rw [none] at done
        exact congrArg Host.Outcome.next (write.trans done)
      · exact congrArg Host.Outcome.next (write.trans (sweepDone_empty ready empty))
      · exact congrArg Host.Outcome.next (write.trans (sweepDone_command ready inbox idle hz))

end Sys2Proof.Machine
end

section
/-! SUPPORT. Commands answered at their beginning: what a completion needs, and the payloads by their codes (R153 to
R155, R166). -/

namespace Sys2Proof.Machine

/-! ### Payloads by their codes (section 12.2) -/

section
variable (a : List Byte)

theorem decode_readStatus : decodeCommand (0x01 :: a) = if a.length = 0 then .command .readStatus else .bad := rfl

theorem decode_readEntry : decodeCommand (0x02 :: a) = if a.length = 2 then
    decodedOf ((roleOf (byteAt a 0)).map fun r => .readEntry r (indexOf (byteAt a 1))) else .bad := rfl

theorem decode_readWindow : decodeCommand (0x03 :: a) = if a.length = 2 then
    decodedOf ((roleOf (byteAt a 0)).bind fun r => (windowOf (byteAt a 1)).map fun w => .readWindow r w)
    else .bad := rfl

theorem decode_probe : decodeCommand (0x05 :: a) = if a.length = 10 then decodedOf (decodeProbe a) else .bad := rfl

theorem decode_keepalive : decodeCommand (0x06 :: a) = if a.length = 0 then .command .keepalive else .bad := rfl

theorem decode_writeEntry : decodeCommand (0x07 :: a) = if a.length = 23 then
    decodedOf (if entryAllowed (a.drop 1) then
      some (.writeEntry (indexOf (byteAt a 0)) (decodeEntry (a.drop 1))) else none) else .bad := rfl

theorem decode_writeWindow : decodeCommand (0x09 :: a) = if a.length = 11 then
    decodedOf ((windowOf (byteAt a 0)).bind fun w => (decodeWindow (a.drop 1)).map fun r => .writeWindow w r)
    else .bad := rfl

theorem decode_schedule : decodeCommand (0x0D :: a) = if a.length = 4 then
    decodedOf ((minuteOf (halfAt a 2)).map fun m => .schedule ⟨halfAt a 0, m⟩) else .bad := rfl

theorem decode_setTime : decodeCommand (0x0F :: a) = if a.length = 6 then decodedOf (decodeSetTime a) else .bad := rfl

theorem decode_setConfig : decodeCommand (0x10 :: a) = if a.length = 4 then decodedOf (decodeSetConfig a) else .bad :=
  rfl

theorem decode_clearCounters : decodeCommand (0x12 :: a) = if a.length = 2 then
    decodedOf (if (byteAt a 0).toNat ≤ (byteAt a 1).toNat then
      some (.clearCounters (indexOf (byteAt a 0)) (indexOf (byteAt a 1))) else none) else .bad := rfl

theorem decode_drain : decodeCommand (0x13 :: a) = if a.length = 1 then
    decodedOf (if 1 ≤ (byteAt a 0).toNat ∧ (byteAt a 0).toNat ≤ 8 then
      some (.drain (byteAt a 0).toNat) else none) else .bad := rfl

theorem decode_flushHold : decodeCommand (0x15 :: a) = if a.length = 2 then decodedOf (decodeFlush a) else .bad := rfl

end

theorem windowOf_ofNat (w : Fin 32) : windowOf (BitVec.ofNat 8 w.val) = some w := by
  have val : (BitVec.ofNat 8 w.val).toNat = w.val := by rw [BitVec.toNat_ofNat]; omega
  have small : (BitVec.ofNat 8 w.val).toNat < 32 := by rw [val]; exact w.isLt
  rw [windowOf, dif_pos small]
  exact congrArg some (Fin.ext val)

theorem minuteOf_ofNat (m : Fin 1440) : minuteOf (BitVec.ofNat 16 m.val) = some m := by
  have val : (BitVec.ofNat 16 m.val).toNat = m.val := by rw [BitVec.toNat_ofNat]; omega
  have small : (BitVec.ofNat 16 m.val).toNat < 1440 := by rw [val]; exact m.isLt
  rw [minuteOf, dif_pos small]
  exact congrArg some (Fin.ext val)

theorem bytesOf_length {w : Nat} (n : Nat) (x : BitVec w) : (bytesOf n x).length = n := by simp [bytesOf]

theorem halfAt_be16 (x : BitVec 16) (l : List Byte) : halfAt (be16 x ++ l) 0 = x := be16_join x

theorem halfAt_be16_second (d x : BitVec 16) : halfAt (be16 d ++ be16 x) 2 = x := be16_join x

/-! ### A command that completes as it begins -/

theorem arbiterChoice_none_iff (s : State) : arbiterChoice s = none ↔
    s.store.scrubRequest = false ∧ s.store.agentRequest = false ∧ waitingJudge s = none := by
  unfold arbiterChoice
  cases s.store.scrubRequest <;> cases s.store.agentRequest <;> cases waitingJudge s <;> grind

/-- The settings have no part in what follows: no request is pending where the port is free, whatever the urgent level
is (R125). -/
theorem Settled.settings {s : State} (settled : Settled s) (c : Settings) :
    Settled { s with agent := { s.agent with settings := c } } := by
  have before := settled.grantsAndCommands
  have grants : Machine.grant { s with agent := { s.agent with settings := c } } = none := by
    refine (grant_none_iff _).2 fun ready free => ?_
    have none := (grant_none_iff s).1 settled.grant ready free
    rw [arbiterChoice_none_iff] at none ⊢
    exact none
  refine GrantsAndCommands.settled ⟨fun p => ?_, fun p => ?_, fun p => ?_, fun p => ?_⟩ grants ?_ ?_
  · exact endReached_none_congr (s := s) p rfl (fun _ w => w) (before.bindings p)
  · exact placeRequest_none_congr (s := s) p rfl rfl (before.places p)
  · exact takeSlot_none_congr (s := s) p rfl rfl (before.slots p)
  · exact takeArrival_none_congr (s := s) p rfl (before.arrivals p)
  · exact beginCommand_none_congr (s := s) rfl rfl rfl settled.beginCommand
  · exact openPort_none_congr (s := s) rfl settled.openPort

/-- What a command that completes as it begins leaves to the blocks that could make something follow. -/
structure AtCommand (s x : State) : Prop where
  store : x.store = s.store
  judges : x.judges = s.judges
  records : x.hold.records = s.hold.records
  outstanding : x.hold.outstanding = s.hold.outstanding
  exec : x.agent.exec = s.agent.exec
  inbox : x.agent.inbox = s.agent.inbox
  tx : x.tx = s.tx
  ownAddr : x.ownAddr = s.ownAddr
  due : (∀ i, s.commit.phase ≠ .due i) → ∀ i, x.commit.phase ≠ .due i

theorem AtCommand.settled {h : CmdHead} {b : BufId} {rest : List BufId} {payload : List Byte} {s x : State}
    (same : AtCommand s x) (ready : CommandReady h b rest s) : Settled { x with
      pool := (received h b rest payload s).pool, rx := (received h b rest payload s).rx } :=
  (settled_received (payload := payload) (x := { x with agent := { x.agent with settings := s.agent.settings } }) ready
    same.store same.judges same.records same.outstanding same.exec same.inbox rfl).settings x.agent.settings

/-- The state `x` with the telegram of the command in its buffer. -/
def atReceived (h : CmdHead) (b : BufId) (rest : List BufId) (payload : List Byte) (s x : State) : State :=
  { x with pool := (received h b rest payload s).pool, rx := (received h b rest payload s).rx }

section
variable {c : Instr} {h : CmdHead} {b : BufId} {rest : List BufId} {payload : List Byte} {s x : State} {d : Cmd}
  {status : Status} {results : List Byte}

/-- A command of class READ that completes as it begins. -/
theorem completes_reading (sent : exec c s = .next (sendCommand h payload s)) (can : CanRead h b rest s)
    (short : payload.length ≤ 200) (read : isWrite payload = false) (decoded : decodeCommand payload = .command d)
    (carried : carryOut b s.lapsed d (atReceived h b rest payload s (Reloaded s)) =
      complete b status results (atReceived h b rest payload s x)) (same : AtCommand s x) :
    CompletesAs c h b rest (responseCode payload) status results s x := by
  obtain ⟨ready, -, -⟩ := id can
  obtain ⟨-, -, -, -, -, -, idle, -, due, -⟩ := id ready
  refine completes_read sent can short read ?_ (same.settled ready) same.judges same.tx same.ownAddr
    (same.exec.trans idle) (same.due due)
  rw [decoded]
  exact carried

/-- A command of class WRITE that completes as it begins. -/
theorem completes_writing (sent : exec c s = .next (sendCommand h payload s)) (can : CanWrite h b rest s)
    (short : payload.length ≤ 200) (write : isWrite payload = true) (decoded : decodeCommand payload = .command d)
    (carried : carryOut b s.lapsed d (atReceived h b rest payload s (Reloaded s)) =
      complete b status results (atReceived h b rest payload s x)) (same : AtCommand s x) :
    CompletesAs c h b rest (responseCode payload) status results s x := by
  obtain ⟨ready, -, -⟩ := id can
  obtain ⟨-, -, -, -, -, -, idle, -, due, -⟩ := id ready
  refine completes_write sent can short write ?_ (same.settled ready) same.judges same.tx same.ownAddr
    (same.exec.trans idle) (same.due due)
  rw [decoded]
  exact carried

theorem reloaded_atCommand (s : State) : AtCommand s (Reloaded s) := ⟨rfl, rfl, rfl, rfl, rfl, rfl, rfl, rfl, id⟩

/-- Arguments out of range, for a command of class READ. -/
theorem answersBad_reading (sent : exec c s = .next (sendCommand h payload s)) (can : CanRead h b rest s)
    (short : payload.length ≤ 200) (read : isWrite payload = false) (decoded : decodeCommand payload = .bad) :
    AnswersOnly c h b rest (responseCode payload) .badArgument s := by
  obtain ⟨ready, -, -⟩ := id can
  obtain ⟨-, -, -, -, -, -, idle, -, due, -⟩ := id ready
  refine completes_read sent can short read ?_ ((reloaded_atCommand s).settled ready) rfl rfl rfl idle due
  rw [decoded]
  rfl

/-- Arguments out of range, for a command of class WRITE. -/
theorem answersBad_writing (sent : exec c s = .next (sendCommand h payload s)) (can : CanWrite h b rest s)
    (short : payload.length ≤ 200) (write : isWrite payload = true) (decoded : decodeCommand payload = .bad) :
    AnswersOnly c h b rest (responseCode payload) .badArgument s := by
  obtain ⟨ready, -, -⟩ := id can
  obtain ⟨-, -, -, -, -, -, idle, -, due, -⟩ := id ready
  refine completes_write sent can short write ?_ ((reloaded_atCommand s).settled ready) rfl rfl rfl idle due
  rw [decoded]
  rfl

end

/-! ### WRITE_WINDOW (R72, R79) -/

theorem setMember_bit (set : WindowSet) (i : Fin 32) (member : Bool) (v : Fin 32) :
    (setMember set i member).getLsbD v.val = if v = i then member else set.getLsbD v.val := by
  have lt := v.isLt
  unfold setMember
  by_cases same : v = i
  · subst same
    cases member <;> simp
  · have other : v.val ≠ i.val := fun e => same (Fin.ext e)
    cases member <;> simp [same, other]

/-- Settles O44: the shadow's record and the member of its Open Set. -/
theorem windowIsWrittenToTheShadow : Obligations.WindowIsWrittenToTheShadow := by
  intro h b rest s can w raw r valid
  refine ⟨setMember (s.windows.openSets.get (otherBank s.store.active)) w (windowOpen r s.cal.mark s.cal.quality), ?_,
    fun v other => ?_, ?_⟩
  · rw [setMember_bit, if_pos rfl]
  · rw [setMember_bit, if_neg other]
  · have decoded : decodeCommand (0x09 :: BitVec.ofNat 8 w.val :: bytesOf 10 raw) = .command (.writeWindow w r) := by
      rw [decode_writeWindow, if_pos (by simp [bytesOf_length])]
      change decodedOf ((windowOf (BitVec.ofNat 8 w.val)).bind fun w =>
        (decodeWindow (bytesOf 10 raw)).map fun r => .writeWindow w r) = _
      rw [windowOf_ofNat, valid]
      rfl
    exact completes_writing (c := .writeWindow h (BitVec.ofNat 8 w.val) raw)
      (payload := 0x09 :: BitVec.ofNat 8 w.val :: bytesOf 10 raw) rfl can (by simp [bytesOf_length]) rfl decoded rfl
      ⟨rfl, rfl, rfl, rfl, rfl, rfl, rfl, rfl, id⟩

/-! ### SCHEDULE_COMMIT and CANCEL_COMMIT (R144, R145) -/

/-- Settles O46: the instant held, discarded or replaced. -/
theorem commitInstantIsScheduledAndCancelled : Obligations.CommitInstantIsScheduledAndCancelled := by
  refine fun h b rest s can => ⟨fun i held => ?_, fun idle => ?_, fun day m later => ?_⟩
  · refine completes_writing (c := .cancelCommit h) (payload := [0x0E]) (d := .cancel) rfl can (by decide) rfl rfl ?_
      ⟨rfl, rfl, rfl, rfl, rfl, rfl, rfl, rfl, fun _ => nofun⟩
    change complete b .done (instantResult s.commit.phase.instant) _ = _
    rw [held]
    rfl
  · refine completes_writing (c := .cancelCommit h) (payload := [0x0E]) (d := .cancel) rfl can (by decide) rfl rfl ?_
      (reloaded_atCommand s)
    have kept : (⟨.idle, s.commit.count⟩ : CommitCtl) = s.commit := by rw [← idle]
    change complete b .done (instantResult s.commit.phase.instant) (State.setCommit _ ⟨.idle, s.commit.count⟩) = _
    rw [kept, idle]
    rfl
  · have decoded : decodeCommand (0x0D :: be16 day ++ be16 (BitVec.ofNat 16 m.val)) =
        .command (.schedule ⟨day, m⟩) := by
      change decodeCommand (0x0D :: (be16 day ++ be16 (BitVec.ofNat 16 m.val))) = _
      rw [decode_schedule, if_pos (by simp [be16]), halfAt_be16_second, halfAt_be16, minuteOf_ofNat]
      rfl
    refine completes_writing (c := .scheduleCommit h day (BitVec.ofNat 16 m.val))
      (payload := 0x0D :: be16 day ++ be16 (BitVec.ofNat 16 m.val)) rfl can (by simp [be16]) rfl decoded ?_
      ⟨rfl, rfl, rfl, rfl, rfl, rfl, rfl, rfl, fun _ => nofun⟩
    have after : afterNow ⟨day, m⟩ s.cal = true := by
      unfold afterNow
      rcases later with later | ⟨rfl, later⟩
      · simp [later]
      · simp [later]
    change carrySchedule b ⟨day, m⟩ _ = _
    rw [carrySchedule, if_pos (show afterNow ⟨day, m⟩ (atReceived h b rest _ s (Reloaded s)).cal = true from after)]
    change complete b .done (be16 day ++ halfOf m.val ++ instantResult s.commit.phase.instant) _ = _
    obtain ⟨⟨-, -, -, -, -, -, -, -, due, -⟩, -⟩ := can
    cases phase : s.commit.phase with
    | idle => rfl
    | scheduled i => rfl
    | due i => exact absurd phase (due i)

end Sys2Proof.Machine
end

section
/-! SUPPORT. SET_TIME, REFILL_CONTROL, the readings of a window and of the supervision, and a command that is denied (R66,
R82, R90 to R92, R154, R160). -/

namespace Sys2Proof.Machine

/-! ### SET_TIME (R66) -/

/-- A time of week as SET_TIME sets it. -/
def setTo (day : DayNum) (wd : Fin 7) (hr : Fin 24) (mn sec : Fin 60) (c : Calendar) : Calendar :=
  { c with
    day := day, weekday := wd, hour := hr, minute := mn, second := sec, sub := 0
    quality := if c.source = .reference then .nominal else .degraded }

theorem set_eq (day : DayNum) (wd : Fin 7) (hr : Fin 24) (mn sec : Fin 60) (c : Calendar) :
    c.set day wd hr mn sec = setTo day wd hr mn sec c := by
  unfold Calendar.set setTo
  cases c.source <;> rfl

theorem byte_val {n : Nat} (x : Fin n) (h : n ≤ 256) : (BitVec.ofNat 8 x.val).toNat = x.val := by
  rw [BitVec.toNat_ofNat]
  omega

theorem decodeSetTime_ofNat (day : DayNum) (wd : Fin 7) (hr : Fin 24) (mn sec : Fin 60) :
    decodeSetTime (be16 day ++ [BitVec.ofNat 8 wd.val, BitVec.ofNat 8 hr.val, BitVec.ofNat 8 mn.val,
      BitVec.ofNat 8 sec.val]) = some (.setTime day wd hr mn sec) := by
  have hwd := byte_val wd (by decide)
  have hhr := byte_val hr (by decide)
  have hmn := byte_val mn (by decide)
  have hsec := byte_val sec (by decide)
  have inRange : (BitVec.ofNat 8 wd.val).toNat < 7 ∧ (BitVec.ofNat 8 hr.val).toNat < 24 ∧
      (BitVec.ofNat 8 mn.val).toNat < 60 ∧ (BitVec.ofNat 8 sec.val).toNat < 60 := by omega
  unfold decodeSetTime
  refine (dif_pos inRange).trans ?_
  congr 1
  rw [Cmd.setTime.injEq]
  exact ⟨halfAt_be16 day _, Fin.ext hwd, Fin.ext hhr, Fin.ext hmn, Fin.ext hsec⟩

/-- A full evaluation has no part in the arrival of a command. -/
theorem fullEvaluation_atReceived (h : CmdHead) (b : BufId) (rest : List BufId) (payload : List Byte) (s : State)
    (m : MinuteMark) (x : State) : fullEvaluation m (atReceived h b rest payload s x) =
      atReceived h b rest payload s (fullEvaluation m x) := by
  have hold : (fullEvaluation m (atReceived h b rest payload s x)).hold = (fullEvaluation m x).hold := by
    rw [fullEvaluation_hold, fullEvaluation_hold, trigger_congr _ (s := x) (t := atReceived h b rest payload s x) rfl]
    rfl
  have made := fullEvaluation_frame m (atReceived h b rest payload s x)
  rw [hold] at made
  exact made.trans (congrArg (atReceived h b rest payload s) (fullEvaluation_frame m x)).symm

/-- Settles O47: the time, then the evaluation at it. -/
theorem setTimeSetsTheTimeAndTheWindows : Obligations.SetTimeSetsTheTimeAndTheWindows := by
  rintro h b rest s can day wd hr mn sec q rfl
  generalize hpayload : 0x0F#8 :: be16 day ++ [BitVec.ofNat 8 wd.val, BitVec.ofNat 8 hr.val, BitVec.ofNat 8 mn.val,
    BitVec.ofNat 8 sec.val] = payload
  have decoded : decodeCommand payload = .command (.setTime day wd hr mn sec) := by
    rw [← hpayload]
    refine (decode_setTime _).trans ?_
    rw [if_pos (by simp [be16]), List.append_eq, decodeSetTime_ofNat]
    rfl
  generalize hc : setTo day wd hr mn sec s.cal = c
  have frame := fullEvaluation_frame c.mark { Reloaded s with cal := c }
  have scans := fullEvaluation_scans c.mark { Reloaded s with cal := c }
  have carried : carryOut b s.lapsed (.setTime day wd hr mn sec) (atReceived h b rest payload s (Reloaded s)) =
      complete b .done (c.quality.code :: be40 s.cal.uptime)
        (atReceived h b rest payload s (fullEvaluation c.mark { Reloaded s with cal := c })) := by
    have evaluated : evaluateNow ((atReceived h b rest payload s (Reloaded s)).setCal (s.cal.set day wd hr mn sec)) =
        atReceived h b rest payload s (fullEvaluation c.mark { Reloaded s with cal := c }) := by
      rw [set_eq, hc, ← fullEvaluation_atReceived]
      rfl
    change carrySetTime b day wd hr mn sec _ = _
    unfold carrySetTime
    dsimp only
    rw [show (atReceived h b rest payload s (Reloaded s)).cal = s.cal from rfl, evaluated, frame, ← hc]
    rfl
  generalize fullEvaluation c.mark { Reloaded s with cal := c } = x at *
  have same : AtCommand s x := by
    rw [frame]
    exact ⟨rfl, rfl, rfl, rfl, rfl, rfl, rfl, rfl, id⟩
  obtain ⟨t, stepped, received, answered, free, rest⟩ := completes_writing (c := .setTime h day
    (BitVec.ofNat 8 wd.val) (BitVec.ofNat 8 hr.val) (BitVec.ofNat 8 mn.val) (BitVec.ofNat 8 sec.val))
    (by rw [← hpayload]; rfl) can (by rw [← hpayload]; simp [be16]) (by rw [← hpayload]; rfl) decoded carried same
  have windows : t.windows = x.windows := by rw [rest]
  have hold : t.hold = x.hold := by rw [rest]
  have cal : t.cal = c := by rw [rest, frame]
  have mark : c.mark = ⟨day, wd, c.minuteOfDay⟩ := by rw [← hc]; rfl
  have sets : x.windows.openSets = allOpenSets s.windows c.mark c.quality := by rw [frame]; rfl
  have quality : c.quality = if s.cal.source = .reference then Quality.nominal else .degraded := by rw [← hc]; rfl
  have answered : Answered h b 0x0F .done (c.quality.code :: be40 s.cal.uptime) s t := by
    rw [← hpayload] at answered
    exact answered
  refine ⟨t, stepped, received, quality ▸ answered, free, fun bank i => ?_, ?_, ?_⟩
  · rw [windows, sets, allOpenSets_get, openSetOf_bit, cal, mark, quality]
  · exact scans.congr rfl rfl (by rw [windows]) (by rw [hold]) (by rw [hold])
  · rw [windows, hold]
    refine rest.trans ?_
    rw [frame, ← hc]
    rfl

/-! ### REFILL_CONTROL (R90 to R92) -/

/-- What REFILL_CONTROL is to do. -/
def RefillActs (h : CmdHead) (b : BufId) (rest : List BufId) (s : State) (c : Instr) (timer : TimerState)
    (count : BitVec 16) : Prop :=
  CompletesAs c h b rest 0x11 .done (timer.code :: be16 count) s
    { Reloaded s with policer := { s.policer with timer := timer, count := count } }

/-- An action of REFILL_CONTROL by what it does to the Timer. -/
theorem refillActs {c : Instr} {h : CmdHead} {b : BufId} {rest : List BufId} {s : State} {code : Byte}
    {a : RefillAction} {timer : TimerState} {count : BitVec 16}
    (sent : exec c s = .next (sendCommand h [0x11, code] s)) (can : CanWrite h b rest s)
    (decoded : decodeCommand [0x11, code] = .command (.refillControl a))
    (acts : timerAct a (atReceived h b rest [0x11, code] s (Reloaded s)) =
      setTimer timer count (atReceived h b rest [0x11, code] s (Reloaded s))) :
    RefillActs h b rest s c timer count := by
  refine completes_writing (payload := [0x11, code]) sent can (by simp) rfl decoded ?_
    ⟨rfl, rfl, rfl, rfl, rfl, rfl, rfl, rfl, id⟩
  change carryRefillControl b a _ = _
  unfold carryRefillControl
  dsimp only
  rw [acts]
  rfl

section
variable {s : State}

theorem timerStart_stopped (h : s.policer.timer = .stopped) : timerStart s = setTimer .running 0 s := by
  rw [timerStart, h]

theorem timerStart_paused (h : s.policer.timer = .paused) : timerStart s = setTimer .running s.policer.count s := by
  rw [timerStart, h]

theorem setTimer_same {t : TimerState} (h : s.policer.timer = t) : s = setTimer t s.policer.count s := by
  subst h
  rfl

theorem timerStart_running (h : s.policer.timer = .running) : timerStart s = setTimer .running s.policer.count s := by
  rw [timerStart, h]
  exact setTimer_same h

theorem timerPause_running (h : s.policer.timer = .running) : timerPause s = setTimer .paused s.policer.count s := by
  rw [timerPause, h]

theorem timerPause_other {t : TimerState} (h : s.policer.timer = t) (other : t ≠ .running) :
    timerPause s = setTimer t s.policer.count s := by
  unfold timerPause
  cases t with
  | running => exact absurd rfl other
  | stopped => rw [h]; exact setTimer_same h
  | paused => rw [h]; exact setTimer_same h

end

/-- Settles O51: each action by the Timer's state. -/
theorem refillControlActsOnTheTimer : Obligations.RefillControlActsOnTheTimer := by
  intro h b rest s can done hdone
  have done_eq : done = RefillActs h b rest s := hdone
  rw [done_eq]
  refine ⟨fun stopped => ⟨?_, ?_⟩, fun paused => ⟨?_, ?_⟩, fun running => ⟨?_, ?_⟩, ?_, ?_⟩
  · exact refillActs rfl can rfl (timerStart_stopped stopped)
  · exact refillActs rfl can rfl (timerPause_other (t := .stopped) stopped (by decide))
  · exact refillActs rfl can rfl (timerStart_paused paused)
  · exact refillActs rfl can rfl (timerPause_other (t := .paused) paused (by decide))
  · exact refillActs rfl can rfl (timerStart_running running)
  · exact refillActs rfl can rfl (timerPause_running running)
  · exact refillActs (a := .stop) rfl can rfl rfl
  · exact refillActs (a := .restart) rfl can rfl rfl

/-! ### READ_WINDOW and KEEPALIVE (R82, R160) -/

theorem half_val {n : Nat} (x : Fin n) (h : n ≤ 65536) : (BitVec.ofNat 16 x.val).toNat = x.val := by
  rw [BitVec.toNat_ofNat]
  omega

theorem bitIn_bit (v : Bool) {i k : Nat} (h : k < 8) : (bitIn v i).getLsbD k = (k == i && v) := by
  unfold bitIn
  cases v with
  | false => simp
  | true =>
    by_cases same : i = k
    · subst same
      simp [h]
    · simp [same, Ne.symm same]

/-- The bytes of a window record by their places (R180). -/
theorem encodeWindow_fields (w : WindowRecord) : (encodeWindow w).length = 10 ∧
    (∀ k < 8, (byteAt (encodeWindow w) 0).getLsbD k =
      ((k == 7 && w.used) || (k == 6 && w.strict) || (k == 5 && w.dates.isSome))) ∧
    byteAt (encodeWindow w) 1 = w.days.setWidth 8 ∧ (halfAt (encodeWindow w) 2).toNat = w.start.val ∧
    (halfAt (encodeWindow w) 4).toNat = w.stop.val ∧
    (∀ low high, w.dates = some (low, high) → halfAt (encodeWindow w) 6 = low ∧ halfAt (encodeWindow w) 8 = high) ∧
    (w.dates = none → halfAt (encodeWindow w) 6 = 0 ∧ halfAt (encodeWindow w) 8 = 0) := by
  have start : halfAt (encodeWindow w) 2 = BitVec.ofNat 16 w.start.val := be16_join _
  have stop : halfAt (encodeWindow w) 4 = BitVec.ofNat 16 w.stop.val := be16_join _
  have low : halfAt (encodeWindow w) 6 = (w.dates.map Prod.fst).getD 0 := be16_join _
  have high : halfAt (encodeWindow w) 8 = (w.dates.map Prod.snd).getD 0 := be16_join _
  refine ⟨rfl, fun k hk => ?_, rfl, ?_, ?_, fun l u range => ?_, fun none => ?_⟩
  · change (bitIn w.used 7 ||| bitIn w.strict 6 ||| bitIn w.dates.isSome 5).getLsbD k = _
    rw [BitVec.getLsbD_or, BitVec.getLsbD_or, bitIn_bit _ hk, bitIn_bit _ hk, bitIn_bit _ hk]
  · rw [start, half_val _ (by decide)]
  · rw [stop, half_val _ (by decide)]
  · rw [low, high, range]
    exact ⟨rfl, rfl⟩
  · rw [low, high, none]
    exact ⟨rfl, rfl⟩

/-- Settles O39: the results of the two readings. -/
theorem windowAndSupervisionAreRead : Obligations.WindowAndSupervisionAreRead := by
  refine ⟨?_, fun h b rest s can => ⟨?_, ?_⟩⟩
  · rintro w l rfl
    exact encodeWindow_fields w
  · rintro role w bank rfl
    have decoded : decodeCommand [0x03, if role then 0 else 1, BitVec.ofNat 8 w.val] =
        .command (.readWindow role w) := by
      rw [decode_readWindow, if_pos (show [_, BitVec.ofNat 8 w.val].length = 2 from rfl)]
      change decodedOf ((roleOf (if role then 0 else 1)).bind fun r =>
        (windowOf (BitVec.ofNat 8 w.val)).map fun w => .readWindow r w) = _
      rw [windowOf_ofNat]
      cases role <;> rfl
    exact completes_reading (c := .readWindow h (if role then 0 else 1) (BitVec.ofNat 8 w.val)) rfl can (by simp) rfl
      decoded rfl (reloaded_atCommand s)
  · refine completes_reading (c := .keepalive h) (payload := [0x06]) (d := .keepalive) rfl can (by simp) rfl rfl ?_
      (reloaded_atCommand s)
    have lapsed : yesNo s.lapsed = if s.agent.supervision.state = .lapsed then 1 else 0 := by
      unfold State.lapsed
      cases s.agent.supervision.state <;> rfl
    rw [← lapsed]
    rfl

/-! ### A command above its floor (R153, R154) -/

/-- Settles O35: the response, then the record. -/
theorem unprivilegedCommandIsDenied : Obligations.UnprivilegedCommandIsDenied := by
  intro c h payload b rest s sent short ready room above
  have begun := sendCommand_ready (payload := payload) ready short
  rw [startCommand_denied above short] at begun
  obtain ⟨-, -, -, -, -, -, idle, -, due, -, settled⟩ := id ready
  obtain ⟨received', answered, free, same⟩ := complete_answers (rest := rest) (payload := payload) (x := s) .denied []
    room short rfl rfl idle due _ rfl
  rw [show ({ s with pool := (received h b rest payload s).pool, rx := (received h b rest payload s).rx } : State) =
    received h b rest payload s from rfl] at received' answered free same
  generalize complete b .denied [] (received h b rest payload s) = y at *
  have after : Settled y := by
    have before := settled_received (payload := payload) (x := s) ready rfl rfl rfl rfl rfl rfl rfl
    rw [same]
    refine before.congr rfl rfl rfl rfl rfl rfl rfl fun p d held => ?_
    exact answered_uptimes (rest := rest) (payload := payload) ready answered p d held
  rw [settleFor_settled _ (after.handOver _)] at begun
  exact ⟨y, by rw [sent, begun], received', answered, free, same⟩

end Sys2Proof.Machine
end

section
/-! SUPPORT. READ_STATUS (R158): the fields of its results by their places. -/

namespace Sys2Proof.Machine

/-! ### Fields of several bytes -/

theorem tripleAt_join (x : BitVec 24) : x.extractLsb' 16 8 ++
    ((x.extractLsb' 0 16).extractLsb' 8 8 ++ (x.extractLsb' 0 16).extractLsb' 0 8) = x := by
  rw [be16_join, BitVec.extractLsb'_append_extractLsb'_eq_extractLsb' (by omega), BitVec.extractLsb'_eq_self]

theorem wordAt_join (x : BitVec 32) :
    ((x.extractLsb' 16 16).extractLsb' 8 8 ++ (x.extractLsb' 16 16).extractLsb' 0 8) ++
      ((x.extractLsb' 0 16).extractLsb' 8 8 ++ (x.extractLsb' 0 16).extractLsb' 0 8) = x := by
  rw [be16_join, be16_join, BitVec.extractLsb'_append_extractLsb'_eq_extractLsb' (by omega), BitVec.extractLsb'_eq_self]

theorem wordAt_be32 (x : BitVec 32) : wordAt (be32 x) 0 = x := wordAt_join x

theorem byte_wordAt_be40 (x : BitVec 40) : byteAt (be40 x) 0 ++ wordAt (be40 x) 1 = x := by
  change x.extractLsb' 32 8 ++ wordAt (be32 (x.extractLsb' 0 32)) 0 = x
  rw [wordAt_be32, BitVec.extractLsb'_append_extractLsb'_eq_extractLsb' (by omega), BitVec.extractLsb'_eq_self]

theorem number_byte {n : Nat} (h : n < 256) : (byteOf n).toNat = n := by
  rw [byteOf, BitVec.toNat_ofNat]
  omega

theorem number_half {n : Nat} (h : n < 65536) : (BitVec.ofNat 16 n).toNat = n := by
  rw [BitVec.toNat_ofNat]
  omega

/-! ### The parts of the reading -/

section
variable (s : State)

/-- Bytes 0 to 13. -/
theorem statusClock_fields (ready : s.store.phase = .ready) (l more : List Byte) (hl : l = statusClock s ++ more) :
    halfAt l 0 = s.cal.day ∧ (byteAt l 2).toNat = s.cal.weekday.val ∧
      (byteAt l 3).toNat = s.cal.hour.val ∧ (byteAt l 4).toNat = s.cal.minute.val ∧
      (byteAt l 5).toNat = s.cal.second.val ∧ (halfAt l 6).toNat = s.cal.sub.val ∧
      byteAt l 8 = s.cal.quality.code ||| (if s.cal.source = .fallback then 4 else 0) ||| 8 ∧
      byteAt l 9 ++ wordAt l 10 = s.cal.uptime := by
  subst hl
  have sub : halfAt (statusClock s ++ more) 6 = BitVec.ofNat 16 s.cal.sub.val := be16_join _
  refine ⟨be16_join _, number_byte (n := s.cal.weekday.val) (by omega),
    number_byte (n := s.cal.hour.val) (by omega), number_byte (n := s.cal.minute.val) (by omega),
    number_byte (n := s.cal.second.val) (by omega), ?_, ?_, byte_wordAt_be40 s.cal.uptime⟩
  · rw [sub, number_half (by omega)]
  · change s.cal.quality.code ||| bitIn (s.cal.source == .fallback) 2 ||| bitIn (s.store.phase == .ready) 3 = _
    rw [ready]
    cases s.cal.source <;> rfl

theorem count_true_le (v : Vector Bool 256) : v.toList.count true ≤ 256 :=
  List.count_le_length.trans (by simp)

theorem instantOrZero_bytes (i : Option Instant) : instantOrZero i =
    be16 ((i.map Instant.day).getD 0) ++ be16 ((i.map fun i => BitVec.ofNat 16 i.minute.val).getD 0) := by
  cases i with
  | none => decide
  | some i => rfl

/-- Bytes 14 to 37. -/
theorem statusBanks_fields (l more : List Byte) (hl : l = statusBanks s ++ more) :
    byteAt l 0 = (bankCode s.store.active ||| (s.commit.phase.code <<< 1)) ∧
      halfAt l 1 = (s.commit.phase.instant.map Instant.day).getD 0 ∧
      halfAt l 3 = (s.commit.phase.instant.map fun i => BitVec.ofNat 16 i.minute.val).getD 0 ∧
      halfAt l 5 = s.commit.count ∧ byteAt l 7 = s.agent.supervision.state.code ∧
      halfAt l 8 = s.agent.settings.supervisionPeriod ∧
      (tripleAt l 10).toNat = s.agent.supervision.remaining.val ∧
      (halfAt l 13).toNat = s.store.poison.b0.toList.count true + s.store.poison.b1.toList.count true ∧
      (byteAt l 15).toNat = s.store.debt.val ∧ halfAt l 16 = s.store.corrected ∧
      halfAt l 18 = s.store.scrubCorrected ∧ halfAt l 20 = s.store.uncorrectable ∧
      byteAt l 22 = byteOf s.pool.free.length ∧ byteAt l 23 = byteOf s.hold.records.length := by
  unfold statusBanks at hl
  simp only [instantOrZero_bytes, be16, be24, halfOf, List.cons_append, List.nil_append] at hl
  subst hl
  have small : s.agent.supervision.remaining.val < 65537 := s.agent.supervision.remaining.isLt
  have sizes : poisonSize s.store ≤ 512 := Nat.add_le_add (count_true_le _) (count_true_le _)
  generalize hsize : poisonSize s.store = size at sizes
  generalize hleft : s.agent.supervision.remaining.val = left at small
  generalize (s.commit.phase.instant.map Instant.day).getD 0 = day
  generalize (s.commit.phase.instant.map fun i => BitVec.ofNat 16 i.minute.val).getD 0 = minute
  refine ⟨rfl, be16_join day, be16_join minute, be16_join s.commit.count, rfl,
    be16_join s.agent.settings.supervisionPeriod, ?_, ?_, number_byte (n := s.store.debt.val) (by omega),
    be16_join s.store.corrected, be16_join s.store.scrubCorrected, be16_join s.store.uncorrectable, rfl, rfl⟩
  · refine (congrArg BitVec.toNat (tripleAt_join (BitVec.ofNat 24 left))).trans ?_
    rw [BitVec.toNat_ofNat]
    omega
  · refine (congrArg BitVec.toNat (be16_join (BitVec.ofNat 16 size))).trans ?_
    rw [number_half (by omega), ← hsize]
    rfl

/-- Bytes 38 to 95. -/
theorem statusCounters_fields (l : List Byte) (hl : l = statusCounters s) :
    byteAt l 0 = s.policer.timer.code ∧ halfAt l 1 = s.agent.settings.refillPreset ∧
      byteAt l 3 = s.agent.settings.refillSource.code ∧ halfAt l 4 = s.policer.count ∧
      byteAt l 6 = byteOf s.exc.queue.length ∧ byteAt l 7 = s.exc.lost ∧ byteAt l 8 = s.exc.flags ∧
      (∀ p i, i = (if p = .n then 9 else 33) →
        wordAt l i = (s.rx.get p).good ∧ wordAt l (i + 4) = (s.rx.get p).corrupt ∧
        wordAt l (i + 8) = (s.rx.get p).truncated ∧ wordAt l (i + 12) = (s.rx.get p).malformed ∧
        wordAt l (i + 16) = (s.rx.get p).noBuffer ∧ wordAt l (i + 20) = (s.tx.get p).transmitted) ∧
      byteAt l 57 = s.agent.lastReset.code := by
  subst hl
  refine ⟨rfl, be16_join _, rfl, be16_join _, rfl, rfl, rfl, ?_, rfl⟩
  rintro p i rfl
  cases p with
  | n => exact ⟨wordAt_join _, wordAt_join _, wordAt_join _, wordAt_join _, wordAt_join _, wordAt_join _⟩
  | f => exact ⟨wordAt_join _, wordAt_join _, wordAt_join _, wordAt_join _, wordAt_join _, wordAt_join _⟩

end

/-! ### A place within a list of parts -/

section
variable (a l : List Byte) (n i : Nat)

theorem byteAt_after (h : a.length = n) : byteAt (a ++ l) (n + i) = byteAt l i := by
  subst h
  unfold byteAt
  rw [List.getD_append_right _ _ _ _ (by omega), Nat.add_sub_cancel_left]

theorem halfAt_after (h : a.length = n) : halfAt (a ++ l) (n + i) = halfAt l i := by
  unfold halfAt
  rw [Nat.add_assoc, byteAt_after _ _ _ _ h, byteAt_after _ _ _ _ h]

theorem tripleAt_after (h : a.length = n) : tripleAt (a ++ l) (n + i) = tripleAt l i := by
  unfold tripleAt
  rw [Nat.add_assoc, byteAt_after _ _ _ _ h, halfAt_after _ _ _ _ h]

theorem wordAt_after (h : a.length = n) : wordAt (a ++ l) (n + i) = wordAt l i := by
  unfold wordAt
  rw [Nat.add_assoc, halfAt_after _ _ _ _ h, halfAt_after _ _ _ _ h]

end

/-! ### READ_STATUS -/

/-- What the arrival of a command changes of the counters. -/
theorem Received.counters {h : CmdHead} {s t : State} (arrived : Received h s t) (p : Port) :
    (t.rx.get p).good = (if p = h.port then (s.rx.get p).good + 1 else (s.rx.get p).good) ∧
      (t.rx.get p).corrupt = (s.rx.get p).corrupt ∧ (t.rx.get p).truncated = (s.rx.get p).truncated ∧
      (t.rx.get p).malformed = (s.rx.get p).malformed ∧ (t.rx.get p).noBuffer = (s.rx.get p).noBuffer := by
  unfold Received at arrived
  generalize (t.rx.get h.port).sum = sum, (t.rx.get h.port).tail = tail, (t.rx.get h.port).framing = framing at arrived
  rw [arrived, PerPort.get_set]
  by_cases own : p = h.port
  · subst own
    simp
  · simp [own]

/-- A list of buffers that are in places of their own has at most 64. -/
theorem free_length {s : State} (placed : EachBufferInOnePlace s) : s.pool.free.length ≤ 64 := by
  have all := placed.length_eq
  rw [List.length_finRange] at all
  simp only [places, List.length_append] at all
  omega

theorem statusClock_length (s : State) : (statusClock s).length = 14 := rfl

theorem statusBanks_length (s : State) : (statusBanks s).length = 24 := by
  unfold statusBanks
  rw [instantOrZero_bytes]
  rfl

/-- Settles O38: the three parts of the reading, each at its place. -/
theorem statusIsReadAtOnce : Obligations.StatusIsReadAtOnce := by
  refine ⟨rfl, rfl, rfl, rfl, rfl, rfl, fun h b rest s can => ?_⟩
  generalize hy : atReceived h b rest [0x01] s (Reloaded s) = y
  have completes : CompletesAs (.readStatus h) h b rest 0x01 .done (statusResult y) s (Reloaded s) :=
    completes_reading (payload := [0x01]) (d := .readStatus) rfl can (by simp) rfl rfl (by rw [hy]; rfl)
      (reloaded_atCommand s)
  obtain ⟨t, stepped, arrived, -⟩ := id completes
  have arrivedAt : Received h s y := hy ▸ received_received h b rest [0x01] s _ rfl
  obtain ⟨⟨-, free, -, -, -, ready, -, -, due, placed, -⟩, -⟩ := can
  have ready : y.store.phase = .ready := by rw [← hy]; exact ready
  have size : rest.length < 256 := by
    have fits := free_length placed
    rw [free, List.length_cons] at fits
    omega
  have left : y.pool.free = rest := by rw [← hy]; rfl
  obtain ⟨day, weekday, hour, minute, second, sub, quality, uptime⟩ := statusClock_fields y ready (statusResult y)
    (statusBanks y ++ statusCounters y) (List.append_assoc _ _ _)
  obtain ⟨bank, atDay, atMinute, count, state, period, remaining, poisons, debt, corrected, scrubCorrected,
    uncorrectable, frees, held⟩ := statusBanks_fields y (statusBanks y ++ statusCounters y) _ rfl
  obtain ⟨timer, preset, source, refill, queue, lost, flags, ports, cause⟩ := statusCounters_fields y _ rfl
  have banks : statusResult y = statusClock y ++ (statusBanks y ++ statusCounters y) := List.append_assoc _ _ _
  have byte (i) : byteAt (statusResult y) (14 + i) = byteAt (statusBanks y ++ statusCounters y) i := by
    rw [banks, byteAt_after _ _ _ _ (statusClock_length y)]
  have half (i) : halfAt (statusResult y) (14 + i) = halfAt (statusBanks y ++ statusCounters y) i := by
    rw [banks, halfAt_after _ _ _ _ (statusClock_length y)]
  have triple (i) : tripleAt (statusResult y) (14 + i) = tripleAt (statusBanks y ++ statusCounters y) i := by
    rw [banks, tripleAt_after _ _ _ _ (statusClock_length y)]
  have length : (statusClock y ++ statusBanks y).length = 38 := by
    rw [List.length_append, statusClock_length, statusBanks_length]
  have byte2 (i) : byteAt (statusResult y) (38 + i) = byteAt (statusCounters y) i := byteAt_after _ _ _ _ length
  have half2 (i) : halfAt (statusResult y) (38 + i) = halfAt (statusCounters y) i := halfAt_after _ _ _ _ length
  have word2 (i) : wordAt (statusResult y) (38 + i) = wordAt (statusCounters y) i := wordAt_after _ _ _ _ length
  refine ⟨t, statusResult y, stepped, completes, ?_⟩
  have good (p : Port) : (y.rx.get p).good = (t.rx.get p).good := by
    rw [(arrivedAt.counters p).1, (arrived.counters p).1]
  have counters (p : Port) := (arrivedAt.counters p).2
  have parts : (statusResult y).length = 96 := by
    unfold statusResult
    rw [List.length_append, length]
    rfl
  rw [left] at frees
  subst hy
  refine ⟨parts, day, weekday, hour, minute, second, sub, quality, uptime,
    (byte 0).trans (bank.trans ?_), fun i scheduled => ⟨(half 1).trans ?_, ?_⟩,
    fun idle => ⟨(half 1).trans ?_, (half 3).trans ?_⟩, (half 5).trans count, (byte 7).trans state,
    (half 8).trans period, ?_, ?_, ?_, (half 16).trans corrected, (half 18).trans scrubCorrected,
    (half 20).trans uncorrectable, ?_, (byte 23).trans held, (byte2 0).trans timer, (half2 1).trans preset,
    (byte2 3).trans source, (half2 4).trans refill, (byte2 6).trans queue, (byte2 7).trans lost, (byte2 8).trans flags,
    ?_, (byte2 57).trans cause⟩
  case refine_1 =>
    change bankCode s.store.active ||| s.commit.phase.code <<< 1 = _
    cases s.commit.phase <;> rfl
  case refine_2 =>
    rw [atDay]
    change (s.commit.phase.instant.map Instant.day).getD 0 = i.day
    rw [scheduled]
    rfl
  case refine_3 =>
    rw [half 3, atMinute]
    change ((s.commit.phase.instant.map fun i => BitVec.ofNat 16 i.minute.val).getD 0).toNat = i.minute.val
    rw [scheduled]
    exact half_val i.minute (by decide)
  case refine_4 =>
    rw [atDay]
    change (s.commit.phase.instant.map Instant.day).getD 0 = 0
    rw [idle]
    rfl
  case refine_5 =>
    rw [atMinute]
    change (s.commit.phase.instant.map fun i => BitVec.ofNat 16 i.minute.val).getD 0 = 0
    rw [idle]
    rfl
  case refine_6 => rw [triple 10, remaining]; rfl
  case refine_7 => rw [half 13, poisons]; rfl
  case refine_8 => rw [byte 15, debt]; rfl
  case refine_9 => rw [byte 22, frees, number_byte size]
  case refine_10 =>
    rintro p i rfl
    obtain ⟨corrupt, truncated, malformed, noBuffer⟩ := counters p
    obtain ⟨g, c, tr, m, nb, tx⟩ := ports p _ rfl
    rw [good] at g
    rw [corrupt] at c
    rw [truncated] at tr
    rw [malformed] at m
    rw [noBuffer] at nb
    cases p with
    | n => exact ⟨(word2 9).trans g, (word2 13).trans c, (word2 17).trans tr, (word2 21).trans m, (word2 25).trans nb,
        (word2 29).trans tx⟩
    | f => exact ⟨(word2 33).trans g, (word2 37).trans c, (word2 41).trans tr, (word2 45).trans m, (word2 49).trans nb,
        (word2 53).trans tx⟩

end Sys2Proof.Machine
end

section
/-! SUPPORT. The commands that clear counts, records and flags (R98, R160, R173, R175, R176, R180). -/

namespace Sys2Proof.Machine

/-! ### The exception record (R180) -/

theorem Quality.code_high (q : Quality) (k : Nat) (h : 2 ≤ k) : q.code.getLsbD k = false := by
  refine Nat.testBit_lt_two_pow (Nat.lt_of_lt_of_le (?_ : _ < 2 ^ 2) (Nat.pow_le_pow_right (by decide) h))
  cases q <;> decide

theorem Quality.code_low (q : Quality) : q.code.extractLsb' 0 2 = (match q with
    | .unset => 0
    | .degraded => 1
    | .nominal => 2) := by
  cases q <;> rfl

theorem bitIn_low (v : Bool) (i : Nat) (h : 2 ≤ i) : (bitIn v i).extractLsb' 0 2 = 0 := by
  refine BitVec.eq_of_getLsbD_eq fun k small => ?_
  rw [BitVec.getLsbD_extractLsb', Nat.zero_add, bitIn_bit _ (by omega), beq_eq_false_iff_ne.2 (by omega : k ≠ i)]
  simp

/-- The bytes of an exception record by their places. -/
theorem encodeRecord_fields (r : ExcRecord) (l : List Byte) (hl : l = encodeRecord r) : l.length = 16 ∧
    byteAt l 0 = r.what.reason.code ∧
    (∀ k, 2 ≤ k → k < 8 → (byteAt l 1).getLsbD k = ((k == 7 && r.what.port == .f) ||
      (k == 6 && r.what.source.isSome) || (k == 5 && r.what.dest.isSome) || (k == 4 && r.what.cls.isSome) ||
      (k == 3 && r.what.index.isSome))) ∧
    (byteAt l 1).extractLsb' 0 2 = r.quality.code.extractLsb' 0 2 ∧
    halfAt l 2 = r.time.day ∧ (tripleAt l 4).toNat = r.time.second.val ∧ (halfAt l 7).toNat = r.time.sub.val ∧
    halfAt l 9 = r.what.source.getD 0 ∧ halfAt l 11 = r.what.dest.getD 0 ∧
    (byteAt l 13).toNat = (r.what.cls.getD 0).toNat ∧ (byteAt l 14).toNat = (r.what.index.getD 0).val ∧
    byteAt l 15 = r.repeats := by
  simp only [encodeRecord, be16, be24, halfOf, List.cons_append, List.nil_append] at hl
  subst hl
  refine ⟨rfl, rfl, fun k low high => ?_, ?_, be16_join r.time.day, ?_, ?_, be16_join (r.what.source.getD 0),
    be16_join (r.what.dest.getD 0), ?_, ?_, rfl⟩
  · change (bitIn (r.what.port == .f) 7 ||| bitIn r.what.source.isSome 6 ||| bitIn r.what.dest.isSome 5
      ||| bitIn r.what.cls.isSome 4 ||| bitIn r.what.index.isSome 3 ||| r.quality.code).getLsbD k = _
    simp only [BitVec.getLsbD_or, bitIn_bit _ high, r.quality.code_high k low, Bool.or_false]
  · change (bitIn (r.what.port == .f) 7 ||| bitIn r.what.source.isSome 6 ||| bitIn r.what.dest.isSome 5
      ||| bitIn r.what.cls.isSome 4 ||| bitIn r.what.index.isSome 3 ||| r.quality.code).extractLsb' 0 2 = _
    rw [BitVec.extractLsb'_or, BitVec.extractLsb'_or, BitVec.extractLsb'_or, BitVec.extractLsb'_or,
      BitVec.extractLsb'_or, bitIn_low _ 7 (by decide), bitIn_low _ 6 (by decide), bitIn_low _ 5 (by decide),
      bitIn_low _ 4 (by decide), bitIn_low _ 3 (by decide)]
    simp
  · refine (congrArg BitVec.toNat (tripleAt_join (BitVec.ofNat 24 r.time.second.val))).trans ?_
    rw [BitVec.toNat_ofNat]
    omega
  · exact (congrArg BitVec.toNat (be16_join (BitVec.ofNat 16 r.time.sub.val))).trans (half_val _ (by decide))
  · change ((r.what.cls.getD 0).setWidth 8).toNat = _
    simp
    omega
  · change (byteOf ((r.what.index.map Fin.val).getD 0)).toNat = _
    cases r.what.index with
    | none => rfl
    | some i => exact byte_val i (by decide)

/-- Settles O52: the records and codes, then the three commands. -/
theorem countsRecordsAndFlagsAreCleared : Obligations.CountsRecordsAndFlagsAreCleared := by
  refine ⟨fun r l hl => ?_, rfl, fun h b rest s can => ⟨fun low high le => ?_, fun m least most => ?_, fun flags => ?_⟩⟩
  · obtain ⟨length, reason, bits, quality, others⟩ := encodeRecord_fields r l hl
    refine ⟨length, reason, bits, quality.trans ?_, others⟩
    cases r.quality <;> rfl
  · have decoded : decodeCommand [0x12, low, high] = .command (.clearCounters (indexOf low) (indexOf high)) := by
      rw [decode_clearCounters, if_pos (show [low, high].length = 2 from rfl)]
      change decodedOf (if low.toNat ≤ high.toNat then some (.clearCounters (indexOf low) (indexOf high)) else none) = _
      rw [if_pos le]
      rfl
    exact completes_writing (c := .clearStreamCounters h low high) (payload := [0x12, low, high]) rfl can (by simp) rfl
      decoded rfl ⟨rfl, rfl, rfl, rfl, rfl, rfl, rfl, rfl, id⟩
  · have decoded : decodeCommand [0x13, m] = .command (.drain m.toNat) := by
      rw [decode_drain, if_pos (show [m].length = 1 from rfl)]
      change decodedOf (if 1 ≤ m.toNat ∧ m.toNat ≤ 8 then some (.drain m.toNat) else none) = _
      rw [if_pos ⟨least, most⟩]
      rfl
    refine completes_writing (c := .drainExceptions h m) (payload := [0x13, m]) rfl can (by simp) rfl
      decoded ?_ ⟨rfl, rfl, rfl, rfl, rfl, rfl, rfl, rfl, id⟩
    change complete b .done (drainResult m.toNat _) _ = _
    unfold drainResult
    rw [List.length_take, List.length_drop]
    rfl
  · exact completes_writing (c := .clearAlerts h flags) (payload := [0x14, flags]) (d := .clearAlerts flags) rfl can
      (by simp) rfl rfl rfl ⟨rfl, rfl, rfl, rfl, rfl, rfl, rfl, rfl, id⟩

end Sys2Proof.Machine
end

section
/-! SUPPORT. SET_CONFIG: what it answers, and the settings by their ranges and conflicts (R95, R161, R162, R168, R176,
section 10.5). -/

namespace Sys2Proof.Machine

/-! ### SET_CONFIG by its value -/

/-- The payload of a setting whose presence byte is allowed. -/
theorem decode_setting (code : Fin 17) (presence : Byte) (v : BitVec 16) (low : 1 ≤ code.val)
    (allowed : presence = 1 ∨ presence = 0 ∧ code.val = 14) :
    decodeCommand (settingPayload (BitVec.ofNat 8 code.val) presence v) =
      .command (.setConfig code.val (presence == 1) v) := by
  have value : (BitVec.ofNat 8 code.val).toNat = code.val := byte_val code (by decide)
  have inRange : 1 ≤ (BitVec.ofNat 8 code.val).toNat ∧ (BitVec.ofNat 8 code.val).toNat ≤ 16 ∧
      (presence = 1 ∨ presence = 0 ∧ BitVec.ofNat 8 code.val = 14) := by
    rw [value]
    refine ⟨low, by omega, allowed.imp_right fun ⟨absent, report⟩ => ⟨absent, ?_⟩⟩
    rw [report]
    rfl
  change decodeCommand (0x10 :: (BitVec.ofNat 8 code.val :: presence :: be16 v)) = _
  rw [decode_setConfig, if_pos (by simp [be16])]
  unfold decodeSetConfig
  refine (congrArg decodedOf (if_pos inRange)).trans ?_
  change Decoded.command (.setConfig (BitVec.ofNat 8 code.val).toNat (presence == 1) (halfAt (be16 v) 0)) = _
  rw [value, show halfAt (be16 v) 0 = v from be16_join v]

section
variable {c : Instr} {h : CmdHead} {b : BufId} {rest : List BufId} {s : State} {code : Fin 17} {presence : Byte}
  {v : BitVec 16} {new : Settings}

/-- A SET_CONFIG whose presence byte is allowed, by what carrying it out comes to. -/
theorem completes_setting (sent : exec c s = .next (sendCommand h (settingPayload (BitVec.ofNat 8 code.val) presence v) s))
    (can : CanWrite h b rest s) (low : 1 ≤ code.val) (allowed : presence = 1 ∨ presence = 0 ∧ code.val = 14)
    {status : Status} {results : List Byte} {x : State} (same : AtCommand s x)
    (carried : ∀ payload, carrySetConfig b code.val (presence == 1) v (atReceived h b rest payload s (Reloaded s)) =
      complete b status results (atReceived h b rest payload s x)) :
    CompletesAs c h b rest 0x10 status results s x :=
  completes_writing (payload := settingPayload (BitVec.ofNat 8 code.val) presence v) sent can
    (by simp [settingPayload, be16]) rfl (decode_setting code presence v low allowed) (carried _) same

/-- A value outside the range of its setting (R161). -/
theorem setting_outOfRange
    (sent : exec c s = .next (sendCommand h (settingPayload (BitVec.ofNat 8 code.val) presence v) s))
    (can : CanWrite h b rest s) (low : 1 ≤ code.val) (allowed : presence = 1 ∨ presence = 0 ∧ code.val = 14)
    (range : withSetting code.val (presence == 1) v s.agent.settings = none) :
    AnswersOnly c h b rest 0x10 .badArgument s := by
  refine completes_setting sent can low allowed (reloaded_atCommand s) fun payload => ?_
  unfold carrySetConfig
  dsimp only
  rw [show (atReceived h b rest payload s (Reloaded s)).agent.settings = s.agent.settings from rfl, range]

/-- The sender of the command in its buffer (R1, R153). -/
theorem atReceived_sender (h : CmdHead) (b : BufId) (rest : List BufId) (payload : List Byte) (s x : State) :
    ((atReceived h b rest payload s x).buffer b).desc.port = h.port ∧
      privOf ((atReceived h b rest payload s x).buffer b).bytes = h.priv := by
  have buffer : (atReceived h b rest payload s x).buffer b =
      ⟨commandTelegram h s.ownAddr payload, arrivalDescriptor h.port (11 + payload.length) s⟩ :=
    received_buffer h b rest payload s
  rw [buffer]
  exact ⟨rfl, command_priv h _ _⟩

/-- A value in range that conflicts (R95, R162). -/
theorem setting_conflicts
    (sent : exec c s = .next (sendCommand h (settingPayload (BitVec.ofNat 8 code.val) presence v) s))
    (can : CanWrite h b rest s) (low : 1 ≤ code.val) (allowed : presence = 1 ∨ presence = 0 ∧ code.val = 14)
    (range : withSetting code.val (presence == 1) v s.agent.settings = some new)
    (conflict : settingConflicts code.val new s.policer.timer h.port h.priv = true) :
    AnswersOnly c h b rest 0x10 .conflict s := by
  refine completes_setting sent can low allowed (reloaded_atCommand s) fun payload => ?_
  obtain ⟨port, priv⟩ := atReceived_sender h b rest payload s (Reloaded s)
  unfold carrySetConfig
  dsimp only
  rw [port, priv, show (atReceived h b rest payload s (Reloaded s)).agent.settings = s.agent.settings from rfl, range]
  exact if_pos conflict

/-- A value that is taken (R161, R168, R176). -/
theorem setting_taken
    (sent : exec c s = .next (sendCommand h (settingPayload (BitVec.ofNat 8 code.val) presence v) s))
    (can : CanWrite h b rest s) (low : 1 ≤ code.val) (allowed : presence = 1 ∨ presence = 0 ∧ code.val = 14)
    (range : withSetting code.val (presence == 1) v s.agent.settings = some new)
    (free : settingConflicts code.val new s.policer.timer h.port h.priv = false) :
    CompletesAs c h b rest 0x10 .done
      ([byteOf code.val] ++ settingBytes code.val s.agent.settings ++ settingBytes code.val new) s
      (acceptSetting code.val new (Reloaded s)) := by
  have accepted (payload : List Byte) : acceptSetting code.val new (atReceived h b rest payload s (Reloaded s)) =
      atReceived h b rest payload s (acceptSetting code.val new (Reloaded s)) := by
    unfold acceptSetting
    dsimp only
    split
    · rfl
    · split <;> rfl
  have same : AtCommand s (acceptSetting code.val new (Reloaded s)) := by
    unfold acceptSetting
    dsimp only
    split
    · exact ⟨rfl, rfl, rfl, rfl, rfl, rfl, rfl, rfl, id⟩
    · split
      · exact ⟨rfl, rfl, rfl, rfl, rfl, rfl, rfl, rfl, id⟩
      · exact ⟨rfl, rfl, rfl, rfl, rfl, rfl, rfl, rfl, id⟩
  refine completes_setting sent can low allowed same fun payload => ?_
  obtain ⟨port, priv⟩ := atReceived_sender h b rest payload s (Reloaded s)
  rw [← accepted]
  unfold carrySetConfig
  dsimp only
  rw [port, priv, show (atReceived h b rest payload s (Reloaded s)).agent.settings = s.agent.settings from rfl, range]
  exact if_neg (by rw [show (atReceived h b rest payload s (Reloaded s)).policer = s.policer from rfl, free]; decide)

/-- A setting that no timer or pin takes up at once. -/
theorem setting_accepted
    (sent : exec c s = .next (sendCommand h (settingPayload (BitVec.ofNat 8 code.val) presence v) s))
    (can : CanWrite h b rest s) (low : 1 ≤ code.val) (allowed : presence = 1 ∨ presence = 0 ∧ code.val = 14)
    (range : withSetting code.val (presence == 1) v s.agent.settings = some new)
    (free : settingConflicts code.val new s.policer.timer h.port h.priv = false)
    (plain : code.val ≠ 12 ∧ code.val ≠ 15) {after : List Byte} (written : settingBytes code.val new = after) :
    Accepts c h b rest (byteOf code.val) (settingBytes code.val s.agent.settings) after new s := by
  subst written
  have taken := setting_taken sent can low allowed range free
  unfold acceptSetting at taken
  dsimp only at taken
  rw [if_neg plain.1, if_neg plain.2] at taken
  exact taken

end

/-! ### Ranges and conflicts -/

section
variable {v : BitVec 16}

theorem twoBits_low (h : v.toNat ≤ 3) : twoBits v = some (v.setWidth 2) := if_pos h

theorem twoBits_high (h : 3 < v.toNat) : twoBits v = none := if_neg (by omega)

theorem flagSet_low (h : v.toNat ≤ 255) : flagSet v = some (v.setWidth 8) := if_pos h

theorem flagSet_high (h : 255 < v.toNat) : flagSet v = none := if_neg (by omega)

theorem within_in {low high : Nat} (hl : low ≤ v.toNat) (hh : v.toNat ≤ high) : within low high v = some v :=
  if_pos ⟨hl, hh⟩

theorem within_out {low high : Nat} (h : v.toNat < low ∨ high < v.toNat) : within low high v = none :=
  if_neg (by omega)

theorem zero_or_above {high : Nat} (h : v = 0 ∨ high < v.toNat) : v.toNat < 1 ∨ high < v.toNat :=
  h.imp_left fun zero => by rw [zero]; decide

theorem choice_out (h : 1 < v.toNat) : choice v = none := by
  unfold choice
  rw [if_neg (by rintro rfl; exact absurd h (by decide)), if_neg (by rintro rfl; exact absurd h (by decide))]

theorem sourceSetting_out (h : 2 < v.toNat) : sourceSetting v = none := by
  unfold sourceSetting
  rw [if_neg (by rintro rfl; exact absurd h (by decide)), if_neg (by rintro rfl; exact absurd h (by decide)),
    if_neg (by rintro rfl; exact absurd h (by decide))]

/-- A value that a field of fewer bits holds. -/
theorem narrowed {n w : Nat} (small : v.toNat < 2 ^ n) :
    (v.setWidth n).setWidth w = v.setWidth w := by
  refine BitVec.eq_of_toNat_eq ?_
  rw [BitVec.toNat_setWidth, BitVec.toNat_setWidth, BitVec.toNat_setWidth, Nat.mod_eq_of_lt small]

end

/-- Settings that neither R95 nor R162 guards. -/
theorem settingConflicts_plain {code : Nat} (plain : code ∈ [1, 4, 7, 8, 9, 12, 13, 14, 15, 16]) (new : Settings)
    (timer : TimerState) (p : Port) (priv : BitVec 2) : settingConflicts code new timer p priv = false := by
  simp only [List.mem_cons, List.not_mem_nil, or_false] at plain
  unfold settingConflicts guarded
  rcases plain with rfl | rfl | rfl | rfl | rfl | rfl | rfl | rfl | rfl | rfl <;> cases p <;> rfl

theorem plain_code : ∀ code : Fin 17, code.val ∈ [1, 4, 7, 8, 9, 13, 14, 16] →
    code.val ∈ [1, 4, 7, 8, 9, 12, 13, 14, 15, 16] ∧ 1 ≤ code.val ∧ code.val ≠ 12 ∧ code.val ≠ 15 := by
  decide

section
variable {c : Instr} {h : CmdHead} {b : BufId} {rest : List BufId} {s : State} {v : BitVec 16} {new : Settings}
  {after : List Byte}

/-- A present value of a setting that nothing guards. -/
theorem plain_accepted (code : Fin 17)
    (sent : exec c s = .next (sendCommand h (settingPayload (BitVec.ofNat 8 code.val) 1 v) s))
    (can : CanWrite h b rest s) (plain : code.val ∈ [1, 4, 7, 8, 9, 13, 14, 16])
    (range : withSetting code.val true v s.agent.settings = some new) (written : settingBytes code.val new = after) :
    Accepts c h b rest (byteOf code.val) (settingBytes code.val s.agent.settings) after new s := by
  obtain ⟨unguarded, low, noTimer, noPin⟩ := plain_code code plain
  exact setting_accepted sent can low (.inl rfl) range (settingConflicts_plain unguarded _ _ _ _) ⟨noTimer, noPin⟩
    written

/-- A present value outside the range. -/
theorem present_outOfRange (code : Fin 17)
    (sent : exec c s = .next (sendCommand h (settingPayload (BitVec.ofNat 8 code.val) 1 v) s))
    (can : CanWrite h b rest s) (low : 1 ≤ code.val) (range : withSetting code.val true v s.agent.settings = none) :
    AnswersOnly c h b rest 0x10 .badArgument s :=
  setting_outOfRange sent can low (.inl rfl) range

end

/-- Settles O48: the settings with no conflict, each by its range. -/
theorem plainSettingsAreReplaced : Obligations.PlainSettingsAreReplaced := by
  rintro h b rest s v can c rfl
  refine ⟨?_, fun high => ?_, fun low => ?_, fun high => ?_, fun low high => ?_, fun out => ?_, fun low high => ?_,
    fun out => ?_, fun low high => ?_, fun out => ?_, fun low high => ?_, fun out => ?_, ?_, ?_, fun low => ?_,
    fun high => ?_⟩
  case refine_1 =>
    rintro p rfl
    cases p with
    | true => exact plain_accepted (c := .defaultVerdict h 1 1) 1 rfl can (by decide) rfl rfl
    | false => exact plain_accepted (c := .defaultVerdict h 1 0) 1 rfl can (by decide) rfl rfl
  case refine_2 =>
    exact present_outOfRange (c := .defaultVerdict h 1 v) 1 rfl can (by decide)
      (congrArg (Option.map _) (choice_out high))
  case refine_3 =>
    exact plain_accepted (c := .readFloor h 1 v) 4 rfl can (by decide) (congrArg (Option.map _) (twoBits_low low))
      (congrArg (fun x => [x]) (narrowed (n := 2) (by omega)))
  case refine_4 =>
    exact present_outOfRange (c := .readFloor h 1 v) 4 rfl can (by decide)
      (congrArg (Option.map _) (twoBits_high high))
  case refine_5 =>
    exact plain_accepted (c := .bindLimit h 1 v) 7 rfl can (by decide)
      (congrArg (Option.map _) (within_in low high))
      (congrArg be16 ((narrowed (n := 10) (by omega)).trans (BitVec.setWidth_eq v)))
  case refine_6 =>
    exact present_outOfRange (c := .bindLimit h 1 v) 7 rfl can (by decide)
      (congrArg (Option.map _) (within_out (zero_or_above out)))
  case refine_7 =>
    exact plain_accepted (c := .scrubInterval h 1 v) 8 rfl can (by decide)
      (congrArg (Option.map _) (within_in low high)) rfl
  case refine_8 =>
    exact present_outOfRange (c := .scrubInterval h 1 v) 8 rfl can (by decide)
      (congrArg (Option.map _) (within_out (zero_or_above out)))
  case refine_9 =>
    exact plain_accepted (c := .urgentLevel h 1 v) 9 rfl can (by decide)
      (congrArg (Option.map _) (within_in low high)) (congrArg (fun x => [x]) (narrowed (n := 4) (by omega)))
  case refine_10 =>
    exact present_outOfRange (c := .urgentLevel h 1 v) 9 rfl can (by decide)
      (congrArg (Option.map _) (within_out (zero_or_above out)))
  case refine_11 =>
    exact plain_accepted (c := .holdHighMark h 1 v) 13 rfl can (by decide)
      (congrArg (Option.map _) (within_in low high)) (congrArg (fun x => [x]) (narrowed (n := 6) (by omega)))
  case refine_12 =>
    exact present_outOfRange (c := .holdHighMark h 1 v) 13 rfl can (by decide)
      (congrArg (Option.map _) (within_out (zero_or_above out)))
  case refine_13 =>
    intro old hold
    have written : settingBytes 14 s.agent.settings = old := by
      rw [hold]
      unfold settingBytes
      cases s.agent.settings.reportAddress <;> rfl
    rw [← written]
    refine ⟨fun station => ?_, ?_⟩
    · exact plain_accepted (c := .reportAddress h 1 v) 14 rfl can (by decide)
        (congrArg (Option.map _) (if_neg station)) rfl
    · exact setting_accepted (c := .reportAddress h 0 v) (code := 14) (presence := 0) (v := v) rfl can (by decide)
        (.inr ⟨rfl, rfl⟩) rfl (settingConflicts_plain (by decide) _ _ _ _) (by decide)
        (show 0 :: be16 0 = [0, 0, 0] by decide)
  case refine_14 =>
    exact present_outOfRange (c := .reportAddress h 1 0xFFFF) 14 rfl can (by decide) rfl
  case refine_15 =>
    exact plain_accepted (c := .reportEnables h 1 v) 16 rfl can (by decide)
      (congrArg (Option.map _) (flagSet_low low)) rfl
  case refine_16 =>
    exact present_outOfRange (c := .reportEnables h 1 v) 16 rfl can (by decide)
      (congrArg (Option.map _) (flagSet_high high))

/-! ### The guarded settings (R162) -/

/-- The same command sent again would be shut out. -/
theorem shutsOut_iff (c : Settings) (p : Port) (priv : BitVec 2) : shutsOut c p priv = true ↔
    (p = .n ∧ c.nearAllowed = false) ∨ c.writeFloor.toNat < max priv.toNat (c.floor p).toNat := by
  unfold shutsOut commandAdmitted
  rw [Bool.or_eq_true, decide_eq_true_eq, effectivePriv_toNat]
  cases p <;> simp

theorem two_bits_val {v : BitVec 16} (small : v.toNat ≤ 3) : (v.setWidth 2).toNat = v.toNat := by
  rw [BitVec.toNat_setWidth]
  exact Nat.mod_eq_of_lt (by omega)

section
variable {c : Instr} {h : CmdHead} {b : BufId} {rest : List BufId} {s : State} {v : BitVec 16} {new : Settings}
  {after : List Byte}

/-- A command of class WRITE that is executed passes the privilege test and check 1 (R153). -/
theorem CanWrite.passes (can : CanWrite h b rest s) :
    max h.priv.toNat (s.agent.settings.floor h.port).toNat ≤ s.agent.settings.writeFloor.toNat ∧
      (h.port = .n → s.agent.settings.nearAllowed = true) := by
  obtain ⟨⟨-, -, -, -, admitted, -⟩, privileged, -⟩ := can
  rw [Privileged, effectivePriv_toNat] at privileged
  refine ⟨privileged, fun near => ?_⟩
  unfold commandAdmitted at admitted
  rw [near] at admitted
  simpa using admitted

theorem guarded_code : ∀ code : Fin 17, code.val ∈ [2, 3, 5, 6] → 1 ≤ code.val ∧ code.val ≠ 12 ∧ code.val ≠ 15 ∧
    (code.val == 10 || code.val == 11) = false := by
  decide

/-- A value of a guarded setting that keeps the sender in. -/
theorem guarded_accepted (code : Fin 17)
    (sent : exec c s = .next (sendCommand h (settingPayload (BitVec.ofNat 8 code.val) 1 v) s))
    (can : CanWrite h b rest s) (listed : code.val ∈ [2, 3, 5, 6])
    (range : withSetting code.val true v s.agent.settings = some new) (written : settingBytes code.val new = after)
    (stays : guarded code.val h.port = true → ¬((h.port = .n ∧ new.nearAllowed = false) ∨
      new.writeFloor.toNat < max h.priv.toNat (new.floor h.port).toNat)) :
    Accepts c h b rest (byteOf code.val) (settingBytes code.val s.agent.settings) after new s := by
  obtain ⟨low, noTimer, noPin, noRefill⟩ := guarded_code code listed
  refine setting_accepted sent can low (.inl rfl) range ?_ ⟨noTimer, noPin⟩ written
  unfold settingConflicts
  rw [noRefill, Bool.false_and, Bool.false_or, Bool.and_eq_false_imp]
  intro guards
  rw [Bool.eq_false_iff, Ne, shutsOut_iff]
  exact stays guards

/-- A value of a guarded setting that would shut the sender out. -/
theorem guarded_conflicts (code : Fin 17)
    (sent : exec c s = .next (sendCommand h (settingPayload (BitVec.ofNat 8 code.val) 1 v) s))
    (can : CanWrite h b rest s) (listed : code.val ∈ [2, 3, 5, 6])
    (range : withSetting code.val true v s.agent.settings = some new) (guards : guarded code.val h.port = true)
    (out : (h.port = .n ∧ new.nearAllowed = false) ∨
      new.writeFloor.toNat < max h.priv.toNat (new.floor h.port).toNat) :
    AnswersOnly c h b rest 0x10 .conflict s := by
  obtain ⟨low, -⟩ := guarded_code code listed
  refine setting_conflicts sent can low (.inl rfl) range ?_
  unfold settingConflicts
  rw [guards, Bool.true_and, (shutsOut_iff _ _ _).2 out, Bool.or_true]

end

/-- A floor of the sender's own port that its commands still pass. -/
theorem stays {v : BitVec 16} {own : Prop} {allowed : Bool} {tag floor writeFloor : Nat} (small : v.toNat ≤ 3)
    (near : own → allowed = true) (passes : max tag floor ≤ writeFloor) (low : v.toNat ≤ writeFloor) :
    ¬(own ∧ allowed = false ∨ writeFloor < max tag (v.setWidth 2).toNat) := by
  rw [two_bits_val small]
  rintro (⟨sender, refused⟩ | lower)
  · exact absurd (near sender) (by rw [refused]; decide)
  · omega

/-- Settles O49: each guarded setting by what the sender could do after it. -/
theorem guardedSettingsKeepTheStationIn : Obligations.GuardedSettingsKeepTheStationIn := by
  rintro h b rest s v can c rfl
  obtain ⟨passes, near⟩ := can.passes
  have kept : v.toNat ≤ 3 → settingBytes 2 { s.agent.settings with floorN := v.setWidth 2 } = [v.setWidth 8] :=
    fun small => congrArg (fun x => [x]) (narrowed (n := 2) (by omega))
  refine ⟨fun small above => ?_, fun below => ?_, fun small free => ?_, fun small own above => ?_, fun small free => ?_,
    fun small own above => ?_, fun high => ⟨?_, ?_, ?_⟩, ?_⟩
  case refine_1 =>
    refine guarded_accepted (c := .writeFloor h 1 v) 5 rfl can (by decide)
      (congrArg (Option.map _) (twoBits_low small)) (kept small) fun _ out => ?_
    rcases out with ⟨own, refused⟩ | lower
    · exact absurd (near own) (by rw [refused]; decide)
    · exact absurd lower (Nat.not_lt.2 (above.trans (two_bits_val small).ge))
  case refine_2 =>
    have small : v.toNat ≤ 3 := by omega
    refine guarded_conflicts (c := .writeFloor h 1 v) 5 rfl can (by decide)
      (congrArg (Option.map _) (twoBits_low small)) rfl (.inr ?_)
    exact (two_bits_val small).trans_lt below
  case refine_3 =>
    refine guarded_accepted (c := .floorN h 1 v) 2 rfl can (by decide)
      (congrArg (Option.map _) (twoBits_low small)) (kept small) fun guards out => ?_
    cases own : h.port with
    | f => rw [own] at guards; exact absurd guards (by decide)
    | n =>
      have low := free.resolve_left (by rw [own]; decide)
      rw [own] at out near
      exact stays small near passes low out
  case refine_4 =>
    refine guarded_conflicts (c := .floorN h 1 v) 2 rfl can (by decide)
      (congrArg (Option.map _) (twoBits_low small)) (by rw [own]; rfl) (.inr ?_)
    rw [own]
    exact above.trans_le ((two_bits_val small).ge.trans (le_max_right _ _))
  case refine_5 =>
    refine guarded_accepted (c := .floorF h 1 v) 3 rfl can (by decide)
      (congrArg (Option.map _) (twoBits_low small)) (kept small) fun guards out => ?_
    cases own : h.port with
    | n => rw [own] at guards; exact absurd guards (by decide)
    | f =>
      have low := free.resolve_left (by rw [own]; decide)
      rw [own] at out near
      exact stays small near passes low out
  case refine_6 =>
    refine guarded_conflicts (c := .floorF h 1 v) 3 rfl can (by decide)
      (congrArg (Option.map _) (twoBits_low small)) (by rw [own]; rfl) (.inr ?_)
    rw [own]
    exact above.trans_le ((two_bits_val small).ge.trans (le_max_right _ _))
  case refine_7 =>
    exact present_outOfRange (c := .writeFloor h 1 v) 5 rfl can (by decide)
      (congrArg (Option.map _) (twoBits_high high))
  case refine_8 =>
    exact present_outOfRange (c := .floorN h 1 v) 2 rfl can (by decide)
      (congrArg (Option.map _) (twoBits_high high))
  case refine_9 =>
    exact present_outOfRange (c := .floorF h 1 v) 3 rfl can (by decide)
      (congrArg (Option.map _) (twoBits_high high))
  case refine_10 =>
    intro old hold
    have written : settingBytes 6 s.agent.settings = old := by
      rw [hold]
      change [yesNo (!s.agent.settings.nearAllowed)] = _
      cases s.agent.settings.nearAllowed <;> rfl
    rw [← written]
    refine ⟨?_, fun far => ?_, fun own => ?_, fun high => ?_⟩
    · refine guarded_accepted (c := .nearManagement h 1 0) 6 rfl can (by decide) rfl rfl fun _ out => ?_
      rcases out with ⟨-, refused⟩ | lower
      · exact Bool.noConfusion refused
      · exact absurd lower (Nat.not_lt.2 passes)
    · refine guarded_accepted (c := .nearManagement h 1 1) 6 rfl can (by decide) rfl rfl fun _ out => ?_
      rcases out with ⟨own, -⟩ | lower
      · exact absurd own (by rw [far]; decide)
      · exact absurd lower (Nat.not_lt.2 passes)
    · exact guarded_conflicts (c := .nearManagement h 1 1) 6 rfl can (by decide) rfl rfl (.inl ⟨own, rfl⟩)
    · exact present_outOfRange (c := .nearManagement h 1 v) 6 rfl can (by decide)
        (congrArg (Option.map _) (choice_out high))

end Sys2Proof.Machine
end

section
/-! SUPPORT. SET_CONFIG of the settings that a timer or a pin takes up (R95, R161, R168, R176). -/

namespace Sys2Proof.Machine

/-- The settings of the Refill Timer conflict while it is not STOPPED (R95). -/
theorem settingConflicts_refill (code : Nat) (listed : code = 10 ∨ code = 11) (new : Settings) (timer : TimerState)
    (p : Port) (priv : BitVec 2) : settingConflicts code new timer p priv = (timer != .stopped) := by
  unfold settingConflicts guarded
  rcases listed with rfl | rfl <;> cases p <;> simp

theorem not_zero {v : BitVec 16} (h : v ≠ 0) : 1 ≤ v.toNat ∧ v.toNat ≤ 65535 := by
  have positive : v.toNat ≠ 0 := fun zero => h (BitVec.eq_of_toNat_eq zero)
  omega

theorem sourceSetting_low {v : BitVec 16} (h : v.toNat ≤ 2) : ∃ x, sourceSetting v = some x := by
  unfold sourceSetting
  by_cases tick : v = 0
  · exact ⟨_, if_pos tick⟩
  · by_cases sixtyFourth : v = 1
    · exact ⟨_, (if_neg tick).trans (if_pos sixtyFourth)⟩
    · have second : v = 2 := by
        have n0 : v.toNat ≠ 0 := fun e => tick (BitVec.eq_of_toNat_eq e)
        have n1 : v.toNat ≠ 1 := fun e => sixtyFourth (BitVec.eq_of_toNat_eq e)
        exact BitVec.eq_of_toNat_eq (by change v.toNat = 2; omega)
      exact ⟨_, (if_neg tick).trans ((if_neg sixtyFourth).trans (if_pos second))⟩

theorem sourceSetting_code (src : RefillSource) : sourceSetting (src.code.setWidth 16) = some src := by
  cases src <;> rfl

/-- A present value of a setting that acts at once. -/
theorem present_effective {c : Instr} {h : CmdHead} {b : BufId} {rest : List BufId} {s x : State} {v : BitVec 16}
    {new : Settings} {after : List Byte} (code : Fin 17)
    (sent : exec c s = .next (sendCommand h (settingPayload (BitVec.ofNat 8 code.val) 1 v) s))
    (can : CanWrite h b rest s) (low : 1 ≤ code.val) (listed : code.val = 12 ∨ code.val = 15)
    (range : withSetting code.val true v s.agent.settings = some new) (written : settingBytes code.val new = after)
    (effect : acceptSetting code.val new (Reloaded s) = x) :
    CompletesAs c h b rest 0x10 .done (byteOf code.val :: (settingBytes code.val s.agent.settings ++ after)) s x := by
  subst written effect
  refine setting_taken sent can low (.inl rfl) range (settingConflicts_plain ?_ _ _ _ _)
  rcases listed with e | e <;> rw [e] <;> decide

/-- The supervision period reloads or disables the Supervision Timer (R168). -/
theorem acceptSetting_period (v : BitVec 16) (s : State) :
    acceptSetting 12 { s.agent.settings with supervisionPeriod := v } (Reloaded s) =
      { s with agent := { s.agent with
        settings := { s.agent.settings with supervisionPeriod := v }
        supervision := if v = 0 then ⟨.disabled, 0⟩ else ⟨.counting, ⟨v.toNat + 1, by omega⟩⟩ } } := rfl

/-- The pin enables drive ALERT_N (R176). -/
theorem acceptSetting_pins (x : BitVec 8) (s : State) :
    acceptSetting 15 { s.agent.settings with pinEnables := x } (Reloaded s) =
      { Reloaded s with
        agent := { (Reloaded s).agent with settings := { s.agent.settings with pinEnables := x } }
        exc := { s.exc with alertLow := (s.exc.flags &&& x) != 0 } } := rfl

/-- Settles O50: the refill settings by the Timer's state, then the two that act at once. -/
theorem timerAndPinSettingsActAtOnce : Obligations.TimerAndPinSettingsActAtOnce := by
  rintro h b rest s v can c rfl
  have stopped {code : Nat} (listed : code = 10 ∨ code = 11) (new : Settings) (idle : s.policer.timer = .stopped) :
      settingConflicts code new s.policer.timer h.port h.priv = false := by
    rw [settingConflicts_refill code listed, idle]
    rfl
  have moving {code : Nat} (listed : code = 10 ∨ code = 11) (new : Settings) (busy : s.policer.timer ≠ .stopped) :
      settingConflicts code new s.policer.timer h.port h.priv = true := by
    rw [settingConflicts_refill code listed]
    exact bne_iff_ne.2 busy
  refine ⟨fun value idle => ?_, fun value busy => ?_, ?_, fun src idle => ?_, fun low busy => ?_, fun high => ?_, ?_,
    fun low => ?_, fun high => ?_⟩
  case refine_1 =>
    exact setting_accepted (c := .refillPreset h 1 v) (code := 10) (presence := 1) rfl can (by decide) (.inl rfl)
      (congrArg (Option.map _) (within_in (not_zero value).1 (not_zero value).2)) (stopped (.inl rfl) _ idle)
      (by decide) rfl
  case refine_2 =>
    exact setting_conflicts (c := .refillPreset h 1 v) (code := 10) (presence := 1) rfl can (by decide) (.inl rfl)
      (congrArg (Option.map _) (within_in (not_zero value).1 (not_zero value).2)) (moving (.inl rfl) _ busy)
  case refine_3 => exact present_outOfRange (c := .refillPreset h 1 0) 10 rfl can (by decide) rfl
  case refine_4 =>
    exact setting_accepted (c := .refillSource h 1 (src.code.setWidth 16)) (code := 11) (presence := 1) rfl can
      (by decide) (.inl rfl) (congrArg (Option.map _) (sourceSetting_code src)) (stopped (.inr rfl) _ idle)
      (by decide) rfl
  case refine_5 =>
    obtain ⟨x, range⟩ := sourceSetting_low low
    exact setting_conflicts (c := .refillSource h 1 v) (code := 11) (presence := 1) rfl can (by decide) (.inl rfl)
      (congrArg (Option.map _) range) (moving (.inr rfl) _ busy)
  case refine_6 =>
    exact present_outOfRange (c := .refillSource h 1 v) 11 rfl can (by decide)
      (congrArg (Option.map _) (sourceSetting_out high))
  case refine_7 =>
    exact present_effective (c := .supervisionPeriod h 1 v) 12 rfl can (by decide) (.inl rfl) rfl rfl
      (acceptSetting_period v s)
  case refine_8 =>
    exact present_effective (c := .alertPinEnables h 1 v) 15 rfl can (by decide) (.inr rfl)
      (congrArg (Option.map _) (flagSet_low low)) rfl (acceptSetting_pins _ s)
  case refine_9 =>
    exact present_outOfRange (c := .alertPinEnables h 1 v) 15 rfl can (by decide)
      (congrArg (Option.map _) (flagSet_high high))

end Sys2Proof.Machine
end

section
/-! SUPPORT. Commands that are not carried out: entry and window records by their ranges, and the payloads that are
answered UNKNOWN_COMMAND or BAD_ARGUMENT (R18, R43, R66, R72, R98, R112, R144, R155, R180). -/

namespace Sys2Proof.Machine

/-! ### Entry and window records by their ranges -/

theorem station_iff (x : BitVec 16) : x.toNat ≤ 0xFFFE ↔ x ≠ 0xFFFF := by
  rw [Ne, ← BitVec.toNat_inj]
  change _ ↔ ¬x.toNat = 65535
  omega

theorem consistent_iff (e : StreamEntry) : e.consistent = true ↔
    e.srcLow.toNat ≤ e.srcHigh.toNat ∧ e.srcHigh ≠ 0xFFFF ∧ e.dstLow.toNat ≤ e.dstHigh.toNat ∧ e.dstHigh ≠ 0xFFFF ∧
      (e.portN = true ∨ e.portF = true) ∧ e.holdLimit.toNat ≤ 4095 ∧
      ∀ r, e.remap = some r → r.toNat + (e.dstHigh.toNat - e.dstLow.toNat) ≤ 0xFFFE := by
  unfold StreamEntry.consistent
  rw [← station_iff, ← station_iff]
  cases e.remap with
  | none => simp only [Bool.and_eq_true, Bool.or_eq_true, decide_eq_true_eq]; grind
  | some r => simp only [Bool.and_eq_true, Bool.or_eq_true, decide_eq_true_eq]; grind

theorem entryAllowed_iff (l : List Byte) : entryAllowed l = true ↔ (byteAt l 1).extractLsb' 2 4 = 0 ∧
    (halfAt l 2).toNat ≤ (halfAt l 4).toNat ∧ halfAt l 4 ≠ 0xFFFF ∧
    (halfAt l 8).toNat ≤ (halfAt l 10).toNat ∧ halfAt l 10 ≠ 0xFFFF ∧
    ((byteAt l 0).getLsbD 6 = true ∨ (byteAt l 0).getLsbD 5 = true) ∧ (halfAt l 20).toNat ≤ 4095 ∧
    ((byteAt l 0).getLsbD 3 = true →
      (halfAt l 12).toNat + ((halfAt l 10).toNat - (halfAt l 8).toNat) ≤ 0xFFFE) := by
  have remap (P : BitVec 16 → Prop) : (∀ r, (decodeEntry l).remap = some r → P r) ↔
      ((byteAt l 0).getLsbD 3 = true → P (halfAt l 12)) := by
    change (∀ r, (if (byteAt l 0).getLsbD 3 then some (halfAt l 12) else none) = some r → P r) ↔ _
    cases (byteAt l 0).getLsbD 3 <;> simp
  unfold entryAllowed
  rw [Bool.and_eq_true, beq_iff_eq, consistent_iff, remap]
  rfl

theorem minuteOf_none (x : BitVec 16) : minuteOf x = none ↔ 1439 < x.toNat := by
  unfold minuteOf
  split <;> simp <;> omega

theorem minuteOf_some {x : BitVec 16} {m : Fin 1440} (h : minuteOf x = some m) : m.val = x.toNat := by
  unfold minuteOf at h
  split at h
  · exact (congrArg Fin.val (Option.some.inj h)).symm
  · cases h

/-- A window record is taken unless a field is out of its range (R72, R180). -/
theorem decodeWindow_iff (l : List Byte) :
    (decodeWindow l = none ↔ (byteAt l 0).extractLsb' 0 5 ≠ 0 ∨ (byteAt l 1).getLsbD 7 = true ∨
      1439 < (halfAt l 2).toNat ∨ 1439 < (halfAt l 4).toNat ∨
      ((byteAt l 0).getLsbD 5 = true ∧ (halfAt l 8).toNat < (halfAt l 6).toNat)) ∧
    ∀ r, decodeWindow l = some r → r.used = (byteAt l 0).getLsbD 7 ∧ r.strict = (byteAt l 0).getLsbD 6 ∧
      r.days = (byteAt l 1).setWidth 7 ∧ r.start.val = (halfAt l 2).toNat ∧ r.stop.val = (halfAt l 4).toNat ∧
      r.dates = if (byteAt l 0).getLsbD 5 then some (halfAt l 6, halfAt l 8) else none := by
  rw [← minuteOf_none, ← minuteOf_none]
  unfold decodeWindow
  cases start : minuteOf (halfAt l 2) with
  | none => simp
  | some low =>
    cases stop : minuteOf (halfAt l 4) with
    | none => simp
    | some high =>
      dsimp only
      split
      next bad =>
        refine ⟨⟨fun _ => ?_, fun _ => rfl⟩, fun r => nofun⟩
        simp only [Bool.or_eq_true, Bool.and_eq_true, decide_eq_true_eq, bne_iff_ne] at bad
        rcases bad with (reserved | high) | range
        · exact .inl reserved
        · exact .inr (.inl high)
        · exact .inr (.inr (.inr (.inr range)))
      next good =>
        refine ⟨⟨nofun, fun bad => absurd ?_ good⟩, ?_⟩
        · simp only [Bool.or_eq_true, Bool.and_eq_true, decide_eq_true_eq, bne_iff_ne]
          rcases bad with reserved | high | none | none | range
          · exact .inl (.inl reserved)
          · exact .inl (.inr high)
          · cases none
          · cases none
          · exact .inr range
        · rintro r made
          cases made
          exact ⟨rfl, rfl, (BitVec.setWidth_eq_extractLsb' (by decide)).symm, minuteOf_some start, minuteOf_some stop,
            rfl⟩

/-! ### Payloads that name no command, and arguments out of range -/

theorem decode_unknown {payload : List Byte} (h : namesNoCommand payload = true) :
    decodeCommand payload = .unknown ∧ isWrite payload = false := by
  cases payload with
  | nil => exact ⟨rfl, rfl⟩
  | cons code a =>
    have out : code.toNat = 0 ∨ 0x16 < code.toNat := by
      unfold namesNoCommand at h
      rw [Bool.or_eq_true, beq_iff_eq, decide_eq_true_eq] at h
      exact h.imp_left fun zero => by rw [zero]; rfl
    constructor
    · unfold decodeCommand
      dsimp only
      split
      case h_23 => rfl
      all_goals omega
    · unfold isWrite
      rw [Bool.and_eq_false_iff, decide_eq_false_iff_not, decide_eq_false_iff_not]
      omega

/-- A payload of another length than its command's. -/
theorem decode_length {code : Byte} {n : Nat} (listed : (code, n) ∈ argumentLengths) {a : List Byte}
    (wrong : a.length ≠ n) : decodeCommand (code :: a) = .bad := by
  simp only [argumentLengths, List.mem_cons, Prod.mk.injEq, List.not_mem_nil, or_false] at listed
  rcases listed with ⟨rfl, rfl⟩ | ⟨rfl, rfl⟩ | ⟨rfl, rfl⟩ | ⟨rfl, rfl⟩ | ⟨rfl, rfl⟩ | ⟨rfl, rfl⟩ | ⟨rfl, rfl⟩ |
    ⟨rfl, rfl⟩ | ⟨rfl, rfl⟩ | ⟨rfl, rfl⟩ | ⟨rfl, rfl⟩ | ⟨rfl, rfl⟩ | ⟨rfl, rfl⟩ | ⟨rfl, rfl⟩ | ⟨rfl, rfl⟩ | ⟨rfl, rfl⟩ |
    ⟨rfl, rfl⟩ | ⟨rfl, rfl⟩ | ⟨rfl, rfl⟩ | ⟨rfl, rfl⟩ | ⟨rfl, rfl⟩ <;> exact if_neg wrong

theorem decode_streamCount {a : List Byte} (wrong : a = [] ∨ 8 < a.length) : decodeCommand (0x04 :: a) = .bad := by
  cases a with
  | nil => rfl
  | cons i rest =>
    refine if_neg fun few => ?_
    rcases wrong with none | many
    · cases none
    · rw [List.length_cons] at many
      omega

theorem decode_settingCode {set : Byte} {a : List Byte} (wrong : set = 0 ∨ 16 < set.toNat) :
    decodeCommand (0x10 :: set :: a) = .bad := by
  rw [decode_setConfig]
  split
  · have none : decodeSetConfig (set :: a) = none := by
      refine if_neg fun ⟨least, most, _⟩ => ?_
      change 1 ≤ set.toNat at least
      change set.toNat ≤ 16 at most
      rcases wrong with zero | high
      · rw [zero] at least
        exact absurd least (by decide)
      · omega
    rw [none]
    rfl
  · rfl

theorem byte_ne {x : Byte} (n : Nat) (h : n < x.toNat) : x ≠ BitVec.ofNat 8 n := by
  rintro rfl
  rw [BitVec.toNat_ofNat] at h
  exact absurd h (Nat.not_lt.2 (Nat.mod_le _ _))

theorem decode_action {action : Byte} (wrong : 3 < action.toNat) : decodeCommand [0x11, action] = .bad := by
  have none : actionOf action = none := by
    have zero : action ≠ 0 := byte_ne 0 (by omega)
    have one : action ≠ 1 := byte_ne 1 (by omega)
    have two : action ≠ 2 := byte_ne 2 (by omega)
    have three : action ≠ 3 := byte_ne 3 wrong
    unfold actionOf
    rw [if_neg zero, if_neg one, if_neg two, if_neg three]
  change decodedOf ((actionOf action).map .refillControl) = _
  rw [none]
  rfl

theorem listed_codes : ∀ x ∈ argumentLengths, x.1.toNat ≤ 0x16 := by decide

/-- A command whose payload does not pass: the reload, then BAD_ARGUMENT (R155, R166). -/
theorem startCommand_bad {code : Byte} {args : List Byte} {b : BufId} {s : State}
    (payload : payloadOf (s.buffer b).bytes = code :: args) (bad : decodeCommand (code :: args) = .bad)
    (named : code.toNat ≤ 0x16)
    (privileged : max (privOf (s.buffer b).bytes).toNat (s.agent.settings.floor (s.buffer b).desc.port).toNat ≤
      (if 0x07 ≤ code.toNat then s.agent.settings.writeFloor else s.agent.settings.readFloor).toNat) :
    startCommand b s = complete b .badArgument [] (Reloaded s) := by
  have passes : Machine.privileged (s.buffer b).desc.port (s.buffer b).bytes s.agent.settings = true := by
    have write : isWrite (code :: args) = decide (0x07 ≤ code.toNat) := by
      change (decide (0x07 ≤ code.toNat) && decide (code.toNat ≤ 0x16)) = _
      rw [decide_eq_true named, Bool.and_true]
    unfold Machine.privileged
    rw [payload, write, decide_eq_true_eq, effectivePriv_toNat]
    simpa only [decide_eq_true_eq] using privileged
  unfold startCommand executeCommand
  rw [if_pos passes]
  dsimp only
  rw [payload, bad]
  rfl

/-! ### Arguments out of range, command by command -/

theorem roleOf_none {role : Byte} (h : 1 < role.toNat) : roleOf role = none := by
  have zero : role ≠ 0 := byte_ne 0 (by omega)
  have one : role ≠ 1 := byte_ne 1 h
  unfold roleOf
  rw [if_neg zero, if_neg one]

theorem windowOf_none {w : Byte} (h : 31 < w.toNat) : windowOf w = none := dif_neg (by omega)

theorem portOf_none {p : Byte} (h : 1 < p.toNat) : portOf p = none := by
  have zero : p ≠ 0 := byte_ne 0 (by omega)
  have one : p ≠ 1 := byte_ne 1 h
  unfold portOf
  rw [if_neg zero, if_neg one]

/-- Bits 7 to 3 of an option byte are 0 for the values 0 to 7 alone. -/
theorem options_high {opts : Byte} (h : 7 < opts.toNat) : opts.extractLsb' 3 5 ≠ 0#5 := by
  intro zero
  have val := congrArg BitVec.toNat zero
  rw [BitVec.extractLsb'_toNat, Nat.shiftRight_eq_div_pow] at val
  change opts.toNat / 8 % 32 = 0 at val
  omega

theorem decodeProbe_none {port : Byte} {src dst : Addr} {cls priv opts : Byte} {limit : BitVec 16}
    (h : 1 < port.toNat ∨ src = 0xFFFF ∨ 15 < cls.toNat ∨ 3 < priv.toNat ∨ 7 < opts.toNat ∨
      (opts.getLsbD 2 = true ∧ 4095 < limit.toNat)) :
    decodeProbe (probePayload port src dst cls priv opts limit).tail = none := by
  have source : halfAt (probePayload port src dst cls priv opts limit).tail 1 = src := be16_join src
  have last : halfAt (probePayload port src dst cls priv opts limit).tail 8 = limit := be16_join limit
  unfold decodeProbe
  rw [source, last]
  change (match portOf port with
    | none => none
    | some p => if src = 0xFFFF ∨ 15 < cls.toNat ∨ 3 < priv.toNat ∨ opts.extractLsb' 3 5 ≠ 0#5 ∨
        (opts.getLsbD 2 = true ∧ 4095 < limit.toNat) then none else _) = none
  cases found : portOf port with
  | none => rfl
  | some p =>
    refine if_pos ?_
    rcases h with high | rest
    · rw [portOf_none high] at found
      cases found
    · exact rest.imp_right fun rest => rest.imp_right fun rest => rest.imp_right fun rest => rest.imp_left options_high

/-- A presence byte that a setting does not allow. -/
theorem decode_presence {code : Fin 17} {present : Byte} {v : BitVec 16}
    (wrong : present ≠ 1 ∧ code.val ≠ 14 ∨ 1 < present.toNat) :
    decodeCommand (settingPayload (BitVec.ofNat 8 code.val) present v) = .bad := by
  have none : decodeSetConfig (BitVec.ofNat 8 code.val :: present :: be16 v) = none := by
    refine if_neg fun ⟨_, _, allowed⟩ => ?_
    change present = 1 ∨ present = 0 ∧ BitVec.ofNat 8 code.val = 14 at allowed
    rcases allowed with rfl | ⟨rfl, report⟩
    · rcases wrong with ⟨absent, -⟩ | high
      · exact absent rfl
      · exact absurd high (by decide)
    · rcases wrong with ⟨-, other⟩ | high
      · have val := byte_val code (by decide)
        rw [report] at val
        exact other val.symm
      · exact absurd high (by decide)
  change decodeCommand (0x10 :: (BitVec.ofNat 8 code.val :: present :: be16 v)) = _
  rw [decode_setConfig, none]
  split <;> rfl

/-! ### What is answered -/

section
variable {h : CmdHead} {b : BufId} {rest : List BufId} {s : State}

/-- A SCHEDULE_COMMIT whose minute is no minute of day. -/
theorem decode_schedule_minute {day minute : BitVec 16} (high : 1439 < minute.toNat) :
    decodeCommand (0x0D :: be16 day ++ be16 minute) = .bad := by
  change decodeCommand (0x0D :: (be16 day ++ be16 minute)) = _
  rw [decode_schedule, halfAt_be16_second, (minuteOf_none _).2 high]
  split <;> rfl

/-- An instant that has passed is answered BAD_ARGUMENT (R144). -/
theorem schedule_passed (can : CanWrite h b rest s) {day minute : BitVec 16} (small : minute.toNat < 1440)
    (passed : day.toNat < s.cal.day.toNat ∨ (day = s.cal.day ∧ minute.toNat ≤ s.cal.minuteOfDay.val)) :
    AnswersOnly (.scheduleCommit h day minute) h b rest 0x0D .badArgument s := by
  have decoded : decodeCommand (0x0D :: be16 day ++ be16 minute) = .command (.schedule ⟨day, ⟨minute.toNat, small⟩⟩) := by
    change decodeCommand (0x0D :: (be16 day ++ be16 minute)) = _
    rw [decode_schedule, if_pos (by simp [be16]), halfAt_be16_second, halfAt_be16, minuteOf, dif_pos small]
    rfl
  refine completes_writing (c := .scheduleCommit h day minute) (payload := 0x0D :: be16 day ++ be16 minute) rfl can
    (by simp [be16]) rfl decoded ?_ (reloaded_atCommand s)
  refine if_neg ?_
  change ¬afterNow ⟨day, ⟨minute.toNat, small⟩⟩ s.cal = true
  unfold afterNow
  rw [Bool.or_eq_true, Bool.and_eq_true, decide_eq_true_eq, decide_eq_true_eq, beq_iff_eq]
  rintro (later | ⟨rfl, later⟩)
  · change s.cal.day.toNat < day.toNat at later
    rcases passed with before | ⟨rfl, -⟩ <;> omega
  · change s.cal.minuteOfDay.val < minute.toNat at later
    rcases passed with before | ⟨-, before⟩
    · exact absurd before (Nat.lt_irrefl _)
    · omega

theorem decodeSetTime_none {day : DayNum} {wd hr mn sec : Byte}
    (h : 6 < wd.toNat ∨ 23 < hr.toNat ∨ 59 < mn.toNat ∨ 59 < sec.toNat) :
    decodeCommand (0x0F :: be16 day ++ [wd, hr, mn, sec]) = .bad := by
  have none : decodeSetTime (be16 day ++ [wd, hr, mn, sec]) = none := by
    refine dif_neg ?_
    change ¬(wd.toNat < 7 ∧ hr.toNat < 24 ∧ mn.toNat < 60 ∧ sec.toNat < 60)
    omega
  change decodeCommand (0x0F :: (be16 day ++ [wd, hr, mn, sec])) = _
  rw [decode_setTime, none]
  split <;> rfl

/-- A setting whose presence byte it does not allow. -/
theorem presence_bad {c : Instr} {present : Byte} {v : BitVec 16} (code : Fin 17)
    (sent : exec c s = .next (sendCommand h (settingPayload (BitVec.ofNat 8 code.val) present v) s))
    (can : CanWrite h b rest s) (wrong : present ≠ 1 ∧ code.val ≠ 14 ∨ 1 < present.toNat) :
    AnswersOnly c h b rest 0x10 .badArgument s :=
  answersBad_writing (payload := settingPayload (BitVec.ofNat 8 code.val) present v) sent can
    (by simp [settingPayload, be16]) rfl (decode_presence wrong)

/-- READ class commands. -/
theorem readsAnsweredBad (can : CanRead h b rest s) :
    (∀ payload, payload.length ≤ 200 → namesNoCommand payload = true →
      AnswersOnly (.unknownCommand h payload) h b rest (byteAt payload 0) .unknownCommand s) ∧
    (∀ role i, 1 < role.toNat → AnswersOnly (.readEntry h role i) h b rest 0x02 .badArgument s) ∧
    (∀ role w, 1 < role.toNat ∨ 31 < w.toNat →
      AnswersOnly (.readWindow h role w) h b rest 0x03 .badArgument s) ∧
    (∀ l, l.length ≤ 199 → l = [] ∨ 8 < l.length →
      AnswersOnly (.readStreamStatus h l) h b rest 0x04 .badArgument s) ∧
    (∀ port src dst cls priv opts limit, 1 < port.toNat ∨ src = 0xFFFF ∨ 15 < cls.toNat ∨
        3 < priv.toNat ∨ 7 < opts.toNat ∨ (opts.getLsbD 2 = true ∧ 4095 < limit.toNat) →
      AnswersOnly (.probe h port src dst cls priv opts limit) h b rest 0x05 .badArgument s) := by
  refine ⟨fun payload short unnamed => ?_, fun role i high => ?_, fun role w high => ?_, fun l short wrong => ?_,
    fun port src dst cls priv opts limit wrong => ?_⟩
  · obtain ⟨unknown, read⟩ := decode_unknown unnamed
    obtain ⟨ready, -, -⟩ := id can
    obtain ⟨-, -, -, -, -, -, idle, -, due, -⟩ := id ready
    refine completes_read (c := .unknownCommand h payload) rfl can short read ?_
      ((reloaded_atCommand s).settled ready) rfl rfl rfl idle due
    rw [unknown]
    rfl
  · refine answersBad_reading (c := .readEntry h role i) (payload := [0x02, role, i]) rfl can (by simp) rfl ?_
    rw [decode_readEntry, if_pos (show [role, i].length = 2 from rfl)]
    change decodedOf ((roleOf role).map _) = _
    rw [roleOf_none high]
    rfl
  · refine answersBad_reading (c := .readWindow h role w) (payload := [0x03, role, w]) rfl can (by simp) rfl ?_
    rw [decode_readWindow, if_pos (show [role, w].length = 2 from rfl)]
    change decodedOf ((roleOf role).bind fun r => (windowOf w).map fun w => .readWindow r w) = _
    rcases high with high | high
    · rw [roleOf_none high]
      rfl
    · rw [windowOf_none high]
      cases roleOf role <;> rfl
  · exact answersBad_reading (c := .readStreamStatus h l) (payload := 0x04 :: l) rfl can (by simp; omega) rfl
      (decode_streamCount wrong)
  · refine answersBad_reading (c := .probe h port src dst cls priv opts limit)
      (payload := probePayload port src dst cls priv opts limit) rfl can (by simp [probePayload, be16]) rfl ?_
    change decodeCommand (0x05 :: (probePayload port src dst cls priv opts limit).tail) = _
    rw [decode_probe, decodeProbe_none wrong]
    split <;> rfl

/-- WRITE class commands. -/
theorem writesAnsweredBad (can : CanWrite h b rest s) :
    (∀ i e, entryAllowed (bytesOf 22 e) = false →
      AnswersOnly (.writeEntry h i e) h b rest 0x07 .badArgument s) ∧
    (∀ w r, 31 < w.toNat ∨ decodeWindow (bytesOf 10 r) = none →
      AnswersOnly (.writeWindow h w r) h b rest 0x09 .badArgument s) ∧
    (∀ low high, high.toNat < low.toNat →
      AnswersOnly (.clearStreamCounters h low high) h b rest 0x12 .badArgument s) ∧
    (∀ m, m = 0 ∨ 8 < m.toNat → AnswersOnly (.drainExceptions h m) h b rest 0x13 .badArgument s) ∧
    (∀ scope i, 1 < scope.toNat → AnswersOnly (.flushHold h scope i) h b rest 0x15 .badArgument s) := by
  refine ⟨fun i e wrong => ?_, fun w r wrong => ?_, fun low high wrong => ?_, fun m wrong => ?_,
    fun scope i wrong => ?_⟩
  · refine answersBad_writing (c := .writeEntry h i e) (payload := 0x07 :: i :: bytesOf 22 e) rfl can
      (by simp [bytesOf_length]) rfl ?_
    rw [decode_writeEntry, if_pos (by simp [bytesOf_length])]
    change decodedOf (if entryAllowed (bytesOf 22 e) then _ else none) = _
    rw [wrong]
    rfl
  · refine answersBad_writing (c := .writeWindow h w r) (payload := 0x09 :: w :: bytesOf 10 r) rfl can
      (by simp [bytesOf_length]) rfl ?_
    rw [decode_writeWindow, if_pos (by simp [bytesOf_length])]
    change decodedOf ((windowOf w).bind fun w => (decodeWindow (bytesOf 10 r)).map fun r => .writeWindow w r) = _
    rcases wrong with high | none
    · rw [windowOf_none high]
      rfl
    · rw [none]
      cases windowOf w <;> rfl
  · refine answersBad_writing (c := .clearStreamCounters h low high) (payload := [0x12, low, high]) rfl can
      (by simp) rfl ?_
    rw [decode_clearCounters, if_pos (show [low, high].length = 2 from rfl)]
    change decodedOf (if low.toNat ≤ high.toNat then _ else none) = _
    rw [if_neg (Nat.not_le.2 wrong)]
    rfl
  · refine answersBad_writing (c := .drainExceptions h m) (payload := [0x13, m]) rfl can (by simp) rfl ?_
    rw [decode_drain, if_pos (show [m].length = 1 from rfl)]
    change decodedOf (if 1 ≤ m.toNat ∧ m.toNat ≤ 8 then _ else none) = _
    rw [if_neg]
    · rfl
    · rintro ⟨least, most⟩
      rcases wrong with rfl | high
      · exact absurd least (by decide)
      · omega
  · refine answersBad_writing (c := .flushHold h scope i) (payload := [0x15, scope, i]) rfl can (by simp) rfl ?_
    have all : scope ≠ 0 := byte_ne 0 (by omega)
    have one : scope ≠ 1 := byte_ne 1 wrong
    rw [decode_flushHold, if_pos (show [scope, i].length = 2 from rfl)]
    change decodedOf (if scope = 0 then _ else if scope = 1 then _ else none) = _
    rw [if_neg all, if_neg one]
    rfl

end

/-- Settles O37: the records' ranges, the payloads of the Agent, and the commands. -/
theorem badCommandsAreAnswered : Obligations.BadCommandsAreAnswered := by
  refine ⟨entryAllowed_iff, decodeWindow_iff, fun code args b s payload wrong privileged => ?_, rfl,
    fun h b rest s => ⟨readsAnsweredBad, fun can => ?_⟩⟩
  · have passed : decodeCommand (code :: args) = .bad ∧ code.toNat ≤ 0x16 := by
      rcases wrong with ⟨n, listed, length⟩ | ⟨rfl, count⟩ | ⟨rfl, set, more, rfl, out⟩ | ⟨rfl, action, rfl, out⟩
      · exact ⟨decode_length listed length, listed_codes _ listed⟩
      · exact ⟨decode_streamCount count, by decide⟩
      · exact ⟨decode_settingCode out, by decide⟩
      · exact ⟨decode_action out, by decide⟩
    exact startCommand_bad payload passed.1 passed.2 privileged
  · obtain ⟨entry, window, counters, drain, flush⟩ := writesAnsweredBad can
    refine ⟨entry, window, fun day minute wrong => ?_, fun day wd hr mn sec wrong => ?_, counters, drain, flush,
      fun present v absent c listed => ?_, fun present v high => ?_⟩
    · by_cases small : minute.toNat < 1440
      · exact schedule_passed can small (wrong.resolve_left (by omega))
      · exact answersBad_writing (c := .scheduleCommit h day minute) (payload := 0x0D :: be16 day ++ be16 minute) rfl
          can (by simp [be16]) rfl (decode_schedule_minute (by omega))
    · exact answersBad_writing (c := .setTime h day wd hr mn sec) (payload := 0x0F :: be16 day ++ [wd, hr, mn, sec])
        rfl can (by simp [be16]) rfl (decodeSetTime_none wrong)
    · simp only [List.mem_cons, List.not_mem_nil, or_false] at listed
      rcases listed with rfl | rfl | rfl | rfl | rfl | rfl | rfl | rfl | rfl | rfl | rfl | rfl | rfl | rfl | rfl
      · exact presence_bad 1 rfl can (.inl ⟨absent, by decide⟩)
      · exact presence_bad 2 rfl can (.inl ⟨absent, by decide⟩)
      · exact presence_bad 3 rfl can (.inl ⟨absent, by decide⟩)
      · exact presence_bad 4 rfl can (.inl ⟨absent, by decide⟩)
      · exact presence_bad 5 rfl can (.inl ⟨absent, by decide⟩)
      · exact presence_bad 6 rfl can (.inl ⟨absent, by decide⟩)
      · exact presence_bad 7 rfl can (.inl ⟨absent, by decide⟩)
      · exact presence_bad 8 rfl can (.inl ⟨absent, by decide⟩)
      · exact presence_bad 9 rfl can (.inl ⟨absent, by decide⟩)
      · exact presence_bad 10 rfl can (.inl ⟨absent, by decide⟩)
      · exact presence_bad 11 rfl can (.inl ⟨absent, by decide⟩)
      · exact presence_bad 12 rfl can (.inl ⟨absent, by decide⟩)
      · exact presence_bad 13 rfl can (.inl ⟨absent, by decide⟩)
      · exact presence_bad 15 rfl can (.inl ⟨absent, by decide⟩)
      · exact presence_bad 16 rfl can (.inl ⟨absent, by decide⟩)
    · exact presence_bad (c := .reportAddress h present v) 14 rfl can (.inr high)

end Sys2Proof.Machine
end

section
/-! SUPPORT. COMMIT_NOW: the swap at the command, its answer, and the requests that follow (R113, R115, R146, R149). -/

namespace Sys2Proof.Machine

/-- The state with another pool, other Receive and Transmit Units and another Exception Unit. -/
def carrying (pool : Pool) (rx : PerPort RxUnit) (tx : PerPort TxUnit) (exc : ExceptionUnit) (s : State) : State :=
  { s with pool := pool, rx := rx, tx := tx, exc := exc }

section
variable (pool : Pool) (rx : PerPort RxUnit) (tx : PerPort TxUnit) (exc : ExceptionUnit) (s : State)

theorem requestStaled_carrying (p : Port) : RequestStaled p (carrying pool rx tx exc s) =
    carrying pool rx tx exc (RequestStaled p s) := by
  have same : (carrying pool rx tx exc s).hold.outstanding.get p = s.hold.outstanding.get p := rfl
  unfold RequestStaled
  rw [same]
  cases s.hold.outstanding.get p with
  | none => rfl
  | some q =>
    have slot : (carrying pool rx tx exc s).judges = s.judges := rfl
    unfold Withdrawn
    dsimp only
    rw [slot]
    split <;> rfl

theorem commitMarked_carrying : CommitMarked (carrying pool rx tx exc s) =
    carrying pool rx tx exc (CommitMarked s) := by
  unfold CommitMarked
  rw [← requestStaled_carrying, ← requestStaled_carrying]
  rfl

end

/-- What follows at once leaves the pool and the ports. -/
theorem FollowsOnly.ports {x t : State} (h : FollowsOnly x t) : t.pool = x.pool ∧ t.rx = x.rx ∧ t.tx = x.tx := by
  obtain ⟨⟨-, requests⟩, -⟩ := h
  have written : (WrittenAtGrant x).pool = x.pool ∧ (WrittenAtGrant x).rx = x.rx ∧ (WrittenAtGrant x).tx = x.tx := by
    unfold WrittenAtGrant
    split <;> exact ⟨rfl, rfl, rfl⟩
  unfold WithRequests at requests
  split at requests
  · obtain ⟨pool, rx, tx⟩ := written
    rw [requests]
    exact ⟨pool, rx, tx⟩
  · rw [requests]
    exact ⟨rfl, rfl, rfl⟩

/-- The Exception Unit after COMMIT_DONE is told and no Report is sent (R170, R176). -/
def commitTold (s : State) : ExceptionUnit :=
  { s.exc with
    flags := s.exc.flags ||| 0x20
    alertLow := if s.exc.flags.getLsbD 5 then s.exc.alertLow
      else ((s.exc.flags ||| 0x20) &&& s.agent.settings.pinEnables) != 0 }

theorem tell_commitDone {s : State} (quiet : s.exc.flags.getLsbD 5 = true ∨
    s.agent.settings.reportEnables.getLsbD 5 = false ∨ s.agent.settings.reportAddress = none) :
    tell .commitDone s = { s with exc := commitTold s } := by
  unfold commitTold
  cases clear : s.exc.flags.getLsbD 5 with
  | true =>
    have same : s.exc.flags ||| 0x20 = s.exc.flags := by
      refine BitVec.eq_of_getLsbD_eq fun k small => ?_
      rw [BitVec.getLsbD_or]
      by_cases five : k = 5
      · rw [five, clear]
        rfl
      · have off : (0x20 : Byte).getLsbD k = false := by
          interval_cases k <;> simp_all
        rw [off, Bool.or_false]
    rw [tell_set (f := .commitDone) clear, same]
    rfl
  | false =>
    rw [tell_clear (f := .commitDone) clear, sendReport_unwanted (f := .commitDone) (s := risen .commitDone s)
      (quiet.resolve_left (by rw [clear]; decide))]
    rfl

/-- The banks swapped where COMMIT_DONE sends no Report. -/
def swappedQuietly (s : State) : State := CommitMarked { swapping s with exc := commitTold s }

theorem RequestStaled_frame (p : Port) (s : State) : RequestStaled p s =
    { s with judges := (RequestStaled p s).judges, hold := (RequestStaled p s).hold } := by
  unfold RequestStaled Withdrawn
  split
  · rfl
  · split <;> rfl

theorem CommitMarked_frame (s : State) : CommitMarked s =
    { s with judges := (CommitMarked s).judges, hold := (CommitMarked s).hold } := by
  unfold CommitMarked
  rw [RequestStaled_frame .f, RequestStaled_frame .n]

theorem swapBanks_quiet {s : State} (quiet : s.exc.flags.getLsbD 5 = true ∨
    s.agent.settings.reportEnables.getLsbD 5 = false ∨ s.agent.settings.reportAddress = none) :
    swapBanks s = swappedQuietly s := by
  have marked := CommitMarked_frame (swapping s)
  have commutes := commitMarked_carrying s.pool s.rx s.tx (commitTold s) (swapping s)
  rw [marked] at commutes
  have told := tell_commitDone (s := CommitMarked (swapping s)) (by rw [marked]; exact quiet)
  rw [swapBanks_eq, told, marked]
  exact commutes.symm

section
variable {h : CmdHead} {b : BufId} {rest : List BufId} {payload : List Byte} {s x : State}

theorem swapBanks_atReceived (quiet : x.exc.flags.getLsbD 5 = true ∨
    x.agent.settings.reportEnables.getLsbD 5 = false ∨ x.agent.settings.reportAddress = none) :
    swapBanks (atReceived h b rest payload s x) = atReceived h b rest payload s (swappedQuietly x) := by
  have swapped := swapBanks_quiet (s := atReceived h b rest payload s x) quiet
  have marked := CommitMarked_frame { swapping x with exc := commitTold x }
  have commutes := commitMarked_carrying (received h b rest payload s).pool (received h b rest payload s).rx x.tx
    (commitTold x) { swapping x with exc := commitTold x }
  rw [swapped]
  refine commutes.trans ?_
  rw [marked]
  unfold swappedQuietly
  rw [marked]
  rfl

end

/-- Settles O45: the swap in the command's state, its answer, and then only requests. -/
theorem commitNowSwapsTheBanks : Obligations.CommitNowSwapsTheBanks := by
  rintro h b rest s ⟨ready, privileged, room⟩ quiet bank rfl
  have sent := sendCommand_writes (payload := [0x0C]) ready privileged (by simp) rfl rfl
  obtain ⟨-, -, -, -, -, -, idle, -, due, -⟩ := id ready
  have settled : Settled (atReceived h b rest [0x0C] s (Reloaded s)) := (reloaded_atCommand s).settled ready
  have swapped := swapBanks_atReceived (h := h) (b := b) (rest := rest) (payload := [0x0C]) (s := s)
    (x := Reloaded s) quiet
  have requests := swapBanks_onlyRequests settled
  rw [swapped] at requests
  have marked : swappedQuietly (Reloaded s) = { swapping (Reloaded s) with
      judges := (swappedQuietly (Reloaded s)).judges
      hold := (swappedQuietly (Reloaded s)).hold
      exc := commitTold (Reloaded s) } := CommitMarked_frame { swapping (Reloaded s) with exc := commitTold (Reloaded s) }
  have tx : (swappedQuietly (Reloaded s)).tx = s.tx := by rw [marked]; rfl
  have own : (swappedQuietly (Reloaded s)).ownAddr = s.ownAddr := by rw [marked]; rfl
  have idle' : (swappedQuietly (Reloaded s)).agent.exec = none := by rw [marked]; exact idle
  have commit : (swappedQuietly (Reloaded s)).commit = ⟨.idle, s.commit.count + 1⟩ := by rw [marked]; rfl
  have active : (swappedQuietly (Reloaded s)).store.active = otherBank s.store.active := by rw [marked]; rfl
  have due' : ∀ i, (swappedQuietly (Reloaded s)).commit.phase ≠ .due i := by rw [commit]; exact fun _ => nofun
  have carried : carryOut b s.lapsed .commitNow (atReceived h b rest [0x0C] s (Reloaded s)) =
      complete b .done ([bankCode (otherBank s.store.active)] ++ be16 (s.commit.count + 1) ++
        instantResult s.commit.phase.instant) (atReceived h b rest [0x0C] s (swappedQuietly (Reloaded s))) := by
    change carryCommitNow b _ = _
    unfold carryCommitNow
    dsimp only
    rw [swapped]
    change complete b .done ([bankCode (swappedQuietly (Reloaded s)).store.active] ++
      be16 (swappedQuietly (Reloaded s)).commit.count ++ instantResult s.commit.phase.instant) _ = _
    rw [active, commit]
  have results : instantResult s.commit.phase.instant = (match s.commit.phase with
      | .scheduled i => 1 :: be16 i.day ++ be16 (BitVec.ofNat 16 i.minute.val)
      | _ => [0, 0, 0, 0, 0]) := by
    cases phase : s.commit.phase with
    | idle => rfl
    | scheduled i => rfl
    | due i => exact absurd phase (due i)
  have sent : sendCommand h [0x0C] s = settleFor 1022 (complete b .done _ _) := sent.trans (congrArg _ carried)
  generalize hres : [bankCode (otherBank s.store.active)] ++ be16 (s.commit.count + 1) ++
    instantResult s.commit.phase.instant = res at sent
  obtain ⟨z, hz⟩ : ∃ z, z = complete b .done res (atReceived h b rest [0x0C] s (swappedQuietly (Reloaded s))) :=
    ⟨_, rfl⟩
  obtain ⟨arrived, answered, free, same⟩ := complete_answers (rest := rest) (payload := [0x0C])
    (x := swappedQuietly (Reloaded s)) .done res room (by simp) tx own idle' due' z hz
  have follows : OnlyRequests z := by
    rw [hz, complete_respond (y := atReceived h b rest [0x0C] s (swappedQuietly (Reloaded s))) idle' due']
    exact requests.out (respond_out _ _ _ _) (respond_uptimes _ _ _ _)
  rw [← hz] at sent
  have left := settleFor_follows 1022 follows ((work_le z).trans (by decide))
  generalize settleFor 1022 z = t at sent left
  obtain ⟨pool, rx, tx'⟩ := left.ports
  have buffers (c : BufId) : t.buffer c = z.buffer c := by rw [State.buffer, State.buffer, pool]
  refine ⟨t, congrArg Host.Outcome.next sent, ?_, ?_, by rw [pool]; exact free, ?_⟩
  · unfold Received at arrived ⊢
    rw [rx]
    exact arrived
  · obtain ⟨bytes, line, others, list⟩ := answered
    rw [← hres, results] at bytes
    refine ⟨?_, ?_, fun c hc => (buffers c).trans (others c hc), ?_⟩
    · rw [buffers]
      exact bytes
    · rw [buffers]
      exact line
    · rw [tx', list, show t.buffer = z.buffer from funext buffers]
  · have argument : z = CommitMarked (carrying z.pool z.rx z.tx (commitTold (Reloaded s)) (swapping (Reloaded s))) := by
      rw [commitMarked_carrying]
      refine same.trans ?_
      have commutes := commitMarked_carrying s.pool s.rx s.tx (commitTold (Reloaded s)) (swapping (Reloaded s))
      have swapping_marked := CommitMarked_frame (swapping (Reloaded s))
      change swappedQuietly (Reloaded s) = _ at commutes
      rw [commutes, swapping_marked]
      rfl
    rw [argument] at left
    rw [pool, rx, tx']
    exact left

end Sys2Proof.Machine
end

section
/-! SUPPORT. A completion: its response taken or lost, the swap that was due, and the command that follows (R13, R148,
R149, R152, R156, R157). -/

namespace Sys2Proof.Machine

/-! ### The response -/

section
variable (b : BufId) (status : Status) (results : List Byte) (s : State)

theorem writeResponse_same : (writeResponse b status results s).tx = s.tx ∧
    (writeResponse b status results s).ownAddr = s.ownAddr ∧
    ((writeResponse b status results s).buffer b).desc.port = (s.buffer b).desc.port := by
  refine ⟨rfl, rfl, ?_⟩
  rw [writeResponse, setBuffer_buffer_same]

theorem respond_taken (room : (s.tx.get (s.buffer b).desc.port).normal.length < 16) :
    respond b status results s = { writeResponse b status results s with
      tx := s.tx.set (s.buffer b).desc.port (startTx (writeResponse b status results s).buffer
        (listAdd (s.tx.get (s.buffer b).desc.port) .normal b)) } := by
  obtain ⟨tx, -, port⟩ := writeResponse_same b status results s
  unfold respond offerResponse txAppend
  rw [port, tx, if_pos (show listRoom _ .normal = true from decide_eq_true room)]
  rfl

theorem respond_lost (full : 16 ≤ (s.tx.get (s.buffer b).desc.port).normal.length) :
    respond b status results s = handOver
      ⟨.txFull, (s.buffer b).desc.port, some s.ownAddr, some (sourceOf (s.buffer b).bytes), some 15, none⟩
      (release b (writeResponse b status results s)) := by
  obtain ⟨tx, own, port⟩ := writeResponse_same b status results s
  unfold respond offerResponse txAppend
  rw [port, tx, if_neg (show ¬listRoom _ .normal = true from by simpa [listRoom] using full)]
  dsimp only
  rw [own]
  rfl

end

/-! ### The swap at a completion -/

theorem swapping_out {s t : State} (out : SameButOut s t) : swapping t = { t with
    store := { s.store with active := otherBank s.store.active }
    commit := ⟨.idle, s.commit.count + 1⟩
    policer := { s.policer with streams := Vector.ofFn fun i : Fin 256 =>
      ⟨if (s.param (otherBank s.store.active) i).usable then (s.param (otherBank s.store.active) i).ceiling else 0,
        0, 0, 0⟩ } } := by
  unfold swapping State.param
  rw [out.store, out.commit, out.policer]

theorem complete_undue (b : BufId) (status : Status) (results : List Byte) {s : State}
    (due : ∀ i, s.commit.phase ≠ .due i) :
    complete b status results s = respond b status results { s with agent := { s.agent with exec := none } } := by
  have commit := (respond_out b status results (endExecution s)).commit
  unfold complete swapIfDue
  rw [commit]
  change (match s.commit.phase with
    | .due _ => _
    | .idle => _
    | .scheduled _ => _) = _
  cases phase : s.commit.phase with
  | idle => rfl
  | scheduled i => rfl
  | due i => exact absurd phase (due i)

theorem complete_due (b : BufId) (status : Status) (results : List Byte) {s : State} {i : Instant}
    (due : s.commit.phase = .due i) : complete b status results s =
      swapBanks (respond b status results { s with agent := { s.agent with exec := none } }) := by
  have commit := (respond_out b status results (endExecution s)).commit
  unfold complete swapIfDue
  rw [commit]
  change (match s.commit.phase with
    | .due _ => _
    | .idle => _
    | .scheduled _ => _) = _
  rw [due]
  rfl

/-! ### The command that follows -/

theorem RequestStaled_idle {p : Port} {s : State} (idle : (s.judges.get p).slot = none) :
    (RequestStaled p s).judges = s.judges ∧ (RequestStaled p s).hold.records = s.hold.records := by
  unfold RequestStaled Withdrawn
  split
  · exact ⟨rfl, rfl⟩
  · rw [if_neg (by rw [idle]; exact nofun)]
    exact ⟨rfl, rfl⟩

theorem CommitMarked_idle {s : State} (idle : ∀ p, (s.judges.get p).slot = none) :
    (CommitMarked s).judges = s.judges ∧
      (CommitMarked s).hold.records = s.hold.records.map fun r => { r with pending := true } := by
  unfold CommitMarked
  obtain ⟨judges, records⟩ := RequestStaled_idle (p := .n)
    (s := { s with hold := { s.hold with records := s.hold.records.map fun r => { r with pending := true } } })
    (idle .n)
  generalize RequestStaled .n { s with hold := { s.hold with
    records := s.hold.records.map fun r => { r with pending := true } } } = y at *
  obtain ⟨judges', records'⟩ := RequestStaled_idle (p := .f) (s := y) (by rw [judges]; exact idle .f)
  exact ⟨judges'.trans judges, records'.trans records⟩

/-- What a completion leaves to the blocks that nothing waits at. -/
theorem complete_quiet (b : BufId) (status : Status) (results : List Byte) {s : State}
    (idle : s.judges = ⟨⟨[], none, none, .idle⟩, ⟨[], none, none, .idle⟩⟩) (records : s.hold.records = []) :
    (complete b status results s).judges = s.judges ∧ (complete b status results s).hold.records = [] ∧
      (complete b status results s).agent = { s.agent with exec := none } ∧
      (complete b status results s).store.port = s.store.port ∧
      (complete b status results s).store.phase = s.store.phase := by
  have out := respond_out b status results { s with agent := { s.agent with exec := none } }
  by_cases due : ∀ i, s.commit.phase ≠ .due i
  · rw [complete_undue b status results due, out.judges, out.hold, out.agent, out.store]
    exact ⟨rfl, records, rfl, rfl, rfl⟩
  · obtain ⟨i, due⟩ := not_forall_not.1 due
    rw [complete_due b status results due, swapBanks_eq]
    generalize respond b status results { s with agent := { s.agent with exec := none } } = y at *
    have told := tell_out .commitDone (CommitMarked (swapping y))
    obtain ⟨judges, marked⟩ := CommitMarked_idle (s := swapping y) fun p => by
      rw [show (swapping y).judges = s.judges from out.judges, idle]
      cases p <;> rfl
    rw [told.judges, told.hold, told.agent, told.store, judges, marked,
      show (swapping y).hold = s.hold from out.hold, records, CommitMarked_frame]
    refine ⟨out.judges, rfl, out.agent, ?_, ?_⟩
    · change y.store.port = s.store.port
      rw [out.store]
    · change y.store.phase = s.store.phase
      rw [out.store]

/-- With no Judge in action, no held record and the port not free, a command that waits is what follows. -/
theorem consequence_commandWaits {s : State} {c : BufId} {l : List BufId}
    (idle : s.judges = ⟨⟨[], none, none, .idle⟩, ⟨[], none, none, .idle⟩⟩) (records : s.hold.records = [])
    (held : s.store.port = .closing) (exec : s.agent.exec = none) (inbox : s.agent.inbox = c :: l)
    (ready : s.store.phase = .ready) :
    consequence s = some (startCommand c { s with agent := { s.agent with inbox := l } }) := by
  have judge (p : Port) : s.judges.get p = ⟨[], none, none, .idle⟩ := by rw [idle]; cases p <;> rfl
  have quiet : GrantsAndCommands s := by
    refine ⟨fun p => ?_, fun p => ?_, fun p => ?_, fun p => ?_⟩
    · unfold endReached
      rw [judge]
    · rw [placeRequest_none_iff]
      right
      unfold nextPending
      rw [records]
      rfl
    · unfold takeSlot
      rw [judge]
    · unfold takeArrival
      rw [judge]
  refine quiet.consequence_command ((grant_none_iff s).2 fun _ free => ?_) ?_
  · rw [held] at free
    cases free
  · unfold beginCommand
    rw [exec, inbox, ready]
    rfl

/-- Settles O36: the response, the swap that was due, and the next command. -/
theorem fullListLosesTheResponse : Obligations.FullListLosesTheResponse := by
  rintro b status results s p l rfl rfl x rfl
  refine ⟨respond_taken b status results s, respond_lost b status results s, ?_, fun blocked => ?_,
    fun c l exec inbox ready => ?_, fun a i e c l port busy inbox ready idle records => ?_⟩
  · rintro y rfl
    refine ⟨complete_undue b status results, ?_⟩
    rintro i due bank rfl
    rw [complete_due b status results due, swapBanks_eq, swapping_out (respond_out b status results _)]
    rfl
  · unfold beginCommand
    split
    next exec inbox ready =>
      rcases blocked with busy | empty | sweeping
      · exact absurd exec busy
      · rw [inbox] at empty
        cases empty
      · exact absurd ready sweeping
    next => rfl
  · unfold beginCommand
    rw [exec, inbox, ready]
    rfl
  · rintro y rfl
    obtain ⟨judges, none, agent, held, phase⟩ := complete_quiet b .done [byteOf i.val, bankCode (otherBank a)]
      (s := concludeAccess s) idle records
    have concluded : exec .managementAccess s =
        .next (settle (complete b .done [byteOf i.val, bankCode (otherBank a)] (concludeAccess s))) := by
      change Host.Outcome.next (managementAccessNow s) = _
      unfold managementAccessNow
      rw [port, busy]
      rfl
    rw [concluded]
    change Host.Outcome.next (settleFor (1023 + 1) _) = _
    rw [settleFor_succ _ (consequence_commandWaits (judges.trans idle) none held (by rw [agent])
      (by rw [agent]; exact inbox) (phase.trans ready))]
    rfl

end Sys2Proof.Machine
end

section
/-! SUPPORT. What a row's read gives, and commands that make accesses of the table one after another (R119 to R121,
R124). -/

namespace Sys2Proof.Machine

/-! ### A row's read by the row (R119 to R121) -/

section
variable {b : Bank} {i : Index} {s : State}

theorem readRowOf_clean (row : RowClean b i s) : readRowOf b i s = (some (s.store.row b i).entry, s) := by
  unfold readRowOf
  rw [if_neg (by rw [row.1]; decide), readRow_of_clean _ row.2]
  rfl

theorem readRowOf_correctable (row : RowCorrectable b i s) :
    readRowOf b i s = (some (s.store.row b i).entry, countCorrected 1 s) := by
  obtain ⟨sound, most, one⟩ := row
  unfold readRowOf
  rw [if_neg (by rw [sound]; decide), readRow_of_correctable _ most one]
  rfl

theorem readRowOf_poisoned (row : s.store.poisoned b i = true) : readRowOf b i s = (none, s) := if_pos row

theorem satAdd_half (x : BitVec 16) : satAdd x = if x = 65535 then 65535 else x + 1 := by
  unfold satAdd
  by_cases full : x = 65535
  · subst full
    rfl
  · rw [if_neg (show x ≠ BitVec.allOnes 16 from full), if_neg full]

theorem joinPoison_eq (b : Bank) (i : Index) (s : State) : joinPoison b i s = Poisoned b i s := by
  unfold joinPoison reportPoison Poisoned
  rw [satAdd_half]
  by_cases active : b = s.store.active
  · rw [if_pos active]
    exact if_pos active
  · rw [if_neg active]
    exact if_neg active

theorem readRowOf_uncorrectable (row : RowUncorrectable b i s) :
    readRowOf b i s = (none, tell .tableFault (Poisoned b i s)) := by
  unfold readRowOf
  rw [if_neg (by rw [row.1]; decide), readRow_of_uncorrectable _ row.2, ← joinPoison_eq]
  rfl

end

/-! ### A flag that sends no Report (R170, R176) -/

/-- The Exception Unit after a flag is told and no Report is sent. -/
def toldExc (f : Flag) (s : State) : ExceptionUnit :=
  if s.exc.flags.getLsbD f.bit then s.exc
  else { s.exc with
    flags := s.exc.flags ||| f.mask
    alertLow := ((s.exc.flags ||| f.mask) &&& s.agent.settings.pinEnables) != 0#8 }

theorem tell_quiet {f : Flag} {s : State} (quiet : SendsNoReport f s) : tell f s = { s with exc := toldExc f s } := by
  unfold toldExc
  cases clear : s.exc.flags.getLsbD f.bit with
  | true => exact tell_set clear
  | false =>
    rw [tell_clear clear]
    exact sendReport_unwanted (s := risen f s) (quiet.resolve_left (by rw [clear]; decide))

/-! ### What the accesses of a command leave -/

/-- What a command that makes accesses leaves to the blocks that could make something follow. -/
structure Untouched (s x : State) : Prop where
  phase : x.store.phase = s.store.phase
  port : x.store.port = s.store.port
  scrub : x.store.scrubRequest = s.store.scrubRequest
  request : x.store.agentRequest = s.store.agentRequest
  judges : x.judges = s.judges
  records : x.hold.records = s.hold.records
  outstanding : x.hold.outstanding = s.hold.outstanding
  exec : x.agent.exec = s.agent.exec
  inbox : x.agent.inbox = s.agent.inbox
  tx : x.tx = s.tx
  ownAddr : x.ownAddr = s.ownAddr
  commit : x.commit = s.commit

theorem Untouched.refl (s : State) : Untouched s s := by constructor <;> rfl

theorem Untouched.trans {s x y : State} (a : Untouched s x) (b : Untouched x y) : Untouched s y where
  phase := b.phase.trans a.phase
  port := b.port.trans a.port
  scrub := b.scrub.trans a.scrub
  request := b.request.trans a.request
  judges := b.judges.trans a.judges
  records := b.records.trans a.records
  outstanding := b.outstanding.trans a.outstanding
  exec := b.exec.trans a.exec
  inbox := b.inbox.trans a.inbox
  tx := b.tx.trans a.tx
  ownAddr := b.ownAddr.trans a.ownAddr
  commit := b.commit.trans a.commit

theorem waitingJudge_none_iff (s : State) : waitingJudge s = none ↔ ∀ p, s.judgeWaiting p = false := by
  have both : (∀ p, s.judgeWaiting p = false) ↔ s.judgeWaiting .n = false ∧ s.judgeWaiting .f = false :=
    ⟨fun h => ⟨h .n, h .f⟩, fun h p => by cases p <;> simp [h]⟩
  rw [both]
  unfold waitingJudge
  cases s.judgeWaiting .n <;> cases s.judgeWaiting .f <;> simp

/-- A port at rest stays at rest whatever the rows, the records of the Policer and the windows are. -/
theorem PortAtRest.untouched {s x : State} (rest : PortAtRest s) (same : Untouched s x) (pool : x.pool = s.pool) :
    PortAtRest x := by
  obtain ⟨ready, free, settled⟩ := id rest
  obtain ⟨scrub, request, judge⟩ := rest.quiet
  refine ⟨same.phase.trans ready, same.port.trans free, ?_⟩
  have waits (p : Port) (d : Uptime) (w : someWaiting p d s = true) : someWaiting p d x = true := by
    rw [someWaiting_congr p d same.judges fun c _ => by rw [State.buffer, State.buffer, pool]]
    exact w
  have waiting : waitingJudge x = none := by
    rw [waitingJudge_none_iff] at judge ⊢
    intro p
    unfold State.judgeWaiting
    rw [same.judges]
    exact judge p
  refine GrantsAndCommands.settled ⟨fun p => ?_, fun p => ?_, fun p => ?_, fun p => ?_⟩ ?_ ?_ ?_
  · exact endReached_none_congr p (by rw [same.judges]) (waits p) (settled.endReached p)
  · exact placeRequest_none_congr p same.records same.outstanding (settled.placeRequest p)
  · exact takeSlot_none_congr p (by rw [same.judges]) (by rw [same.judges]) (settled.takeSlot p)
  · exact takeArrival_none_congr p (by rw [same.judges]) (settled.takeArrival p)
  · refine (grant_none_iff _).2 fun _ _ => (arbiterChoice_none_iff x).2 ⟨?_, ?_, waiting⟩
    · exact same.scrub.trans scrub
    · exact same.request.trans request
  · exact beginCommand_none_congr same.exec same.inbox same.phase settled.beginCommand
  · unfold openPort
    rw [same.port, free]

/-! ### Accesses one after another (R124) -/

/-- The accesses of the command in the buffer `b`: from the state `x` at the grant of the access of the job, `n`
conclusions come to a completion in the state `z` with the status and the results given. -/
inductive Accesses (b : BufId) (status : Status) (results : List Byte) (z : State) : Nat → Job → State → Prop
  | last {job : Job} {x : State} (rest : PortAtRest z)
      (done : concludeJob b job x.store.active (closing b job (atAccess job x)) =
        complete b status results (closing b job z)) : Accesses b status results z 1 job x
  | next {n : Nat} {job after : Job} {x y : State} (rest : PortAtRest y)
      (done : concludeJob b job x.store.active (closing b job (atAccess job x)) = nextAccess b after (closing b job y))
      (more : Accesses b status results z n after y) : Accesses b status results z (n + 1) job x

/-- The accesses are granted and concluded, and the command completes at the last conclusion. -/
theorem Accesses.concluded {b : BufId} {status : Status} {results : List Byte} {z : State} {n : Nat} {job : Job}
    {x : State} (accesses : Accesses b status results z n job x) (idle : z.agent.exec = none)
    (inbox : z.agent.inbox = []) (due : ∀ i, z.commit.phase ≠ .due i) (own : ∀ p, b ∉ judgePlaces (z.judges.get p))
    (room : (z.tx.get (z.buffer b).desc.port).normal.length < 16) :
    ByAccesses n (granted b job x) (complete b status results z) := by
  induction accesses with
  | last rest done => exact ⟨_, access_concludes, by rw [done, settle_complete rest idle inbox due own room]; rfl⟩
  | next rest done more ih => exact ⟨_, access_concludes, by rw [done, settle_next rest]; exact ih⟩

section
variable {c : Instr} {h : CmdHead} {b : BufId} {rest : List BufId} {payload : List Byte} {s x y : State} {job : Job}
  {status : Status} {results : List Byte} {n : Nat}

/-- At rest after the command's arrival. -/
theorem Untouched.atRest (same : Untouched s x) (ready : CommandReady h b rest s) (free : s.store.port = .free) :
    PortAtRest (atReceived h b rest payload s x) := by
  have before := reload_atRest (payload := payload) ready free
  rw [reload_received] at before
  exact before.untouched (x := atReceived h b rest payload s x)
    ⟨same.phase, same.port, same.scrub, same.request, same.judges, same.records, same.outstanding, same.exec,
      same.inbox, same.tx, same.ownAddr, same.commit⟩ rfl

/-- A command of several accesses, by what its beginning and its conclusions do. -/
theorem completes_accesses (sent : exec c s = .next (sendCommand h payload s)) (ready : CommandReady h b rest s)
    (free : s.store.port = .free) (room : RoomToAnswer h s) (short : payload.length ≤ 200)
    (begins : startCommand b (received h b rest payload s) = beginJob b job (atReceived h b rest payload s y))
    (begun : Untouched s y) (same : Untouched s x)
    (accesses : Accesses b status results (atReceived h b rest payload s x) n job (atReceived h b rest payload s y)) :
    CompletesAfter n c h b rest (responseCode payload) status results s x := by
  obtain ⟨-, buffers, -, -, -, -, idle, inbox, due, placed, -⟩ := id ready
  have idle' : x.agent.exec = none := same.exec.trans idle
  have due' : ∀ i, x.commit.phase ≠ .due i := by rw [same.commit]; exact due
  obtain ⟨arrived, answered, left, whole⟩ := complete_answers (b := b) (rest := rest) (payload := payload) (x := x)
    status results room short same.tx same.ownAddr idle' due' _ rfl
  refine ⟨_, _, ?_, accesses.concluded idle' (same.inbox.trans inbox) due' ?_ ?_, arrived, answered, left, whole⟩
  · rw [sent, sendCommand_begins ready short begins (begun.atRest ready free)]
  · intro p held
    change b ∈ judgePlaces (x.judges.get p) at held
    rw [same.judges] at held
    exact free_not_judged placed (by rw [buffers]; exact List.mem_cons_self) p held
  · have buffer : (atReceived h b rest payload s x).buffer b =
        ⟨commandTelegram h s.ownAddr payload, arrivalDescriptor h.port (11 + payload.length) s⟩ :=
      received_buffer h b rest payload s
    rw [buffer]
    change (x.tx.get h.port).normal.length < 16
    rw [same.tx]
    exact room

/-- Without a request of the Agent's pending, an access in progress has the wait count cleared alone, but for what
WRITE_ENTRY writes (R126, R138). -/
theorem atAccess_reading (quiet : x.store.agentRequest = false) (reads : ∀ i e, job ≠ .writeEntry i e) :
    atAccess job x = { x with store := { x.store with waitCount := 0 } } := by
  have cleared : x.store.agentRequest = false := quiet
  unfold atAccess
  dsimp only
  rw [← cleared]
  split
  next i e => exact absurd rfl (reads i e)
  next => rfl

end

/-- How a command that begins an access of class READ begins. -/
theorem begins_reading {h : CmdHead} {b : BufId} {rest : List BufId} {payload : List Byte} {s x : State} {d : Cmd}
    {job : Job} (can : CanRead h b rest s) (short : payload.length ≤ 200) (read : isWrite payload = false)
    (decoded : decodeCommand payload = .command d)
    (carried : carryOut b s.lapsed d (atReceived h b rest payload s (Reloaded s)) =
      beginJob b job (atReceived h b rest payload s x)) :
    startCommand b (received h b rest payload s) = beginJob b job (atReceived h b rest payload s x) := by
  obtain ⟨-, privileged, -⟩ := can
  rw [startCommand_privileged (by rw [read]; exact privileged) short, decoded]
  exact carried

/-- How a command that begins an access of class WRITE begins. -/
theorem begins_writing {h : CmdHead} {b : BufId} {rest : List BufId} {payload : List Byte} {s x : State} {d : Cmd}
    {job : Job} (can : CanWrite h b rest s) (short : payload.length ≤ 200) (write : isWrite payload = true)
    (decoded : decodeCommand payload = .command d)
    (carried : carryOut b s.lapsed d (atReceived h b rest payload s (Reloaded s)) =
      beginJob b job (atReceived h b rest payload s x)) :
    startCommand b (received h b rest payload s) = beginJob b job (atReceived h b rest payload s x) := by
  obtain ⟨-, privileged, -⟩ := can
  rw [startCommand_privileged (by rw [write]; exact privileged) short, decoded]
  exact carried

end Sys2Proof.Machine
end

section
/-! SUPPORT. READ_ENTRY and READ_STREAM_STATUS by their accesses (R97, R119 to R121, R124, R158, R159, R180). -/

namespace Sys2Proof.Machine

/-! ### The entry record (R180) -/

theorem low_two_bits (x : BitVec 2) : (∀ k, 2 ≤ k → (x.setWidth 8).getLsbD k = false) ∧
    (x.setWidth 8).extractLsb' 0 2 = x := by
  refine ⟨fun k high => ?_, ?_⟩
  · rw [BitVec.getLsbD_setWidth, BitVec.getLsbD_of_ge _ _ high, Bool.and_false]
  · revert x
    decide

/-- The bytes of an entry record by their places. -/
theorem encodeEntry_fields (e : StreamEntry) (l : List Byte) (hl : l = encodeEntry e) : l.length = 22 ∧
    (∀ k < 8, (byteAt l 0).getLsbD k = ((k == 7 && e.valid) || (k == 6 && e.portN) || (k == 5 && e.portF) ||
      (k == 4 && e.broadcast) || (k == 3 && e.remap.isSome) || (k == 2 && e.urgent) || (k == 1 && e.stamp == .fill) ||
      (k == 0 && e.unsup == .block))) ∧
    (∀ k, 2 ≤ k → k < 8 →
      (byteAt l 1).getLsbD k = ((k == 7 && e.closed == .hold) || (k == 6 && e.overRate == .hold))) ∧
    (byteAt l 1).extractLsb' 0 2 = e.privLimit ∧ halfAt l 2 = e.srcLow ∧ halfAt l 4 = e.srcHigh ∧
    halfAt l 6 = e.classes ∧ halfAt l 8 = e.dstLow ∧ halfAt l 10 = e.dstHigh ∧
    (∀ base, e.remap = some base → halfAt l 12 = base) ∧ (e.remap = none → halfAt l 12 = 0) ∧
    wordAt l 14 = e.windows ∧ byteAt l 18 = e.ceiling ∧ byteAt l 19 = e.refill ∧ halfAt l 20 = e.holdLimit := by
  simp only [encodeEntry, be16, be32, List.cons_append, List.nil_append] at hl
  subst hl
  obtain ⟨high, low⟩ := low_two_bits e.privLimit
  refine ⟨rfl, fun k small => ?_, fun k least small => ?_, ?_, be16_join e.srcLow, be16_join e.srcHigh,
    be16_join e.classes, be16_join e.dstLow, be16_join e.dstHigh, fun base remap => ?_, fun remap => ?_,
    wordAt_join e.windows, rfl, rfl, be16_join e.holdLimit⟩
  · change (bitIn e.valid 7 ||| bitIn e.portN 6 ||| bitIn e.portF 5 ||| bitIn e.broadcast 4 |||
      bitIn e.remap.isSome 3 ||| bitIn e.urgent 2 ||| bitIn (e.stamp == .fill) 1 |||
      bitIn (e.unsup == .block) 0).getLsbD k = _
    simp only [BitVec.getLsbD_or, bitIn_bit _ small]
  · change (bitIn (e.closed == .hold) 7 ||| bitIn (e.overRate == .hold) 6 ||| e.privLimit.setWidth 8).getLsbD k = _
    simp only [BitVec.getLsbD_or, bitIn_bit _ small, high k least, Bool.or_false]
  · change (bitIn (e.closed == .hold) 7 ||| bitIn (e.overRate == .hold) 6 |||
      e.privLimit.setWidth 8).extractLsb' 0 2 = _
    rw [BitVec.extractLsb'_or, BitVec.extractLsb'_or, bitIn_low _ 7 (by decide), bitIn_low _ 6 (by decide), low]
    simp
  · refine (be16_join (e.remap.getD 0)).trans ?_
    rw [remap]
    rfl
  · refine (be16_join (e.remap.getD 0)).trans ?_
    rw [remap]
    rfl

/-! ### READ_ENTRY (R158) -/

theorem indexOf_ofNat (i : Index) : indexOf (BitVec.ofNat 8 i.val) = i := Fin.ext (byte_val i (by decide))

theorem decode_readEntry_ofNat (role : Bool) (i : Index) :
    decodeCommand [0x02, if role then 0 else 1, BitVec.ofNat 8 i.val] = .command (.readEntry role i) := by
  rw [decode_readEntry, if_pos (show [_, BitVec.ofNat 8 i.val].length = 2 from rfl)]
  change decodedOf ((roleOf (if role then 0 else 1)).map fun r => .readEntry r (indexOf (BitVec.ofNat 8 i.val))) = _
  rw [indexOf_ofNat]
  cases role <;> rfl

/-- The state of a gate from which the grant of an access has taken the wait count. -/
def counted (s : State) : State := { Reloaded s with store := { s.store with waitCount := 0 } }

section
variable {h : CmdHead} {b : BufId} {rest : List BufId} {s x : State}

/-- READ_ENTRY by what its row's read gives. -/
theorem reads_entry {role : Bool} {i : Index} {bank : Bank} {status : Status} {results : List Byte}
    (can : CanRead h b rest s) (free : s.store.port = .free)
    (hbank : bank = if role then s.store.active else otherBank s.store.active) (same : Untouched s x)
    (concludes : ∀ payload job, concludeReadEntry b bank i (closing b job (atReceived h b rest payload s (counted s))) =
      complete b status results (closing b job (atReceived h b rest payload s x))) :
    CompletesAfter 1 (.readEntry h (if role then 0 else 1) (BitVec.ofNat 8 i.val)) h b rest 0x02 status results s x := by
  obtain ⟨ready, -, room⟩ := id can
  have begun : Untouched s (Reloaded s) := by constructor <;> rfl
  have atRest := begun.atRest (payload := [0x02, if role then 0 else 1, BitVec.ofNat 8 i.val]) ready free
  refine completes_accesses (job := .readEntry role i) (payload := [0x02, if role then 0 else 1, BitVec.ofNat 8 i.val])
    rfl ready free room (by simp) (begins_reading can (by simp) rfl (decode_readEntry_ofNat role i) rfl) begun same
    (.last (same.atRest ready free) ?_)
  rw [atAccess_reading atRest.quiet.2.1 (by exact fun _ _ => nofun)]
  have named : roleBank s.store.active role = bank := by
    rw [hbank]
    cases role <;> rfl
  rw [← concludes, ← named]
  rfl

theorem satPlus_one (x : BitVec 16) : satPlus x 1 = if x = 65535 then 65535 else x + 1 := by
  refine BitVec.eq_of_toNat_eq ?_
  have small : x.toNat < 65536 := x.isLt
  unfold satPlus
  rw [BitVec.toNat_ofNat]
  by_cases full : x = 65535
  · subst full
    rfl
  · have below : x.toNat ≠ 65535 := fun e => full (BitVec.eq_of_toNat_eq e)
    rw [if_neg full, BitVec.toNat_add, show (1 : BitVec 16).toNat = 1 from rfl]
    omega

/-- An uncorrectable row found at an access, where no Report is sent. -/
theorem tell_poisoned_closing (payload : List Byte) (job : Job) (bank : Bank) (i : Index)
    (quiet : SendsNoReport .tableFault s) (store : TableStore) :
    tell .tableFault (Poisoned bank i
        (closing b job (atReceived h b rest payload s { Reloaded s with store := store }))) =
      closing b job (atReceived h b rest payload s
        (tell .tableFault (Poisoned bank i { Reloaded s with store := store }))) := by
  rw [tell_quiet (s := Poisoned bank i (closing b job (atReceived h b rest payload s { Reloaded s with store := store })))
    quiet, tell_quiet (s := Poisoned bank i { Reloaded s with store := store }) quiet]
  rfl

/-- The table at an uncorrectable row leaves what could make something follow. -/
theorem untouched_poisoned (bank : Bank) (i : Index) (quiet : SendsNoReport .tableFault s) :
    Untouched s (tell .tableFault (Poisoned bank i (counted s))) := by
  rw [tell_quiet (s := Poisoned bank i (counted s)) quiet]
  constructor <;> rfl

/-- READ_ENTRY by the state of the row. -/
theorem entry_read (can : CanRead h b rest s) (free : s.store.port = .free) (role : Bool) (i : Index) (bank : Bank)
    (hbank : bank = if role then s.store.active else otherBank s.store.active) :
    (RowClean bank i s → CompletesAfter 1 (.readEntry h (if role then 0 else 1) (BitVec.ofNat 8 i.val))
      h b rest 0x02 .done (bankCode bank :: encodeEntry (s.store.row bank i).entry) s (counted s)) ∧
    (RowCorrectable bank i s →
      CompletesAfter 1 (.readEntry h (if role then 0 else 1) (BitVec.ofNat 8 i.val))
        h b rest 0x02 .done (bankCode bank :: encodeEntry (s.store.row bank i).entry) s
        { counted s with store := { (counted s).store with corrected :=
          (if s.store.corrected = 65535 then 65535 else s.store.corrected + 1) } }) ∧
    (s.store.poisoned bank i = true →
      CompletesAfter 1 (.readEntry h (if role then 0 else 1) (BitVec.ofNat 8 i.val))
        h b rest 0x02 .poisoned [bankCode bank] s (counted s)) ∧
    (RowUncorrectable bank i s → SendsNoReport .tableFault s →
      CompletesAfter 1 (.readEntry h (if role then 0 else 1) (BitVec.ofNat 8 i.val))
        h b rest 0x02 .poisoned [bankCode bank] s (tell .tableFault (Poisoned bank i (counted s)))) := by
  refine ⟨fun row => ?_, fun row => ?_, fun row => ?_, fun row quiet => ?_⟩
  · refine reads_entry can free hbank (by constructor <;> rfl) fun payload job => ?_
    unfold concludeReadEntry
    rw [readRowOf_clean (s := closing b job (atReceived h b rest payload s (counted s))) row]
    rfl
  · refine reads_entry can free hbank (by constructor <;> rfl) fun payload job => ?_
    unfold concludeReadEntry
    rw [readRowOf_correctable (s := closing b job (atReceived h b rest payload s (counted s))) row, ← satPlus_one]
    rfl
  · refine reads_entry can free hbank (by constructor <;> rfl) fun payload job => ?_
    unfold concludeReadEntry
    rw [readRowOf_poisoned (s := closing b job (atReceived h b rest payload s (counted s))) row]
  · refine reads_entry can free hbank (untouched_poisoned bank i quiet) fun payload job => ?_
    unfold concludeReadEntry
    rw [readRowOf_uncorrectable (s := closing b job (atReceived h b rest payload s (counted s))) row]
    exact congrArg (complete b .poisoned [bankCode bank])
      (tell_poisoned_closing payload job bank i quiet { s.store with waitCount := 0 })

/-! ### READ_STREAM_STATUS (R97, R159) -/

theorem satPlus_add (x : BitVec 16) (m n : Nat) : satPlus (satPlus x m) n = satPlus x (m + n) := by
  refine BitVec.eq_of_toNat_eq ?_
  unfold satPlus
  simp only [BitVec.toNat_ofNat]
  omega

theorem satPlus_zero (x : BitVec 16) : satPlus x 0 = x := by
  refine BitVec.eq_of_toNat_eq ?_
  unfold satPlus
  rw [BitVec.toNat_ofNat]
  omega

/-- What READ_STREAM_STATUS returns of an index whose row is not found uncorrectable. -/
def statusOf (s : State) (i : Index) : List Byte :=
  [BitVec.ofNat 8 i.val, bankCode s.store.active] ++
    (if s.store.poisoned s.store.active i then [2, 0]
    else [if (s.store.row s.store.active i).entry.valid then 0 else 1, (s.store.row s.store.active i).entry.ceiling]) ++
    (s.stream i).credit :: be32 (s.stream i).passed ++ be32 (s.stream i).refused ++ be32 (s.stream i).held

/-- How many of the rows of some indexes are found correctable. -/
def correctables (s : State) (l : List Index) : Nat :=
  (l.filter fun i => decide (RowCorrectable s.store.active i s)).length

/-- The state with reads of so many correctable rows counted. -/
def withCorrected (n : Nat) (x : State) : State :=
  { x with store := { x.store with corrected := satPlus x.store.corrected n } }

theorem withCorrected_zero (x : State) : withCorrected 0 x = x := by
  unfold withCorrected
  rw [satPlus_zero]

theorem withCorrected_add (m n : Nat) (x : State) : withCorrected n (withCorrected m x) = withCorrected (m + n) x := by
  unfold withCorrected
  rw [← satPlus_add]

theorem correctables_none {s : State} {i : Index} (not : ¬RowCorrectable s.store.active i s) :
    correctables s [i] = 0 := by
  unfold correctables
  rw [List.filter_cons_of_neg (by rw [decide_eq_true_eq]; exact not)]
  rfl

theorem correctables_one {s : State} {i : Index} (row : RowCorrectable s.store.active i s) :
    correctables s [i] = 1 := by
  unfold correctables
  rw [List.filter_cons_of_pos (by rw [decide_eq_true_eq]; exact row)]
  rfl

theorem correctables_cons (s : State) (i : Index) (l : List Index) :
    correctables s (i :: l) = correctables s [i] + correctables s l := by
  unfold correctables
  rw [← List.length_append, ← List.filter_append]
  rfl

theorem streamResult_statusOf {s : State} {i : Index} (sound : s.store.poisoned s.store.active i = false) :
    streamResult s.store.active i (some (s.store.row s.store.active i).entry) (s.stream i) = statusOf s i := by
  unfold statusOf
  rw [sound]
  rfl

/-- One access of READ_STREAM_STATUS: what it adds to the results and to the count. -/
theorem readStream_row {s : State} {i : Index} (row : s.store.poisoned s.store.active i = true ∨
    RowClean s.store.active i s ∨ RowCorrectable s.store.active i s) :
    ∃ e, readRowOf s.store.active i s = (e, withCorrected (correctables s [i]) s) ∧
      streamResult s.store.active i e (s.stream i) = statusOf s i := by
  rcases row with poisoned | clean | correctable
  · refine ⟨none, ?_, ?_⟩
    · rw [readRowOf_poisoned poisoned, correctables_none fun row => absurd row.1 (by rw [poisoned]; decide),
        withCorrected_zero]
    · unfold statusOf
      rw [poisoned]
      rfl
  · refine ⟨_, ?_, streamResult_statusOf clean.1⟩
    rw [readRowOf_clean clean, correctables_none fun row => ?_, withCorrected_zero]
    obtain ⟨-, -, w, one⟩ := row
    unfold wordErrors at one
    rw [clean.2] at one
    exact Nat.zero_ne_one one
  · refine ⟨_, ?_, streamResult_statusOf correctable.1⟩
    rw [readRowOf_correctable correctable]
    rw [correctables_one correctable]
    rfl

/-- The accesses of READ_STREAM_STATUS from one index on. -/
theorem stream_accesses (more : List Index) : ∀ (i : Index) (results : List Byte) (y : State), PortAtRest y →
    (∀ j ∈ i :: more, y.store.poisoned y.store.active j = true ∨ RowClean y.store.active j y ∨
      RowCorrectable y.store.active j y) →
    Accesses b .done (results ++ (i :: more).flatMap (statusOf y))
      (withCorrected (correctables y (i :: more)) { y with store := { y.store with waitCount := 0 } })
      (more.length + 1) (.readStream i more results) y := by
  induction more with
  | nil =>
    intro i results y atRest rows
    refine .last (atRest.untouched (by constructor <;> rfl) rfl) ?_
    obtain ⟨e, read, status⟩ := readStream_row (s := closing b (.readStream i [] results)
      { y with store := { y.store with waitCount := 0 } }) (i := i) (rows i List.mem_cons_self)
    rw [atAccess_reading atRest.quiet.2.1 (by exact fun _ _ => nofun)]
    change concludeReadStream b y.store.active i [] results _ = _
    unfold concludeReadStream
    rw [show readRowOf y.store.active i _ = _ from read, List.flatMap_singleton]
    change complete b .done (results ++ streamResult y.store.active i e (y.stream i)) _ = _
    rw [show streamResult y.store.active i e (y.stream i) = statusOf y i from status]
    rfl
  | cons j more ih =>
    intro i results y atRest rows
    obtain ⟨e, read, status⟩ := readStream_row (s := closing b (.readStream i (j :: more) results)
      { y with store := { y.store with waitCount := 0 } }) (i := i) (rows i List.mem_cons_self)
    have rest := atRest.untouched
      (x := withCorrected (correctables y [i]) { y with store := { y.store with waitCount := 0 } })
      (by constructor <;> rfl) rfl
    have later := ih j (results ++ statusOf y i) _ rest fun k hk => rows k (List.mem_cons_of_mem i hk)
    rw [correctables_cons, ← withCorrected_add]
    rw [List.append_assoc] at later
    refine .next rest ?_ later
    rw [atAccess_reading atRest.quiet.2.1 (by exact fun _ _ => nofun)]
    change concludeReadStream b y.store.active i (j :: more) results _ = _
    unfold concludeReadStream
    rw [show readRowOf y.store.active i _ = _ from read]
    change nextAccess b (.readStream j more (results ++ streamResult y.store.active i e (y.stream i))) _ = _
    rw [show streamResult y.store.active i e (y.stream i) = statusOf y i from status]
    rfl

/-- The payload of READ_STREAM_STATUS. -/
theorem decode_readStream (i : Index) (more : List Index) (few : more.length < 8) :
    decodeCommand (0x04 :: (i :: more).map fun i => BitVec.ofNat 8 i.val) = .command (.readStream i more) := by
  change (if (more.map fun i => BitVec.ofNat 8 i.val).length < 8 then Decoded.command (.readStream
    (indexOf (BitVec.ofNat 8 i.val)) ((more.map fun i => BitVec.ofNat 8 i.val).map indexOf)) else .bad) = _
  rw [if_pos (by rw [List.length_map]; exact few), indexOf_ofNat, List.map_map]
  have same : (indexOf ∘ fun i : Index => BitVec.ofNat 8 i.val) = id := funext indexOf_ofNat
  rw [same, List.map_id]

theorem statusOf_atReceived (payload : List Byte) :
    statusOf (atReceived h b rest payload s (Reloaded s)) = statusOf s := rfl

theorem correctables_atReceived (payload : List Byte) (l : List Index) :
    correctables (atReceived h b rest payload s (Reloaded s)) l = correctables s l := rfl

/-- READ_STREAM_STATUS of readable and poisoned rows. -/
theorem streams_read (can : CanRead h b rest s) (free : s.store.port = .free) (i : Index) (more : List Index)
    (few : more.length < 8)
    (rows : ∀ j ∈ i :: more, s.store.poisoned s.store.active j = true ∨ RowClean s.store.active j s ∨
      RowCorrectable s.store.active j s) :
    CompletesAfter (more.length + 1) (.readStreamStatus h ((i :: more).map fun i => BitVec.ofNat 8 i.val))
      h b rest 0x04 .done ((i :: more).flatMap (statusOf s)) s (withCorrected (correctables s (i :: more)) (counted s)) := by
  obtain ⟨ready, -, room⟩ := id can
  have begun : Untouched s (Reloaded s) := by constructor <;> rfl
  have decoded := decode_readStream i more few
  have sent : exec (.readStreamStatus h ((i :: more).map fun i => BitVec.ofNat 8 i.val)) s =
    .next (sendCommand h (0x04 :: (i :: more).map fun i => BitVec.ofNat 8 i.val) s) := rfl
  have short : (0x04#8 :: (i :: more).map fun i => BitVec.ofNat 8 i.val).length ≤ 200 := by simp; omega
  have code : responseCode (0x04#8 :: (i :: more).map fun i => BitVec.ofNat 8 i.val) = 0x04 := rfl
  have read : isWrite (0x04#8 :: (i :: more).map fun i => BitVec.ofNat 8 i.val) = false := rfl
  generalize 0x04#8 :: (i :: more).map (fun i : Index => BitVec.ofNat 8 i.val) = payload at *
  have atRest := begun.atRest (payload := payload) ready free
  have accesses := stream_accesses (b := b) more i [] _ atRest rows
  rw [List.nil_append, statusOf_atReceived, correctables_atReceived] at accesses
  rw [← code]
  exact completes_accesses (x := withCorrected (correctables s (i :: more)) (counted s)) sent ready free room short
    (begins_reading can short read decoded rfl) begun (by constructor <;> rfl) accesses

/-- READ_STREAM_STATUS of an uncorrectable row, where no Report is sent. -/
theorem stream_lost (can : CanRead h b rest s) (free : s.store.port = .free) (i : Index)
    (row : RowUncorrectable s.store.active i s) (quiet : SendsNoReport .tableFault s) :
    CompletesAfter 1 (.readStreamStatus h [BitVec.ofNat 8 i.val]) h b rest 0x04 .done
      ([BitVec.ofNat 8 i.val, bankCode s.store.active, 2, 0, 0] ++ be32 (s.stream i).passed ++
        be32 (s.stream i).refused ++ be32 (s.stream i).held) s
      (tell .tableFault (Poisoned s.store.active i (counted s))) := by
  obtain ⟨ready, -, room⟩ := id can
  have begun : Untouched s (Reloaded s) := by constructor <;> rfl
  have atRest := begun.atRest (payload := [0x04, BitVec.ofNat 8 i.val]) ready free
  have same := untouched_poisoned s.store.active i quiet
  refine completes_accesses (c := .readStreamStatus h [BitVec.ofNat 8 i.val]) (job := .readStream i [] [])
    (payload := [0x04, BitVec.ofNat 8 i.val]) rfl ready free room (by simp)
    (begins_reading can (by simp) rfl (decode_readStream i [] (by decide)) rfl) begun same
    (.last (same.atRest ready free) ?_)
  rw [atAccess_reading atRest.quiet.2.1 (by exact fun _ _ => nofun)]
  have read := readRowOf_uncorrectable (s := closing b (.readStream i [] [])
    (atReceived h b rest [0x04, BitVec.ofNat 8 i.val] s (counted s))) row
  rw [show tell .tableFault (Poisoned s.store.active i (closing b (.readStream i [] [])
      (atReceived h b rest [0x04, BitVec.ofNat 8 i.val] s (counted s)))) = _ from
    tell_poisoned_closing _ _ s.store.active i quiet { s.store with waitCount := 0 }] at read
  change concludeReadStream b s.store.active i [] [] (closing b (.readStream i [] [])
    (atReceived h b rest [0x04, BitVec.ofNat 8 i.val] s (counted s))) = _
  unfold concludeReadStream
  rw [show readRowOf s.store.active i _ = _ from read]
  have streams : (tell .tableFault (Poisoned s.store.active i (counted s))).stream i =
      ⟨0, (s.stream i).passed, (s.stream i).refused, (s.stream i).held⟩ := by
    rw [tell_quiet (s := Poisoned s.store.active i (counted s)) quiet]
    unfold State.stream Poisoned
    simp [counted, Reloaded, State.stream]
  change complete b .done ([] ++ streamResult s.store.active i none
    ((tell .tableFault (Poisoned s.store.active i (counted s))).stream i)) _ = _
  rw [streams]
  rfl

end

/-- Settles O40: the entry record, then the two readings by their accesses. -/
theorem rowsAreReadThroughAccesses : Obligations.RowsAreReadThroughAccesses := by
  refine ⟨encodeEntry_fields, fun h b rest s can free => ?_⟩
  rintro x rfl
  refine ⟨entry_read can free, fun i => stream_lost can free i, ?_⟩
  rintro l some most rows n rfl
  cases l with
  | nil => exact absurd rfl some
  | cons i more => exact streams_read can free i more (by simp only [List.length_cons] at most; omega) rows

end Sys2Proof.Machine
end

section
/-! SUPPORT. WRITE_ENTRY and INVALIDATE_ENTRY by their accesses (R86, R118, R122, R138, R139, R180). -/

namespace Sys2Proof.Machine

/-! ### The entry a record stands for (R180) -/

theorem chosen_iff {α : Type} {x y : α} (other : y ≠ x) (v : Bool) : (if v then x else y) = x ↔ v = true := by
  cases v <;> simp [other]

theorem decodeEntry_fields (l : List Byte) (e : StreamEntry) (he : e = decodeEntry l) :
    e.valid = (byteAt l 0).getLsbD 7 ∧ e.portN = (byteAt l 0).getLsbD 6 ∧ e.portF = (byteAt l 0).getLsbD 5 ∧
    e.broadcast = (byteAt l 0).getLsbD 4 ∧ e.urgent = (byteAt l 0).getLsbD 2 ∧
    (e.stamp = .fill ↔ (byteAt l 0).getLsbD 1 = true) ∧ (e.unsup = .block ↔ (byteAt l 0).getLsbD 0 = true) ∧
    (e.closed = .hold ↔ (byteAt l 1).getLsbD 7 = true) ∧ (e.overRate = .hold ↔ (byteAt l 1).getLsbD 6 = true) ∧
    e.privLimit = (byteAt l 1).extractLsb' 0 2 ∧ e.srcLow = halfAt l 2 ∧ e.srcHigh = halfAt l 4 ∧
    e.classes = halfAt l 6 ∧ e.dstLow = halfAt l 8 ∧ e.dstHigh = halfAt l 10 ∧
    ((byteAt l 0).getLsbD 3 = true → e.remap = some (halfAt l 12)) ∧
    ((byteAt l 0).getLsbD 3 = false → e.remap = none) ∧
    e.windows = wordAt l 14 ∧ e.ceiling = byteAt l 18 ∧ e.refill = byteAt l 19 ∧ e.holdLimit = halfAt l 20 := by
  subst he
  refine ⟨rfl, rfl, rfl, rfl, rfl, chosen_iff (by decide) _, chosen_iff (by decide) _, chosen_iff (by decide) _,
    chosen_iff (by decide) _, rfl, rfl, rfl, rfl, rfl, rfl, fun present => ?_, fun absent => ?_, rfl, rfl, rfl, rfl⟩
  · exact if_pos present
  · exact if_neg (by rw [absent]; decide)

/-! ### WRITE_ENTRY (R138) -/

theorem atAccess_writing {x : State} (quiet : x.store.agentRequest = false) (i : Index) (e : StreamEntry) :
    atAccess (.writeEntry i e) x =
      writeEntryAccess x.store.active i e { x with store := { x.store with waitCount := 0 } } := by
  have same : ({ x.store with agentRequest := false, waitCount := 0 } : TableStore) =
      { x.store with waitCount := 0 } := by
    rw [← quiet]
  unfold atAccess
  dsimp only
  rw [same]

/-- A row of a bank written with its parameter record. -/
def rowWritten (bank : Bank) (i : Index) (e : StreamEntry) (r : ParamRecord) (s : State) : State :=
  { Reloaded s with
    store := { s.store with
      waitCount := 0
      rows := s.store.rows.set bank ((s.store.rows.get bank).set i.val ⟨e, []⟩)
      poison := s.store.poison.set bank ((s.store.poison.get bank).set i.val false) }
    policer := { s.policer with
      params := s.policer.params.set bank ((s.policer.params.get bank).set i.val r) } }

section
variable {h : CmdHead} {b : BufId} {rest : List BufId} {s : State} {i : Index}

theorem untouched_rowWritten (bank : Bank) (i : Index) (e : StreamEntry) (r : ParamRecord) (s : State) :
    Untouched s (rowWritten bank i e r s) := by
  constructor <;> rfl

theorem decode_writeEntry_ofNat {raw : BitVec 176} (allowed : entryAllowed (bytesOf 22 raw) = true) (i : Index) :
    decodeCommand (0x07 :: BitVec.ofNat 8 i.val :: bytesOf 22 raw) =
      .command (.writeEntry i (decodeEntry (bytesOf 22 raw))) := by
  rw [decode_writeEntry, if_pos (by simp [bytesOf_length])]
  change decodedOf (if entryAllowed (bytesOf 22 raw) then some (.writeEntry (indexOf (BitVec.ofNat 8 i.val))
    (decodeEntry (bytesOf 22 raw))) else none) = _
  rw [allowed, indexOf_ofNat]
  rfl

/-- The row is written at the grant; the access concludes with the answer. -/
theorem entry_written (can : CanWrite h b rest s) (free : s.store.port = .free) (i : Index) {raw : BitVec 176}
    {e : StreamEntry} (allowed : entryAllowed (bytesOf 22 raw) = true) (he : e = decodeEntry (bytesOf 22 raw))
    {w : State} (hw : w = rowWritten (otherBank s.store.active) i e ⟨e.ceiling, e.refill, e.valid⟩ s) :
    CompletesAfter 1 (.writeEntry h (BitVec.ofNat 8 i.val) raw) h b rest 0x07 .done
      [BitVec.ofNat 8 i.val, bankCode (otherBank s.store.active)] s w ∧
    ∃ t, exec (.writeEntry h (BitVec.ofNat 8 i.val) raw) s = .next t ∧ t.store.port = .agent s.store.active ∧
      t = { w with
        store := { w.store with port := t.store.port, agentRequest := false }
        agent := { (Reloaded s).agent with exec := some ⟨b, .writeEntry i e⟩ }
        pool := t.pool
        rx := t.rx } := by
  subst he
  obtain ⟨ready, -, room⟩ := id can
  have decoded := decode_writeEntry_ofNat allowed i
  have sent : exec (.writeEntry h (BitVec.ofNat 8 i.val) raw) s =
    .next (sendCommand h (0x07 :: BitVec.ofNat 8 i.val :: bytesOf 22 raw) s) := rfl
  have short : (0x07#8 :: BitVec.ofNat 8 i.val :: bytesOf 22 raw).length ≤ 200 := by simp [bytesOf_length]
  have code : responseCode (0x07#8 :: BitVec.ofNat 8 i.val :: bytesOf 22 raw) = 0x07 := rfl
  have write : isWrite (0x07#8 :: BitVec.ofNat 8 i.val :: bytesOf 22 raw) = true := rfl
  generalize 0x07#8 :: BitVec.ofNat 8 i.val :: bytesOf 22 raw = payload at *
  generalize decodeEntry (bytesOf 22 raw) = e at *
  have begun : Untouched s (Reloaded s) := by constructor <;> rfl
  have atRest := begun.atRest (payload := payload) ready free
  have begins : startCommand b (received h b rest payload s) =
      beginJob b (.writeEntry i e) (atReceived h b rest payload s (Reloaded s)) :=
    begins_writing can short write decoded rfl
  have access : atAccess (.writeEntry i e) (atReceived h b rest payload s (Reloaded s)) =
      atReceived h b rest payload s w := by
    rw [atAccess_writing atRest.quiet.2.1, hw]
    rfl
  have same : Untouched s w := hw ▸ untouched_rowWritten _ _ _ _ _
  refine ⟨?_, _, sent.trans (congrArg _ (sendCommand_begins ready short begins atRest)), rfl, ?_⟩
  · rw [← code]
    refine completes_accesses sent ready free room short begins begun same (.last (same.atRest ready free) ?_)
    rw [access]
    rfl
  · have asked : w.store.agentRequest = false := same.request.trans atRest.quiet.2.1
    have store : ({ w.store with port := .agent s.store.active } : TableStore) =
        { w.store with port := .agent s.store.active, agentRequest := false } := by
      rw [← asked]
    unfold granted
    rw [access]
    exact congrArg (fun x => ({ atReceived h b rest payload s w with
      store := x
      agent := { (Reloaded s).agent with exec := some ⟨b, .writeEntry i e⟩ } } : State)) store

/-! ### INVALIDATE_ENTRY (R139) -/

theorem decode_invalidate (i : Index) : decodeCommand [0x08, BitVec.ofNat 8 i.val] = .command (.invalidate i) := by
  change Decoded.command (.invalidate (indexOf (BitVec.ofNat 8 i.val))) = _
  rw [indexOf_ofNat]

/-- INVALIDATE_ENTRY by what its access does. -/
theorem invalidates (can : CanWrite h b rest s) (free : s.store.port = .free) (i : Index) {blank : Bool} {w : State}
    (same : Untouched s w)
    (access : ∀ payload, invalidateAccess s.store.active i
        (closing b (.invalidate i) (atReceived h b rest payload s (counted s))) =
      (blank, closing b (.invalidate i) (atReceived h b rest payload s w))) :
    CompletesAfter 1 (.invalidateEntry h (BitVec.ofNat 8 i.val)) h b rest 0x08 .done
      [BitVec.ofNat 8 i.val, bankCode (otherBank s.store.active), yesNo blank] s w := by
  obtain ⟨ready, -, room⟩ := id can
  have begun : Untouched s (Reloaded s) := by constructor <;> rfl
  have atRest := begun.atRest (payload := [0x08, BitVec.ofNat 8 i.val]) ready free
  refine completes_accesses (c := .invalidateEntry h (BitVec.ofNat 8 i.val)) (job := .invalidate i)
    (payload := [0x08, BitVec.ofNat 8 i.val]) rfl ready free room (by simp)
    (begins_writing can (by simp) rfl (decode_invalidate i) rfl) begun same (.last (same.atRest ready free) ?_)
  rw [atAccess_reading atRest.quiet.2.1 (by exact fun _ _ => nofun)]
  change concludeInvalidate b s.store.active i (closing b (.invalidate i)
    (atReceived h b rest [0x08, BitVec.ofNat 8 i.val] s (counted s))) = _
  unfold concludeInvalidate
  rw [access]
  rfl

section
variable {a : Bank} {x : State}

theorem invalidateAccess_unreadable (row : x.store.poisoned (otherBank a) i = true ∨ RowUncorrectable (otherBank a) i x) :
    invalidateAccess a i x = (true, writeUnusable a i blankEntry x) := by
  unfold invalidateAccess
  rcases row with poisoned | ⟨sound, lost⟩
  · exact if_pos poisoned
  · rw [if_neg (by rw [sound]; decide), readRow_of_uncorrectable _ lost]
    rfl

theorem invalidateAccess_clean (row : RowClean (otherBank a) i x) : invalidateAccess a i x =
    (false, writeUnusable a i { (x.store.row (otherBank a) i).entry with valid := false } x) := by
  unfold invalidateAccess
  rw [if_neg (by rw [row.1]; decide), readRow_of_clean _ row.2]
  rfl

theorem invalidateAccess_correctable (row : RowCorrectable (otherBank a) i x) : invalidateAccess a i x =
    (false, writeUnusable a i { (x.store.row (otherBank a) i).entry with valid := false } (countCorrected 1 x)) := by
  obtain ⟨sound, most, one⟩ := row
  unfold invalidateAccess
  rw [if_neg (by rw [sound]; decide), readRow_of_correctable _ most one]
  rfl

end

end

/-- Settles O42: the entry, then the two writes by their accesses. -/
theorem shadowRowsAreWrittenThroughAccesses : Obligations.ShadowRowsAreWrittenThroughAccesses := by
  refine ⟨decodeEntry_fields, ?_⟩
  rintro h b rest s can free i bank rfl written hwritten
  have written_eq (e : StreamEntry) (r : ParamRecord) : written e r = rowWritten (otherBank s.store.active) i e r s := by
    rw [hwritten]
    rfl
  refine ⟨fun raw e allowed he => entry_written can free i allowed he (written_eq _ _), fun row => ?_, fun row => ?_,
    fun row => ?_⟩
  · rw [written_eq]
    refine invalidates (blank := false) can free i (untouched_rowWritten _ _ _ _ _) fun payload => ?_
    rw [invalidateAccess_clean (x := closing b (.invalidate i) (atReceived h b rest payload s (counted s))) row]
    rfl
  · rintro x rfl
    rw [written_eq, ← satPlus_one]
    refine invalidates (blank := false) can free i (by constructor <;> rfl) fun payload => ?_
    rw [invalidateAccess_correctable (x := closing b (.invalidate i) (atReceived h b rest payload s (counted s))) row]
    rfl
  · rw [written_eq]
    refine invalidates (blank := true) can free i (untouched_rowWritten _ _ _ _ _) fun payload => ?_
    rw [invalidateAccess_unreadable (x := closing b (.invalidate i) (atReceived h b rest payload s (counted s))) row]
    rfl

end Sys2Proof.Machine
end

section
/-! SUPPORT. PROBE by its access: the telegram it describes, and the verdict it reports (R43, R44, R119 to R121, R180). -/

namespace Sys2Proof.Machine

/-! ### The telegram described -/

theorem portOf_portCode (p : Port) : portOf (portCode p) = some p := by cases p <;> rfl

theorem options_low {opts : Byte} (small : opts.toNat < 8) : opts.extractLsb' 3 5 = 0#5 := by
  refine BitVec.eq_of_toNat_eq ?_
  rw [BitVec.extractLsb'_toNat, Nat.shiftRight_eq_div_pow]
  change opts.toNat / 8 % 32 = 0
  omega

theorem nibble_back (x : BitVec 4) : (x.setWidth 8).setWidth 4 = x ∧ (x.setWidth 8).toNat ≤ 15 := by
  revert x
  decide

theorem pair_back (x : BitVec 2) : (x.setWidth 8).setWidth 2 = x ∧ (x.setWidth 8).toNat ≤ 3 := by
  revert x
  decide

theorem decode_probe_described (port : Port) {src : Addr} (dst : Addr) (cls : BitVec 4) (priv : BitVec 2) {opts : Byte}
    {limit : BitVec 16} (station : src ≠ 0xFFFF) (small : opts.toNat < 8)
    (range : opts.getLsbD 2 = true → limit.toNat ≤ 4095) :
    decodeCommand (probePayload (portCode port) src dst (cls.setWidth 8) (priv.setWidth 8) opts limit) =
      .command (.probe ⟨port, src, dst, cls, priv, opts.getLsbD 0, opts.getLsbD 1,
        if opts.getLsbD 2 then some limit else none⟩) := by
  obtain ⟨clsBack, clsSmall⟩ := nibble_back cls
  obtain ⟨privBack, privSmall⟩ := pair_back priv
  generalize hp : probePayload (portCode port) src dst (cls.setWidth 8) (priv.setWidth 8) opts limit = payload
  have source : halfAt payload.tail 1 = src := by rw [← hp]; exact be16_join src
  have dest : halfAt payload.tail 3 = dst := by rw [← hp]; exact be16_join dst
  have last : halfAt payload.tail 8 = limit := by rw [← hp]; exact be16_join limit
  have first : byteAt payload.tail 0 = portCode port := by rw [← hp]; rfl
  have fifth : byteAt payload.tail 5 = cls.setWidth 8 := by rw [← hp]; rfl
  have sixth : byteAt payload.tail 6 = priv.setWidth 8 := by rw [← hp]; rfl
  have seventh : byteAt payload.tail 7 = opts := by rw [← hp]; rfl
  have split : payload = 0x05 :: payload.tail := by rw [← hp]; rfl
  have length : payload.tail.length = 10 := by rw [← hp]; rfl
  rw [split, decode_probe, if_pos length]
  unfold decodeProbe
  rw [first, portOf_portCode, source, dest, last, fifth, sixth, seventh, clsBack, privBack]
  dsimp only
  rw [if_neg]
  · rfl
  · rintro (broadcast | cls | priv | options | ⟨present, high⟩)
    · exact station broadcast
    · omega
    · omega
    · exact options (options_low small)
    · have := range present
      omega

/-! ### The lookup of an access -/

/-- The walk of a lookup reads rows and the Poison Set. -/
theorem walkRows_congr {t u : TableStore} (rows : u.rows = t.rows) (poison : u.poison = t.poison) (b : Bank)
    (k : LookupKey) (l : List Index) : ∀ n d, walkRows u b k l n d = walkRows t b k l n d := by
  induction l with
  | nil => exact fun _ _ => rfl
  | cons i l ih =>
    intro n d
    have row : u.row b i = t.row b i := by unfold TableStore.row; rw [rows]
    have poisoned : u.poisoned b i = t.poisoned b i := by unfold TableStore.poisoned; rw [poison]
    unfold walkRows
    rw [row, poisoned]
    simp only [ih]

theorem lookup_congr {s t : State} (rows : t.store.rows = s.store.rows) (poison : t.store.poison = s.store.poison)
    (draws : t.draws = s.draws) (b : Bank) (k : LookupKey) : lookup b k t = lookup b k s := by
  unfold lookup
  rw [draws]
  exact walkRows_congr rows poison b k _ _ _

/-! ### The access (R43) -/

/-- What a verdict reads of the state (R27, R29 to R33). -/
theorem verdictOf_congr {s t : State} (settings : t.agent.settings = s.agent.settings)
    (supervision : t.agent.supervision = s.agent.supervision) (windows : t.windows = s.windows)
    (policer : t.policer = s.policer) (bank : Bank) (stop : LookupStop) (d : Described) :
    verdictOf t bank stop d = verdictOf s bank stop d := by
  have lapsed : t.lapsed = s.lapsed := by unfold State.lapsed; rw [supervision]
  have credit (i : Option Index) : t.creditOf i = s.creditOf i := by
    unfold State.creditOf State.stream
    rw [policer]
  unfold verdictOf judgeByEntry policyNow
  rw [settings, lapsed, windows]
  simp only [credit]

/-- The state after the reads of a lookup. -/
def walked (n draws : Nat) (s : State) : State :=
  { Reloaded s with
    store := { s.store with waitCount := 0, corrected := satPlus s.store.corrected n }
    draws := draws }

/-- What PROBE leaves of the state, by what stopped its lookup. -/
def ProbeLeaves (stop : LookupStop) (n draws : Nat) (s y : State) : Prop :=
  ((∀ i, stop ≠ .fault i) ∧ y = walked n draws s) ∨
    (SendsNoReport .tableFault s ∧ ∃ i, stop = .fault i ∧
      y = tell .tableFault (Poisoned s.store.active i (walked n draws s)))

section
variable {h : CmdHead} {b : BufId} {rest : List BufId} {s y : State} {d : Described} {stop : LookupStop} {n draws : Nat}

theorem ProbeLeaves.untouched (leaves : ProbeLeaves stop n draws s y) : Untouched s y := by
  rcases leaves with ⟨-, rfl⟩ | ⟨quiet, i, -, rfl⟩
  · constructor <;> rfl
  · rw [tell_quiet (s := Poisoned s.store.active i (walked n draws s)) quiet]
    constructor <;> rfl

theorem applyWalk_sound (noFault : ∀ i, stop ≠ .fault i) (bank : Bank) (x : State) :
    tellFault (⟨stop, n, draws⟩ : Walk).joins (applyWalk bank ⟨stop, n, draws⟩ x) =
      countCorrected n (x.setDraws draws) := by
  cases stop with
  | found i e => exact rfl
  | noMatch => exact rfl
  | poisoned i => exact rfl
  | fault i => exact absurd rfl (noFault i)

/-- The access of PROBE concludes with the bytes of the verdict, which the state before it gives. -/
theorem probe_concludes (payload : List Byte) (found : lookup s.store.active d.key s = ⟨stop, n, draws⟩)
    (leaves : ProbeLeaves stop n draws s y) :
    concludeProbe b s.store.active d (closing b (.probe d) (atReceived h b rest payload s (counted s))) =
      complete b .done (probeBytes s.store.active d stop
        (probeVerdict d (verdictOf (Reloaded s) s.store.active stop d) (Reloaded s)))
        (closing b (.probe d) (atReceived h b rest payload s y)) := by
  have same : lookup s.store.active d.key (closing b (.probe d) (atReceived h b rest payload s (counted s))) =
      ⟨stop, n, draws⟩ :=
    (lookup_congr (s := s) (t := closing b (.probe d) (atReceived h b rest payload s (counted s))) rfl rfl rfl _ _).trans
      found
  unfold concludeProbe
  rw [same]
  rcases leaves with ⟨noFault, rfl⟩ | ⟨quiet, i, rfl, rfl⟩
  · have walk : tellFault (⟨stop, n, draws⟩ : Walk).joins (applyWalk s.store.active ⟨stop, n, draws⟩
        (closing b (.probe d) (atReceived h b rest payload s (counted s)))) =
        closing b (.probe d) (atReceived h b rest payload s (walked n draws s)) :=
      (applyWalk_sound noFault _ _).trans rfl
    dsimp only
    rw [walk, verdictOf_congr (s := Reloaded s) rfl rfl rfl rfl]
    rfl
  · have told : tell .tableFault (joinPoison s.store.active i (countCorrected n
        ((closing b (.probe d) (atReceived h b rest payload s (counted s))).setDraws draws))) =
        closing b (.probe d) (atReceived h b rest payload s
          (tell .tableFault (Poisoned s.store.active i (walked n draws s)))) := by
      rw [joinPoison_eq, tell_quiet (s := Poisoned s.store.active i (countCorrected n
        ((closing b (.probe d) (atReceived h b rest payload s (counted s))).setDraws draws))) quiet,
        tell_quiet (s := Poisoned s.store.active i (walked n draws s)) quiet]
      rfl
    change complete b .done (probeBytes s.store.active d (.fault i) (.refuse .tableFault none))
      (tell .tableFault (joinPoison s.store.active i (countCorrected n
        ((closing b (.probe d) (atReceived h b rest payload s (counted s))).setDraws draws)))) = _
    rw [told]
    rfl

theorem probes {port : Port} {src dst : Addr} {cls : BitVec 4} {priv : BitVec 2} {opts : Byte} {limit : BitVec 16}
    (can : CanRead h b rest s) (free : s.store.port = .free)
    (decoded : decodeCommand (probePayload (portCode port) src dst (cls.setWidth 8) (priv.setWidth 8) opts limit) =
      .command (.probe d))
    (found : lookup s.store.active d.key s = ⟨stop, n, draws⟩) (leaves : ProbeLeaves stop n draws s y) :
    CompletesAfter 1 (.probe h (portCode port) src dst (cls.setWidth 8) (priv.setWidth 8) opts limit) h b rest 0x05 .done
      (probeBytes s.store.active d stop
        (probeVerdict d (verdictOf (Reloaded s) s.store.active stop d) (Reloaded s))) s y := by
  obtain ⟨ready, -, room⟩ := id can
  have begun : Untouched s (Reloaded s) := by constructor <;> rfl
  have sent : exec (.probe h (portCode port) src dst (cls.setWidth 8) (priv.setWidth 8) opts limit) s =
    .next (sendCommand h (probePayload (portCode port) src dst (cls.setWidth 8) (priv.setWidth 8) opts limit) s) := rfl
  have short : (probePayload (portCode port) src dst (cls.setWidth 8) (priv.setWidth 8) opts limit).length ≤ 200 := by
    simp [probePayload, be16]
  have code : responseCode (probePayload (portCode port) src dst (cls.setWidth 8) (priv.setWidth 8) opts limit) = 0x05 :=
    rfl
  have read : isWrite (probePayload (portCode port) src dst (cls.setWidth 8) (priv.setWidth 8) opts limit) = false := rfl
  generalize probePayload (portCode port) src dst (cls.setWidth 8) (priv.setWidth 8) opts limit = payload at *
  have atRest := begun.atRest (payload := payload) ready free
  rw [← code]
  refine completes_accesses sent ready free room short (begins_reading can short read decoded rfl) begun
    leaves.untouched (.last (leaves.untouched.atRest ready free) ?_)
  rw [atAccess_reading (x := atReceived h b rest payload s (Reloaded s)) (job := .probe d) atRest.quiet.2.1
    (by exact fun _ _ => nofun)]
  have concludes := probe_concludes (b := b) (rest := rest) (h := h) payload found leaves
  generalize probeBytes s.store.active d stop
    (probeVerdict d (verdictOf (Reloaded s) s.store.active stop d) (Reloaded s)) = bytes at concludes ⊢
  exact concludes

end

/-! ### The bytes of the verdict (R44) -/

/-- The first bits of byte 2 where a row matched: matched, and stamp to fill. -/
theorem found_bits (unfilled : Bool) (stamp : StampPolicy) :
    bitIn true 1 ||| bitIn false 5 ||| bitIn (unfilled && stamp == .fill) 6 =
      if unfilled = true ∧ stamp = .fill then 66 else 2 := by
  cases unfilled <;> cases stamp <;> decide

theorem unmatched_bits : bitIn false 1 ||| bitIn false 5 ||| bitIn false 6 = 0 := by decide

theorem default_bits : bitIn false 1 ||| bitIn true 5 ||| bitIn false 6 = 32 := by decide

/-- Settles O41: the lookup of the access, and the bytes by the verdict. -/
theorem probeReportsTheVerdict : Obligations.ProbeReportsTheVerdict := by
  rintro h b rest s can free port src dst cls priv opts limit station small range d hd stop n draws found x rfl y
    leaves bits hbits index hindex refusal rfl v rfl
  have decoded := decode_probe_described port dst cls priv station small range
  rw [← hd] at decoded
  have key : d.key = ⟨port, src, cls⟩ := by rw [hd]; rfl
  have stamp : d.unfilledStamp = opts.getLsbD 1 := by rw [hd]
  have there : d.port = port := by rw [hd]
  have completes := probes can free decoded (by rw [key]; exact found) leaves
  have first : bitIn stop.index.isSome 1 ||| bitIn (stop == .noMatch) 5 ||| bitIn (wouldFill d stop) 6 = bits := by
    rw [hbits, ← stamp]
    cases stop with
    | found i e => exact found_bits d.unfilledStamp e.stamp
    | noMatch => exact default_bits
    | poisoned i => exact unmatched_bits
    | fault i => exact unmatched_bits
  have named : byteOf ((stop.index.map Fin.val).getD 0) = index := by
    rw [hindex]
    cases stop <;> rfl
  generalize verdictOf (Reloaded s) s.store.active stop d = v at *
  unfold probeBytes probeVerdict at completes
  rw [first, named, there] at completes
  cases v with
  | pass f =>
    have tx : (Reloaded s).tx = s.tx := rfl
    dsimp only at completes ⊢
    rw [tx] at completes
    by_cases room : listRoom (s.tx.get (otherPort port)) f.list = true
    · rw [if_pos room] at completes ⊢
      exact completes
    · rw [if_neg room] at completes ⊢
      exact completes
  | hold f reason n =>
    have held : holdFull (Reloaded s) = decide (32 ≤ s.hold.records.length) := rfl
    by_cases full : 32 ≤ s.hold.records.length
    · dsimp only at completes ⊢
      rw [if_pos (held.trans (decide_eq_true full))] at completes
      rw [if_pos full]
      exact completes
    · have code : reason.code = if reason = .window then 19 else 11 := by cases reason <;> rfl
      dsimp only at completes ⊢
      rw [if_neg (by rw [held, decide_eq_false full]; decide)] at completes
      rw [if_neg full, ← code]
      exact completes
  | refuse reason i => exact completes

end Sys2Proof.Machine
end

section
/-! SUPPORT. CLEAR_SHADOW and COPY_ACTIVE_TO_SHADOW row by row (R86, R97, R119 to R122, R140 to R142). -/

namespace Sys2Proof.Machine

/-! ### The first rows of a bank replaced -/

/-- A vector with its first `n` elements as a function gives them. -/
def upTo {α : Type} (n : Nat) (f : Index → α) (v : Vector α 256) : Vector α 256 :=
  Vector.ofFn fun i : Fin 256 => if i.val < n then f i else v[i]

section
variable {α : Type} {n : Nat} {f : Index → α} {v : Vector α 256}

theorem upTo_get (i : Nat) (h : i < 256) : (upTo n f v)[i] = if i < n then f ⟨i, h⟩ else v[i] := by
  unfold upTo
  rw [Vector.getElem_ofFn]
  rfl

theorem upTo_above (i : Index) (h : n ≤ i.val) : (upTo n f v)[i] = v[i] := by
  rw [Fin.getElem_fin, upTo_get, if_neg (by omega)]
  rfl

theorem upTo_zero : upTo 0 f v = v := by
  refine Vector.ext fun i h => ?_
  rw [upTo_get, if_neg (by omega)]

theorem upTo_all : upTo 256 f v = Vector.ofFn f := by
  refine Vector.ext fun i h => ?_
  rw [upTo_get, if_pos h, Vector.getElem_ofFn]

theorem upTo_set (i : Index) : (upTo i.val f v).set i.val (f i) = upTo (i.val + 1) f v := by
  refine Vector.ext fun j h => ?_
  rw [Vector.getElem_set, upTo_get, upTo_get]
  by_cases same : i.val = j
  · subst same
    rw [if_pos rfl, if_pos (by omega)]
  · rw [if_neg same]
    by_cases below : j < i.val
    · rw [if_pos below, if_pos (by omega)]
    · rw [if_neg below, if_neg (by omega)]

theorem upTo_kept (i : Index) (h : f i = v[i]) : upTo (i.val + 1) f v = upTo i.val f v := by
  refine Vector.ext fun j hj => ?_
  rw [upTo_get, upTo_get]
  by_cases same : j = i.val
  · subst same
    rw [if_pos (by omega), if_neg (by omega)]
    exact h
  · by_cases below : j < i.val
    · rw [if_pos below, if_pos (by omega)]
    · rw [if_neg below, if_neg (by omega)]

end

/-- The first `n` elements of one bank's vector as a function gives them. -/
def bankUpTo {α : Type} (n : Nat) (b : Bank) (f : Index → α) (x : PerBank (Vector α 256)) : PerBank (Vector α 256) :=
  x.set b (upTo n f (x.get b))

section
variable {α : Type} {n : Nat} {b c : Bank} {f : Index → α} {x : PerBank (Vector α 256)}

theorem PerBank.set_get (x : PerBank α) (b : Bank) : x.set b (x.get b) = x := by cases b <;> rfl

theorem bankUpTo_zero : bankUpTo 0 b f x = x := by
  unfold bankUpTo
  rw [upTo_zero]
  cases b <;> rfl

theorem bankUpTo_all : bankUpTo 256 b f x = x.set b (Vector.ofFn f) := by
  unfold bankUpTo
  rw [upTo_all]

theorem bankUpTo_get : (bankUpTo n b f x).get b = upTo n f (x.get b) := PerBank.get_set_self _ _ _

theorem bankUpTo_other (other : c ≠ b) : (bankUpTo n b f x).get c = x.get c := by
  unfold bankUpTo
  rw [PerBank.get_set, if_neg other]

/-- The next element written. -/
theorem bankUpTo_set (i : Index) (r : α) (h : f i = r) :
    (bankUpTo i.val b f x).set b (((bankUpTo i.val b f x).get b).set i.val r) = bankUpTo (i.val + 1) b f x := by
  rw [bankUpTo_get, ← h, upTo_set]
  unfold bankUpTo
  rw [PerBank.set_set]

theorem bankUpTo_kept (i : Index) (h : f i = (x.get b)[i]) : bankUpTo (i.val + 1) b f x = bankUpTo i.val b f x := by
  unfold bankUpTo
  rw [upTo_kept i h]

end

/-- How many of the first `n` indexes a test picks. -/
def pickedBelow (n : Nat) (pick : Index → Bool) : Nat := (((List.finRange 256).take n).filter pick).length

theorem pickedBelow_succ (i : Index) (pick : Index → Bool) :
    pickedBelow (i.val + 1) pick = pickedBelow i.val pick + if pick i then 1 else 0 := by
  have here : (List.finRange 256)[i.val]'(by simp) = i := by simp
  unfold pickedBelow
  rw [List.take_succ_eq_append_getElem (by simp), here, List.filter_append, List.length_append]
  congr 1
  cases picked : pick i <;> simp [picked]

theorem pickedBelow_all (pick : Index → Bool) : pickedBelow 256 pick = ((List.finRange 256).filter pick).length := by
  unfold pickedBelow
  rw [List.take_of_length_le (by simp)]

/-! ### 256 accesses (R124, R140, R142) -/

/-- The accesses of a command that goes through the rows: the states before each access and the jobs in hand. -/
theorem row_accesses {b : BufId} {status : Status} {results : List Byte} {a : Bank} {job : Nat → Job} {y : Nat → State}
    {x : State} (atRest : PortAtRest x) (active : x.store.active = a)
    (first : { x with store := { x.store with waitCount := 0 } } = y 0)
    (reads : ∀ n i e, job n ≠ .writeEntry i e) (rests : ∀ n, PortAtRest (y n))
    (still : ∀ n, { y n with store := { (y n).store with waitCount := 0 } } = y n)
    (same : ∀ n, (y n).store.active = a)
    (next : ∀ n, n < 255 → concludeJob b (job n) a (closing b (job n) (y n)) =
      nextAccess b (job (n + 1)) (closing b (job n) (y (n + 1))))
    (last : concludeJob b (job 255) a (closing b (job 255) (y 255)) =
      complete b status results (closing b (job 255) (y 256))) :
    Accesses b status results (y 256) 256 (job 0) x := by
  have later (m : Nat) : ∀ n, n + m = 255 → ∀ x, PortAtRest x → x.store.active = a →
      { x with store := { x.store with waitCount := 0 } } = y n →
      Accesses b status results (y 256) (m + 1) (job n) x := by
    induction m with
    | zero =>
      rintro n rfl x atRest active first
      refine .last (rests _) ?_
      rw [atAccess_reading atRest.quiet.2.1 (reads _), first, active]
      exact last
    | succ m ih =>
      intro n total x atRest active first
      refine .next (rests (n + 1)) ?_ (ih (n + 1) (by omega) (y (n + 1)) (rests _) (same _) (still _))
      rw [atAccess_reading atRest.quiet.2.1 (reads _), first, active]
      exact next n (by omega)
  exact later 255 0 rfl x atRest active first

/-! ### CLEAR_SHADOW (R142) -/

/-- The windows of a shadow written whole. -/
def windowsWritten (bank : Bank) (l : Vector WindowRecord 32) (s : State) : WindowMonitor :=
  ⟨s.windows.records.set bank l, s.windows.openSets.set bank (openSetOf l s.cal.mark s.cal.quality)⟩

/-- The state with the first `n` rows of the shadow cleared. -/
def cleared (n : Nat) (s : State) : State :=
  { Reloaded s with
    windows := windowsWritten (otherBank s.store.active) (Vector.replicate 32 blankWindow) s
    store := { s.store with
      waitCount := 0
      rows := bankUpTo n (otherBank s.store.active) (fun _ => ⟨blankEntry, []⟩) s.store.rows
      poison := bankUpTo n (otherBank s.store.active) (fun _ => false) s.store.poison }
    policer := { s.policer with
      params := bankUpTo n (otherBank s.store.active)
        (fun i => { s.param (otherBank s.store.active) i with usable := false }) s.policer.params } }

theorem cleared_succ (i : Index) (s : State) :
    clearAccess s.store.active i (cleared i.val s) = cleared (i.val + 1) s := by
  have param : (writeRow (otherBank s.store.active) i blankEntry (cleared i.val s)).param (otherBank s.store.active) i =
      s.param (otherBank s.store.active) i := by
    change ((bankUpTo i.val (otherBank s.store.active) _ s.policer.params).get (otherBank s.store.active))[i] = _
    rw [bankUpTo_get, upTo_above i (Nat.le_refl _)]
    rfl
  unfold clearAccess writeUnusable clearUsable
  rw [param]
  unfold cleared
  rw [← bankUpTo_set i ⟨blankEntry, []⟩ rfl, ← bankUpTo_set i false rfl, ← bankUpTo_set i _ rfl]
  rfl

/-- Unused windows are not open. -/
theorem openSetOf_unused {l : Vector WindowRecord 32} (unused : ∀ v : Fin 32, l[v].used = false) (m : MinuteMark)
    (q : Quality) : openSetOf l m q = 0 := by
  refine BitVec.eq_of_getLsbD_eq fun k small => ?_
  have bit := openSetOf_bit l m q ⟨k, small⟩
  unfold windowOpen at bit
  rw [unused, Bool.false_and, Bool.false_and, Bool.false_and] at bit
  rw [bit]
  simp

theorem blank_unused (v : Fin 32) : (Vector.replicate 32 blankWindow)[v].used = false := by
  rw [Fin.getElem_fin, Vector.getElem_replicate]
  rfl

section
variable {h : CmdHead} {b : BufId} {rest : List BufId} {s : State}

theorem untouched_cleared (n : Nat) (s : State) : Untouched s (cleared n s) := by constructor <;> rfl

theorem clearAccess_lifted (a : Bank) (i : Index) (job : Job) (payload : List Byte) (x : State) :
    clearAccess a i (closing b job (atReceived h b rest payload s x)) =
      closing b job (atReceived h b rest payload s (clearAccess a i x)) := rfl

theorem nextRow_below {n : Nat} (small : n < 255) : nextRow (Fin.ofNat 256 n) = some (Fin.ofNat 256 (n + 1)) := by
  have val : (Fin.ofNat 256 n).val = n := Nat.mod_eq_of_lt (by omega)
  unfold nextRow
  rw [dif_pos (by rw [val]; exact small)]
  exact congrArg some (Fin.ext (by
    change (Fin.ofNat 256 n).val + 1 = (n + 1) % 256
    rw [val]
    omega))

theorem nextRow_last : nextRow (Fin.ofNat 256 255) = none := rfl

/-- CLEAR_SHADOW goes through the shadow's rows. -/
theorem clears (can : CanWrite h b rest s) (free : s.store.port = .free) :
    CompletesAfter 256 (.clearShadow h) h b rest 0x0B .done [bankCode (otherBank s.store.active)] s (cleared 256 s) := by
  obtain ⟨ready, -, room⟩ := id can
  have begun : Untouched s (clearWindows (Reloaded s)) := by constructor <;> rfl
  have decoded : decodeCommand [0x0B] = .command .clear := rfl
  have row (n : Nat) (small : n < 256) (job : Job) : clearAccess s.store.active (Fin.ofNat 256 n)
      (closing b job (atReceived h b rest [0x0B] s (cleared n s))) =
        closing b job (atReceived h b rest [0x0B] s (cleared (n + 1) s)) := by
    have val : (Fin.ofNat 256 n).val = n := Nat.mod_eq_of_lt small
    have step := cleared_succ (Fin.ofNat 256 n) s
    rw [val] at step
    rw [clearAccess_lifted, step]
  refine completes_accesses (c := .clearShadow h) (payload := [0x0B]) (job := .clear 0) (y := clearWindows (Reloaded s))
    rfl ready free room (by simp) (begins_writing can (by simp) rfl decoded rfl) begun (untouched_cleared 256 s) ?_
  refine row_accesses (a := s.store.active) (job := fun n => .clear (Fin.ofNat 256 n))
    (y := fun n => atReceived h b rest [0x0B] s (cleared n s)) (begun.atRest ready free) rfl ?_
    (fun _ _ _ => nofun) (fun n => (untouched_cleared n s).atRest ready free) (fun _ => rfl) (fun _ => rfl)
    (fun n small => ?_) ?_
  · have start : cleared 0 s = { clearWindows (Reloaded s) with store := { s.store with waitCount := 0 } } := by
      unfold cleared
      rw [bankUpTo_zero, bankUpTo_zero, bankUpTo_zero]
      rfl
    dsimp only
    rw [start]
    rfl
  · change concludeClear b s.store.active (Fin.ofNat 256 n) _ = _
    unfold concludeClear
    rw [row n (by omega), nextRow_below small]
  · change concludeClear b s.store.active (Fin.ofNat 256 255) _ = _
    unfold concludeClear
    rw [row 255 (by decide), nextRow_last]

end

end Sys2Proof.Machine
end

section
/-! SUPPORT. COPY_ACTIVE_TO_SHADOW row by row (R86, R97, R119 to R122, R140, R141). -/

namespace Sys2Proof.Machine

/-! ### Two banks filled together -/

section
variable {α : Type} {n m : Nat} {a k : Bank} {f g : Index → α} {x : PerBank (Vector α 256)}

theorem PerBank.set_comm (other : a ≠ k) (x : PerBank α) (u v : α) : (x.set a u).set k v = (x.set k v).set a u := by
  cases a <;> cases k
  · exact absurd rfl other
  · rfl
  · rfl
  · exact absurd rfl other

theorem bankUpTo_set_other (other : a ≠ k) (v : Vector α 256) : (bankUpTo n a f x).set k v = bankUpTo n a f (x.set k v) := by
  unfold bankUpTo
  rw [PerBank.set_comm other, PerBank.get_set, if_neg other]

/-- An element of the other bank written. -/
theorem twoUpTo_other (other : a ≠ k) (i : Index) (r : α) (h : g i = r) :
    (bankUpTo n a f (bankUpTo i.val k g x)).set k
        (((bankUpTo n a f (bankUpTo i.val k g x)).get k).set i.val r) =
      bankUpTo n a f (bankUpTo (i.val + 1) k g x) := by
  rw [bankUpTo_other (Ne.symm other), bankUpTo_set_other other, bankUpTo_set i r h]

theorem twoUpTo_kept (other : a ≠ k) (i : Index) (h : f i = (x.get a)[i]) :
    bankUpTo (i.val + 1) a f (bankUpTo m k g x) = bankUpTo i.val a f (bankUpTo m k g x) :=
  bankUpTo_kept i (by rw [bankUpTo_other other]; exact h)

theorem twoUpTo_at (other : a ≠ k) (i : Index) : ((bankUpTo i.val a f (bankUpTo m k g x)).get a)[i] = (x.get a)[i] := by
  rw [bankUpTo_get, upTo_above i (Nat.le_refl _), bankUpTo_other other]

end

/-! ### The table of a state -/

/-- A parameter record that the Policer does not use. -/
def unused (r : ParamRecord) : ParamRecord := { r with usable := false }

/-- The state of a command with its windows, table and Policer as they are given. -/
def tabled (w : WindowMonitor) (rows : PerBank (Vector StoredRow 256)) (poison : PerBank (Vector Bool 256))
    (corrected uncorrectable : BitVec 16) (streams : Vector StreamStatus 256)
    (params : PerBank (Vector ParamRecord 256)) (exc : ExceptionUnit) (s : State) : State :=
  { Reloaded s with
    windows := w
    store := { s.store with
      waitCount := 0, rows := rows, poison := poison, corrected := corrected, uncorrectable := uncorrectable }
    policer := { s.policer with streams := streams, params := params }
    exc := exc }

section
variable {w : WindowMonitor} {rows : PerBank (Vector StoredRow 256)} {poison : PerBank (Vector Bool 256)}
  {corrected uncorrectable : BitVec 16} {streams : Vector StreamStatus 256} {params : PerBank (Vector ParamRecord 256)}
  {exc : ExceptionUnit} {s : State}

theorem untouched_tabled : Untouched s (tabled w rows poison corrected uncorrectable streams params exc s) := by
  constructor <;> rfl

theorem written_tabled (k : Bank) (i : Index) (e : StreamEntry) (r : ParamRecord) :
    setParam k i r (writeRow k i e (tabled w rows poison corrected uncorrectable streams params exc s)) =
      tabled w (rows.set k ((rows.get k).set i.val ⟨e, []⟩)) (poison.set k ((poison.get k).set i.val false)) corrected
        uncorrectable streams (params.set k ((params.get k).set i.val r)) exc s := rfl

theorem countCorrected_tabled : countCorrected 1 (tabled w rows poison corrected uncorrectable streams params exc s) =
    tabled w rows poison (satPlus corrected 1) uncorrectable streams params exc s := rfl

/-- A row found uncorrectable in the active bank, where no Report is sent. -/
theorem faulted_tabled (i : Index)
    (quiet : SendsNoReport .tableFault (tabled w rows poison corrected uncorrectable streams params exc s)) :
    tell .tableFault (Poisoned s.store.active i
        (tabled w rows poison corrected uncorrectable streams params exc s)) =
      tabled w rows (poison.set s.store.active ((poison.get s.store.active).set i.val true)) corrected
        (satPlus uncorrectable 1) (streams.set i.val { streams[i] with credit := 0 })
        (params.set s.store.active ((params.get s.store.active).set i.val
          (unused (params.get s.store.active)[i])))
        (toldExc .tableFault (tabled w rows poison corrected uncorrectable streams params exc s)) s := by
  rw [tell_quiet (s := Poisoned s.store.active i (tabled w rows poison corrected uncorrectable streams params exc s))
    quiet, satPlus_one]
  unfold Poisoned
  rw [if_pos (show s.store.active =
    (tabled w rows poison corrected uncorrectable streams params exc s).store.active from rfl)]
  rfl

end

/-! ### What a copy leaves after some rows (R140, R141) -/

section
variable (s : State)

/-- The rows of the active bank that a copy finds uncorrectable, that it cannot read, and that it finds correctable. -/
def lostRow (i : Index) : Bool := decide (RowUncorrectable s.store.active i s)

def badRow (i : Index) : Bool := s.store.poisoned s.store.active i || lostRow s i

def mendedRow (i : Index) : Bool := decide (RowCorrectable s.store.active i s)

def copiedRow (i : Index) : StoredRow := ⟨if badRow s i then blankEntry else (s.store.row s.store.active i).entry, []⟩

def copiedParam (i : Index) : ParamRecord :=
  if badRow s i then unused (s.param s.store.active i) else s.param s.store.active i

def leftParam (i : Index) : ParamRecord :=
  if lostRow s i then unused (s.param s.store.active i) else s.param s.store.active i

def leftStream (i : Index) : StreamStatus := if lostRow s i then { s.stream i with credit := 0 } else s.stream i

/-- The Exception Unit after the first `n` rows. -/
def copiedExc (n : Nat) : ExceptionUnit := if pickedBelow n (lostRow s) = 0 then s.exc else toldExc .tableFault s

/-- The state with the first `n` rows copied to the shadow, and the count of correctable reads as it is given. -/
def copiedWith (n : Nat) (corrected : BitVec 16) : State :=
  tabled (windowsWritten (otherBank s.store.active) (s.windows.records.get s.store.active) s)
    (bankUpTo n (otherBank s.store.active) (copiedRow s) s.store.rows)
    (bankUpTo n s.store.active (badRow s) (bankUpTo n (otherBank s.store.active) (fun _ => false) s.store.poison))
    corrected (satPlus s.store.uncorrectable (pickedBelow n (lostRow s))) (upTo n (leftStream s) s.policer.streams)
    (bankUpTo n s.store.active (leftParam s)
      (bankUpTo n (otherBank s.store.active) (copiedParam s) s.policer.params)) (copiedExc s n) s

/-- The state with the first `n` rows copied to the shadow. -/
def copied (n : Nat) : State := copiedWith s n (satPlus s.store.corrected (pickedBelow n (mendedRow s)))

end

section
variable {s : State}

theorem active_ne_shadow (s : State) : s.store.active ≠ otherBank s.store.active := by
  cases s.store.active <;> decide

/-- The active row that is next is as it was. -/
theorem copied_row (i : Index) : (copied s i.val).store.row s.store.active i = s.store.row s.store.active i ∧
    (copied s i.val).store.poisoned s.store.active i = s.store.poisoned s.store.active i ∧
    (copied s i.val).param s.store.active i = s.param s.store.active i := by
  have other := active_ne_shadow s
  refine ⟨?_, ?_, ?_⟩
  · change ((bankUpTo i.val (otherBank s.store.active) (copiedRow s) s.store.rows).get s.store.active)[i] = _
    rw [bankUpTo_other other]
    rfl
  · exact twoUpTo_at other i
  · exact twoUpTo_at other i

/-- The next row written, where it is not lost. -/
theorem copied_next (i : Index) (found : lostRow s i = false) {e : StreamEntry} {r : ParamRecord}
    (row : copiedRow s i = ⟨e, []⟩) (param : copiedParam s i = r) {corrected : BitVec 16}
    (counts : corrected = satPlus s.store.corrected (pickedBelow (i.val + 1) (mendedRow s))) :
    setParam (otherBank s.store.active) i r (writeRow (otherBank s.store.active) i e
      (copiedWith s i.val corrected)) = copied s (i.val + 1) := by
  have other := active_ne_shadow s
  have bad : badRow s i = (s.store.poison.get s.store.active)[i] := by
    unfold badRow
    rw [found, Bool.or_false]
    rfl
  have left : leftParam s i = (s.policer.params.get s.store.active)[i] := by
    unfold leftParam
    rw [found]
    rfl
  have stream : leftStream s i = s.policer.streams[i] := by
    unfold leftStream
    rw [found]
    rfl
  have lost : pickedBelow (i.val + 1) (lostRow s) = pickedBelow i.val (lostRow s) := by
    rw [pickedBelow_succ i (lostRow s), found]
    rfl
  unfold copied copiedWith copiedExc
  rw [written_tabled, bankUpTo_set i _ row, twoUpTo_other other i false rfl, twoUpTo_other other i _ param,
    ← twoUpTo_kept (f := badRow s) other i bad, ← twoUpTo_kept (f := leftParam s) other i left,
    ← upTo_kept (f := leftStream s) i stream, lost, ← counts]

/-- The flag told once, or already set. -/
theorem toldExc_told {f : Flag} {x y : State} (settings : y.agent.settings = x.agent.settings)
    (exc : y.exc = x.exc ∨ y.exc = toldExc f x) : toldExc f y = toldExc f x := by
  rcases exc with same | told
  · unfold toldExc
    rw [same, settings]
  · unfold toldExc
    rw [told, settings]
    unfold toldExc
    cases clear : x.exc.flags.getLsbD f.bit with
    | true => simp [clear]
    | false =>
      have set : (x.exc.flags ||| f.mask).getLsbD f.bit = true := by
        rw [BitVec.getLsbD_or]
        cases f <;> simp [Flag.mask, Flag.bit]
      simp [set]

/-- The next row lost. -/
theorem copied_lost (i : Index) (lost : lostRow s i = true) (quiet : SendsNoReport .tableFault s)
    (counts : mendedRow s i = false) :
    setParam (otherBank s.store.active) i (unused (s.param s.store.active i))
      (writeRow (otherBank s.store.active) i blankEntry
        (tell .tableFault (Poisoned s.store.active i (copied s i.val)))) = copied s (i.val + 1) := by
  have other := active_ne_shadow s
  have bad : badRow s i = true := by
    unfold badRow
    rw [lost, Bool.or_true]
  have row : copiedRow s i = ⟨blankEntry, []⟩ := by
    unfold copiedRow
    rw [bad]
    rfl
  have param : copiedParam s i = unused (s.param s.store.active i) := by
    unfold copiedParam
    rw [bad]
    rfl
  have left : leftParam s i = unused (s.policer.params.get s.store.active)[i] := by
    unfold leftParam
    rw [lost]
    rfl
  have stream : leftStream s i = { s.policer.streams[i] with credit := 0 } := by
    unfold leftStream
    rw [lost]
    rfl
  have mended : pickedBelow (i.val + 1) (mendedRow s) = pickedBelow i.val (mendedRow s) := by
    rw [pickedBelow_succ i (mendedRow s), counts]
    rfl
  have more : pickedBelow (i.val + 1) (lostRow s) = pickedBelow i.val (lostRow s) + 1 := by
    rw [pickedBelow_succ i (lostRow s), lost]
    rfl
  have exc : (copied s i.val).exc = s.exc ∨ (copied s i.val).exc = toldExc .tableFault s := by
    change copiedExc s i.val = _ ∨ copiedExc s i.val = _
    unfold copiedExc
    split
    · exact .inl rfl
    · exact .inr rfl
  have told := toldExc_told (f := .tableFault) (x := s) (y := copied s i.val) rfl exc
  have quiet' : SendsNoReport .tableFault (copied s i.val) := by
    rcases quiet with set | off
    · left
      rcases exc with same | same
      · rw [same]
        exact set
      · rw [same]
        unfold toldExc
        rw [if_pos set]
        exact set
    · exact .inr off
  have after : copiedExc s (i.val + 1) = toldExc .tableFault s := by
    unfold copiedExc
    rw [more, if_neg (Nat.succ_ne_zero _)]
  unfold copied copiedWith at told quiet' ⊢
  rw [faulted_tabled i quiet', written_tabled, told, twoUpTo_at other i, upTo_above i (Nat.le_refl _), ← stream, upTo_set,
    bankUpTo_set i true bad, bankUpTo_set i _ left, bankUpTo_set i _ row, twoUpTo_other other i false rfl,
    twoUpTo_other other i _ param, satPlus_add, mended, more, after]

/-! ### One access of the copy -/

/-- The four ways a row of the active bank stands. -/
def Readable (i : Index) (s : State) : Prop :=
  s.store.poisoned s.store.active i = true ∨ RowClean s.store.active i s ∨ RowCorrectable s.store.active i s ∨
    RowUncorrectable s.store.active i s

theorem clean_sound {i : Index} (row : RowClean s.store.active i s) : badRow s i = false ∧ mendedRow s i = false := by
  obtain ⟨sound, clean⟩ := row
  have none (w : Fin 6) : wordErrors (s.store.row s.store.active i) w = 0 := by simp [wordErrors, clean]
  constructor
  · unfold badRow
    rw [sound, Bool.false_or]
    unfold lostRow
    rw [decide_eq_false_iff_not]
    rintro ⟨-, w, two⟩
    rw [none] at two
    exact absurd two (by decide)
  · unfold mendedRow
    rw [decide_eq_false_iff_not]
    rintro ⟨-, -, w, one⟩
    rw [none] at one
    exact absurd one (by decide)

theorem mended_sound {i : Index} (row : RowCorrectable s.store.active i s) :
    badRow s i = false ∧ mendedRow s i = true := by
  refine ⟨?_, decide_eq_true row⟩
  obtain ⟨sound, most, -⟩ := row
  unfold badRow
  rw [sound, Bool.false_or]
  unfold lostRow
  rw [decide_eq_false_iff_not]
  rintro ⟨-, w, two⟩
  have := most w
  omega

theorem poisoned_bad {i : Index} (row : s.store.poisoned s.store.active i = true) :
    badRow s i = true ∧ mendedRow s i = false ∧ lostRow s i = false := by
  refine ⟨?_, ?_, ?_⟩
  · unfold badRow
    rw [row, Bool.true_or]
  · unfold mendedRow
    rw [decide_eq_false_iff_not]
    exact fun h => absurd (h.1.symm.trans row) (by decide)
  · unfold lostRow
    rw [decide_eq_false_iff_not]
    exact fun h => absurd (h.1.symm.trans row) (by decide)

theorem lost_bad {i : Index} (row : RowUncorrectable s.store.active i s) :
    lostRow s i = true ∧ badRow s i = true ∧ mendedRow s i = false := by
  have lost : lostRow s i = true := decide_eq_true row
  refine ⟨lost, ?_, ?_⟩
  · unfold badRow
    rw [lost, Bool.or_true]
  · unfold mendedRow
    rw [decide_eq_false_iff_not]
    rintro ⟨-, most, -⟩
    obtain ⟨-, w, two⟩ := row
    have := most w
    omega

section
variable {a : Bank} {i : Index} {x u : State} {e : StreamEntry}

theorem copyAccess_read (read : readRowOf a i x = (some e, u)) : copyAccess a i x =
    (false, setParam (otherBank a) i (u.param a i) (writeRow (otherBank a) i e u)) := by
  unfold copyAccess
  rw [read]

theorem copyAccess_unread (read : readRowOf a i x = (none, u)) : copyAccess a i x =
    (true, setParam (otherBank a) i (unused (u.param a i)) (writeRow (otherBank a) i blankEntry u)) := by
  unfold copyAccess
  rw [read]
  rfl

end

theorem poisoned_param (b : Bank) (i : Index) (x : State) : (Poisoned b i x).param b i = unused (x.param b i) := by
  change ((x.policer.params.set b ((x.policer.params.get b).set i.val (unused (x.param b i)))).get b)[i] = _
  rw [PerBank.get_set_self]
  exact Vector.getElem_set_self _

theorem pickedBelow_out {i : Index} {pick : Index → Bool} (out : pick i = false) :
    pickedBelow (i.val + 1) pick = pickedBelow i.val pick := by
  rw [pickedBelow_succ, out]
  rfl

/-- The row that is next is read as in the state before the copy. -/
theorem copied_reads {i : Index} : (RowClean s.store.active i (copied s i.val) ↔ RowClean s.store.active i s) ∧
    (RowCorrectable s.store.active i (copied s i.val) ↔ RowCorrectable s.store.active i s) ∧
    (RowUncorrectable s.store.active i (copied s i.val) ↔ RowUncorrectable s.store.active i s) := by
  obtain ⟨row, poisoned, -⟩ := copied_row (s := s) i
  unfold RowClean RowCorrectable RowUncorrectable
  rw [row, poisoned]
  exact ⟨Iff.rfl, Iff.rfl, Iff.rfl⟩

/-- An access of the copy, by the row. -/
theorem copyAccess_copied (i : Index) (readable : Readable i s)
    (quiet : lostRow s i = true → SendsNoReport .tableFault s) :
    copyAccess s.store.active i (copied s i.val) = (badRow s i, copied s (i.val + 1)) := by
  obtain ⟨row, poisoned, param⟩ := copied_row (s := s) i
  obtain ⟨clean, mended, lost⟩ := copied_reads (s := s) (i := i)
  rcases readable with h | h | h | h
  · obtain ⟨bad, uncounted, found⟩ := poisoned_bad h
    rw [copyAccess_unread (readRowOf_poisoned (poisoned.trans h)), param, bad]
    refine congrArg (Prod.mk true) (copied_next i found ?_ ?_ (by rw [pickedBelow_out uncounted]))
    · unfold copiedRow
      rw [bad]
      rfl
    · unfold copiedParam
      rw [bad]
      rfl
  · obtain ⟨good, uncounted⟩ := clean_sound h
    rw [copyAccess_read (readRowOf_clean (clean.2 h)), param, row, good]
    refine congrArg (Prod.mk false) (copied_next i (Bool.or_eq_false_iff.1 good).2 ?_ ?_
      (by rw [pickedBelow_out uncounted]))
    · unfold copiedRow
      rw [good]
      rfl
    · unfold copiedParam
      rw [good]
      rfl
  · obtain ⟨good, counted⟩ := mended_sound h
    have count : countCorrected 1 (copied s i.val) =
        copiedWith s i.val (satPlus s.store.corrected (pickedBelow (i.val + 1) (mendedRow s))) := by
      rw [pickedBelow_succ, counted, if_pos rfl, ← satPlus_add]
      rfl
    have param' : (countCorrected 1 (copied s i.val)).param s.store.active i = s.param s.store.active i := param
    rw [copyAccess_read (readRowOf_correctable (mended.2 h)), param', row, good, count]
    refine congrArg (Prod.mk false) (copied_next i (Bool.or_eq_false_iff.1 good).2 ?_ ?_ rfl)
    · unfold copiedRow
      rw [good]
      rfl
    · unfold copiedParam
      rw [good]
      rfl
  · obtain ⟨gone, bad, uncounted⟩ := lost_bad h
    have told := tell_out .tableFault (Poisoned s.store.active i (copied s i.val))
    have param' : (tell .tableFault (Poisoned s.store.active i (copied s i.val))).param s.store.active i =
        unused (s.param s.store.active i) := by
      rw [State.param, told.policer]
      exact (poisoned_param _ _ _).trans (congrArg unused param)
    rw [copyAccess_unread (readRowOf_uncorrectable (lost.2 h)), param', bad, ← copied_lost i gone (quiet gone) uncounted]
    rfl

end

section
variable {h : CmdHead} {b : BufId} {rest : List BufId} {s : State}

/-- An access of the copy does not depend on the command in hand. -/
theorem copyAccess_lifted {a : Bank} {i : Index} {x : State} (job : Job) (payload : List Byte)
    (row : x.store.poisoned a i = true ∨ RowClean a i x ∨ RowCorrectable a i x ∨ RowUncorrectable a i x)
    (quiet : RowUncorrectable a i x → SendsNoReport .tableFault x) :
    copyAccess a i (closing b job (atReceived h b rest payload s x)) =
      ((copyAccess a i x).1, closing b job (atReceived h b rest payload s (copyAccess a i x).2)) := by
  rcases row with row | row | row | row
  · rw [copyAccess_unread (x := closing b job (atReceived h b rest payload s x)) (readRowOf_poisoned row),
      copyAccess_unread (readRowOf_poisoned row)]
    rfl
  · rw [copyAccess_read (x := closing b job (atReceived h b rest payload s x)) (readRowOf_clean row),
      copyAccess_read (readRowOf_clean row)]
    rfl
  · rw [copyAccess_read (x := closing b job (atReceived h b rest payload s x)) (readRowOf_correctable row),
      copyAccess_read (readRowOf_correctable row)]
    rfl
  · rw [copyAccess_unread (x := closing b job (atReceived h b rest payload s x)) (readRowOf_uncorrectable row),
      copyAccess_unread (readRowOf_uncorrectable row),
      tell_quiet (s := Poisoned a i (closing b job (atReceived h b rest payload s x))) (quiet row),
      tell_quiet (s := Poisoned a i x) (quiet row)]
    rfl

theorem copied_quiet (n : Nat) (quiet : SendsNoReport .tableFault s) : SendsNoReport .tableFault (copied s n) := by
  rcases quiet with set | off
  · left
    change (copiedExc s n).flags.getLsbD _ = true
    unfold copiedExc toldExc
    rw [if_pos set, ite_self]
    exact set
  · exact .inr off

theorem untouched_copied (n : Nat) (s : State) : Untouched s (copied s n) := untouched_tabled

/-- COPY_ACTIVE_TO_SHADOW goes through the active rows. -/
theorem copies (can : CanWrite h b rest s) (free : s.store.port = .free) (readable : ∀ i, Readable i s)
    (quiet : ∀ i, lostRow s i = true → SendsNoReport .tableFault s) :
    CompletesAfter 256 (.copyActiveToShadow h) h b rest 0x0A .done
      (be16 (BitVec.ofNat 16 (pickedBelow 256 (badRow s))) ++ [bankCode (otherBank s.store.active)]) s (copied s 256) := by
  obtain ⟨ready, -, room⟩ := id can
  have begun : Untouched s (copyWindows (Reloaded s)) := by constructor <;> rfl
  have decoded : decodeCommand [0x0A] = .command .copy := rfl
  have row (n : Nat) (small : n < 256) (job : Job) : copyAccess s.store.active (Fin.ofNat 256 n)
      (closing b job (atReceived h b rest [0x0A] s (copied s n))) =
        (badRow s (Fin.ofNat 256 n), closing b job (atReceived h b rest [0x0A] s (copied s (n + 1)))) := by
    have val : (Fin.ofNat 256 n).val = n := Nat.mod_eq_of_lt small
    have step := copyAccess_copied (Fin.ofNat 256 n) (readable _) (quiet _)
    obtain ⟨clean, mended, lost⟩ := copied_reads (s := s) (i := Fin.ofNat 256 n)
    obtain ⟨-, poisoned, -⟩ := copied_row (s := s) (Fin.ofNat 256 n)
    rw [val] at step clean mended lost poisoned
    rw [copyAccess_lifted, step]
    · rcases readable (Fin.ofNat 256 n) with h | h | h | h
      · exact .inl (poisoned.trans h)
      · exact .inr (.inl (clean.2 h))
      · exact .inr (.inr (.inl (mended.2 h)))
      · exact .inr (.inr (.inr (lost.2 h)))
    · exact fun gone => copied_quiet n (quiet _ (decide_eq_true (lost.1 gone)))
  refine completes_accesses (c := .copyActiveToShadow h) (payload := [0x0A]) (job := .copy 0 0)
    (y := copyWindows (Reloaded s)) rfl ready free room (by simp) (begins_writing can (by simp) rfl decoded rfl) begun
    (untouched_copied 256 s) ?_
  refine row_accesses (a := s.store.active) (job := fun n => .copy (Fin.ofNat 256 n) (pickedBelow n (badRow s)))
    (y := fun n => atReceived h b rest [0x0A] s (copied s n)) (begun.atRest ready free) rfl ?_
    (fun _ _ _ => nofun) (fun n => (untouched_copied n s).atRest ready free) (fun _ => rfl) (fun _ => rfl)
    (fun n small => ?_) ?_
  · have start : copied s 0 = { copyWindows (Reloaded s) with store := { s.store with waitCount := 0 } } := by
      have none (pick : Index → Bool) : pickedBelow 0 pick = 0 := rfl
      unfold copied copiedWith copiedExc
      rw [bankUpTo_zero, bankUpTo_zero, bankUpTo_zero, bankUpTo_zero, bankUpTo_zero, upTo_zero, none, none, satPlus_zero,
        satPlus_zero, if_pos rfl]
      rfl
    dsimp only
    rw [start]
    rfl
  · have val : (Fin.ofNat 256 n).val = n := Nat.mod_eq_of_lt (by omega)
    have count := pickedBelow_succ (Fin.ofNat 256 n) (badRow s)
    rw [val] at count
    change concludeCopy b s.store.active (Fin.ofNat 256 n) _ _ = _
    unfold concludeCopy
    rw [row n (by omega), nextRow_below small]
    dsimp only
    rw [count]
    cases badRow s (Fin.ofNat 256 n) <;> rfl
  · have count := pickedBelow_succ (Fin.ofNat 256 255) (badRow s)
    change concludeCopy b s.store.active (Fin.ofNat 256 255) _ _ = _
    unfold concludeCopy
    rw [row 255 (by decide), nextRow_last]
    dsimp only
    rw [show pickedBelow 256 (badRow s) = _ from count]
    cases badRow s (Fin.ofNat 256 255) <;> rfl

end

theorem ofFn_same {α : Type} (r : α) : (Vector.ofFn fun _ : Fin 256 => r) = Vector.replicate 256 r := by
  refine Vector.ext fun i h => ?_
  rw [Vector.getElem_ofFn, Vector.getElem_replicate]

/-- All rows copied, where TABLE_FAULT is told with the state around it as it is at the end. -/
theorem copied_all {s x : State} (hx : x = { Reloaded s with
      windows := windowsWritten (otherBank s.store.active) (s.windows.records.get s.store.active) s
      store := { s.store with
        waitCount := 0
        corrected := satPlus s.store.corrected ((List.finRange 256).filter (mendedRow s)).length
        uncorrectable := satPlus s.store.uncorrectable ((List.finRange 256).filter (lostRow s)).length
        rows := s.store.rows.set (otherBank s.store.active) (Vector.ofFn (copiedRow s))
        poison := (s.store.poison.set (otherBank s.store.active) (Vector.replicate 256 false)).set s.store.active
          (Vector.ofFn (badRow s)) }
      policer := { s.policer with
        streams := Vector.ofFn (leftStream s)
        params := (s.policer.params.set (otherBank s.store.active) (Vector.ofFn (copiedParam s))).set s.store.active
          (Vector.ofFn (leftParam s)) } })
    (quiet : ((List.finRange 256).filter (lostRow s)).length = 0 ∨ SendsNoReport .tableFault s) :
    copied s 256 = if ((List.finRange 256).filter (lostRow s)).length = 0 then x else tell .tableFault x := by
  have all : copied s 256 = { x with exc := copiedExc s 256 } := by
    rw [hx]
    unfold copied copiedWith
    rw [bankUpTo_all, bankUpTo_all, bankUpTo_all, bankUpTo_all, bankUpTo_all, upTo_all, pickedBelow_all, pickedBelow_all,
      ofFn_same]
    rfl
  have exc : x.exc = s.exc := by rw [hx]; rfl
  have settings : x.agent.settings = s.agent.settings := by rw [hx]; rfl
  have told : toldExc .tableFault x = toldExc .tableFault s := toldExc_told settings (.inl exc)
  rw [all]
  unfold copiedExc
  rw [pickedBelow_all]
  by_cases none : ((List.finRange 256).filter (lostRow s)).length = 0
  · rw [if_pos none, if_pos none, ← exc]
  · rw [if_neg none, if_neg none, tell_quiet (s := x) (by rw [hx]; exact quiet.resolve_left none), told]

/-- Settles O43: the two commands through their 256 accesses. -/
theorem shadowIsCopiedAndCleared : Obligations.ShadowIsCopiedAndCleared := by
  rintro h b rest s can free bank rfl
  refine ⟨?_, fun readable lost bad hlost hbad corrected found blank hcorrected hfound hblank quiet x hx => ?_⟩
  · have all := clears can free
    unfold cleared windowsWritten at all
    rw [bankUpTo_all, bankUpTo_all, bankUpTo_all, ofFn_same, ofFn_same, openSetOf_unused blank_unused] at all
    exact all
  · obtain rfl : lost = lostRow s := hlost
    obtain rfl : bad = badRow s := hbad
    subst hcorrected hfound hblank
    have some_lost (i : Index) (gone : lostRow s i = true) : SendsNoReport .tableFault s := by
      refine quiet.resolve_left fun none => ?_
      rw [List.length_eq_zero_iff, List.filter_eq_nil_iff] at none
      exact none i (List.mem_finRange i) gone
    rw [← copied_all (x := x) hx quiet, ← pickedBelow_all]
    exact copies can free readable some_lost

end Sys2Proof.Machine
end

section
/-! SUPPORT. The arbiter by its ranks (R24, R124 to R127, R135, R138). -/

namespace Sys2Proof.Machine

/-! ### Whom the arbiter chooses -/

section
variable {s : State}

theorem grant_free (ready : s.store.phase = .ready) (free : s.store.port = .free) :
    grant s = (arbiterChoice s).map fun u => grantTo u s := by
  unfold grant
  rw [ready, free]

/-- The Scrubber's request is urgent (R125). -/
def urgentScrub (s : State) : Bool :=
  s.store.scrubRequest && decide (s.agent.settings.urgentLevel.toNat ≤ s.store.debt.val)

theorem arbiterChoice_urgent (urgent : urgentScrub s = true) : arbiterChoice s = some .scrub := if_pos urgent

theorem arbiterChoice_passedOver (calm : urgentScrub s = false) (asked : s.store.agentRequest = true)
    (waited : s.store.waitCount = 4) : arbiterChoice s = some (.agent s.store.active) := by
  unfold arbiterChoice
  rw [show (s.store.scrubRequest && _) = false from calm, asked, waited]
  rfl

/-- From rank 3 on: a Judge, the Agent, the Scrubber. -/
theorem arbiterChoice_ranked (calm : urgentScrub s = false)
    (patient : ¬(s.store.agentRequest = true ∧ s.store.waitCount = 4)) : arbiterChoice s =
      ((waitingJudge s).map PortUse.judge).or
        (if s.store.agentRequest then some (.agent s.store.active)
        else if s.store.scrubRequest then some .scrub else none) := by
  unfold arbiterChoice
  rw [show (s.store.scrubRequest && _) = false from calm, if_neg (by decide),
    if_neg (by rw [Bool.and_eq_true, beq_iff_eq]; exact patient)]
  cases waitingJudge s <;> rfl

theorem judgeWaiting_iff (p : Port) : s.judgeWaiting p = true ↔ ∃ it, (s.judges.get p).phase = .waiting it := by
  unfold State.judgeWaiting
  cases (s.judges.get p).phase <;> simp

/-- A waiting Judge whose turn it is (R127). -/
theorem waitingJudge_some {p : Port} {it : Item} (waits : (s.judges.get p).phase = .waiting it)
    (turn : (∀ it', (s.judges.get (otherPort p)).phase ≠ .waiting it') ∨ s.store.lastJudge = otherPort p) :
    waitingJudge s = some p := by
  have mine : s.judgeWaiting p = true := (judgeWaiting_iff p).2 ⟨it, waits⟩
  have turn : s.judgeWaiting (otherPort p) = false ∨ s.store.lastJudge = otherPort p := by
    refine turn.imp_left fun idle => ?_
    rw [Bool.eq_false_iff, Ne, judgeWaiting_iff]
    exact fun ⟨it', other⟩ => idle it' other
  unfold waitingJudge
  cases p with
  | n =>
    rw [mine]
    rcases turn with idle | last
    · rw [show s.judgeWaiting .f = false from idle]
      rfl
    · rw [last]
      cases s.judgeWaiting .f <;> rfl
  | f =>
    rw [mine]
    rcases turn with idle | last
    · rw [show s.judgeWaiting .n = false from idle]
      rfl
    · rw [last]
      cases s.judgeWaiting .n <;> rfl

/-! ### What a grant does -/

theorem nextWait_eq {wait : Fin 5} (h : wait.val = (if s.store.agentRequest then min (s.store.waitCount.val + 1) 4
    else s.store.waitCount.val)) : nextWait s.store = wait := by
  refine Fin.ext ?_
  rw [h]
  unfold nextWait
  split
  · split
    · change s.store.waitCount.val + 1 = _
      omega
    · change 4 = _
      omega
  · rfl

theorem grantTo_agent_eq (s : State) : grantTo (.agent s.store.active) s = { WrittenAtGrant s with
    store := { (WrittenAtGrant s).store with port := .agent s.store.active, agentRequest := false, waitCount := 0 } } := by
  unfold grantTo grantedWrite WrittenAtGrant
  simp only [State.setStore]
  cases s.agent.exec with
  | none => rfl
  | some x =>
    obtain ⟨b, job⟩ := x
    cases job <;> rfl

theorem grantTo_judge_eq {p : Port} {it : Item} (waits : (s.judges.get p).phase = .waiting it) :
    grantTo (.judge p) s = { s with
      judges := s.judges.set p { s.judges.get p with phase := .lookup it s.store.active }
      store := { s.store with port := .judge p, lastJudge := p, waitCount := nextWait s.store } } := by
  have begun : beginLookup s.store.active (s.judges.get p) =
      { s.judges.get p with phase := .lookup it s.store.active } := by rw [beginLookup, waits]
  rw [← begun]
  rfl

end

/-- Settles O32: the ranks in their order, and what each grant does. -/
theorem arbiterGrantsByRank : Obligations.ArbiterGrantsByRank := by
  intro s
  refine ⟨fun n sweeping => ?_, grant_busy, fun t granted n => settleFor_succ n (consequence_grant granted),
    fun ready free urgent hurgent wait hwait scrub agent hscrub hagent => ?_⟩
  · exact (grant_none_iff s).2 fun ready => absurd (sweeping.symm.trans ready) nofun
  · have urgent_iff : urgent ↔ urgentScrub s = true := by
      rw [hurgent, urgentScrub, Bool.and_eq_true, decide_eq_true_eq]
    have calm (h : ¬urgent) : urgentScrub s = false := by rw [Bool.eq_false_iff, Ne, ← urgent_iff]; exact h
    have toScrub : grantTo .scrub s = scrub := by
      rw [hscrub, ← nextWait_eq hwait]
      rfl
    have toAgent : grantTo (.agent s.store.active) s = agent := (grantTo_agent_eq s).trans (hagent _ rfl).symm
    rw [grant_free ready free]
    refine ⟨fun h => ?_, fun h asked waited => ?_, fun h patient p it waits turn => ?_, fun h idle => ?_⟩
    · rw [arbiterChoice_urgent (urgent_iff.1 h), ← toScrub]
      rfl
    · rw [arbiterChoice_passedOver (calm h) asked waited, ← toAgent]
      rfl
    · rw [arbiterChoice_ranked (calm h) patient, waitingJudge_some waits turn, ← nextWait_eq hwait,
        ← grantTo_judge_eq waits]
      rfl
    · have none : waitingJudge s = none := by
        rw [waitingJudge_none_iff]
        intro p
        rw [Bool.eq_false_iff, Ne, judgeWaiting_iff]
        exact fun ⟨it, waits⟩ => idle p it waits
      refine ⟨fun asked => ?_, fun unasked pending => ?_, fun unasked quiet => ?_⟩
      · by_cases waited : s.store.waitCount = 4
        · rw [arbiterChoice_passedOver (calm h) asked waited, ← toAgent]
          rfl
        · rw [arbiterChoice_ranked (calm h) fun both => waited both.2, none, asked, ← toAgent]
          rfl
      · rw [arbiterChoice_ranked (calm h) fun both => absurd (unasked.symm.trans both.1) (by decide), none, unasked,
          pending, ← toScrub]
        rfl
      · rw [arbiterChoice_ranked (calm h) fun both => absurd (unasked.symm.trans both.1) (by decide), none, unasked,
          quiet]
        rfl

end Sys2Proof.Machine
end

section
/-! SUPPORT. The tick at the Refill Timer: pulses and refills (R89, R93, R94, R107). -/

namespace Sys2Proof.Machine

section
variable {s : State}

/-- The state with the Refill Timer's tick taken. -/
def refillTaken (s : State) : State := { s with cal := { s.cal with refillTick := false } }

theorem pulseFalls_iff (s : State) :
    pulseFalls s = true ↔ s.cal.uptime.toNat % s.agent.settings.refillSource.period = 0 := by
  rw [pulseFalls, beq_iff_eq]

theorem timer_running_iff (s : State) : (s.policer.timer == .running) = true ↔ s.policer.timer = .running := by
  cases s.policer.timer <;> decide

theorem takeRefillTick_idle (due : s.cal.refillTick = true)
    (quiet : s.policer.timer ≠ .running ∨ s.cal.uptime.toNat % s.agent.settings.refillSource.period ≠ 0) :
    takeRefillTick s = refillTaken s := by
  have noPulse : ¬(pulseFalls s && s.policer.timer == .running) = true := by
    rw [Bool.and_eq_true, pulseFalls_iff, timer_running_iff]
    exact fun both => quiet.elim (· both.2) (· both.1)
  rw [takeRefillTick, if_pos due]
  exact if_neg noPulse

theorem takeRefillTick_pulse (due : s.cal.refillTick = true) (running : s.policer.timer = .running)
    (falls : s.cal.uptime.toNat % s.agent.settings.refillSource.period = 0) :
    takeRefillTick s = runningPulse (refillTaken s) := by
  rw [takeRefillTick, if_pos due]
  refine if_pos ?_
  rw [Bool.and_eq_true, pulseFalls_iff, timer_running_iff]
  exact ⟨falls, running⟩

theorem refillDue_iff (s : State) : refillDue s = true ↔ s.cal.refillTick = true ∧
    s.cal.uptime.toNat % s.agent.settings.refillSource.period = 0 ∧ s.policer.timer = .running ∧
    s.policer.count = 1 := by
  rw [refillDue, Bool.and_eq_true, Bool.and_eq_true, Bool.and_eq_true, pulseFalls_iff, timer_running_iff,
    beq_iff_eq, and_assoc, and_assoc]

theorem exec_refillPulse (s : State) : exec .refillPulse s = .next (takeRefillTick s) := rfl

theorem exec_refill_due (due : refillDue s = true) : exec .refill s = .next (takeRefillTick s) := if_pos due

theorem exec_refill_undue (undue : ¬refillDue s = true) : exec .refill s = .next s := if_neg undue

/-- A credit holds the refilled value without loss: the ceiling is a byte (R94). -/
theorem refilled_val (r : ParamRecord) (credit : BitVec 8) : (refilled r credit).toNat =
    if r.usable then min (credit.toNat + r.refill.toNat) r.ceiling.toNat else 0 := by
  unfold refilled
  split
  · have small : min (credit.toNat + r.refill.toNat) r.ceiling.toNat < 256 :=
      lt_of_le_of_lt (min_le_right _ _) r.ceiling.isLt
    rw [BitVec.toNat_ofNat, Nat.mod_eq_of_lt small]
  · rfl

theorem refillCredits_stream (s : State) (i : Index) : (refillCredits s).stream i =
    { s.stream i with credit := refilled (s.param s.store.active i) (s.stream i).credit } := by
  simp [refillCredits, State.stream]

theorem refillCredits_setTimer (t : TimerState) (count : BitVec 16) (s : State) :
    refillCredits (setTimer t count s) = setTimer t count (refillCredits s) := by
  simp [refillCredits, setTimer, State.param]

/-- What a refill leaves, in the form of a change of the state before it. -/
theorem refillNow_eq (running : s.policer.timer = .running) : refillNow s = { s with
    policer := { s.policer with
      count := s.agent.settings.refillPreset
      streams := (refillCredits s).policer.streams }
    hold := (trigger .refill s).hold } := by
  unfold refillNow
  rw [trigger_frame]
  have scans : (trigger .refill (refillCredits (setTimer .running s.agent.settings.refillPreset s))).hold =
      (trigger .refill s).hold := trigger_congr .refill (by simp [refillCredits, setTimer])
  rw [scans, refillCredits_setTimer, trigger_frame .refill s, ← running]
  simp [refillCredits, setTimer]

end

/-- Settles O23: the grid, the pulses off it, and the three pulses of a RUNNING Timer. -/
theorem refillPulsesAndRefills : Obligations.RefillPulsesAndRefills := by
  refine ⟨rfl, fun s => ⟨fun taken => ?_, ?_⟩⟩
  · rw [exec_refillPulse, takeRefillTick, if_neg (by rw [taken]; decide)]
  · rintro due x rfl
    refine ⟨fun quiet => ⟨?_, ?_⟩, fun running falls => ⟨fun empty => ?_, fun more => ?_, fun one => ?_⟩⟩
    · rw [exec_refillPulse, takeRefillTick_idle due quiet]
      rfl
    · refine exec_refill_undue fun h => ?_
      obtain ⟨-, falls, running, -⟩ := (refillDue_iff s).1 h
      exact quiet.elim (· running) (· falls)
    · have pulse : runningPulse (refillTaken s) = setTimer .running s.agent.settings.refillPreset (refillTaken s) :=
        if_pos empty
      rw [exec_refillPulse, takeRefillTick_pulse due running falls, pulse, ← running]
      rfl
    · have notEmpty : s.policer.count ≠ 0 := fun h => by rw [h] at more; exact absurd more (by decide)
      have notOne : s.policer.count ≠ 1 := fun h => by rw [h] at more; exact absurd more (by decide)
      have pulse : runningPulse (refillTaken s) = setTimer .running (s.policer.count - 1) (refillTaken s) := by
        rw [runningPulse, if_neg (show (refillTaken s).policer.count ≠ 0 from notEmpty),
          if_neg (show (refillTaken s).policer.count ≠ 1 from notOne)]
        rfl
      rw [exec_refillPulse, takeRefillTick_pulse due running falls, pulse, ← running]
      rfl
    · have notEmpty : s.policer.count ≠ 0 := by rw [one]; decide
      have pulse : takeRefillTick s = refillNow (refillTaken s) := by
        rw [takeRefillTick_pulse due running falls, runningPulse,
          if_neg (show (refillTaken s).policer.count ≠ 0 from notEmpty)]
        exact if_pos one
      have refill : exec .refill s = .next (refillNow (refillTaken s)) := by
        rw [exec_refill_due ((refillDue_iff s).2 ⟨due, falls, running, one⟩), pulse]
      have stream (i : Index) : (refillNow (refillTaken s)).stream i =
          { s.stream i with credit := refilled (s.param s.store.active i) (s.stream i).credit } := by
        rw [refillNow_eq (s := refillTaken s) running]
        exact refillCredits_stream (refillTaken s) i
      refine ⟨by rw [refill, exec_refillPulse, pulse], _, refill, fun i => ?_, fun i => ?_, ?_⟩
      · rw [stream, refilled_val]
      · rw [stream]
      · rw [refillNow_eq (s := refillTaken s) running,
          show (trigger .refill (refillTaken s)).hold = (trigger .refill s).hold from trigger_congr .refill rfl]
        rfl

end Sys2Proof.Machine
end

section
/-! SUPPORT. The tick at the Scrubber: the interval expiry (R125, R129 to R131). -/

namespace Sys2Proof.Machine

/-- What leaves all but the pool, the Transmit Units and the Exception Unit adds no other consequence. -/
theorem GrantsAndCommands.out {s t : State} (h : GrantsAndCommands s) (a : SameButOut s t) (b : SameUptimes s t) :
    GrantsAndCommands t where
  bindings p := endReached_none_congr p (by rw [a.judges])
    (fun d w => by rw [someWaiting_congr p d a.judges (fun c _ => b c)]; exact w) (h.bindings p)
  places p := placeRequest_none_congr p (by rw [a.hold]) (by rw [a.hold]) (h.places p)
  slots p := takeSlot_none_congr p (by rw [a.judges]) (by rw [a.judges]) (h.slots p)
  arrivals p := takeArrival_none_congr p (by rw [a.judges]) (h.arrivals p)

/-- The calendar has no part in what follows, and of the Table Store and the parameters only grants and commands read. -/
theorem GrantsAndCommands.setCal {s : State} (h : GrantsAndCommands s) (c : Calendar) :
    GrantsAndCommands { s with cal := c } where
  bindings p := endReached_none_congr (s := s) p rfl (fun _ w => w) (h.bindings p)
  places p := placeRequest_none_congr (s := s) p rfl rfl (h.places p)
  slots p := takeSlot_none_congr (s := s) p rfl rfl (h.slots p)
  arrivals p := takeArrival_none_congr (s := s) p rfl (h.arrivals p)

section
variable {s z : State}

/-- The state with the Scrubber's tick taken. -/
def scrubTaken (s : State) : State := { s with cal := { s.cal with scrubTick := false } }

theorem exec_expiry (s : State) : exec .scrubIntervalExpiry s = .next (takeScrubTick s) := rfl

theorem expiryFalls_iff (s : State) : expiryFalls s = true ↔ s.store.phase = .ready ∧ s.cal.uptime ≠ 0 ∧
    s.cal.uptime.toNat % (s.agent.settings.scrubInterval.toNat * 16) = 0 := by
  have phase : (s.store.phase == .ready) = true ↔ s.store.phase = .ready := by
    cases s.store.phase with
    | ready => exact ⟨fun _ => rfl, fun _ => by decide⟩
    | initializing n => exact ⟨nofun, nofun⟩
  rw [expiryFalls, Bool.and_eq_true, Bool.and_eq_true, phase, bne_iff_ne, beq_iff_eq, and_assoc]

theorem atExpiry_eq (t : TableStore) : t.atExpiry = { t with
    scrubRequest := true
    debt := if h : t.scrubRequest = true ∧ t.debt.val < 15 then ⟨t.debt.val + 1, by omega⟩ else t.debt } := by
  unfold TableStore.atExpiry
  by_cases pending : t.scrubRequest = true
  · by_cases low : t.debt.val < 15
    · rw [if_pos pending, dif_pos low, dif_pos ⟨pending, low⟩]
      simp only [pending]
    · rw [if_pos pending, dif_neg low, dif_neg fun both => low both.2, ← pending]
  · rw [if_neg pending, dif_neg fun both => pending both.1]

/-- Where the port is free, nothing but the Scrubber's new request can be pending. -/
theorem arbiterChoice_expired (unasked : z.store.agentRequest = false) (idle : waitingJudge z = none)
    (pending : z.store.scrubRequest = true) : arbiterChoice z = some .scrub := by
  cases urgent : urgentScrub z with
  | true => exact arbiterChoice_urgent urgent
  | false =>
    have patient : ¬(z.store.agentRequest = true ∧ z.store.waitCount = 4) := fun both =>
      absurd (unasked.symm.trans both.1) (by decide)
    rw [arbiterChoice_ranked urgent patient, idle, unasked, pending]
    rfl

theorem grantTo_scrub_unasked (unasked : z.store.agentRequest = false) :
    grantTo .scrub z = { z with store := { z.store with port := .scrub } } := by
  have wait : nextWait z.store = z.store.waitCount := by rw [nextWait, unasked]; rfl
  unfold grantTo
  rw [wait]
  rfl

/-- What follows an expiry: the grant of a free port to the Scrubber, and no more. -/
theorem settle_expired (before : Settled s) (ready : s.store.phase = .ready) (after : GrantsAndCommands z)
    (judges : z.judges = s.judges) (agent : z.agent = s.agent) (store : z.store = s.store.atExpiry) :
    settle z = if s.store.port = .free then { z with store := { z.store with port := .scrub } } else z := by
  have phase : z.store.phase = s.store.phase := by rw [store, atExpiry_eq]
  have port : z.store.port = s.store.port := by rw [store, atExpiry_eq]
  have commands : beginCommand z = none :=
    beginCommand_none_congr (by rw [agent]) (by rw [agent]) phase before.beginCommand
  by_cases free : s.store.port = .free
  · obtain ⟨-, unasked, idle⟩ := (arbiterChoice_none_iff s).1 ((grant_none_iff s).1 before.grant ready free)
    have unasked : z.store.agentRequest = false := by rw [store, atExpiry_eq]; exact unasked
    have idle : waitingJudge z = none := by
      rw [waitingJudge_none_iff] at idle ⊢
      intro p
      unfold State.judgeWaiting
      rw [judges]
      exact idle p
    have pending : z.store.scrubRequest = true := by rw [store, atExpiry_eq]
    have granted : grant z = some { z with store := { z.store with port := .scrub } } := by
      rw [grant_free (phase.trans ready) (port.trans free), arbiterChoice_expired unasked idle pending,
        ← grantTo_scrub_unasked unasked]
      rfl
    have ended : Settled { z with store := { z.store with port := .scrub } } :=
      (after.granted granted).settled (grant_busy nofun)
        (beginCommand_none_congr (s := z) rfl rfl rfl commands) rfl
    rw [if_pos free]
    have steps := settleFor_succ 1023 (GrantsAndCommands.consequence_grant granted)
    rw [settleFor_settled 1023 ended] at steps
    exact steps
  · have opens : openPort z = none := by
      have shut := before.openPort
      unfold openPort at shut ⊢
      rw [port]
      cases use : s.store.port with
      | closing => rw [use] at shut; cases shut
      | free | judge p | agent b | scrub | sweep => rfl
    rw [if_neg free]
    exact settle_settled (after.settled (grant_busy (by rw [port]; exact free)) commands opens)

theorem urgentTest_uptimes (s : State) : SameUptimes s (urgentTest s) := by
  unfold urgentTest
  split
  · exact tell_uptimes _ s
  · exact .refl s

theorem takeScrubTick_idle (due : s.cal.scrubTick = true) (none : ¬expiryFalls s = true) :
    takeScrubTick s = scrubTaken s := by
  rw [takeScrubTick, if_pos due]
  exact if_neg none

theorem takeScrubTick_expiry (due : s.cal.scrubTick = true) (falls : expiryFalls s = true) :
    takeScrubTick s = settle (scrubExpiry (scrubTaken s)) := by
  rw [takeScrubTick, if_pos due]
  exact if_pos falls

end

/-- Settles O24: off the grid nothing; on it the request or the debt, the flag, and the grant of a free port. -/
theorem scrubIntervalRaisesTheRequest : Obligations.ScrubIntervalRaisesTheRequest := by
  intro s settled
  refine ⟨fun taken => ?_, ?_⟩
  · rw [exec_expiry, takeScrubTick, if_neg (by rw [taken]; decide)]
  · rintro due x rfl
    refine ⟨fun quiet => ?_, fun ready early grid => ?_⟩
    · have none : ¬expiryFalls s = true := by
        rw [expiryFalls_iff]
        rintro ⟨ready, early, grid⟩
        exact quiet.elim (· ready) fun h => h.elim early fun h => h grid
      rw [exec_expiry, takeScrubTick_idle due none]
      rfl
    · rintro y rfl z hz
      have expired : scrubExpiry (scrubTaken s) = z := by
        rw [hz, ← atExpiry_eq]
        rfl
      have before : GrantsAndCommands { scrubTaken s with store := s.store.atExpiry } :=
        (settled.grantsAndCommands.setCal _).setTable s.store.atExpiry s.policer
      have same := urgentTest_out { scrubTaken s with store := s.store.atExpiry }
      have after : GrantsAndCommands z := by
        rw [← expired]
        exact before.out same (urgentTest_uptimes _)
      have fields : z.judges = s.judges ∧ z.agent = s.agent ∧ z.store = s.store.atExpiry := by
        rw [← expired]
        exact ⟨same.judges, same.agent, same.store⟩
      obtain ⟨judges, agent, store⟩ := fields
      rw [exec_expiry, takeScrubTick_expiry due ((expiryFalls_iff s).2 ⟨ready, early, grid⟩), expired,
        settle_expired settled ready after judges agent store]

end Sys2Proof.Machine
end

section
/-! SUPPORT. What is told and handed over has no part in the Receive Units, the Judges, the Table Store, the Policer and
the Hold Queue, but for the number of held records (R44, R170, R176, R177). -/

namespace Sys2Proof.Machine

/-- The blocks of which no Report and no Exception Record reads more than the number of held records, changed. -/
def refit (rx : PerPort RxUnit) (j : PerPort Judge) (x : TableStore) (y : Policer) (h : HoldQueue) (s : State) : State :=
  { s with rx := rx, judges := j, store := x, policer := y, hold := h }

section
variable (rx : PerPort RxUnit) (j : PerPort Judge) (x : TableStore) (y : Policer) {h : HoldQueue} {s : State}

theorem reportWritten_refit (number : h.records.length = s.hold.records.length) (f : Flag) (a : Addr) (b : BufId)
    (rest : List BufId) : reportWritten f a b rest (refit rx j x y h s) = refit rx j x y h (reportWritten f a b rest s) := by
  have payload : reportPayload f (refit rx j x y h s) = reportPayload f s := by
    unfold reportPayload
    rw [show (refit rx j x y h s).hold.records.length = s.hold.records.length from number]
    rfl
  have buffer : reportBuffer f a b (refit rx j x y h s) = reportBuffer f a b s := by
    unfold reportBuffer
    rw [payload]
    rfl
  unfold reportWritten
  rw [buffer]
  rfl

theorem sendReport_refit (number : h.records.length = s.hold.records.length) (f : Flag) :
    sendReport f (refit rx j x y h s) = refit rx j x y h (sendReport f s) := by
  have same : reportWanted f (refit rx j x y h s) = reportWanted f s := rfl
  cases wanted : reportWanted f s with
  | none =>
    unfold sendReport
    rw [same, wanted]
  | some a =>
    cases free : s.pool.free with
    | nil =>
      rw [sendReport_noBuffer wanted free,
        sendReport_noBuffer (s := refit rx j x y h s) (same.trans wanted) free]
      rfl
    | cons b rest =>
      rw [sendReport_buffer wanted free,
        sendReport_buffer (s := refit rx j x y h s) (same.trans wanted) free, reportWritten_refit rx j x y number]
      generalize reportWritten f a b rest s = u
      unfold txAppend
      have room : listRoom ((refit rx j x y h u).tx.get .f) .normal = listRoom (u.tx.get .f) .normal := rfl
      rw [room]
      cases listRoom (u.tx.get .f) .normal <;> rfl

theorem tell_refit (number : h.records.length = s.hold.records.length) (f : Flag) :
    tell f (refit rx j x y h s) = refit rx j x y h (tell f s) := by
  cases clear : s.exc.flags.getLsbD f.bit with
  | true => rw [tell_set clear, tell_set (s := refit rx j x y h s) clear]
  | false =>
    rw [tell_clear clear, tell_clear (s := refit rx j x y h s) clear,
      ← sendReport_refit (s := risen f s) rx j x y number]
    rfl

theorem loseRecord_refit (number : h.records.length = s.hold.records.length) :
    loseRecord (refit rx j x y h s) = refit rx j x y h (loseRecord s) :=
  tell_refit (s := s.setExc { s.exc with lost := satAdd s.exc.lost }) rx j x y number .excLost

theorem handOver_refit (number : h.records.length = s.hold.records.length) (r : Handed) :
    handOver r (refit rx j x y h s) = refit rx j x y h (handOver r s) := by
  rcases List.eq_nil_or_concat s.exc.queue with empty | ⟨l, n, q⟩
  · rw [handOver_empty empty, handOver_empty (s := refit rx j x y h s) empty]
    exact tell_refit (s := s.setExc { s.exc with queue := [freshRecord r s] }) rx j x y number .exception
  · rw [List.concat_eq_append] at q
    rw [handOver_newest q, handOver_newest (s := refit rx j x y h s) q, loseRecord_refit rx j x y number]
    change (if _ then if _ then _ else _ else if 16 ≤ s.exc.queue.length then _ else _) = _
    split
    · split <;> rfl
    · split <;> rfl

end

section
variable {s t : State}

theorem refit_store (same : SameButOut s t) (x : TableStore) :
    refit s.rx s.judges x s.policer s.hold t = { t with store := x } := by
  rw [← same.rx, ← same.judges, ← same.policer, ← same.hold]
  rfl

theorem refit_judges (same : SameButOut s t) (j : PerPort Judge) :
    refit s.rx j s.store s.policer s.hold t = { t with judges := j } := by
  rw [← same.rx, ← same.store, ← same.policer, ← same.hold]
  rfl

theorem tell_store (f : Flag) (x : TableStore) (s : State) : tell f { s with store := x } = { tell f s with store := x } :=
  (tell_refit s.rx s.judges x s.policer (h := s.hold) rfl f).trans (refit_store (tell_out f s) x)

theorem handOver_store (r : Handed) (x : TableStore) (s : State) :
    handOver r { s with store := x } = { handOver r s with store := x } :=
  (handOver_refit s.rx s.judges x s.policer (h := s.hold) rfl r).trans (refit_store (handOver_out r s) x)

theorem tell_judges (f : Flag) (j : PerPort Judge) (s : State) :
    tell f { s with judges := j } = { tell f s with judges := j } :=
  (tell_refit s.rx j s.store s.policer (h := s.hold) rfl f).trans (refit_judges (tell_out f s) j)

theorem handOver_judges (r : Handed) (j : PerPort Judge) (s : State) :
    handOver r { s with judges := j } = { handOver r s with judges := j } :=
  (handOver_refit s.rx j s.store s.policer (h := s.hold) rfl r).trans (refit_judges (handOver_out r s) j)

end

end Sys2Proof.Machine
end

section
/-! SUPPORT. The step of the Scrubber (R119 to R121, R132). -/

namespace Sys2Proof.Machine

/-! ### Which place a step reads -/

section
variable {t : TableStore}

theorem scrubPlace_none (all : ∀ b i, t.poisoned b i = true) : scrubPlace t = none := by
  unfold scrubPlace
  rw [List.find?_eq_none]
  intro n _
  rw [all]
  decide

theorem scrubPlace_first {k : Fin 512}
    (before : ∀ j < k, t.poisoned (placePair (t.pointer + j)).1 (placePair (t.pointer + j)).2 = true)
    (here : t.poisoned (placePair (t.pointer + k)).1 (placePair (t.pointer + k)).2 = false) :
    scrubPlace t = some (t.pointer + k) := by
  unfold scrubPlace
  rw [List.find?_eq_some_iff_getElem]
  refine ⟨by rw [here]; rfl, k.val, by simp, by simp, fun j hj => ?_⟩
  have poisoned := before ⟨j, hj.trans k.isLt⟩ hj
  simp only [List.getElem_map, List.getElem_finRange]
  simpa using poisoned

end

/-! ### What the port of the table has no part in -/

section
variable {x t : State} {u : PortUse}

/-- The Table Store with its port put to a use. -/
def portPut (u : PortUse) (s : State) : State := { s with store := { s.store with port := u } }

theorem writtenAtGrant_portPut : WrittenAtGrant (portPut u x) = portPut u (WrittenAtGrant x) := by
  unfold WrittenAtGrant
  rw [show (portPut u x).agent = x.agent from rfl]
  split <;> rfl

theorem requested_portPut (p : Port) : Requested p (portPut u x) = portPut u (Requested p x) := by
  have outstanding : (portPut u x).hold.outstanding = x.hold.outstanding := rfl
  have records : (portPut u x).hold.records = x.hold.records := rfl
  unfold Requested
  rw [outstanding, records]
  split <;> rfl

/-- What follows of a state follows of it whatever use its port was in. -/
theorem FollowsOnly.ofPort (h : FollowsOnly (portPut u x) t) : FollowsOnly x t := by
  obtain ⟨⟨asked, same⟩, left, settled⟩ := h
  refine ⟨⟨asked, ?_⟩, fun p named => ?_, settled⟩
  · rw [writtenAtGrant_portPut] at same
    by_cases both : x.store.agentRequest = true ∧ t.store.agentRequest = false
    · rw [if_pos (show (portPut u x).store.agentRequest = true ∧ _ from both)] at same
      rw [if_pos both]
      exact same
    · rw [if_neg (show ¬((portPut u x).store.agentRequest = true ∧ _) from both)] at same
      rw [if_neg both]
      exact same
  · have requests := left p named
    rw [requested_portPut] at requests
    exact requests

end

/-! ### The step -/

section
variable {s : State}

/-- The request and the debt at the end of a step (R132). -/
def debtPaid (s : State) : State := { s with store := { s.store with
  scrubRequest := s.store.scrubRequest && decide (0 < s.store.debt.val)
  debt := ⟨s.store.debt.val - 1, by omega⟩ } }

theorem scrubSettleDebt_eq (s : State) : scrubSettleDebt s = debtPaid s := by
  unfold scrubSettleDebt debtPaid
  by_cases owed : 0 < s.store.debt.val
  · rw [dif_pos owed, decide_eq_true owed, Bool.and_true]
    rfl
  · have paid : s.store.debt = ⟨s.store.debt.val - 1, by omega⟩ := 
      Fin.ext (show s.store.debt.val = s.store.debt.val - 1 by omega)
    rw [dif_neg owed, decide_eq_false owed, Bool.and_false, ← paid]
    rfl

/-- The state after a step whose read left `u`. -/
def stepped (n : Fin 512) (u : State) : State :=
  debtPaid { u with store := { u.store with pointer := n + 1 } }

theorem scrubStepEffect_some {n : Fin 512} (place : scrubPlace s.store = some n) :
    scrubStepEffect s = stepped n (scrubRead n s) := by
  unfold scrubStepEffect
  rw [place]
  exact scrubSettleDebt_eq _

theorem scrubStepEffect_none (place : scrubPlace s.store = none) : scrubStepEffect s = debtPaid s := by
  unfold scrubStepEffect
  rw [place]
  exact scrubSettleDebt_eq _

theorem exec_scrubStep (port : s.store.port = .scrub) :
    exec .scrubStep s = .next (settle (concludeAccess (scrubStepEffect s))) := by
  change Host.Outcome.next (scrubStepNow s) = _
  rw [scrubStepNow, port]

theorem OnlyRequests.table {t : State} (h : OnlyRequests s) (phase : t.store.phase = s.store.phase)
    (agent : t.agent = s.agent) (pool : t.pool = s.pool) (judges : t.judges = s.judges) : OnlyRequests t :=
  h.congr phase agent pool fun p => by rw [judges]; exact ⟨rfl, rfl, rfl, id⟩

/-- After the step only the arbiter and the requests have something to do. -/
theorem settle_step {u : State} (h : OnlyRequests u) : FollowsOnly u (settle (concludeAccess u)) :=
  FollowsOnly.ofPort (u := .closing) (settle_follows (OnlyRequests.table (s := u) h rfl rfl rfl rfl))

variable {b : Bank} {i : Index} {n : Fin 512}

theorem scrubRead_clean (place : placePair n = (b, i)) (row : RowClean b i s) : scrubRead n s = s := by
  unfold scrubRead
  rw [place, readRow_of_clean _ row.2]
  rfl

theorem scrubRead_correctable (place : placePair n = (b, i)) (row : RowCorrectable b i s) :
    scrubRead n s = { s with store := { s.store with
      rows := s.store.rows.set b ((s.store.rows.get b).set i.val ⟨(s.store.row b i).entry, []⟩)
      scrubCorrected := if s.store.scrubCorrected = 65535 then 65535 else s.store.scrubCorrected + 1 } } := by
  obtain ⟨-, most, one⟩ := row
  unfold scrubRead
  rw [place, readRow_of_correctable _ most one, ← satAdd_half]
  rfl

theorem scrubRead_uncorrectable (place : placePair n = (b, i)) (row : RowUncorrectable b i s) :
    scrubRead n s = tell .tableFault (Poisoned b i s) := by
  unfold scrubRead
  rw [place, readRow_of_uncorrectable _ row.2, ← joinPoison_eq]
  rfl

/-- The step's end and the flag touch different blocks. -/
theorem stepped_fault (n : Fin 512) (b : Bank) (i : Index) (s : State) :
    stepped n (tell .tableFault (Poisoned b i s)) = tell .tableFault (Poisoned b i (stepped n s)) := by
  have told : tell .tableFault (Poisoned b i (stepped n s)) =
      { tell .tableFault (Poisoned b i s) with store := (stepped n (Poisoned b i s)).store } :=
    tell_store .tableFault (stepped n (Poisoned b i s)).store (Poisoned b i s)
  have store : (tell .tableFault (Poisoned b i s)).store = (Poisoned b i s).store := (tell_out _ _).store
  rw [told, stepped, debtPaid]
  dsimp only
  rw [store]
  rfl

end

/-- Settles O25: the place, the read, and what follows the release of the port. -/
theorem scrubStepChecksOneRow : Obligations.ScrubStepChecksOneRow := by
  refine ⟨fun r draws e => readRow_clean, fun s port settled all => ?_, fun s port settled k before b i place => ?_⟩
  · refine ⟨_, exec_scrubStep port, ?_⟩
    rw [scrubStepEffect_none (scrubPlace_none all)]
    exact settle_step (settled.onlyRequests.table rfl rfl rfl rfl)
  · refine ⟨_, exec_scrubStep port, ?_⟩
    rintro x rfl
    have step (sound : s.store.poisoned b i = false) :
        scrubStepEffect s = stepped (s.store.pointer + k) (scrubRead (s.store.pointer + k) s) :=
      scrubStepEffect_some (scrubPlace_first before (by rw [place]; exact sound))
    refine ⟨fun row => ?_, fun row => ?_, fun row => ?_⟩
    · rw [step row.1, scrubRead_clean place row]
      exact settle_step (settled.onlyRequests.table rfl rfl rfl rfl)
    · rw [step row.1, scrubRead_correctable place row]
      exact settle_step (settled.onlyRequests.table rfl rfl rfl rfl)
    · have after : OnlyRequests (tell .tableFault (Poisoned b i (stepped (s.store.pointer + k) s))) :=
        OnlyRequests.out (s := Poisoned b i (stepped (s.store.pointer + k) s))
          (settled.onlyRequests.table rfl rfl rfl rfl) (tell_out _ _) (tell_uptimes _ _)
      rw [step row.1, scrubRead_uncorrectable place row, stepped_fault]
      exact settle_step after

end Sys2Proof.Machine
end

section
/-! SUPPORT. A good reception (R8, R11), and what a Judge makes of an arrival (R20 to R24, R45 to R47). -/

namespace Sys2Proof.Machine

/-! ### The end of a good reception (R8, R11) -/

/-- The buffer of a reception in progress is not free, with no Judge and of no held record. -/
theorem filling_alone {s : State} {p : Port} {buf : BufId} (place : EachBufferInOnePlace s)
    (filling : (s.rx.get p).phase = .filling buf) : buf ∉ s.pool.free ∧ (∀ q, buf ∉ judgePlaces (s.judges.get q)) ∧
      ∀ r ∈ s.hold.records, r.buffer ≠ buf := by
  have distinct : (places s).Nodup := place.nodup_iff.2 (List.nodup_finRange 64)
  have mine : buf ∈ rxPlaces s.rx.n ++ rxPlaces s.rx.f := by
    have here : buf ∈ rxPlaces (s.rx.get p) := by
      unfold rxPlaces
      rw [filling]
      exact List.mem_singleton_self buf
    cases p with
    | n => exact List.mem_append_left _ here
    | f => exact List.mem_append_right _ here
  have apart : places s = s.pool.free ++ ((rxPlaces s.rx.n ++ rxPlaces s.rx.f) ++
      ((judgePlaces s.judges.n ++ judgePlaces s.judges.f) ++ (agentPlaces s.agent ++ (s.hold.records.map (·.buffer) ++
        (txPlaces s.tx.n ++ txPlaces s.tx.f))))) := by
    simp only [places, List.append_assoc]
  rw [apart] at distinct
  obtain ⟨-, rest, beside⟩ := List.nodup_append.1 distinct
  obtain ⟨-, -, after⟩ := List.nodup_append.1 rest
  refine ⟨fun free => beside buf free buf (List.mem_append_left _ mine) rfl, fun q judged => ?_, fun r hr same => ?_⟩
  · refine after buf mine buf (List.mem_append_left _ ?_) rfl
    cases q with
    | n => exact List.mem_append_left _ judged
    | f => exact List.mem_append_right _ judged
  · have held : buf ∈ s.hold.records.map (·.buffer) := List.mem_map.2 ⟨r, hr, same⟩
    exact after buf mine buf (List.mem_append_right _ (List.mem_append_right _ (List.mem_append_left _ held))) rfl

/-- The state at the last byte of a good reception, up to the arrival at the Judge. -/
def goodEnd (p : Port) (buf : BufId) (b : Byte) (s : State) : State := { s with
  pool := poolWith s buf ⟨storedBytes (s.buffer buf) b, p, ((s.rx.get p).framing.next b).expected,
    ⟨s.cal.day, s.cal.secondOfDay, s.cal.sub⟩, s.cal.quality, s.cal.uptime⟩ s.pool.free
  rx := s.rx.set p { s.rx.get p with
    phase := .settling
    good := (s.rx.get p).good + 1
    framing := (s.rx.get p).framing.next b
    tail := lastTwo (s.rx.get p) b } }

/-- A buffer at the end of a Judge's arrival list. -/
def arrived (p : Port) (buf : BufId) (s : State) : State := { s with
  judges := s.judges.set p { s.judges.get p with arrivals := (s.judges.get p).arrivals ++ [buf] } }

section
variable {s : State} {p : Port} {buf : BufId} {b : Byte}

theorem arrive_byteStored (last : ((s.rx.get p).framing.next b).ended = true) :
    arrive p buf ((s.rx.get p).framing.next b).expected (byteStored p buf b s) = arrived p buf (goodEnd p buf b s) := by
  have unit := byteStored_unit p buf b s
  have buffer := byteStored_buffer p buf b s
  unfold arrive arrived goodEnd
  simp only [State.mapRx, State.mapJudge, State.setBuffer, State.setPool, State.setRx, State.setJudges, buffer, unit]
  rw [take_last last]
  simp [byteStored, poolWith, arrivalDescriptor, Calendar.stamp]

theorem exec_goodEnd (filling : (s.rx.get p).phase = .filling buf)
    (last : ((s.rx.get p).framing.next b).ended = true) (sum : (s.rx.get p).sum = lastTwo (s.rx.get p) b)
    (form : formError (storedBytes (s.buffer buf) b) ((s.rx.get p).framing.next b).expected = false) :
    exec (.receptionEnd p b) s = .next (settle (arrived p buf (goodEnd p buf b s))) := by
  change Host.Outcome.next (lineByte p b s) = _
  rw [lineByte_filling filling, fillByte_eq, if_pos last]
  unfold endReception
  dsimp only
  rw [byteStored_unit, byteStored_buffer, take_last last]
  dsimp only
  rw [if_neg (not_not.2 sum), form, if_neg (by decide), arrive_byteStored last]

theorem goodEnd_buffer (p : Port) (buf : BufId) (b : Byte) (s : State) : (goodEnd p buf b s).buffer buf =
    ⟨storedBytes (s.buffer buf) b, p, ((s.rx.get p).framing.next b).expected,
      ⟨s.cal.day, s.cal.secondOfDay, s.cal.sub⟩, s.cal.quality, s.cal.uptime⟩ := by
  simp [goodEnd, State.buffer, poolWith]

theorem goodEnd_other {c : BufId} (other : c ≠ buf) : (goodEnd p buf b s).buffer c = s.buffer c := by
  have apart : (buf : Nat) ≠ c := fun e => other (Fin.ext e.symm)
  simp [goodEnd, State.buffer, poolWith, Vector.getElem_set_ne, apart]

theorem goodEnd_uptimes (place : EachBufferInOnePlace s) (filling : (s.rx.get p).phase = .filling buf) (q : Port)
    (c : BufId) (judged : c ∈ judgePlaces (s.judges.get q)) :
    ((goodEnd p buf b s).buffer c).desc.uptime = (s.buffer c).desc.uptime := by
  have other : c ≠ buf := by
    rintro rfl
    exact (filling_alone place filling).2.1 q judged
  rw [goodEnd_other other]

theorem goodEnd_settled (settled : Settled s) (place : EachBufferInOnePlace s)
    (filling : (s.rx.get p).phase = .filling buf) : Settled (goodEnd p buf b s) :=
  settled.congr rfl rfl rfl rfl rfl rfl rfl (goodEnd_uptimes place filling)

/-! ### An arrival at a settled gate -/

theorem arrived_judge (p q : Port) (buf : BufId) (s : State) : (arrived p buf s).judges.get q =
    if q = p then { s.judges.get p with arrivals := (s.judges.get p).arrivals ++ [buf] } else s.judges.get q :=
  PerPort.get_set ..

theorem arrived_parts (p q : Port) (buf : BufId) (s : State) :
    ((arrived p buf s).judges.get q).phase = (s.judges.get q).phase ∧
      ((arrived p buf s).judges.get q).slot = (s.judges.get q).slot ∧
      ((arrived p buf s).judges.get q).bind = (s.judges.get q).bind := by
  rw [arrived_judge]
  split
  case isTrue e => rw [e]; exact ⟨rfl, rfl, rfl⟩
  case isFalse => exact ⟨rfl, rfl, rfl⟩

/-- Nothing but the Judge that it arrives at acts on an arrival. -/
theorem arrived_consequence (settled : Settled s) (p : Port) (buf : BufId) :
    consequence (arrived p buf s) = takeArrival p (arrived p buf s) := by
  have parts := arrived_parts p (buf := buf) (s := s)
  have grants : grant (arrived p buf s) = none :=
    grant_none_congr (s := s) rfl (fun q => (parts q).1) rfl settled.grant
  have ends (q : Port) : endReached q (arrived p buf s) = none :=
    endReached_none_congr q (parts q).2.2 (fun d w => someWaiting_arrived rfl (fun _ _ => rfl) w) (settled.endReached q)
  have places (q : Port) : placeRequest q (arrived p buf s) = none :=
    placeRequest_none_congr (s := s) q rfl rfl (settled.placeRequest q)
  have slots (q : Port) : takeSlot q (arrived p buf s) = none :=
    takeSlot_none_congr q (parts q).1 (parts q).2.1 (settled.takeSlot q)
  have commands : beginCommand (arrived p buf s) = none :=
    beginCommand_none_congr (s := s) rfl rfl rfl settled.beginCommand
  have others (q : Port) (other : q ≠ p) : takeArrival q (arrived p buf s) = none :=
    takeArrival_none_congr q (by rw [arrived_judge, if_neg other]) (settled.takeArrival q)
  have opens : openPort (arrived p buf s) = none := openPort_none_congr (s := s) rfl settled.openPort
  unfold consequence
  rw [grants, ends, ends, places, places, slots, slots, commands, opens]
  cases p with
  | n =>
    rw [others .f (by decide)]
    cases takeArrival .n (arrived .n buf s) <;> rfl
  | f =>
    rw [others .n (by decide)]
    cases takeArrival .f (arrived .f buf s) <;> rfl

end

/-- Settles O8: nothing follows an arrival at a busy Judge. -/
theorem goodReceptionJoinsTheArrivals : Obligations.GoodReceptionJoinsTheArrivals := by
  rintro p buf b s filling last l rfl sum form busy place settled
  have waits : takeArrival p (arrived p buf (goodEnd p buf b s)) = none := by
    have phase : ((arrived p buf (goodEnd p buf b s)).judges.get p).phase ≠ .idle := by
      rw [(arrived_parts p p buf (goodEnd p buf b s)).1]
      exact busy
    unfold takeArrival
    split
    · next idle _ => exact absurd idle phase
    · rfl
  have ended : Settled (arrived p buf (goodEnd p buf b s)) := by
    rw [Settled, arrived_consequence (goodEnd_settled settled place filling), waits]
    rfl
  rw [exec_goodEnd filling last sum form, settle_settled ended]
  rfl

end Sys2Proof.Machine
end

section
/-! SUPPORT. The buffers that a hand-over leaves, the Judge that waits for the port, and the bind test (R20 to R24, R45 to
R47, R51, R52). -/

namespace Sys2Proof.Machine

/-! ### The buffers in use (R12, R177) -/

/-- A buffer that is not free stays so, with its contents. -/
def SparesBuffer (c : BufId) (s t : State) : Prop :=
  c ∉ s.pool.free → c ∉ t.pool.free ∧ t.buffer c = s.buffer c

namespace SparesBuffer
variable {c : BufId} {s t u : State}

theorem refl (c : BufId) (s : State) : SparesBuffer c s s := fun used => ⟨used, rfl⟩

theorem trans (a : SparesBuffer c s t) (b : SparesBuffer c t u) : SparesBuffer c s u := fun used => by
  obtain ⟨used', first⟩ := a used
  obtain ⟨used'', second⟩ := b used'
  exact ⟨used'', second.trans first⟩

theorem of_pool (same : t.pool = s.pool) : SparesBuffer c s t := fun used => by
  rw [State.buffer, State.buffer, same]
  exact ⟨used, rfl⟩

theorem sendReport (c : BufId) (f : Flag) (s : State) : SparesBuffer c s (sendReport f s) := by
  intro used
  cases wanted : reportWanted f s with
  | none =>
    have same : Machine.sendReport f s = s := by unfold Machine.sendReport; rw [wanted]
    rw [same]
    exact ⟨used, rfl⟩
  | some a =>
    cases free : s.pool.free with
    | nil =>
      rw [sendReport_noBuffer wanted free]
      exact ⟨used, rfl⟩
    | cons b rest =>
      obtain ⟨t, sent, -, others, -, room, full⟩ := sendReport_sent wanted free
      rw [free, List.mem_cons, not_or] at used
      rw [sent]
      refine ⟨?_, others c used.1⟩
      by_cases space : s.tx.f.normal.length < 16
      · rw [(room space).1]
        exact used.2
      · rw [(full (by omega)).1, List.mem_append, List.mem_singleton, not_or]
        exact ⟨used.2, used.1⟩

theorem tell (c : BufId) (f : Flag) (s : State) : SparesBuffer c s (tell f s) := by
  cases clear : s.exc.flags.getLsbD f.bit with
  | true => rw [tell_set clear]; exact .refl c s
  | false =>
    rw [tell_clear clear]
    exact (of_pool (t := risen f s) rfl).trans (.sendReport c f _)

theorem told (c : BufId) (f : Flag) (pool : t.pool = s.pool) : SparesBuffer c s (Machine.tell f t) :=
  (of_pool pool).trans (.tell c f t)

theorem loseRecord (c : BufId) (s : State) : SparesBuffer c s (loseRecord s) := by
  rw [loseRecord_eq]
  exact .told c _ rfl

theorem handOver (c : BufId) (r : Handed) (s : State) : SparesBuffer c s (handOver r s) := by
  rcases List.eq_nil_or_concat s.exc.queue with empty | ⟨l, n, q⟩
  · rw [handOver_empty empty]
    exact .told c _ rfl
  · rw [List.concat_eq_append] at q
    rw [handOver_newest q]
    split
    · split
      · exact .loseRecord c s
      · exact of_pool rfl
    · split
      · exact .loseRecord c s
      · exact of_pool rfl

end SparesBuffer

/-! ### A hand-over beside the Judges and the Table Store -/

theorem handOver_judged (r : Handed) (j : PerPort Judge) (x : TableStore) (s : State) :
    handOver r { s with judges := j, store := x } = { handOver r s with judges := j, store := x } :=
  (handOver_store r x { s with judges := j }).trans
    (congrArg (fun u : State => { u with store := x }) (handOver_judges r j s))

theorem takenOut_judged (reason : Reason) (index : Option Index) (r : HeldRecord) (j : PerPort Judge) (x : TableStore)
    (s : State) : TakenOut reason index r { s with judges := j, store := x } =
      { TakenOut reason index r s with judges := j, store := x } :=
  handOver_judged _ j x { s with
    hold := { s.hold with records := s.hold.records.filter fun q => q.ref != r.ref }
    pool := ⟨s.pool.buffers, s.pool.free ++ [r.buffer]⟩ }

/-! ### A Judge that waits for the table port (R23, R24) -/

/-- A Judge put to WAITING, with a bind context. -/
def waitsAs (p : Port) (bind : Option BindContext) (it : Item) (s : State) : State :=
  { s with judges := s.judges.set p { s.judges.get p with bind := bind, phase := .waiting it } }

/-- A Judge put to LOOKUP by a grant, with a bind context. -/
def looksUp (p : Port) (bind : Option BindContext) (it : Item) (s : State) : State := { s with
  judges := s.judges.set p { s.judges.get p with bind := bind, phase := .lookup it s.store.active }
  store := { s.store with port := .judge p, lastJudge := p } }

section
variable {s : State} {p : Port} {bind : Option BindContext} {it : Item}

theorem waitsAs_judge (p q : Port) (bind : Option BindContext) (it : Item) (s : State) :
    (waitsAs p bind it s).judges.get q =
      if q = p then { s.judges.get p with bind := bind, phase := .waiting it } else s.judges.get q :=
  PerPort.get_set ..

theorem waitsAs_same (p : Port) (bind : Option BindContext) (it : Item) (s : State) :
    (waitsAs p bind it s).judges.get p = { s.judges.get p with bind := bind, phase := .waiting it } := by
  rw [waitsAs_judge, if_pos rfl]

theorem waitsAs_other {q : Port} (other : q ≠ p) : (waitsAs p bind it s).judges.get q = s.judges.get q := by
  rw [waitsAs_judge, if_neg other]

/-- Nothing but a grant follows where a Judge of a settled gate goes to WAITING. -/
theorem Settled.waitsAs (settled : Settled s) (fresh : ∀ c, bind = some c → c.reached = false) :
    GrantsAndCommands (waitsAs p bind it s) where
  bindings q := by
    by_cases here : q = p
    · unfold Machine.endReached
      rw [here, waitsAs_same]
      cases context : bind with
      | none => rfl
      | some c => exact if_neg (by rw [fresh c context]; exact Bool.false_ne_true)
    · refine endReached_none_congr (s := s) q (by rw [waitsAs_other here]) (fun d w => ?_) (settled.endReached q)
      unfold someWaiting at w ⊢
      rw [waitsAs_other here]
      exact w
  places q := placeRequest_none_congr (s := s) q rfl rfl (settled.placeRequest q)
  slots q := by
    by_cases here : q = p
    · unfold Machine.takeSlot
      rw [here, waitsAs_same]
    · exact takeSlot_none_congr (s := s) q (by rw [waitsAs_other here]) (by rw [waitsAs_other here]) (settled.takeSlot q)
  arrivals q := by
    by_cases here : q = p
    · unfold Machine.takeArrival
      rw [here, waitsAs_same]
    · exact takeArrival_none_congr (s := s) q (waitsAs_other here) (settled.takeArrival q)

/-- Where the port is free and the store READY, the Judge that goes to WAITING is granted. -/
theorem grant_waitsAs (settled : Settled s) (free : s.store.port = .free) (ready : s.store.phase = .ready) :
    grant (waitsAs p bind it s) = some (looksUp p bind it s) := by
  obtain ⟨calm, unasked, idle⟩ := (arbiterChoice_none_iff s).1 ((grant_none_iff s).1 settled.grant ready free)
  have waits : ((waitsAs p bind it s).judges.get p).phase = .waiting it := by rw [waitsAs_same]
  have alone (it' : Item) : ((waitsAs p bind it s).judges.get (otherPort p)).phase ≠ .waiting it' := by
    intro other
    rw [waitsAs_other (by cases p <;> decide)] at other
    have quiet := (waitingJudge_none_iff s).1 idle (otherPort p)
    rw [Bool.eq_false_iff, Ne, judgeWaiting_iff] at quiet
    exact quiet ⟨it', other⟩
  have chosen : arbiterChoice (waitsAs p bind it s) = some (.judge p) := by
    have calm : urgentScrub (waitsAs p bind it s) = false := by
      rw [urgentScrub, show (waitsAs p bind it s).store = s.store from rfl, calm]
      rfl
    have patient : ¬((waitsAs p bind it s).store.agentRequest = true ∧ (waitsAs p bind it s).store.waitCount = 4) :=
      fun both => Bool.false_ne_true (unasked.symm.trans both.1)
    rw [arbiterChoice_ranked calm patient, waitingJudge_some waits (.inl alone)]
    rfl
  have wait : nextWait (waitsAs p bind it s).store = s.store.waitCount := by
    rw [nextWait, show (waitsAs p bind it s).store = s.store from rfl, unasked]
    rfl
  rw [grant_free (s := waitsAs p bind it s) ready free, chosen, Option.map_some, grantTo_judge_eq waits, wait, waitsAs_same]
  unfold waitsAs looksUp
  simp only [PerPort.set_set]

/-- What follows where a Judge of a settled gate goes to WAITING. -/
theorem settleFor_waitsAs (settled : Settled s) (fresh : ∀ c, bind = some c → c.reached = false) (n : Nat) :
    settleFor (n + 1) (waitsAs p bind it s) =
      if s.store.port = .free ∧ s.store.phase = .ready then looksUp p bind it s else waitsAs p bind it s := by
  have after := settled.waitsAs (p := p) (it := it) fresh
  have commands : beginCommand (waitsAs p bind it s) = none :=
    beginCommand_none_congr (s := s) rfl rfl rfl settled.beginCommand
  by_cases opens : s.store.port = .free ∧ s.store.phase = .ready
  · have granted := grant_waitsAs (p := p) (bind := bind) (it := it) settled opens.1 opens.2
    have ended : Settled (looksUp p bind it s) :=
      (after.granted granted).settled (grant_busy nofun)
        (beginCommand_none_congr (s := s) rfl rfl rfl settled.beginCommand) rfl
    rw [if_pos opens, settleFor_succ n (GrantsAndCommands.consequence_grant granted), settleFor_settled n ended]
  · have grants : grant (waitsAs p bind it s) = none := (grant_none_iff _).2 fun ready free => absurd ⟨free, ready⟩ opens
    rw [if_neg opens]
    exact settleFor_settled _ (after.settled grants commands (openPort_none_congr (s := s) rfl settled.openPort))

/-! ### The bind test (R45 to R47, R51) -/

theorem bindFirst_plain {b : BufId} (closed : (s.judges.get p).bind = none)
    (unbound : boundOf (s.buffer b).bytes = false) : bindFirst p b s =
      waitsAs p none (.telegram b .plain (keyOf p (s.buffer b).bytes)) s := by
  have waits : waitsAs p none (.telegram b .plain (keyOf p (s.buffer b).bytes)) s =
      awaitPort p b .plain s := by
    unfold waitsAs awaitPort setPhase State.mapJudge State.setJudges
    rw [← closed]
  rw [waits]
  exact if_neg (by rw [unbound]; decide)

theorem bindFirst_bound {b : BufId} (bound : boundOf (s.buffer b).bytes = true) : bindFirst p b s =
    waitsAs p (some (openContext b s)) (.telegram b .first (keyOf p (s.buffer b).bytes)) s := by
  have opened : bindFirst p b s = awaitPort p b .first (setBind p (some (openContext b s)) s) := if_pos bound
  rw [opened]
  unfold waitsAs awaitPort setPhase setBind State.mapJudge State.setJudges
  simp only [PerPort.set_set, PerPort.get_set_self]
  rfl

theorem bindSecond_passed {b : BufId} {c : BindContext} {l : ListKind} (passed : c.outcome = .passed l) :
    bindSecond p b c s = waitsAs p none (.telegram b (.secondPassed l c.particulars) (keyOf p (s.buffer b).bytes)) s := by
  rw [bindSecond, passed]
  unfold waitsAs awaitPort setPhase setBind State.mapJudge State.setJudges
  simp only [PerPort.set_set, PerPort.get_set_self]
  rfl

theorem bindSecond_held {b : BufId} {c : BindContext} {n : Nat} (held : c.outcome = .held n) :
    bindSecond p b c s = waitsAs p none (.telegram b (.secondHeld n c.particulars) (keyOf p (s.buffer b).bytes)) s := by
  rw [bindSecond, held]
  unfold waitsAs awaitPort setPhase setBind State.mapJudge State.setJudges
  simp only [PerPort.set_set, PerPort.get_set_self]
  rfl

theorem bindTest_closed {b : BufId} (closed : (s.judges.get p).bind = none) : bindTest p b s = bindFirst p b s := by
  rw [bindTest, closed]

theorem bindTest_second {b : BufId} {c : BindContext} (bind : (s.judges.get p).bind = some c)
    (source : sourceOf (s.buffer b).bytes = c.source) (inTime : atOrBefore (s.buffer b).desc.uptime c.deadline = true) :
    bindTest p b s = bindSecond p b c s := by
  rw [bindTest, bind]
  exact if_pos ⟨source, inTime⟩

theorem bindTest_ends {b : BufId} {c : BindContext} (bind : (s.judges.get p).bind = some c)
    (other : sourceOf (s.buffer b).bytes ≠ c.source ∨ atOrBefore (s.buffer b).desc.uptime c.deadline = false) :
    bindTest p b s = bindFirst p b (endBinding p c s) := by
  rw [bindTest, bind]
  exact if_neg fun both => other.elim (· both.1) fun late => Bool.false_ne_true (late.symm.trans both.2)

/-! ### Check 1 (R21, R22) -/

theorem commandAdmitted_iff (c : Settings) (p : Port) (cls : BitVec 4) :
    commandAdmitted c p cls = true ↔ cls = 15 ∧ (p = .f ∨ c.nearAllowed = true) := by
  unfold commandAdmitted
  rw [Bool.and_eq_true, Bool.or_eq_true, beq_iff_eq, beq_iff_eq]

theorem disposeOwn_room {b : BufId} (cls : classOf (s.buffer b).bytes = 15)
    (near : p = .f ∨ s.agent.settings.nearAllowed = true) (room : s.agent.inbox.length < 4) :
    disposeOwn p b s = { s with agent := { s.agent with inbox := s.agent.inbox ++ [b] } } := by
  unfold disposeOwn
  dsimp only
  rw [if_pos ((commandAdmitted_iff ..).2 ⟨cls, near⟩), if_pos room]
  rfl

theorem disposeOwn_full {b : BufId} (cls : classOf (s.buffer b).bytes = 15)
    (near : p = .f ∨ s.agent.settings.nearAllowed = true) (full : 4 ≤ s.agent.inbox.length) :
    disposeOwn p b s = refuseTelegram p b (s.buffer b).bytes .mgmtOverrun none s := by
  unfold disposeOwn
  dsimp only
  rw [if_pos ((commandAdmitted_iff ..).2 ⟨cls, near⟩), if_neg (by omega)]

theorem disposeOwn_refused {b : BufId}
    (barred : classOf (s.buffer b).bytes ≠ 15 ∨ (p = .n ∧ s.agent.settings.nearAllowed = false)) :
    disposeOwn p b s = refuseTelegram p b (s.buffer b).bytes .mgmtRefused none s := by
  have shut : ¬commandAdmitted s.agent.settings p (classOf (s.buffer b).bytes) = true := by
    rw [commandAdmitted_iff]
    rintro ⟨cls, near⟩
    rcases barred with other | ⟨near_, off⟩
    · exact other cls
    · rcases near with far | allowed
      · exact absurd (near_.symm.trans far) nofun
      · exact Bool.false_ne_true (off.symm.trans allowed)
  unfold disposeOwn
  dsimp only
  rw [if_neg shut]

end

end Sys2Proof.Machine
end

section
/-! SUPPORT. What an IDLE Judge makes of an arrival (R8, R11, R20 to R24, R45 to R47, R51, R52). -/

namespace Sys2Proof.Machine

section
variable {s z : State} {p : Port} {b : BufId}

/-! ### A removal that leaves the requests as they are -/

/-- What takes out records of a settled gate and leaves the requests leaves it settled. -/
theorem Removal.settled {t : State} (r : Removal s t) (h : Settled s)
    (requests : t.hold.outstanding = s.hold.outstanding) : Settled t := by
  have after := r.onlyPlacing h
  have places (q : Port) : placeRequest q t = none := by
    rcases (placeRequest_none_iff q s).1 (h.placeRequest q) with named | none
    · exact (placeRequest_none_iff q t).2 (.inl (by rw [requests]; exact named))
    · exact (placeRequest_none_iff q t).2 (.inr (nextPending_sublist r.records none))
  have slots (q : Port) : Machine.takeSlot q t = none := by
    unfold Machine.takeSlot
    split
    · next idle named => exact absurd ((after.idle q idle).1.symm.trans named) nofun
    · rfl
  exact (settled_iff t).2 ⟨after.grants, ⟨after.bindings .n, after.bindings .f⟩, ⟨places .n, places .f⟩,
    ⟨slots .n, slots .f⟩, after.commands, ⟨after.arrivals .n, after.arrivals .f⟩, after.opens⟩

/-- A held record off its place, with its buffer returned. -/
def leaving (r : HeldRecord) (s : State) : State := { s with
  hold := { s.hold with records := s.hold.records.filter fun q => q.ref != r.ref }
  pool := ⟨s.pool.buffers, s.pool.free ++ [r.buffer]⟩ }

theorem TakenOut_frame (reason : Reason) (index : Option Index) (r : HeldRecord) (s : State) :
    (TakenOut reason index r s).judges = s.judges ∧ (TakenOut reason index r s).store = s.store ∧
      (TakenOut reason index r s).agent = s.agent ∧ (TakenOut reason index r s).cal = s.cal ∧
      (TakenOut reason index r s).hold.outstanding = s.hold.outstanding := by
  have same := handOver_out ⟨reason, r.port, some (sourceOf (s.buffer r.buffer).bytes), some r.dest,
    some (classOf (s.buffer r.buffer).bytes), index⟩ (leaving r s)
  have hold : (TakenOut reason index r s).hold = (leaving r s).hold := same.hold
  exact ⟨same.judges, same.store, same.agent, same.cal, by rw [hold]; rfl⟩

theorem takenOut_settled (settled : Settled s) (reason : Reason) (index : Option Index) (r : HeldRecord) :
    Settled (TakenOut reason index r s) :=
  (Removal.takenOut reason index r s).settled settled (TakenOut_frame reason index r s).2.2.2.2

/-- A first without a partner is taken out alone, where no request names it and its Judge refers to none. -/
theorem removed_alone {reason : Reason} {r : HeldRecord} (alone : r.partnerRef = none)
    (closed : (s.judges.get r.port).bind = none) (unnamed : (s.judges.get r.port).slot = none) :
    Removed reason r s = TakenOut reason r.index r s := by
  have judges := (TakenOut_frame reason r.index r s).1
  have single : ∀ l : List HeldRecord, l.find? (fun q => r.partnerRef == some q.ref) = none := fun l =>
    List.find?_eq_none.2 fun q _ => by rw [alone]; exact Bool.false_ne_true
  have unbound : Unbound r.port r.ref (TakenOut reason r.index r s) = TakenOut reason r.index r s := by
    have same : ({ s.judges.get r.port with bind := none } : Judge) = s.judges.get r.port := by rw [← closed]
    unfold Unbound
    rw [judges, closed]
    dsimp only
    rw [same, PerPort.set_get, ← judges]
  unfold Removed
  dsimp only
  rw [single]
  dsimp only
  rw [unbound, ite_self, Withdrawn, judges, unnamed]
  exact if_neg nofun

/-! ### The Judge of a settled gate, IDLE -/

theorem idle_judge (settled : Settled s) (idle : (s.judges.get p).phase = .idle) :
    s.judges.get p = ⟨[], none, (s.judges.get p).bind, .idle⟩ := by
  have slot := ((Removal.refl s).slot_idle settled idle).1
  have arrivals := idle_no_arrivals settled idle
  rw [← idle, ← slot, ← arrivals]

/-- The Judge takes the arrival, and what follows of that follows at the same event. -/
theorem settle_arrived (settled : Settled z) (idle : (z.judges.get p).phase = .idle) (b : BufId) :
    settle (arrived p b z) = settleFor 1023
      (if destOf (z.buffer b).bytes = z.ownAddr then disposeOwn p b z else bindTest p b z) := by
  have mine : (arrived p b z).judges.get p = { z.judges.get p with arrivals := [b] } := by
    rw [arrived_judge, if_pos rfl, idle_no_arrivals settled idle]
    rfl
  have back : ((arrived p b z).mapJudge p fun j => { j with arrivals := [] }) = z := by
    have emptied : ({ z.judges.get p with arrivals := [] } : Judge) = z.judges.get p := by
      rw [← idle_no_arrivals settled idle]
    unfold State.mapJudge
    rw [mine]
    dsimp only
    rw [emptied]
    unfold arrived State.setJudges
    dsimp only
    rw [PerPort.set_set, PerPort.set_get]
  have taken : takeArrival p (arrived p b z) = some
      (if destOf (z.buffer b).bytes = z.ownAddr then disposeOwn p b z else bindTest p b z) := by
    unfold takeArrival
    rw [show ((arrived p b z).judges.get p).phase = .idle by rw [mine]; exact idle,
      show ((arrived p b z).judges.get p).arrivals = [b] by rw [mine]]
    dsimp only
    rw [back]
    change (if destOf (z.buffer b).bytes = z.ownAddr then _ else _) = _
    split <;> rfl
  exact settleFor_succ 1023 ((arrived_consequence settled p b).trans taken)

/-! ### A telegram that is judged -/

/-- A telegram that an IDLE Judge takes up: granted the port at the same event where it can be. -/
def judgedAt (p : Port) (bind : Option BindContext) (it : Item) (s : State) : State :=
  if s.store.port = .free ∧ s.store.phase = .ready then looksUp p bind it s else waitsAs p bind it s

/-- A telegram that is no second, taken up with the context closed. -/
def freshAt (p : Port) (b : BufId) (s : State) : State :=
  if boundOf (s.buffer b).bytes then
    judgedAt p (some (openContext b s)) (.telegram b .first (keyOf p (s.buffer b).bytes)) s
  else judgedAt p none (.telegram b .plain (keyOf p (s.buffer b).bytes)) s

theorem settleFor_bindFirst (settled : Settled z) (early : (openContext b z).reached = false) (n : Nat) :
    settleFor (n + 1) (bindFirst p b (rebound p none z)) = freshAt p b z := by
  have moved (bind : Option BindContext) (it : Item) : waitsAs p bind it (rebound p none z) = waitsAs p bind it z := by
    unfold waitsAs rebound
    simp only [PerPort.set_set, PerPort.get_set_self]
  cases bound : boundOf (z.buffer b).bytes with
  | true =>
    rw [bindFirst_bound (s := rebound p none z) bound, moved, freshAt, bound, if_pos rfl]
    exact settleFor_waitsAs settled (fun c opened => by rw [← Option.some.inj opened]; exact early) n
  | false =>
    rw [bindFirst_plain (s := rebound p none z) (by rw [rebound_get, if_pos rfl]) bound, moved, freshAt, bound,
      if_neg (by decide)]
    exact settleFor_waitsAs (bind := none) settled nofun n

theorem settleFor_fresh (settled : Settled z) (early : (openContext b z).reached = false)
    (closed : (z.judges.get p).bind = none) (n : Nat) : settleFor (n + 1) (bindFirst p b z) = freshAt p b z := by
  have same : rebound p none z = z := by
    have judge : ({ z.judges.get p with bind := none } : Judge) = z.judges.get p := by rw [← closed]
    rw [rebound, judge, PerPort.set_get]
  have fresh := settleFor_bindFirst (p := p) settled early n
  rw [same] at fresh
  exact fresh

theorem freshAt_congr {t : State} (buffer : t.buffer b = s.buffer b) (cal : t.cal = s.cal) (agent : t.agent = s.agent)
    (judges : t.judges = s.judges) (store : t.store = s.store) :
    freshAt p b t = { t with judges := (freshAt p b s).judges, store := (freshAt p b s).store } := by
  have opened : openContext b t = openContext b s := by rw [openContext, openContext, buffer, cal, agent]
  have each (bind : Option BindContext) (it : Item) : judgedAt p bind it t =
      { t with judges := (judgedAt p bind it s).judges, store := (judgedAt p bind it s).store } := by
    unfold judgedAt
    rw [store]
    by_cases free : s.store.port = .free ∧ s.store.phase = .ready
    · rw [if_pos free, if_pos free]
      unfold looksUp
      rw [judges, store]
    · rw [if_neg free, if_neg free]
      unfold waitsAs
      rw [judges, ← store]
  unfold freshAt
  rw [opened, buffer]
  split
  · exact each _ _
  · exact each _ _

theorem freshAt_parts (p : Port) (b : BufId) (s : State) :
    freshAt p b s = { s with judges := (freshAt p b s).judges, store := (freshAt p b s).store } :=
  freshAt_congr rfl rfl rfl rfl rfl

theorem freshAt_handOver (used : b ∉ s.pool.free) (r : Handed) :
    freshAt p b (handOver r s) = handOver r (freshAt p b s) := by
  have same := handOver_out r s
  rw [freshAt_congr (SparesBuffer.handOver b r s used).2 same.cal same.agent same.judges same.store,
    ← handOver_judged, ← freshAt_parts]

theorem freshAt_takenOut (used : b ∉ s.pool.free) {r : HeldRecord} (other : r.buffer ≠ b) (reason : Reason)
    (index : Option Index) : freshAt p b (TakenOut reason index r s) = TakenOut reason index r (freshAt p b s) := by
  obtain ⟨judges, store, agent, cal, -⟩ := TakenOut_frame reason index r s
  have buffer : (TakenOut reason index r s).buffer b = s.buffer b := by
    have used' : b ∉ s.pool.free ++ [r.buffer] := by
      rw [List.mem_append, List.mem_singleton, not_or]
      exact ⟨used, other.symm⟩
    exact (SparesBuffer.handOver b _ (leaving r s) used').2
  rw [freshAt_congr buffer cal agent judges store, ← takenOut_judged, ← freshAt_parts]

end

/-! ### The arrival of a telegram at an IDLE Judge -/

/-- A telegram at its arrival: nothing else follows, and its buffer is in no other place. -/
structure AtArrival (p : Port) (b : BufId) (l : List Byte) (z : State) : Prop where
  quiet : Settled z
  idle : (z.judges.get p).phase = .idle
  bytes : (z.buffer b).bytes = l
  uptime : (z.buffer b).desc.uptime = z.cal.uptime
  used : b ∉ z.pool.free
  elsewhere : ∀ r ∈ z.hold.records, r.buffer ≠ b
  early : (openContext b z).reached = false

namespace AtArrival
variable {p : Port} {b : BufId} {l : List Byte} {z : State}

theorem own (h : AtArrival p b l z) (own : destOf l = z.ownAddr) :
    settle (arrived p b z) = settleFor 1023 (disposeOwn p b z) := by
  rw [settle_arrived h.quiet h.idle, h.bytes, if_pos own]

theorem refuse_settled (h : AtArrival p b l z) (reason : Reason) : Settled (refuseTelegram p b l reason none z) := by
  have freed : Settled (release b z) := h.quiet.congr rfl rfl rfl rfl rfl rfl rfl fun _ _ _ => rfl
  exact freed.handOver _

theorem own_refused (h : AtArrival p b l z) (own : destOf l = z.ownAddr)
    (barred : classOf l ≠ 15 ∨ (p = .n ∧ z.agent.settings.nearAllowed = false)) :
    settle (arrived p b z) = refuseTelegram p b l .mgmtRefused none z := by
  rw [← h.bytes] at barred
  rw [h.own own, disposeOwn_refused barred, h.bytes]
  exact settleFor_settled _ (h.refuse_settled _)

theorem own_full (h : AtArrival p b l z) (own : destOf l = z.ownAddr) (cls : classOf l = 15)
    (near : p = .f ∨ z.agent.settings.nearAllowed = true) (full : 4 ≤ z.agent.inbox.length) :
    settle (arrived p b z) = refuseTelegram p b l .mgmtOverrun none z := by
  rw [h.own own, disposeOwn_full (by rw [h.bytes]; exact cls) near full, h.bytes]
  exact settleFor_settled _ (h.refuse_settled _)

theorem own_waits (h : AtArrival p b l z) (own : destOf l = z.ownAddr) (cls : classOf l = 15)
    (near : p = .f ∨ z.agent.settings.nearAllowed = true) (room : z.agent.inbox.length < 4)
    (busy : z.agent.exec ≠ none ∨ z.store.phase ≠ .ready) :
    settle (arrived p b z) = { z with agent := { z.agent with inbox := z.agent.inbox ++ [b] } } := by
  rw [h.own own, disposeOwn_room (by rw [h.bytes]; exact cls) near room]
  have commands : beginCommand { z with agent := { z.agent with inbox := z.agent.inbox ++ [b] } } = none := by
    unfold beginCommand
    split
    · next idle _ ready => exact (busy.elim (· idle) (· ready)).elim
    · rfl
  have ended : Settled { z with agent := { z.agent with inbox := z.agent.inbox ++ [b] } } :=
    GrantsAndCommands.settled
      ⟨fun q => endReached_none_congr (s := z) q rfl (fun _ w => w) (h.quiet.endReached q),
        fun q => placeRequest_none_congr (s := z) q rfl rfl (h.quiet.placeRequest q),
        fun q => takeSlot_none_congr (s := z) q rfl rfl (h.quiet.takeSlot q),
        fun q => takeArrival_none_congr (s := z) q rfl (h.quiet.takeArrival q)⟩
      (grant_none_congr (s := z) rfl (fun _ => rfl) rfl h.quiet.grant) commands
      (openPort_none_congr (s := z) rfl h.quiet.openPort)
  exact settleFor_settled _ ended

theorem foreign (h : AtArrival p b l z) (other : destOf l ≠ z.ownAddr) :
    settle (arrived p b z) = settleFor 1023 (bindTest p b z) := by
  rw [settle_arrived h.quiet h.idle, h.bytes, if_neg other]

theorem closed (h : AtArrival p b l z) (other : destOf l ≠ z.ownAddr) (closed : (z.judges.get p).bind = none) :
    settle (arrived p b z) = freshAt p b z := by
  rw [h.foreign other, bindTest_closed closed]
  exact settleFor_fresh h.quiet h.early closed 1022

section
variable {c : BindContext} (bind : (z.judges.get p).bind = some c)
include bind

theorem second (h : AtArrival p b l z) (other : destOf l ≠ z.ownAddr) (source : sourceOf l = c.source)
    (inTime : atOrBefore z.cal.uptime c.deadline = true) :
    settle (arrived p b z) = settleFor 1023 (bindSecond p b c z) := by
  rw [h.foreign other, bindTest_second bind (by rw [h.bytes]; exact source) (by rw [h.uptime]; exact inTime)]

theorem second_passed (h : AtArrival p b l z) (other : destOf l ≠ z.ownAddr) (source : sourceOf l = c.source)
    (inTime : atOrBefore z.cal.uptime c.deadline = true) {x : ListKind} (passed : c.outcome = .passed x) :
    settle (arrived p b z) = judgedAt p none (.telegram b (.secondPassed x c.particulars) (keyOf p l)) z := by
  rw [h.second bind other source inTime, bindSecond_passed passed, h.bytes]
  exact settleFor_waitsAs (bind := none) h.quiet nofun 1022

theorem second_held (h : AtArrival p b l z) (other : destOf l ≠ z.ownAddr) (source : sourceOf l = c.source)
    (inTime : atOrBefore z.cal.uptime c.deadline = true) {n : Nat} (held : c.outcome = .held n) :
    settle (arrived p b z) = judgedAt p none (.telegram b (.secondHeld n c.particulars) (keyOf p l)) z := by
  rw [h.second bind other source inTime, bindSecond_held held, h.bytes]
  exact settleFor_waitsAs (bind := none) h.quiet nofun 1022

theorem second_refused (h : AtArrival p b l z) (other : destOf l ≠ z.ownAddr) (source : sourceOf l = c.source)
    (inTime : atOrBefore z.cal.uptime c.deadline = true) (refused : c.outcome = .refused) :
    settle (arrived p b z) = refuseTelegram p b l .boundBroken none (rebound p none z) := by
  have ended : Settled (refuseTelegram p b l .boundBroken none (rebound p none z)) := by
    have freed : Settled (release b (rebound p none z)) :=
      (h.quiet.closed p).congr rfl rfl rfl rfl rfl rfl rfl fun _ _ _ => rfl
    exact freed.handOver _
  have second : bindSecond p b c z = refuseTelegram p b l .boundBroken none (rebound p none z) := by
    rw [bindSecond, refused, ← h.bytes]
    rfl
  rw [h.second bind other source inTime, second]
  exact settleFor_settled _ ended

theorem broken (h : AtArrival p b l z) (other : destOf l ≠ z.ownAddr)
    (late : sourceOf l ≠ c.source ∨ atOrBefore z.cal.uptime c.deadline = false) :
    settle (arrived p b z) = settleFor 1023 (bindFirst p b (endBinding p c z)) := by
  rw [← h.bytes, ← h.uptime] at late
  rw [h.foreign other, bindTest_ends bind late]

theorem broken_refused (h : AtArrival p b l z) (other : destOf l ≠ z.ownAddr)
    (late : sourceOf l ≠ c.source ∨ atOrBefore z.cal.uptime c.deadline = false) (refused : c.outcome = .refused) :
    settle (arrived p b z) = freshAt p b z := by
  rw [h.broken bind other late, endBinding_refused refused]
  exact settleFor_bindFirst h.quiet h.early 1022

theorem broken_passed (h : AtArrival p b l z) (other : destOf l ≠ z.ownAddr)
    (late : sourceOf l ≠ c.source ∨ atOrBefore z.cal.uptime c.deadline = false) {x : ListKind} {q : Particulars}
    (passed : c.outcome = .passed x) (had : c.particulars = some q) : settle (arrived p b z) =
      handOver ⟨.boundBroken, p, some c.source, some q.dest, some q.cls, q.index⟩ (freshAt p b z) := by
  have same := handOver_out ⟨.boundBroken, p, some c.source, some q.dest, some q.cls, q.index⟩ z
  have kept := (SparesBuffer.handOver b ⟨.boundBroken, p, some c.source, some q.dest, some q.cls, q.index⟩ z h.used).2
  have early : (openContext b (handOver ⟨.boundBroken, p, some c.source, some q.dest, some q.cls, q.index⟩ z)).reached =
      false := by
    rw [openContext, kept, same.cal, same.agent]
    exact h.early
  have moved : handOver ⟨.boundBroken, p, some c.source, some q.dest, some q.cls, q.index⟩ (rebound p none z) =
      rebound p none (handOver ⟨.boundBroken, p, some c.source, some q.dest, some q.cls, q.index⟩ z) := by
    unfold rebound
    rw [handOver_judges, same.judges]
  rw [h.broken bind other late, endBinding_passed passed had, moved, ← freshAt_handOver h.used]
  exact settleFor_bindFirst (h.quiet.handOver _) early 1022

theorem broken_gone (h : AtArrival p b l z) (other : destOf l ≠ z.ownAddr)
    (late : sourceOf l ≠ c.source ∨ atOrBefore z.cal.uptime c.deadline = false) {n : Nat}
    (held : c.outcome = .held n) (gone : ∀ r ∈ z.hold.records, r.ref ≠ n) :
    settle (arrived p b z) = freshAt p b z := by
  rw [h.broken bind other late, endBinding_gone held gone]
  exact settleFor_bindFirst h.quiet h.early 1022

theorem broken_held (h : AtArrival p b l z) (other : destOf l ≠ z.ownAddr)
    (late : sourceOf l ≠ c.source ∨ atOrBefore z.cal.uptime c.deadline = false) {n : Nat}
    (held : c.outcome = .held n) (distinct : RefsDistinct z) {r : HeldRecord} (hr : r ∈ z.hold.records) (ref : r.ref = n)
    (port : r.port = p) (alone : r.partnerRef = none) :
    settle (arrived p b z) = TakenOut .boundBroken r.index r (freshAt p b z) := by
  have single : Removed .boundBroken r (rebound p none z) = TakenOut .boundBroken r.index r (rebound p none z) := by
    refine removed_alone alone ?_ ?_
    · rw [rebound_get, if_pos port]
    · rw [rebound_get, if_pos port, idle_judge h.quiet h.idle]
  have moved : TakenOut .boundBroken r.index r (rebound p none z) =
      rebound p none (TakenOut .boundBroken r.index r z) := by
    have judges := (TakenOut_frame .boundBroken r.index r z).1
    have store := (TakenOut_frame .boundBroken r.index r z).2.1
    have both := takenOut_judged .boundBroken r.index r (rebound p none z).judges z.store z
    refine both.trans ?_
    unfold rebound
    rw [judges, ← store]
  obtain ⟨-, -, agent, cal, -⟩ := TakenOut_frame .boundBroken r.index r z
  have kept : (TakenOut .boundBroken r.index r z).buffer b = z.buffer b := by
    have used : b ∉ (leaving r z).pool.free := by
      change b ∉ z.pool.free ++ [r.buffer]
      rw [List.mem_append, List.mem_singleton, not_or]
      exact ⟨h.used, (h.elsewhere r hr).symm⟩
    exact (SparesBuffer.handOver b _ (leaving r z) used).2
  have early : (openContext b (TakenOut .boundBroken r.index r z)).reached = false := by
    rw [openContext, kept, cal, agent]
    exact h.early
  rw [h.broken bind other late, endBinding_removes held distinct hr ref, single, moved,
    ← freshAt_takenOut h.used (h.elsewhere r hr)]
  exact settleFor_bindFirst (takenOut_settled h.quiet _ _ r) early 1022

end

end AtArrival

section
variable {s : State} {p : Port} {buf : BufId} {b : Byte}

/-- A context opened at an arrival has its deadline before it (R45). -/
theorem opened_early (u : Uptime) {w : Nat} {limit : BitVec w} (above : 0 < limit.toNat) (small : w ≤ 16) :
    atOrBefore (u + limit.setWidth 40) u = false := by
  rw [Bool.eq_false_iff, Ne, atOrBefore_iff]
  have least : limit.toNat < 65536 := limit.isLt.trans_le (Nat.pow_le_pow_right (by decide) small)
  have width : (limit.setWidth 40).toNat = limit.toNat := by
    rw [BitVec.toNat_setWidth]
    exact Nat.mod_eq_of_lt (by omega)
  have back : (u - (u + limit.setWidth 40)).toNat = 2 ^ 40 - limit.toNat := by
    bv_omega
  omega

theorem goodEnd_context (above : 0 < s.agent.settings.bindLimit.toNat) :
    openContext buf (goodEnd p buf b s) = ⟨sourceOf (storedBytes (s.buffer buf) b), .pending, none,
      s.cal.uptime + s.agent.settings.bindLimit.setWidth 40, false⟩ := by
  rw [openContext, goodEnd_buffer]
  dsimp only
  rw [show (goodEnd p buf b s).cal = s.cal from rfl, show (goodEnd p buf b s).agent = s.agent from rfl,
    opened_early s.cal.uptime above (by decide)]

theorem goodEnd_atArrival (settled : Settled s) (place : EachBufferInOnePlace s)
    (filling : (s.rx.get p).phase = .filling buf) (idle : (s.judges.get p).phase = .idle)
    (above : 0 < s.agent.settings.bindLimit.toNat) :
    AtArrival p buf (storedBytes (s.buffer buf) b) (goodEnd p buf b s) where
  quiet := goodEnd_settled settled place filling
  idle := idle
  bytes := by rw [goodEnd_buffer]
  uptime := by rw [goodEnd_buffer]; rfl
  used := (filling_alone place filling).1
  elsewhere := (filling_alone place filling).2.2
  early := by rw [goodEnd_context above]

end

/-- Settles O9: check 1 and the bind test by cases, each followed by what they leave to follow. -/
theorem idleJudgeTakesTheArrival : Obligations.IdleJudgeTakesTheArrival := by
  refine ⟨fun _ => rfl, ?_, ?_⟩
  · rintro p b s l rfl refused rfl
    refine ⟨disposeOwn_refused, fun cls near => ⟨disposeOwn_room cls near, disposeOwn_full cls near⟩, ?_⟩
    rintro judge rfl
    refine ⟨fun closed unbound => ?_, fun closed bound deadline hd => ?_, fun c bind source inTime => ⟨fun l passed => ?_,
      fun n held => ?_⟩⟩
    · rw [bindTest_closed closed, bindFirst_plain closed unbound]
      rfl
    · rw [bindTest_closed closed, bindFirst_bound bound, hd]
      rfl
    · rw [bindTest_second bind source inTime, bindSecond_passed passed]
      rfl
    · rw [bindTest_second bind source inTime, bindSecond_held held]
      rfl
  · rintro p buf b s filling last l rfl sum form idle place settled above
    have at_ := goodEnd_atArrival (b := b) settled place filling idle above
    have judge := idle_judge settled idle
    refine ⟨_, exec_goodEnd filling last sum form, ?_⟩
    rintro y hy refused rfl
    change y = goodEnd p buf b s at hy
    rw [← hy] at at_ ⊢
    have fields : y.judges = s.judges ∧ y.store = s.store ∧ y.agent = s.agent ∧ y.cal = s.cal ∧ y.ownAddr = s.ownAddr ∧
        y.hold = s.hold ∧ y.pool.free = s.pool.free := by
      rw [hy]
      exact ⟨rfl, rfl, rfl, rfl, rfl, rfl, rfl⟩
    obtain ⟨judges, store, agent, cal, ownAddr, hold, free⟩ := fields
    have context : openContext buf y = ⟨sourceOf (storedBytes (s.buffer buf) b), .pending, none,
        s.cal.uptime + s.agent.settings.bindLimit.setWidth 40, false⟩ := by
      rw [hy]
      exact goodEnd_context above
    refine ⟨fun own barred => ?_, fun own cls near => ⟨fun room busy => ?_, fun full => ?_⟩, fun other => ?_⟩
    · rw [at_.own_refused (by rw [ownAddr]; exact own) (by rw [agent]; exact barred), ← free]
      rfl
    · rw [at_.own_waits (by rw [ownAddr]; exact own) cls (by rw [agent]; exact near) (by rw [agent]; exact room)
        (by rw [agent, store]; exact busy), agent]
    · rw [at_.own_full (by rw [ownAddr]; exact own) cls (by rw [agent]; exact near) (by rw [agent]; exact full), ← free]
      rfl
    · rintro key rfl judgedAs hjudged fresh hfresh
      have up (bind : Option BindContext) (role : JudgedAs) : judgedAs bind role =
          judgedAt p bind (.telegram buf role (keyOf p (storedBytes (s.buffer buf) b))) y := by
        rw [hjudged, judgedAt, store, looksUp, waitsAs, judges, judge, store]
        rfl
      have fresh_eq : fresh = freshAt p buf y := by
        rw [hfresh, freshAt, at_.bytes, context, up, up]
      have other : destOf (storedBytes (s.buffer buf) b) ≠ y.ownAddr := by rw [ownAddr]; exact other
      rw [fresh_eq]
      refine ⟨fun closed => at_.closed other (by rw [judges]; exact closed), fun c bind => ?_⟩
      have bind : (y.judges.get p).bind = some c := by rw [judges]; exact bind
      refine ⟨fun source inTime => ⟨fun x passed => ?_, fun n held => ?_, fun refused => ?_⟩, fun late =>
        ⟨fun refused => ?_, fun x q passed had => ?_, fun n held => ⟨fun gone => ?_, fun r f distinct hr ref port role
          alone => ?_⟩⟩⟩
      · rw [up]
        exact at_.second_passed bind other source (by rw [cal]; exact inTime) passed
      · rw [up]
        exact at_.second_held bind other source (by rw [cal]; exact inTime) held
      · rw [at_.second_refused bind other source (by rw [cal]; exact inTime) refused, ← free, rebound, judges, judge]
        rfl
      · exact at_.broken_refused bind other (by rw [cal]; exact late) refused
      · exact at_.broken_passed bind other (by rw [cal]; exact late) passed had
      · exact at_.broken_gone bind other (by rw [cal]; exact late) held (by rw [hold]; exact gone)
      · have alone : r.partnerRef = none := by
          rw [HeldRecord.partnerRef, HeldRecord.firstPart, role]
          exact alone
        refine at_.broken_held bind other (by rw [cal]; exact late) held ?_ (by rw [hold]; exact hr) ref port alone
        unfold RefsDistinct
        rw [hold]
        exact distinct

end Sys2Proof.Machine
end

section
/-! SUPPORT. Where the options of a telegram stand (R2, R179), and the checks by their conditions (R27, R29 to R35, R37,
R103). -/

namespace Sys2Proof.Machine

/-! ### The options in the bytes of a telegram (section 12.1) -/

/-- Options as they stand in the bytes. -/
def optionRun (l : List (Byte × List Byte)) : List Byte := l.flatMap fun o => o.1 :: BitVec.ofNat 8 o.2.length :: o.2

/-- The options read at their places, from one on. -/
def fieldsAt : Nat → List (Byte × List Byte) → List OptionField
  | _, [] => []
  | i, o :: rest => ⟨o.1, BitVec.ofNat 8 o.2.length, i + 2⟩ :: fieldsAt (i + 2 + o.2.length) rest

theorem optionRun_cons (o : Byte × List Byte) (l : List (Byte × List Byte)) :
    optionRun (o :: l) = [o.1, BitVec.ofNat 8 o.2.length] ++ o.2 ++ optionRun l := by
  simp [optionRun]

theorem optionRun_append (l m : List (Byte × List Byte)) : optionRun (l ++ m) = optionRun l ++ optionRun m :=
  List.flatMap_append

theorem fieldsAt_append (l m : List (Byte × List Byte)) (i : Nat) :
    fieldsAt i (l ++ m) = fieldsAt i l ++ fieldsAt (i + (optionRun l).length) m := by
  induction l generalizing i with
  | nil => rfl
  | cons o l ih =>
    have places : i + (optionRun (o :: l)).length = i + 2 + o.2.length + (optionRun l).length := by
      rw [optionRun_cons]
      simp only [List.length_append, List.length_cons, List.length_nil]
      omega
    rw [List.cons_append, fieldsAt, ih, fieldsAt, places]
    rfl

/-- The options are read where they stand. -/
theorem optionsFrom_run {l : List (Byte × List Byte)} (short : ∀ o ∈ l, o.2.length < 256) (pre post : List Byte) :
    optionsFrom (pre ++ (optionRun l ++ post)) l.length pre.length = fieldsAt pre.length l := by
  induction l generalizing pre with
  | nil => rfl
  | cons o l ih =>
    have run : pre ++ (optionRun (o :: l) ++ post) =
        (pre ++ ([o.1, BitVec.ofNat 8 o.2.length] ++ o.2)) ++ (optionRun l ++ post) := by
      rw [optionRun_cons]
      simp only [List.append_assoc]
    have kind : byteAt (pre ++ (optionRun (o :: l) ++ post)) pre.length = o.1 := by
      rw [optionRun_cons]
      exact byteAt_after pre _ pre.length 0 rfl
    have size : byteAt (pre ++ (optionRun (o :: l) ++ post)) (pre.length + 1) = BitVec.ofNat 8 o.2.length := by
      rw [optionRun_cons]
      exact byteAt_after pre _ pre.length 1 rfl
    have length : (BitVec.ofNat 8 o.2.length).toNat = o.2.length := by
      rw [BitVec.toNat_ofNat]
      exact Nat.mod_eq_of_lt (short o List.mem_cons_self)
    have next := ih (fun q hq => short q (List.mem_cons_of_mem _ hq)) (pre ++ ([o.1, BitVec.ofNat 8 o.2.length] ++ o.2))
    rw [← run] at next
    have place : (pre ++ ([o.1, BitVec.ofNat 8 o.2.length] ++ o.2)).length = pre.length + 2 + o.2.length := by
      simp only [List.length_append, List.length_cons, List.length_nil]
      omega
    rw [place] at next
    rw [List.length_cons, optionsFrom, kind, size, length, next]
    rfl

theorem fieldsAt_find_none {k : Byte} {l : List (Byte × List Byte)} (absent : ∀ v, (k, v) ∉ l) (i : Nat) :
    (fieldsAt i l).find? (fun o => o.kind == k) = none := by
  induction l generalizing i with
  | nil => rfl
  | cons o l ih =>
    have other : ¬((o.1 == k) = true) := by
      rw [beq_iff_eq]
      rintro rfl
      exact absent o.2 List.mem_cons_self
    rw [fieldsAt, List.find?_cons_of_neg (p := fun f : OptionField => f.kind == k) other]
    exact ih (fun v hv => absent v (List.mem_cons_of_mem _ hv)) _

/-- The bytes of a telegram before its options. -/
def headerRun (dest source : Addr) (five six seq size : Byte) : List Byte :=
  0xD3#8 :: be16 dest ++ be16 source ++ [five, six, seq, size]

section
variable {dest source : Addr} {five six seq size : Byte} {options : List (Byte × List Byte)} {payload : List Byte}

theorem telegramBytes_eq (dest source : Addr) (five six seq size : Byte) (options : List (Byte × List Byte))
    (payload : List Byte) : telegramBytes dest source five six seq size options payload =
      headerRun dest source five six seq size ++ (optionRun options ++ payload) := by
  unfold telegramBytes
  rw [List.append_assoc]
  rfl

theorem OptionsInForm.short (form : OptionsInForm six options) : ∀ o ∈ options, o.2.length < 256 := by
  obtain ⟨-, -, lengths⟩ := form
  intro o ho
  rcases lengths o ho with ⟨-, length⟩ | ⟨-, length⟩ | ⟨-, length⟩ <;> omega

theorem optionsOf_telegram (form : OptionsInForm six options) :
    optionsOf (telegramBytes dest source five six seq size options payload) = fieldsAt 9 options := by
  have number : optionCountOf (telegramBytes dest source five six seq size options payload) = options.length :=
    form.1.symm
  rw [optionsOf, number, telegramBytes_eq]
  exact optionsFrom_run form.short (headerRun dest source five six seq size) payload

theorem optionOf_absent (form : OptionsInForm six options) {k : Byte} (absent : ∀ v, (k, v) ∉ options) :
    optionOf (telegramBytes dest source five six seq size options payload) k = none := by
  rw [optionOf, optionsOf_telegram form]
  exact fieldsAt_find_none absent 9

/-- An option divides the options into those before it and those after it, none of its kind. -/
theorem OptionsInForm.split (form : OptionsInForm six options) {k : Byte} {v : List Byte} (has : (k, v) ∈ options) :
    ∃ before after, options = before ++ (k, v) :: after ∧ (∀ w, (k, w) ∉ before) ∧ ∀ w, (k, w) ∉ after := by
  obtain ⟨before, after, rfl⟩ := List.append_of_mem has
  obtain ⟨-, distinct, -⟩ := form
  rw [List.map_append, List.map_cons, List.nodup_append] at distinct
  obtain ⟨-, rest, apart⟩ := distinct
  refine ⟨before, after, rfl, fun w hw => ?_, fun w hw => ?_⟩
  · exact apart k (List.mem_map.2 ⟨_, hw, rfl⟩) k List.mem_cons_self rfl
  · exact (List.nodup_cons.1 rest).1 (List.mem_map.2 ⟨_, hw, rfl⟩)

/-- The place of an option's value. -/
def valuePlace (before : List (Byte × List Byte)) : Nat := 9 + (optionRun before).length + 2

theorem optionOf_split {before after : List (Byte × List Byte)} {k : Byte} {v : List Byte}
    (form : OptionsInForm six (before ++ (k, v) :: after)) (first : ∀ w, (k, w) ∉ before) :
    optionOf (telegramBytes dest source five six seq size (before ++ (k, v) :: after) payload) k =
      some ⟨k, BitVec.ofNat 8 v.length, valuePlace before⟩ := by
  rw [optionOf, optionsOf_telegram form, fieldsAt_append, List.find?_append, fieldsAt_find_none first, Option.none_or,
    fieldsAt]
  exact List.find?_cons_of_pos (beq_self_eq_true k)

/-- A telegram's bytes parted at an option's value. -/
theorem telegramBytes_split (before after : List (Byte × List Byte)) (k : Byte) (v : List Byte) :
    telegramBytes dest source five six seq size (before ++ (k, v) :: after) payload =
      (headerRun dest source five six seq size ++ optionRun before ++ [k, BitVec.ofNat 8 v.length]) ++
        (v ++ (optionRun after ++ payload)) := by
  rw [telegramBytes_eq, optionRun_append, optionRun_cons]
  simp only [List.append_assoc]

theorem valuePlace_eq (before : List (Byte × List Byte)) (k l : Byte) :
    (headerRun dest source five six seq size ++ optionRun before ++ [k, l]).length = valuePlace before := by
  rw [List.length_append, List.length_append]
  rfl

/-- A byte of an option's value. -/
theorem byteAt_value {before after : List (Byte × List Byte)} {k : Byte} {v : List Byte} {j : Nat} (inside : j < v.length) :
    byteAt (telegramBytes dest source five six seq size (before ++ (k, v) :: after) payload) (valuePlace before + j) =
      byteAt v j := by
  rw [telegramBytes_split, byteAt_after _ _ _ _ (valuePlace_eq before k (BitVec.ofNat 8 v.length)), byteAt, byteAt,
    List.getD_append _ _ _ _ inside]

/-! ### What judgement reads of a telegram -/

theorem urgentOf_iff (form : OptionsInForm six options) :
    urgentOf (telegramBytes dest source five six seq size options payload) = true ↔ ∃ v, (0x03, v) ∈ options := by
  unfold urgentOf
  constructor
  · intro found
    by_contra absent
    rw [optionOf_absent form (not_exists.1 absent)] at found
    cases found
  · rintro ⟨v, has⟩
    obtain ⟨before, after, rfl, first, -⟩ := form.split has
    rw [optionOf_split form first]
    rfl

theorem unfilledStamp_absent (form : OptionsInForm six options) (absent : ∀ v, (0x01, v) ∉ options) :
    unfilledStamp (telegramBytes dest source five six seq size options payload) = none := by
  rw [unfilledStamp, optionOf_absent form absent]

theorem OptionsInForm.stamp_length (form : OptionsInForm six options) {v : List Byte} (has : (0x01, v) ∈ options) :
    v.length = 8 := by
  rcases form.2.2 _ has with ⟨-, length⟩ | ⟨other, -⟩ | ⟨other, -⟩
  · exact length
  · exact absurd (show (0x01 : Byte) = 0x02 from other) (by decide)
  · exact absurd (show (0x01 : Byte) = 0x03 from other) (by decide)

theorem OptionsInForm.limit_length (form : OptionsInForm six options) {v : List Byte} (has : (0x02, v) ∈ options) :
    v.length = 2 := by
  rcases form.2.2 _ has with ⟨other, -⟩ | ⟨-, length⟩ | ⟨other, -⟩
  · exact absurd (show (0x02 : Byte) = 0x01 from other) (by decide)
  · exact length
  · exact absurd (show (0x02 : Byte) = 0x03 from other) (by decide)

theorem unfilledStamp_split {before after : List (Byte × List Byte)} {v : List Byte}
    (form : OptionsInForm six (before ++ (0x01, v) :: after)) (first : ∀ w, (0x01, w) ∉ before) :
    unfilledStamp (telegramBytes dest source five six seq size (before ++ (0x01, v) :: after) payload) =
      if (byteAt v 7).getLsbD 7 then none else some (valuePlace before) := by
  have length : v.length = 8 := form.stamp_length (List.mem_append_right _ List.mem_cons_self)
  rw [unfilledStamp, optionOf_split form first]
  dsimp only
  rw [byteAt_value (by omega)]

theorem unfilledStamp_iff (form : OptionsInForm six options) :
    (unfilledStamp (telegramBytes dest source five six seq size options payload)).isSome = true ↔
      ∃ v, (0x01, v) ∈ options ∧ (byteAt v 7).getLsbD 7 = false := by
  by_cases has : ∃ v, (0x01, v) ∈ options
  · obtain ⟨v, has⟩ := has
    obtain ⟨before, after, rfl, first, last⟩ := form.split has
    rw [unfilledStamp_split form first]
    have only (w : List Byte) (hw : (0x01, w) ∈ before ++ (0x01, v) :: after) : w = v := by
      rcases List.mem_append.1 hw with h | h
      · exact absurd h (first w)
      · rcases List.mem_cons.1 h with h | h
        · exact (Prod.mk.inj h).2
        · exact absurd h (last w)
    cases marker : (byteAt v 7).getLsbD 7 with
    | true =>
      refine iff_of_false Bool.false_ne_true ?_
      rintro ⟨w, hw, clear⟩
      rw [only w hw, marker] at clear
      cases clear
    | false => exact iff_of_true rfl ⟨v, has, marker⟩
  · rw [unfilledStamp_absent form (not_exists.1 has)]
    exact iff_of_false Bool.false_ne_true fun ⟨v, h, _⟩ => has ⟨v, h⟩

theorem holdLimitOf_some (form : OptionsInForm six options) {v : List Byte} (has : (0x02, v) ∈ options) :
    holdLimitOf (telegramBytes dest source five six seq size options payload) = some (halfAt v 0) := by
  have length := form.limit_length has
  obtain ⟨before, after, rfl, first, -⟩ := form.split has
  rw [holdLimitOf, optionOf_split form first, Option.map_some, halfAt, halfAt, byteAt_value (by omega),
    ← Nat.add_zero (valuePlace before), byteAt_value (by omega)]

theorem holdLimitOf_none (form : OptionsInForm six options) (absent : ∀ v, (0x02, v) ∉ options) :
    holdLimitOf (telegramBytes dest source five six seq size options payload) = none := by
  rw [holdLimitOf, optionOf_absent form absent]
  rfl

end

/-! ### Checks 4 and 5 (R29, R30) -/

/-- A destination is admitted by the broadcast mark or by the range. -/
theorem destAdmitted_iff (e : StreamEntry) (dest : Addr) : destAdmitted e dest = true ↔
    (dest = 0xFFFF ∧ e.broadcast = true) ∨
      (dest ≠ 0xFFFF ∧ e.dstLow.toNat ≤ dest.toNat ∧ dest.toNat ≤ e.dstHigh.toNat) := by
  unfold destAdmitted
  by_cases broadcast : dest = 0xFFFF
  · rw [if_pos broadcast]
    exact ⟨fun mark => .inl ⟨broadcast, mark⟩, fun h => h.elim And.right fun other => absurd broadcast other.1⟩
  · rw [if_neg broadcast, Bool.and_eq_true, decide_eq_true_eq, decide_eq_true_eq]
    exact ⟨fun range => .inr ⟨broadcast, range⟩, fun h => h.elim (fun mark => absurd mark.1 broadcast) And.right⟩

theorem admission_eq (c : Settings) (e : StreamEntry) (d : Described) : admission c e d =
    if e.privLimit.toNat < max d.priv.toNat (c.floor d.port).toNat then some .privilege
    else if ¬((d.dest = 0xFFFF ∧ e.broadcast = true) ∨
      (d.dest ≠ 0xFFFF ∧ e.dstLow.toNat ≤ d.dest.toNat ∧ d.dest.toNat ≤ e.dstHigh.toNat)) then some .range
    else none := by
  rw [admission, effectivePriv_toNat]
  simp only [← destAdmitted_iff]
  cases destAdmitted e d.dest <;> rfl

/-! ### Checks 6 to 8 (R31 to R33) -/

theorem windowsOpen_eq_false (set openSet : WindowSet) :
    windowsOpen set openSet = false ↔ set ≠ 0 ∧ set &&& openSet = 0 := by
  simp [windowsOpen]

theorem lapsed_iff (s : State) : s.lapsed = true ↔ s.agent.supervision.state = .lapsed := by
  unfold State.lapsed
  cases s.agent.supervision.state <;> decide

theorem blocks_iff (a : UnsupPolicy) : (a == .block) = true ↔ a = .block := by cases a <;> decide

theorem actOn_eq (a : Action) (r : HoldReason) : actOn a r = if a = .hold then .hold r else .refuse r.refusal := by
  cases a <;> rfl

theorem policyNow_eq (s : State) (bank : Bank) (i : Option Index) (c : HeldContext) : policyNow s bank i c =
    if s.agent.supervision.state = .lapsed ∧ c.unsup = .block then .refuse .unsupervised
    else if c.windows ≠ 0 ∧ c.windows &&& s.windows.openSets.get bank = 0 then
      (if c.closed = .hold then .hold .window else .refuse .windowClosed)
    else if c.ceiling ≠ 0 ∧ s.creditOf i = 0 then (if c.overRate = .hold then .hold .rate else .refuse .rate)
    else .pass := by
  have rate : (c.ceiling != 0 && s.creditOf i == 0) = true ↔ c.ceiling ≠ 0 ∧ s.creditOf i = 0 := by simp
  have block : (s.lapsed && c.unsup == .block) = true ↔ s.agent.supervision.state = .lapsed ∧ c.unsup = .block := by
    rw [Bool.and_eq_true, lapsed_iff, blocks_iff]
  have shut : (!windowsOpen c.windows (s.windows.openSets.get bank)) = true ↔
      c.windows ≠ 0 ∧ c.windows &&& s.windows.openSets.get bank = 0 := by
    rw [Bool.not_eq_true', windowsOpen_eq_false]
  unfold policyNow policyChecks
  simp only [block, shut, rate, actOn_eq]
  rfl

theorem holdOrRefuse_eq (f : Facts) (r : HoldReason) (limit : Nat) : holdOrRefuse f r limit =
    if limit ≠ 0 then .hold f r limit else .refuse r.refusal f.index := by
  unfold holdOrRefuse
  by_cases none : limit = 0
  · rw [if_pos none, if_neg (not_not.2 none)]
  · rw [if_neg none, if_pos none]

/-- Checks 6 to 8 against an entry that admits the telegram (R31 to R34). -/
theorem judgeByEntry_admitted {s : State} {bank : Bank} {i : Index} {e : StreamEntry} {d : Described}
    (admitted : admission s.agent.settings e d = none) : judgeByEntry s bank i e d =
      if s.agent.supervision.state = .lapsed ∧ e.unsup = .block then .refuse .unsupervised (some i)
      else if e.windows ≠ 0 ∧ e.windows &&& s.windows.openSets.get bank = 0 then
        if e.closed = .hold ∧ effectiveLimit e d ≠ 0 then .hold (factsOf bank i e d) .window (effectiveLimit e d)
        else .refuse .windowClosed (some i)
      else if e.ceiling ≠ 0 ∧ (s.stream i).credit = 0 then
        if e.overRate = .hold ∧ effectiveLimit e d ≠ 0 then .hold (factsOf bank i e d) .rate (effectiveLimit e d)
        else .refuse .rate (some i)
      else .pass (factsOf bank i e d) := by
  unfold judgeByEntry
  rw [admitted]
  dsimp only
  rw [policyNow_eq]
  by_cases lapsed : s.agent.supervision.state = .lapsed ∧ e.context.unsup = .block
  · rw [if_pos lapsed, if_pos (show _ ∧ e.unsup = .block from lapsed)]
  rw [if_neg lapsed, if_neg (show ¬(_ ∧ e.unsup = .block) from lapsed)]
  by_cases shut : e.context.windows ≠ 0 ∧ e.context.windows &&& s.windows.openSets.get bank = 0
  · rw [if_pos shut, if_pos (show e.windows ≠ 0 ∧ e.windows &&& _ = 0 from shut)]
    by_cases holds : e.closed = .hold
    · rw [if_pos (show e.context.closed = .hold from holds)]
      dsimp only
      rw [holdOrRefuse_eq]
      by_cases limit : effectiveLimit e d ≠ 0
      · rw [if_pos limit, if_pos ⟨holds, limit⟩]
      · rw [if_neg limit, if_neg fun both => limit both.2]
        rfl
    · rw [if_neg (show ¬(e.context.closed = .hold) from holds), if_neg fun both => holds both.1]
  rw [if_neg shut, if_neg (show ¬(e.windows ≠ 0 ∧ e.windows &&& _ = 0) from shut)]
  by_cases spent : e.context.ceiling ≠ 0 ∧ s.creditOf (some i) = 0
  · rw [if_pos spent, if_pos (show e.ceiling ≠ 0 ∧ (s.stream i).credit = 0 from spent)]
    by_cases holds : e.overRate = .hold
    · rw [if_pos (show e.context.overRate = .hold from holds)]
      dsimp only
      rw [holdOrRefuse_eq]
      by_cases limit : effectiveLimit e d ≠ 0
      · rw [if_pos limit, if_pos ⟨holds, limit⟩]
      · rw [if_neg limit, if_neg fun both => limit both.2]
        rfl
    · rw [if_neg (show ¬(e.context.overRate = .hold) from holds), if_neg fun both => holds both.1]
  · rw [if_neg spent, if_neg (show ¬(e.ceiling ≠ 0 ∧ (s.stream i).credit = 0) from spent)]

theorem outgoing_eq (e : StreamEntry) (dest : Addr) : outgoing e dest =
    if dest = 0xFFFF then dest else match e.remap with
      | some base => base + (dest - e.dstLow)
      | none => dest := by
  unfold outgoing
  cases e.remap with
  | none => exact (ite_self dest).symm
  | some base => rfl

theorem chosenList_eq (e : StreamEntry) (d : Described) :
    chosenList e d = if d.urgent = true ∧ e.urgent = true then .urgent else .normal := by
  simp only [chosenList, Bool.and_eq_true]

/-- Settles O28: the layout of the options, then the checks one after another. -/
theorem checksDecideTheVerdict : Obligations.ChecksDecideTheVerdict := by
  refine ⟨?_, fun s bank d => ⟨fun i e => ?_, rfl, fun i => ⟨rfl, rfl⟩, ?_, fun i e => ?_, fun e => rfl⟩⟩
  · rintro p dest source five six seq size options payload form d rfl
    exact ⟨rfl, be16_join source, be16_join dest, rfl, rfl, urgentOf_iff form, unfilledStamp_iff form,
      fun v has => holdLimitOf_some form has, fun absent => holdLimitOf_none form absent⟩
  · have checks := admission_eq s.agent.settings e d
    by_cases high : e.privLimit.toNat < max d.priv.toNat (s.agent.settings.floor d.port).toNat
    · rw [if_pos high] at checks ⊢
      exact verdictOf_found_of_admission checks
    · rw [if_neg high] at checks ⊢
      by_cases away : ¬((d.dest = 0xFFFF ∧ e.broadcast = true) ∨
          (d.dest ≠ 0xFFFF ∧ e.dstLow.toNat ≤ d.dest.toNat ∧ d.dest.toNat ≤ e.dstHigh.toNat))
      · rw [if_pos away] at checks ⊢
        exact verdictOf_found_of_admission checks
      · rw [if_neg away] at checks ⊢
        exact judgeByEntry_admitted checks
  · rintro i c credit rfl
    rw [policyNow_eq]
    cases i <;> rfl
  · rw [factsOf, outgoing_eq, chosenList_eq]
    rfl

end Sys2Proof.Machine
end

section
/-! SUPPORT. What the work on held records leaves to the Judges and to a scan in progress (R103 to R107). -/

namespace Sys2Proof.Machine

/-! ### What the work on held records leaves to the Judges -/

/-- `t` has the phase of the Table Store, the Agent, the arrival uptimes and the Judges' items of `s`; each Judge has
its request or none in its place, and its bind context, whose outcome may be another, or none. -/
structure KeepsJudging (s t : State) : Prop where
  store : t.store.phase = s.store.phase
  agent : t.agent = s.agent
  uptimes : SameUptimes s t
  phase : ∀ p, (t.judges.get p).phase = (s.judges.get p).phase
  arrivals : ∀ p, (t.judges.get p).arrivals = (s.judges.get p).arrivals
  bind : ∀ p c, (t.judges.get p).bind = some c →
    ∃ old, (s.judges.get p).bind = some old ∧ c.deadline = old.deadline ∧ c.reached = old.reached
  slot : ∀ p, (t.judges.get p).slot = (s.judges.get p).slot ∨ (t.judges.get p).slot = none

namespace KeepsJudging
variable {s t u : State}

theorem trans (a : KeepsJudging s t) (b : KeepsJudging t u) : KeepsJudging s u where
  store := b.store.trans a.store
  agent := b.agent.trans a.agent
  uptimes := SameUptimes.trans a.uptimes b.uptimes
  phase p := (b.phase p).trans (a.phase p)
  arrivals p := (b.arrivals p).trans (a.arrivals p)
  bind p c opened := by
    obtain ⟨mid, middle, deadline, reached⟩ := b.bind p c opened
    obtain ⟨old, before, sooner, earlier⟩ := a.bind p mid middle
    exact ⟨old, before, deadline.trans sooner, reached.trans earlier⟩
  slot p := (b.slot p).elim (fun same => by rw [same]; exact a.slot p) .inr

theorem of_judges (store : t.store.phase = s.store.phase) (agent : t.agent = s.agent) (judges : t.judges = s.judges)
    (uptimes : SameUptimes s t) : KeepsJudging s t where
  store := store
  agent := agent
  uptimes := uptimes
  phase p := by rw [judges]
  arrivals p := by rw [judges]
  bind p c opened := ⟨c, by rw [← judges]; exact opened, rfl, rfl⟩
  slot p := .inl (by rw [judges])

theorem refl (s : State) : KeepsJudging s s := of_judges rfl rfl rfl (.refl s)

theorem out (h : SameButOut s t) (uptimes : SameUptimes s t) : KeepsJudging s t :=
  of_judges (by rw [h.store]) h.agent h.judges uptimes

theorem removal (h : Removal s t) : KeepsJudging s t where
  store := by rw [h.store]
  agent := h.agent
  uptimes := h.uptimes
  phase := h.phase
  arrivals := h.arrivals
  bind p c opened := by
    rcases h.bind p with same | closed
    · exact ⟨c, same.symm.trans opened, rfl, rfl⟩
    · exact nomatch closed.symm.trans opened
  slot p := (h.request p).elim (fun same => .inl same.1) fun gone => .inr gone.2.1

theorem countPassed (i : Option Index) (s : State) : KeepsJudging s (countPassed i s) := by
  cases i with
  | none => exact .refl s
  | some i => exact of_judges rfl rfl rfl fun _ => rfl

theorem countRefused (i : Option Index) (s : State) : KeepsJudging s (countRefused i s) := by
  cases i with
  | none => exact .refl s
  | some i => exact of_judges rfl rfl rfl fun _ => rfl

theorem countHeld (i : Option Index) (s : State) : KeepsJudging s (countHeld i s) := by
  cases i with
  | none => exact .refl s
  | some i => exact of_judges rfl rfl rfl fun _ => rfl

theorem consume (i : Option Index) (c : HeldContext) (s : State) : KeepsJudging s (consume i c s) := by
  cases i with
  | none => exact .refl s
  | some i =>
    unfold Machine.consume requestCredit
    dsimp only
    split
    · exact .refl s
    · split
      · exact .refl s
      · exact of_judges rfl rfl rfl fun _ => rfl

theorem prepareBuffer (b : BufId) (d : Addr) (x : StampPolicy) (s : State) :
    KeepsJudging s (prepareBuffer b d x s) := .out (prepareBuffer_out b d x s) (setBuffer_uptimes b _ s rfl)

theorem txAppend {p : Port} {k : ListKind} {b : BufId} (h : txAppend p k b s = some t) : KeepsJudging s t :=
  .out (txAppend_out h) (txAppend_uptimes h)

theorem setHold (x : HoldQueue) (s : State) : KeepsJudging s (s.setHold x) := of_judges rfl rfl rfl fun _ => rfl

theorem takeOut (r : HeldRecord) (reason : Reason) (i : Option Index) (s : State) :
    KeepsJudging s (takeOut r reason i s) := .removal (.takenOut reason i r s)

theorem takeOutPartner (r : HeldRecord) (s : State) : KeepsJudging s (takeOutPartner r s) := by
  rw [takeOutPartner_eq]
  split
  · exact .takeOut ..
  · exact .refl s

theorem removeFirst (r : HeldRecord) (reason : Reason) (i : Option Index) (s : State) :
    KeepsJudging s (removeFirst r reason i s) := by
  unfold Machine.removeFirst
  rw [withdraw_eq, reportFate_eq]
  have pair := (KeepsJudging.takeOut r reason i s).trans (.takeOutPartner r _)
  refine KeepsJudging.trans ?_ (.removal (.withdrawn r.port r.ref _))
  split
  · exact pair.trans (.removal (.unbound r.port r.ref _))
  · exact pair

theorem removeCounted (r : HeldRecord) (reason : Reason) (i : Option Index) (s : State) :
    KeepsJudging s (removeCounted r reason i s) := (KeepsJudging.removeFirst r reason i s).trans (.countRefused i _)

theorem releasePartner (r : HeldRecord) (s : State) : KeepsJudging s (releasePartner r s) := by
  unfold Machine.releasePartner
  split
  · exact .refl s
  · split
    · exact .refl s
    · next q _ =>
      have ready := KeepsJudging.prepareBuffer q.buffer q.outDest q.stamp s
      dsimp only
      split
      · next sent => exact ((ready.trans (.txAppend sent)).trans (.setHold _ _)).trans (.countPassed _ _)
      · exact (ready.trans (.takeOut ..)).trans (.countRefused _ _)

theorem releaseFirst (r : HeldRecord) (s : State) : KeepsJudging s (releaseFirst r s) := by
  have ready := KeepsJudging.prepareBuffer r.buffer r.outDest r.stamp s
  unfold Machine.releaseFirst
  dsimp only
  split
  · next sent =>
    exact (((ready.trans (.txAppend sent)).trans (.setHold _ _)).trans (.countPassed _ _)).trans (.releasePartner r _)
  · exact ready.trans (.removeCounted ..)

theorem evaluate (r : HeldRecord) (f : FirstPart) (s : State) : KeepsJudging s (evaluate r f s) := by
  unfold Machine.evaluate
  split
  · exact .removeCounted ..
  · exact .setHold _ s
  · exact (KeepsJudging.consume ..).trans (.releaseFirst r _)

theorem catchUp (r : HeldRecord) (f : FirstPart) (s : State) : KeepsJudging s (catchUp r f s) := by
  unfold Machine.catchUp
  split
  · exact .removeCounted ..
  · split
    · exact .evaluate r f s
    · exact .refl s

theorem someWaiting (h : KeepsJudging s t) (p : Port) (d : Uptime) : someWaiting p d t = someWaiting p d s := by
  have arrived : arrivedBy t d = arrivedBy s d := by
    funext c
    rw [arrivedBy, arrivedBy, h.uptimes c]
  unfold Machine.someWaiting
  rw [h.phase, h.arrivals, arrived]

/-- Only requests can follow it, where only requests could follow before. -/
theorem onlyRequests (h : KeepsJudging s t) (before : OnlyRequests s) : OnlyRequests t where
  bindings p := by
    unfold Machine.endReached
    split
    · rfl
    · next c opened =>
      obtain ⟨old, was, deadline, reached⟩ := h.bind p c opened
      have none := before.bindings p
      unfold Machine.endReached at none
      rw [was] at none
      rw [deadline, reached, h.someWaiting]
      dsimp only at none
      split at none
      · cases none
      · next stays => exact if_neg stays
  commands := beginCommand_none_congr (by rw [h.agent]) (by rw [h.agent]) h.store before.commands
  arrivals p := by
    have none := before.arrivals p
    unfold Machine.takeArrival at none ⊢
    rw [h.phase, h.arrivals]
    split at none
    · dsimp only at none
      split at none <;> cases none
    · rfl

end KeepsJudging

/-! ### What the work on a record and the end of a judgement do not read -/

/-- A change of what no verdict reads: the Judges' phases, the use of the table port, the scans, and the requests of the
ports, none of which it places. -/
structure Aside where
  phases : PerPort (JudgePhase → JudgePhase) := ⟨id, id⟩
  port : PortUse → PortUse := id
  scan : Option Scan → Option Scan := id
  waiting : List ScanKind → List ScanKind := id
  requests : PerPort (Option Request → Option Request) := ⟨id, id⟩
  unplaced : ∀ p, requests.get p none = none := by
    intro p
    cases p <;> rfl

/-- The state with such a change. -/
def aside (a : Aside) (s : State) : State := { s with
  judges := ⟨{ s.judges.n with phase := a.phases.n s.judges.n.phase },
    { s.judges.f with phase := a.phases.f s.judges.f.phase }⟩
  store := { s.store with port := a.port s.store.port }
  hold := { s.hold with
    scan := a.scan s.hold.scan
    waiting := a.waiting s.hold.waiting
    outstanding := ⟨a.requests.n s.hold.outstanding.n, a.requests.f s.hold.outstanding.f⟩ } }

section
variable (a : Aside)

theorem aside_judge (p : Port) (s : State) : (aside a s).judges.get p =
    { s.judges.get p with phase := a.phases.get p (s.judges.get p).phase } := by cases p <;> rfl

/-- A change of a Judge that leaves its phase. -/
theorem mapJudge_aside (p : Port) (g : Judge → Judge) (s : State)
    (keeps : ∀ j x, g { j with phase := x } = { g j with phase := x }) (same : ∀ j, (g j).phase = j.phase) :
    (aside a s).mapJudge p g = aside a (s.mapJudge p g) := by
  unfold State.mapJudge
  rw [aside_judge, keeps, ← same]
  cases p <;> rfl

theorem setBind_aside (p : Port) (x : Option BindContext) (s : State) :
    setBind p x (aside a s) = aside a (setBind p x s) := by
  unfold setBind
  exact mapJudge_aside a p _ s (fun _ _ => rfl) fun _ => rfl

theorem handOver_aside (r : Handed) (s : State) : handOver r (aside a s) = aside a (handOver r s) := by
  have same := handOver_out r s
  have moved := handOver_refit s.rx (aside a s).judges (aside a s).store s.policer (h := (aside a s).hold) (s := s) rfl r
  refine moved.trans ?_
  unfold refit aside
  rw [same.hold, same.judges, same.store, ← same.rx, ← same.policer]

theorem tell_aside (f : Flag) (s : State) : tell f (aside a s) = aside a (tell f s) := by
  have same := tell_out f s
  have moved := tell_refit s.rx (aside a s).judges (aside a s).store s.policer (h := (aside a s).hold) (s := s) rfl f
  refine moved.trans ?_
  unfold refit aside
  rw [same.hold, same.judges, same.store, ← same.rx, ← same.policer]

theorem takeOut_aside (r : HeldRecord) (reason : Reason) (i : Option Index) (s : State) :
    takeOut r reason i (aside a s) = aside a (takeOut r reason i s) :=
  handOver_aside a (heldExc r reason i s) (release r.buffer (dropRecord r.ref s))

theorem takeOutPartner_aside (r : HeldRecord) (s : State) :
    takeOutPartner r (aside a s) = aside a (takeOutPartner r s) := by
  unfold takeOutPartner
  cases r.partnerRef with
  | none => rfl
  | some n =>
    dsimp only
    rw [show (aside a s).heldRecord n = s.heldRecord n from rfl]
    cases s.heldRecord n with
    | none => rfl
    | some q => exact takeOut_aside ..

theorem reportFate_aside (r : HeldRecord) (s : State) : reportFate r (aside a s) = aside a (reportFate r s) := by
  unfold reportFate
  rw [aside_judge]
  dsimp only
  split
  · exact setBind_aside a r.port none s
  · rfl

theorem endRequest_aside (p : Port) (s : State) : endRequest p (aside a s) = aside a (endRequest p s) := by
  have unplaced := a.unplaced p
  unfold endRequest aside State.setHold
  cases p with
  | n =>
    change a.requests.n none = none at unplaced
    dsimp only [PerPort.set]
    rw [unplaced]
  | f =>
    change a.requests.f none = none at unplaced
    dsimp only [PerPort.set]
    rw [unplaced]

theorem withdraw_aside (r : HeldRecord) (s : State) : withdraw r (aside a s) = aside a (withdraw r s) := by
  unfold withdraw
  rw [aside_judge]
  dsimp only
  split
  · have emptied := mapJudge_aside a r.port (fun j => { j with slot := none }) s (fun _ _ => rfl) fun _ => rfl
    rw [emptied]
    exact endRequest_aside ..
  · rfl

theorem countRefused_aside (i : Option Index) (s : State) :
    countRefused i (aside a s) = aside a (countRefused i s) := by cases i <;> rfl

theorem countPassed_aside (i : Option Index) (s : State) :
    countPassed i (aside a s) = aside a (countPassed i s) := by cases i <;> rfl

theorem countHeld_aside (i : Option Index) (s : State) :
    countHeld i (aside a s) = aside a (countHeld i s) := by cases i <;> rfl

theorem removeFirst_aside (r : HeldRecord) (reason : Reason) (i : Option Index) (s : State) :
    removeFirst r reason i (aside a s) = aside a (removeFirst r reason i s) := by
  unfold removeFirst
  rw [takeOut_aside, takeOutPartner_aside, reportFate_aside, withdraw_aside]

theorem removeCounted_aside (r : HeldRecord) (reason : Reason) (i : Option Index) (s : State) :
    removeCounted r reason i (aside a s) = aside a (removeCounted r reason i s) := by
  unfold removeCounted
  rw [removeFirst_aside, countRefused_aside]

theorem consume_aside (i : Option Index) (c : HeldContext) (s : State) :
    consume i c (aside a s) = aside a (consume i c s) := by
  cases i with
  | none => rfl
  | some i =>
    unfold consume requestCredit
    dsimp only
    rw [show (aside a s).stream i = s.stream i from rfl]
    split
    · rfl
    · split <;> rfl

theorem txAppend_aside (p : Port) (k : ListKind) (b : BufId) (s : State) :
    txAppend p k b (aside a s) = (txAppend p k b s).map (aside a) := by
  unfold txAppend
  rw [show (aside a s).tx = s.tx from rfl]
  split <;> rfl

theorem releasePartner_aside (r : HeldRecord) (s : State) :
    releasePartner r (aside a s) = aside a (releasePartner r s) := by
  unfold releasePartner
  cases r.partnerRef with
  | none => rfl
  | some n =>
    dsimp only
    rw [show (aside a s).heldRecord n = s.heldRecord n from rfl]
    cases s.heldRecord n with
    | none => rfl
    | some q =>
      dsimp only
      rw [show prepareBuffer q.buffer q.outDest q.stamp (aside a s) =
        aside a (prepareBuffer q.buffer q.outDest q.stamp s) from rfl, txAppend_aside]
      cases txAppend (otherPort q.port) r.list q.buffer (prepareBuffer q.buffer q.outDest q.stamp s) with
      | none =>
        dsimp only [Option.map_none]
        rw [takeOut_aside, countRefused_aside]
      | some u => exact countPassed_aside a q.index (dropRecord q.ref u)

theorem releaseFirst_aside (r : HeldRecord) (s : State) :
    releaseFirst r (aside a s) = aside a (releaseFirst r s) := by
  unfold releaseFirst
  dsimp only
  rw [show prepareBuffer r.buffer r.outDest r.stamp (aside a s) =
    aside a (prepareBuffer r.buffer r.outDest r.stamp s) from rfl, txAppend_aside]
  cases txAppend (otherPort r.port) r.list r.buffer (prepareBuffer r.buffer r.outDest r.stamp s) with
  | none => exact removeCounted_aside ..
  | some u =>
    dsimp only [Option.map_some]
    rw [show dropRecord r.ref (aside a u) = aside a (dropRecord r.ref u) from rfl, countPassed_aside,
      releasePartner_aside]

theorem policyNow_aside (bank : Bank) (i : Option Index) (c : HeldContext) (s : State) :
    policyNow (aside a s) bank i c = policyNow s bank i c := by cases i <;> rfl

theorem evaluate_aside (r : HeldRecord) (f : FirstPart) (s : State) :
    evaluate r f (aside a s) = aside a (evaluate r f s) := by
  unfold evaluate
  rw [policyNow_aside]
  cases policyNow s r.bank r.index f.context with
  | refuse reason => exact removeCounted_aside ..
  | hold reason => rfl
  | pass =>
    dsimp only
    rw [consume_aside, releaseFirst_aside]

end

/-- The state with other scans. -/
def withScans (x : Option Scan) (w : List ScanKind) (s : State) : State :=
  { s with hold := { s.hold with scan := x, waiting := w } }

theorem evaluate_withScans (x : Option Scan) (w : List ScanKind) (r : HeldRecord) (f : FirstPart) (s : State) :
    evaluate r f (withScans x w s) = withScans x w (evaluate r f s) :=
  evaluate_aside { scan := fun _ => x, waiting := fun _ => w } r f s

/-! ### The bytes of a telegram that passes (R36) -/

theorem byteAt_putBytes_before {l new : List Byte} {i n : Nat} (before : n < i) (inside : n < l.length) :
    byteAt (putBytes l i new) n = byteAt l n := by
  have taken : n < (l.take i).length := by
    rw [List.length_take]
    omega
  unfold byteAt putBytes
  rw [List.append_assoc, List.getD_append _ _ _ _ taken, List.getD_eq_getElem?_getD, List.getElem?_take_of_lt before,
    ← List.getD_eq_getElem?_getD]

theorem byteAt_putBytes_after {l new : List Byte} {i n : Nat} (after : i + new.length ≤ n) (inside : i ≤ l.length) :
    byteAt (putBytes l i new) n = byteAt l n := by
  have length : (l.take i ++ new).length = i + new.length := by
    rw [List.length_append, List.length_take, Nat.min_eq_left inside]
  unfold byteAt putBytes
  rw [List.getD_append_right _ _ _ _ (by omega), length, List.getD_eq_getElem?_getD, List.getElem?_drop,
    Nat.add_sub_cancel' after, ← List.getD_eq_getElem?_getD]

theorem byteAt_writeDest (l : List Byte) (d : Addr) {n : Nat} (after : 3 ≤ n) : byteAt (writeDest l d) n = byteAt l n := by
  cases l with
  | nil =>
    unfold byteAt
    exact (List.getD_eq_default _ _ (show (writeDest [] d).length ≤ n from Nat.le_of_succ_le after)).trans
      (List.getD_eq_default _ _ (Nat.zero_le n)).symm
  | cons x l => exact byteAt_putBytes_after (new := be16 d) after (Nat.succ_le_succ (Nat.zero_le _))

theorem value_of_mem_optionsFrom {t : List Byte} {o : OptionField} {n i : Nat} (h : o ∈ optionsFrom t n i) :
    i + 2 ≤ o.value := by
  induction n generalizing i with
  | zero => cases h
  | succ n ih =>
    rcases List.mem_cons.1 h with rfl | rest
    · exact le_refl _
    · have later := ih rest
      omega

/-- A STAMP slot stands after the header. -/
theorem unfilledStamp_place {t : List Byte} {i : Nat} (slot : unfilledStamp t = some i) : 6 < i ∧ 6 < t.length := by
  unfold unfilledStamp at slot
  split at slot
  · next o found =>
    split at slot
    · cases slot
    · obtain rfl := Option.some.inj slot
      have member : o ∈ optionsFrom t (optionCountOf t) 9 := List.mem_of_find?_eq_some found
      refine ⟨by have := value_of_mem_optionsFrom member; omega, ?_⟩
      by_contra short
      have none : optionCountOf t = 0 := by
        rw [optionCountOf, byteAt, List.getD_eq_default _ _ (by omega)]
        rfl
      rw [none] at member
      cases member
  · cases slot

theorem byteAt_fillStamp (t : List Byte) (time : TimeStamp) (q : Quality) {n : Nat} (header : n ≤ 6) :
    byteAt (fillStamp t time q) n = byteAt t n := by
  unfold fillStamp
  split
  · next i slot =>
    obtain ⟨after, inside⟩ := unfilledStamp_place slot
    exact byteAt_putBytes_before (by omega) (by omega)
  · rfl

/-- A preparation writes no byte of the header after the destination. -/
theorem byteAt_prepared (x : Buffer) (d : Addr) (stamp : StampPolicy) {n : Nat} (after : 3 ≤ n) (header : n ≤ 6) :
    byteAt (prepared x d stamp) n = byteAt x.bytes n := by
  have written : byteAt (if d = destOf x.bytes then x.bytes else writeDest x.bytes d) n = byteAt x.bytes n := by
    split
    · rfl
    · exact byteAt_writeDest _ _ after
  unfold prepared
  cases stamp with
  | ignore => exact written
  | fill => exact (byteAt_fillStamp _ _ _ header).trans written

theorem sourceOf_prepared (x : Buffer) (d : Addr) (stamp : StampPolicy) :
    sourceOf (prepared x d stamp) = sourceOf x.bytes := by
  unfold sourceOf halfAt
  rw [byteAt_prepared x d stamp (by decide) (by decide), byteAt_prepared x d stamp (by decide) (by decide)]

theorem classOf_prepared (x : Buffer) (d : Addr) (stamp : StampPolicy) :
    classOf (prepared x d stamp) = classOf x.bytes := by
  unfold classOf
  rw [byteAt_prepared x d stamp (by decide) (by decide)]

end Sys2Proof.Machine
end

section
/-! SUPPORT. A scan's step, and the scans that a trigger makes (R80, R103 to R108, R115). -/

namespace Sys2Proof.Machine

/-! ### Which records a scan takes (R106, R107) -/

theorem window_reason_iff (r : HoldReason) : (r == .window) = true ↔ r = .window := by cases r <;> decide

theorem rate_reason_iff (r : HoldReason) : (r == .rate) = true ↔ r = .rate := by cases r <;> decide

theorem bank_beq_iff (a b : Bank) : (a == b) = true ↔ a = b := by cases a <;> cases b <;> decide

theorem firstPart_iff (r : HeldRecord) (f : FirstPart) : r.firstPart = some f ↔ r.role = .first f := by
  unfold HeldRecord.firstPart
  cases r.role <;> simp

theorem scanTakes_first {r : HeldRecord} {f : FirstPart} (role : r.role = .first f) (k : ScanKind) :
    scanTakes k r = true ↔ r.pending = false ∧ f.awaiting = false ∧ match k with
      | .window bank set => f.reason = .window ∧ r.bank = bank ∧ f.context.windows &&& set ≠ 0
      | .refill => f.reason = .rate := by
  unfold scanTakes
  rw [(firstPart_iff r f).2 role]
  cases k with
  | window bank set =>
    simp only [Bool.and_eq_true, Bool.not_eq_true', window_reason_iff, bank_beq_iff, bne_iff_ne, ne_eq, and_assoc]
  | refill => simp only [Bool.and_eq_true, Bool.not_eq_true', rate_reason_iff, and_assoc]

theorem scanEvaluates_first {r : HeldRecord} {f : FirstPart} (role : r.role = .first f) (k : ScanKind) :
    scanEvaluates k r = true ↔ r.pending = false ∧ f.awaiting = false ∧ match k with
      | .window bank _ => f.reason = .window ∧ r.bank = bank
      | .refill => f.reason = .rate := by
  unfold scanEvaluates
  rw [(firstPart_iff r f).2 role]
  cases k with
  | window bank set => simp only [Bool.and_eq_true, Bool.not_eq_true', window_reason_iff, bank_beq_iff, and_assoc]
  | refill => simp only [Bool.and_eq_true, Bool.not_eq_true', rate_reason_iff, and_assoc]

theorem scanTakes_partner {r : HeldRecord} {n : Nat} (role : r.role = .partner n) (k : ScanKind) :
    scanTakes k r = false := by
  unfold scanTakes HeldRecord.firstPart
  rw [role]

theorem scanEvaluates_partner {r : HeldRecord} {n : Nat} (role : r.role = .partner n) (k : ScanKind) :
    scanEvaluates k r = false := by
  unfold scanEvaluates HeldRecord.firstPart
  rw [role]

/-! ### The waiting scans (R108) -/

theorem addScan_newWindow {bank : Bank} {w : List ScanKind} (absent : ∀ v, .window bank v ∉ w) (set : WindowSet) :
    addScan (.window bank set) w = w ++ [.window bank set] := by
  induction w with
  | nil => rfl
  | cons k rest ih =>
    have later := ih fun v hv => absent v (List.mem_cons_of_mem _ hv)
    cases k with
    | refill => exact congrArg (ScanKind.refill :: ·) later
    | window b v =>
      have other : bank ≠ b := by
        rintro rfl
        exact absent v List.mem_cons_self
      unfold addScan
      dsimp only
      rw [if_neg other, later]
      rfl

theorem addScan_oldWindow {bank : Bank} {l l' : List ScanKind} (first : ∀ u, .window bank u ∉ l) (v set : WindowSet) :
    addScan (.window bank set) (l ++ .window bank v :: l') = l ++ .window bank (v ||| set) :: l' := by
  induction l with
  | nil => exact if_pos rfl
  | cons k rest ih =>
    have later := ih fun u hu => first u (List.mem_cons_of_mem _ hu)
    cases k with
    | refill => exact congrArg (ScanKind.refill :: ·) later
    | window b u =>
      have other : bank ≠ b := by
        rintro rfl
        exact first u List.mem_cons_self
      rw [List.cons_append]
      unfold addScan
      dsimp only
      rw [if_neg other, later]
      rfl

theorem addScan_newRefill {w : List ScanKind} (absent : ScanKind.refill ∉ w) : addScan .refill w = w ++ [.refill] := by
  induction w with
  | nil => rfl
  | cons k rest ih =>
    have later := ih fun h => absent (List.mem_cons_of_mem _ h)
    cases k with
    | refill => exact absurd List.mem_cons_self absent
    | window b u => exact congrArg (ScanKind.window b u :: ·) later

theorem addScan_oldRefill {w : List ScanKind} (has : ScanKind.refill ∈ w) : addScan .refill w = w := by
  induction w with
  | nil => cases has
  | cons k rest ih =>
    cases k with
    | refill => rfl
    | window b u =>
      rcases List.mem_cons.1 has with same | rest_
      · cases same
      · exact congrArg (ScanKind.window b u :: ·) (ih rest_)

theorem trigger_waits {s : State} (busy : s.hold.scan ≠ none) (k : ScanKind) :
    trigger k s = { s with hold := { s.hold with waiting := addScan k s.hold.waiting } } := by
  unfold trigger
  cases scan : s.hold.scan with
  | none => exact absurd scan busy
  | some x => rfl

/-- The scans begun from the waiting ones: those that choose no record end at once (log 30). -/
theorem beginScans_none {h : HoldQueue} {l : List ScanKind} (nothing : ∀ k ∈ l, chosenOf k h.records = []) :
    beginScans h l = { h with scan := none, waiting := [] } := by
  induction l with
  | nil => rfl
  | cons k rest ih =>
    have empty : (chosenBy k h).isEmpty = true := List.isEmpty_iff.2 (nothing k List.mem_cons_self)
    rw [beginScans, if_pos empty]
    exact ih fun j hj => nothing j (List.mem_cons_of_mem _ hj)

theorem beginScans_first {h : HoldQueue} {l l' : List ScanKind} {k : ScanKind}
    (nothing : ∀ j ∈ l, chosenOf j h.records = []) (chosen : chosenOf k h.records ≠ []) :
    beginScans h (l ++ k :: l') = { h with scan := some ⟨k, chosenOf k h.records⟩, waiting := l' } := by
  induction l with
  | nil =>
    have full : ¬(chosenBy k h).isEmpty = true := fun empty => chosen (List.isEmpty_iff.1 empty)
    rw [List.nil_append, beginScans, if_neg full]
    rfl
  | cons j rest ih =>
    have empty : (chosenBy j h).isEmpty = true := List.isEmpty_iff.2 (nothing j List.mem_cons_self)
    rw [List.cons_append, beginScans, if_pos empty]
    exact ih fun i hi => nothing i (List.mem_cons_of_mem _ hi)

theorem trigger_begins {s : State} (idle : s.hold.scan = none) (empty : s.hold.waiting = []) (k : ScanKind) :
    trigger k s = { s with hold := { s.hold with
      scan := if chosenOf k s.hold.records = [] then none else some ⟨k, chosenOf k s.hold.records⟩ } } := by
  have begun : trigger k s = s.setHold (beginScans s.hold [k]) := by
    unfold trigger
    rw [idle, empty]
    rfl
  rw [begun]
  by_cases none : chosenOf k s.hold.records = []
  · rw [beginScans_none (l := [k]) fun j hj => by rw [List.mem_singleton.1 hj]; exact none, if_pos none, ← empty]
    rfl
  · rw [show beginScans s.hold [k] = _ from beginScans_first (l := []) (l' := []) nofun none, if_neg none, ← empty]
    rfl

/-! ### A step of a scan (R106) -/

section
variable {s : State} {k : ScanKind} {ref : Nat}

theorem scanRecord_withScans (x : Option Scan) (w : List ScanKind) (k : ScanKind) (ref : Nat) (s : State) :
    scanRecord k ref (withScans x w s) = withScans x w (scanRecord k ref s) := by
  unfold scanRecord
  rw [show (withScans x w s).heldRecord ref = s.heldRecord ref from rfl]
  cases s.heldRecord ref with
  | none => rfl
  | some r =>
    dsimp only
    cases r.firstPart with
    | none => rfl
    | some f =>
      dsimp only
      split
      · exact evaluate_withScans x w r f s
      · rfl

theorem scanRecord_keeps (k : ScanKind) (ref : Nat) (s : State) : KeepsJudging s (scanRecord k ref s) := by
  unfold scanRecord
  split
  · exact .refl s
  · split
    · exact .refl s
    · split
      · exact .evaluate _ _ s
      · exact .refl s

theorem endScan_more {next : Nat} {rest : List Nat} (w : List ScanKind) (u : State) :
    endScan (withScans (some ⟨k, next :: rest⟩) w u) = withScans (some ⟨k, next :: rest⟩) w u := rfl

theorem endScan_last (w : List ScanKind) (u : State) : endScan (withScans (some ⟨k, []⟩) w u) =
    withScans (beginScans u.hold w).scan (beginScans u.hold w).waiting u := by
  obtain ⟨scan, waiting⟩ := beginScans_congr w (h := u.hold) (g := (withScans (some ⟨k, []⟩) w u).hold) rfl
  change (withScans (some ⟨k, []⟩) w u).setHold (beginScans (withScans (some ⟨k, []⟩) w u).hold w) = _
  rw [beginScans_frame, scan, waiting]
  rfl

theorem scanStep_eq {rest : List Nat} (scan : s.hold.scan = some ⟨k, ref :: rest⟩) :
    scanStep s = endScan (withScans (some ⟨k, rest⟩) s.hold.waiting (scanRecord k ref s)) := by
  unfold scanStep
  rw [scan]
  dsimp only
  rw [← scanRecord_withScans]
  rfl

theorem exec_scan (s : State) : exec .scanEvaluation s = .next (settle (scanStep s)) := rfl

/-- What the step of a scan ends in: its record is done, and the scans have gone on. -/
theorem scanStep_ends {rest : List Nat} (scan : s.hold.scan = some ⟨k, ref :: rest⟩) (settled : Settled s) :
    ∃ t, exec .scanEvaluation s = .next t ∧
      t = settle (withScans t.hold.scan t.hold.waiting (scanRecord k ref s)) ∧
      FollowsOnly (withScans t.hold.scan t.hold.waiting (scanRecord k ref s)) t ∧
      t.hold.records = (scanRecord k ref s).hold.records ∧
      (rest ≠ [] → t.hold.scan = some ⟨k, rest⟩ ∧ t.hold.waiting = s.hold.waiting) ∧
      (rest = [] → t.hold.scan = (beginScans (scanRecord k ref s).hold s.hold.waiting).scan ∧
        t.hold.waiting = (beginScans (scanRecord k ref s).hold s.hold.waiting).waiting) := by
  have after (x : Option Scan) (w : List ScanKind) :
      FollowsOnly (withScans x w (scanRecord k ref s)) (settle (withScans x w (scanRecord k ref s))) :=
    settle_follows (((scanRecord_keeps k ref s).trans (.setHold _ _)).onlyRequests settled.onlyRequests)
  have ends (x : Option Scan) (w : List ScanKind) (step : scanStep s = withScans x w (scanRecord k ref s)) :
      ∃ t, exec .scanEvaluation s = .next t ∧ t.hold.scan = x ∧ t.hold.waiting = w ∧
        t = settle (withScans x w (scanRecord k ref s)) ∧ FollowsOnly (withScans x w (scanRecord k ref s)) t ∧
        t.hold.records = (scanRecord k ref s).hold.records := by
    have follows := after x w
    have hold := follows.frame.2.2.1
    have records : (settle (withScans x w (scanRecord k ref s))).hold.records =
        (withScans x w (scanRecord k ref s)).hold.records := by rw [hold]
    exact ⟨_, by rw [exec_scan, step], congrArg HoldQueue.scan hold, congrArg HoldQueue.waiting hold, rfl, follows,
      records⟩
  cases rest with
  | nil =>
    obtain ⟨t, done, scan', waiting, eq, follows, records⟩ :=
      ends _ _ ((scanStep_eq scan).trans (endScan_last s.hold.waiting _))
    refine ⟨t, done, ?_, ?_, records, absurd rfl, fun _ => ⟨scan', waiting⟩⟩
    · rw [scan', waiting]
      exact eq
    · rw [scan', waiting]
      exact follows
  | cons next rest =>
    obtain ⟨t, done, scan', waiting, eq, follows, records⟩ :=
      ends _ _ ((scanStep_eq scan).trans (endScan_more s.hold.waiting _))
    refine ⟨t, done, ?_, ?_, records, fun _ => ⟨scan', waiting⟩, nofun⟩
    · rw [scan', waiting]
      exact eq
    · rw [scan', waiting]
      exact follows

theorem scanRecord_gone (gone : ∀ r ∈ s.hold.records, r.ref ≠ ref) : scanRecord k ref s = s := by
  have none : s.heldRecord ref = none := List.find?_eq_none.2 fun r hr => by simpa using gone r hr
  rw [scanRecord, none]

theorem scanRecord_evaluates {r : HeldRecord} {f : FirstPart} (distinct : RefsDistinct s) (hr : r ∈ s.hold.records)
    (role : r.role = .first f) (takes : scanEvaluates k r = true) : scanRecord k r.ref s = evaluate r f s := by
  rw [scanRecord, heldRecord_mem distinct.1 hr]
  dsimp only
  rw [(firstPart_iff r f).2 role]
  exact if_pos takes

theorem scanRecord_passes {r : HeldRecord} (distinct : RefsDistinct s) (hr : r ∈ s.hold.records)
    (passes : scanEvaluates k r = false) : scanRecord k r.ref s = s := by
  rw [scanRecord, heldRecord_mem distinct.1 hr]
  dsimp only
  cases r.firstPart with
  | none => rfl
  | some f => exact if_neg (by rw [passes]; exact Bool.false_ne_true)

end

/-! ### A first without a partner (R103 to R105) -/

section
variable {s : State} {r : HeldRecord} {f : FirstPart}

theorem removeFirst_alone (role : r.role = .first f) (alone : f.partner = none) (clear : f.awaiting = false)
    (reason : Reason) (i : Option Index) (s : State) :
    removeFirst r reason i s = Withdrawn r.port r.ref (TakenOut reason i r s) := by
  have part := (firstPart_iff r f).2 role
  have awaiting : r.awaiting = false := by rw [HeldRecord.awaiting, part]; exact clear
  have partner : r.partnerRef = none := by rw [HeldRecord.partnerRef, part]; exact alone
  unfold removeFirst
  rw [withdraw_eq, reportFate_eq, awaiting, if_neg Bool.false_ne_true, takeOutPartner, partner]
  rfl

theorem releasePartner_alone (role : r.role = .first f) (alone : f.partner = none) (s : State) :
    releasePartner r s = s := by
  have partner : r.partnerRef = none := by rw [HeldRecord.partnerRef, (firstPart_iff r f).2 role]; exact alone
  rw [releasePartner, partner]

/-- A first that is appended, in the form of a change of the state before it. -/
theorem releaseFirst_sent {y : State} (hy : y = prepareBuffer r.buffer r.outDest r.stamp s)
    (room : listRoom (s.tx.get (otherPort r.port)) r.list = true) :
    releaseFirst r s = releasePartner r (countPassed r.index { y with
      hold := { s.hold with records := s.hold.records.filter fun q => q.ref != r.ref }
      tx := s.tx.set (otherPort r.port)
        (startTx y.buffer (listAdd (s.tx.get (otherPort r.port)) r.list r.buffer)) }) := by
  have sent : txAppend (otherPort r.port) r.list r.buffer y = some (y.setTx (s.tx.set (otherPort r.port)
      (startTx y.buffer (listAdd (s.tx.get (otherPort r.port)) r.list r.buffer)))) := by
    rw [hy]
    exact if_pos room
  unfold releaseFirst
  dsimp only
  rw [← hy, sent, hy]
  rfl

theorem releaseFirst_full (full : listRoom (s.tx.get (otherPort r.port)) r.list = false) :
    releaseFirst r s = removeCounted r .txFull r.index (prepareBuffer r.buffer r.outDest r.stamp s) := by
  have refused : txAppend (otherPort r.port) r.list r.buffer (prepareBuffer r.buffer r.outDest r.stamp s) = none :=
    if_neg (by
      change ¬listRoom (s.tx.get (otherPort r.port)) r.list = true
      rw [full]
      exact Bool.false_ne_true)
  unfold releaseFirst
  dsimp only
  rw [refused]

/-- What a check 8 takes, and the place that a record leaves, touch different blocks. -/
theorem consume_dropRecord (i : Option Index) (c : HeldContext) (n : Nat) (s : State) :
    consume i c (dropRecord n s) = dropRecord n (consume i c s) := by
  cases i with
  | none => rfl
  | some i =>
    unfold consume requestCredit
    dsimp only
    rw [show (dropRecord n s).stream i = s.stream i from rfl]
    split
    · rfl
    · split <;> rfl

theorem consume_out (i : Option Index) (c : HeldContext) (s : State) :
    consume i c s = { s with policer := (consume i c s).policer } := by
  cases i with
  | none => rfl
  | some i =>
    unfold consume requestCredit
    dsimp only
    split
    · rfl
    · split <;> rfl

end

/-- A settled gate stays settled with other records, none of which a request is due for. -/
theorem Settled.setRecords {s : State} (h : Settled s) {l : List HeldRecord}
    (due : ∀ p, nextPending p s.hold = none → nextPending p { s.hold with records := l } = none) :
    Settled { s with hold := { s.hold with records := l } } := by
  have places (p : Port) : Machine.placeRequest p { s with hold := { s.hold with records := l } } = none := by
    rw [placeRequest_none_iff]
    exact ((placeRequest_none_iff p s).1 (h.placeRequest p)).imp_right (due p)
  exact GrantsAndCommands.settled
    ⟨fun q => endReached_none_congr (s := s) q rfl (fun _ w => w) (h.endReached q), places,
      fun q => takeSlot_none_congr (s := s) q rfl rfl (h.takeSlot q),
      fun q => takeArrival_none_congr (s := s) q rfl (h.takeArrival q)⟩
    (grant_none_congr (s := s) rfl (fun _ => rfl) rfl h.grant)
    (beginCommand_none_congr (s := s) rfl rfl rfl h.beginCommand) (openPort_none_congr (s := s) rfl h.openPort)

theorem mapFirst_requestable (p : Port) (q : HeldRecord) (g : FirstPart → FirstPart) :
    ((q.mapFirst g).isFirst && (q.mapFirst g).pending && (q.mapFirst g).port == p) =
      (q.isFirst && q.pending && q.port == p) := by
  unfold HeldRecord.mapFirst HeldRecord.isFirst HeldRecord.firstPart
  cases role : q.role with
  | first f => rfl
  | partner n =>
    dsimp only
    rw [role]

/-- A record that stays takes a reason, and no request is due for it that was not. -/
theorem stay_settled {s : State} (h : Settled s) (r : HeldRecord) (reason : HoldReason) : Settled (stay r reason s) := by
  refine h.setRecords fun p none => ?_
  unfold nextPending at none ⊢
  rw [List.find?_eq_none] at none ⊢
  intro x hx
  obtain ⟨q, hq, rfl⟩ := List.mem_map.1 hx
  split
  · rw [mapFirst_requestable]
    exact none q hq
  · exact none q hq

/-! ### The evaluation of a first without a partner (R103 to R105) -/

section
variable {s : State} {r : HeldRecord} {f : FirstPart}

theorem policyNow_congr {t : State} (agent : t.agent = s.agent) (windows : t.windows = s.windows)
    (policer : t.policer = s.policer) (bank : Bank) (i : Option Index) (c : HeldContext) :
    policyNow t bank i c = policyNow s bank i c := by
  have credit : t.creditOf i = s.creditOf i := by
    cases i with
    | none => rfl
    | some i => rw [State.creditOf, State.creditOf, State.stream, State.stream, policer]
  rw [policyNow, policyNow, State.lapsed, State.lapsed, agent, windows, credit]

theorem evaluate_refuse {reason : Reason} (policy : policyNow s r.bank r.index f.context = .refuse reason) :
    evaluate r f s = removeCounted r reason r.index s := by rw [evaluate, policy]

theorem evaluate_hold {reason : HoldReason} (policy : policyNow s r.bank r.index f.context = .hold reason) :
    evaluate r f s = stay r reason s := by rw [evaluate, policy]

theorem evaluate_pass (policy : policyNow s r.bank r.index f.context = .pass) :
    evaluate r f s = releaseFirst r (consume r.index f.context s) := by rw [evaluate, policy]

theorem prepareBuffer_buffer (b : BufId) (d : Addr) (x : StampPolicy) (s : State) :
    (prepareBuffer b d x s).buffer b = { s.buffer b with bytes := prepared (s.buffer b) d x } :=
  setBuffer_buffer_same b _ s

/-- The record of a telegram that is prepared and then not sent is that of the telegram as received. -/
theorem takenOut_prepared (reason : Reason) (i : Option Index) (d : Addr) (x : StampPolicy) (s : State) :
    TakenOut reason i r (prepareBuffer r.buffer d x s) =
      handOver ⟨reason, r.port, some (sourceOf (s.buffer r.buffer).bytes), some r.dest,
        some (classOf (s.buffer r.buffer).bytes), i⟩ (leaving r (prepareBuffer r.buffer d x s)) := by
  unfold TakenOut
  rw [prepareBuffer_buffer]
  dsimp only
  rw [sourceOf_prepared, classOf_prepared]
  rfl

/-- A first without a partner that checks 6 to 8 pass and the list takes. -/
theorem pass_sent {y : State} (role : r.role = .first f) (alone : f.partner = none)
    (hy : y = prepareBuffer r.buffer r.outDest r.stamp (consume r.index f.context (dropRecord r.ref s)))
    (room : listRoom (s.tx.get (otherPort r.port)) r.list = true) :
    releaseFirst r (consume r.index f.context s) = countPassed r.index { y with
      tx := s.tx.set (otherPort r.port)
        (startTx y.buffer (listAdd (s.tx.get (otherPort r.port)) r.list r.buffer)) } := by
  have tx : (consume r.index f.context s).tx = s.tx := by rw [consume_out]
  rw [releaseFirst_sent (y := prepareBuffer r.buffer r.outDest r.stamp (consume r.index f.context s)) rfl
    (by rw [tx]; exact room), releasePartner_alone role alone, tx, hy, consume_dropRecord]
  rfl

theorem pass_full {y : State} (role : r.role = .first f) (alone : f.partner = none) (clear : f.awaiting = false)
    (hy : y = prepareBuffer r.buffer r.outDest r.stamp (consume r.index f.context (dropRecord r.ref s)))
    (full : listRoom (s.tx.get (otherPort r.port)) r.list = false) :
    releaseFirst r (consume r.index f.context s) = countRefused r.index (Withdrawn r.port r.ref (handOver
      ⟨.txFull, r.port, some (sourceOf (s.buffer r.buffer).bytes), some r.dest,
        some (classOf (s.buffer r.buffer).bytes), r.index⟩
      { y with pool := ⟨y.pool.buffers, s.pool.free ++ [r.buffer]⟩ })) := by
  have same := consume_out r.index f.context s
  have tx : (consume r.index f.context s).tx = s.tx := by rw [same]
  have pool : (consume r.index f.context s).pool = s.pool := by rw [same]
  rw [releaseFirst_full (by rw [tx]; exact full), removeCounted, removeFirst_alone role alone clear, takenOut_prepared,
    hy, consume_dropRecord, ← pool, State.buffer, State.buffer, ← pool]
  rfl

end

/-- Settles O26: what a trigger makes, then the step's evaluation and the scan that it leaves. -/
theorem scanEvaluatesTheNextRecord : Obligations.ScanEvaluatesTheNextRecord := by
  refine ⟨fun k r => ?_, fun k r => ?_, fun k s idle empty => trigger_begins idle empty k, fun s busy w hw waits hwaits => ?_,
    fun k ref rest s scan settled distinct => ?_⟩
  · cases role : r.role with
    | first f =>
      rw [scanTakes_first role]
      exact ⟨fun h => ⟨f, rfl, h⟩, fun ⟨g, same, h⟩ => by cases same; exact h⟩
    | partner n =>
      rw [scanTakes_partner role]
      exact iff_of_false Bool.false_ne_true nofun
  · cases role : r.role with
    | first f =>
      rw [scanEvaluates_first role]
      exact ⟨fun h => ⟨f, rfl, h⟩, fun ⟨g, same, h⟩ => by cases same; exact h⟩
    | partner n =>
      rw [scanEvaluates_partner role]
      exact iff_of_false Bool.false_ne_true nofun
  · have merged (k : ScanKind) {l : List ScanKind} (h : addScan k w = l) : waits k l := by
      rw [hwaits]
      dsimp only
      rw [trigger_waits busy, ← hw, h]
    refine ⟨fun bank set absent => merged _ (addScan_newWindow absent set), fun bank set l v l' split first => ?_,
      fun absent => merged _ (addScan_newRefill absent), fun has => merged _ (addScan_oldRefill has)⟩
    exact merged _ (by rw [split]; exact addScan_oldWindow first v set)
  · obtain ⟨t, done, ends, follows, records, more, last⟩ := scanStep_ends scan settled
    have quiet {u : State} (h : Settled u) : Settled (withScans t.hold.scan t.hold.waiting u) :=
      h.congr rfl rfl rfl rfl rfl rfl rfl fun _ _ _ => rfl
    have passed (same : scanRecord k ref s = s) : t = withScans t.hold.scan t.hold.waiting s := by
      rw [same] at ends
      exact ends.trans (settle_settled (quiet settled))
    have evaluated {r : HeldRecord} {f : FirstPart} (hr : r ∈ s.hold.records) (href : r.ref = ref)
        (role : r.role = .first f) (takes : scanEvaluates k r = true) : scanRecord k ref s = evaluate r f s := by
      rw [← href]
      exact scanRecord_evaluates distinct hr role takes
    refine ⟨t, done, more, fun ended empty => ?_, fun ended nothing => ?_, fun ended l j l' split nothing chosen => ?_,
      fun r f hr href role takes => ?_, fun gone => passed (scanRecord_gone gone), fun r hr href passes => ?_,
      fun r f hr href role alone takes => ?_⟩
    · obtain ⟨scan', waiting'⟩ := last ended
      rw [scan', waiting', empty]
      exact ⟨rfl, rfl⟩
    · obtain ⟨scan', waiting'⟩ := last ended
      rw [scan', waiting', beginScans_none fun j hj => by rw [← records]; exact nothing j hj]
      exact ⟨rfl, rfl⟩
    · obtain ⟨scan', waiting'⟩ := last ended
      rw [scan', waiting', split, beginScans_first (fun i hi => by rw [← records]; exact nothing i hi)
        (by rw [← records]; exact chosen), records]
      exact ⟨rfl, rfl⟩
    · rw [evaluated hr href role takes, ← evaluate_withScans] at follows
      exact follows
    · refine passed ?_
      rw [← href]
      exact scanRecord_passes distinct hr passes
    · have clear : f.awaiting = false := ((scanEvaluates_first role k).1 takes).2.1
      subst href
      rw [evaluated hr rfl role takes] at ends follows
      rw [← evaluate_withScans] at follows
      have same : policyNow (withScans t.hold.scan t.hold.waiting s) r.bank r.index f.context =
          policyNow s r.bank r.index f.context := policyNow_congr rfl rfl rfl _ _ _
      refine ⟨fun reason policy => ?_, ?_⟩
      · rw [evaluate_hold policy] at ends
        exact ends.trans (settle_settled (quiet (stay_settled settled r reason)))
      · rintro x rfl
        refine ⟨fun reason policy => ?_, fun y policy hy => ⟨fun room => ?_, fun full => ?_⟩⟩
        · rw [evaluate_refuse (same.trans policy), removeCounted, removeFirst_alone role alone clear] at follows
          exact follows
        · rw [evaluate_pass (same.trans policy), pass_sent (s := withScans t.hold.scan t.hold.waiting s) role alone hy room] at follows
          exact follows
        · rw [evaluate_pass (same.trans policy),
            pass_full (s := withScans t.hold.scan t.hold.waiting s) role alone clear hy full] at follows
          exact follows

end Sys2Proof.Machine
end

section
/-! SUPPORT. The end of a judgement reads neither the phases of the Judges nor the use of the table port (R24, R34 to
R42, R116). -/

namespace Sys2Proof.Machine

section
variable (a : Aside)

/-! ### Records removed, cleared and evaluated -/

theorem removeRef_aside (reason : Reason) (n : Nat) (s : State) :
    removeRef reason (aside a s) n = aside a (removeRef reason s n) := by
  unfold removeRef
  rw [show (aside a s).heldRecord n = s.heldRecord n from rfl]
  cases s.heldRecord n with
  | none => rfl
  | some r => exact removeFirst_aside ..

theorem endBinding_aside (p : Port) (c : BindContext) (s : State) :
    endBinding p c (aside a s) = aside a (endBinding p c s) := by
  unfold endBinding
  rw [setBind_aside]
  cases c.outcome with
  | held n => exact removeRef_aside ..
  | passed list => exact handOver_aside ..
  | refused => rfl
  | pending => rfl

theorem holdHighTest_aside (s : State) : holdHighTest (aside a s) = aside a (holdHighTest s) := by
  unfold holdHighTest
  rw [show (aside a s).agent = s.agent from rfl, show (aside a s).hold.records = s.hold.records from rfl]
  split
  · exact tell_aside ..
  · rfl

theorem catchUp_aside (r : HeldRecord) (f : FirstPart) (s : State) :
    catchUp r f (aside a s) = aside a (catchUp r f s) := by
  unfold catchUp
  rw [show lapsedBlock f (aside a s) = lapsedBlock f s from rfl, show catchesUp r f (aside a s) = catchesUp r f s from rfl,
    removeCounted_aside, evaluate_aside]
  split
  · rfl
  · split <;> rfl

theorem admissionTest_aside (r : HeldRecord) (f : FirstPart) (s : State) :
    admissionTest r f (aside a s) = aside a (admissionTest r f s) := by
  unfold admissionTest
  rw [show lapsedBlock f (aside a s) = lapsedBlock f s from rfl, removeCounted_aside, catchUp_aside]
  split
  · split <;> rfl
  · rfl

theorem afterPartner_aside (n : Nat) (s : State) : afterPartner n (aside a s) = aside a (afterPartner n s) := by
  unfold afterPartner
  rw [show (aside a s).heldRecord n = s.heldRecord n from rfl]
  cases s.heldRecord n with
  | none => rfl
  | some r =>
    dsimp only
    cases r.firstPart with
    | none => rfl
    | some f =>
      dsimp only
      rw [releaseFirst_aside, evaluate_aside]
      split
      · rfl
      · split <;> rfl

theorem admitPartner_aside (b : BufId) (x : Facts) (n : Nat) (r : HeldRecord) (s : State) :
    admitPartner b x n r (aside a s) = aside a (admitPartner b x n r s) := by
  unfold admitPartner
  dsimp only
  rw [← afterPartner_aside, ← holdHighTest_aside]
  rfl

/-! ### The verdict of a rejudge carried out -/

theorem mapRecord_aside (n : Nat) (g : HeldRecord → HeldRecord) (s : State) :
    mapRecord n g (aside a s) = aside a (mapRecord n g s) := rfl

theorem clearPending_aside (r : HeldRecord) (s : State) :
    clearPending r (aside a s) = aside a (clearPending r s) := by
  unfold clearPending
  cases r.partnerRef <;> rfl

theorem verdictPass_aside (r : HeldRecord) (f : FirstPart) (x : Facts) (s : State) :
    verdictPass r f x (aside a s) = aside a (verdictPass r f x s) := by
  unfold verdictPass
  dsimp only
  rw [mapRecord_aside, releaseFirst_aside]
  split <;> rfl

theorem verdictHold_aside (r : HeldRecord) (f : FirstPart) (x : Facts) (reason : HoldReason) (limit : Nat) (s : State) :
    verdictHold r f x reason limit (aside a s) = aside a (verdictHold r f x reason limit s) := by
  unfold verdictHold
  dsimp only
  rw [mapRecord_aside, removeFirst_aside, catchUp_aside, show (aside a s).cal = s.cal from rfl]
  split
  · rfl
  · split <;> rfl

theorem carryVerdict_aside (r : HeldRecord) (f : FirstPart) (v : RejudgeVerdict) (s : State) :
    carryVerdict r f v (aside a s) = aside a (carryVerdict r f v s) := by
  unfold carryVerdict
  dsimp only
  rw [clearPending_aside]
  cases v with
  | pass x => exact verdictPass_aside ..
  | hold x reason limit => exact verdictHold_aside ..
  | refuse reason index => exact removeCounted_aside ..

theorem verdictOf_aside (bank : Bank) (stop : LookupStop) (d : Described) (s : State) :
    verdictOf (aside a s) bank stop d = verdictOf s bank stop d := by
  cases stop with
  | _ => rfl

theorem secondVerdict_aside (bank : Bank) (stop : LookupStop) (d : Described) (s : State) :
    secondVerdict (aside a s) bank stop d = secondVerdict s bank stop d := by
  cases stop with
  | _ => rfl

theorem rejudgeConsume_aside (v : RejudgeVerdict) (s : State) :
    rejudgeConsume v (aside a s) = aside a (rejudgeConsume v s) := by
  cases v with
  | pass x => exact consume_aside ..
  | hold x reason limit => rfl
  | refuse reason index => rfl

theorem requestStale_aside (p : Port) (same : ∀ q, a.requests.get q = id) (s : State) :
    requestStale p (aside a s) = requestStale p s := by
  have request : (aside a s).hold.outstanding.get p = a.requests.get p (s.hold.outstanding.get p) := by
    cases p <;> rfl
  unfold requestStale
  rw [request, same]
  rfl

theorem concludeRejudge_aside (same : ∀ q, a.requests.get q = id) (p : Port) (n : Nat) (bank : Bank) (stop : LookupStop)
    (s : State) : concludeRejudge p n bank stop (aside a s) = aside a (concludeRejudge p n bank stop s) := by
  unfold concludeRejudge
  rw [show (aside a s).heldRecord n = s.heldRecord n from rfl]
  cases s.heldRecord n with
  | none => exact endRequest_aside ..
  | some r =>
    dsimp only
    cases r.firstPart with
    | none => exact endRequest_aside ..
    | some f =>
      dsimp only
      rw [verdictOf_aside, show (aside a s).buffer r.buffer = s.buffer r.buffer from rfl, rejudgeConsume_aside,
        requestStale_aside a p same, endRequest_aside, carryVerdict_aside]
      split <;> rfl

/-! ### The conclusion of a telegram -/

theorem writeOutcome_aside (p : Port) (role : JudgedAs) (o : BindOutcome) (x : Particulars) (s : State) :
    writeOutcome p role o x (aside a s) = aside a (writeOutcome p role o x s) := by
  unfold writeOutcome
  rw [aside_judge]
  dsimp only
  split
  · exact setBind_aside ..
  · rfl

theorem refuseTelegram_aside (p : Port) (b : BufId) (l : List Byte) (reason : Reason) (i : Option Index) (s : State) :
    refuseTelegram p b l reason i (aside a s) = aside a (refuseTelegram p b l reason i s) := by
  unfold refuseTelegram
  rw [show release b (aside a s) = aside a (release b s) from rfl, handOver_aside, countRefused_aside]

theorem concludeRefuse_aside (p : Port) (b : BufId) (role : JudgedAs) (d : Described) (reason : Reason)
    (i : Option Index) (s : State) :
    concludeRefuse p b role d reason i (aside a s) = aside a (concludeRefuse p b role d reason i s) := by
  unfold concludeRefuse
  rw [show (aside a s).buffer b = s.buffer b from rfl, refuseTelegram_aside, writeOutcome_aside]

theorem concludePass_aside (p : Port) (b : BufId) (role : JudgedAs) (d : Described) (x : Facts) (list : ListKind)
    (s : State) : concludePass p b role d x list (aside a s) = aside a (concludePass p b role d x list s) := by
  unfold concludePass
  dsimp only
  rw [show prepareBuffer b x.outDest x.stamp (aside a s) = aside a (prepareBuffer b x.outDest x.stamp s) from rfl,
    show (aside a s).buffer b = s.buffer b from rfl, txAppend_aside]
  cases txAppend (otherPort p) list b (prepareBuffer b x.outDest x.stamp s) with
  | none =>
    dsimp only [Option.map_none]
    rw [refuseTelegram_aside, writeOutcome_aside]
  | some u =>
    dsimp only [Option.map_some]
    rw [countPassed_aside, writeOutcome_aside]

theorem heldOf_aside (p : Port) (role : JudgedAs) (d : Described) (x : Facts) (r : HeldRecord) (s : State) :
    holdHighTest (countHeld x.index (writeOutcome p role (.held r.ref) (particularsOf d x.index)
      (admitRecord r (aside a s)))) = aside a (holdHighTest (countHeld x.index
        (writeOutcome p role (.held r.ref) (particularsOf d x.index) (admitRecord r s)))) := by
  rw [show admitRecord r (aside a s) = aside a (admitRecord r s) from rfl, writeOutcome_aside, countHeld_aside,
    holdHighTest_aside]

theorem concludeHold_aside (p : Port) (b : BufId) (role : JudgedAs) (d : Described) (x : Facts) (reason : HoldReason)
    (limit : Nat) (s : State) :
    concludeHold p b role d x reason limit (aside a s) = aside a (concludeHold p b role d x reason limit s) := by
  unfold concludeHold
  dsimp only
  rw [show holdFull (aside a s) = holdFull s from rfl,
    show firstRecord b x reason limit role.isFirst (aside a s) = firstRecord b x reason limit role.isFirst s from rfl,
    heldOf_aside, concludeRefuse_aside]
  cases (firstRecord b x reason limit role.isFirst s).firstPart with
  | none =>
    dsimp only
    split <;> rfl
  | some f =>
    dsimp only
    rw [admissionTest_aside]
    split <;> rfl

theorem concludeOwn_aside (p : Port) (b : BufId) (role : JudgedAs) (d : Described) (v : RejudgeVerdict) (s : State) :
    concludeOwn p b role d v (aside a s) = aside a (concludeOwn p b role d v s) := by
  cases v with
  | pass x =>
    unfold concludeOwn
    dsimp only
    rw [consume_aside, concludePass_aside]
  | hold x reason limit => exact concludeHold_aside ..
  | refuse reason index => exact concludeRefuse_aside ..

theorem concludeAfterPassed_aside (p : Port) (b : BufId) (list : ListKind) (first : Option Particulars) (d : Described)
    (v : RejudgeVerdict) (s : State) :
    concludeAfterPassed p b list first d v (aside a s) = aside a (concludeAfterPassed p b list first d v s) := by
  cases v with
  | pass x => exact concludePass_aside ..
  | hold x reason limit => rfl
  | refuse reason index => exact concludeRefuse_aside ..

theorem offerPartner_aside (p : Port) (b : BufId) (n : Nat) (first : Option Particulars) (d : Described) (x : Facts)
    (own : RejudgeVerdict) (s : State) :
    offerPartner p b n first d x own (aside a s) = aside a (offerPartner p b n first d x own s) := by
  unfold offerPartner
  rw [show holdFull (aside a s) = holdFull s from rfl, show (aside a s).heldRecord n = s.heldRecord n from rfl,
    concludeRefuse_aside, dropBroken, dropBroken, removeRef_aside, countHeld_aside, concludeOwn_aside]
  cases s.heldRecord n with
  | none =>
    dsimp only
    split <;> rfl
  | some r =>
    dsimp only
    rw [admitPartner_aside]
    split <;> rfl

theorem concludeAfterHeld_aside (p : Port) (b : BufId) (n : Nat) (first : Option Particulars) (d : Described)
    (v own : RejudgeVerdict) (s : State) :
    concludeAfterHeld p b n first d v own (aside a s) = aside a (concludeAfterHeld p b n first d v own s) := by
  cases v with
  | pass x => exact offerPartner_aside ..
  | hold x reason limit => rfl
  | refuse reason index =>
    unfold concludeAfterHeld
    dsimp only
    rw [concludeRefuse_aside, dropBroken, dropBroken, removeRef_aside]

theorem concludeTelegram_aside (p : Port) (b : BufId) (role : JudgedAs) (bank : Bank) (stop : LookupStop) (s : State) :
    concludeTelegram p b role bank stop (aside a s) = aside a (concludeTelegram p b role bank stop s) := by
  unfold concludeTelegram
  dsimp only
  rw [verdictOf_aside, secondVerdict_aside, show (aside a s).buffer b = s.buffer b from rfl]
  cases role with
  | plain => exact concludeOwn_aside ..
  | first => exact concludeOwn_aside ..
  | secondPassed list first => exact concludeAfterPassed_aside ..
  | secondHeld n first => exact concludeAfterHeld_aside ..

theorem concludeItem_aside (same : ∀ q, a.requests.get q = id) (p : Port) (it : Item) (bank : Bank) (stop : LookupStop) (s : State) :
    concludeItem p it bank stop (aside a s) = aside a (concludeItem p it bank stop s) := by
  cases it with
  | telegram b role key => exact concludeTelegram_aside ..
  | rejudge n key => exact concludeRejudge_aside a same ..

theorem tellFault_aside (found : Bool) (s : State) : tellFault found (aside a s) = aside a (tellFault found s) := by
  cases found with
  | true => exact tell_aside ..
  | false => rfl

end

end Sys2Proof.Machine
end

section
/-! SUPPORT. What the end of a judgement leaves to the Judges, and what follows it (R20, R24, log 14). -/

namespace Sys2Proof.Machine

/-! ### What the end of a judgement leaves to the Judges -/

namespace KeepsJudging

theorem handOver (r : Handed) (s : State) : KeepsJudging s (handOver r s) :=
  .out (handOver_out r s) (handOver_uptimes r s)

theorem tell (f : Flag) (s : State) : KeepsJudging s (tell f s) := .out (tell_out f s) (tell_uptimes f s)

theorem removeRef (reason : Reason) (n : Nat) (s : State) : KeepsJudging s (removeRef reason s n) := by
  unfold Machine.removeRef
  split
  · exact .removeFirst ..
  · exact .refl s

theorem setBind (p : Port) {x : Option BindContext} (s : State) (same : ∀ c, x = some c →
    ∃ old, (s.judges.get p).bind = some old ∧ c.deadline = old.deadline ∧ c.reached = old.reached) :
    KeepsJudging s (setBind p x s) := by
  have judge (q : Port) : (Machine.setBind p x s).judges.get q =
      if q = p then { s.judges.get p with bind := x } else s.judges.get q := PerPort.get_set ..
  have each (q : Port) : ((Machine.setBind p x s).judges.get q).phase = (s.judges.get q).phase ∧
      ((Machine.setBind p x s).judges.get q).arrivals = (s.judges.get q).arrivals ∧
      ((Machine.setBind p x s).judges.get q).slot = (s.judges.get q).slot := by
    rw [judge]
    split
    · next here =>
      rw [here]
      exact ⟨rfl, rfl, rfl⟩
    · exact ⟨rfl, rfl, rfl⟩
  refine ⟨rfl, rfl, fun _ => rfl, fun q => (each q).1, fun q => (each q).2.1, fun q c written => ?_,
    fun q => .inl (each q).2.2⟩
  rw [judge] at written
  split at written
  · next here =>
    rw [here]
    exact same c written
  · exact ⟨c, written, rfl, rfl⟩

theorem writeOutcome (p : Port) (role : JudgedAs) (o : BindOutcome) (x : Particulars) (s : State) :
    KeepsJudging s (writeOutcome p role o x s) := by
  unfold Machine.writeOutcome
  split
  · next c opened =>
    refine .setBind p s fun e written => ?_
    obtain rfl := Option.some.inj written
    exact ⟨c, opened, rfl, rfl⟩
  · exact .refl s

theorem refuseTelegram (p : Port) (b : BufId) (l : List Byte) (reason : Reason) (i : Option Index) (s : State) :
    KeepsJudging s (refuseTelegram p b l reason i s) := by
  have freed : KeepsJudging s (release b s) := of_judges rfl rfl rfl fun _ => rfl
  exact (freed.trans (.handOver ..)).trans (.countRefused ..)

theorem concludeRefuse (p : Port) (b : BufId) (role : JudgedAs) (d : Described) (reason : Reason) (i : Option Index)
    (s : State) : KeepsJudging s (concludeRefuse p b role d reason i s) :=
  (KeepsJudging.refuseTelegram ..).trans (.writeOutcome ..)

theorem concludePass (p : Port) (b : BufId) (role : JudgedAs) (d : Described) (x : Facts) (list : ListKind) (s : State) :
    KeepsJudging s (concludePass p b role d x list s) := by
  have ready := KeepsJudging.prepareBuffer b x.outDest x.stamp s
  unfold Machine.concludePass
  dsimp only
  split
  · next sent => exact ((ready.trans (.txAppend sent)).trans (.countPassed ..)).trans (.writeOutcome ..)
  · exact (ready.trans (.refuseTelegram ..)).trans (.writeOutcome ..)

theorem holdHighTest (s : State) : KeepsJudging s (holdHighTest s) := by
  unfold Machine.holdHighTest
  split
  · exact .tell ..
  · exact .refl s

theorem admissionTest (r : HeldRecord) (f : FirstPart) (s : State) : KeepsJudging s (admissionTest r f s) := by
  unfold Machine.admissionTest
  split
  · split
    · exact .removeCounted ..
    · exact .refl s
  · exact .catchUp r f s

theorem concludeHold (p : Port) (b : BufId) (role : JudgedAs) (d : Described) (x : Facts) (reason : HoldReason)
    (limit : Nat) (s : State) : KeepsJudging s (concludeHold p b role d x reason limit s) := by
  unfold Machine.concludeHold
  dsimp only
  split
  · exact .concludeRefuse ..
  · have held (r : HeldRecord) : KeepsJudging s (Machine.holdHighTest (Machine.countHeld x.index
        (Machine.writeOutcome p role (.held r.ref) (particularsOf d x.index) (admitRecord r s)))) :=
      (((KeepsJudging.setHold _ s).trans (.writeOutcome ..)).trans (.countHeld ..)).trans (.holdHighTest _)
    split
    · exact (held _).trans (.admissionTest ..)
    · exact held _

theorem concludeOwn (p : Port) (b : BufId) (role : JudgedAs) (d : Described) (v : RejudgeVerdict) (s : State) :
    KeepsJudging s (concludeOwn p b role d v s) := by
  cases v with
  | pass x => exact (KeepsJudging.consume ..).trans (.concludePass ..)
  | hold x reason limit => exact .concludeHold ..
  | refuse reason index => exact .concludeRefuse ..

theorem afterPartner (n : Nat) (s : State) : KeepsJudging s (afterPartner n s) := by
  unfold Machine.afterPartner
  split
  · exact .refl s
  · split
    · exact .refl s
    · split
      · exact .refl s
      · split
        · exact .releaseFirst ..
        · exact .evaluate ..

theorem admitPartner (b : BufId) (x : Facts) (n : Nat) (r : HeldRecord) (s : State) :
    KeepsJudging s (admitPartner b x n r s) := by
  unfold Machine.admitPartner
  dsimp only
  have linked : KeepsJudging s (admitRecord (partnerRecord b x n r s) (mapRecord n
      (fun q => q.mapFirst fun f => { f with partner := some (partnerRecord b x n r s).ref, awaiting := false }) s)) :=
    (KeepsJudging.setHold _ s).trans (.setHold ..)
  exact (linked.trans (.holdHighTest _)).trans (.afterPartner ..)

theorem concludeTelegram (p : Port) (b : BufId) (role : JudgedAs) (bank : Bank) (stop : LookupStop) (s : State) :
    KeepsJudging s (concludeTelegram p b role bank stop s) := by
  unfold Machine.concludeTelegram
  cases role with
  | plain => exact .concludeOwn ..
  | first => exact .concludeOwn ..
  | secondPassed list first =>
    dsimp only
    cases secondVerdict s bank stop (describe p (s.buffer b).bytes) with
    | pass x => exact .concludePass ..
    | hold x reason limit => exact .refl s
    | refuse reason index => exact .concludeRefuse ..
  | secondHeld n first =>
    dsimp only
    cases secondVerdict s bank stop (describe p (s.buffer b).bytes) with
    | pass x =>
      unfold concludeAfterHeld offerPartner
      dsimp only
      split
      · exact (KeepsJudging.concludeRefuse ..).trans (.removeRef ..)
      · split
        · exact .concludeOwn ..
        · exact (KeepsJudging.countHeld ..).trans (.admitPartner ..)
    | hold x reason limit => exact .refl s
    | refuse reason index => exact (KeepsJudging.concludeRefuse ..).trans (.removeRef ..)

theorem carryVerdict (r : HeldRecord) (f : FirstPart) (v : RejudgeVerdict) (s : State) :
    KeepsJudging s (carryVerdict r f v s) := by
  have cleared : KeepsJudging s (clearPending r s) := by
    unfold clearPending
    dsimp only
    split
    · exact (KeepsJudging.setHold _ s).trans (.setHold ..)
    · exact .setHold _ s
  unfold Machine.carryVerdict
  refine cleared.trans ?_
  cases v with
  | pass x =>
    unfold verdictPass
    dsimp only
    split
    · exact .setHold ..
    · exact (KeepsJudging.setHold ..).trans (.releaseFirst ..)
  | hold x reason limit =>
    unfold verdictHold
    dsimp only
    split
    · exact (KeepsJudging.setHold ..).trans (.removeFirst ..)
    · split
      · exact .setHold ..
      · exact (KeepsJudging.setHold ..).trans (.catchUp ..)
  | refuse reason index => exact .removeCounted ..

theorem concludeRejudge (p : Port) (n : Nat) (bank : Bank) (stop : LookupStop) (s : State) :
    KeepsJudging s (concludeRejudge p n bank stop s) := by
  have ended (u : State) : KeepsJudging u (endRequest p u) := .setHold ..
  have consumed (v : RejudgeVerdict) : KeepsJudging s (rejudgeConsume v s) := by
    cases v with
    | pass x => exact .consume ..
    | hold x reason limit => exact .refl s
    | refuse reason index => exact .refl s
  unfold Machine.concludeRejudge
  split
  · exact ended s
  · split
    · exact ended s
    · dsimp only
      split
      · exact (consumed _).trans (ended _)
      · exact ((consumed _).trans (ended _)).trans (.carryVerdict ..)

theorem concludeItem (p : Port) (it : Item) (bank : Bank) (stop : LookupStop) (s : State) :
    KeepsJudging s (concludeItem p it bank stop s) := by
  cases it with
  | telegram b role key => exact .concludeTelegram ..
  | rejudge n key => exact .concludeRejudge ..

theorem endBinding (p : Port) (c : BindContext) (s : State) : KeepsJudging s (endBinding p c s) := by
  have closed : KeepsJudging s (Machine.setBind p none s) := .setBind p s nofun
  unfold Machine.endBinding
  dsimp only
  split
  · exact closed.trans (.removeRef ..)
  · exact closed.trans (.handOver ..)
  · exact closed
  · exact closed

end KeepsJudging

end Sys2Proof.Machine
end

section
/-! SUPPORT. A request ahead of the telegrams that wait at a Judge (R20, R41, R115, log 14). -/

namespace Sys2Proof.Machine

/-- The Judge of a port with these arrivals and this bind context. -/
def withWork (p : Port) (l : List BufId) (c : Option BindContext) (s : State) : State :=
  { s with judges := s.judges.set p { s.judges.get p with arrivals := l, bind := c } }

section
variable (p : Port) (l : List BufId) (c : Option BindContext)

theorem withWork_judge (q : Port) (s : State) : (withWork p l c s).judges.get q =
    if q = p then { s.judges.get p with arrivals := l, bind := c } else s.judges.get q := PerPort.get_set ..

theorem withWork_phase (q : Port) (s : State) : ((withWork p l c s).judges.get q).phase = (s.judges.get q).phase := by
  rw [withWork_judge]
  split
  · next here => rw [here]
  · rfl

theorem withWork_slot (q : Port) (s : State) : ((withWork p l c s).judges.get q).slot = (s.judges.get q).slot := by
  rw [withWork_judge]
  split
  · next here => rw [here]
  · rfl

theorem withWork_same (s : State) :
    withWork p (s.judges.get p).arrivals (s.judges.get p).bind (withWork p [] none s) = s := by
  unfold withWork
  simp only [PerPort.set_set, PerPort.get_set_self]
  exact congrArg s.setJudges (PerPort.set_get ..)

theorem get_set_apart {α : Type} {x : PerPort α} {v : α} {p q : Port} (apart : p ≠ q) :
    (x.set q v).get p = x.get p := (PerPort.get_set ..).trans (if_neg apart)

/-! ### What the arbiter and the requests make of it -/

/-- A change of a Judge that neither reads nor writes its arrivals and its bind context. -/
theorem mapJudge_withWork (q : Port) {g : Judge → Judge}
    (apart : ∀ j, g { j with arrivals := l, bind := c } = { g j with arrivals := l, bind := c }) (s : State) :
    (withWork p l c s).mapJudge q g = withWork p l c (s.mapJudge q g) := by
  cases p with
  | n => cases q with
    | n => exact congrArg (fun j => s.setJudges ⟨j, s.judges.f⟩) (apart s.judges.n)
    | f => rfl
  | f => cases q with
    | n => rfl
    | f => exact congrArg (fun j => s.setJudges ⟨s.judges.n, j⟩) (apart s.judges.f)

theorem beginLookup_withWork (bank : Bank) (j : Judge) : beginLookup bank { j with arrivals := l, bind := c } =
    { beginLookup bank j with arrivals := l, bind := c } := by
  obtain ⟨arrivals, slot, bind, phase⟩ := j
  cases phase with
  | _ => rfl

theorem grantTo_withWork (u : PortUse) (s : State) :
    grantTo u (withWork p l c s) = withWork p l c (grantTo u s) := by
  cases u with
  | judge q =>
    have moved := mapJudge_withWork p l c q (beginLookup_withWork l c s.store.active) s
    unfold grantTo
    dsimp only
    rw [show (withWork p l c s).store = s.store from rfl, moved]
    rfl
  | agent a =>
    unfold grantTo grantedWrite
    dsimp only
    rw [show ∀ t, ((withWork p l c s).setStore t).agent = s.agent from fun _ => rfl,
      show ∀ t, (s.setStore t).agent = s.agent from fun _ => rfl]
    split <;> rfl
  | scrub => rfl
  | free => rfl
  | closing => rfl
  | sweep => rfl

theorem grant_withWork (s : State) : grant (withWork p l c s) = (grant s).map (withWork p l c) := by
  have waiting (q : Port) : (withWork p l c s).judgeWaiting q = s.judgeWaiting q := by
    unfold State.judgeWaiting
    rw [withWork_phase]
  have choice : arbiterChoice (withWork p l c s) = arbiterChoice s := by
    unfold arbiterChoice waitingJudge
    simp only [waiting]
    rfl
  unfold grant
  rw [choice, show (withWork p l c s).store = s.store from rfl]
  split
  · cases arbiterChoice s with
    | none => rfl
    | some u => exact congrArg some (grantTo_withWork p l c u s)
  · rfl

theorem placeRequest_withWork (q : Port) (s : State) :
    placeRequest q (withWork p l c s) = (placeRequest q s).map (withWork p l c) := by
  unfold placeRequest
  rw [show (withWork p l c s).hold = s.hold from rfl]
  split
  · next r _ _ =>
    have moved := mapJudge_withWork p l c q (g := fun j => { j with slot := some r.ref }) (fun _ => rfl) s
    dsimp only [Option.map_some]
    rw [moved]
    rfl
  · rfl

theorem takeSlot_withWork (q : Port) (s : State) :
    takeSlot q (withWork p l c s) = (takeSlot q s).map (withWork p l c) := by
  have emptied := mapJudge_withWork p l c q (g := fun j => { j with slot := none }) (fun _ => rfl) s
  unfold takeSlot
  rw [withWork_phase, withWork_slot]
  split
  · next n _ _ =>
    dsimp only
    rw [show (withWork p l c s).heldRecord n = s.heldRecord n from rfl, emptied]
    cases s.heldRecord n with
    | none => rfl
    | some r =>
      dsimp only [Option.map_some]
      unfold setPhase
      rw [mapJudge_withWork p l c q (g := fun j => { j with
        phase := .waiting (.rejudge n (keyOf q ((withWork p l c s).buffer r.buffer).bytes)) }) (fun _ => rfl)]
      rfl
  · rfl

theorem openPort_withWork (s : State) : openPort (withWork p l c s) = (openPort s).map (withWork p l c) := by
  unfold openPort
  rw [show (withWork p l c s).store = s.store from rfl]
  cases s.store.port with
  | _ => rfl

end

/-! ### The request comes first -/

/-- A state of `x`'s buffers without the work of the Judge of a port, which has a request to take before it. -/
structure RequestFirst (p : Port) (x s : State) : Prop where
  only : OnlyRequests s
  pool : s.pool = x.pool
  item : judgedBuffer (s.judges.get p).phase = none
  ahead : (s.judges.get p).phase = .idle → RequestAhead p s

section
variable {p : Port} {l : List BufId} {c : Option BindContext} {x s t : State}

theorem placeRequest_due {r : HeldRecord} (free : s.hold.outstanding.get p = none) (held : r ∈ s.hold.records)
    (requestable : Requestable p r) : placeRequest p s ≠ none := by
  obtain ⟨isFirst, pending, port⟩ := requestable
  intro none
  rcases (placeRequest_none_iff p s).1 none with named | passed
  · exact named free
  · have skipped := List.find?_eq_none.1 passed r held
    rw [isFirst, pending, port] at skipped
    exact skipped (by simp)

/-- With a request ahead of it, the Judge has one to take or one is placed. -/
theorem RequestAhead.comes (ahead : RequestAhead p s) (idle : (s.judges.get p).phase = .idle) :
    placeRequest p s ≠ none ∨ takeSlot p s ≠ none := by
  rcases ahead with ⟨r, held, slot⟩ | ⟨free, r, held, requestable⟩
  · refine .inr ?_
    unfold takeSlot
    rw [idle, slot]
    dsimp only
    split <;> exact Option.some_ne_none _
  · exact .inl (placeRequest_due free held requestable)

theorem RequestFirst.endReached (h : RequestFirst p x s) (unended : endReached p x = none)
    (idle : (x.judges.get p).phase = .idle) (q : Port) :
    Machine.endReached q (withWork p (x.judges.get p).arrivals (x.judges.get p).bind s) = none := by
  by_cases here : q = p
  · rw [here]
    refine endReached_none_congr (s := x) p ?_ (fun d waits => ?_) unended
    · rw [withWork_judge, if_pos rfl]
    · have arrived : arrivedBy (withWork p (x.judges.get p).arrivals (x.judges.get p).bind s) d = arrivedBy x d := by
        funext b
        unfold arrivedBy State.buffer
        rw [← h.pool]
        rfl
      unfold someWaiting at waits ⊢
      rw [withWork_judge, if_pos rfl, h.item, arrived]
      rw [idle] at waits
      exact waits
  · have apart (d : Uptime) : someWaiting q d (withWork p (x.judges.get p).arrivals (x.judges.get p).bind s) =
        someWaiting q d s := by
      unfold someWaiting
      rw [withWork_judge, if_neg here]
      rfl
    refine endReached_none_congr (s := s) q ?_ (fun d waits => by rw [apart]; exact waits) (h.only.bindings q)
    rw [withWork_judge, if_neg here]

/-- What follows where no binding ends and no command begins. -/
theorem consequence_apart (bindings : ∀ q, endReached q s = none) (commands : beginCommand s = none) :
    consequence s = (grant s <|> placeRequest .n s <|> placeRequest .f s <|> takeSlot .n s <|> takeSlot .f s <|>
      takeArrival .n s <|> takeArrival .f s <|> openPort s) := by
  unfold consequence
  rw [bindings, bindings, commands]
  rfl

theorem RequestFirst.takeArrival (h : RequestFirst p x s) (places : placeRequest p s = none)
    (takes : takeSlot p s = none) (q : Port) : Machine.takeArrival q (withWork p l c s) = none := by
  by_cases here : q = p
  · rw [here]
    unfold Machine.takeArrival
    rw [withWork_phase]
    split
    · next idle _ =>
      exact ((h.ahead idle).comes idle).elim (fun comes => absurd places comes) fun comes => absurd takes comes
    · rfl
  · exact takeArrival_none_congr q (by rw [withWork_judge, if_neg here]) (h.only.arrivals q)

theorem RequestFirst.consequence (h : RequestFirst p x s) (unended : Machine.endReached p x = none)
    (idle : (x.judges.get p).phase = .idle) :
    consequence (withWork p (x.judges.get p).arrivals (x.judges.get p).bind s) =
      (consequence s).map (withWork p (x.judges.get p).arrivals (x.judges.get p).bind) := by
  have commands : beginCommand (withWork p (x.judges.get p).arrivals (x.judges.get p).bind s) = none :=
    beginCommand_none_congr (s := s) rfl rfl rfl h.only.commands
  rw [consequence_apart (h.endReached unended idle) commands, consequence_apart h.only.bindings h.only.commands,
    grant_withWork, placeRequest_withWork, placeRequest_withWork, takeSlot_withWork, takeSlot_withWork,
    openPort_withWork, h.only.arrivals, h.only.arrivals]
  cases grant s with
  | some t => rfl
  | none => cases placeN : placeRequest .n s with
    | some t => rfl
    | none => cases placeF : placeRequest .f s with
      | some t => rfl
      | none => cases takeN : takeSlot .n s with
        | some t => rfl
        | none => cases takeF : takeSlot .f s with
          | some t => rfl
          | none =>
            have places : placeRequest p s = none := by cases p <;> assumption
            have takes : takeSlot p s = none := by cases p <;> assumption
            rw [h.takeArrival places takes, h.takeArrival places takes]
            rfl

theorem RequestAhead.congr (ahead : RequestAhead p s) (records : t.hold.records = s.hold.records)
    (outstanding : t.hold.outstanding.get p = s.hold.outstanding.get p)
    (slot : (t.judges.get p).slot = (s.judges.get p).slot) : RequestAhead p t := by
  unfold RequestAhead
  rw [records, outstanding, slot]
  exact ahead

/-- What is not of the Judge and of its request leaves its request first. -/
theorem RequestFirst.congr (h : RequestFirst p x s) (only : OnlyRequests t) (pool : t.pool = s.pool)
    (judge : t.judges.get p = s.judges.get p) (records : t.hold.records = s.hold.records)
    (outstanding : t.hold.outstanding.get p = s.hold.outstanding.get p) : RequestFirst p x t where
  only := only
  pool := pool.trans h.pool
  item := by rw [judge]; exact h.item
  ahead idle := (h.ahead (by rw [← judge]; exact idle)).congr records outstanding (by rw [judge])

/-- Requests come first as long as they follow. -/
theorem RequestFirst.next (h : RequestFirst p x s) (follows : Machine.consequence s = some t) : RequestFirst p x t := by
  have only := (consequence_requests h.only follows).1
  rcases consequence_cases h.only follows with granted | ⟨q, placed⟩ | ⟨q, noneDue, taken⟩ | opened
  · obtain ⟨hold, pool, -, judges, -⟩ := grant_leaves granted
    refine ⟨only, pool.trans h.pool, ?_, fun idle => ?_⟩
    · rcases judges p with same | ⟨it, waits, looks⟩
      · rw [same]
        exact h.item
      · have item := h.item
        rw [waits] at item
        rw [looks]
        cases it with
        | telegram b role key => cases item
        | rejudge n key => rfl
    · rcases judges p with same | ⟨it, -, looks⟩
      · rw [same] at idle
        unfold RequestAhead
        rw [hold, same]
        exact h.ahead idle
      · rw [looks] at idle
        cases idle
  · obtain ⟨-, r, held, rfl⟩ := placeRequest_some placed
    by_cases here : p = q
    · rw [← here] at only ⊢
      refine ⟨only, h.pool, ?_, fun _ => .inl ⟨r, held, ?_⟩⟩
      · rw [PerPort.get_set_self]
        exact h.item
      · rw [PerPort.get_set_self]
    · exact h.congr only rfl (get_set_apart here) rfl (get_set_apart here)
  · obtain ⟨idle, n, slot, ⟨r, found, rfl⟩ | ⟨gone, rfl⟩⟩ := takeSlot_some taken
    · by_cases here : p = q
      · rw [← here] at only ⊢
        refine ⟨only, h.pool, ?_, fun still => ?_⟩
        · rw [PerPort.get_set_self]
          rfl
        · rw [PerPort.get_set_self] at still
          cases still
      · exact h.congr only rfl (get_set_apart here) rfl rfl
    · by_cases here : p = q
      · rw [← here] at idle slot
        rcases h.ahead idle with ⟨r, held, named⟩ | due
        · have ref : n = r.ref := Option.some.inj (slot.symm.trans named)
          have present := heldRecord_isSome held
          rw [← ref, gone] at present
          cases present
        · obtain ⟨free, r, held, requestable⟩ := due
          exact absurd (noneDue p) (placeRequest_due free held requestable)
      · exact h.congr only rfl (get_set_apart here) rfl (get_set_apart here)
  · have same : t = s.setStore { s.store with port := .free } := by
      unfold openPort at opened
      split at opened
      · exact (Option.some.inj opened).symm
      all_goals cases opened
    subst same
    exact h.congr only rfl rfl rfl rfl

/-! ### What follows of it -/

theorem RequestFirst.settleFor (unended : Machine.endReached p x = none) (idle : (x.judges.get p).phase = .idle)
    (n : Nat) (h : RequestFirst p x s) :
    settleFor n (withWork p (x.judges.get p).arrivals (x.judges.get p).bind s) =
      withWork p (x.judges.get p).arrivals (x.judges.get p).bind (settleFor n s) ∧
      RequestFirst p x (Machine.settleFor n s) := by
  induction n generalizing s with
  | zero => exact ⟨rfl, h⟩
  | succ n ih =>
    have step := h.consequence unended idle
    cases follows : Machine.consequence s with
    | none =>
      rw [follows] at step
      unfold Machine.settleFor
      rw [step, follows]
      exact ⟨rfl, h⟩
    | some u =>
      rw [follows] at step
      rw [settleFor_succ n step, settleFor_succ n follows]
      exact ih (h.next follows)

variable (p l c)

theorem writtenAtGrant_withWork (s : State) :
    WrittenAtGrant (withWork p l c s) = withWork p l c (WrittenAtGrant s) := by
  unfold WrittenAtGrant
  rw [show (withWork p l c s).agent = s.agent from rfl]
  split <;> rfl

theorem requested_withWork (q : Port) (s : State) : Requested q (withWork p l c s) = withWork p l c (Requested q s) := by
  have placed := placeRequest_withWork p l c q s
  rw [← placeRequest_eq, ← placeRequest_eq, placed]
  cases placeRequest q s <;> rfl

theorem slotTaken_withWork (q : Port) (s : State) : SlotTaken q (withWork p l c s) =
    if q = p then { SlotTaken q s with arrivals := l, bind := c } else SlotTaken q s := by
  unfold SlotTaken
  rw [withWork_phase, withWork_slot, withWork_judge, show (withWork p l c s).hold = s.hold from rfl]
  split
  · next n _ _ =>
    cases s.hold.records.find? fun r => r.ref == n with
    | none =>
      dsimp only
      split
      · next here => rw [here]
      · rfl
    | some r =>
      dsimp only
      split
      · next here =>
        rw [here]
        rfl
      · rfl
  · split
    · next here => rw [here]
    · rfl

theorem WithRequests.withWork {s t : State} (h : WithRequests s t) :
    WithRequests (Machine.withWork p l c s) (Machine.withWork p l c t) := by
  unfold WithRequests at h ⊢
  rw [h]
  cases p <;> rfl

theorem RequestLeft.withWork {q : Port} {s t : State} (h : RequestLeft q s t) :
    RequestLeft q (Machine.withWork p l c s) (Machine.withWork p l c t) := by
  intro named
  rw [withWork_phase, withWork_slot] at named
  obtain ⟨outstanding, judge⟩ := h named
  rw [requested_withWork]
  refine ⟨outstanding, ?_⟩
  rintro j rfl
  rw [slotTaken_withWork, withWork_judge]
  split
  · next here =>
    rw [← here]
    rcases judge _ rfl with same | ⟨it, waits, looks⟩
    · rw [same]
      exact .inl rfl
    · rw [looks]
      exact .inr ⟨it, waits, rfl⟩
  · exact judge _ rfl

variable {p l c}

/-- Where a request is ahead of the telegrams that wait at an IDLE Judge, nothing but requests follows. -/
theorem settleFor_ahead (n : Nat) (enough : 10 ≤ n) (idle : (x.judges.get p).phase = .idle)
    (bindings : ∀ q, endReached q x = none) (commands : beginCommand x = none)
    (arrivals : ∀ q, q ≠ p → takeArrival q x = none) (ahead : RequestAhead p x) : FollowsOnly x (settleFor n x) := by
  have first : RequestFirst p x (withWork p [] none x) := by
    refine ⟨⟨fun q => ?_, beginCommand_none_congr (s := x) rfl rfl rfl commands, fun q => ?_⟩, rfl, ?_, fun _ => ?_⟩
    · by_cases here : q = p
      · unfold Machine.endReached
        rw [withWork_judge, if_pos here]
      · have apart (d : Uptime) : someWaiting q d (withWork p [] none x) = someWaiting q d x := by
          unfold someWaiting
          rw [withWork_judge, if_neg here]
          rfl
        refine endReached_none_congr (s := x) q ?_ (fun d waits => by rw [apart]; exact waits) (bindings q)
        rw [withWork_judge, if_neg here]
    · by_cases here : q = p
      · unfold Machine.takeArrival
        rw [withWork_judge, if_pos here]
        dsimp only
        split
        · next empty => cases empty
        · rfl
      · exact takeArrival_none_congr q (by rw [withWork_judge, if_neg here]) (arrivals q here)
    · rw [withWork_phase, idle]
      rfl
    · exact ahead.congr rfl rfl (withWork_slot ..)
  obtain ⟨commutes, last⟩ := first.settleFor (bindings p) idle n
  obtain ⟨⟨asked, same⟩, left, settled⟩ := settleFor_follows n first.only ((work_le _).trans enough)
  rw [withWork_same] at commutes
  rw [commutes]
  have follows : FollowsOnly (withWork p (x.judges.get p).arrivals (x.judges.get p).bind (withWork p [] none x))
      (withWork p (x.judges.get p).arrivals (x.judges.get p).bind (Machine.settleFor n (withWork p [] none x))) := by
    refine ⟨⟨asked, ?_⟩, fun q => (left q).withWork _ _ _, ?_⟩
    · have moved := same.withWork p (x.judges.get p).arrivals (x.judges.get p).bind
      rw [apply_ite (withWork p (x.judges.get p).arrivals (x.judges.get p).bind), ← writtenAtGrant_withWork] at moved
      exact moved
    · have none := last.consequence (bindings p) idle
      unfold Settled at settled ⊢
      rw [Option.isNone_iff_eq_none] at settled ⊢
      rw [none, settled]
      rfl
  rw [withWork_same] at follows
  exact follows

end

end Sys2Proof.Machine
end

section
/-! SUPPORT. The end of a judgement (R20, R24, R47, log 14). -/

namespace Sys2Proof.Machine

/-- The table port released by a Judge that is IDLE for its next item. -/
def freedAside (p : Port) : Aside where
  phases := (⟨id, id⟩ : PerPort (JudgePhase → JudgePhase)).set p fun _ => .idle
  port := fun _ => .closing

/-- The state in which a Judge has ended its judgement. -/
def freed (p : Port) (s : State) : State := aside (freedAside p) s

section
variable {p : Port} {s z : State}

theorem freed_eq (p : Port) (s : State) : freed p s = { s with
    judges := s.judges.set p { s.judges.get p with phase := .idle }
    store := { s.store with port := .closing } } := by
  cases p <;> rfl

theorem freed_judge (p q : Port) (s : State) : (freed p s).judges.get q =
    if q = p then { s.judges.get p with phase := .idle } else s.judges.get q := by
  rw [freed_eq]
  exact PerPort.get_set ..

theorem freed_other {q : Port} (apart : q ≠ p) (s : State) : (freed p s).judges.get q = s.judges.get q := by
  rw [freed_judge, if_neg apart]

theorem freed_mine (p : Port) (s : State) : (freed p s).judges.get p = { s.judges.get p with phase := .idle } := by
  rw [freed_judge, if_pos rfl]

/-! ### What follows -/

/-- A judgement has ended in a gate where nothing else followed, and no binding of its Judge ends. -/
structure JudgementEnded (p : Port) (z : State) : Prop where
  bindings : ∀ q, endReached q (freed p z) = none
  commands : beginCommand (freed p z) = none
  arrivals : ∀ q, q ≠ p → takeArrival q (freed p z) = none
  slots : ∀ q, q ≠ p → takeSlot q (freed p z) = none

theorem KeepsJudging.ended (keeps : KeepsJudging s z) (settled : Settled s)
    (unended : endReached p (freed p z) = none) : JudgementEnded p z := by
  have only := keeps.onlyRequests settled.onlyRequests
  refine ⟨fun q => ?_, ?_, fun q apart => ?_, fun q apart => ?_⟩
  · by_cases here : q = p
    · rw [here]
      exact unended
    · have waits (d : Uptime) : Machine.someWaiting q d (freed p z) = Machine.someWaiting q d z := by
        unfold Machine.someWaiting
        rw [freed_other here]
        rfl
      exact endReached_none_congr (s := z) q (by rw [freed_other here]) (fun d w => by rw [waits]; exact w)
        (only.bindings q)
  · exact beginCommand_none_congr (s := z) rfl rfl rfl only.commands
  · exact takeArrival_none_congr (s := z) q (freed_other apart z) (only.arrivals q)
  · have taken := settled.takeSlot q
    unfold Machine.takeSlot at taken ⊢
    rw [freed_other apart, keeps.phase]
    rcases keeps.slot q with same | none
    · rw [same]
      split at taken
      · dsimp only at taken
        split at taken <;> cases taken
      · rfl
    · rw [none]
      cases (s.judges.get q).phase with
      | _ => rfl

theorem JudgementEnded.takesOldest (h : JudgementEnded p z) {b : BufId} {rest : List BufId}
    (arrivals : (z.judges.get p).arrivals = b :: rest) (slot : (z.judges.get p).slot = none) (due : NoRequestDue z) :
    consequence (freed p z) = some (OldestTaken p b rest { z with store := { z.store with port := .closing } }) := by
  have places (q : Port) : placeRequest q (freed p z) = none := by
    refine (placeRequest_none_iff q _).2 ?_
    by_cases free : z.hold.outstanding.get q = none
    · refine .inr (List.find?_eq_none.2 fun r held named => due q free r held ?_)
      simp only [Bool.and_eq_true, beq_iff_eq] at named
      obtain ⟨⟨isFirst, pending⟩, port⟩ := named
      exact ⟨isFirst, pending, port⟩
    · exact .inl free
  have takes (q : Port) : takeSlot q (freed p z) = none := by
    by_cases here : q = p
    · unfold takeSlot
      rw [here, freed_mine, slot]
    · exact h.slots q here
  have mine : takeArrival p (freed p z) =
      some (OldestTaken p b rest { z with store := { z.store with port := .closing } }) := by
    have emptied : ((freed p z).mapJudge p fun j => { j with arrivals := rest }) = { z with
        store := { z.store with port := .closing }
        judges := z.judges.set p { z.judges.get p with arrivals := rest, phase := .idle } } := by
      rw [freed_eq]
      unfold State.mapJudge State.setJudges
      simp only [PerPort.get_set_self, PerPort.set_set]
    unfold takeArrival
    rw [freed_mine, arrivals]
    dsimp only
    rw [emptied]
    change (if destOf (z.buffer b).bytes = z.ownAddr then some _ else some _) =
      some (if destOf (z.buffer b).bytes = z.ownAddr then _ else _)
    by_cases own : destOf (z.buffer b).bytes = z.ownAddr
    · rw [if_pos own, if_pos own]
    · rw [if_neg own, if_neg own]
  have none : grant (freed p z) = none := by
    unfold grant
    rw [show (freed p z).store.port = .closing from rfl]
    split
    · next closing => cases closing
    · rfl
  rw [consequence_apart h.bindings h.commands, none, places, places, takes, takes]
  cases p with
  | n =>
    rw [mine]
    rfl
  | f =>
    rw [mine, h.arrivals .n (by decide)]
    rfl

/-- What a judgement ends in, and what follows it. -/
theorem JudgementEnded.concludes (h : JudgementEnded p z) {n : Nat} (low : 1023 ≤ n) (high : n ≤ 1024) :
    Concludes p z (settleFor n (freed p z)) := by
  have idle : ((freed p z).judges.get p).phase = .idle := by rw [freed_mine]
  refine ⟨fun either => ?_, fun b rest arrivals slot due => ?_⟩
  · suffices FollowsOnly (freed p z) (settleFor n (freed p z)) by
      refine FollowsOnly.ofPort (u := .closing) ?_
      rw [freed_eq] at this ⊢
      exact this
    by_cases empty : (z.judges.get p).arrivals = []
    · have only : OnlyRequests (freed p z) := by
        refine ⟨h.bindings, h.commands, fun q => ?_⟩
        by_cases here : q = p
        · unfold takeArrival
          rw [here, freed_mine, empty]
        · exact h.arrivals q here
      exact settleFor_follows n only ((work_le _).trans (by omega))
    · have ahead := either.resolve_left empty
      exact settleFor_ahead n (by omega) idle h.bindings h.commands h.arrivals
        (RequestAhead.congr ahead rfl rfl (by rw [freed_mine]))
  · obtain ⟨m, rfl⟩ : ∃ m, n = m + 1 := ⟨n - 1, by omega⟩
    refine ⟨1024 - m, by omega, ?_⟩
    rw [settleFor_succ m (h.takesOldest arrivals slot due)]
    exact congrArg (settleFor · _) (show m = 1024 - (1024 - m) by omega)

end

end Sys2Proof.Machine
end

section
/-! SUPPORT. The counts of an index, the credit that check 8 takes, and the preparation of a telegram (R33, R36, R39, R87,
R88, R179). -/

namespace Sys2Proof.Machine

/-! ### The counts and the credit of an index -/

section
variable {s : State} {i : Index} {c : HeldContext}

theorem consume_taken (limited : c.ceiling ≠ 0) (credit : (s.stream i).credit ≠ 0) : consume (some i) c s =
    { s with policer := { s.policer with
      streams := s.policer.streams.set i.val { s.stream i with credit := (s.stream i).credit - 1 } } } := by
  unfold consume requestCredit
  dsimp only
  rw [if_neg limited, if_neg credit]
  rfl

theorem consume_untaken (none : c.ceiling = 0 ∨ (s.stream i).credit = 0) : consume (some i) c s = s := by
  unfold consume requestCredit
  dsimp only
  rcases none with unlimited | empty
  · rw [if_pos unlimited]
  · rw [if_pos empty]
    exact ite_self s

end

/-! ### The preparation (R36) -/

/-- An option after the preparation: an unfilled STAMP slot takes the stamp. -/
def stamped (stamp : StampPolicy) (fill : List Byte) (o : Byte × List Byte) : Byte × List Byte :=
  if stamp = .fill ∧ o.1 = 0x01 ∧ (byteAt o.2 7).getLsbD 7 = false then (0x01, fill) else o

section
variable {dest source : Addr} {five six seq size : Byte} {options : List (Byte × List Byte)} {payload fill : List Byte}
  {stamp : StampPolicy}

theorem stamped_unfilled {v : List Byte} (unfilled : (byteAt v 7).getLsbD 7 = false) :
    stamped .fill fill (0x01, v) = (0x01, fill) := if_pos ⟨rfl, rfl, unfilled⟩

theorem map_stamped_same {l : List (Byte × List Byte)}
    (apart : stamp = .fill → ∀ v, (0x01, v) ∈ l → (byteAt v 7).getLsbD 7 = true) : l.map (stamped stamp fill) = l := by
  have each : ∀ o ∈ l, stamped stamp fill o = o := by
    rintro ⟨k, v⟩ member
    refine if_neg ?_
    rintro ⟨fills, kind, unfilled⟩
    have kind : k = 0x01 := kind
    rw [kind] at member
    have filled := apart fills v member
    rw [filled] at unfilled
    cases unfilled
  exact (List.map_congr_left each).trans (List.map_id' l)

/-- Bytes written over as many others. -/
theorem putBytes_between (before after : List Byte) {old new : List Byte} (size : new.length = old.length) :
    putBytes (before ++ (old ++ after)) before.length new = before ++ (new ++ after) := by
  unfold putBytes
  rw [List.take_left' rfl, size, List.drop_length_add_append, List.drop_left' rfl, List.append_assoc]

theorem fillStamp_telegram (form : OptionsInForm six options) (time : TimeStamp) (q : Quality)
    (written : fill = stampValue time q) :
    fillStamp (telegramBytes dest source five six seq size options payload) time q =
      telegramBytes dest source five six seq size (options.map (stamped .fill fill)) payload := by
  unfold fillStamp
  by_cases has : ∃ v, (0x01, v) ∈ options
  · obtain ⟨v, has⟩ := has
    have length := form.stamp_length has
    obtain ⟨before, after, rfl, first, last⟩ := form.split has
    rw [unfilledStamp_split form first, List.map_append, List.map_cons,
      map_stamped_same fun _ w member => absurd member (first w), map_stamped_same fun _ w member => absurd member (last w)]
    cases unfilled : (byteAt v 7).getLsbD 7 with
    | true =>
      have kept : stamped .fill fill (0x01, v) = (0x01, v) := if_neg fun marked => by
        have clear : (byteAt v 7).getLsbD 7 = false := marked.2.2
        rw [unfilled] at clear
        cases clear
      rw [kept]
      rfl
    | false =>
      have size8 : fill.length = 8 := by rw [written]; rfl
      rw [stamped_unfilled unfilled, if_neg Bool.false_ne_true]
      dsimp only
      rw [← written, telegramBytes_split, telegramBytes_split, length, size8, ← valuePlace_eq before 0x01 (BitVec.ofNat 8 8)]
      exact putBytes_between _ _ (size8.trans length.symm)
  · rw [unfilledStamp_absent form (not_exists.1 has), map_stamped_same fun _ v member => absurd ⟨v, member⟩ has]

theorem writeDest_telegram (d : Addr) : writeDest (telegramBytes dest source five six seq size options payload) d =
    telegramBytes d source five six seq size options payload := rfl

theorem prepared_telegram (form : OptionsInForm six options) {x : Buffer}
    (bytes : x.bytes = telegramBytes dest source five six seq size options payload) (d : Addr)
    (written : fill = stampValue x.desc.time x.desc.quality) : prepared x d stamp =
      telegramBytes d source five six seq size (options.map (stamped stamp fill)) payload := by
  have addressed : (if d = destOf x.bytes then x.bytes else writeDest x.bytes d) =
      telegramBytes d source five six seq size options payload := by
    have old : destOf x.bytes = dest := by
      rw [bytes]
      exact be16_join dest
    rw [bytes, writeDest_telegram, ← bytes, old]
    split
    · next same => rw [bytes, same]
    · rfl
  unfold prepared
  dsimp only
  rw [addressed]
  cases stamp with
  | fill => exact fillStamp_telegram form _ _ written
  | ignore =>
    dsimp only
    rw [map_stamped_same (stamp := .ignore) nofun]

end

end Sys2Proof.Machine
end

section
/-! SUPPORT. The conclusion of a lookup, with the end of a binding whose deadline has been reached (R24, R40, R47, R52). -/

namespace Sys2Proof.Machine

/-! ### The lookup -/

section
variable {p : Port} {it : Item} {bank : Bank} {s : State} {w : Walk}

theorem exec_lookupConclusion (phase : (s.judges.get p).phase = .lookup it bank) (o : RiseOrder) :
    exec (.lookupConclusion p o) s = .next (settle (concludeLookup p it bank o s)) := by
  change Host.Outcome.next (lookupConclusionNow p o s) = _
  rw [lookupConclusionNow, phase]

theorem freedAside_requests (p q : Port) : (freedAside p).requests.get q = id := by
  cases q <;> rfl

theorem concludeItem_freed (p : Port) (it : Item) (bank : Bank) (stop : LookupStop) (s : State) :
    concludeItem p it bank stop (freed p s) = freed p (concludeItem p it bank stop s) :=
  concludeItem_aside _ (freedAside_requests p) ..

theorem freed_access (p : Port) (s : State) : setPhase p .idle (concludeAccess s) = freed p s := by
  rw [freed_eq]
  rfl

theorem applyWalk_none (none : w.joins = false) : applyWalk bank w s = afterReads w s := by
  obtain ⟨stop, n, draws⟩ := w
  cases stop with
  | fault i => cases none
  | found i e => rfl
  | noMatch => rfl
  | poisoned i => rfl

/-- A lookup whose reads find no row uncorrectable ends in the verdict. -/
theorem concludeLookup_sound (found : w = lookup bank it.key s) (none : w.joins = false) (o : RiseOrder) :
    concludeLookup p it bank o s = freed p (concludeItem p it bank w.stop (afterReads w s)) := by
  unfold concludeLookup
  rw [← found]
  dsimp only
  rw [applyWalk_none none, freed_access, none]
  cases o with
  | _ => exact concludeItem_freed ..

/-- What TABLE_FAULT is told before or after. -/
def withFault (o : RiseOrder) (f : State → State) (s : State) : State :=
  match o with
  | .flagFirst => f (tell .tableFault s)
  | .recordsFirst => tell .tableFault (f s)

/-- A lookup that meets an uncorrectable row tells it, and refuses what was judged. -/
theorem concludeLookup_fault {i : Index} {n draws : Nat} (found : lookup bank it.key s = ⟨.fault i, n, draws⟩)
    (o : RiseOrder) : concludeLookup p it bank o s = freed p
      (withFault o (concludeItem p it bank (.fault i)) (Poisoned bank i (afterReads ⟨.fault i, n, draws⟩ s))) := by
  have walk : applyWalk bank ⟨.fault i, n, draws⟩ s = Poisoned bank i (afterReads ⟨.fault i, n, draws⟩ s) :=
    joinPoison_eq ..
  have told (u : State) : tell .tableFault (freed p u) = freed p (tell .tableFault u) := tell_aside ..
  unfold concludeLookup
  rw [found]
  dsimp only
  rw [walk, freed_access]
  cases o with
  | flagFirst =>
    refine Eq.trans ?_ (concludeItem_freed ..)
    rw [← told]
    rfl
  | recordsFirst =>
    refine Eq.trans ?_ (told _)
    rw [← concludeItem_freed]
    rfl

end

/-! ### The end of a binding -/

section
variable {p : Port} {s u z : State} {c : BindContext}

/-- Whether a binding whose deadline has been reached has no arrival in time (R47). -/
abbrev NoneInTime (p : Port) (c : BindContext) (u : State) : Prop :=
  c.reached = true ∧ ∀ a ∈ (u.judges.get p).arrivals, atOrBefore (u.buffer a).desc.uptime c.deadline = false

theorem endReached_freed_closed (closed : (u.judges.get p).bind = none) : endReached p (freed p u) = none := by
  unfold endReached
  rw [freed_mine, closed]

theorem endReached_freed (opened : (u.judges.get p).bind = some c) : endReached p (freed p u) =
    if NoneInTime p c u then some (freed p (endBinding p c u)) else none := by
  have waits : someWaiting p c.deadline (freed p u) = (u.judges.get p).arrivals.any (arrivedBy u c.deadline) := by
    unfold someWaiting
    rw [freed_mine]
    exact Bool.or_false _
  have late : (c.reached && !someWaiting p c.deadline (freed p u)) = true ↔ NoneInTime p c u := by
    rw [waits, Bool.and_eq_true, Bool.not_eq_true', List.any_eq_false]
    exact and_congr_right fun _ => forall₂_congr fun a _ => Bool.eq_false_iff.symm
  have ended : endBinding p c (freed p u) = freed p (endBinding p c u) := endBinding_aside ..
  unfold endReached
  rw [freed_mine, opened]
  dsimp only
  rw [ended]
  by_cases ends : NoneInTime p c u
  · rw [if_pos ends, if_pos (late.2 ends)]
  · rw [if_neg ends, if_neg fun h => ends (late.1 h)]

theorem concludes_stays (settled : Settled s) (keeps : KeepsJudging s u) (unended : endReached p (freed p u) = none) :
    Concludes p u (settle (freed p u)) := (keeps.ended settled unended).concludes (by decide) (by decide)

theorem concludes_ends (settled : Settled s) (keeps : KeepsJudging s u) (kept : KeepsJudging s z)
    (ends : endReached p (freed p u) = some (freed p z)) (closed : (z.judges.get p).bind = none) :
    Concludes p z (settle (freed p u)) := by
  have none : grant (freed p u) = none := by
    unfold grant
    rw [show (freed p u).store.port = .closing from rfl]
    split
    · next closing => cases closing
    · rfl
  have first : consequence (freed p u) = some (freed p z) := by
    unfold consequence
    rw [none]
    cases p with
    | n =>
      rw [ends]
      rfl
    | f =>
      have apart : endReached .n (freed .f u) = Option.none :=
        endReached_none_congr (s := u) .n rfl (fun _ w => w) ((keeps.onlyRequests settled.onlyRequests).bindings .n)
      rw [ends, apart]
      rfl
  have next : settle (freed p u) = settleFor 1023 (freed p z) := settleFor_succ 1023 first
  rw [next]
  exact (kept.ended settled (endReached_freed_closed closed)).concludes (by decide) (by decide)

theorem KeepsJudging.closed (keeps : KeepsJudging u z) (closed : (u.judges.get p).bind = none) :
    (z.judges.get p).bind = none := by
  cases opened : (z.judges.get p).bind with
  | none => rfl
  | some c =>
    obtain ⟨old, was, -⟩ := keeps.bind p c opened
    rw [closed] at was
    cases was

/-- A binding without a second is ended with its context closed. -/
theorem endBinding_closed (p : Port) (c : BindContext) (u : State) :
    ((endBinding p c u).judges.get p).bind = none := by
  have closed : ((setBind p none u).judges.get p).bind = none := by
    rw [setBind_eq, rebound_get, if_pos rfl]
  unfold endBinding
  dsimp only
  split
  · exact (KeepsJudging.removeRef ..).closed closed
  · exact (KeepsJudging.handOver ..).closed closed
  · exact closed
  · exact closed

theorem endBinding_rebound (p : Port) (c : BindContext) (x : Option BindContext) (u : State) :
    endBinding p c (rebound p x u) = endBinding p c u := by
  have same : setBind p none (rebound p x u) = setBind p none u := by
    rw [setBind_eq, setBind_eq]
    unfold rebound
    simp only [PerPort.get_set_self, PerPort.set_set]
  unfold endBinding
  rw [same]

variable {role : JudgedAs} {l : List Byte} {out : BindOutcome} {index : Option Index} {broken : State → State}

/-- The judgement of a telegram that is no second ends in its outcome written, and its binding with it where its deadline
has been reached and none waits in time. -/
theorem concludes_own (settled : Settled s) (keeps : KeepsJudging s u)
    (roles : role = .plain ∧ (u.judges.get p).bind = none ∨ role = .first ∧ (u.judges.get p).bind ≠ none)
    (ends : ∀ c, (u.judges.get p).bind = some c →
      endBinding p { c with outcome := out, particulars := some ⟨destOf l, classOf l, index⟩ } u =
        broken (rebound p none u)) :
    Concludes p (FirstConcluded p l out index broken u)
      (settle (freed p (writeOutcome p role out ⟨destOf l, classOf l, index⟩ u))) := by
  rcases roles with ⟨rfl, closed⟩ | ⟨rfl, opened⟩
  · rw [FirstConcluded_closed l out index broken closed]
    exact concludes_stays settled keeps (endReached_freed_closed closed)
  · obtain ⟨c, bind⟩ := Option.ne_none_iff_exists'.1 opened
    obtain ⟨e, written⟩ : ∃ e : BindContext, e = { c with outcome := out, particulars := some ⟨destOf l, classOf l, index⟩ } :=
      ⟨_, rfl⟩
    have ending := ends c bind
    have outcome : writeOutcome p .first out ⟨destOf l, classOf l, index⟩ u = rebound p (some e) u := by
      unfold writeOutcome
      rw [bind, written]
      rfl
    have kept : KeepsJudging s (rebound p (some e) u) := by
      rw [← outcome]
      exact keeps.trans (.writeOutcome ..)
    have mine : ((rebound p (some e) u).judges.get p).bind = some e := by rw [rebound_get, if_pos rfl]
    have inTime : NoneInTime p e (rebound p (some e) u) ↔ NoneInTime p c u := by
      unfold NoneInTime
      rw [rebound_get, if_pos rfl, written]
      rfl
    have reached := endReached_freed mine
    rw [outcome]
    unfold FirstConcluded
    rw [bind]
    dsimp only
    by_cases late : NoneInTime p c u
    · rw [if_pos late]
      change Concludes p (broken (rebound p none u)) _
      rw [← ending]
      rw [if_pos (inTime.2 late), endBinding_rebound] at reached
      rw [written] at kept reached ⊢
      exact concludes_ends settled kept (keeps.trans (.endBinding ..)) reached (endBinding_closed ..)
    · rw [if_neg late]
      rw [if_neg fun h => late (inTime.1 h)] at reached
      rw [written] at kept reached ⊢
      exact concludes_stays settled kept reached

end

end Sys2Proof.Machine
end

section
/-! SUPPORT. The request that the Judge has taken once its judgement has ended (R20, R41, R115). -/

namespace Sys2Proof.Machine

section
variable {p : Port} {s x z t : State} {r : HeldRecord}

theorem slotTaken_named {n : Nat} (idle : (x.judges.get p).phase = .idle) (slot : (x.judges.get p).slot = some n)
    (found : x.heldRecord n = some r) : SlotTaken p x = { x.judges.get p with
      slot := none
      phase := .waiting (.rejudge n ⟨p, sourceOf (x.buffer r.buffer).bytes, classOf (x.buffer r.buffer).bytes⟩) } := by
  have named : x.hold.records.find? (fun q => q.ref == n) = some r := found
  unfold SlotTaken
  rw [idle, slot]
  dsimp only
  rw [named]

theorem slotTaken_empty (slot : (x.judges.get p).slot = none) : SlotTaken p x = x.judges.get p := by
  unfold SlotTaken
  rw [slot]
  split
  · next none => cases none
  · rfl

/-- Where only requests follow, an IDLE Judge has taken the request that it has, or that is placed. -/
theorem FollowsOnly.taken (h : FollowsOnly x t) (idle : ((Requested p x).judges.get p).phase = .idle)
    (slot : ((Requested p x).judges.get p).slot = some r.ref) (found : x.heldRecord r.ref = some r)
    (frame : (Requested p x).hold.records = x.hold.records ∧ (Requested p x).pool = x.pool)
    (named : (x.judges.get p).phase = .idle → ∀ n, (x.judges.get p).slot = some n → ∃ r ∈ x.hold.records, r.ref = n) :
    (t.judges.get p).arrivals = ((Requested p x).judges.get p).arrivals ∧ RequestTaken p r t := by
  obtain ⟨records, pool⟩ := frame
  have present : (Requested p x).heldRecord r.ref = some r := by
    unfold State.heldRecord at found ⊢
    rw [records]
    exact found
  have active : t.store.active = x.store.active := h.frame.2.2.2.2
  have bytes : (t.buffer r.buffer).bytes = ((Requested p x).buffer r.buffer).bytes := by
    unfold State.buffer
    rw [h.ports.1, pool]
  obtain ⟨-, judge⟩ := h.2.1 p named
  have left := judge _ (slotTaken_named idle slot present).symm
  unfold RequestTaken
  rw [active, bytes]
  rcases left with same | ⟨it, waits, looks⟩
  · rw [same]
    refine ⟨rfl, rfl, ?_⟩
    rintro it rfl
    exact .inl rfl
  · rw [looks]
    refine ⟨rfl, rfl, ?_⟩
    rintro it rfl
    exact .inr (congrArg (JudgePhase.lookup · x.store.active) (JudgePhase.waiting.inj waits.symm))

/-! ### What the end of a judgement leaves -/

/-- `z` has the arrivals and the request of a port as in `s`. -/
structure LeavesRequest (p : Port) (s z : State) : Prop where
  arrivals : (z.judges.get p).arrivals = (s.judges.get p).arrivals
  slot : (z.judges.get p).slot = (s.judges.get p).slot
  outstanding : z.hold.outstanding.get p = s.hold.outstanding.get p

theorem LeavesRequest.trans (a : LeavesRequest p s x) (b : LeavesRequest p x z) : LeavesRequest p s z :=
  ⟨b.arrivals.trans a.arrivals, b.slot.trans a.slot, b.outstanding.trans a.outstanding⟩

theorem LeavesRequest.of_same (judges : z.judges = s.judges) (outstanding : z.hold.outstanding = s.hold.outstanding) :
    LeavesRequest p s z := ⟨by rw [judges], by rw [judges], by rw [outstanding]⟩

/-- The state with its Judge IDLE. -/
abbrev idled (p : Port) (z : State) : State :=
  { z with judges := z.judges.set p { z.judges.get p with phase := .idle } }

theorem idled_mine (p : Port) (z : State) : (idled p z).judges.get p = { z.judges.get p with phase := .idle } :=
  PerPort.get_set_self ..

/-- A Judge with nothing to go on to is IDLE. -/
theorem Concludes.idle (h : Concludes p z t) (empty : (z.judges.get p).arrivals = []) (slot : (z.judges.get p).slot = none)
    (same : t.hold.outstanding.get p = z.hold.outstanding.get p) :
    (t.judges.get p).phase = .idle ∧ (t.judges.get p).slot = none := by
  obtain ⟨-, left, -⟩ := h.1 (.inl empty)
  have unnamed : ((idled p z).judges.get p).slot = none := by rw [idled_mine, slot]
  obtain ⟨outstanding, judge⟩ := left p fun _ n named => nomatch unnamed.symm.trans named
  have none : Requested p (idled p z) = idled p z := by
    cases free : z.hold.outstanding.get p with
    | some q =>
      have : (idled p z).hold.outstanding.get p = some q := free
      unfold Requested
      rw [this]
    | none =>
      have : (idled p z).hold.outstanding.get p = Option.none := free
      rw [same, free] at outstanding
      unfold Requested at outstanding ⊢
      rw [this] at outstanding ⊢
      split at outstanding
      · dsimp only at outstanding
        rw [PerPort.get_set_self] at outstanding
        cases outstanding
      · rfl
  have left := judge _ rfl
  rw [none, slotTaken_empty unnamed, idled_mine] at left
  rcases left with same | ⟨it, waits, -⟩
  · rw [same]
    exact ⟨rfl, slot⟩
  · cases waits

/-- The request in the slot has been taken. -/
theorem Concludes.taken (h : Concludes p z t) (held : r ∈ z.hold.records) (found : z.heldRecord r.ref = some r)
    (slot : (z.judges.get p).slot = some r.ref) (outstanding : z.hold.outstanding.get p ≠ none) :
    (t.judges.get p).arrivals = (z.judges.get p).arrivals ∧ RequestTaken p r t := by
  have follows := h.1 (.inr (.inl ⟨r, held, slot⟩))
  have none : Requested p (idled p z) = idled p z := by
    obtain ⟨q, named⟩ := Option.ne_none_iff_exists'.1 outstanding
    have : (idled p z).hold.outstanding.get p = some q := named
    unfold Requested
    rw [this]
  have taken := follows.taken (p := p) (r := r) (by rw [none, idled_mine]) (by rw [none, idled_mine]; exact slot) found
    (by rw [none]; exact ⟨rfl, rfl⟩) fun _ n named => by
      have : some r.ref = some n := by
        rw [← named, idled_mine, ← slot]
      exact ⟨r, held, Option.some.inj this⟩
  rw [none, idled_mine] at taken
  exact taken

theorem LeavesRequest.idle (leaves : LeavesRequest p s z) (h : Concludes p z t)
    (empty : (s.judges.get p).arrivals = []) (slot : (s.judges.get p).slot = none)
    (same : t.hold.outstanding.get p = s.hold.outstanding.get p) :
    (t.judges.get p).phase = .idle ∧ (t.judges.get p).slot = none :=
  h.idle (leaves.arrivals.trans empty) (leaves.slot.trans slot) (same.trans leaves.outstanding.symm)

theorem LeavesRequest.taken (leaves : LeavesRequest p s z) (h : Concludes p z t) (held : r ∈ s.hold.records)
    (distinct : RefsDistinct s) (records : s.hold.records <+: z.hold.records)
    (slot : (s.judges.get p).slot = some r.ref) (outstanding : s.hold.outstanding.get p ≠ none) :
    (t.judges.get p).arrivals = (s.judges.get p).arrivals ∧ RequestTaken p r t := by
  have found : z.heldRecord r.ref = some r := by
    obtain ⟨younger, after⟩ := records
    have here := heldRecord_mem distinct.1 held
    unfold State.heldRecord at here ⊢
    rw [← after, List.find?_append, here]
    rfl
  rw [← leaves.arrivals]
  exact h.taken (records.subset held) found (leaves.slot.trans slot) (by rw [leaves.outstanding]; exact outstanding)

end

end Sys2Proof.Machine
end

section
/-! SUPPORT. The verdicts on a telegram that is no second (R34 to R40, R45 to R47, R52, R100, R102). -/

namespace Sys2Proof.Machine

section
variable {p : Port} {s x z t : State} {b : BufId} {l : List Byte}

/-! ### What a refusal leaves -/

theorem Dropped_eq (p : Port) (b : BufId) (l : List Byte) (reason : Reason) (i : Option Index) (s : State) :
    Dropped p b l reason i s = refuseTelegram p b l reason i s := rfl

theorem countRefused_frame (i : Option Index) (s : State) :
    (countRefused i s).judges = s.judges ∧ (countRefused i s).hold = s.hold ∧ (countRefused i s).pool = s.pool := by
  cases i with
  | _ => exact ⟨rfl, rfl, rfl⟩

theorem countPassed_frame (i : Option Index) (s : State) :
    (countPassed i s).judges = s.judges ∧ (countPassed i s).hold = s.hold := by
  cases i with
  | _ => exact ⟨rfl, rfl⟩

theorem countHeld_frame (i : Option Index) (s : State) : (countHeld i s).judges = s.judges ∧
    (countHeld i s).hold = s.hold ∧ (countHeld i s).agent = s.agent ∧ (countHeld i s).windows = s.windows := by
  cases i with
  | _ => exact ⟨rfl, rfl, rfl, rfl⟩

theorem consume_frame (i : Option Index) (c : HeldContext) (s : State) : (consume i c s).judges = s.judges ∧
    (consume i c s).hold = s.hold ∧ (consume i c s).tx = s.tx ∧ (consume i c s).pool = s.pool := by
  cases i with
  | none => exact ⟨rfl, rfl, rfl, rfl⟩
  | some i =>
    unfold consume requestCredit
    dsimp only
    split
    · exact ⟨rfl, rfl, rfl, rfl⟩
    · split <;> exact ⟨rfl, rfl, rfl, rfl⟩

theorem Dropped_frame (p : Port) (b : BufId) (l : List Byte) (reason : Reason) (i : Option Index) (s : State) :
    (Dropped p b l reason i s).judges = s.judges ∧ (Dropped p b l reason i s).hold = s.hold := by
  have counted := countRefused_frame i (handOver (recordOf reason p l i) (release b s))
  have out := handOver_out (recordOf reason p l i) (release b s)
  exact ⟨counted.1.trans out.judges, counted.2.1.trans out.hold⟩

/-! ### What an outcome leaves -/

/-- A state after the outcome of a first, by its three ways. -/
theorem FirstConcluded_ind {P : State → Prop} {out : BindOutcome} {index : Option Index} {broken : State → State}
    (written : ∀ c, P (rebound p c x)) (ended : P (broken (rebound p none x))) :
    P (FirstConcluded p l out index broken x) := by
  have same : rebound p (x.judges.get p).bind x = x := congrArg x.setJudges (PerPort.set_get ..)
  unfold FirstConcluded
  split
  · rw [← same]
    exact written _
  · split
    · exact ended
    · exact written _

theorem rebound_leaves (p : Port) (c : Option BindContext) (s : State) : LeavesRequest p s (rebound p c s) := by
  refine ⟨?_, ?_, rfl⟩
  · rw [rebound_get, if_pos rfl]
  · rw [rebound_get, if_pos rfl]

/-- An outcome whose end only hands over a record leaves the requests and the held records. -/
theorem FirstConcluded_leaves {out : BindOutcome} {index : Option Index} {broken : State → State}
    (out_only : ∀ u, (broken u).judges = u.judges ∧ (broken u).hold = u.hold) :
    LeavesRequest p x (FirstConcluded p l out index broken x) ∧
      x.hold.records <+: (FirstConcluded p l out index broken x).hold.records := by
  obtain ⟨judges, hold⟩ := out_only (rebound p none x)
  refine FirstConcluded_ind (P := fun z => LeavesRequest p x z ∧ x.hold.records <+: z.hold.records)
    (fun c => ⟨rebound_leaves p c x, ⟨[], List.append_nil _⟩⟩) ⟨?_, ?_⟩
  · exact (rebound_leaves p none x).trans (.of_same judges (by rw [hold]))
  · rw [hold]
    exact ⟨[], List.append_nil _⟩

/-- What the end of a judgement concludes, and leaves of the requests and the held records. -/
structure EndsIn (p : Port) (x z t : State) : Prop where
  concludes : Concludes p z t
  leaves : LeavesRequest p x z
  records : x.hold.records <+: z.hold.records

/-- A telegram in judgement that is no second, in a state that its judgement has come to. -/
structure OwnJudged (p : Port) (role : JudgedAs) (s x : State) : Prop where
  settled : Settled s
  keeps : KeepsJudging s x
  roles : role = .plain ∧ (x.judges.get p).bind = none ∨ role = .first ∧ (x.judges.get p).bind ≠ none

variable {role : JudgedAs} {reason : Reason} {index : Option Index} {f : Facts} {list : ListKind}

theorem OwnJudged.next (h : OwnJudged p role s x) (keeps : KeepsJudging x z) (judges : z.judges = x.judges) :
    OwnJudged p role s z := ⟨h.settled, h.keeps.trans keeps, by rw [judges]; exact h.roles⟩

/-- A refusal. -/
theorem OwnJudged.refused (h : OwnJudged p role s x) (b : BufId) (l : List Byte) (reason : Reason)
    (index : Option Index) : EndsIn p x (FirstConcluded p l .refused index id (Dropped p b l reason index x))
      (settle (freed p (writeOutcome p role .refused ⟨destOf l, classOf l, index⟩
        (Dropped p b l reason index x)))) := by
  obtain ⟨judges, hold⟩ := Dropped_frame p b l reason index x
  have next : OwnJudged p role s (Dropped p b l reason index x) := h.next (.refuseTelegram ..) judges
  have leaves := FirstConcluded_leaves (p := p) (l := l) (out := .refused) (index := index) (broken := id)
    (x := Dropped p b l reason index x) fun _ => ⟨rfl, rfl⟩
  refine ⟨?_, (LeavesRequest.of_same judges (by rw [hold])).trans leaves.1, ?_⟩
  · exact concludes_own next.settled next.keeps next.roles fun c _ => endBinding_refused rfl
  · have records := leaves.2
    rw [hold] at records
    exact records

/-- What the end of a binding makes of a first that has passed (R52). -/
def passedBroken (p : Port) (l : List Byte) (index : Option Index) (bind : Option BindContext) (u : State) : State :=
  match bind with
  | some c => handOver ⟨.boundBroken, p, some c.source, some (destOf l), some (classOf l), index⟩ u
  | none => u

/-- A telegram sent. -/
theorem OwnJudged.sent (h : OwnJudged p role s x) (l : List Byte) (list : ListKind) (index : Option Index)
    {bind : Option BindContext} (opened : (x.judges.get p).bind = bind) :
    EndsIn p x (FirstConcluded p l (.passed list) index (passedBroken p l index bind) x)
      (settle (freed p (writeOutcome p role (.passed list) ⟨destOf l, classOf l, index⟩ x))) := by
  have leaves := FirstConcluded_leaves (p := p) (l := l) (out := .passed list) (index := index) (x := x)
    (broken := passedBroken p l index bind) fun u => by
        cases bind with
        | none => exact ⟨rfl, rfl⟩
        | some c => exact ⟨(handOver_out _ u).judges, (handOver_out _ u).hold⟩
  refine ⟨concludes_own h.settled h.keeps h.roles fun c was => ?_, leaves.1, leaves.2⟩
  obtain rfl := opened.symm.trans was
  exact endBinding_passed (p := p) (s := x) (x := ⟨destOf l, classOf l, index⟩)
    (c := { c with outcome := .passed list, particulars := some ⟨destOf l, classOf l, index⟩ }) rfl rfl

/-! ### A pass (R36, R37) -/

/-- The state in which the telegram of a pass stands prepared. -/
abbrev readied (b : BufId) (f : Facts) (x : State) : State :=
  prepareBuffer b f.outDest f.stamp (consume f.index f.context x)

theorem readied_frame (b : BufId) (f : Facts) (x : State) : (readied b f x).judges = x.judges ∧
    (readied b f x).hold = x.hold ∧ (readied b f x).tx = x.tx := by
  obtain ⟨judges, hold, tx, -⟩ := consume_frame f.index f.context x
  exact ⟨judges, hold, tx⟩

/-- The state in which it is on its list. -/
abbrev appended (p : Port) (b : BufId) (list : ListKind) (y : State) : State :=
  { y with tx := y.tx.set p (startTx y.buffer (listAdd (y.tx.get p) list b)) }

theorem txAppend_room (room : listRoom (x.tx.get p) list = true) : txAppend p list b x = some (appended p b list x) :=
  if_pos room

theorem txAppend_full (full : listRoom (x.tx.get p) list = false) : txAppend p list b x = none :=
  if_neg (by rw [full]; exact Bool.false_ne_true)

theorem OwnJudged.pass (h : OwnJudged p role s x) (bytes : (x.buffer b).bytes = l) (f : Facts)
    {bind : Option BindContext} (opened : (x.judges.get p).bind = bind) :
    (listRoom (x.tx.get (otherPort p)) f.list = true →
      EndsIn p x (FirstConcluded p l (.passed f.list) f.index (passedBroken p l f.index bind)
          (countPassed f.index (appended (otherPort p) b f.list (readied b f x))))
        (settle (freed p (concludeOwn p b role (describe p l) (.pass f) x)))) ∧
    (listRoom (x.tx.get (otherPort p)) f.list = false →
      EndsIn p x (FirstConcluded p l .refused f.index id (Dropped p b l .txFull f.index (readied b f x)))
        (settle (freed p (concludeOwn p b role (describe p l) (.pass f) x)))) := by
  obtain ⟨judges, hold, tx⟩ := readied_frame b f x
  have consumed : ((consume f.index f.context x).buffer b).bytes = l := by
    unfold State.buffer at bytes ⊢
    rw [(consume_frame f.index f.context x).2.2.2]
    exact bytes
  have ready : KeepsJudging x (readied b f x) := (KeepsJudging.consume ..).trans (.prepareBuffer ..)
  unfold concludeOwn
  dsimp only
  unfold concludePass
  dsimp only
  refine ⟨fun room => ?_, fun full => ?_⟩
  · rw [← tx] at room
    have sent := txAppend_room (b := b) room
    have counted := countPassed_frame f.index (appended (otherPort p) b f.list (readied b f x))
    rw [sent]
    have next : OwnJudged p role s (countPassed f.index (appended (otherPort p) b f.list (readied b f x))) :=
      h.next ((ready.trans (.txAppend sent)).trans (.countPassed ..)) (counted.1.trans judges)
    have ends := next.sent l f.list f.index (bind := bind) (by rw [counted.1]; exact (congrArg (fun j => (j.get p).bind) judges).trans opened)
    have same : LeavesRequest p x (countPassed f.index (appended (otherPort p) b f.list (readied b f x))) :=
      .of_same (counted.1.trans judges) (congrArg HoldQueue.outstanding (counted.2.trans hold))
    refine ⟨ends.concludes, same.trans ends.leaves, ?_⟩
    have records := ends.records
    rw [counted.2] at records
    rw [← hold]
    exact records
  · rw [← tx] at full
    rw [txAppend_full full, consumed]
    have ends := (h.next ready judges).refused b l .txFull f.index
    have same : LeavesRequest p x (readied b f x) := .of_same judges (congrArg HoldQueue.outstanding hold)
    refine ⟨ends.concludes, same.trans ends.leaves, ?_⟩
    rw [← hold]
    exact ends.records

end

end Sys2Proof.Machine
end

section
/-! SUPPORT. A telegram offered to the Hold Queue, and the conclusion of a lookup (R34, R35, R100 to R102). -/

namespace Sys2Proof.Machine

/-! ### A verdict of HOLD has passed the catch-up test -/

section
variable {p : Port} {s x u t : State} {b : BufId} {l : List Byte} {f : Facts} {reason : HoldReason} {limit : Nat}

/-- What a HOLD of check 6 to 8 says of the state. -/
theorem policyNow_hold {bank : Bank} {i : Option Index} {c : HeldContext} (held : policyNow s bank i c = .hold reason) :
    (s.lapsed && c.unsup == .block) = false ∧
      (reason = .window ∧ c.windows &&& s.windows.openSets.get bank = 0 ∨ reason = .rate ∧ s.creditOf i = 0) := by
  rw [policyNow_eq] at held
  have block : (s.lapsed && c.unsup == .block) = true ↔ s.agent.supervision.state = .lapsed ∧ c.unsup = .block := by
    rw [Bool.and_eq_true, lapsed_iff, blocks_iff]
  split at held
  · cases held
  · next supervised =>
    refine ⟨Bool.eq_false_iff.2 fun h => supervised (block.1 h), ?_⟩
    split at held
    · next shut =>
      split at held
      · obtain rfl := PolicyVerdict.hold.inj held
        exact .inl ⟨rfl, shut.2⟩
      · cases held
    · split at held
      · next spent =>
        split at held
        · obtain rfl := PolicyVerdict.hold.inj held
          exact .inr ⟨rfl, spent.2⟩
        · cases held
      · cases held

theorem verdictOf_hold {bank : Bank} {stop : LookupStop} {d : Described}
    (held : verdictOf s bank stop d = .hold f reason limit) :
    policyNow s f.bank f.index f.context = .hold reason := by
  cases stop with
  | found i e =>
    change judgeByEntry s bank i e d = .hold f reason limit at held
    unfold judgeByEntry at held
    split at held
    · cases held
    · split at held
      · cases held
      · next found =>
        unfold holdOrRefuse at held
        split at held
        · cases held
        · obtain ⟨rfl, rfl, -⟩ := RejudgeVerdict.hold.inj held
          exact found
      · cases held
  | noMatch =>
    change defaultVerdict s.agent.settings bank d = .hold f reason limit at held
    unfold defaultVerdict at held
    split at held <;> cases held
  | poisoned i => cases held
  | fault i => cases held

theorem admissionTest_none {r : HeldRecord} {g : FirstPart} (held : policyNow u r.bank r.index g.context = .hold g.reason) :
    admissionTest r g u = u := by
  obtain ⟨supervised, due⟩ := policyNow_hold held
  have unblocked : lapsedBlock g u = false := supervised
  have waits : catchesUp r g u = false := by
    unfold catchesUp
    rcases due with ⟨window, shut⟩ | ⟨rate, spent⟩
    · rw [window]
      dsimp only
      rw [shut]
      rfl
    · rw [rate]
      dsimp only
      rw [spent]
      rfl
  unfold admissionTest catchUp
  rw [unblocked, waits]
  exact ite_self u

/-! ### The offer -/

/-- The state with a record at the end of the hold order, counted, and the HOLD_HIGH test made. -/
def heldAs (r : HeldRecord) (x : State) : State := holdHighTest (countHeld r.index (admitRecord r x))

theorem writeOutcome_rebound (p : Port) (role : JudgedAs) (o : BindOutcome) (y : Particulars) (s : State) :
    ∃ c, writeOutcome p role o y s = rebound p c s ∧
      ∀ t, (t.judges.get p).bind = (s.judges.get p).bind → writeOutcome p role o y t = rebound p c t := by
  have same (t : State) : rebound p (t.judges.get p).bind t = t := congrArg t.setJudges (PerPort.set_get ..)
  by_cases written : ∃ c, role = .first ∧ (s.judges.get p).bind = some c
  · obtain ⟨c, rfl, opened⟩ := written
    refine ⟨some { c with outcome := o, particulars := some y }, ?_, fun t bind => ?_⟩
    · unfold writeOutcome
      rw [opened]
      rfl
    · rw [opened] at bind
      unfold writeOutcome
      rw [bind]
      rfl
  · have none (t : State) (bind : (t.judges.get p).bind = (s.judges.get p).bind) : writeOutcome p role o y t = t := by
      unfold writeOutcome
      split
      · next c opened => exact absurd ⟨c, rfl, bind.symm.trans opened⟩ written
      · rfl
    refine ⟨(s.judges.get p).bind, (none s rfl).trans (same s).symm, fun t bind => (none t bind).trans ?_⟩
    rw [← bind]
    exact (same t).symm

theorem holdHighTest_rebound (p : Port) (c : Option BindContext) (s : State) :
    holdHighTest (rebound p c s) = rebound p c (holdHighTest s) := by
  unfold holdHighTest
  rw [show (rebound p c s).agent = s.agent from rfl, show (rebound p c s).hold = s.hold from rfl]
  split
  · have told := tell_judges .holdHigh (rebound p c s).judges s
    refine told.trans ?_
    unfold rebound
    rw [(tell_out .holdHigh s).judges]
  · rfl

theorem countHeld_rebound (i : Option Index) (p : Port) (c : Option BindContext) (s : State) :
    countHeld i (rebound p c s) = rebound p c (countHeld i s) := by
  cases i with
  | _ => rfl

theorem holdHighTest_frame (s : State) : (holdHighTest s).judges = s.judges ∧ (holdHighTest s).hold = s.hold ∧
    (holdHighTest s).agent = s.agent ∧ (holdHighTest s).windows = s.windows ∧ (holdHighTest s).policer = s.policer := by
  have same := tell_out .holdHigh s
  unfold holdHighTest
  split
  · exact ⟨same.judges, same.hold, same.agent, same.windows, same.policer⟩
  · exact ⟨rfl, rfl, rfl, rfl, rfl⟩

theorem heldAs_frame (r : HeldRecord) (x : State) : (heldAs r x).judges = x.judges ∧
    (heldAs r x).hold = (admitRecord r x).hold ∧ (heldAs r x).agent = x.agent ∧ (heldAs r x).windows = x.windows ∧
    ∀ i, (heldAs r x).creditOf i = x.creditOf i := by
  obtain ⟨judges, hold, agent, windows, policer⟩ := holdHighTest_frame (countHeld r.index (admitRecord r x))
  obtain ⟨counted, held, sameAgent, sameWindows⟩ := countHeld_frame r.index (admitRecord r x)
  refine ⟨judges.trans counted, hold.trans held, agent.trans sameAgent, windows.trans sameWindows, fun i => ?_⟩
  unfold heldAs State.creditOf State.stream
  rw [policer]
  cases i with
  | none => rfl
  | some i =>
    cases r.index with
    | none => rfl
    | some j =>
      change ((x.policer.streams.set j.val { x.stream j with held := (x.stream j).held + 1 })[i.val]).credit =
        (x.policer.streams[i.val]).credit
      rw [Vector.getElem_set]
      split
      · next same =>
        have same : j = i := Fin.ext same
        rw [← same]
        rfl
      · rfl

theorem policyNow_heldAs (r : HeldRecord) (x : State) (bank : Bank) (i : Option Index) (c : HeldContext) :
    policyNow (heldAs r x) bank i c = policyNow x bank i c := by
  obtain ⟨-, -, agent, windows, credit⟩ := heldAs_frame r x
  unfold policyNow State.lapsed
  rw [agent, windows, credit]

theorem KeepsJudging.heldAs (r : HeldRecord) (x : State) : KeepsJudging x (heldAs r x) :=
  ((KeepsJudging.setHold _ x).trans (.countHeld ..)).trans (.holdHighTest _)

/-- The offer of a telegram that its policy holds (R34, R35, R100 to R102). -/
theorem concludeHold_room {role : JudgedAs} (room : x.hold.records.length < 32) {r : HeldRecord}
    (record : r = firstRecord b f reason limit role.isFirst x) (held : policyNow x f.bank f.index f.context = .hold reason) :
    concludeHold p b role (describe p l) f reason limit x =
      writeOutcome p role (.held r.ref) ⟨destOf l, classOf l, f.index⟩ (heldAs r x) := by
  have index : r.index = f.index := by rw [record]; rfl
  obtain ⟨c, written, moved⟩ :=
    writeOutcome_rebound p role (.held r.ref) (particularsOf (describe p l) f.index) (admitRecord r x)
  have after : holdHighTest (countHeld f.index (writeOutcome p role (.held r.ref) (particularsOf (describe p l) f.index)
      (admitRecord r x))) = writeOutcome p role (.held r.ref) ⟨destOf l, classOf l, f.index⟩ (heldAs r x) := by
    have same : holdHighTest (countHeld f.index (admitRecord r x)) = heldAs r x := by
      rw [← index]
      rfl
    rw [written, countHeld_rebound, holdHighTest_rebound, same]
    refine (moved (heldAs r x) ?_).symm
    rw [(heldAs_frame r x).1]
    rfl
  have part : r.firstPart = some ⟨reason, f.context, x.cal.uptime, deadlineOf x.cal.uptime limit, none, role.isFirst, false⟩ := by
    rw [record]
    rfl
  have policy (c : Option BindContext) : policyNow (rebound p c (heldAs r x)) r.bank r.index f.context = .hold reason := by
    refine (policyNow_heldAs r x r.bank r.index f.context).trans ?_
    rw [record]
    exact held
  unfold concludeHold
  rw [show holdFull x = false from decide_eq_false (by omega), if_neg Bool.false_ne_true, ← record]
  dsimp only
  rw [part]
  dsimp only
  rw [after]
  obtain ⟨c, outcome, -⟩ := writeOutcome_rebound p role (.held r.ref) ⟨destOf l, classOf l, f.index⟩ (heldAs r x)
  rw [outcome]
  exact admissionTest_none (policy c)

theorem concludeHold_full {role : JudgedAs} (full : 32 ≤ x.hold.records.length) :
    concludeHold p b role (describe p l) f reason limit x = concludeRefuse p b role (describe p l) .holdFull f.index x := by
  unfold concludeHold
  rw [show holdFull x = true from decide_eq_true full, if_pos rfl]

/-! ### What the offer ends in -/

theorem FirstConcluded_congr {out : BindOutcome} {index : Option Index} {broken other : State → State}
    (same : (x.judges.get p).bind ≠ none → broken (rebound p none x) = other (rebound p none x)) :
    FirstConcluded p l out index broken x = FirstConcluded p l out index other x := by
  unfold FirstConcluded
  split
  · rfl
  · next c opened =>
    split
    · exact same (by rw [opened]; exact nofun)
    · rfl

theorem records_heldAs (r : HeldRecord) (x : State) : (heldAs r x).hold.records = x.hold.records ++ [r] := by
  rw [(heldAs_frame r x).2.1]
  rfl

theorem outstanding_heldAs (r : HeldRecord) (x : State) :
    (heldAs r x).hold.outstanding = x.hold.outstanding := by
  rw [(heldAs_frame r x).2.1]
  rfl

theorem heldAs_leaves (r : HeldRecord) (x : State) : LeavesRequest p x (heldAs r x) :=
  .of_same (heldAs_frame r x).1 (outstanding_heldAs r x)

/-- A record with a new reference leaves the references distinct. -/
theorem nodup_new {r : HeldRecord} (distinct : RefsDistinct x) (fresh : r.ref = x.hold.nextRef) :
    ((x.hold.records ++ [r]).map (·.ref)).Nodup := by
  obtain ⟨nodup, below⟩ := distinct
  rw [List.map_append, List.nodup_append]
  refine ⟨nodup, List.nodup_singleton _, fun n old m new => ?_⟩
  obtain ⟨q, held, rfl⟩ := List.mem_map.1 old
  obtain rfl := List.mem_singleton.1 new
  exact (lt_of_lt_of_eq (below q held) fresh.symm).ne

/-- The new record, held without a partner, is taken out as the end of its binding says. -/
theorem dropBroken_new {r : HeldRecord} (distinct : RefsDistinct x) (fresh : r.ref = x.hold.nextRef) :
    dropBroken r.ref (rebound p none (heldAs r x)) = Removed .boundBroken r (rebound p none (heldAs r x)) := by
  have records : (rebound p none (heldAs r x)).hold.records = x.hold.records ++ [r] := records_heldAs r x
  refine removeRef_eq ?_ ?_
  · rw [records]
    exact nodup_new distinct fresh
  · rw [records]
    exact List.mem_append_right _ List.mem_cons_self

theorem Removal.dropBroken (n : Nat) (s : State) : Removal s (dropBroken n s) := by
  unfold Machine.dropBroken removeRef
  split
  · rw [removeFirst_eq]
    exact .removed ..
  · exact .refl s

/-- A removal leaves the arrivals, and the request of a Judge whose slot is empty. -/
theorem Removal.leaves (h : Removal s x) (slot : (s.judges.get p).slot = none) : LeavesRequest p s x := by
  rcases h.request p with same | ⟨named, -⟩
  · exact ⟨h.arrivals p, same.1, same.2⟩
  · exact absurd slot named

variable {role : JudgedAs} {r : HeldRecord}

theorem OwnJudged.held (h : OwnJudged p role s x) (l : List Byte) (r : HeldRecord) (index : Option Index) :
    Concludes p (FirstConcluded p l (.held r.ref) index (dropBroken r.ref) (heldAs r x))
      (settle (freed p (writeOutcome p role (.held r.ref) ⟨destOf l, classOf l, index⟩ (heldAs r x)))) := by
  have next := h.next (.heldAs r x) (heldAs_frame r x).1
  exact concludes_own next.settled next.keeps next.roles fun c _ => rfl

theorem held_leaves (l : List Byte) (index : Option Index) (r : HeldRecord) (slot : (x.judges.get p).slot = none) :
    LeavesRequest p x (FirstConcluded p l (.held r.ref) index (dropBroken r.ref) (heldAs r x)) := by
  refine FirstConcluded_ind (P := LeavesRequest p x) (fun c => (heldAs_leaves r x).trans (rebound_leaves ..)) ?_
  have closed := (heldAs_leaves (p := p) r x).trans (rebound_leaves p none (heldAs r x))
  exact closed.trans ((Removal.dropBroken r.ref _).leaves (closed.slot.trans slot))

/-! ### The removal of a first without a partner -/

theorem Removed_single {reason : Reason} {r : HeldRecord} (alone : r.partnerRef = none) (s : State) :
    Removed reason r s = Withdrawn r.port r.ref (if r.awaiting then Unbound r.port r.ref (TakenOut reason r.index r s)
      else TakenOut reason r.index r s) := by
  have single : (TakenOut reason r.index r s).hold.records.find? (fun q => r.partnerRef == some q.ref) = none :=
    List.find?_eq_none.2 fun q _ => by rw [alone]; exact Bool.false_ne_true
  unfold Removed
  dsimp only
  rw [single]

theorem Withdrawn_leaves {q : Port} {n : Nat} (other : (s.judges.get p).slot ≠ some n) :
    LeavesRequest p s (Withdrawn q n s) := by
  unfold Withdrawn
  split
  · next named =>
    have apart : p ≠ q := by
      rintro rfl
      exact other named
    refine ⟨?_, ?_, ?_⟩
    · exact congrArg Judge.arrivals (get_set_apart apart)
    · exact congrArg Judge.slot (get_set_apart apart)
    · exact get_set_apart apart
  · exact .of_same rfl rfl

theorem Unbound_leaves (q : Port) (n : Nat) (s : State) : LeavesRequest p s (Unbound q n s) := by
  have judge : (Unbound q n s).judges.get p = _ := PerPort.get_set ..
  refine ⟨?_, ?_, rfl⟩
  · rw [judge]
    split
    · next here => rw [here]
    · rfl
  · rw [judge]
    split
    · next here => rw [here]
    · rfl

theorem TakenOut_leaves (reason : Reason) (index : Option Index) (r : HeldRecord) (s : State) :
    LeavesRequest p s (TakenOut reason index r s) := by
  obtain ⟨judges, -, -, -, outstanding⟩ := TakenOut_frame reason index r s
  exact .of_same judges outstanding

/-- It takes its record alone out, and leaves a request that names another. -/
theorem Removed_leaves {reason : Reason} (alone : r.partnerRef = none) (other : (s.judges.get p).slot ≠ some r.ref) :
    LeavesRequest p s (Removed reason r s) ∧
      (Removed reason r s).hold.records = s.hold.records.filter fun q => q.ref != r.ref := by
  have out := TakenOut_leaves (p := p) reason r.index r s
  have fate : LeavesRequest p s (if r.awaiting then Unbound r.port r.ref (TakenOut reason r.index r s)
      else TakenOut reason r.index r s) := by
    split
    · exact out.trans (Unbound_leaves ..)
    · exact out
  rw [Removed_single alone]
  refine ⟨fate.trans (Withdrawn_leaves (by rw [fate.slot]; exact other)), ?_⟩
  rw [Withdrawn_records]
  split
  · rw [Unbound_hold, TakenOut_records]
  · exact TakenOut_records ..

/-- The end of the new record's binding leaves the records and the requests that were there. -/
theorem held_named {n : Nat} (alone : r.partnerRef = none) (distinct : RefsDistinct x) (fresh : r.ref = x.hold.nextRef)
    (named : (x.judges.get p).slot = some n) (old : n < x.hold.nextRef) (l : List Byte) (index : Option Index) :
    LeavesRequest p x (FirstConcluded p l (.held r.ref) index (dropBroken r.ref) (heldAs r x)) ∧
      x.hold.records <+: (FirstConcluded p l (.held r.ref) index (dropBroken r.ref) (heldAs r x)).hold.records := by
  have after (c : Option BindContext) : LeavesRequest p x (rebound p c (heldAs r x)) :=
    (heldAs_leaves r x).trans (rebound_leaves ..)
  have records (c : Option BindContext) : (rebound p c (heldAs r x)).hold.records = x.hold.records ++ [r] :=
    records_heldAs r x
  refine FirstConcluded_ind (P := fun z => LeavesRequest p x z ∧ x.hold.records <+: z.hold.records)
    (fun c => ⟨after c, by rw [records]; exact ⟨_, rfl⟩⟩) ?_
  have other : ((rebound p none (heldAs r x)).judges.get p).slot ≠ some r.ref := by
    rw [(after none).slot, named, fresh]
    exact fun same => old.ne (Option.some.inj same)
  obtain ⟨leaves, filtered⟩ := Removed_leaves (reason := .boundBroken) alone other
  rw [dropBroken_new distinct fresh]
  refine ⟨(after none).trans leaves, ?_⟩
  have kept : x.hold.records.filter (fun q => q.ref != r.ref) = x.hold.records := by
    refine List.filter_eq_self.2 fun q held => ?_
    rw [bne_iff_ne, fresh]
    exact (distinct.2 q held).ne
  rw [filtered, records, List.filter_append, kept]
  exact ⟨_, rfl⟩

end

end Sys2Proof.Machine
end

section
/-! SUPPORT. The conclusion of the lookup of a telegram that is no second (R20 to R23, R34 to R40, R45 to R47, R52). -/

namespace Sys2Proof.Machine

section
variable {p : Port} {s x t : State} {b : BufId} {l : List Byte} {role : JudgedAs} {v : RejudgeVerdict}

theorem OwnJudged.conclude_refuse (h : OwnJudged p role s x) (bytes : (x.buffer b).bytes = l) (reason : Reason)
    (index : Option Index) : EndsIn p x (FirstConcluded p l .refused index id (Dropped p b l reason index x))
      (settle (freed p (concludeOwn p b role (describe p l) (.refuse reason index) x))) := by
  have ends := h.refused b l reason index
  rw [Dropped_eq] at ends ⊢
  rw [← bytes] at ends ⊢
  exact ends

theorem OwnJudged.conclude_full (h : OwnJudged p role s x) (bytes : (x.buffer b).bytes = l) {f : Facts}
    {reason : HoldReason} {limit : Nat} (full : 32 ≤ x.hold.records.length) :
    EndsIn p x (FirstConcluded p l .refused f.index id (Dropped p b l .holdFull f.index x))
      (settle (freed p (concludeOwn p b role (describe p l) (.hold f reason limit) x))) := by
  have refused := h.conclude_refuse bytes .holdFull f.index
  unfold concludeOwn at refused ⊢
  dsimp only at refused ⊢
  rw [concludeHold_full full]
  exact refused

theorem OwnJudged.conclude_held (h : OwnJudged p role s x) {f : Facts} {reason : HoldReason} {limit : Nat}
    (room : x.hold.records.length < 32) {r : HeldRecord} (record : r = firstRecord b f reason limit role.isFirst x)
    (held : policyNow x f.bank f.index f.context = .hold reason) :
    Concludes p (FirstConcluded p l (.held r.ref) f.index (dropBroken r.ref) (heldAs r x))
      (settle (freed p (concludeOwn p b role (describe p l) (.hold f reason limit) x))) := by
  unfold concludeOwn
  dsimp only
  rw [concludeHold_room room record held]
  exact h.held l r f.index

/-- What a judgement of a telegram that is no second leaves of the request of its port. -/
structure RequestKept (p : Port) (x t : State) : Prop where
  empty : (x.judges.get p).slot = none → ∃ z, Concludes p z t ∧ LeavesRequest p x z
  named : ∀ n, RefsDistinct x → (x.judges.get p).slot = some n → n < x.hold.nextRef →
    ∃ z, Concludes p z t ∧ LeavesRequest p x z ∧ x.hold.records <+: z.hold.records

theorem EndsIn.kept {z : State} (h : EndsIn p x z t) : RequestKept p x t :=
  ⟨fun _ => ⟨z, h.concludes, h.leaves⟩, fun _ _ _ _ => ⟨z, h.concludes, h.leaves, h.records⟩⟩

theorem OwnJudged.kept (h : OwnJudged p role s x) (bytes : (x.buffer b).bytes = l)
    (held : ∀ f reason limit, v = .hold f reason limit → policyNow x f.bank f.index f.context = .hold reason) :
    RequestKept p x (settle (freed p (concludeOwn p b role (describe p l) v x))) := by
  cases v with
  | refuse reason index => exact (h.conclude_refuse bytes reason index).kept
  | pass f =>
    obtain ⟨sent, full⟩ := h.pass bytes f rfl
    cases room : listRoom (x.tx.get (otherPort p)) f.list with
    | true => exact (sent room).kept
    | false => exact (full room).kept
  | hold f reason limit =>
    by_cases full : 32 ≤ x.hold.records.length
    · exact (h.conclude_full bytes full).kept
    · have ends := h.conclude_held (l := l) (b := b) (limit := limit) (Nat.lt_of_not_le full) rfl (held f reason limit rfl)
      refine ⟨fun slot => ⟨_, ends, held_leaves l f.index _ slot⟩, fun n distinct named old => ?_⟩
      obtain ⟨leaves, records⟩ := held_named (p := p) (r := firstRecord b f reason limit role.isFirst x) rfl distinct rfl
        named old l f.index
      exact ⟨_, ends, leaves, records⟩

/-! ### The conclusion of the lookup -/

variable {arrivals : List BufId} {slot : Option Nat} {bind : Option BindContext} {key : LookupKey} {bank : Bank}

theorem KeepsJudging.afterReads (w : Walk) (s : State) : KeepsJudging s (afterReads w s) :=
  .of_judges rfl rfl rfl fun _ => rfl

theorem verdictOf_afterReads (w : Walk) (s : State) (bank : Bank) (stop : LookupStop) (d : Described) :
    verdictOf (afterReads w s) bank stop d = verdictOf s bank stop d := verdictOf_congr rfl rfl rfl rfl bank stop d

theorem OwnInHand.judged (h : OwnInHand p b role arrivals slot bind key bank s) (keeps : KeepsJudging s x)
    (judges : x.judges = s.judges) : OwnJudged p role s x := by
  obtain ⟨judge, -, settled, roles⟩ := h
  refine ⟨settled, keeps, ?_⟩
  rw [judges, judge]
  exact roles

theorem concludeTelegram_own (roles : role = .plain ∧ bind = none ∨ role = .first ∧ bind ≠ none) (stop : LookupStop)
    (x : State) : concludeTelegram p b role bank stop x =
      concludeOwn p b role (describe p (x.buffer b).bytes) (verdictOf x bank stop (describe p (x.buffer b).bytes)) x := by
  rcases roles with ⟨rfl, -⟩ | ⟨rfl, -⟩ <;> rfl

theorem OwnInHand.exec (h : OwnInHand p b role arrivals slot bind key bank s) {w : Walk} (found : w = lookup bank key s)
    (sound : w.joins = false) (bytes : (s.buffer b).bytes = l) (o : RiseOrder) :
    exec (.lookupConclusion p o) s = .next (settle (freed p (concludeOwn p b role (describe p l)
      (verdictOf s bank w.stop (describe p l)) (Machine.afterReads w s)))) := by
  obtain ⟨judge, -, -, roles⟩ := h
  have phase : (s.judges.get p).phase = .lookup (.telegram b role key) bank := by rw [judge]
  rw [exec_lookupConclusion phase, concludeLookup_sound (it := .telegram b role key) found sound]
  have conclusion : concludeItem p (.telegram b role key) bank w.stop (Machine.afterReads w s) = _ :=
    concludeTelegram_own roles ..
  rw [conclusion, show (Machine.afterReads w s).buffer b = s.buffer b from rfl, bytes, verdictOf_afterReads]

theorem heldAs_eq (r : HeldRecord) (w : Walk) (s : State) : heldAs r (afterReads w s) =
    if s.agent.settings.holdHighMark.toNat ≤ s.hold.records.length + 1
    then tell .holdHigh (countHeld r.index (admitRecord r (afterReads w s)))
    else countHeld r.index (admitRecord r (afterReads w s)) := by
  obtain ⟨-, hold, agent, -⟩ := countHeld_frame r.index (admitRecord r (afterReads w s))
  have length : (admitRecord r (afterReads w s)).hold.records.length = s.hold.records.length + 1 :=
    List.length_append
  unfold heldAs holdHighTest
  rw [agent, hold, length]
  rfl

theorem appended_eq {q : Port} {list : ListKind} {y : State} (tx : y.tx = x.tx) : appended q b list y =
    { y with tx := x.tx.set q (startTx y.buffer (listAdd (x.tx.get q) list b)) } := by
  rw [← tx]

end

/-- Settles O29: the counts and the preparation by their equations, then each verdict by what it ends in. -/
theorem lookupConclusionCarriesTheVerdict : Obligations.LookupConclusionCarriesTheVerdict := by
  refine ⟨?_, fun s => ⟨rfl, rfl, rfl, fun _ => rfl⟩, ?_, ?_⟩
  · rintro i s put rfl
    exact ⟨rfl, rfl, rfl, fun c => ⟨consume_taken, consume_untaken⟩⟩
  · rintro b outDest stamp s dest source five six seq size options payload form bytes x rfl fill written after rfl
    have written : fill = stampValue (s.buffer b).desc.time (s.buffer b).desc.quality := by
      rw [written]
      cases (s.buffer b).desc.quality with
      | _ => rfl
    have ready := prepared_telegram (stamp := stamp) form bytes outDest written
    unfold prepareBuffer
    rw [ready]
    rfl
  · rintro p b role arrivals slot bind key bank o s inHand w found sound l bytes x rfl
    obtain ⟨judge, -, -, roles⟩ := id inHand
    have judged := inHand.judged (.afterReads w s) rfl
    have opened : ((afterReads w s).judges.get p).bind = bind := congrArg Judge.bind judge
    have here : ((afterReads w s).buffer b).bytes = l := bytes.symm
    have policy (f : Facts) (reason : HoldReason) (limit : Nat)
        (held : verdictOf s bank w.stop (describe p l) = .hold f reason limit) :
        policyNow (afterReads w s) f.bank f.index f.context = .hold reason := verdictOf_hold held
    have kept := judged.kept here (v := verdictOf s bank w.stop (describe p l)) policy
    refine ⟨_, inHand.exec found sound bytes.symm o, fun reason index v => ?_, fun f y v ready => ?_,
      fun f reason limit v => ?_, fun empty none same => ?_, fun r st held slot distinct outstanding => ?_⟩
    · rw [v]
      exact (judged.conclude_refuse here reason index).concludes
    · obtain ⟨sent, full⟩ := judged.pass here f opened
      rw [v, ready]
      refine ⟨?_, fun room => (full room).concludes⟩
      intro room broken same
      have named : broken = passedBroken p l f.index bind := by
        rw [same]
        cases bind with
        | _ => rfl
      have onList := appended_eq (q := otherPort p) (b := b) (list := f.list) (x := s) (readied_frame b f (afterReads w s)).2.2
      rw [named, ← onList]
      exact (sent room).concludes
    · rw [v]
      refine ⟨fun full => (judged.conclude_full here full).concludes, ?_⟩
      rintro room distinct r record y rfl
      have isFirst : bind.isSome = role.isFirst := by
        rcases roles with ⟨rfl, rfl⟩ | ⟨rfl, opened⟩
        · rfl
        · exact Option.isSome_iff_ne_none.2 opened
      have built : r = firstRecord b f reason limit role.isFirst (afterReads w s) := by
        rw [record, isFirst, bytes]
        rfl
      have index : r.index = f.index := by rw [record]
      have ends := judged.conclude_held room built (policy f reason limit v) (l := l)
      have after := heldAs_eq r w s
      rw [index] at after
      refine Eq.subst (motive := fun z => Concludes p z _) ?_ ends
      have fresh : r.ref = s.hold.nextRef := by rw [record]
      refine (FirstConcluded_congr fun named => dropBroken_new (r := r) (x := afterReads w s) (distinct ?_) fresh).trans ?_
      · rw [(heldAs_frame r (afterReads w s)).1, opened] at named
        exact named
      · exact congrArg (FirstConcluded p l (.held r.ref) f.index (Removed .boundBroken r)) after
    · obtain ⟨z, ends, leaves⟩ := kept.empty (by rw [show (afterReads w s).judges = s.judges from rfl, judge]; exact none)
      refine leaves.idle ends ?_ ?_ same
      · rw [show (afterReads w s).judges = s.judges from rfl, judge]
        exact empty
      · rw [show (afterReads w s).judges = s.judges from rfl, judge]
        exact none
    · have named : ((afterReads w s).judges.get p).slot = some r.ref := by
        rw [show (afterReads w s).judges = s.judges from rfl, judge]
        exact slot
      obtain ⟨z, ends, leaves, records⟩ := kept.named r.ref distinct named (distinct.2 r held)
      have taken := leaves.taken (r := r) ends held distinct records named (by
        rw [show (afterReads w s).hold = s.hold from rfl, outstanding]
        exact nofun)
      rw [show (afterReads w s).judges = s.judges from rfl, judge] at taken
      exact taken

end Sys2Proof.Machine
end

section
/-! SUPPORT. The conclusion of the lookup of a second (R48 to R50, R53, R100, R102). -/

namespace Sys2Proof.Machine

/-! ### Its verdict -/

theorem secondVerdict_found (s : State) (bank : Bank) (i : Index) (e : StreamEntry) (d : Described) :
    secondVerdict s bank (.found i e) d =
      if e.privLimit.toNat < max d.priv.toNat (s.agent.settings.floor d.port).toNat then .refuse .privilege (some i)
      else if ¬((d.dest = 0xFFFF ∧ e.broadcast = true) ∨
          (d.dest ≠ 0xFFFF ∧ e.dstLow.toNat ≤ d.dest.toNat ∧ d.dest.toNat ≤ e.dstHigh.toNat)) then
        .refuse .range (some i)
      else .pass (factsOf bank i e d) := by
  unfold secondVerdict
  dsimp only
  rw [admission_eq]
  by_cases high : e.privLimit.toNat < max d.priv.toNat (s.agent.settings.floor d.port).toNat
  · rw [if_pos high, if_pos high]
  · rw [if_neg high, if_neg high]
    split
    · next refused =>
      split at refused
      · next outside =>
        rw [if_pos outside, Option.some.inj refused]
      · cases refused
    · next passed =>
      split at passed
      · cases passed
      · next inside => rw [if_neg inside]

section
variable {p : Port} {s x t : State} {b : BufId} {l : List Byte} {role : JudgedAs} {arrivals : List BufId}
  {slot : Option Nat} {key : LookupKey} {bank : Bank} {w : Walk} {list : ListKind} {first : Option Particulars}
  {stop : LookupStop} {reason : Reason} {index : Option Index} {f : Facts} {n : Nat}

theorem SecondInHand.exec (h : SecondInHand p b role arrivals slot key bank s) (found : w = lookup bank key s)
    (sound : w.joins = false) (o : RiseOrder) : exec (.lookupConclusion p o) s =
      .next (settle (freed p (concludeTelegram p b role bank w.stop (afterReads w s)))) := by
  obtain ⟨judge, -, -⟩ := h
  have phase : (s.judges.get p).phase = .lookup (.telegram b role key) bank := by rw [judge]
  rw [exec_lookupConclusion phase, concludeLookup_sound (it := .telegram b role key) found sound]
  rfl

theorem SecondInHand.concludes (h : SecondInHand p b role arrivals slot key bank s) (keeps : KeepsJudging s x) :
    Concludes p x (settle (freed p x)) := by
  obtain ⟨judge, -, settled⟩ := h
  exact concludes_stays settled keeps (endReached_freed_closed (keeps.closed (p := p) (by rw [judge])))

/-! ### Behind a first that has passed (R48) -/

theorem concludeRefuse_second (bytes : (x.buffer b).bytes = l) (other : role ≠ .first) (d : Described) :
    concludeRefuse p b role d reason index x = Dropped p b l reason index x := by
  have unwritten (u : State) : writeOutcome p role .refused (particularsOf d index) u = u := by
    unfold writeOutcome
    split
    · exact absurd rfl other
    · rfl
  unfold concludeRefuse
  rw [unwritten, bytes]
  rfl

theorem afterPassed_refused (bytes : (x.buffer b).bytes = l)
    (verdict : secondVerdict x bank stop (describe p l) = .refuse reason index) :
    concludeTelegram p b (.secondPassed list first) bank stop x = Dropped p b l reason index x := by
  rw [← bytes] at verdict
  unfold concludeTelegram
  dsimp only
  rw [verdict]
  exact concludeRefuse_second (role := .secondPassed list first) bytes nofun _

theorem afterPassed_sent (bytes : (x.buffer b).bytes = l)
    (verdict : secondVerdict x bank stop (describe p l) = .pass f)
    (room : listRoom (x.tx.get (otherPort p)) list = true) :
    concludeTelegram p b (.secondPassed list first) bank stop x =
      countPassed f.index (appended (otherPort p) b list (prepareBuffer b f.outDest f.stamp x)) := by
  have sent : txAppend (otherPort p) list b (prepareBuffer b f.outDest f.stamp x) = some _ :=
    txAppend_room (x := prepareBuffer b f.outDest f.stamp x) room
  rw [← bytes] at verdict
  unfold concludeTelegram
  dsimp only
  rw [verdict]
  unfold concludeAfterPassed concludePass
  dsimp only
  rw [sent]
  rfl

theorem afterPassed_full (bytes : (x.buffer b).bytes = l)
    (verdict : secondVerdict x bank stop (describe p l) = .pass f)
    (full : listRoom (x.tx.get (otherPort p)) list = false) :
    concludeTelegram p b (.secondPassed list first) bank stop x =
      Dropped p b l .txFull f.index (prepareBuffer b f.outDest f.stamp x) := by
  have unsent : txAppend (otherPort p) list b (prepareBuffer b f.outDest f.stamp x) = none :=
    txAppend_full (x := prepareBuffer b f.outDest f.stamp x) full
  rw [← bytes] at verdict
  unfold concludeTelegram
  dsimp only
  rw [verdict]
  unfold concludeAfterPassed concludePass
  dsimp only
  rw [unsent, bytes]
  rfl

/-! ### Behind a first that is held (R49, R50) -/

theorem dropBroken_gone (gone : ∀ r ∈ x.hold.records, r.ref ≠ n) : dropBroken n x = x := by
  have none : x.heldRecord n = none := List.find?_eq_none.2 fun r hr => by simpa using gone r hr
  rw [dropBroken, removeRef, none]

theorem dropBroken_first {r : HeldRecord} (distinct : (x.hold.records.map (·.ref)).Nodup) (held : r ∈ x.hold.records) :
    dropBroken r.ref x = Removed .boundBroken r x := removeRef_eq distinct held

theorem afterHeld_refused (bytes : (x.buffer b).bytes = l)
    (verdict : secondVerdict x bank stop (describe p l) = .refuse reason index) :
    concludeTelegram p b (.secondHeld n first) bank stop x = dropBroken n (Dropped p b l reason index x) := by
  rw [← bytes] at verdict
  unfold concludeTelegram
  dsimp only
  rw [verdict]
  unfold concludeAfterHeld
  dsimp only
  rw [concludeRefuse_second (role := .secondHeld n first) bytes nofun]

theorem afterHeld_full (bytes : (x.buffer b).bytes = l)
    (verdict : secondVerdict x bank stop (describe p l) = .pass f) (full : 32 ≤ x.hold.records.length) :
    concludeTelegram p b (.secondHeld n first) bank stop x = dropBroken n (Dropped p b l .holdFull f.index x) := by
  rw [← bytes] at verdict
  unfold concludeTelegram
  dsimp only
  rw [verdict]
  unfold concludeAfterHeld offerPartner
  dsimp only
  rw [show holdFull x = true from decide_eq_true full, if_pos rfl, concludeRefuse_second (role := .secondHeld n first) bytes nofun]

/-- With its first gone a second is judged as any telegram. -/
theorem afterHeld_gone (bytes : (x.buffer b).bytes = l)
    (verdict : secondVerdict x bank stop (describe p l) = .pass f) (room : x.hold.records.length < 32)
    (gone : ∀ r ∈ x.hold.records, r.ref ≠ n) :
    concludeTelegram p b (.secondHeld n first) bank stop x = concludeTelegram p b .plain bank stop x := by
  have none : x.heldRecord n = none := List.find?_eq_none.2 fun r hr => by simpa using gone r hr
  rw [← bytes] at verdict
  unfold concludeTelegram
  dsimp only
  rw [verdict]
  unfold concludeAfterHeld offerPartner
  dsimp only
  rw [show holdFull x = false from decide_eq_false (by omega), if_neg Bool.false_ne_true, none]

/-- The state with the partner of a held first at the end of the hold order, counted, and the HOLD_HIGH test made. -/
def pairedAs (first partner : HeldRecord) (x : State) : State :=
  holdHighTest (countHeld partner.index { x with hold := { x.hold with
    records := (x.hold.records.map fun q => if q.ref = first.ref then first else q) ++ [partner]
    nextRef := x.hold.nextRef + 1 } })

theorem nodup_paired {r : HeldRecord} {partner : HeldRecord} (distinct : RefsDistinct x)
    (fresh : partner.ref = x.hold.nextRef) :
    (((x.hold.records.map fun q => if q.ref = r.ref then r else q) ++ [partner]).map (·.ref)).Nodup := by
  have refs : (x.hold.records.map fun q => if q.ref = r.ref then r else q).map (·.ref) = x.hold.records.map (·.ref) := by
    rw [List.map_map]
    refine List.map_congr_left fun q _ => ?_
    dsimp only [Function.comp]
    split
    · next same => exact same.symm
    · rfl
  have both := nodup_new (r := partner) distinct fresh
  rw [List.map_append] at both ⊢
  rw [refs]
  exact both

theorem pairedAs_first {r : HeldRecord} {partner : HeldRecord} (distinct : RefsDistinct x)
    (fresh : partner.ref = x.hold.nextRef) (held : ∃ q ∈ x.hold.records, q.ref = r.ref) :
    (pairedAs r partner x).heldRecord r.ref = some r := by
  have records : (pairedAs r partner x).hold.records =
      (x.hold.records.map fun q => if q.ref = r.ref then r else q) ++ [partner] := by
    unfold pairedAs
    rw [(holdHighTest_frame _).2.1, (countHeld_frame ..).2.1]
  refine heldRecord_mem ?_ ?_
  · rw [records]
    exact nodup_paired distinct fresh
  · rw [records]
    obtain ⟨q, held, same⟩ := held
    exact List.mem_append_left _ (List.mem_map.2 ⟨q, held, if_pos same⟩)

theorem countHeld_admitted (i : Option Index) (n : Nat) (g : HeldRecord → HeldRecord) (partner : HeldRecord) (x : State) :
    admitRecord partner (mapRecord n g (countHeld i x)) = countHeld i { x with hold := { x.hold with
      records := (x.hold.records.map fun q => if q.ref = n then g q else q) ++ [partner]
      nextRef := x.hold.nextRef + 1 } } := by
  cases i with
  | _ => rfl

theorem partnerRecord_counted (i : Option Index) (r : HeldRecord) (x : State) :
    partnerRecord b f n r (countHeld i x) = partnerRecord b f n r x := by
  cases i with
  | _ => rfl

/-- The second of a held first is held as its partner. -/
theorem afterHeld_paired (bytes : (x.buffer b).bytes = l) (verdict : secondVerdict x bank stop (describe p l) = .pass f)
    (room : x.hold.records.length < 32) (distinct : RefsDistinct x) {r : HeldRecord} {g : FirstPart}
    (held : r ∈ x.hold.records) (role : r.role = .first g) {linked partner : HeldRecord}
    (link : linked = { r with role := .first { g with partner := some x.hold.nextRef, awaiting := false } })
    (second : partner = partnerRecord b f r.ref r x) :
    concludeTelegram p b (.secondHeld r.ref first) bank stop x = afterPartner r.ref (pairedAs linked partner x) := by
  have present : x.heldRecord r.ref = some r := heldRecord_mem distinct.1 held
  have index : partner.index = f.index := by rw [second]; rfl
  have ref : linked.ref = r.ref := by rw [link]
  have records : (x.hold.records.map fun q => if q.ref = r.ref then q.mapFirst fun g =>
      { g with partner := some x.hold.nextRef, awaiting := false } else q) =
      x.hold.records.map fun q => if q.ref = linked.ref then linked else q := by
    refine List.map_congr_left fun q hq => ?_
    rw [ref]
    split
    · next same =>
      have same : q = r := Option.some.inj (((heldRecord_mem distinct.1 hq).symm.trans (by rw [same])).trans present)
      rw [same, link, HeldRecord.mapFirst, role]
    · rfl
  rw [← bytes] at verdict
  unfold concludeTelegram
  dsimp only
  rw [verdict]
  unfold concludeAfterHeld offerPartner
  dsimp only
  rw [show holdFull x = false from decide_eq_false (by omega), if_neg Bool.false_ne_true, present]
  dsimp only
  unfold admitPartner pairedAs
  dsimp only
  rw [partnerRecord_counted, ← second, countHeld_admitted, ← records, index, second]
  rfl

/-- What the Hold Queue does with a first whose partner has been admitted, by its marks (R53). -/
theorem afterPartner_eq {r : HeldRecord} {g : FirstPart} (held : x.heldRecord n = some r) (role : r.role = .first g) :
    afterPartner n x = if r.pending then x else if g.cleared then releaseFirst r x else evaluate r g x := by
  unfold afterPartner
  rw [held]
  dsimp only
  rw [(firstPart_iff r g).2 role]

end

end Sys2Proof.Machine
end

section
/-! SUPPORT. A first with its partner: its removal, its release and its rejudge (R53, R55, R101, R103 to R105, R109,
R116). -/

namespace Sys2Proof.Machine

/-! ### The removal of a pair -/

section
variable {s : State} {r q : HeldRecord} {f : FirstPart} {reason : Reason} {i : Option Index}

theorem partnerRef_first (role : r.role = .first f) : r.partnerRef = f.partner := by
  rw [HeldRecord.partnerRef, (firstPart_iff r f).2 role]

theorem awaiting_first (role : r.role = .first f) : r.awaiting = f.awaiting := by
  rw [HeldRecord.awaiting, (firstPart_iff r f).2 role]

/-- A record found by its reference among those that are left. -/
theorem find_partner (distinct : (s.hold.records.map (·.ref)).Nodup) (held : q ∈ s.hold.records)
    (partner : r.partnerRef = some q.ref) :
    s.hold.records.find? (fun h => r.partnerRef == some h.ref) = some q := by
  have same : (fun h : HeldRecord => r.partnerRef == some h.ref) = fun h => h.ref == q.ref := by
    funext h
    rw [partner, Bool.eq_iff_iff, beq_iff_eq, beq_iff_eq]
    exact ⟨fun e => (Option.some.inj e).symm, fun e => by rw [e]⟩
  rw [same]
  exact heldRecord_mem distinct held

theorem removeFirst_pair (clear : r.awaiting = false) (partner : r.partnerRef = some q.ref)
    (distinct : (s.hold.records.map (·.ref)).Nodup) (held : q ∈ s.hold.records) (apart : q.ref ≠ r.ref) :
    removeFirst r reason i s = Withdrawn r.port r.ref (TakenOut .boundBroken q.index q (TakenOut reason i r s)) := by
  have left : (TakenOut reason i r s).hold.records = s.hold.records.filter fun h => h.ref != r.ref := TakenOut_records ..
  have found : (TakenOut reason i r s).hold.records.find? (fun h => r.partnerRef == some h.ref) = some q := by
    refine find_partner ?_ ?_ partner
    · rw [left]
      exact distinct.sublist (List.filter_sublist.map _)
    · rw [left]
      exact List.mem_filter.2 ⟨held, bne_iff_ne.2 apart⟩
  unfold removeFirst
  rw [withdraw_eq, reportFate_eq, clear, if_neg Bool.false_ne_true, takeOutPartner_eq, takeOut_eq, found]

end

/-! ### Records that change while others are taken out -/

section
variable {s : State} {r q : HeldRecord} {reason : Reason} {i j : Option Index} {g : HeldRecord → HeldRecord}

theorem setRecords_same (s : State) : s.setRecords s.hold.records = s := rfl

theorem filter_map_ref (refs : ∀ h, (g h).ref = h.ref) (n : Nat) (l : List HeldRecord) :
    (l.map g).filter (fun h => h.ref != n) = (l.filter fun h => h.ref != n).map g := by
  rw [List.filter_map]
  congr 1
  refine List.filter_congr fun h _ => ?_
  dsimp only [Function.comp]
  rw [refs]

theorem handOver_setRecords {l : List HeldRecord} (number : l.length = s.hold.records.length) (x : Handed) :
    handOver x (s.setRecords l) = (handOver x s).setRecords l := by
  have same := handOver_out x s
  have moved := handOver_refit s.rx s.judges s.store s.policer (s := s) (h := { s.hold with records := l }) number x
  refine moved.trans ?_
  unfold refit State.setRecords State.setHold
  rw [same.hold, ← same.rx, ← same.judges, ← same.store, ← same.policer]

/-- What a removal leaves of the other records is as it was. -/
theorem TakenOut_setRecords (refs : ∀ h, (g h).ref = h.ref) (reason : Reason) (i : Option Index) (r : HeldRecord)
    (s : State) : TakenOut reason i r (s.setRecords (s.hold.records.map g)) =
      (TakenOut reason i r s).setRecords ((TakenOut reason i r s).hold.records.map g) := by
  have left : leaving r (s.setRecords (s.hold.records.map g)) =
      (leaving r s).setRecords ((leaving r s).hold.records.map g) := by
    unfold leaving State.setRecords State.setHold
    dsimp only
    rw [filter_map_ref refs]
  have number : ((leaving r s).hold.records.map g).length = (leaving r s).hold.records.length := List.length_map ..
  rw [TakenOut_records]
  change handOver _ (leaving r (s.setRecords (s.hold.records.map g))) = (handOver _ (leaving r s)).setRecords _
  rw [left, handOver_setRecords number]
  rfl

/-- Changes of the records of a pair are gone with it. -/
theorem TakenOut_pair (refs : ∀ h, (g h).ref = h.ref) (others : ∀ h, h.ref ≠ r.ref → h.ref ≠ q.ref → g h = h)
    (second : Reason) : TakenOut second j q (TakenOut reason i r (s.setRecords (s.hold.records.map g))) =
      TakenOut second j q (TakenOut reason i r s) := by
  have same : (TakenOut second j q (TakenOut reason i r s)).hold.records.map g =
      (TakenOut second j q (TakenOut reason i r s)).hold.records := by
    refine (List.map_congr_left fun h held => ?_).trans (List.map_id' _)
    rw [TakenOut_records, TakenOut_records, List.mem_filter, List.mem_filter] at held
    obtain ⟨⟨-, notFirst⟩, notSecond⟩ := held
    exact others h (bne_iff_ne.1 notFirst) (bne_iff_ne.1 notSecond)
  rw [TakenOut_setRecords refs, TakenOut_setRecords refs, same, setRecords_same]

theorem TakenOut_single (refs : ∀ h, (g h).ref = h.ref) (others : ∀ h, h.ref ≠ r.ref → g h = h) :
    TakenOut reason i r (s.setRecords (s.hold.records.map g)) = TakenOut reason i r s := by
  have same : (TakenOut reason i r s).hold.records.map g = (TakenOut reason i r s).hold.records := by
    refine (List.map_congr_left fun h held => ?_).trans (List.map_id' _)
    rw [TakenOut_records, List.mem_filter] at held
    exact others h (bne_iff_ne.1 held.2)
  rw [TakenOut_setRecords refs, same, setRecords_same]

end

/-! ### The catch-up test and the release -/

section
variable {s : State} {r q : HeldRecord} {f : FirstPart}

theorem lapsedBlock_iff : lapsedBlock f s = true ↔ s.agent.supervision.state = .lapsed ∧ f.context.unsup = .block := by
  rw [lapsedBlock, Bool.and_eq_true, lapsed_iff, blocks_iff]

theorem catchesUp_iff : catchesUp r f s = true ↔
    f.reason = .window ∧ f.context.windows &&& s.windows.openSets.get r.bank ≠ 0 ∨
      f.reason = .rate ∧ ∃ i, r.index = some i ∧ (s.stream i).credit ≠ 0 := by
  unfold catchesUp
  cases f.reason with
  | window =>
    dsimp only
    rw [bne_iff_ne]
    exact ⟨fun due => .inl ⟨rfl, due⟩, fun h => h.elim And.right fun other => nomatch other.1⟩
  | rate =>
    dsimp only
    rw [bne_iff_ne]
    cases index : r.index with
    | none =>
      refine iff_of_false (fun h => h rfl) ?_
      rintro (⟨other, -⟩ | ⟨-, i, absent, -⟩)
      · cases other
      · cases absent
    | some i =>
      refine ⟨fun credit => .inr ⟨rfl, i, rfl, credit⟩, ?_⟩
      rintro (⟨other, -⟩ | ⟨-, j, same, credit⟩)
      · cases other
      · rw [Option.some.inj same]
        exact credit

theorem catchUp_eq (r : HeldRecord) (f : FirstPart) (s : State) : catchUp r f s =
    if lapsedBlock f s then removeCounted r .unsupervised r.index s
    else if catchesUp r f s then evaluate r f s else s := rfl

/-- The partner of a first that has been sent, on the list of its first (R55). -/
theorem releasePartner_with (partner : r.partnerRef = some q.ref) (held : s.heldRecord q.ref = some q) :
    (listRoom (s.tx.get (otherPort q.port)) r.list = true → releasePartner r s = countPassed q.index
      { prepareBuffer q.buffer q.outDest q.stamp s with
        hold := { s.hold with records := s.hold.records.filter fun h => h.ref != q.ref }
        tx := s.tx.set (otherPort q.port) (startTx (prepareBuffer q.buffer q.outDest q.stamp s).buffer
          (listAdd (s.tx.get (otherPort q.port)) r.list q.buffer)) }) ∧
    (listRoom (s.tx.get (otherPort q.port)) r.list = false → releasePartner r s = countRefused q.index
      (TakenOut .txFull q.index q (prepareBuffer q.buffer q.outDest q.stamp s))) := by
  unfold releasePartner
  rw [partner]
  dsimp only
  rw [held]
  dsimp only
  refine ⟨fun room => ?_, fun full => ?_⟩
  · have sent : txAppend (otherPort q.port) r.list q.buffer (prepareBuffer q.buffer q.outDest q.stamp s) = some _ :=
      txAppend_room (x := prepareBuffer q.buffer q.outDest q.stamp s) room
    rw [sent]
    rfl
  · rw [txAppend_full (x := prepareBuffer q.buffer q.outDest q.stamp s) full]
    rfl

end

end Sys2Proof.Machine
end

section
/-! SUPPORT. The verdict of a rejudge on a first with its partner, or one that awaits it (R53, R105, R109, R116). -/

namespace Sys2Proof.Machine

section
variable {s : State} {r q : HeldRecord} {f : FirstPart} {g : Facts} {h : FirstPart} {reason : Reason} {i : Option Index}

/-- A first with the facts and the part that a rejudge gives it. -/
def freshFirst (r : HeldRecord) (g : Facts) (h : FirstPart) : HeldRecord :=
  ⟨r.ref, r.buffer, r.port, r.dest, g.bank, g.index, g.outDest, g.list, g.stamp, false, .first h⟩

/-- A record in its place, and the mark of its partner cleared. -/
def replacing (r : HeldRecord) (f : FirstPart) (n h : HeldRecord) : HeldRecord :=
  if h.ref = r.ref then n else if f.partner = some h.ref then { h with pending := false } else h

/-- The mark of a first and of its partner cleared. -/
def unmarking (r : HeldRecord) (f : FirstPart) (h : HeldRecord) : HeldRecord :=
  if h.ref = r.ref ∨ f.partner = some h.ref then { h with pending := false } else h

theorem replacing_ref {n : HeldRecord} (same : n.ref = r.ref) (h : HeldRecord) : (replacing r f n h).ref = h.ref := by
  unfold replacing
  split
  · next here => rw [same, here]
  · split <;> rfl

theorem unmarking_ref (r : HeldRecord) (f : FirstPart) (h : HeldRecord) : (unmarking r f h).ref = h.ref := by
  unfold unmarking
  split <;> rfl

theorem clearPending_eq (role : r.role = .first f) (s : State) :
    clearPending r s = s.setRecords (s.hold.records.map (unmarking r f)) := by
  unfold clearPending mapRecord
  dsimp only
  rw [partnerRef_first role]
  cases partner : f.partner with
  | none =>
    refine congrArg s.setRecords (List.map_congr_left fun h _ => ?_)
    unfold unmarking
    rw [partner]
    by_cases here : h.ref = r.ref
    · rw [if_pos here, if_pos (.inl here)]
    · rw [if_neg here, if_neg fun both => both.elim here nofun]
  | some n =>
    dsimp only
    change s.setRecords ((s.hold.records.map _).map _) = _
    rw [List.map_map]
    refine congrArg s.setRecords (List.map_congr_left fun h _ => ?_)
    dsimp only [Function.comp]
    have other : (f.partner = some h.ref) ↔ h.ref = n := by
      rw [partner]
      exact ⟨fun e => (Option.some.inj e).symm, fun e => by rw [e]⟩
    unfold unmarking
    by_cases here : h.ref = r.ref
    · simp only [if_pos here, if_pos (Or.inl here : h.ref = r.ref ∨ f.partner = some h.ref), ite_self]
    · simp only [if_neg here, or_iff_right here, other]

theorem mapRecord_cleared (role : r.role = .first f) (n : HeldRecord) (s : State) :
    mapRecord r.ref (fun _ => n) (clearPending r s) = s.setRecords (s.hold.records.map (replacing r f n)) := by
  rw [clearPending_eq role]
  unfold mapRecord
  change s.setRecords ((s.hold.records.map (unmarking r f)).map _) = _
  rw [List.map_map]
  congr 2
  funext h
  dsimp only [Function.comp]
  rw [unmarking_ref]
  unfold replacing unmarking
  by_cases here : h.ref = r.ref
  · rw [if_pos here, if_pos here]
  · rw [if_neg here, if_neg here]
    by_cases partner : f.partner = some h.ref
    · rw [if_pos (.inr partner), if_pos partner]
    · rw [if_neg fun both => both.elim here partner, if_neg partner]

/-! ### The removals of a rejudge -/

/-- A record of the same telegram, at the same place of the hold order. -/
structure SameTelegram (r n : HeldRecord) : Prop where
  ref : n.ref = r.ref
  buffer : n.buffer = r.buffer
  port : n.port = r.port
  dest : n.dest = r.dest

theorem TakenOut_same {n : HeldRecord} (same : SameTelegram r n) (reason : Reason) (i : Option Index) (s : State) :
    TakenOut reason i n s = TakenOut reason i r s := by
  obtain ⟨ref, buffer, port, dest⟩ := same
  unfold TakenOut
  rw [ref, buffer, port, dest]

/-- The removal of a first whose record, and the mark of whose partner, may have changed. -/
theorem removeFirst_changed {n : HeldRecord} {change : HeldRecord → HeldRecord} (same : SameTelegram r n)
    (clear : n.awaiting = false) (partner : n.partnerRef = some q.ref) (distinct : (s.hold.records.map (·.ref)).Nodup)
    (held : q ∈ s.hold.records) (apart : q.ref ≠ r.ref) (refs : ∀ h, (change h).ref = h.ref)
    (others : ∀ h, h.ref ≠ r.ref → h.ref ≠ q.ref → change h = h) (second : SameTelegram q (change q))
    (index : (change q).index = q.index) (reason : Reason) (i : Option Index) :
    removeFirst n reason i (s.setRecords (s.hold.records.map change)) =
      Withdrawn r.port r.ref (TakenOut .boundBroken q.index q (TakenOut reason i r s)) := by
  have nodup : ((s.setRecords (s.hold.records.map change)).hold.records.map (·.ref)).Nodup := by
    change ((s.hold.records.map change).map (·.ref)).Nodup
    rw [List.map_map]
    have same : ((fun h : HeldRecord => h.ref) ∘ change) = fun h => h.ref := funext refs
    rw [same]
    exact distinct
  rw [removeFirst_pair (q := change q) clear (by rw [refs]; exact partner) nodup (List.mem_map_of_mem held)
    (by rw [refs, same.ref]; exact apart), TakenOut_same second, index, TakenOut_same same, same.port, same.ref,
    TakenOut_pair refs others]

theorem removeFirst_awaited {n : HeldRecord} {change : HeldRecord → HeldRecord} (same : SameTelegram r n)
    (waits : n.awaiting = true) (alone : n.partnerRef = none) (refs : ∀ h, (change h).ref = h.ref)
    (others : ∀ h, h.ref ≠ r.ref → change h = h) (reason : Reason) (i : Option Index) :
    removeFirst n reason i (s.setRecords (s.hold.records.map change)) =
      Withdrawn r.port r.ref (Unbound r.port r.ref (TakenOut reason i r s)) := by
  unfold removeFirst
  rw [withdraw_eq, reportFate_eq, waits, if_pos rfl, takeOutPartner, alone]
  dsimp only
  rw [takeOut_eq, TakenOut_same same, same.port, same.ref, TakenOut_single refs others]

theorem unmarking_same (r : HeldRecord) (f : FirstPart) (q : HeldRecord) :
    SameTelegram q (unmarking r f q) ∧ (unmarking r f q).index = q.index := by
  unfold unmarking
  split <;> exact ⟨⟨rfl, rfl, rfl, rfl⟩, rfl⟩

theorem unmarking_other {x : HeldRecord} (first : x.ref ≠ r.ref) (second : f.partner ≠ some x.ref) :
    unmarking r f x = x := if_neg fun both => both.elim first second

theorem replacing_same {n : HeldRecord} (apart : q.ref ≠ r.ref) :
    SameTelegram q (replacing r f n q) ∧ (replacing r f n q).index = q.index := by
  unfold replacing
  rw [if_neg apart]
  split <;> exact ⟨⟨rfl, rfl, rfl, rfl⟩, rfl⟩

theorem replacing_other {n x : HeldRecord} (first : x.ref ≠ r.ref) (second : f.partner ≠ some x.ref) :
    replacing r f n x = x := by
  unfold replacing
  rw [if_neg first, if_neg second]

theorem freshFirst_same (r : HeldRecord) (g : Facts) (h : FirstPart) : SameTelegram r (freshFirst r g h) :=
  ⟨rfl, rfl, rfl, rfl⟩

/-! ### The verdict carried out -/

/-- The state with a record in its place, and the mark of its partner cleared. -/
def placedAs (r : HeldRecord) (f : FirstPart) (n : HeldRecord) (s : State) : State :=
  s.setRecords (s.hold.records.map (replacing r f n))

theorem carryVerdict_refuse (role : r.role = .first f) : carryVerdict r f (.refuse reason i) s =
    countRefused i (removeFirst r reason i (s.setRecords (s.hold.records.map (unmarking r f)))) := by
  unfold carryVerdict
  rw [clearPending_eq role]
  rfl

theorem carryVerdict_pass (role : r.role = .first f) (g : Facts) (s : State) : carryVerdict r f (.pass g) s =
    if f.awaiting then
      placedAs r f (freshFirst r g { f with context := g.context, cleared := f.cleared || f.awaiting }) s
    else releaseFirst (freshFirst r g { f with context := g.context, cleared := f.cleared || f.awaiting })
      (placedAs r f (freshFirst r g { f with context := g.context, cleared := f.cleared || f.awaiting }) s) := by
  have placed := mapRecord_cleared role
    (freshFirst r g { f with context := g.context, cleared := f.cleared || f.awaiting }) s
  unfold placedAs
  rw [← placed]
  rfl

/-- The part of a first that stays with a HOLD. -/
def heldOn (f : FirstPart) (g : Facts) (why : HoldReason) (limit : Nat) (cleared : Bool) : FirstPart :=
  { f with context := g.context, reason := why, deadline := shorterDeadline f limit, cleared := cleared }

theorem carryVerdict_hold (role : r.role = .first f) (g : Facts) (why : HoldReason) (limit : Nat) (s : State)
    {past : Bool} (deadline : atOrBefore (shorterDeadline f limit) s.cal.uptime = past) {n : HeldRecord}
    (record : n = freshFirst r g (heldOn f g why limit (past && f.cleared))) :
    carryVerdict r f (.hold g why limit) s =
      if past then removeFirst n .holdExpired g.index (placedAs r f n s)
      else if f.awaiting then placedAs r f n s
      else catchUp n (heldOn f g why limit (past && f.cleared)) (placedAs r f n s) := by
  have placed := mapRecord_cleared role n s
  have cal : (clearPending r s).cal = s.cal := by
    rw [clearPending_eq role]
    rfl
  unfold placedAs
  rw [← placed, record]
  unfold carryVerdict verdictHold
  dsimp only
  rw [cal, deadline]
  rfl

end

end Sys2Proof.Machine
end

section
/-! SUPPORT. The verdict and the conclusion of a second, and what becomes of a pair (R48 to R50, R53, R55). -/

namespace Sys2Proof.Machine

section
variable {p : Port} {s t : State} {b : BufId} {l : List Byte} {role : JudgedAs} {arrivals : List BufId}
  {slot : Option Nat} {key : LookupKey} {bank : Bank} {w : Walk} {v : RejudgeVerdict} {n : Nat}
  {first : Option Particulars} {list : ListKind}

/-! ### The conclusion -/

/-- What a conclusion is of: a second in judgement, and the verdict on it. -/
structure SecondJudged (p : Port) (b : BufId) (l : List Byte) (role : JudgedAs) (bank : Bank) (w : Walk)
    (v : RejudgeVerdict) (s t : State) : Prop where
  bytes : ((afterReads w s).buffer b).bytes = l
  verdict : secondVerdict (afterReads w s) bank w.stop (describe p l) = v
  concludes : Concludes p (concludeTelegram p b role bank w.stop (afterReads w s)) t

theorem SecondJudged.behind_passed (h : SecondJudged p b l (.secondPassed list first) bank w v s t) :
    (∀ reason index, v = .refuse reason index → Concludes p (Dropped p b l reason index (afterReads w s)) t) ∧
      ∀ f y, v = .pass f → y = prepareBuffer b f.outDest f.stamp (afterReads w s) →
        (listRoom (s.tx.get (otherPort p)) list = true →
          Concludes p (countPassed f.index { y with tx := (s.tx.set (otherPort p)
            (startTx y.buffer (listAdd (s.tx.get (otherPort p)) list b))) }) t) ∧
        (listRoom (s.tx.get (otherPort p)) list = false → Concludes p (Dropped p b l .txFull f.index y) t) := by
  obtain ⟨bytes, verdict, concludes⟩ := h
  refine ⟨?_, ?_⟩
  · rintro reason index rfl
    rw [afterPassed_refused bytes verdict] at concludes
    exact concludes
  · rintro f y rfl rfl
    refine ⟨fun room => ?_, fun full => ?_⟩
    · rw [afterPassed_sent bytes verdict room] at concludes
      exact concludes
    · rw [afterPassed_full bytes verdict full] at concludes
      exact concludes

theorem SecondJudged.behind_gone (h : SecondJudged p b l (.secondHeld n first) bank w v s t)
    (gone : ∀ r ∈ s.hold.records, r.ref ≠ n) :
    (∀ reason index, v = .refuse reason index → Concludes p (Dropped p b l reason index (afterReads w s)) t) ∧
      ∀ f, v = .pass f → 32 ≤ s.hold.records.length →
        Concludes p (Dropped p b l .holdFull f.index (afterReads w s)) t := by
  obtain ⟨bytes, verdict, concludes⟩ := h
  have none (reason : Reason) (index : Option Index) : dropBroken n (Dropped p b l reason index (afterReads w s)) =
      Dropped p b l reason index (afterReads w s) :=
    dropBroken_gone (by rw [(Dropped_frame ..).2]; exact gone)
  refine ⟨?_, ?_⟩
  · rintro reason index rfl
    rw [afterHeld_refused bytes verdict, none] at concludes
    exact concludes
  · rintro f rfl full
    rw [afterHeld_full bytes verdict full, none] at concludes
    exact concludes

theorem SecondJudged.behind_held {r : HeldRecord} {g : FirstPart}
    (h : SecondJudged p b l (.secondHeld r.ref first) bank w v s t) (distinct : RefsDistinct s)
    (held : r ∈ s.hold.records) (role : r.role = .first g) :
    (∀ reason index, v = .refuse reason index →
      Concludes p (Removed .boundBroken r (Dropped p b l reason index (afterReads w s))) t) ∧
    (∀ f, v = .pass f → 32 ≤ s.hold.records.length →
      Concludes p (Removed .boundBroken r (Dropped p b l .holdFull f.index (afterReads w s))) t) ∧
    ∀ f, v = .pass f → s.hold.records.length < 32 → ∀ linked partner : HeldRecord,
      linked = { r with role := .first { g with partner := some s.hold.nextRef, awaiting := false } } →
      partner = partnerRecord b f r.ref r (afterReads w s) →
      ∀ z, z = pairedAs linked partner (afterReads w s) →
      (r.pending = true → Concludes p z t) ∧
      (r.pending = false → g.cleared = true → Concludes p (releaseFirst linked z) t) ∧
      (r.pending = false → g.cleared = false →
        Concludes p (evaluate linked { g with partner := some s.hold.nextRef, awaiting := false } z) t) := by
  obtain ⟨bytes, verdict, concludes⟩ := h
  have removed (reason : Reason) (index : Option Index) : dropBroken r.ref (Dropped p b l reason index (afterReads w s)) =
      Removed .boundBroken r (Dropped p b l reason index (afterReads w s)) := by
    have hold : (Dropped p b l reason index (afterReads w s)).hold = s.hold := (Dropped_frame ..).2
    exact dropBroken_first (by rw [hold]; exact distinct.1) (by rw [hold]; exact held)
  refine ⟨?_, ?_, ?_⟩
  · rintro reason index rfl
    rw [afterHeld_refused bytes verdict, removed] at concludes
    exact concludes
  · rintro f rfl full
    rw [afterHeld_full bytes verdict full, removed] at concludes
    exact concludes
  · rintro f rfl room linked partner link second z rfl
    have ref : linked.ref = r.ref := by rw [link]
    have pending : linked.pending = r.pending := by rw [link]
    have fresh : partner.ref = (afterReads w s).hold.nextRef := by rw [second]; rfl
    have here : (pairedAs linked partner (afterReads w s)).heldRecord r.ref = some linked := by
      rw [← ref]
      exact pairedAs_first (x := afterReads w s) distinct fresh ⟨r, held, ref.symm⟩
    rw [afterHeld_paired bytes verdict room distinct held role link second,
      afterPartner_eq (g := { g with partner := some s.hold.nextRef, awaiting := false }) here (by rw [link]), pending]
      at concludes
    refine ⟨fun marked => ?_, fun clear cleared => ?_, fun clear uncleared => ?_⟩
    · rw [marked, if_pos rfl] at concludes
      exact concludes
    · rw [clear, if_neg Bool.false_ne_true, cleared, if_pos rfl] at concludes
      exact concludes
    · rw [clear, if_neg Bool.false_ne_true, uncleared, if_neg Bool.false_ne_true] at concludes
      exact concludes

theorem holdHighTest_counted (i : Option Index) (x : State) : holdHighTest (countHeld i x) =
    if x.agent.settings.holdHighMark.toNat ≤ x.hold.records.length then tell .holdHigh (countHeld i x)
    else countHeld i x := by
  obtain ⟨-, hold, agent, -⟩ := countHeld_frame i x
  unfold holdHighTest
  rw [agent, hold]

theorem pairedAs_eq {linked partner : HeldRecord} {index : Option Index} (ref : linked.ref = n)
    (same : partner.index = index) (w : Walk) (s : State) : pairedAs linked partner (afterReads w s) =
      if s.agent.settings.holdHighMark.toNat ≤ s.hold.records.length + 1
      then tell .holdHigh (countHeld index { afterReads w s with hold := { (afterReads w s).hold with
        records := (s.hold.records.map fun q => if q.ref = n then linked else q) ++ [partner]
        nextRef := s.hold.nextRef + 1 } })
      else countHeld index { afterReads w s with hold := { (afterReads w s).hold with
        records := (s.hold.records.map fun q => if q.ref = n then linked else q) ++ [partner]
        nextRef := s.hold.nextRef + 1 } } := by
  have length : ((s.hold.records.map fun q => if q.ref = n then linked else q) ++ [partner]).length =
      s.hold.records.length + 1 := by rw [List.length_append, List.length_map]; rfl
  unfold pairedAs
  rw [ref, same, holdHighTest_counted]
  change (if _ ≤ ((s.hold.records.map fun q => if q.ref = n then linked else q) ++ [partner]).length then _ else _) = _
  rw [length]
  rfl

/-- The Judge of a second judged as any telegram. -/
theorem exec_plain (h : SecondInHand p b (.secondHeld n first) arrivals slot key bank s) (found : w = lookup bank key s)
    (sound : w.joins = false) (o : RiseOrder)
    (same : concludeTelegram p b (.secondHeld n first) bank w.stop (afterReads w s) =
      concludeTelegram p b .plain bank w.stop (afterReads w s)) :
    exec (.lookupConclusion p o) { s with judges := (s.judges.set p
      ⟨arrivals, slot, none, .lookup (.telegram b .plain key) bank⟩) } =
      .next (settle (freed p (concludeTelegram p b (.secondHeld n first) bank w.stop (afterReads w s)))) := by
  obtain ⟨judge, -, -⟩ := h
  obtain ⟨u, hu⟩ : ∃ u, u = { s with judges := (s.judges.set p
      ⟨arrivals, slot, none, .lookup (.telegram b .plain key) bank⟩) } := ⟨_, rfl⟩
  have phase : (u.judges.get p).phase = .lookup (.telegram b .plain key) bank := by
    rw [hu, PerPort.get_set_self]
  have again : w = lookup bank key u := by
    rw [found, hu]
    exact (lookup_congr rfl rfl rfl bank key).symm
  have freedSame : freed p (afterReads w u) = freed p (afterReads w s) := by
    rw [freed_eq, freed_eq, hu]
    unfold afterReads
    simp only [PerPort.get_set_self, PerPort.set_set, judge]
  have moved (x : State) : concludeTelegram p b .plain bank w.stop (freed p x) =
      freed p (concludeTelegram p b .plain bank w.stop x) := concludeTelegram_aside ..
  have conclusion := concludeLookup_sound (p := p) (it := .telegram b .plain key) again sound o
  rw [← hu, exec_lookupConclusion phase, conclusion, same]
  change Host.Outcome.next (settle (freed p (concludeTelegram p b .plain bank w.stop (afterReads w u)))) = _
  rw [← moved, freedSame, moved]

/-! ### The pair -/

variable {r q : HeldRecord} {f : FirstPart}

/-- A first and its partner among the held records. -/
structure PairHeld (r q : HeldRecord) (f : FirstPart) (s : State) : Prop where
  distinct : RefsDistinct s
  first : r ∈ s.hold.records
  second : q ∈ s.hold.records
  role : r.role = .first f
  clear : f.awaiting = false
  partner : f.partner = some q.ref
  link : q.role = .partner r.ref

namespace PairHeld

theorem apart (h : PairHeld r q f s) : q.ref ≠ r.ref := by
  intro same
  have found := heldRecord_mem h.distinct.1 h.second
  rw [same, heldRecord_mem h.distinct.1 h.first] at found
  have roles := h.link
  rw [← Option.some.inj found, h.role] at roles
  cases roles

theorem awaiting (h : PairHeld r q f s) : r.awaiting = false := (awaiting_first h.role).trans h.clear

theorem partnerRef (h : PairHeld r q f s) : r.partnerRef = some q.ref := (partnerRef_first h.role).trans h.partner

theorem removed (h : PairHeld r q f s) (reason : Reason) (index : Option Index) : removeCounted r reason index s =
    countRefused index (Withdrawn r.port r.ref (TakenOut .boundBroken q.index q (TakenOut reason index r s))) := by
  unfold removeCounted
  rw [removeFirst_pair h.awaiting h.partnerRef h.distinct.1 h.second h.apart]

theorem catchUp (h : PairHeld r q f s) (lapsed : Prop)
    (hl : lapsed ↔ s.agent.supervision.state = .lapsed ∧ f.context.unsup = .block) (due : Prop)
    (hd : due ↔ f.reason = .window ∧ f.context.windows &&& s.windows.openSets.get r.bank ≠ 0 ∨
      f.reason = .rate ∧ ∃ i, r.index = some i ∧ (s.stream i).credit ≠ 0) :
    (lapsed → catchUp r f s = countRefused r.index
      (Withdrawn r.port r.ref (TakenOut .boundBroken q.index q (TakenOut .unsupervised r.index r s)))) ∧
    (¬lapsed → due → Machine.catchUp r f s = evaluate r f s) ∧ (¬lapsed → ¬due → Machine.catchUp r f s = s) := by
  rw [← lapsedBlock_iff] at hl
  rw [← catchesUp_iff] at hd
  rw [catchUp_eq, hl, hd, h.removed]
  refine ⟨fun lapses => if_pos lapses, fun holds due => ?_, fun holds waits => ?_⟩
  · rw [if_neg holds, if_pos due]
  · rw [if_neg holds, if_neg waits]

theorem released (h : PairHeld r q f s) {y : State} (ready : y = prepareBuffer r.buffer r.outDest r.stamp s) :
    (listRoom (s.tx.get (otherPort r.port)) r.list = false → releaseFirst r s = removeCounted r .txFull r.index y) ∧
    (listRoom (s.tx.get (otherPort r.port)) r.list = true →
      ∀ u : State, u = countPassed r.index { y with
        hold := { s.hold with records := s.hold.records.filter fun h => h.ref != r.ref }
        tx := (s.tx.set (otherPort r.port)
          (startTx y.buffer (listAdd (s.tx.get (otherPort r.port)) r.list r.buffer))) } →
      ∀ z : State, z = prepareBuffer q.buffer q.outDest q.stamp u →
      (listRoom (u.tx.get (otherPort q.port)) r.list = true →
        releaseFirst r s = countPassed q.index { z with
          hold := { u.hold with records := u.hold.records.filter fun h => h.ref != q.ref }
          tx := (u.tx.set (otherPort q.port)
            (startTx z.buffer (listAdd (u.tx.get (otherPort q.port)) r.list q.buffer))) }) ∧
      (listRoom (u.tx.get (otherPort q.port)) r.list = false →
        releaseFirst r s = countRefused q.index (TakenOut .txFull q.index q z))) := by
  refine ⟨fun full => by rw [releaseFirst_full full, ready], fun room u hu z hz => ?_⟩
  have records : u.hold.records = s.hold.records.filter fun h => h.ref != r.ref := by
    rw [hu, (countPassed_frame ..).2]
  have held : u.heldRecord q.ref = some q := by
    refine heldRecord_mem ?_ ?_
    · rw [records]
      exact h.distinct.1.sublist (List.filter_sublist.map _)
    · rw [records]
      exact List.mem_filter.2 ⟨h.second, bne_iff_ne.2 h.apart⟩
  rw [releaseFirst_sent ready room, ← hu, hz]
  exact releasePartner_with h.partnerRef held

/-! ### The rejudge of the pair -/

theorem rejudge_refused (h : PairHeld r q f s) (reason : Reason) (index : Option Index) :
    carryVerdict r f (.refuse reason index) s = countRefused index
      (Withdrawn r.port r.ref (TakenOut .boundBroken q.index q (TakenOut reason index r s))) := by
  obtain ⟨second, sameIndex⟩ := unmarking_same r f q
  rw [carryVerdict_refuse h.role, removeFirst_changed ⟨rfl, rfl, rfl, rfl⟩ h.awaiting h.partnerRef h.distinct.1 h.second
    h.apart (unmarking_ref r f) (fun x first other => unmarking_other first ?_) second sameIndex]
  rw [h.partner]
  exact fun same => other (Option.some.inj same).symm

theorem rejudge_expired (h : PairHeld r q f s) (g : Facts) {e : FirstPart} (clear : e.awaiting = false)
    (partner : e.partner = some q.ref) (i : Option Index) :
    removeFirst (freshFirst r g e) .holdExpired i (placedAs r f (freshFirst r g e) s) =
      Withdrawn r.port r.ref (TakenOut .boundBroken q.index q (TakenOut .holdExpired i r s)) := by
  obtain ⟨second, sameIndex⟩ := replacing_same (f := f) (n := freshFirst r g e) h.apart
  have others (x : HeldRecord) (first : x.ref ≠ r.ref) (other : x.ref ≠ q.ref) :
      replacing r f (freshFirst r g e) x = x := by
    refine replacing_other first ?_
    rw [h.partner]
    exact fun same => other (Option.some.inj same).symm
  have refs : ∀ x, (replacing r f (freshFirst r g e) x).ref = x.ref := replacing_ref rfl
  unfold placedAs
  rw [removeFirst_changed (freshFirst_same r g e) clear partner h.distinct.1 h.second h.apart refs others second sameIndex]

end PairHeld

/-! ### The rejudge of a first that awaits its partner -/

/-- A first among the held records that awaits its partner. -/
structure AwaitsPartner (r : HeldRecord) (f : FirstPart) : Prop where
  role : r.role = .first f
  waits : f.awaiting = true
  alone : f.partner = none

namespace AwaitsPartner

theorem rejudge_refused (h : AwaitsPartner r f) (reason : Reason) (index : Option Index) (s : State) :
    carryVerdict r f (.refuse reason index) s = countRefused index
      (Withdrawn r.port r.ref (Unbound r.port r.ref (TakenOut reason index r s))) := by
  obtain ⟨role, waits, alone⟩ := h
  have others (x : HeldRecord) (first : x.ref ≠ r.ref) : unmarking r f x = x :=
    unmarking_other first (by rw [alone]; exact nofun)
  rw [carryVerdict_refuse role, removeFirst_awaited (r := r) ⟨rfl, rfl, rfl, rfl⟩ ((awaiting_first role).trans waits)
    ((partnerRef_first role).trans alone) (unmarking_ref r f) others]

theorem rejudge_expired (h : AwaitsPartner r f) (g : Facts) {e : FirstPart} (waits : e.awaiting = true)
    (alone : e.partner = none) (i : Option Index) (s : State) :
    removeFirst (freshFirst r g e) .holdExpired i (placedAs r f (freshFirst r g e) s) =
      Withdrawn r.port r.ref (Unbound r.port r.ref (TakenOut .holdExpired i r s)) := by
  have others (x : HeldRecord) (first : x.ref ≠ r.ref) : replacing r f (freshFirst r g e) x = x :=
    replacing_other first (by rw [h.alone]; exact nofun)
  have refs : ∀ x, (replacing r f (freshFirst r g e) x).ref = x.ref := replacing_ref rfl
  unfold placedAs
  rw [removeFirst_awaited (freshFirst_same r g e) waits alone refs others]

end AwaitsPartner

end

/-- Settles O60: the verdict of a second, its conclusion behind each kind of first, and what becomes of a pair. -/
theorem secondsFollowTheirFirsts : Obligations.SecondsFollowTheirFirsts := by
  refine ⟨fun s bank d => ⟨fun i e => secondVerdict_found s bank i e d, rfl, fun i => ⟨rfl, rfl⟩⟩, ?_, ?_, ?_⟩
  · rintro p b role arrivals slot key bank o s inHand w found sound l bytes x rfl v verdict
    have judged : SecondJudged p b l role bank w v s
        (settle (freed p (concludeTelegram p b role bank w.stop (afterReads w s)))) :=
      ⟨bytes.symm, verdict.symm, inHand.concludes ((KeepsJudging.afterReads w s).trans (.concludeTelegram ..))⟩
    refine ⟨_, inHand.exec found sound o, ?_, ?_⟩
    · rintro list passed rfl
      exact judged.behind_passed
    · rintro n first rfl distinct
      refine ⟨fun gone => ?_, ?_⟩
      · obtain ⟨refused, full⟩ := judged.behind_gone gone
        refine ⟨refused, full, ?_⟩
        rintro f rfl room
        exact exec_plain inHand found sound o (afterHeld_gone (x := afterReads w s) bytes.symm judged.verdict room gone)
      · rintro r g held rfl port role alone
        obtain ⟨refused, full, paired⟩ := judged.behind_held distinct held role
        refine ⟨refused, full, ?_⟩
        rintro f passed room linked link partner second y hy z hz
        have ref : linked.ref = r.ref := by rw [link]
        refine paired f passed room linked partner link ?_ z ?_
        · rw [second, bytes]
          rfl
        · rw [hz, hy]
          exact (pairedAs_eq ref (by rw [second]) w s).symm
  · intro s r f q distinct first second role clear partner link
    have pair : PairHeld r q f s := ⟨distinct, first, second, role, clear, partner, link⟩
    refine ⟨pair.removed, fun reason => evaluate_refuse, fun reason => evaluate_hold, evaluate_pass, ?_, ?_⟩
    · intro lapsed hl due hd
      exact pair.catchUp lapsed hl due hd
    · intro y ready
      exact pair.released ready
  · rintro s r f distinct first role fresh rfl placed rfl deadline hd
    have early (k : Nat) : deadline k = shorterDeadline f k := by rw [hd]; rfl
    refine ⟨fun q clear second partner link => ?_, fun waits alone => ?_⟩
    · have pair : PairHeld r q f s := ⟨distinct, first, second, role, clear, partner, link⟩
      refine ⟨pair.rejudge_refused, ?_, fun g reason k => ?_⟩
      · rintro g n rfl
        rw [carryVerdict_pass role, clear, Bool.or_false, if_neg Bool.false_ne_true]
        rfl
      · rw [early]
        refine ⟨fun past => ?_, ?_⟩
        · rw [carryVerdict_hold role g reason k s past rfl, if_pos rfl]
          exact pair.rejudge_expired g (e := heldOn f g reason k f.cleared) clear partner g.index
        · rintro ahead h rfl n rfl
          rw [carryVerdict_hold role g reason k s ahead rfl, if_neg Bool.false_ne_true,
            if_neg (by rw [clear]; exact Bool.false_ne_true)]
          rfl
    · have awaited : AwaitsPartner r f := ⟨role, waits, alone⟩
      refine ⟨fun reason index => awaited.rejudge_refused reason index s, fun g => ?_, fun g reason k => ?_⟩
      · rw [carryVerdict_pass role, waits, Bool.or_true, if_pos rfl]
        rfl
      · rw [early]
        refine ⟨fun past => ?_, fun ahead => ?_⟩
        · rw [carryVerdict_hold role g reason k s past rfl, if_pos rfl]
          exact awaited.rejudge_expired g (e := heldOn f g reason k f.cleared) waits alone g.index s
        · rw [carryVerdict_hold role g reason k s ahead rfl, if_neg Bool.false_ne_true, if_pos waits]
          rfl

end Sys2Proof.Machine
end

section
/-! SUPPORT. A commit among the telegrams that wait behind a rejudge (R20, R22, R113, R115). -/

namespace Sys2Proof.Machine

/-- A first in the oldest buffer that awaits its partner, pending. -/
def awaitingFirst : HeldRecord := ⟨0, 0, .f, 0, .b0, none, 0, .normal, .ignore, true,
  .first ⟨.window, unconditional, 0, 1, none, true, false⟩⟩

/-- The gate with that first in judgement by its rejudge, which the default policy passes, and a COMMIT_NOW telegram in
buffer 1 that waits behind it. -/
def commitBehind : State := ({ State.reset with
  pool := ⟨State.reset.pool.buffers, (List.finRange 64).drop 2⟩
  judges := State.reset.judges.set .f ⟨[1], none, none, .lookup (.rejudge 0 ⟨.f, 0, 0⟩) .b0⟩
  store := { State.reset.store with phase := .ready, port := .judge .f }
  agent := { State.reset.agent with settings := { defaultSettings with defaultPass := true } }
  hold := { State.reset.hold with
    records := [awaitingFirst]
    outstanding := State.reset.hold.outstanding.set .f (some ⟨0, false⟩)
    nextRef := 1 } } : State).setBuffer 1
      ⟨[0xD3, 0xF0, 0, 0, 1, 0xF0, 0, 7, 1, 0x0C], { blankBuffer.desc with port := .f }⟩

theorem commitBehind_settled : Settled commitBehind := by
  unfold Settled
  decide +kernel

theorem commitBehind_rejudge :
    RejudgeInHand .f awaitingFirst.ref [1] none ⟨.f, 0, 0⟩ .b0 commitBehind :=
  ⟨rfl, rfl, commitBehind_settled, by unfold RefsDistinct; decide +kernel⟩

theorem commitBehind_reads : (lookup .b0 ⟨.f, 0, 0⟩ commitBehind).joins = false := by decide +kernel

/-- The verdict leaves the first, the Judge takes the telegram, the commit makes the first pending again, and it is
requested again, all at the same event. -/
theorem commitBehind_requested : (settle (concludeLookup .f (.rejudge 0 ⟨.f, 0, 0⟩) .b0 .flagFirst
    commitBehind)).hold.outstanding.get .f = some ⟨awaitingFirst.ref, false⟩ := by decide +kernel

/-- Refutes O31: after the verdict the port may have a request that names the same record again, since the Judge takes a
COMMIT_NOW telegram that waits behind the rejudge at the same event. -/
theorem not_rejudgeVerdictIsCarriedOut : ¬ Obligations.RejudgeVerdictIsCarriedOut := by
  intro holds
  have exec := exec_lookupConclusion (p := .f) (it := .rejudge 0 ⟨.f, 0, 0⟩) (bank := .b0) (s := commitBehind) rfl .flagFirst
  obtain ⟨t, step, -, carried⟩ := holds.2 .f .flagFirst ⟨.f, 0, 0⟩ .b0 commitBehind awaitingFirst _ [1] none
    commitBehind_rejudge List.mem_cons_self rfl rfl _ rfl commitBehind_reads _ rfl _ rfl _ rfl _ rfl _ rfl _ rfl
  obtain ⟨-, anew⟩ := carried _ rfl
  obtain ⟨unnamed, -⟩ := anew rfl
  have after : t = _ := Host.Outcome.next.inj (step.symm.trans exec)
  exact unnamed ⟨awaitingFirst.ref, false⟩ (by rw [after]; exact commitBehind_requested) rfl

end Sys2Proof.Machine
end

section
/-! SUPPORT. What a command leaves to the Judges between two telegrams (R20, R22, R105, R113, R115). -/

namespace Sys2Proof.Machine

/-- The Judges turn to what is next in `t` as in `s`, and the port still has no request where it had none. -/
structure Steady (p : Port) (s t : State) : Prop where
  phase : ∀ q, (t.judges.get q).phase = (s.judges.get q).phase
  arrivals : ∀ q, (t.judges.get q).arrivals = (s.judges.get q).arrivals
  bind : ∀ q, (s.judges.get q).bind = none → (t.judges.get q).bind = none
  slot : (s.judges.get p).slot = none → (t.judges.get p).slot = none
  outstanding : s.hold.outstanding.get p = none → t.hold.outstanding.get p = none
  ready : t.store.phase = s.store.phase
  port : t.store.port = s.store.port
  inbox : t.agent.inbox = s.agent.inbox

namespace Steady
variable {p : Port} {s t u : State}

theorem trans (a : Steady p s t) (b : Steady p t u) : Steady p s u where
  phase q := (b.phase q).trans (a.phase q)
  arrivals q := (b.arrivals q).trans (a.arrivals q)
  bind q closed := b.bind q (a.bind q closed)
  slot empty := b.slot (a.slot empty)
  outstanding free := b.outstanding (a.outstanding free)
  ready := b.ready.trans a.ready
  port := b.port.trans a.port
  inbox := b.inbox.trans a.inbox

theorem of_same (judges : t.judges = s.judges) (outstanding : t.hold.outstanding = s.hold.outstanding)
    (ready : t.store.phase = s.store.phase) (port : t.store.port = s.store.port)
    (inbox : t.agent.inbox = s.agent.inbox) : Steady p s t where
  phase q := by rw [judges]
  arrivals q := by rw [judges]
  bind q closed := by rw [judges]; exact closed
  slot empty := by rw [judges]; exact empty
  outstanding free := by rw [outstanding]; exact free
  ready := ready
  port := port
  inbox := inbox

theorem setPolicer (x : Policer) (s : State) : Steady p s (s.setPolicer x) := of_same rfl rfl rfl rfl rfl

theorem refl (s : State) : Steady p s s := of_same rfl rfl rfl rfl rfl

theorem out (h : SameButOut s t) : Steady p s t :=
  of_same h.judges (by rw [h.hold]) (by rw [h.store]) (by rw [h.store]) (by rw [h.agent])

theorem removal (h : Removal s t) : Steady p s t where
  phase := h.phase
  arrivals := h.arrivals
  bind q closed := (h.bind q).elim (fun same => same.trans closed) id
  slot empty := (h.request p).elim (fun same => same.1.trans empty) fun gone => gone.2.1
  outstanding free := (h.request p).elim (fun same => same.2.trans free) fun gone => gone.2.2
  ready := by rw [h.store]
  port := by rw [h.store]
  inbox := by rw [h.agent]

/-! ### The commit (R113, R115) -/

theorem staleRequest (q : Port) (s : State) : Steady p s (staleRequest q s) := by
  unfold Machine.staleRequest
  split
  · exact refl s
  · next request named =>
    have here (free : s.hold.outstanding.get p = none) : p ≠ q := fun same => by
      rw [same, named] at free
      cases free
    split
    · next slot =>
      have taken := Removal.withdrawn q request.ref s
      rw [Withdrawn, if_pos slot] at taken
      exact removal taken
    · exact ⟨fun _ => rfl, fun _ => rfl, fun _ => id, id,
        fun free => (get_set_apart (here free)).trans free, rfl, rfl, rfl⟩

theorem swapBanks (s : State) : Steady p s (swapBanks s) := by
  have pending : Steady p s ((swapping s).setRecords (s.hold.records.map fun r => { r with pending := true })) :=
    of_same rfl rfl rfl rfl rfl
  have marked : Steady p s (markPending (swapping s)) :=
    (pending.trans (staleRequest .n _)).trans (staleRequest .f _)
  exact marked.trans (out (tell_out _ _))

theorem complete (b : BufId) (x : Status) (l : List Byte) (s : State) : Steady p s (complete b x l s) := by
  have ended : Steady p s (endExecution s) := of_same rfl rfl rfl rfl rfl
  have answered := ended.trans (out (respond_out b x l (endExecution s)))
  unfold Machine.complete swapIfDue
  split
  · exact answered.trans (swapBanks _)
  all_goals exact answered

/-! ### The other commands -/

theorem trigger (k : ScanKind) (s : State) : Steady p s (trigger k s) := by
  rw [trigger_frame]
  exact of_same rfl rfl rfl rfl rfl

theorem fullEvaluation (m : MinuteMark) (s : State) : Steady p s (fullEvaluation m s) := by
  have evaluated : Steady p s (reevaluate m s) := of_same rfl rfl rfl rfl rfl
  unfold Machine.fullEvaluation
  dsimp only
  split
  · exact evaluated
  · exact evaluated.trans (trigger _ _)

theorem timerAct (a : RefillAction) (s : State) : Steady p s (timerAct a s) := by
  cases a with
  | start =>
    unfold Machine.timerAct timerStart
    dsimp only
    split <;> exact of_same rfl rfl rfl rfl rfl
  | pause =>
    unfold Machine.timerAct timerPause
    dsimp only
    split <;> exact of_same rfl rfl rfl rfl rfl
  | stop => exact of_same rfl rfl rfl rfl rfl
  | restart => exact of_same rfl rfl rfl rfl rfl

theorem acceptSetting (code : Nat) (new : Settings) (s : State) : Steady p s (acceptSetting code new s) := by
  have accepted : Steady p s (s.setAgent { s.agent with settings := new }) := of_same rfl rfl rfl rfl rfl
  unfold Machine.acceptSetting
  dsimp only
  split
  · exact of_same rfl rfl rfl rfl rfl
  · split
    · exact accepted.trans (out (driveAlert_out _))
    · exact accepted

theorem removeRefs (reason : Reason) (l : List Nat) : ∀ s, Removal s (l.foldl (removeRef reason) s) := by
  induction l with
  | nil => exact .refl
  | cons n rest ih =>
    intro s
    have first : Removal s (removeRef reason s n) := by
      unfold removeRef
      split
      · rw [removeFirst_eq]
        exact .removed ..
      · exact .refl s
    exact first.trans (ih _)

theorem flushHeld (scope : Option Index) (s : State) : Steady p s (flushHeld scope s) := by
  cases scope with
  | none => exact removal (removeRefs ..)
  | some i => exact removal (removeRefs ..)

/-- A command that is no RESET leaves the Judges as they are. -/
theorem carryOut (b : BufId) (x : Bool) (c : Cmd) (s : State) (goes : c ≠ .reset) : Steady p s (carryOut b x c s) := by
  cases c
  case copy => exact of_same rfl rfl rfl rfl rfl
  case clear => exact of_same rfl rfl rfl rfl rfl
  case readEntry => exact of_same rfl rfl rfl rfl rfl
  case readStream => exact of_same rfl rfl rfl rfl rfl
  case probe => exact of_same rfl rfl rfl rfl rfl
  case writeEntry => exact of_same rfl rfl rfl rfl rfl
  case invalidate => exact of_same rfl rfl rfl rfl rfl
  case readStatus => exact complete _ _ _ s
  case readWindow => exact complete _ _ _ s
  case keepalive => exact complete _ _ _ s
  case writeWindow =>
    exact (of_same rfl rfl rfl rfl rfl : Steady p s (writeShadowWindow _ _ s)).trans (complete _ _ _ _)
  case commitNow => exact (swapBanks s).trans (complete _ _ _ _)
  case schedule i =>
    unfold Machine.carryOut carrySchedule
    dsimp only
    split
    · refine .trans (t := s.setCommit { s.commit with phase := .scheduled i }) ?_ (complete _ _ _ _)
      exact of_same rfl rfl rfl rfl rfl
    · exact complete _ _ _ s
  case cancel =>
    refine .trans (t := s.setCommit { s.commit with phase := .idle }) ?_ (complete _ _ _ _)
    exact of_same rfl rfl rfl rfl rfl
  case setTime day weekday hour minute second =>
    have set : Steady p s (s.setCal (s.cal.set day weekday hour minute second)) := of_same rfl rfl rfl rfl rfl
    exact (set.trans (fullEvaluation _ _)).trans (complete _ _ _ _)
  case setConfig code present v =>
    unfold Machine.carryOut carrySetConfig
    dsimp only
    split
    · exact complete _ _ _ s
    · split
      · exact complete _ _ _ s
      · exact (acceptSetting _ _ s).trans (complete _ _ _ _)
  case refillControl a => exact (timerAct a s).trans (complete _ _ _ _)
  case clearCounters low high =>
    exact (setPolicer _ s).trans (complete _ _ _ _)
  case drain => exact (out (drainRecords_out _ s)).trans (complete _ _ _ _)
  case clearAlerts => exact (out (clearFlags_out _ s)).trans (complete _ _ _ _)
  case flush scope => exact (flushHeld scope s).trans (complete _ _ _ _)
  case reset => exact absurd rfl goes

/-- A command leaves the Judges as they are, or resets the gate. -/
theorem startCommand (b : BufId) (s : State) :
    Steady p s (startCommand b s) ∨ startCommand b s = warmReset .command (reload s) := by
  have reloaded : Steady p s (reload s) := of_same rfl rfl rfl rfl rfl
  unfold Machine.startCommand
  split
  · unfold executeCommand
    dsimp only
    split
    · exact .inl (reloaded.trans (complete _ _ _ _))
    · exact .inl (reloaded.trans (complete _ _ _ _))
    · next c _ =>
      by_cases reset : c = .reset
      · subst reset
        exact .inr rfl
      · exact .inl (reloaded.trans (carryOut b _ c _ reset))
  · exact .inl ((complete _ _ _ s).trans (out (handOver_out _ _)))

end Steady

end Sys2Proof.Machine
end

section
/-! SUPPORT. A Judge that nothing asks for a rejudge (R20, R41, R115, log 14). -/

namespace Sys2Proof.Machine

/-! ### Which consequence is taken -/

/-- The first of two that gives something, with the other not asked or asked in vain. -/
theorem orElse_cases {α : Type} {a b : Option α} {x : α} (found : (a <|> b) = some x) :
    a = some x ∨ a = none ∧ b = some x := by
  cases a with
  | none => exact .inr ⟨rfl, found⟩
  | some y => exact .inl found

/-- What neither port does. -/
theorem neither {P : Port → Prop} (near : P .n) (far : P .f) : ∀ q, P q := by
  intro q
  cases q with
  | n => exact near
  | f => exact far

/-- The last of the consequences: a telegram taken, or the table port freed. -/
def TakesOrOpens (s t : State) : Prop :=
  (∃ q, takeArrival q s = some t) ∨ (∀ q, takeArrival q s = none) ∧ openPort s = some t

/-- The consequences after the requests have been placed and taken. -/
def BeginsOrTakes (s t : State) : Prop :=
  beginCommand s = some t ∨ beginCommand s = none ∧ TakesOrOpens s t

theorem takesOrOpens_of {s t : State} (follows : (takeArrival .n s <|> takeArrival .f s <|> openPort s) = some t) :
    TakesOrOpens s t := by
  rcases orElse_cases follows with taken | ⟨near, follows⟩
  · exact .inl ⟨.n, taken⟩
  rcases orElse_cases follows with taken | ⟨far, opened⟩
  · exact .inl ⟨.f, taken⟩
  · exact .inr ⟨neither near far, opened⟩

/-- The consequence that is taken, with those before it that are not. -/
theorem consequence_taken {s t : State} (follows : consequence s = some t) : grant s = some t ∨
    (∃ q, endReached q s = some t) ∨ (∀ q, endReached q s = none) ∧ ((∃ q, placeRequest q s = some t) ∨
      (∀ q, placeRequest q s = none) ∧ ((∃ q, takeSlot q s = some t) ∨ BeginsOrTakes s t)) := by
  unfold consequence at follows
  rcases orElse_some follows with granted | follows
  · exact .inl granted
  refine .inr ?_
  rcases orElse_cases follows with ended | ⟨near, follows⟩
  · exact .inl ⟨.n, ended⟩
  rcases orElse_cases follows with ended | ⟨far, follows⟩
  · exact .inl ⟨.f, ended⟩
  refine .inr ⟨neither near far, ?_⟩
  rcases orElse_cases follows with placed | ⟨near, follows⟩
  · exact .inl ⟨.n, placed⟩
  rcases orElse_cases follows with placed | ⟨far, follows⟩
  · exact .inl ⟨.f, placed⟩
  refine .inr ⟨neither near far, ?_⟩
  rcases orElse_some follows with taken | follows
  · exact .inl ⟨.n, taken⟩
  rcases orElse_some follows with taken | follows
  · exact .inl ⟨.f, taken⟩
  refine .inr ?_
  rcases orElse_cases follows with begun | ⟨quiet, follows⟩
  · exact .inl begun
  · exact .inr ⟨quiet, takesOrOpens_of follows⟩

/-- Where nothing follows, none of the consequences does. -/
theorem consequence_none {s : State} (none : consequence s = none) : Settled s := by
  unfold Settled
  rw [none]
  rfl

theorem takeArrival_none_iff {p : Port} {s : State} :
    takeArrival p s = none ↔ ((s.judges.get p).phase = .idle → (s.judges.get p).arrivals = []) := by
  unfold takeArrival
  split
  · next idle arrivals =>
    rw [idle, arrivals]
    dsimp only
    split <;> simp
  · next other =>
    refine iff_of_true rfl fun idle => ?_
    cases arrivals : (s.judges.get p).arrivals with
    | nil => rfl
    | cons b rest => exact absurd arrivals (other b rest idle)

/-- Without a request to place, a port without one has no record to rejudge. -/
theorem unasked_of {p : Port} {s : State} (free : s.hold.outstanding.get p = none) (places : placeRequest p s = none) :
    ∀ r ∈ s.hold.records, ¬Requestable p r :=
  fun _ held requestable => placeRequest_due free held requestable places

/-! ### What asks nothing of a Judge -/

/-- `t` has no request for the Judge of a port, and no work for the Agent, that `s` has not. -/
structure Calm (p : Port) (s t : State) : Prop where
  slot : (s.judges.get p).slot = none → (t.judges.get p).slot = none
  outstanding : s.hold.outstanding.get p = none → t.hold.outstanding.get p = none
  records : ∀ r ∈ t.hold.records, r ∈ s.hold.records
  agent : t.agent = s.agent
  ready : t.store.phase = s.store.phase
  others : ∀ q, q ≠ p → takeArrival q s = none → takeArrival q t = none

namespace Calm
variable {p q : Port} {s t u : State}

theorem trans (a : Calm p s t) (b : Calm p t u) : Calm p s u where
  slot empty := b.slot (a.slot empty)
  outstanding free := b.outstanding (a.outstanding free)
  records r held := a.records r (b.records r held)
  agent := b.agent.trans a.agent
  ready := b.ready.trans a.ready
  others q apart none := b.others q apart (a.others q apart none)

theorem removal (h : Removal s t) : Calm p s t where
  slot := (Steady.removal h).slot
  outstanding := (Steady.removal h).outstanding
  records _ held := h.records.subset held
  agent := h.agent
  ready := by rw [h.store]
  others _ _ none := h.takeArrival none

/-- What touches the Judge of the port alone, and leaves its slot. -/
theorem of_mine (slot : (t.judges.get p).slot = (s.judges.get p).slot)
    (others : ∀ q, q ≠ p → t.judges.get q = s.judges.get q) (hold : t.hold = s.hold) (agent : t.agent = s.agent)
    (ready : t.store.phase = s.store.phase) : Calm p s t where
  slot empty := slot.trans empty
  outstanding free := by rw [hold]; exact free
  records r held := by rw [hold] at held; exact held
  agent := agent
  ready := ready
  others q apart none := takeArrival_none_congr q (others q apart) none

theorem refuseTelegram (p q : Port) (b : BufId) (l : List Byte) (reason : Reason) (i : Option Index) (s : State) :
    Calm p s (refuseTelegram q b l reason i s) := by
  have held := refuseTelegram_held q b l reason i s
  obtain ⟨judges, hold⟩ := Dropped_frame q b l reason i s
  exact of_mine (by rw [← Dropped_eq, judges]) (fun _ _ => by rw [← Dropped_eq, judges]) hold held.agent
    (by rw [held.store])

theorem placeRequest (apart : p ≠ q) (placed : placeRequest q s = some t) :
    Calm p s t ∧ t.judges.get p = s.judges.get p := by
  obtain ⟨-, r, -, rfl⟩ := placeRequest_some placed
  have mine : (s.judges.set q { s.judges.get q with slot := some r.ref }).get p = s.judges.get p := get_set_apart apart
  refine ⟨⟨fun empty => ?_, fun free => (get_set_apart apart).trans free, fun _ held => held, rfl, rfl,
    fun k _ none => ?_⟩, mine⟩
  · rw [mine]
    exact empty
  · rw [takeArrival_none_iff] at none ⊢
    rw [PerPort.get_set]
    split
    · next here =>
      rw [here] at none
      exact none
    · exact none

theorem takeSlot (apart : p ≠ q) (taken : takeSlot q s = some t) :
    Calm p s t ∧ t.judges.get p = s.judges.get p := by
  have mine {j : Judge} : (s.judges.set q j).get p = s.judges.get p := get_set_apart apart
  have others {j : Judge} (phase : j.phase = .idle → (s.judges.get q).phase = .idle)
      (arrivals : j.arrivals = (s.judges.get q).arrivals) (k : Port) (quiet : takeArrival k s = none) :
      takeArrival k { s with judges := s.judges.set q j } = none := by
    rw [takeArrival_none_iff] at quiet ⊢
    rw [PerPort.get_set]
    split
    · next here =>
      rw [here] at quiet
      exact fun idle => arrivals.trans (quiet (phase idle))
    · exact quiet
  obtain ⟨-, n, -, ⟨r, -, rfl⟩ | ⟨-, rfl⟩⟩ := takeSlot_some taken
  · refine ⟨⟨fun empty => ?_, id, fun _ held => held, rfl, rfl, fun k _ quiet => ?_⟩, mine⟩
    · rw [mine]
      exact empty
    · exact others (j := { s.judges.get q with slot := none, phase := .waiting _ }) (fun idle => nomatch idle) rfl k quiet
  · refine ⟨⟨fun empty => ?_, fun free => (get_set_apart apart).trans free, fun _ held => held, rfl, rfl,
      fun k _ quiet => ?_⟩, mine⟩
    · rw [mine]
      exact empty
    · have taken := others (j := { s.judges.get q with slot := none }) id rfl k quiet
      rw [takeArrival_none_iff] at taken ⊢
      exact taken

theorem grant (granted : grant s = some t) : Calm p s t ∧
    (takeArrival p s = none → takeArrival p t = none) ∧
      ((s.judges.get p).phase = .idle → (t.judges.get p).phase = .idle) := by
  obtain ⟨hold, -, -, judges, -⟩ := grant_leaves granted
  obtain ⟨agent, ready⟩ := grant_keeps granted
  have takes (k : Port) (quiet : takeArrival k s = none) : takeArrival k t = none := by
    rw [takeArrival_none_iff] at quiet ⊢
    rcases judges k with same | ⟨it, -, looks⟩
    · rw [same]
      exact quiet
    · rw [looks]
      exact nofun
  refine ⟨⟨fun empty => ?_, fun free => by rw [hold]; exact free, fun r held => by rw [hold] at held; exact held,
    agent, ready, fun k _ => takes k⟩, takes p, fun idle => ?_⟩
  · rcases judges p with same | ⟨it, -, looks⟩
    · rw [same]
      exact empty
    · rw [looks]
      exact empty
  · rcases judges p with same | ⟨it, waits, -⟩
    · rw [same]
      exact idle
    · rw [idle] at waits
      cases waits

end Calm

/-! ### A Judge at rest -/

/-- Nothing asks the Judge of a port for a rejudge, and it has nothing to turn to; where `e`, it is IDLE. -/
structure Resting (p : Port) (e : Prop) (s : State) : Prop where
  slot : (s.judges.get p).slot = none
  outstanding : s.hold.outstanding.get p = none
  unasked : ∀ r ∈ s.hold.records, ¬Requestable p r
  commands : beginCommand s = none
  arrivals : ∀ q, takeArrival q s = none
  idle : e → (s.judges.get p).phase = .idle

namespace Resting
variable {p : Port} {e : Prop} {s t : State}

theorem calm (h : Resting p e s) (calm : Calm p s t) (mine : takeArrival p t = none)
    (idle : e → (t.judges.get p).phase = .idle) : Resting p e t where
  slot := calm.slot h.slot
  outstanding := calm.outstanding h.outstanding
  unasked r held := h.unasked r (calm.records r held)
  commands := beginCommand_none_congr (by rw [calm.agent]) (by rw [calm.agent]) calm.ready h.commands
  arrivals q := by
    by_cases here : q = p
    · rw [here]
      exact mine
    · exact calm.others q here (h.arrivals q)
  idle := idle

theorem removal (h : Resting p e s) (removed : Removal s t) : Resting p e t :=
  h.calm (.removal removed) (removed.takeArrival (h.arrivals p)) fun is => (removed.phase p).trans (h.idle is)

theorem apart (h : Resting p e s) (calm : Calm p s t) (mine : t.judges.get p = s.judges.get p) : Resting p e t :=
  h.calm calm (takeArrival_none_congr p mine (h.arrivals p)) fun is => by rw [mine]; exact h.idle is

end Resting

/-! ### The end of a binding -/

theorem Removal.endBinding (p : Port) (c : BindContext) (s : State) : Removal s (endBinding p c s) := by
  have closed : Removal s (setBind p none s) := rebound_closed p s
  unfold Machine.endBinding
  dsimp only
  split
  · exact closed.trans (.dropBroken ..)
  · exact closed.trans (.handOver ..)
  · exact closed
  · exact closed

theorem endReached_some {p : Port} {s t : State} (ended : endReached p s = some t) :
    ∃ c, (s.judges.get p).bind = some c ∧ t = endBinding p c s := by
  unfold endReached at ended
  split at ended
  · cases ended
  · next c bind =>
    split at ended
    · exact ⟨c, bind, (Option.some.inj ended).symm⟩
    · cases ended

theorem openPort_some {s t : State} (opened : openPort s = some t) :
    t = s.setStore { s.store with port := .free } := by
  unfold openPort at opened
  split at opened
  · exact (Option.some.inj opened).symm
  all_goals cases opened

theorem takeSlot_empty {p : Port} {s : State} (empty : (s.judges.get p).slot = none) : takeSlot p s = none := by
  unfold takeSlot
  split
  · next named =>
    rw [empty] at named
    cases named
  · rfl

namespace Resting
variable {p : Port} {e : Prop} {s t : State}

theorem places (h : Resting p e s) : placeRequest p s = none :=
  (placeRequest_none_iff p s).2 <| .inr <| List.find?_eq_none.2 fun r held named => h.unasked r held <| by
    simp only [Bool.and_eq_true, beq_iff_eq] at named
    obtain ⟨⟨isFirst, pending⟩, port⟩ := named
    exact ⟨isFirst, pending, port⟩

/-- What follows at once leaves a Judge at rest. -/
theorem next (h : Resting p e s) (follows : consequence s = some t) : Resting p e t := by
  rcases consequence_taken follows with granted | ⟨q, ended⟩ | ⟨-, ⟨q, placed⟩ | ⟨-, ⟨q, taken⟩ | begun | ⟨-, taken⟩⟩⟩
  · obtain ⟨calm, takes, idle⟩ := Calm.grant (p := p) granted
    exact h.calm calm (takes (h.arrivals p)) fun is => idle (h.idle is)
  · obtain ⟨c, -, rfl⟩ := endReached_some ended
    exact h.removal (.endBinding q c s)
  · have apart : p ≠ q := fun same => by
      rw [← same, h.places] at placed
      cases placed
    obtain ⟨calm, mine⟩ := Calm.placeRequest apart placed
    exact h.apart calm mine
  · have apart : p ≠ q := fun same => by
      rw [← same, takeSlot_empty h.slot] at taken
      cases taken
    obtain ⟨calm, mine⟩ := Calm.takeSlot apart taken
    exact h.apart calm mine
  · rw [h.commands] at begun
    cases begun
  · rcases taken with ⟨q, taken⟩ | ⟨-, opened⟩
    · rw [h.arrivals] at taken
      cases taken
    · rw [openPort_some opened]
      exact h.apart (.of_mine rfl (fun _ _ => rfl) rfl rfl rfl) rfl

theorem settleFor (n : Nat) (h : Resting p e s) : Resting p e (settleFor n s) := by
  induction n generalizing s with
  | zero => exact h
  | succ n ih =>
    unfold Machine.settleFor
    split
    · next follows => exact ih (h.next follows)
    · exact h

theorem nextRequested {arrivals : List BufId} (h : Resting p (arrivals = []) s) : NextRequested p arrivals s := by
  refine ⟨fun _ => ⟨h.outstanding, h.slot, h.idle⟩, fun older r younger records requestable _ => ?_⟩
  refine absurd requestable (h.unasked r ?_)
  rw [records]
  exact List.mem_append_right _ List.mem_cons_self

end Resting

end Sys2Proof.Machine
end

section
/-! SUPPORT. The Judge that has ended a rejudge turns to its next item (R20, R22, R41, R46, R113, R115, log 14). -/

namespace Sys2Proof.Machine

/-! ### How long it may turn -/

/-- Whether a binding is open. -/
def opens (q : Port) (s : State) : Nat := if (s.judges.get q).bind = none then 0 else 1

/-- Whether a command is to begin. -/
def begins (s : State) : Nat := if (beginCommand s).isSome then 1 else 0

/-- How many consequences may come before the Judge of a port has its next item. -/
def turnsLeft (p : Port) (s : State) : Nat :=
  12 * (s.judges.get p).arrivals.length + 6 * begins s + 5 * (opens p s + opens (otherPort p) s) +
    workOf (otherPort p) s

section
variable {p q : Port} {s t : State}

theorem opens_le (bind : (s.judges.get q).bind = none → (t.judges.get q).bind = none) : opens q t ≤ opens q s := by
  unfold opens
  by_cases closed : (s.judges.get q).bind = none
  · rw [if_pos closed, if_pos (bind closed)]
  · rw [if_neg closed]
    split <;> omega

theorem opens_le_one (q : Port) (s : State) : opens q s ≤ 1 := by
  unfold opens
  split <;> omega

theorem begins_le (kept : beginCommand s = none → beginCommand t = none) : begins t ≤ begins s := by
  unfold begins
  cases before : beginCommand s with
  | none => rw [kept before]
  | some u =>
    rw [Option.isSome_some, if_pos rfl]
    split <;> omega

theorem begins_le_one (s : State) : begins s ≤ 1 := by
  unfold begins
  split <;> omega

theorem begins_none (none : beginCommand s = none) : begins s = 0 := by
  unfold begins
  rw [none]
  rfl

theorem workOf_le (q : Port) (s : State) : workOf q s ≤ 4 := by
  unfold workOf
  split <;> split <;> split <;> omega

/-- A request placed, or taken, is work done. -/
theorem placeRequest_work (placed : placeRequest q s = some t) : workOf q t < workOf q s := by
  obtain ⟨free, r, held, rfl⟩ := placeRequest_some placed
  have present : (s.heldRecord r.ref).isNone = false := Option.isNone_eq_false_iff.2 (heldRecord_isSome held)
  unfold State.heldRecord at present
  unfold workOf slotGone State.heldRecord
  simp only [PerPort.get_set_self, free, present, reduceCtorEq, Bool.false_eq_true, if_true, if_false]
  omega

theorem takeSlot_work (taken : takeSlot q s = some t) : workOf q t < workOf q s := by
  obtain ⟨idle, n, slot, ⟨r, -, rfl⟩ | ⟨gone, rfl⟩⟩ := takeSlot_some taken
  · unfold workOf slotGone
    simp only [PerPort.get_set_self, idle, reduceCtorEq, Bool.false_eq_true, if_true, if_false]
    omega
  · unfold workOf slotGone
    simp only [PerPort.get_set_self, idle, slot, gone, Option.isNone_none, Bool.false_eq_true, if_true, if_false]
    split <;> omega

theorem placeRequest_bind (placed : placeRequest q s = some t) (k : Port) :
    (t.judges.get k).bind = (s.judges.get k).bind := by
  obtain ⟨-, r, -, rfl⟩ := placeRequest_some placed
  rw [PerPort.get_set]
  split
  · next here => rw [here]
  · rfl

theorem takeSlot_bind (taken : takeSlot q s = some t) (k : Port) :
    (t.judges.get k).bind = (s.judges.get k).bind := by
  obtain ⟨-, n, -, ⟨r, -, rfl⟩ | ⟨-, rfl⟩⟩ := takeSlot_some taken
  all_goals
    rw [PerPort.get_set]
    split
    · next here => rw [here]
    · rfl

theorem eq_otherPort (apart : p ≠ q) : q = otherPort p := by
  cases p with
  | n => cases q with
    | n => exact absurd rfl apart
    | f => rfl
  | f => cases q with
    | n => rfl
    | f => exact absurd rfl apart

end

/-! ### A Judge that turns to its next item -/

/-- The Judge of a port is between two items, and nothing else follows but a command, a binding that ends and the
other port's request; where `e`, no telegram waits. -/
structure Turning (p : Port) (e : Prop) (s : State) : Prop where
  once : EachBufferOnce [] s
  port : s.store.port = .closing
  phase : (s.judges.get p).phase = .idle
  slot : (s.judges.get p).slot = none
  outstanding : s.hold.outstanding.get p = none
  others : ∀ q, q ≠ p → takeArrival q s = none
  commands : beginCommand s = none ∨
    (∃ b, s.agent.inbox = [b]) ∧ ∀ r ∈ s.hold.records, ¬Requestable p r
  empty : e → (s.judges.get p).arrivals = []

/-- `t` is nearer to the next item than `s`. -/
def Advances (p : Port) (e : Prop) (s t : State) : Prop := Turning p e t ∧ turnsLeft p t < turnsLeft p s

namespace Turning
variable {p q : Port} {e : Prop} {s t : State}

theorem kept (h : Turning p e s) (once : EachBufferOnce [] t) (calm : Calm p s t) (port : t.store.port = s.store.port)
    (phase : (t.judges.get p).phase = .idle) (empty : e → (t.judges.get p).arrivals = []) : Turning p e t where
  once := once
  port := port.trans h.port
  phase := phase
  slot := calm.slot h.slot
  outstanding := calm.outstanding h.outstanding
  others q apart := calm.others q apart (h.others q apart)
  commands := h.commands.imp
    (beginCommand_none_congr (by rw [calm.agent]) (by rw [calm.agent]) calm.ready)
    fun ⟨⟨b, inbox⟩, unasked⟩ => ⟨⟨b, by rw [calm.agent]; exact inbox⟩, fun r held => unasked r (calm.records r held)⟩
  empty := empty

theorem calm_begins (calm : Calm p s t) : begins t ≤ begins s :=
  begins_le (beginCommand_none_congr (by rw [calm.agent]) (by rw [calm.agent]) calm.ready)

/-- A binding that ends. -/
theorem endReached (h : Turning p e s) (ended : endReached q s = some t) : Advances p e s t := by
  have once := places_hands.events.endReached s t q ended h.once
  obtain ⟨c, bind, rfl⟩ := endReached_some ended
  have removed := Removal.endBinding q c s
  have calm : Calm p s (endBinding q c s) := .removal removed
  have arrivals := removed.arrivals p
  refine ⟨h.kept once calm (by rw [removed.store]) ((removed.phase p).trans h.phase)
    fun is => arrivals.trans (h.empty is), ?_⟩
  have closes (k : Port) : opens k (endBinding q c s) ≤ opens k s := opens_le ((Steady.removal (p := p) removed).bind k)
  have ends : opens q (endBinding q c s) < opens q s := by
    unfold opens
    rw [endBinding_closed, if_pos rfl, if_neg (by rw [bind]; exact Option.some_ne_none _)]
    exact Nat.one_pos
  have commands := calm_begins calm
  have work := workOf_le (otherPort p) (endBinding q c s)
  have mine := closes p
  have others := closes (otherPort p)
  unfold turnsLeft
  rw [arrivals]
  by_cases here : p = q
  · rw [← here] at ends mine others commands work ⊢
    omega
  · rw [eq_otherPort here] at ends mine others commands work ⊢
    omega

/-- Work done for the other port. -/
theorem apart (h : Turning p e s) (once : EachBufferOnce [] t) (calm : Calm p s t) (port : t.store.port = s.store.port)
    (mine : t.judges.get p = s.judges.get p) (bind : ∀ k, (t.judges.get k).bind = (s.judges.get k).bind)
    (work : workOf (otherPort p) t < workOf (otherPort p) s) : Advances p e s t := by
  refine ⟨h.kept once calm port (by rw [mine]; exact h.phase) fun is => by rw [mine]; exact h.empty is, ?_⟩
  have commands := calm_begins calm
  have same (k : Port) : opens k t = opens k s := by
    unfold opens
    rw [bind]
  unfold turnsLeft
  rw [mine, same, same]
  omega

theorem placeRequest (h : Turning p e s) (apart : p ≠ q) (placed : placeRequest q s = some t) : Advances p e s t := by
  have once := places_hands.events.placeRequest s t q placed h.once
  have work := placeRequest_work placed
  obtain ⟨calm, mine⟩ := Calm.placeRequest apart placed
  have port : t.store.port = s.store.port := by
    obtain ⟨-, r, -, rfl⟩ := placeRequest_some placed
    rfl
  rw [eq_otherPort apart] at work
  exact h.apart once calm port mine (placeRequest_bind placed) work

theorem takeSlot (h : Turning p e s) (apart : p ≠ q) (taken : takeSlot q s = some t) : Advances p e s t := by
  have once := places_hands.events.takeSlot s t q taken h.once
  have work := takeSlot_work taken
  obtain ⟨calm, mine⟩ := Calm.takeSlot apart taken
  have port : t.store.port = s.store.port := by
    obtain ⟨-, n, -, ⟨r, -, rfl⟩ | ⟨-, rfl⟩⟩ := takeSlot_some taken
    all_goals rfl
  rw [eq_otherPort apart] at work
  exact h.apart once calm port mine (takeSlot_bind taken) work

/-! ### A command -/

theorem rests_of_settled (settled : Settled t) (slot : (t.judges.get p).slot = none)
    (outstanding : t.hold.outstanding.get p = none) (idle : (t.judges.get p).phase = .idle) : Resting p e t where
  slot := slot
  outstanding := outstanding
  unasked := unasked_of outstanding (settled.placeRequest p)
  commands := settled.beginCommand
  arrivals := settled.takeArrival
  idle _ := idle

theorem reset_rests (ready : s.store.phase = .ready) : Resting p e (warmReset .command s) := by
  have settled := warmReset_settled .command ready
  obtain ⟨v, made, -⟩ := warmReset_eq .command s
  have judge : (warmReset .command s).judges.get p = judgeReset := by
    rw [made]
    cases p <;> rfl
  refine rests_of_settled settled (by rw [judge]; rfl) ?_ (by rw [judge]; rfl)
  rw [made]
  cases p <;> rfl

theorem beginCommand (h : Turning p e s) (begun : beginCommand s = some t) :
    Advances p e s t ∨ Resting p e t := by
  have once := places_hands.events.beginCommand begun h.once
  have commands : begins s = 1 := by
    unfold begins
    rw [begun]
    rfl
  obtain ⟨b, inbox⟩ : ∃ b, s.agent.inbox = [b] := by
    rcases h.commands with none | ⟨one, -⟩
    · rw [begun] at none
      cases none
    · exact one
  obtain ⟨ready, made⟩ : s.store.phase = .ready ∧ t = startCommand b (s.setAgent { s.agent with inbox := [] }) := by
    unfold Machine.beginCommand at begun
    split at begun
    · next c rest _ waits ready =>
      rw [inbox] at waits
      cases waits
      exact ⟨ready, (Option.some.inj begun).symm⟩
    · cases begun
  rcases Steady.startCommand (p := p) b (s.setAgent { s.agent with inbox := [] }) with steady | reset
  · left
    have after : Machine.beginCommand t = none := beginCommand_empty (by rw [made, steady.inbox]; rfl)
    rw [← made] at steady
    have takes (q : Port) (quiet : Machine.takeArrival q s = none) : Machine.takeArrival q t = none := by
      rw [takeArrival_none_iff] at quiet ⊢
      rw [steady.phase, steady.arrivals]
      exact quiet
    have arrivals : (t.judges.get p).arrivals = (s.judges.get p).arrivals := steady.arrivals p
    refine ⟨⟨once, steady.port.trans h.port, (steady.phase p).trans h.phase, steady.slot h.slot,
      steady.outstanding h.outstanding, fun q apart => takes q (h.others q apart), .inl after,
      fun is => arrivals.trans (h.empty is)⟩, ?_⟩
    have fewer := begins_none after
    have mine : opens p t ≤ opens p s := opens_le (steady.bind p)
    have other : opens (otherPort p) t ≤ opens (otherPort p) s := opens_le (steady.bind (otherPort p))
    have work := workOf_le (otherPort p) t
    unfold turnsLeft
    rw [arrivals]
    omega
  · right
    rw [made, reset]
    exact reset_rests ready

/-! ### A telegram (R20, R22, R46) -/

/-- A telegram taken that leaves the Judge IDLE. -/
theorem taken (h : Turning p e s) (once : EachBufferOnce [] t) {b : BufId}
    (arrivals : (s.judges.get p).arrivals = b :: (t.judges.get p).arrivals) (port : t.store.port = s.store.port)
    (phase : (t.judges.get p).phase = .idle) (slot : (t.judges.get p).slot = none)
    (outstanding : t.hold.outstanding.get p = none) (others : ∀ q, q ≠ p → Machine.takeArrival q t = none)
    (commands : Machine.beginCommand t = none ∨
      (∃ b, t.agent.inbox = [b]) ∧ ∀ r ∈ t.hold.records, ¬Requestable p r)
    (bind : ∀ k, (s.judges.get k).bind = none → (t.judges.get k).bind = none) : Advances p e s t := by
  have waits (is : e) : False := by
    rw [h.empty is] at arrivals
    cases arrivals
  refine ⟨⟨once, port.trans h.port, phase, slot, outstanding, others, commands, fun is => (waits is).elim⟩, ?_⟩
  have begun := begins_le_one t
  have mine := opens_le (bind p)
  have other := opens_le (bind (otherPort p))
  have work := workOf_le (otherPort p) t
  unfold turnsLeft
  rw [arrivals, List.length_cons]
  omega

end Turning

/-- A telegram that is no second waits for its lookup. -/
theorem bindFirst_waits (p : Port) (b : BufId) (s : State) : ∃ bind it, bindFirst p b s = waitsAs p bind it s := by
  by_cases bound : boundOf (s.buffer b).bytes = true
  · exact ⟨_, _, bindFirst_bound bound⟩
  · exact ⟨_, _, if_neg bound⟩

/-- A telegram that the bind test does not refuse waits for its lookup. -/
theorem bindTest_waits (p : Port) (b : BufId) (s : State) :
    (∃ bind it v, Removal s v ∧ bindTest p b s = waitsAs p bind it v) ∨
      bindTest p b s = refuseTelegram p b (s.buffer b).bytes .boundBroken none (rebound p none s) := by
  have first (v : State) (removed : Removal s v) : ∃ bind it v', Removal s v' ∧ bindFirst p b v = waitsAs p bind it v' := by
    obtain ⟨bind, it, waits⟩ := bindFirst_waits p b v
    exact ⟨bind, it, v, removed, waits⟩
  unfold bindTest
  split
  · exact .inl (first s (.refl s))
  · next c _ =>
    split
    · cases outcome : c.outcome with
      | passed l => exact .inl ⟨_, _, s, .refl s, bindSecond_passed outcome⟩
      | held n => exact .inl ⟨_, _, s, .refl s, bindSecond_held outcome⟩
      | refused =>
        right
        rw [bindSecond, outcome]
        rfl
      | pending =>
        refine .inl ⟨((rebound p none s).judges.get p).bind,
          .telegram b .plain (keyOf p ((rebound p none s).buffer b).bytes), rebound p none s, rebound_closed p s, ?_⟩
        rw [bindSecond, outcome]
        rfl
    · exact .inl (first _ (.endBinding p c s))

namespace Turning
variable {p q : Port} {e : Prop} {s t : State}

/-- The telegram taken from the arrivals. -/
def shortened (p : Port) (rest : List BufId) (s : State) : State := s.mapJudge p fun j => { j with arrivals := rest }

theorem shortened_mine (rest : List BufId) (s : State) :
    (shortened p rest s).judges.get p = { s.judges.get p with arrivals := rest } := PerPort.get_set_self ..

theorem shortened_other (apart : q ≠ p) (rest : List BufId) (s : State) :
    (shortened p rest s).judges.get q = s.judges.get q := get_set_apart apart

theorem takeArrival_some (taken : takeArrival p s = some t) : ∃ b rest, (s.judges.get p).arrivals = b :: rest ∧
    (t = disposeOwn p b (shortened p rest s) ∨ t = bindTest p b (shortened p rest s)) := by
  unfold takeArrival at taken
  split at taken
  · next b rest _ arrivals =>
    refine ⟨b, rest, arrivals, ?_⟩
    dsimp only at taken
    split at taken
    · exact .inl (Option.some.inj taken).symm
    · exact .inr (Option.some.inj taken).symm
  · cases taken

/-- A telegram refused before its lookup. -/
theorem refused (h : Turning p e s) (none : Machine.beginCommand s = none) {b : BufId} {rest : List BufId} {x : State}
    {l : List Byte} {reason : Reason} {i : Option Index} (once : EachBufferOnce [] (refuseTelegram p b l reason i x))
    (arrivals : (s.judges.get p).arrivals = b :: rest) (removed : Removal (shortened p rest s) x) :
    Advances p e s (refuseTelegram p b l reason i x) := by
  have calm : Calm p s (shortened p rest s) :=
    .of_mine (by rw [shortened_mine]) (fun _ apart => shortened_other apart rest s) rfl rfl rfl
  have all := (calm.trans (.removal removed)).trans (.refuseTelegram p p b l reason i x)
  have held := refuseTelegram_held p b l reason i x
  obtain ⟨judges, -⟩ := Dropped_frame p b l reason i x
  rw [Dropped_eq] at judges
  have short : ((refuseTelegram p b l reason i x).judges.get p).arrivals = rest := by
    rw [judges, removed.arrivals, shortened_mine]
  refine h.taken once (b := b) (by rw [short, arrivals]) ?_ ?_ (all.slot h.slot) (all.outstanding h.outstanding)
    (fun q apart => all.others q apart (h.others q apart))
    (.inl (beginCommand_none_congr (by rw [all.agent]) (by rw [all.agent]) all.ready none)) fun k closed => ?_
  · rw [held.store, removed.store]
    rfl
  · rw [judges, removed.phase, shortened_mine]
    exact h.phase
  · rw [judges]
    refine (Steady.removal (p := p) removed).bind k ?_
    by_cases here : k = p
    · rw [here, shortened_mine]
      rw [here] at closed
      exact closed
    · rw [shortened_other here]
      exact closed

/-- A command behind others begins no sooner than they. -/
theorem beginCommand_behind (none : Machine.beginCommand s = none) (exec : t.agent.exec = s.agent.exec)
    (ready : t.store.phase = s.store.phase) (waits : s.agent.inbox ≠ []) : Machine.beginCommand t = Option.none := by
  obtain ⟨c, l, inbox⟩ := List.exists_cons_of_ne_nil waits
  unfold Machine.beginCommand at none ⊢
  rw [exec, ready]
  split
  · next idle _ runs =>
    rw [idle, inbox, runs] at none
    cases none
  · rfl

/-- A command taken to the inbox. -/
theorem commanded (h : Turning p e s) (unasked : ∀ r ∈ s.hold.records, ¬Requestable p r)
    (none : Machine.beginCommand s = none) {b : BufId} {rest : List BufId}
    (arrivals : (s.judges.get p).arrivals = b :: rest)
    (made : t = (shortened p rest s).setAgent { s.agent with inbox := s.agent.inbox ++ [b] })
    (once : EachBufferOnce [] t) : Advances p e s t := by
  have mine : t.judges.get p = { s.judges.get p with arrivals := rest } := by
    rw [made]
    exact shortened_mine rest s
  have other (q : Port) (apart : q ≠ p) : t.judges.get q = s.judges.get q := by
    rw [made]
    exact shortened_other apart rest s
  have hold : t.hold = s.hold := by
    rw [made]
    rfl
  have inbox : t.agent.inbox = s.agent.inbox ++ [b] := by
    rw [made]
    rfl
  refine h.taken once (b := b) (by rw [mine, arrivals]) (by rw [made]; rfl) (by rw [mine]; exact h.phase)
    (by rw [mine]; exact h.slot) (by rw [hold]; exact h.outstanding)
    (fun q apart => takeArrival_none_congr q (other q apart) (h.others q apart)) ?_ fun k closed => ?_
  · by_cases waits : s.agent.inbox = []
    · refine .inr ⟨⟨b, by rw [inbox, waits]; rfl⟩, ?_⟩
      rw [hold]
      exact unasked
    · exact .inl (beginCommand_behind none (by rw [made]; rfl) (by rw [made]; rfl) waits)
  · by_cases here : k = p
    · rw [here] at closed ⊢
      rw [mine]
      exact closed
    · rw [other k here]
      exact closed

/-- A telegram that waits for its lookup leaves its Judge without a request. -/
theorem waits_rests (h : Turning p e s) (unasked : ∀ r ∈ s.hold.records, ¬Requestable p r)
    (none : Machine.beginCommand s = none) (left : (s.judges.get p).arrivals ≠ []) (bind : Option BindContext) (it : Item)
    (calm : Calm p s t) : Resting p e (waitsAs p bind it t) := by
  have waits : Calm p t (waitsAs p bind it t) :=
    .of_mine (by rw [waitsAs_same]) (fun _ apart => waitsAs_other apart) rfl rfl rfl
  have all := calm.trans waits
  refine ⟨all.slot h.slot, all.outstanding h.outstanding, fun r held => unasked r (all.records r held),
    beginCommand_none_congr (by rw [all.agent]) (by rw [all.agent]) all.ready none, fun q => ?_,
    fun is => absurd (h.empty is) left⟩
  by_cases here : q = p
  · rw [here, takeArrival_none_iff, waitsAs_same]
    exact fun idle => nomatch idle
  · exact all.others q here (h.others q here)

theorem takeArrival (h : Turning p e s) (unasked : ∀ r ∈ s.hold.records, ¬Requestable p r)
    (none : Machine.beginCommand s = none) (taken : takeArrival p s = some t) :
    Advances p e s t ∨ Resting p e t := by
  have once := places_hands.events.takeArrival s t p taken h.once
  obtain ⟨b, rest, arrivals, made⟩ := takeArrival_some taken
  rcases made with rfl | rfl
  · left
    have refuses (reason : Reason) (same : disposeOwn p b (shortened p rest s) = refuseTelegram p b
        ((shortened p rest s).buffer b).bytes reason .none (shortened p rest s)) :
        Advances p e s (disposeOwn p b (shortened p rest s)) := by
      rw [same] at once ⊢
      exact h.refused none once arrivals (.refl _)
    by_cases admitted : commandAdmitted (shortened p rest s).agent.settings p
        (classOf ((shortened p rest s).buffer b).bytes) = true
    · by_cases room : (shortened p rest s).agent.inbox.length < 4
      · exact h.commanded unasked none arrivals ((if_pos admitted).trans (if_pos room)) once
      · exact refuses .mgmtOverrun ((if_pos admitted).trans (if_neg room))
    · exact refuses .mgmtRefused (if_neg admitted)
  · rcases bindTest_waits p b (shortened p rest s) with ⟨bind, it, v, removed, waits⟩ | refused
    · right
      rw [waits]
      have calm : Calm p s (shortened p rest s) :=
        .of_mine (by rw [shortened_mine]) (fun _ apart => shortened_other apart rest s) rfl rfl rfl
      exact h.waits_rests unasked none (by rw [arrivals]; exact List.cons_ne_nil _ _) bind it
        (calm.trans (.removal removed))
    · left
      rw [refused] at once ⊢
      exact h.refused none once arrivals (rebound_closed ..)

end Turning

end Sys2Proof.Machine
end

section
/-! SUPPORT. What a Judge that has ended a rejudge has next (R20, R41, R115). -/

namespace Sys2Proof.Machine

section
variable {p : Port} {e : Prop} {s t : State} {arrivals : List BufId}

/-- The request for the oldest record that one may name. -/
theorem requested_oldest {older younger : List HeldRecord} {r : HeldRecord} (free : s.hold.outstanding.get p = none)
    (records : s.hold.records = older ++ r :: younger) (requestable : Requestable p r)
    (first : ∀ q ∈ older, ¬Requestable p q) : Requested p s = { s with
      judges := s.judges.set p { s.judges.get p with slot := some r.ref }
      hold := { s.hold with outstanding := s.hold.outstanding.set p (some ⟨r.ref, false⟩) } } := by
  have named (q : HeldRecord) : (q.isFirst && q.pending && q.port == p) = true ↔ Requestable p q := by
    unfold Requestable
    simp only [Bool.and_eq_true, beq_iff_eq, and_assoc]
  have found : s.hold.records.find? (fun q => q.isFirst && q.pending && q.port == p) = some r := by
    rw [records, List.find?_append, List.find?_eq_none.2 fun q hq => mt (named q).1 (first q hq)]
    exact List.find?_cons_of_pos (p := fun q : HeldRecord => q.isFirst && q.pending && q.port == p)
      ((named r).2 requestable)
  unfold Requested
  rw [free, found]

/-- Where only requests follow, the oldest record that one may name is the Judge's next item. -/
theorem FollowsOnly.nextRequested (follows : FollowsOnly s t) (distinct : RefsDistinct s)
    (idle : (s.judges.get p).phase = .idle) (slot : (s.judges.get p).slot = none)
    (free : s.hold.outstanding.get p = none) (asked : ∃ r ∈ s.hold.records, Requestable p r) :
    NextRequested p arrivals t := by
  have same : t.hold.records = s.hold.records := by rw [follows.frame.2.2.1]
  have unnamed (x : (s.judges.get p).phase = .idle) (n : Nat) (named : (s.judges.get p).slot = some n) :
      ∃ r ∈ s.hold.records, r.ref = n := by
    rw [slot] at named
    cases named
  obtain ⟨outstanding, -⟩ := follows.2.1 p unnamed
  refine ⟨fun none => ?_, fun older r younger records requestable first => ?_⟩
  · obtain ⟨r, held, requestable⟩ := asked
    exact absurd requestable (none r (by rw [same]; exact held))
  · rw [same] at records
    have made := requested_oldest free records requestable first
    have held : r ∈ s.hold.records := by
      rw [records]
      exact List.mem_append_right _ List.mem_cons_self
    rw [made] at outstanding
    refine ⟨outstanding.trans (PerPort.get_set_self ..), ?_⟩
    have taken := follows.taken (p := p) (r := r) (by rw [made, PerPort.get_set_self]; exact idle)
      (by rw [made, PerPort.get_set_self]) (heldRecord_mem distinct.1 held) (by rw [made]; exact ⟨rfl, rfl⟩) unnamed
    exact taken.2

end

namespace Turning
variable {p : Port} {e : Prop} {s t : State} {arrivals : List BufId}

/-- A record that may be rejudged comes before the telegrams. -/
theorem asked (h : Turning p e s) (bindings : ∀ q, Machine.endReached q s = none)
    (asked : ∃ r ∈ s.hold.records, Requestable p r) {n : Nat} (enough : 10 ≤ n) :
    NextRequested p arrivals (Machine.settleFor n s) := by
  have commands : Machine.beginCommand s = none := h.commands.resolve_right fun ⟨_, unasked⟩ => by
    obtain ⟨r, held, requestable⟩ := asked
    exact unasked r held requestable
  have follows := settleFor_ahead n enough h.phase bindings commands h.others (.inr ⟨h.outstanding, asked⟩)
  exact follows.nextRequested h.once.2 h.phase h.slot h.outstanding asked

/-- Without one, what follows brings the Judge nearer to its next item, or leaves it at rest. -/
theorem next (h : Turning p e s) (unasked : (∀ q, Machine.endReached q s = none) → ∀ r ∈ s.hold.records, ¬Requestable p r)
    (follows : consequence s = some t) : Advances p e s t ∨ Resting p e t := by
  rcases consequence_taken follows with
    granted | ⟨q, ended⟩ | ⟨bindings, ⟨q, placed⟩ | ⟨-, ⟨q, taken⟩ | begun | ⟨none, taken⟩⟩⟩
  · rw [grant_busy (by rw [h.port]; exact nofun)] at granted
    cases granted
  · exact .inl (h.endReached ended)
  · have apart : p ≠ q := by
      rintro rfl
      have due := placed
      unfold Machine.placeRequest at due
      split at due
      · next r _ named =>
        have held := List.mem_of_find?_eq_some named
        have asks := List.find?_some named
        simp only [Bool.and_eq_true, beq_iff_eq] at asks
        obtain ⟨⟨isFirst, pending⟩, port⟩ := asks
        exact unasked bindings r held ⟨isFirst, pending, port⟩
      · cases due
    exact .inl (h.placeRequest apart placed)
  · have apart : p ≠ q := by
      rintro rfl
      rw [takeSlot_empty h.slot] at taken
      cases taken
    exact .inl (h.takeSlot apart taken)
  · exact h.beginCommand begun
  · rcases taken with ⟨q, taken⟩ | ⟨empty, opened⟩
    · by_cases here : q = p
      · subst here
        exact h.takeArrival (unasked bindings) none taken
      · rw [h.others q here] at taken
        cases taken
    · right
      have rests : Resting p e s := ⟨h.slot, h.outstanding, unasked bindings, none, empty, fun _ => h.phase⟩
      exact rests.next follows

/-- The next item of a Judge that has ended a rejudge is the oldest record that may be rejudged, if there is one. -/
theorem nextRequested (n : Nat) (h : Turning p (arrivals = []) s) (enough : turnsLeft p s + 10 ≤ n) :
    NextRequested p arrivals (Machine.settleFor n s) := by
  induction n generalizing s with
  | zero => omega
  | succ n ih =>
    by_cases asked : (∀ q, Machine.endReached q s = none) ∧ ∃ r ∈ s.hold.records, Requestable p r
    · obtain ⟨bindings, asked⟩ := asked
      exact h.asked bindings asked (by omega)
    · have unasked (bindings : ∀ q, Machine.endReached q s = none) (r : HeldRecord) (held : r ∈ s.hold.records)
          (requestable : Requestable p r) : False := asked ⟨bindings, r, held, requestable⟩
      cases follows : consequence s with
      | none =>
        have settled := consequence_none follows
        have rests : Resting p (arrivals = []) s :=
          ⟨h.slot, h.outstanding, unasked_of h.outstanding (settled.placeRequest p), settled.beginCommand,
            settled.takeArrival, fun _ => h.phase⟩
        exact (rests.settleFor (n + 1)).nextRequested
      | some t =>
        rw [settleFor_succ n follows]
        rcases h.next unasked follows with ⟨turning, nearer⟩ | rests
        · exact ih turning (by omega)
        · exact (rests.settleFor n).nextRequested

end Turning

/-- The arrivals of a Judge are no more than the buffers. -/
theorem arrivals_le (p : Port) {s : State} (once : EachBufferOnce [] s) : (s.judges.get p).arrivals.length ≤ 64 := by
  have all : (places s).length = 64 := once.1.length_eq.trans (List.length_finRange ..)
  have mine : (s.judges.get p).arrivals.length ≤ (places s).length := by
    unfold places judgePlaces
    simp only [List.length_append]
    cases p with
    | n =>
      change s.judges.n.arrivals.length ≤ _
      omega
    | f =>
      change s.judges.f.arrivals.length ≤ _
      omega
  omega

theorem turnsLeft_le (p : Port) {s : State} (once : EachBufferOnce [] s) : turnsLeft p s + 10 ≤ 1024 := by
  have waits := arrivals_le p once
  have commands := begins_le_one s
  have mine := opens_le_one p s
  have other := opens_le_one (otherPort p) s
  have work := workOf_le (otherPort p) s
  unfold turnsLeft
  omega

end Sys2Proof.Machine
end

section
/-! SUPPORT. The conclusion of a lookup that meets an uncorrectable row (R20 to R23, R26, R40 to R42, R46, R48, R50, R97,
R116, R117, R121). -/

namespace Sys2Proof.Machine

/-! ### What is told beside the refusal -/

/-- A refusal, with TABLE_FAULT told before it or after it. -/
structure Told (p : Port) (o : RiseOrder) (x : State) (refusal : State → State) (t : State) : Prop where
  first : o = .flagFirst → Concludes p (refusal (tell .tableFault x)) t
  last : o = .recordsFirst → Concludes p (tell .tableFault (refusal x)) t

section
variable {p : Port} {o : RiseOrder} {x s t : State} {f g refusal : State → State}

theorem withFault_congr (told : f (tell .tableFault x) = g (tell .tableFault x)) (quiet : f x = g x) :
    withFault o f x = withFault o g x := by
  cases o with
  | flagFirst => exact told
  | recordsFirst => exact congrArg (tell .tableFault) quiet

theorem Told.of (concludes : Concludes p (withFault o refusal x) t) : Told p o x refusal t := by
  cases o with
  | flagFirst => exact ⟨fun _ => concludes, nofun⟩
  | recordsFirst => exact ⟨nofun, fun _ => concludes⟩

theorem Told.congr (h : Told p o x f t) (told : f (tell .tableFault x) = g (tell .tableFault x)) (quiet : f x = g x) :
    Told p o x g t := ⟨fun first => told ▸ h.first first, fun last => quiet ▸ h.last last⟩

theorem KeepsJudging.withFault (before : KeepsJudging s x) (keeps : ∀ u, KeepsJudging u (f u)) :
    KeepsJudging s (withFault o f x) := by
  cases o with
  | flagFirst => exact (before.trans (.tell ..)).trans (keeps _)
  | recordsFirst => exact (before.trans (keeps _)).trans (.tell ..)

end

/-! ### The poisoned row -/

/-- The gate after the reads of a lookup whose row is uncorrectable. -/
abbrev faulted (bank : Bank) (i : Index) (n d : Nat) (s : State) : State :=
  Poisoned bank i (afterReads ⟨.fault i, n, d⟩ s)

section
variable {p : Port} {s : State} {it : Item} {key : LookupKey} {bank : Bank} {i : Index} {n d : Nat}
  {b : BufId} {l : List Byte}

theorem KeepsJudging.faulted (bank : Bank) (i : Index) (n d : Nat) (s : State) : KeepsJudging s (faulted bank i n d s) :=
  .of_judges rfl rfl rfl fun _ => rfl

/-- A lookup that meets an uncorrectable row ends in the refusal of what was judged. -/
theorem exec_fault (phase : (s.judges.get p).phase = .lookup it bank) (found : lookup bank it.key s = ⟨.fault i, n, d⟩)
    (o : RiseOrder) : exec (.lookupConclusion p o) s =
      .next (settle (freed p (withFault o (concludeItem p it bank (.fault i)) (faulted bank i n d s)))) := by
  rw [exec_lookupConclusion phase, concludeLookup_fault found]

/-- The telegram in judgement stays as it is where TABLE_FAULT is told. -/
theorem told_bytes (used : b ∉ s.pool.free) (bytes : (s.buffer b).bytes = l) :
    ((faulted bank i n d s).buffer b).bytes = l ∧
      ((tell .tableFault (faulted bank i n d s)).buffer b).bytes = l := by
  have told := SparesBuffer.told b .tableFault (s := s) (t := faulted bank i n d s) rfl used
  exact ⟨bytes, by rw [told.2, bytes]⟩

/-- A telegram in judgement is in no other place. -/
theorem judged_used (once : EachBufferInOnePlace s) (phase : judgedBuffer (s.judges.get p).phase = some b) :
    b ∉ s.pool.free := by
  have distinct : (places s).Nodup := once.nodup_iff.2 (List.nodup_finRange 64)
  have judged : b ∈ judgePlaces (s.judges.get p) := by
    unfold judgePlaces
    rw [phase]
    exact List.mem_append_right _ (List.mem_singleton_self _)
  intro free
  unfold places at distinct
  simp only [List.append_assoc] at distinct
  refine (List.nodup_append.1 distinct).2.2 b free b ?_ rfl
  cases p with
  | n => simp [show b ∈ judgePlaces s.judges.n from judged]
  | f => simp [show b ∈ judgePlaces s.judges.f from judged]

/-! ### The second of a binding -/

section
variable {role : JudgedAs} {arrivals : List BufId} {slot : Option Nat} {first : Option Particulars} {list : ListKind}
  {m : Nat}

/-- A second is refused, and its first broken where it is held. -/
theorem SecondInHand.fault (h : SecondInHand p b role arrivals slot key bank s) (once : EachBufferInOnePlace s)
    (bytes : (s.buffer b).bytes = l) (found : lookup bank key s = ⟨.fault i, n, d⟩) (o : RiseOrder) :
    ∃ t, Machine.exec (.lookupConclusion p o) s = .next t ∧
      (∀ list first, role = .secondPassed list first →
        Told p o (faulted bank i n d s) (Dropped p b l .tableFault none) t) ∧
      ∀ m first, role = .secondHeld m first →
        Told p o (faulted bank i n d s) (fun u => dropBroken m (Dropped p b l .tableFault none u)) t := by
  have second := h
  obtain ⟨judge, -, -⟩ := second
  have phase : (s.judges.get p).phase = .lookup (.telegram b role key) bank := by rw [judge]
  have used : b ∉ s.pool.free := judged_used once (by rw [phase]; rfl)
  obtain ⟨quiet, told⟩ := told_bytes (bank := bank) (i := i) (n := n) (d := d) used bytes
  have keeps : KeepsJudging s (withFault o (concludeTelegram p b role bank (.fault i)) (faulted bank i n d s)) :=
    (KeepsJudging.faulted bank i n d s).withFault fun u => .concludeTelegram p b role bank _ u
  have concludes := h.concludes keeps
  refine ⟨_, exec_fault phase found o, fun list first role => ?_, fun m first role => ?_⟩
  · subst role
    refine (Told.of concludes).congr ?_ ?_
    · exact afterPassed_refused told rfl
    · exact afterPassed_refused quiet rfl
  · subst role
    refine (Told.of concludes).congr ?_ ?_
    · exact afterHeld_refused told rfl
    · exact afterHeld_refused quiet rfl

theorem Dropped_records (p : Port) (b : BufId) (l : List Byte) (s : State) :
    (Dropped p b l .tableFault none (faulted bank i n d s)).hold = s.hold ∧
      (Dropped p b l .tableFault none (tell .tableFault (faulted bank i n d s))).hold = s.hold := by
  have told := tell_out .tableFault (faulted bank i n d s)
  rw [(Dropped_frame ..).2, (Dropped_frame ..).2, told.hold]
  exact ⟨rfl, rfl⟩

theorem Told.gone {o : RiseOrder} {t : State} (h : Told p o (faulted bank i n d s)
    (fun u => dropBroken m (Dropped p b l .tableFault none u)) t) (gone : ∀ r ∈ s.hold.records, r.ref ≠ m) :
    Told p o (faulted bank i n d s) (Dropped p b l .tableFault none) t := by
  obtain ⟨quiet, told⟩ := Dropped_records (bank := bank) (i := i) (n := n) (d := d) p b l s
  exact h.congr (dropBroken_gone (by rw [told]; exact gone)) (dropBroken_gone (by rw [quiet]; exact gone))

theorem Told.held {o : RiseOrder} {t : State} {r : HeldRecord} (h : Told p o (faulted bank i n d s)
    (fun u => dropBroken r.ref (Dropped p b l .tableFault none u)) t) (distinct : RefsDistinct s)
    (held : r ∈ s.hold.records) :
    Told p o (faulted bank i n d s) (fun u => Removed .boundBroken r (Dropped p b l .tableFault none u)) t := by
  obtain ⟨quiet, told⟩ := Dropped_records (bank := bank) (i := i) (n := n) (d := d) p b l s
  exact h.congr (dropBroken_first (by rw [told]; exact distinct.1) (by rw [told]; exact held))
    (dropBroken_first (by rw [quiet]; exact distinct.1) (by rw [quiet]; exact held))

end

/-! ### A telegram that is no second -/

section
variable {role : JudgedAs} {arrivals : List BufId} {slot : Option Nat} {bind : Option BindContext} {x : State}

theorem tell_rebound (f : Flag) (p : Port) (c : Option BindContext) (x : State) :
    tell f (rebound p c x) = rebound p c (tell f x) := by
  have told := tell_judges f (rebound p c x).judges x
  unfold rebound at told ⊢
  rw [(tell_out f x).judges]
  exact told

/-- What is told leaves the outcome of a first. -/
theorem tell_writeOutcome (role : JudgedAs) (out : BindOutcome) (y : Particulars) (x : State) :
    tell .tableFault (writeOutcome p role out y x) = writeOutcome p role out y (tell .tableFault x) := by
  obtain ⟨c, written, same⟩ := writeOutcome_rebound p role out y x
  rw [written, same (tell .tableFault x) (by rw [(tell_out .tableFault x).judges])]
  exact tell_rebound ..

theorem tell_FirstConcluded (l : List Byte) (out : BindOutcome) (index : Option Index) (x : State) :
    tell .tableFault (FirstConcluded p l out index id x) = FirstConcluded p l out index id (tell .tableFault x) := by
  have judges := (tell_out .tableFault x).judges
  have uptimes := tell_uptimes .tableFault x
  have rebinds (c : Option BindContext) := tell_rebound .tableFault p c x
  have same (c : BindContext) : NoneInTime p c (tell .tableFault x) ↔ NoneInTime p c x := by
    unfold NoneInTime
    rw [judges]
    exact and_congr_right fun _ => forall₂_congr fun a _ => by rw [uptimes a]
  cases bind : (x.judges.get p).bind with
  | none =>
    rw [FirstConcluded_closed l out index id bind, FirstConcluded_closed l out index id (by rw [judges]; exact bind)]
  | some c =>
    have opened : ((tell .tableFault x).judges.get p).bind = some c := by rw [judges]; exact bind
    unfold FirstConcluded
    rw [opened, bind]
    dsimp only
    by_cases late : NoneInTime p c x
    · rw [if_pos late, if_pos ((same c).2 late)]
      exact rebinds none
    · rw [if_neg late, if_neg (mt (same c).1 late)]
      exact rebinds _

theorem OwnInHand.fault (h : OwnInHand p b role arrivals slot bind key bank s) (once : EachBufferInOnePlace s)
    (bytes : (s.buffer b).bytes = l) (found : lookup bank key s = ⟨.fault i, n, d⟩) (o : RiseOrder) :
    ∃ t, Machine.exec (.lookupConclusion p o) s = .next t ∧ Told p o (faulted bank i n d s)
      (fun u => FirstConcluded p l .refused none id (Dropped p b l .tableFault none u)) t := by
  have own := h
  obtain ⟨judge, -, settled, roles⟩ := own
  have phase : (s.judges.get p).phase = .lookup (.telegram b role key) bank := by rw [judge]
  obtain ⟨quiet, told⟩ := told_bytes (bank := bank) (i := i) (n := n) (d := d)
    (judged_used once (by rw [phase]; rfl)) bytes
  have keeps := KeepsJudging.faulted bank i n d s
  have refuses (u : State) (bytes : (u.buffer b).bytes = l) : concludeTelegram p b role bank (.fault i) u =
      concludeOwn p b role (describe p l) (.refuse .tableFault none) u := by
    rw [concludeTelegram_own roles, bytes]
    rfl
  refine ⟨_, exec_fault phase found o, ?_⟩
  cases o with
  | flagFirst =>
    refine ⟨fun _ => ?_, nofun⟩
    have judged := h.judged (keeps.trans (.tell .tableFault _)) (tell_out .tableFault _).judges
    have ends := (judged.conclude_refuse told .tableFault none).concludes
    rw [← refuses _ told] at ends
    exact ends
  | recordsFirst =>
    refine ⟨nofun, fun _ => ?_⟩
    have judged := h.judged keeps rfl
    obtain ⟨dropped, drop⟩ : ∃ u, u = Dropped p b l .tableFault none (faulted bank i n d s) := ⟨_, rfl⟩
    have written : concludeTelegram p b role bank (.fault i) (faulted bank i n d s) =
        writeOutcome p role .refused ⟨destOf l, classOf l, none⟩ dropped := by
      rw [refuses _ quiet, drop, Dropped_eq]
      change concludeRefuse p b role (describe p l) .tableFault none (faulted bank i n d s) = _
      unfold concludeRefuse
      rw [quiet]
      rfl
    have last : OwnJudged p role s (tell .tableFault dropped) := by
      have judges := (Dropped_frame p b l .tableFault none (faulted bank i n d s)).1
      rw [← drop] at judges
      have refused : KeepsJudging (faulted bank i n d s) dropped := by
        rw [drop, Dropped_eq]
        exact .refuseTelegram ..
      exact judged.next (refused.trans (.tell .tableFault _)) ((tell_out .tableFault _).judges.trans judges)
    have ends := concludes_own (l := l) (index := none) (broken := id) last.settled last.keeps last.roles
      fun c _ => endBinding_refused rfl
    rw [← tell_FirstConcluded, ← tell_writeOutcome, ← written] at ends
    rw [← drop]
    exact ends

end

end

end Sys2Proof.Machine
end

section
/-! SUPPORT. A rejudge whose lookup meets an uncorrectable row (R20, R42, R116, R117, R121). -/

namespace Sys2Proof.Machine

/-- The request of a port ended, beside what a verdict does. -/
def endedAside (p : Port) : Aside where
  requests := (⟨id, id⟩ : PerPort (Option Request → Option Request)).set p fun _ => none
  unplaced q := by
    rw [PerPort.get_set]
    split
    · rfl
    · cases q <;> rfl

section
variable {p : Port} {s u t : State} {bank : Bank} {i : Index} {n d m : Nat} {r : HeldRecord} {f : FirstPart}

theorem endedAside_eq (p : Port) (s : State) : aside (endedAside p) s = RequestEnded p s := by
  cases p <;> rfl

theorem endRequest_eq (p : Port) (s : State) : endRequest p s = RequestEnded p s := rfl

/-- The verdict of a rejudge is carried out beside the end of its request. -/
theorem carryVerdict_ended (r : HeldRecord) (f : FirstPart) (v : RejudgeVerdict) (s : State) :
    carryVerdict r f v (RequestEnded p s) = RequestEnded p (carryVerdict r f v s) := by
  rw [← endedAside_eq, ← endedAside_eq]
  exact carryVerdict_aside ..

/-! ### The refusal of a rejudge -/

theorem concludeRejudge_gone (gone : ∀ r ∈ u.hold.records, r.ref ≠ m) (stop : LookupStop) :
    concludeRejudge p m bank stop u = RequestEnded p u := by
  have none : u.heldRecord m = none := List.find?_eq_none.2 fun r hr => by simpa using gone r hr
  unfold concludeRejudge
  rw [none]
  rfl

theorem concludeRejudge_stale (stale : u.hold.outstanding.get p = some ⟨m, true⟩) :
    concludeRejudge p m bank (.fault i) u = RequestEnded p u := by
  have is : requestStale p u = true := by
    unfold requestStale
    rw [stale]
  unfold concludeRejudge
  split
  · rfl
  · split
    · rfl
    · dsimp only [verdictOf, rejudgeConsume]
      rw [if_pos is]
      rfl

theorem concludeRejudge_refused (held : u.heldRecord m = some r) (role : r.role = .first f)
    (fresh : u.hold.outstanding.get p = some ⟨m, false⟩) : concludeRejudge p m bank (.fault i) u =
      RequestEnded p (carryVerdict r f (.refuse .tableFault none) u) := by
  have current : requestStale p u = false := by
    unfold requestStale
    rw [fresh]
  have part : r.firstPart = some f := (firstPart_iff r f).2 role
  unfold concludeRejudge
  rw [held]
  dsimp only
  rw [part]
  exact (if_neg (ne_true_of_eq_false current)).trans (carryVerdict_ended ..)

/-- In each case its request has ended. -/
theorem concludeRejudge_ends (p : Port) (m : Nat) (bank : Bank) (i : Index) (u : State) :
    (concludeRejudge p m bank (.fault i) u).hold.outstanding.get p = none := by
  have ends (v : State) : (RequestEnded p v).hold.outstanding.get p = none := PerPort.get_set_self ..
  unfold concludeRejudge
  split
  · exact ends u
  · split
    · exact ends u
    · dsimp only [verdictOf, rejudgeConsume]
      split
      · exact ends u
      · rw [endRequest_eq, carryVerdict_ended]
        exact ends _

/-- A first without a partner is taken out. -/
theorem carryVerdict_takenOut (role : r.role = .first f) (alone : f.partner = none) (clear : f.awaiting = false)
    (slot : (u.judges.get r.port).slot = none) :
    carryVerdict r f (.refuse .tableFault none) u = TakenOut .tableFault none r u := by
  have removed := removeFirst_alone role alone clear .tableFault none (u.setRecords (u.hold.records.map (unmarking r f)))
  rw [TakenOut_single (unmarking_ref r f) fun h other => unmarking_other other (by rw [alone]; exact nofun)] at removed
  have leaves := TakenOut_leaves (p := r.port) .tableFault none r u
  rw [carryVerdict_refuse role, removed, Withdrawn,
    if_neg (by rw [leaves.slot, slot]; exact nofun)]
  rfl

/-! ### What the gate has then -/

variable {arrivals : List BufId} {bind : Option BindContext} {key : LookupKey} {z : State}

theorem RejudgeInHand.unended (h : RejudgeInHand p m arrivals bind key bank s) (keeps : KeepsJudging s z) :
    endReached p (freed p z) = none := by
  obtain ⟨judge, -, settled, -⟩ := h
  have before := (keeps.onlyRequests settled.onlyRequests).bindings p
  have phase : (z.judges.get p).phase = .lookup (.rejudge m key) bank := by rw [keeps.phase, judge]
  refine endReached_none_congr (s := z) p (by rw [freed_mine]) (fun d waits => ?_) before
  unfold someWaiting at waits ⊢
  rw [phase] at waits
  rw [freed_mine]
  exact waits

theorem rejudged_keeps (p : Port) (m : Nat) (bank : Bank) (i : Index) (n d : Nat) (o : RiseOrder) (s : State) :
    KeepsJudging s (withFault o (concludeRejudge p m bank (.fault i)) (faulted bank i n d s)) :=
  (KeepsJudging.faulted bank i n d s).withFault fun u => .concludeRejudge p m bank _ u

theorem withFault_ends (o : RiseOrder) :
    (withFault o (concludeRejudge p m bank (.fault i)) u).hold.outstanding.get p = none := by
  cases o with
  | flagFirst => exact concludeRejudge_ends ..
  | recordsFirst =>
    change (tell .tableFault _).hold.outstanding.get p = none
    rw [(tell_out .tableFault _).hold]
    exact concludeRejudge_ends ..

/-- The Judge turns to its next item. -/
theorem RejudgeInHand.turning (h : RejudgeInHand p m arrivals bind key bank s) (once : EachBufferInOnePlace s)
    (found : lookup bank key s = ⟨.fault i, n, d⟩) (o : RiseOrder) : Turning p (arrivals = [])
      (freed p (withFault o (concludeRejudge p m bank (.fault i)) (faulted bank i n d s))) := by
  have keeps := rejudged_keeps p m bank i n d o s
  have unended := h.unended keeps
  obtain ⟨judge, -, settled, distinct⟩ := h
  have ended := keeps.ended settled unended
  have phase : (s.judges.get p).phase = .lookup (.rejudge m key) bank := by rw [judge]
  have places := places_hands.events.lookup s p (.rejudge m key) bank o phase ⟨once, distinct⟩
  rw [concludeLookup_fault (it := .rejudge m key) found] at places
  refine ⟨places, by rw [freed_eq], by rw [freed_mine], ?_, ?_, ended.arrivals, .inl ended.commands, fun is => ?_⟩
  · rw [freed_mine]
    refine (keeps.slot p).elim (fun same => same.trans ?_) id
    rw [judge]
  · exact withFault_ends o
  · rw [freed_mine, keeps.arrivals, judge]
    exact is

/-- A rejudge in either order: its Judge's next item, and what is refused. -/
theorem RejudgeInHand.fault (h : RejudgeInHand p m arrivals bind key bank s) (once : EachBufferInOnePlace s)
    (found : lookup bank key s = ⟨.fault i, n, d⟩) (o : RiseOrder) :
    ∃ t, exec (.lookupConclusion p o) s = .next t ∧ NextRequested p arrivals t ∧
      Told p o (faulted bank i n d s) (concludeRejudge p m bank (.fault i)) t := by
  have keeps := rejudged_keeps p m bank i n d o s
  have turning := h.turning once found o
  have unended := h.unended keeps
  obtain ⟨judge, -, settled, -⟩ := h
  refine ⟨_, exec_fault (it := .rejudge m key) (by rw [judge]) found o, ?_, .of (concludes_stays settled keeps unended)⟩
  exact turning.nextRequested 1024 (turnsLeft_le p turning.once)

/-! ### What is refused -/

variable {o : RiseOrder}

/-- What is told leaves the records and the requests. -/
theorem told_hold (bank : Bank) (i : Index) (n d : Nat) (s : State) :
    (tell .tableFault (faulted bank i n d s)).hold = s.hold ∧ (faulted bank i n d s).hold = s.hold :=
  ⟨(tell_out .tableFault _).hold, rfl⟩

/-- What a rejudge refuses, told of the records and the requests of the gate. -/
theorem Told.rejudged {refusal : State → State}
    (h : Told p o (faulted bank i n d s) (concludeRejudge p m bank (.fault i)) t)
    (same : ∀ u : State, u.hold = s.hold → u.judges = s.judges → concludeRejudge p m bank (.fault i) u = refusal u) :
    Told p o (faulted bank i n d s) refusal t := by
  obtain ⟨told, quiet⟩ := told_hold bank i n d s
  exact h.congr (same _ told (tell_out .tableFault _).judges) (same _ quiet rfl)

theorem Told.rejudged_gone (h : Told p o (faulted bank i n d s) (concludeRejudge p m bank (.fault i)) t)
    (gone : ∀ r ∈ s.hold.records, r.ref ≠ m) : Told p o (faulted bank i n d s) (RequestEnded p) t :=
  h.rejudged fun u hold _ => concludeRejudge_gone (by rw [hold]; exact gone) _

theorem Told.rejudged_stale (h : Told p o (faulted bank i n d s) (concludeRejudge p m bank (.fault i)) t)
    (stale : s.hold.outstanding.get p = some ⟨m, true⟩) : Told p o (faulted bank i n d s) (RequestEnded p) t :=
  h.rejudged fun u hold _ => concludeRejudge_stale (by rw [hold]; exact stale)

theorem Told.rejudged_first (h : Told p o (faulted bank i n d s) (concludeRejudge p r.ref bank (.fault i)) t)
    (distinct : RefsDistinct s) (held : r ∈ s.hold.records) (role : r.role = .first f)
    (fresh : s.hold.outstanding.get p = some ⟨r.ref, false⟩) : Told p o (faulted bank i n d s)
      (fun u => RequestEnded p (carryVerdict r f (.refuse .tableFault none) u)) t := by
  refine h.rejudged fun u hold _ => concludeRejudge_refused ?_ role (by rw [hold]; exact fresh)
  unfold State.heldRecord
  rw [hold]
  exact heldRecord_mem distinct.1 held

theorem Told.rejudged_alone (h : Told p o (faulted bank i n d s)
    (fun u => RequestEnded p (carryVerdict r f (.refuse .tableFault none) u)) t) (role : r.role = .first f)
    (port : r.port = p) (alone : f.partner = none) (clear : f.awaiting = false) (slot : (s.judges.get p).slot = none) :
    Told p o (faulted bank i n d s) (fun u => RequestEnded p (TakenOut .tableFault none r u)) t := by
  have taken (u : State) (judges : u.judges = s.judges) :
      carryVerdict r f (.refuse .tableFault none) u = TakenOut .tableFault none r u :=
    carryVerdict_takenOut role alone clear (by rw [judges, port]; exact slot)
  exact h.congr (congrArg (RequestEnded p) (taken _ (tell_out .tableFault _).judges))
    (congrArg (RequestEnded p) (taken _ rfl))

end

/-- Settles O30: by the two orders of what is told, for a telegram that is no second, for a second and for a rejudge;
the next item of the rejudge's Judge by `Turning.nextRequested`. -/
theorem lookupFaultPoisonsTheRow : Obligations.LookupFaultPoisonsTheRow := by
  intro p key bank o s i n d once found concludes told
  have of {refusal : State → State} {t : State} (h : Told p o (faulted bank i n d s) refusal t) :
      concludes refusal t := by
    rw [told]
    rintro x rfl
    exact ⟨h.first, h.last⟩
  refine ⟨fun b role arrivals slot bind own l bytes => ?_, fun b role arrivals slot second l bytes => ?_,
    fun ref arrivals bind rejudge => ?_⟩
  · obtain ⟨t, exec, ends⟩ := own.fault once bytes.symm found o
    exact ⟨t, exec, of ends⟩
  · obtain ⟨t, exec, passed, held⟩ := second.fault once bytes.symm found o
    refine ⟨t, exec, fun list first is => of (passed list first is), fun ref first is distinct => ?_⟩
    have broken := held ref first is
    refine ⟨fun gone => of (broken.gone gone), fun r g mem named _ _ _ => ?_⟩
    subst named
    exact of (broken.held distinct mem)
  · obtain ⟨t, exec, next, ends⟩ := rejudge.fault once found o
    refine ⟨t, exec, next, fun gone => of (ends.rejudged_gone gone), fun stale => of (ends.rejudged_stale stale), ?_⟩
    intro r f mem named port role fresh
    subst named
    obtain ⟨judge, -, -, distinct⟩ := rejudge
    have carried := ends.rejudged_first distinct mem role fresh
    exact ⟨of carried, fun alone clear => of (carried.rejudged_alone role port alone clear (by rw [judge]))⟩

end Sys2Proof.Machine
end
